-- ==== Sys2Proof/Word.lean ====
section
/-!
DEFINITION. The word types of the CHX-8512 and the plainest facts about their widths (R3, R5, R27).
-/

namespace Sys2Proof

/-- A general register, a doubleword, an address as software forms it (R27, R116). -/
abbrev Word := BitVec 64

/-- One byte of memory (R5). -/
abbrev Byte := BitVec 8

/-- The number of a general register g0 to g31 (R27). -/
abbrev Reg := Fin 32

/-- Sparse data by number: entries by rising key, each key at most once. -/
abbrev Table (α : Type) := List (Nat × α)

end Sys2Proof
end

