-- ==== Sys2Proof/Machine/Types.lean ====
section
/-!
DEFINITION. The data that the fabric, the engines and the host side of the CHX-8512 hold: tokens, configuration images as
decoded, continuations, launches, runs, versions, placement and the partition's registers.  Plain data only.
-/

namespace Sys2Proof.Machine

/-! ## Tokens and images -/

/-- What an access is ordered after (R284, R286 to R295): every write up to number `floor`, of each party in `clock` its writes up to a
number, and the writes whose numbers `marks` lists.  The model's own. -/
structure View where
  floor : Nat
  clock : Table Nat
  marks : List Nat
  deriving DecidableEq, Repr, Inhabited

/-- Ordered after nothing. -/
def View.zero : View := ⟨0, [], []⟩

/-- Ordered after every write up to a number. -/
def View.upTo (n : Nat) : View := ⟨n, [], []⟩

/-- A token (R23).  `after` is the model's own: what the token is ordered after (R291). -/
structure Token where
  route  : BitVec 3
  frame  : BitVec 11
  iter   : BitVec 10
  kind   : BitVec 2
  soff   : BitVec 2
  target : BitVec 5
  slot   : BitVec 4
  port   : BitVec 1
  hops   : BitVec 10
  eod    : BitVec 4
  value  : Word
  after  : View
  deriving DecidableEq, Repr, Inhabited

/-- A weight slice named by `.weights` in an image (R13, R88): format code of R19, ESC, XVAL and the 2,752 bytes. -/
structure WeightImage where
  fmt   : Nat
  esc   : Bool
  xval  : BitVec 16
  slice : List Byte
  deriving DecidableEq, Repr, Inhabited

/-- The configuration of one element of a virtual stripe: slots present (R37), the configuration word of R213, weights and
the break mask of R333. -/
structure ElemImage where
  slots     : Table (BitVec 128)
  policy    : Word
  weights   : Option WeightImage
  breakMask : BitVec 16
  deriving DecidableEq, Repr, Inhabited

/-- A configured operator slot (R100): KIND, P0 to P7, OUT0 and OUT1 as destination fields of R21. -/
structure OpImage where
  kind : Nat
  p0 : Word
  p1 : Word
  p2 : Word
  p3 : Word
  p4 : Word
  p5 : Word
  p6 : Word
  p7 : Word
  out0 : BitVec 16
  out1 : BitVec 16
  deriving DecidableEq, Repr, Inhabited

/-- One virtual stripe of an image.  `pass` assigns a pass register to each cross-stripe destination, named by TARGET, SLOT
and PORT packed as in bits 99:90 of a token (R23); `stateful` lists the live pass registers of a stateful virtual stripe
(R13, R209); `epw` is the energy per wave (R396). -/
structure StripeImage where
  elems    : Table ElemImage
  ops      : Table OpImage
  pass     : Table (BitVec 10)
  stateful : Option (List Nat)
  epw      : BitVec 32
  deriving DecidableEq, Repr, Inhabited

/-- A decoded configuration image of one segment (R37, R156). -/
structure SegImage where
  pinned  : Bool
  stripes : List StripeImage
  deriving DecidableEq, Repr, Inhabited

/-! Where the bytes of a configuration stand in an image, which the spec leaves open (log 5): each number below that is not a code of the spec is
the offset of a value's first byte. -/

/-- A weight slice: format code and ESC, the offsets of XVAL and of the 2,752 bytes. -/
structure WeightLayout where
  fmt   : Nat
  esc   : Bool
  xval  : Nat
  slice : Nat
  deriving DecidableEq, Repr, Inhabited

/-- An element: the offsets of its instruction words, its configuration word and its break mask. -/
structure ElemLayout where
  slots     : Table Nat
  policy    : Nat
  weights   : Option WeightLayout
  breakMask : Nat
  deriving DecidableEq, Repr, Inhabited

/-- An operator: KIND, and the offsets of P0 to P7, OUT0 and OUT1. -/
structure OpLayout where
  kind   : Nat
  params : List Nat
  out0   : Nat
  out1   : Nat
  deriving DecidableEq, Repr, Inhabited

/-- A virtual stripe: `epw` is the offset of EPW. -/
structure StripeLayout where
  elems    : Table ElemLayout
  ops      : Table OpLayout
  pass     : Table (BitVec 10)
  stateful : Option (List Nat)
  epw      : Nat
  deriving DecidableEq, Repr, Inhabited

/-- A segment. -/
structure SegLayout where
  pinned  : Bool
  stripes : List StripeLayout
  deriving DecidableEq, Repr, Inhabited

/-! ## Elements -/

/-- A matched instance (R38): its slot, operand on port 0 and, for ARITY 0b10, on port 1. -/
structure Inst where
  slot : Nat
  a    : Token
  b    : Option Token
  deriving DecidableEq, Repr, Inhabited

/-- Where an entry of the frame store is (R215): in its resident line, in the carve-out or in the overflow area, the last two
with the index of its 32-byte place. -/
inductive EntryPlace where
  | resident
  | carveOut (i : Nat)
  | overflow (i : Nat)
  deriving DecidableEq, Repr, Inhabited

/-- An entry of the frame store (R214, R215): one waiting token, and its arrival sequence number within the element. -/
structure FrameEntry where
  tok   : Token
  slot  : Nat
  port  : BitVec 1
  seq   : Nat
  place : EntryPlace
  deriving DecidableEq, Repr, Inhabited

/-- A tile register with its control registers (R82).  Bytes not listed are zero. -/
structure Tile where
  type  : Nat
  rows  : Nat
  cols  : Nat
  bytes : Table Byte
  deriving DecidableEq, Repr, Inhabited

/-- An accumulator node (R91 to R93).  `acc` holds position 20·row + column, unlisted positions are +0 (or 0); `next` is the
next K-block of each band; `releaseDst`, `doneDst`, `topc`, `targ` and `tsel` are what ACFG stored. -/
structure Node where
  int        : Bool
  rows       : Nat
  brows      : Nat
  kblk       : Nat
  acc        : Table (BitVec 32)
  next       : Table Nat
  count      : Nat
  releaseDst : BitVec 16
  doneDst    : BitVec 16
  topc       : BitVec 4
  targ       : BitVec 11
  tsel       : Bool
  deriving DecidableEq, Repr, Inhabited

/-- The status record of an element (R47, R213): flags NV to SCUNF in bits 0 to 9, GISSUE and GINST modulo 2^48. -/
structure Status where
  flags  : BitVec 10
  gissue : BitVec 48
  ginst  : BitVec 48
  deriving DecidableEq, Repr, Inhabited

/-- The run-time state of one element of a physical stripe.  `out` holds the rest of a result that no register holds at once (log 53), `stuck` the
result tokens for which an element that waits at issue found no room (R202, R304).  Tile
keys 16 and 17 hold the operands that an MMG origin read at its issue, keys from 32 on copies on their way to the tile (R98); `mmgSent` names,
per slot of a member, the origin whose copy it has not issued yet (R224). -/
structure Elem where
  ready   : List Inst
  frame   : List FrameEntry
  lines   : Table (BitVec 14)
  seq     : Nat
  status  : Status
  lfsr    : BitVec 32
  allot   : Nat
  tiles   : Table Tile
  wfmt    : Nat
  esc     : Bool
  xval    : BitVec 16
  slice   : List Byte
  afmt    : Nat
  nodes   : Table Node
  ended   : List Nat
  eosSent : Bool
  eosTo   : List Nat
  mmgSent : Table Nat
  mmgOwed : List (Nat × Nat × Token × Option Token)
  faulted : Option Nat
  out     : List Token
  stuck   : List Token
  deriving DecidableEq, Repr, Inhabited

/-! ## Operators -/

/-- A replay-window entry of a ROUTE (R113, R336): the routed token and the version and location it is stamped with. -/
structure WinEntry where
  tok    : Token
  expert : Nat
  die    : Nat
  loc    : Nat
  tver   : Nat
  deriving DecidableEq, Repr, Inhabited

/-- A bulk transfer of a SEND operator not yet completed (R107): the input token, D, and the bytes still to be written. -/
structure SendJob where
  tok  : Token
  dest : Nat
  data : List Byte
  deriving DecidableEq, Repr, Inhabited

/-- The run-time state of one operator slot (R100).  `inputs` holds the tokens waiting at each input in arrival order
(R304); `ended` lists the inputs that recorded end-of-stream; `accesses` holds, per access in token order, its address token and whether it is
complete, for the completion tokens of R102; `jobs` numbers, in the same order, the posted operations of those not complete.  For a MERGE
`accesses` holds the waiting tokens in arrival order, each with whether it came on input 1 (R112). -/
structure Oper where
  inputs   : Table (List Token)
  ended    : List Nat
  eosSent  : Bool
  pos      : Nat
  base     : Option Token
  fillRow  : Nat
  /-- For a tile fill: the bytes of its rows that do not make up an 8-byte word of the tile yet (R86), and what its address tokens are
  ordered after (R291). -/
  fillTail : List Byte
  fillView : View
  accesses : List (Token × Bool)
  jobs     : List Nat
  /-- For an ACCUM: per route the partial, its count, and what its contributions are ordered after (R110, R291). -/
  partials : Table (Word × Nat × View)
  pool     : Table Token
  window   : List WinEntry
  select   : Table (Nat × List Int)
  version  : Option Nat
  /-- For a ROUTE: urgent retirements whose re-issue it owes (R336): expert, LOC, published version. -/
  redirect : List (Nat × Nat × Nat)
  sends    : List SendJob
  vdata    : List Word
  /-- What a loaded version releases (R295), and the stamp of the region that a version operation was issued to (R278, R296). -/
  vview    : View
  vstamp   : Option Nat
  parked   : Bool
  /-- For a ROUTE: a burst boundary has come at which it has not read the table yet (R349). -/
  due      : Bool
  faulted  : Option Nat
  /-- The values that its ordinary reads have fixed (R286), and what they are ordered after at the least (R285, R292). -/
  fixed    : Table Byte
  view     : View
  /-- The address of a posted reduction of its own that met an uncorrectable error. -/
  redErr   : Option Nat
  deriving DecidableEq, Repr, Inhabited

/-! ## Stripes and runs -/

/-- A token on its way inside a stripe or delivered to it, with the unit that sent it (R43): tokens of one sender on one route toward one
destination arrive in order; those that left one pass register arrive in its order (R202). -/
structure InFlight where
  src : Nat
  tok : Token
  crossed : Bool
  deriving DecidableEq, Repr, Inhabited

/-- A physical stripe (R192): the run and virtual stripe it holds, the step at which it was loaded, what waits for it and in
its pass registers, and its elements and operators.  `image` is the copy of the configuration it loaded; `party` numbers the load, which
makes its units new parties (R282), and `drained` covers the accesses of the configurations drained before it (R292, R295). -/
structure Stripe where
  run      : Option Nat
  vs       : Option Nat
  loadedAt : Nat
  party    : Nat
  drained  : View
  image    : StripeImage
  inbox    : List InFlight
  pass     : Table (List InFlight)
  elems    : Table Elem
  ops      : Table Oper
  deriving DecidableEq, Repr, Inhabited

/-- State of a stateful virtual stripe in the ring state store (R209). -/
structure SavedStripe where
  nodes : Table (Table Node)
  ops   : Table Oper
  pass  : Table (List InFlight)
  deriving DecidableEq, Repr, Inhabited

/-- The life of a run (table before R195). -/
inductive RunStatus where
  | waiting
  | running
  | stopping
  | halted
  | ended
  deriving DecidableEq, Repr, Inhabited

/-- A run of a segment (R155 to R159, R197 to R218).  `step` is the current scroll step and `stepDue` the moment at which its nominal
length is over; `stepOpen` holds while it lasts.  `burstOf` counts the waves of each burst begun, `waveNext` the waves delivered;
`lastBurst` is known once end-of-stream is reached, and `eosGiven` once the burst source has it.  `floor` is where its phase began, and
`drained` covers the accesses of the configurations drained so far (R292). -/
structure Run where
  launch    : Nat
  ticket    : Nat
  die       : Nat
  owner     : Nat
  ident     : Nat
  image     : SegImage
  phase     : Nat
  status    : RunStatus
  xorig     : Nat
  width     : Nat
  waves     : Nat
  spill     : Nat
  overflow  : Nat
  inFifo    : Nat
  outFifo   : Nat
  reserve   : Nat
  step      : Nat
  stepOpen  : Bool
  waveNext  : Nat
  burstOf   : List Nat
  lastBurst : Option Nat
  eosGiven  : Bool
  steps     : Nat
  bursts    : Nat
  stretched : Nat
  startTime : Nat
  endTime   : Nat
  saved     : Table SavedStripe
  records   : Table Status
  haltCause : Option Nat
  result    : Nat
  stepDue   : Nat
  floor     : View
  drained   : View
  deriving DecidableEq, Repr, Inhabited

/-! ## Continuations -/

/-- The loop state of R126 to R129. -/
structure Loop where
  active : Bool
  start  : Word
  stop   : Word
  reg    : Reg
  deriving DecidableEq, Repr, Inhabited

/-- What a blocked instruction waits for (R149), with what it read at issue. -/
inductive Wait where
  /-- The wait ends by executing the instruction again (fault service, free event entry, free queue slot, SEGLD records that
  SEGRUN needs, an STL or LDA held by earlier accesses). -/
  | again (why : Nat) (arg : Nat)
  | fence (scope : Nat) (classes : BitVec 5)
  | phase (d : Reg) (p : Nat)
  | bar (va : Word) (pa : Nat) (gen : BitVec 32)
  | evwait (d a : Reg) (deadline : Option Nat)
  | segrun (d : Reg) (run : Nat)
  | segwait (d : Reg) (run : Nat) (stats : Option Word)
  | strfree (d : Reg) (fifo : Nat)
  | flsig (d : Reg) (job : Nat)
  /-- A VST or VLD that has not reached its home, or is parked there: region number, its stamp, granule and version. -/
  | vst (region stamp granule : Nat) (v : Word) (data : List Byte)
  | vld (region stamp granule : Nat) (v : Word) (dest : Word)
  | vldDone (data : List Byte) (rel : View) (dest : Word)
  | vstDone
  /-- The home of a versioned region became LOST (R175). -/
  | memerr (va : Word)
  | missver (v : Word)
  | vstale (v : Word)
  | plsync (d : Reg) (part upto : Nat)
  | qquiesce (part q : Nat)
  deriving DecidableEq, Repr, Inhabited

/-- What a continuation is doing (R219). -/
inductive ThreadStatus where
  | queued
  | running (core : Nat)
  | blocked (w : Wait)
  | stopped
  | exited
  deriving DecidableEq, Repr, Inhabited

/-- A continuation, or the context of a management core, with all that R27, R129, R280 and R147 save and restore with it. -/
structure Thread where
  id        : Nat
  launch    : Option Nat
  die       : Nat
  serial    : Nat
  prio      : Bool
  phase     : Nat
  arrived   : Bool
  root      : Bool
  regs      : Vector Word 32
  pc        : Word
  loop      : Loop
  heldLoop  : Loop
  trapPc    : Word
  trapCause : Word
  trapVal   : Word
  expStep   : Word
  trapVec   : Word
  scratch   : Word
  inTrap    : Bool
  cont      : Word
  contFp    : Word
  noBreak   : Bool
  cycles    : Nat
  fresh     : Bool
  status    : ThreadStatus
  home      : Option Nat
  /-- The values that its ordinary reads have fixed (R286); the write that its phase began after; what its reads are ordered after beside
  (R133, R290, R294); and its copies' writes, for FENCE with the COPY class (R139). -/
  fixed     : Table Byte
  floor     : View
  view      : View
  copied    : View
  /-- The posted reductions, and the posted stores, that met an uncorrectable error: their addresses, and the engine jobs issued before
  them (R138, R168). -/
  redErr    : List (Nat × Nat)
  stErr     : List (Nat × Nat)
  /-- Word 0 of the instruction that is blocked, or was abandoned; 0 for none (R330). -/
  inst      : BitVec 32
  deriving DecidableEq, Repr, Inhabited

/-! ## Cores -/

/-- An event record (R152) with the continuation it belongs to (R151), and the writes whose visibility it certifies (R166, R284). -/
structure EvRecord where
  owner  : Nat
  kind   : BitVec 8
  status : BitVec 8
  id     : BitVec 16
  seq    : BitVec 32
  tag    : Word
  arg1   : Word
  arg2   : Word
  view   : View
  deriving DecidableEq, Repr, Inhabited

/-- A control or management core: the continuation it runs; its fetch buffers, which keep words by partition and address (2^64 times the
partition, plus the address) until CINVAL; the words of its loop and REP buffers, by address (R129, R146); `stale` holds from a CINVAL inside a
REP body to the end of the pass. -/
structure Core where
  running : Option Nat
  fetched : Table (BitVec 32)
  body    : Table (BitVec 32)
  stale   : Bool
  deriving DecidableEq, Repr, Inhabited

/-- What a core holds for one launch (R150 to R152, R316, R334): its event queue, ticket and SEQ counters, breakpoints and stack
window, and per engine queue what its ordered copies have written (R166). -/
structure CoreCtx where
  events   : List EvRecord
  reserved : List Nat
  ticket   : BitVec 16
  seq      : BitVec 32
  brkAddr  : Table Word
  brkCtl   : BitVec 8
  stkBase  : Word
  stkSize  : Word
  stkOvf   : Word
  ordered  : Table View
  deriving DecidableEq, Repr, Inhabited

/-! ## Memory traffic under way -/

/-- A posted store on its way to its home (R131, R293). -/
structure PostedStore where
  owner : Nat
  pa    : Nat
  va    : Word
  data  : List Byte
  /-- For a release (STL): 16 times its scope code, plus the issuer's die; else 0. -/
  rel   : Nat
  /-- The engine jobs issued before it (R168). -/
  job   : Nat
  deriving DecidableEq, Repr, Inhabited

/-- A posted reduction (R138): operation code and size of R34, operand and address. -/
structure PostedRed where
  owner : Nat
  /-- The launch number plus one of its owner, 0 for management code. -/
  mark  : Nat
  aop   : Nat
  bytes : Nat
  pa    : Nat
  va    : Word
  value : Word
  job   : Nat
  deriving DecidableEq, Repr, Inhabited

/-- An entry of an HBM stack's write queue (R258): one line, one pair of AOP and SIZE, and the reductions that have combined into it in
arrival order. -/
structure QueueEntry where
  line : Nat
  aop  : Nat
  bytes : Nat
  ops  : List PostedRed
  deriving DecidableEq, Repr, Inhabited

/-- A write as an aligned 8-byte unit sees it: who wrote, what the unit held before (R287), what a party that observes it observes with it
(R166), and all the bytes written. -/
structure PhaseWrite where
  seq    : Nat
  launch : Nat
  party  : Nat
  unit   : Nat
  old    : List Byte
  brings : View
  pa     : Nat
  len    : Nat
  deriving DecidableEq, Repr, Inhabited

/-- Bytes last written by a release (R133, R361, R379): first address, the bytes, the releaser's launch plus one (0 for any other), 16 times
the scope code plus the releaser's die (14 for a peer, 15 for the host), and what the release carries. -/
structure Release where
  pa   : Nat
  data : List Byte
  mark : Nat
  rel  : Nat
  view : View
  deriving DecidableEq, Repr, Inhabited

/-- A translation held by a TLB (R269): partition (16 is the management table), first virtual page address, size, physical
address and permissions. -/
structure TlbEntry where
  part : Nat
  va   : Nat
  size : Nat
  pa   : Nat
  r    : Bool
  w    : Bool
  x    : Bool
  deriving DecidableEq, Repr, Inhabited

/-! ## Faults -/

/-- The agent of a replayable fault, and what it was doing (R272, R274). -/
inductive FaultAgent where
  | thread (tid : Nat)
  | oper (x o : Nat)
  | elem (x e : Nat)
  | copy (id : Nat)
  deriving DecidableEq, Repr, Inhabited

/-- A replayable fault that has struck and waits for a record, or is attached to one: `slot` is 64 times the launch that holds the
record, plus the fault slot. -/
structure PendingFault where
  launch : Nat
  die    : Nat
  agent  : FaultAgent
  va     : Nat
  reason : Nat
  level  : Nat
  cls    : Nat
  unit   : Nat
  slot   : Option Nat
  deriving DecidableEq, Repr, Inhabited

/-! ## Engines -/

/-- A copy (R163 to R167), with its snapshot of the block.  `owner` issued it; `placement` names the action it serves.  It is a party
of its own (R282): its reads are ordered after `floor` and fix values (R286), and what observes its bytes observes `after` (R166).  `tail`
holds the bytes, from a physical address on, of an 8-byte unit of its row that the next chunk completes (R287); `started` is when it
started in its queue. -/
structure CopyJob where
  id       : Nat
  die      : Nat
  queue    : Nat
  owner    : Nat
  launch   : Nat
  part     : Nat
  core     : Nat
  phase    : Nat
  ticket   : BitVec 16
  src      : Word
  dst      : Word
  len      : Nat
  rows     : Nat
  sstride  : Word
  dstride  : Word
  tag      : BitVec 32
  norec    : Bool
  verify   : Bool
  ordered  : Bool
  digest   : Word
  expected : List Byte
  done     : Nat
  chunk    : Nat
  finished : Option (Nat × Nat)
  frozen   : Bool
  placement : Option Nat
  faulted  : Bool
  started  : Bool
  floor    : View
  fixed    : Table Byte
  after    : View
  tail     : Option (Nat × List Byte)
  deriving DecidableEq, Repr, Inhabited

/-- A SEGLD whose record is not delivered yet (R156). -/
structure SegLoad where
  id     : Nat
  launch : Nat
  die    : Nat
  core   : Nat
  owner  : Nat
  ident  : Nat
  handle : Nat
  assigning : Bool
  deriving DecidableEq, Repr, Inhabited

/-- A segment handle of a launch on a die (R156): the SEGLD that assigned it while its record is pending, whether its checks have
been made since the last CFGINV, the status and ARG1 of the last checks, the status of the assigning SEGLD, and the configuration. -/
structure Handle where
  ident   : Nat
  loading : Option Nat
  checked : Bool
  status  : Nat
  arg1    : Word
  first   : Nat
  image   : Option SegImage
  deriving DecidableEq, Repr, Inhabited

/-- A FLSIG under way (R168). -/
structure FlushJob where
  id     : Nat
  owner  : Nat
  launch : Option Nat
  core   : Nat
  ticket : BitVec 16
  addr   : Word
  pa     : Nat
  value  : Word
  wait   : Bool
  failed : Bool
  done   : Bool
  deriving DecidableEq, Repr, Inhabited

/-- A bound stream FIFO (R161, R256).  `appended` covers the writes that its appends made, which its readers receive. -/
structure Fifo where
  virt     : Bool
  base     : Nat
  ring     : Nat
  size     : Nat
  rpos     : Nat
  wpos     : Nat
  start    : Nat
  eos      : Bool
  bound    : Bool
  appended : View
  deriving DecidableEq, Repr, Inhabited

/-- A range of the range unit (R173). -/
structure Range where
  total     : Nat
  remaining : Nat
  parties   : Nat
  minimum   : Nat
  deriving DecidableEq, Repr, Inhabited

/-- What a launch holds on one die.  `slots` maps each fault slot with a pending record to its page, class and ATTACH count. -/
structure LaunchDie where
  handles  : Table Handle
  fifos    : Table Fifo
  nextFifo : Nat
  ranges   : Table Range
  low      : List Nat
  high     : List Nat
  serial   : Nat
  svc      : List Nat
  slots    : Table (List Nat)
  trcount  : Nat
  deriving DecidableEq, Repr, Inhabited

/-- The life of a launch (R315, R317, R326 to R331). -/
inductive LaunchStatus where
  | checked
  | placed
  | halting
  | halted
  | saving
  | saved
  deriving DecidableEq, Repr, Inhabited

/-- A launch (R312 to R317); its number is its place in fetch order (R319).  `heldOwed` is set while its completion entry with HELD = 1
is still to be written (R326).  `placedAt` is when it was placed, moved on by the time that it
spent saved; while it is saved, `savedFor` is how long it had been placed (R394). -/
structure Launch where
  part     : Nat
  queue    : Nat
  index    : Word
  cookie   : Word
  ident    : Word
  obj      : Nat
  entry    : Word
  arg      : Word
  faultH   : Word
  fmode    : Nat
  trapHold : Bool
  placeCtl : Bool
  overlap  : Bool
  xreq     : Nat
  xbase    : Nat
  xext     : Nat
  rootDie  : Nat
  svcBase  : Word
  stkBase  : Word
  stkSize  : Nat
  ovfSize  : Nat
  phase    : Nat
  frozenT  : Option Nat
  nextTicket : Nat
  status   : LaunchStatus
  result   : Nat
  held     : Bool
  heldOwed : Bool
  preempt  : List (Nat × Nat × BitVec 16)
  placedAt : Nat
  savedFor : Nat
  digest   : Option (List Byte)
  dies     : Table LaunchDie
  deriving DecidableEq, Repr, Inhabited

/-- A CTXSAVE or CTXREST under way (R328, R331): who issued it and at which image; for a CTXSAVE the launch's identifier, and the size that the image
had when it was issued. -/
structure CtxJob where
  restore : Bool
  launch  : Nat
  owner   : Nat
  core    : Nat
  ticket  : BitVec 16
  addr    : Word
  ident   : Word
  size    : Nat
  deriving DecidableEq, Repr, Inhabited

/-! ## Versions -/

/-- A granule of a versioned region: latest version, retained versions with their bytes, oldest first (R176). -/
structure Granule where
  latest   : Nat
  versions : Table (List Byte)
  deriving DecidableEq, Repr, Inhabited

/-- A registered reader: mark and the continuation that last set it (R177, R298). -/
structure Reader where
  mark   : Nat
  holder : Nat
  deriving DecidableEq, Repr, Inhabited

/-- A version operation parked at its home, in parking order (R278).  `unit` is a continuation's id for control cores and an
operator's stripe and slot otherwise. -/
inductive Parked where
  | thread (tid : Nat)
  | oper (x o : Nat)
  deriving DecidableEq, Repr, Inhabited

/-- A declared versioned region (R175).  `pages` are the physical pages of its heap and `stamp` tells its declaration from others.  A
retained version with no bytes is undefined, and so is version 0 of every granule not listed once `spoiled` is set (R401). -/
structure Region where
  base     : Nat
  size     : Nat
  depth    : Nat
  home     : Nat
  heapBase : Nat
  heapSize : Nat
  pages    : List Nat
  since    : Nat
  stamp    : Nat
  granules : Table Granule
  readers  : Table Reader
  creators : List Nat
  releases : Table (Table View)
  spoiled  : Bool
  deriving DecidableEq, Repr, Inhabited

/-- A parked wait entry of a home die (R278): region, granule index, version, whether it is a store, its data, its issuer. -/
structure ParkEntry where
  part    : Nat
  region  : Nat
  granule : Nat
  version : Nat
  store   : Bool
  data    : List Byte
  issuer  : Parked
  deriving DecidableEq, Repr, Inhabited

/-! ## Placement -/

/-- A registered expert (R340) with its load counters and averages per die (R342). -/
structure Expert where
  addr   : Word
  size   : Nat
  digest : List Byte
  count  : Table Nat
  avg    : Table Nat
  deriving DecidableEq, Repr, Inhabited

/-- The policy block of PLPOL (R180). -/
structure Policy where
  table  : Nat
  enable : Bool
  window : Nat
  hot    : Nat
  idle   : Nat
  maxAct : Nat
  maxRep : Nat
  deriving DecidableEq, Repr, Inhabited

/-- The states of a placement action (R352). -/
inductive ActState where
  | queued
  | copy
  | publish
  | rollback
  | drain
  | done
  deriving DecidableEq, Repr, Inhabited

/-- A placement action of Equinox's queue (R182, R352): its issue number, and once known the location's address, LOC and published
version (`arg2`).  `report` names the core, the continuation and the ticket that await its record; a proposed action has none.  It is a party
of its own (R282): it belongs to the launch and the phase in which it was queued, which began after write `floor` (R285), and it acts after
`view` (R335). -/
structure Action where
  issue  : Nat
  add    : Bool
  urgent : Bool
  expert : Nat
  die    : Nat
  state  : ActState
  slot   : Nat
  loc    : Nat
  result : Nat
  arg2   : Word
  report : Option (Nat × Nat × BitVec 16)
  launch : Option Nat
  floor  : View
  view   : View
  deriving DecidableEq, Repr, Inhabited

/-- The placement state of a partition (R340 to R357).  `owed` are actions that are DONE and whose record waits until their launch is restored
(R327).  `nextAt` is the next window boundary; `slots` are the allocated ranges of
the pools: die, base, size, expert; `since` is when the window began, `busy` the time that each die's stripes were busy in it, in
stripe-nanoseconds, and `late` what they were busy after its end: a die, from when and till when. -/
structure Place where
  policy    : Option Policy
  pending   : Option Policy
  nextAt    : Nat
  region    : Nat
  experts   : Table Expert
  actions   : List Action
  owed      : List Action
  nextIssue : Nat
  slots     : List (Nat × Nat × Nat × Nat)
  since     : Nat
  busy      : Table Nat
  late      : List (Nat × Nat × Nat)
  wasRead   : Bool
  deriving DecidableEq, Repr, Inhabited

/-! ## The partition's interface -/

/-- A submission queue (R308).  `live` are the fetched packets not yet complete, with their launches (R309). -/
structure Queue where
  sqbase  : Word
  cqbase  : Word
  weight  : Nat
  prio    : Nat
  cqlog   : Nat
  sqlog   : Nat
  sqwr    : Word
  sqrd    : Word
  cqwr    : Word
  cqrd    : Word
  state   : Nat
  enable  : Bool
  live    : List (Nat × List Word × Option Nat)
  refs    : List Nat
  deriving DecidableEq, Repr, Inhabited

/-- A loaded code object (R312, R313): identifiers with image addresses, features. -/
structure CodeObject where
  table    : List (Nat × Word)
  features : List Word
  removing : Bool
  deriving DecidableEq, Repr, Inhabited

/-- A stream table entry with its key and receive sequence (R376, R378). -/
structure Stream where
  state : Nat
  ppart : Nat
  peer  : Nat
  txseq : Nat
  rxseq : Nat
  key   : Option (List Byte)
  deriving DecidableEq, Repr, Inhabited

/-- A window write travelling on a stream (R379): issuer and launch number plus one (0 for management code), local address, acknowledged or failed;
`job` is the number of the next engine job at its issue, or for a copy the bytes of it that stand before the chunk. -/
structure WindowWrite where
  owner  : Nat
  launch : Nat
  part   : Nat
  stream : Nat
  seq    : Nat
  va     : Nat
  remote : Nat
  data   : List Byte
  red    : Option Nat
  rel    : Bool
  failed : Bool
  job    : Nat
  deriving DecidableEq, Repr, Inhabited

/-- An inbound access of the host held at the I/O die or under way to its route (R359, R367). -/
structure Inbound where
  part  : Nat
  req   : Nat
  route : Option Nat
  pa    : Nat
  va    : Nat
  data  : List Byte
  reg   : Option Nat
  sent  : Bool
  held  : Bool
  deriving DecidableEq, Repr, Inhabited

/-- What the device issues on the host link (R364, R368, R372), each TLP of the VF of a partition (16: the PF, for management code) with the
IDE T bit set: a posted write, a read, an AtomicOp (operation of R34, bytes, operand, comparand), and an MSI-X vector. -/
inductive HostTlp where
  | write (vf addr : Nat) (data : List Byte)
  | read (vf addr bytes : Nat)
  | atomic (vf addr aop bytes operand compare : Nat)
  | msix (vf vector : Nat)
  deriving DecidableEq, Repr, Inhabited

/-- An invalidation under way (R371). -/
structure Invalidation where
  seq   : Word
  first : Nat
  pages : Nat
  deriving DecidableEq, Repr, Inhabited

/-- The assignment block of a partition (R369). -/
structure Assign where
  xcode      : Nat
  xbase      : Nat
  placeRight : Bool
  hbm        : Table Word
  dsm        : Table Word
  deriving DecidableEq, Repr, Inhabited

/-- A partition: its registers (R365), keys (R382), objects, regions and placement. -/
structure Partition where
  assign    : Assign
  tdi       : Nat
  ptroot    : Word
  winbase   : Word
  queues    : Table Queue
  acks      : Table Word
  heldCnt   : Word
  drop      : Word
  invVa     : Word
  invPages  : Word
  invDone   : Word
  invals    : List Invalidation
  frBase    : Word
  frLog     : Nat
  frWr      : Word
  frRd      : Word
  accept    : List Word
  limit     : Nat
  pools     : Table (Word × Word)
  heaps     : Table (Word × Word)
  windows   : Table Word
  streams   : Table Stream
  memKey    : Option (List Byte)
  wrapKey   : Option (List Byte)
  keyCount  : Option Nat
  objects   : Table CodeObject
  regions   : Table Region
  place     : Place
  placedCnt : Nat
  deriving DecidableEq, Repr, Inhabited

/-! ## Deadlock probes -/

/-- The probing state of a blocked unit (R300): unit identifier, epoch, when it opened, the next round, probes forwarded. -/
structure Epoch where
  number  : Nat
  since   : Nat
  round   : Nat
  active  : Bool
  seen    : List (Nat × Nat × Nat)
  deriving DecidableEq, Repr, Inhabited

/-- A probe on its way along an edge: its content and the path it has travelled, each unit with its wait code (R300, R301). -/
structure Probe where
  origin : Nat
  epoch  : Nat
  round  : Nat
  hops   : Nat
  target : Nat
  path   : List (Nat × Nat)
  launch : Nat
  deriving DecidableEq, Repr, Inhabited

/-! ## Boot, firmware, energy -/

/-- A scheduler-firmware slot (R185, R384): staged bytes, their count, verified. -/
structure FwSlot where
  package  : List Byte
  count    : Nat
  verified : Bool
  deriving DecidableEq, Repr, Inhabited

/-- The heartbeat watchdog (R386, R387, R389, R393): none armed; waiting for the first HBEAT of an image that boot started, with the slot still to
try; waiting for the first HBEAT after a SLOTSW, with the slot to fall back to, or after a restart; or running. -/
inductive Watch where
  | off
  | boot (deadline : Nat) (other : Option Nat)
  | first (deadline : Nat) (fallback : Option Nat)
  | beating (deadline : Nat)
  deriving DecidableEq, Repr, Inhabited

/-- What the PF keeps of its SPDM connection: the version, and the messages so far that signatures cover: of the negotiation, of digests and
certificates, and of measurements (R380; log 9). -/
structure Spdm where
  version : Byte
  vca     : List Byte
  certs   : List Byte
  meas    : List Byte
  deriving DecidableEq, Repr, Inhabited

/-- No connection. -/
def Spdm.blank : Spdm := ⟨0x12, [], [], []⟩

/-- The I/O die's device registers and firmware state.  `linkKeys` are the keys drawn at boot for the links, 0 to 7 the star links by die and
8 + d the bridge from D(d - 1) to Dd, `linkFails` the flits that failed on each one after the other (R374), `mgmtKey` is the key of management memory (R383). -/
structure IoDie where
  khmask    : Table Word
  fwslot    : Nat
  hbeat     : Word
  handover  : Word
  stage     : Nat
  nosched   : Bool
  dieState  : Table Nat
  stopped   : Bool
  devid     : BitVec 22
  measure   : Table (List Byte)
  slots     : Table FwSlot
  watch     : Watch
  bootSlot  : Nat
  mgmtRoot  : Nat
  mgmtKey   : List Byte
  linkKeys  : Table (List Byte)
  linkFails : Table Nat
  spdm      : Spdm
  regions   : Table Region
  budget    : Table Nat
  budgetIn  : Table Nat
  energy    : Table Nat
  energyAt  : Nat
  booted    : Bool
  deriving DecidableEq, Repr, Inhabited

end Sys2Proof.Machine
end

