-- ==== Sys2Proof/Config.lean ====
section
/-!
DEFINITION. What an implementation fixes and the values the spec leaves open.  Every `opaque` constant has no body, so
nothing can be proved of its value; each is named in a log entry.
-/

namespace Sys2Proof.Config

open Sys2Proof Sys2Proof.Machine

/-- FEATOFFER word 0 (R400); words 1 to 3 are zero. -/
def featOffer : List Word := [0x3F, 0, 0, 0]

/-- The byte an unlisted address of a unit reads as under a regime other than 0 (log 6, 7). -/
opaque openByte : Nat → Nat → Byte

/-- What the host returns for byte a of its memory at the n-th draw (R368; log 17). -/
opaque hostByte : Nat → Nat → Byte

/-- Whether the host answers the n-th read with an error status (R368; log 17). -/
opaque hostError : Nat → Bool

/-- Bytes of a configuration image that SEGLD fetches from its address, from the image's first 64 bytes (log 5). -/
opaque imageLength : List Byte → Nat

/-- Where an image's bytes hold the words of its configuration, or none where they form no image (R37, R156; log 5). -/
opaque decodeImage : List Byte → Option SegLayout

/-- Which of the results that R70 allows the special-function unit delivers, for function number 0 to 7 (RCP, RSQ, SQRT, EXP2,
LOG2, TANH, SIGM, ERF) and the operand as a binary32 pattern (R70; log 8). -/
opaque sfuPick : Nat → Nat → Nat

/-- The lane that CVT gives the ternary value −1 in an unsigned type of this code (R68; log 8). -/
opaque ternaryNegative : Nat → Nat

/-- Whether byte i of a failing copy chunk holds its new value, at the n-th draw (R165; log 4). -/
opaque chunkNew : Nat → Nat → Bool

/-- The token an entry refilled from an overwritten place becomes, at the n-th draw (R215; log 4). -/
opaque openToken : Nat → Token

/-- Byte i of a version whose heap was reached by other accesses, at the n-th draw (R401; log 4). -/
opaque versionByte : Nat → Nat → Byte

/-- The Ed25519 verdict on a message and signature under the vendor key (R384; log 9). -/
opaque ed25519 : List Byte → List Byte → Bool

/-- The ML-DSA-65 verdict on a message and signature under the vendor key (R384; log 9). -/
opaque mlDsa65 : List Byte → List Byte → Bool

/-- The k-th key that the I/O die draws at the n-th draw (R374, R383; log 9). -/
opaque drawnKey : Nat → Nat → List Byte

/-- The nonce under which a flit of a star link is sealed (R374; log 9). -/
opaque linkNonce : List Byte → List Byte

/-- Fuse and ROM contents, and whether the fuse check passes (R389; log 9). -/
opaque romAndFuses : List Byte
opaque fusesGood : Bool

/-- The firmware packages in flash: 0 the I/O die, 1 + d compute die d, 9 June, 10 December (R389; log 9). -/
opaque flash : Nat → List Byte

/-- Whether the star link to die d, and for d ≥ 1 its bridge, train at boot (R389; log 9). -/
opaque linkTrains : Nat → Bool

/-- The interface report of LOCK_INTERFACE: partition, assignment, DEVID, accepted set (R370, R399; log 9). -/
opaque interfaceReport : Nat → Assign → BitVec 22 → List Word → List Byte

/-- The certificate chains of the device identity: slot 0 Ed25519, slot 1 ML-DSA-65 (R380; log 9). -/
opaque certChain : Nat → List Byte

/-- The device's Ed25519 and ML-DSA-65 signatures over a transcript hash, for a response code (R380; log 9). -/
opaque ed25519Sign : Nat → List Byte → List Byte
opaque mlDsa65Sign : Nat → List Byte → List Byte

/-- The nonce of an SPDM response at the n-th draw (log 9). -/
opaque spdmNonce : Nat → List Byte

/-- Registry, length and number by which an OpaqueData element names Akfitia as its vendor (R380; log 9). -/
opaque spdmVendor : List Byte

/-- The body of CAPABILITIES, and the algorithm structures of ALGORITHMS for a request (log 9). -/
opaque spdmCapabilities : List Byte
opaque spdmAlgorithms : List Byte → List Byte

/-- What KEY_EXCHANGE_RSP holds before its opaque data and after its signature, by draw and request (log 9). -/
opaque spdmExchange : Nat → List Byte → List Byte
opaque spdmVerify : Nat → List Byte → List Byte

/-- The PF's answer at a draw to any other SPDM request: sessions and what travels in them (log 9). -/
opaque spdmOther : Nat → List Byte → List Byte

/-- The bytes of section k of a context image written at the n-th draw (R330; log 13). -/
opaque sectionBytes : Nat → Nat → List Byte

/-- The length of a section, by what a launch holds, KIND and UNIT (R330; log 13). -/
opaque sectionSize {α : Type} : α → Nat → Nat → Nat

/-- Which addresses a management-code heap reservation of a size on a die finds room (R175; log 16). -/
opaque mgmtHeapFits : Nat → Nat → Nat → Bool

/-- The k-th page of management heap that a die gives the declaration of a stamp (R175; log 16). -/
opaque mgmtHeapPage : Nat → Nat → Nat → Nat

/-- Which 64 bytes of its region's heap hold a version: by the declaration's stamp, the granule and the version (R175; log 16). -/
opaque heapSlot : Nat → Nat → Nat → Nat

end Sys2Proof.Config
end

