-- ==== Sys2Proof/Machine/Table.lean ====
section
/-!
DEFINITION. Sparse tables kept by rising key, bit fields, sign extension and little-endian bytes (R3, R5).
-/

namespace Sys2Proof

/-! ## Tables -/

/-- The entry of a key, if listed. -/
def Table.find {α : Type} (k : Nat) : Table α → Option α
  | [] => none
  | (j, v) :: t => if j = k then some v else Table.find k t

/-- The entry of a key, or a default. -/
def Table.getD {α : Type} (t : Table α) (k : Nat) (d : α) : α :=
  match Table.find k t with
  | some v => v
  | none => d

/-- Sets the entry of a key, keeping keys rising. -/
def Table.set {α : Type} (k : Nat) (v : α) : Table α → Table α
  | [] => [(k, v)]
  | (j, w) :: t => if j = k then (k, v) :: t else if k < j then (k, v) :: (j, w) :: t else (j, w) :: Table.set k v t

/-- Removes the entry of a key. -/
def Table.erase {α : Type} (k : Nat) : Table α → Table α
  | [] => []
  | (j, w) :: t => if j = k then t else (j, w) :: Table.erase k t

/-- The least number from 0 that is not a key, below the bound n (n when none is free). -/
def Table.firstFree {α : Type} (t : Table α) (n : Nat) : Nat :=
  match (List.range n).find? (fun k => (Table.find k t).isNone) with
  | some k => k
  | none => n

/-- Changes the value of every entry. -/
def Table.mapVals {α β : Type} (f : Nat → α → β) (t : Table α) : Table β :=
  t.map (fun p => (p.1, f p.1 p.2))

/-! ## Bit fields -/

/-- v[hi:lo] of a natural number. -/
def bits (v hi lo : Nat) : Nat := v / 2 ^ lo % 2 ^ (hi + 1 - lo)

/-- Bit i of a natural number. -/
def bit (v i : Nat) : Bool := v / 2 ^ i % 2 == 1

/-- The two's-complement reading of the low w bits of v. -/
def signed (w v : Nat) : Int := if v % 2 ^ w < 2 ^ (w - 1) then (v % 2 ^ w : Nat) else (v % 2 ^ w : Nat) - (2 ^ w : Nat)

/-- The low w bits of an integer (R7). -/
def wrapInt (w : Nat) (v : Int) : Nat := (v % (2 ^ w : Nat)).toNat

/-- SignExtend(v, b) of R117. -/
def sext (b v : Nat) : Word := BitVec.ofInt 64 (signed b v)

/-- Ceiling division. -/
def ceilDiv (a b : Nat) : Nat := (a + b - 1) / b

/-- One if a condition holds, else zero. -/
def ofBool (b : Bool) : Nat := if b then 1 else 0

/-! ## Little-endian bytes (R5) -/

/-- The value of bytes, lowest address first. -/
def leNat : List Byte → Nat
  | [] => 0
  | b :: t => b.toNat + 256 * leNat t

/-- The low n bytes of a value, lowest address first. -/
def leBytes : Nat → Nat → List Byte
  | 0, _ => []
  | n + 1, v => BitVec.ofNat 8 v :: leBytes n (v / 256)

/-- Big-endian bytes of a value (used by SHA-384). -/
def beBytes (n v : Nat) : List Byte := (leBytes n v).reverse

/-- Doublewords as bytes. -/
def wordBytes (ws : List Word) : List Byte := ws.flatMap (fun w => leBytes 8 w.toNat)

/-- The doublewords of a byte list of 8 n bytes. -/
def bytesWords : Nat → List Byte → List Word
  | 0, _ => []
  | n + 1, bs => BitVec.ofNat 64 (leNat (bs.take 8)) :: bytesWords n (bs.drop 8)

/-- The element i of a list, or a default. -/
def nth {α : Type} (l : List α) (i : Nat) (d : α) : α := l.getD i d

/-- The list without its element i. -/
def dropAt {α : Type} (l : List α) (i : Nat) : List α := l.take i ++ l.drop (i + 1)

/-- The list with its element i replaced. -/
def putAt {α : Type} (l : List α) (i : Nat) (v : α) : List α := l.set i v

/-- The low 48 bytes (or n bytes) of a list, padded with zeros. -/
def padTo (n : Nat) (bs : List Byte) : List Byte := bs.take n ++ List.replicate (n - bs.length) 0

end Sys2Proof
end

