-- ==== Sys2Proof/Machine/Aes.lean ====
section
/-!
DEFINITION. AES-256 with the GCM and XTS modes that the spec names (R276, R374, R377, R382).  The algorithms are those of FIPS 197, SP 800-38D and
IEEE 1619, which the spec does not print (PRESUMED, log 10).
-/

namespace Sys2Proof.Machine

open Sys2Proof

/-! ## The block cipher -/

/-- Twice an element of the field of AES. -/
def aesDouble (b : Byte) : Byte := (b <<< 1) ^^^ (if b.msb then 0x1B else 0)

/-- The product in the field of AES, bit by bit of the second factor from its lowest. -/
def aesMulBits : Nat → Byte → Nat → Byte
  | 0, _, _ => 0
  | n + 1, a, b => (if b % 2 = 1 then a else 0) ^^^ aesMulBits n (aesDouble a) (b / 2)

/-- The product in the field of AES. -/
def aesMul (a b : Byte) : Byte := aesMulBits 8 a b.toNat

/-- The inverse in the field of AES, 0 for 0: the power 254. -/
def aesInverse (a : Byte) : Byte :=
  let sq := fun (x : Byte) => aesMul x x
  let p2 := sq a
  let p4 := sq p2
  let p8 := sq p4
  let p16 := sq p8
  let p32 := sq p16
  let p64 := sq p32
  aesMul (aesMul (aesMul p2 p4) (aesMul p8 p16)) (aesMul (aesMul p32 p64) (sq p64))

/-- SubBytes of one byte, and its inverse. -/
def aesSub (a : Byte) : Byte :=
  let i := aesInverse a
  i ^^^ i.rotateLeft 1 ^^^ i.rotateLeft 2 ^^^ i.rotateLeft 3 ^^^ i.rotateLeft 4 ^^^ 0x63
def aesUnsub (b : Byte) : Byte := aesInverse (b.rotateLeft 1 ^^^ b.rotateLeft 3 ^^^ b.rotateLeft 6 ^^^ 0x05)

/-- The bytewise sum of two strings. -/
def xorBytes (a b : List Byte) : List Byte := (a.zip b).map (fun p => p.1 ^^^ p.2)

/-- ShiftRows by some columns to the left. -/
def aesShift (k : Nat) (v : List Byte) : List Byte :=
  (List.range 16).map (fun i => nth v (i % 4 + 4 * ((i / 4 + k * (i % 4)) % 4)) 0)

/-- MixColumns with the first row of its matrix. -/
def aesMix (row : List Byte) (v : List Byte) : List Byte :=
  (List.range 16).map (fun i =>
    (List.range 4).foldl (fun t k => t ^^^ aesMul (nth row ((k + 4 - i % 4) % 4) 0) (nth v (4 * (i / 4) + k) 0)) 0)

/-- The next word of a key schedule from the last eight, latest first; n is its number. -/
def aesNextWord (n : Nat) (w : List (List Byte)) : List Byte :=
  let last := nth w 0 []
  let t :=
    if n % 8 = 0 then xorBytes ((last.drop 1 ++ last.take 1).map aesSub) [(List.range (n / 8 - 1)).foldl (fun c _ => aesDouble c) 1, 0, 0, 0]
    else if n % 8 = 4 then last.map aesSub
    else last
  xorBytes t (nth w 7 [])

/-- The round keys of a 32-byte key: fifteen of sixteen bytes. -/
def aesKeys (key : List Byte) : List (List Byte) :=
  let w0 := ((List.range 8).map (fun i => (key.drop (4 * i)).take 4)).reverse
  let ws := ((List.range 52).foldl (fun w i => aesNextWord (8 + i) w :: w) w0).reverse
  (List.range 15).map (fun r => ((ws.drop (4 * r)).take 4).flatten)

/-- The cipher of one block under round keys. -/
def aesEncrypt (ks : List (List Byte)) (block : List Byte) : List Byte :=
  let v := ((ks.drop 1).take 13).foldl (fun v k => xorBytes (aesMix [2, 3, 1, 1] (aesShift 1 (v.map aesSub))) k) (xorBytes block (nth ks 0 []))
  xorBytes (aesShift 1 (v.map aesSub)) (nth ks 14 [])

/-- The inverse cipher of one block under round keys. -/
def aesDecrypt (ks : List (List Byte)) (block : List Byte) : List Byte :=
  let v := (((ks.drop 1).take 13).reverse).foldl
    (fun v k => aesMix [14, 11, 13, 9] (xorBytes ((aesShift 3 v).map aesUnsub) k)) (xorBytes block (nth ks 14 []))
  xorBytes ((aesShift 3 v).map aesUnsub) (nth ks 0 [])

/-! ## GCM -/

/-- A 16-byte block as a number whose highest bit is the first of the block. -/
def beNat (bs : List Byte) : Nat := leNat bs.reverse

/-- The product in the field of GHASH, over the bits of the first factor from its highest. -/
def ghashMul : Nat → BitVec 128 → BitVec 128 → BitVec 128
  | 0, _, _ => 0
  | n + 1, x, v => (if x.msb then v else 0) ^^^ ghashMul n (x <<< 1) ((v >>> 1) ^^^ (if v.getLsbD 0 then 0xE1000000000000000000000000000000 else 0))

/-- A string in blocks of sixteen bytes, the last filled with zeros. -/
def blocks16 (bs : List Byte) : List (List Byte) :=
  (List.range ((bs.length + 15) / 16)).map (fun i => let b := (bs.drop (16 * i)).take 16; b ++ List.replicate (16 - b.length) 0)

/-- GHASH of additional data and a ciphertext. -/
def ghash (h : BitVec 128) (aad ct : List Byte) : List Byte :=
  let bs := blocks16 aad ++ blocks16 ct ++ [beBytes 8 (8 * aad.length) ++ beBytes 8 (8 * ct.length)]
  beBytes 16 (bs.foldl (fun (y : BitVec 128) b => ghashMul 128 (y ^^^ BitVec.ofNat 128 (beNat b)) h) 0).toNat

/-- The key stream of a 12-byte nonce from a counter on, added to a string. -/
def gcmStream (ks : List (List Byte)) (nonce : List Byte) (bs : List Byte) : List Byte :=
  xorBytes bs ((List.range ((bs.length + 15) / 16)).flatMap (fun i => aesEncrypt ks (nonce ++ beBytes 4 (i + 2))))

/-- The tag of additional data and a ciphertext. -/
def gcmTag (ks : List (List Byte)) (nonce aad ct : List Byte) : List Byte :=
  let h := BitVec.ofNat 128 (beNat (aesEncrypt ks (List.replicate 16 0)))
  xorBytes (aesEncrypt ks (nonce ++ beBytes 4 1)) (ghash h aad ct)

/-- AES-256-GCM: the ciphertext and the 16-byte tag. -/
def gcmSeal (key nonce aad plain : List Byte) : List Byte × List Byte :=
  let ks := aesKeys key
  let ct := gcmStream ks nonce plain
  (ct, gcmTag ks nonce aad ct)

/-- AES-256-GCM opening: none where the tag fails. -/
def gcmOpen (key nonce aad ct tag : List Byte) : Option (List Byte) :=
  let ks := aesKeys key
  if gcmTag ks nonce aad ct = tag then some (gcmStream ks nonce ct) else none

/-! ## XTS -/

/-- The mask of block j of a data unit under a 64-byte key pair: the encrypted tweak, doubled j times. -/
def xtsMask (pair : List Byte) (tweak j : Nat) : List Byte :=
  let double := fun (t : BitVec 128) => (t <<< 1) ^^^ (if t.msb then 0x87 else 0)
  leBytes 16 ((List.range j).foldl (fun t _ => double t) (BitVec.ofNat 128 (leNat (aesEncrypt (aesKeys (pair.drop 32)) (leBytes 16 tweak))))).toNat

/-- The XTS encryption of block j of a data unit, and its decryption. -/
def xtsEncrypt (pair : List Byte) (tweak j : Nat) (block : List Byte) : List Byte :=
  let m := xtsMask pair tweak j
  xorBytes (aesEncrypt (aesKeys (pair.take 32)) (xorBytes block m)) m
def xtsDecrypt (pair : List Byte) (tweak j : Nat) (block : List Byte) : List Byte :=
  let m := xtsMask pair tweak j
  xorBytes (aesDecrypt (aesKeys (pair.take 32)) (xorBytes block m)) m

end Sys2Proof.Machine
end

