-- ==== Sys2Proof/Syntax.lean ====
section
/-!
DEFINITION. The steps of the CHX-8512 as syntax: one constructor of Instr for each row of the opcode table.
The first group holds the control-core instructions (R30 to R35), the second the element instructions (R16 to R26), each with
the fields of its word, the third the steps of other agents (events), which have no encoding: their operands name the unit,
launch, queue or partition that takes the step.
-/

namespace Sys2Proof

/-- The floating format field f of FADD, FSUB, FMUL and FFMA (R24). -/
inductive Fmt where
  | bf16 | f16 | f32
  deriving DecidableEq, Repr

/-- The fields of an element instruction word other than OPC (R16). -/
structure EWord where
  arity : BitVec 2
  immb  : Bool
  swap  : Bool
  rt    : BitVec 4
  topc  : BitVec 4
  targ  : BitVec 11
  tsel  : Bool
  dst1  : BitVec 16
  dst2  : BitVec 16
  imm   : Word
  deriving DecidableEq, Repr

/-- Flits that arrive on a link, in order: the star link of a die, or its bridge from the die before (R374). -/
structure LinkFlits where
  die    : Nat
  bridge : Bool
  flits  : List (List Byte)
  deriving DecidableEq, Repr

/-- The steps of the machine, one constructor per row of the opcode table. -/
inductive Instr where
  -- control-core instructions
  | add (d a b : Reg)
  | sub (d a b : Reg)
  | mul (d a b : Reg)
  | mulh (d a b : Reg)
  | mulhn (d a b : Reg)
  | div (d a b : Reg)
  | divn (d a b : Reg)
  | rem (d a b : Reg)
  | remn (d a b : Reg)
  | and (d a b : Reg)
  | or (d a b : Reg)
  | xor (d a b : Reg)
  | sll (d a b : Reg)
  | srl (d a b : Reg)
  | sra (d a b : Reg)
  | slt (d a b : Reg)
  | sltn (d a b : Reg)
  | min (d a b : Reg)
  | max (d a b : Reg)
  | minn (d a b : Reg)
  | maxn (d a b : Reg)
  | clz (d a : Reg)
  | popc (d a : Reg)
  | sextB (d a : Reg)
  | sextH (d a : Reg)
  | sextW (d a : Reg)
  | zextB (d a : Reg)
  | zextH (d a : Reg)
  | zextW (d a : Reg)
  | addi (d a : Reg) (imm : BitVec 16)
  | andi (d a : Reg) (imm : BitVec 16)
  | ori (d a : Reg) (imm : BitVec 16)
  | xori (d a : Reg) (imm : BitVec 16)
  | slti (d a : Reg) (imm : BitVec 16)
  | slli (d a : Reg) (sh : BitVec 6)
  | srli (d a : Reg) (sh : BitVec 6)
  | srai (d a : Reg) (sh : BitVec 6)
  | li (d : Reg) (imm : BitVec 32)
  | lih (d : Reg) (imm : BitVec 32)
  | addiL (d a : Reg) (imm : BitVec 32)
  | andiL (d a : Reg) (imm : BitVec 32)
  | oriL (d a : Reg) (imm : BitVec 32)
  | xoriL (d a : Reg) (imm : BitVec 32)
  | jalL (d : Reg) (off : BitVec 32)
  | copyi (d a : Reg) (len : BitVec 32)
  | ld (d a : Reg) (size : BitVec 2) (off : BitVec 11)
  | ldn (d a : Reg) (size : BitVec 2) (off : BitVec 11)
  | st (d a : Reg) (size : BitVec 2) (off : BitVec 11)
  | lda (d a : Reg) (scope : BitVec 3) (size : BitVec 2) (off : BitVec 11)
  | stl (d a : Reg) (scope : BitVec 3) (size : BitVec 2) (off : BitVec 11)
  | ldm (d a : Reg) (n : BitVec 5) (off : BitVec 11)
  | stm (d a : Reg) (n : BitVec 5) (off : BitVec 11)
  | amoadd (d a b : Reg) (size : BitVec 2) (scope : BitVec 3)
  | amomin (d a b : Reg) (size : BitVec 2) (scope : BitVec 3)
  | amominn (d a b : Reg) (size : BitVec 2) (scope : BitVec 3)
  | amomax (d a b : Reg) (size : BitVec 2) (scope : BitVec 3)
  | amomaxn (d a b : Reg) (size : BitVec 2) (scope : BitVec 3)
  | amoand (d a b : Reg) (size : BitVec 2) (scope : BitVec 3)
  | amoor (d a b : Reg) (size : BitVec 2) (scope : BitVec 3)
  | amoxor (d a b : Reg) (size : BitVec 2) (scope : BitVec 3)
  | amoswp (d a b : Reg) (size : BitVec 2) (scope : BitVec 3)
  | amocas (d a b : Reg) (size : BitVec 2) (scope : BitVec 3)
  | amofaddF32 (d a b : Reg) (scope : BitVec 3)
  | amofaddBf16 (d a b : Reg) (scope : BitVec 3)
  | redadd (a b : Reg) (size : BitVec 2) (scope : BitVec 3)
  | redmin (a b : Reg) (size : BitVec 2) (scope : BitVec 3)
  | redminn (a b : Reg) (size : BitVec 2) (scope : BitVec 3)
  | redmax (a b : Reg) (size : BitVec 2) (scope : BitVec 3)
  | redmaxn (a b : Reg) (size : BitVec 2) (scope : BitVec 3)
  | redand (a b : Reg) (size : BitVec 2) (scope : BitVec 3)
  | redor (a b : Reg) (size : BitVec 2) (scope : BitVec 3)
  | redxor (a b : Reg) (size : BitVec 2) (scope : BitVec 3)
  | redfaddF32 (a b : Reg) (scope : BitVec 3)
  | redfaddBf16 (a b : Reg) (scope : BitVec 3)
  | beq (a b : Reg) (off : BitVec 16)
  | bne (a b : Reg) (off : BitVec 16)
  | blt (a b : Reg) (off : BitVec 16)
  | bge (a b : Reg) (off : BitVec 16)
  | bltn (a b : Reg) (off : BitVec 16)
  | bgen (a b : Reg) (off : BitVec 16)
  | jal (l : Reg) (off : BitVec 16)
  | jalr (d a : Reg) (imm : BitVec 16)
  | rep (a : Reg) (len : BitVec 16)
  | fence (scope : BitVec 3) (classes : BitVec 3)
  | phase (d : Reg)
  | bar (a b : Reg)
  | nop
  | trap (code : BitVec 10)
  | rft
  | brk
  | krd (d : Reg) (k : BitVec 10)
  | kwr (a : Reg) (k : BitVec 10)
  | cinval
  | cyc (d : Reg)
  | cycCore (d : Reg)
  | enrd (d : Reg) (sel : BitVec 2)
  | enrdRing (d a : Reg) (sel : BitVec 2)
  | featrd (d a : Reg)
  | featrdOffer (d a : Reg)
  | segld (d a : Reg)
  | segrun (d a b : Reg)
  | segstop (a : Reg)
  | segwait (d a b : Reg)
  | strbind (d a : Reg)
  | strfree (d a : Reg)
  | cfginv (a : Reg)
  | copy (d a : Reg)
  | pbinv (a : Reg)
  | flsig (d a b : Reg)
  | flsigW (d a b : Reg)
  | evpop (d a : Reg)
  | evwait (d a b : Reg)
  | evpeek (d a : Reg)
  | cspawn (a b : Reg) (die : BitVec 3) (remote prio : Bool)
  | cjoin (a : Reg)
  | cexit
  | cyield
  | rgset (a b : Reg) (r : BitVec 4)
  | rgtake (d : Reg) (r : BitVec 4)
  | vdecl (d a : Reg)
  | vst (d a b : Reg)
  | vld (d a b : Reg)
  | vldl (d a b : Reg)
  | vfloorRegister (d a b : Reg)
  | vfloorRaise (d a b : Reg)
  | vfloorDeregister (d a b : Reg)
  | vdrop (a : Reg)
  | vstat (d a : Reg) (sel : BitVec 2)
  | exreg (a : Reg)
  | exstat (d a b : Reg) (sel : BitVec 2)
  | plrep (d a b : Reg)
  | plret (d a b : Reg)
  | plretUrgent (d a b : Reg)
  | plpol (a : Reg)
  | plsync (d : Reg)
  | ctxsave (d a b : Reg)
  | ctxrest (d a : Reg)
  | preempt (d a : Reg)
  | qquiesce (a : Reg)
  | qresume (a : Reg)
  | fwstage (d a b : Reg)
  | fwverify (d : Reg)
  | measure (a b : Reg)
  | slotsw (a : Reg)
  | hbeat
  | keyld (d a b : Reg)
  -- events of the control cores
  | blockedInstructionComplete (tid : Nat)
  | evwaitTimeout (tid : Nat)
  | continuationDispatch (core launch : Nat)
  | phaseBoundary (launch : Nat)
  -- element instructions
  | elemAdd (w : EWord)
  | elemSub (w : EWord)
  | elemMul (w : EWord)
  | elemMulh (w : EWord)
  | neg (w : EWord)
  | abs (w : EWord)
  | elemMin (w : EWord)
  | elemMax (w : EWord)
  | adds (w : EWord)
  | subs (w : EWord)
  | avg (w : EWord)
  | clamp (w : EWord)
  | elemAnd (w : EWord)
  | elemOr (w : EWord)
  | elemXor (w : EWord)
  | shl (w : EWord)
  | shr (w : EWord)
  | sar (w : EWord)
  | rot (w : EWord)
  | elemClz (w : EWord)
  | elemPopc (w : EWord)
  | sel (w : EWord)
  | cmpEq (w : EWord)
  | cmpNe (w : EWord)
  | cmpLt (w : EWord)
  | cmpLe (w : EWord)
  | cmpGt (w : EWord)
  | cmpGe (w : EWord)
  | widenL (w : EWord)
  | widenH (w : EWord)
  | narrow (w : EWord)
  | shuf (w : EWord)
  | bcast (w : EWord)
  | extr (w : EWord)
  | ins (w : EWord)
  | fadd (f : Fmt) (w : EWord)
  | fsub (f : Fmt) (w : EWord)
  | fmul (f : Fmt) (w : EWord)
  | ffma (f : Fmt) (w : EWord)
  | fmin (w : EWord)
  | fmax (w : EWord)
  | fabs (w : EWord)
  | fneg (w : EWord)
  | cvt (w : EWord)
  | fcmpEq (w : EWord)
  | fcmpNe (w : EWord)
  | fcmpLt (w : EWord)
  | fcmpLe (w : EWord)
  | fcmpGt (w : EWord)
  | fcmpGe (w : EWord)
  | rcp (w : EWord)
  | rsq (w : EWord)
  | sqrt (w : EWord)
  | exp2 (w : EWord)
  | log2 (w : EWord)
  | tanh (w : EWord)
  | sigm (w : EWord)
  | erf (w : EWord)
  | rsum (w : EWord)
  | rmax (w : EWord)
  | rmin (w : EWord)
  | tagi (w : EWord)
  | tagf (w : EWord)
  | tagr (w : EWord)
  | tinc (w : EWord)
  | tget (w : EWord)
  | steer (w : EWord)
  | gate (w : EWord)
  | const (w : EWord)
  | sink (w : EWord)
  | talloc (w : EWord)
  | tshrink (w : EWord)
  | tcfg (w : EWord)
  | tzero (w : EWord)
  | tmov (w : EWord)
  | text (w : EWord)
  | tins (w : EWord)
  | wlatch (w : EWord)
  | afmt (w : EWord)
  | acfg (w : EWord)
  | mmaT2 (w : EWord)
  | mmaF4 (w : EWord)
  | mmaF8 (w : EWord)
  | mmaBf16 (w : EWord)
  | mmg (w : EWord)
  -- events of the fabric, the engines, the host side and the device
  | mmgCopy (x e : Nat)
  | tokenArrival (x k : Nat)
  | elementEos (x e : Nat)
  | agenEmit (x o : Nat)
  | loadAccess (x o : Nat)
  | loadTileFill (x o : Nat)
  | storeAccess (x o : Nat)
  | storeEos (x o : Nat)
  | atomicAccess (x o : Nat)
  | sendTransfer (x o : Nat)
  | sendCompletion (x o : Nat)
  | operatorCompletion (x o : Nat)
  | vloadAccess (x o : Nat)
  | vstoreAccess (x o : Nat)
  | joinFire (x o : Nat)
  | accumCombine (x o : Nat) (k : Nat)
  | loopEntry (x o : Nat)
  | loopExit (x o : Nat)
  | mergeForward (x o : Nat)
  | operatorEosForward (x o : Nat)
  | routeRequest (x o : Nat)
  | routeAcknowledgement (x o : Nat)
  | routeTableRead (x o : Nat)
  | runStart (run : Nat)
  | scrollStepBoundary (run : Nat)
  | waveDelivery (run : Nat)
  | runHalt (run : Nat)
  | runEnd (run : Nat)
  | postedStorePerform (k : Nat)
  | writeQueueApply (stack : Nat)
  | faultRecordWrite (k : Nat)
  | faultResolve (launch die slot : Nat)
  | copyChunk (job : Nat)
  | copyComplete (job : Nat)
  | segldComplete (job : Nat)
  | flsigComplete (job : Nat)
  | preemptHalted (launch : Nat)
  | ctxsaveComplete (launch : Nat)
  | ctxrestComplete (launch : Nat)
  | probeRound (unit : Nat)
  | probeReceive (k : Nat)
  | placementWindowBoundary (part : Nat)
  | placementCheck (part act : Nat)
  | placementCopyEnd (part act : Nat)
  | placementPublish (part act : Nat)
  | placementDrainEnd (part act : Nat)
  | sqwrWrite (part req q : Nat) (value : Word)
  | packetFetch (part q : Nat)
  | launch (part q : Nat)
  | launchPlacement (launch : Nat)
  | loadobj (part q : Nat)
  | unloadobj (part q : Nat)
  | nopPacket (part q : Nat)
  | objectRemove (part obj : Nat)
  | launchComplete (launch : Nat)
  | queueEnable (part req q : Nat)
  | queueDisable (part req q : Nat)
  | queueReset (part req q : Nat)
  | queueResetComplete (part q : Nat)
  | invalidationStart (part req : Nat) (seq : Word)
  | invalidationComplete (part : Nat)
  | featacceptWrite (part req k : Nat) (value : Word)
  | assignmentBlockWrite (part k : Nat) (value : Word)
  | devidWrite (value : Word)
  | streamEntryWrite (part req i : Nat) (value : Word)
  | registerWrite (part : Option Nat) (req off : Nat) (value : Word)
  | lockInterface (part : Nat) (secret : List Byte)
  | startInterface (part : Nat)
  | stopInterface (part : Nat)
  | tdiError (part : Nat)
  | spdmRequest (request : List Byte)
  | inboundWrite (part req : Nat) (off : Nat) (data : List Byte)
  | inboundWriteRelease (k : Nat)
  | inboundWritePerform (k : Nat)
  | inboundRead (part req off len : Nat)
  | inboundAtomic (part req off bytes op : Nat) (operand compare : Word)
  /- A flit comes as the bytes of its header, payload and tag; an acknowledgement with the SEQ and the rest of its header apart (R377). -/
  | umenoFlitReceive (header payload tag : List Byte)
  | umenoAckReceive (seq ident payload tag : List Byte)
  | umenoAckTimeout (part stream : Nat)
  | dieLinkDown (arrived : LinkFlits)
  | dieFirmwareFault (die : Nat)
  | deviceReset
  | firstHeartbeatDeadline
  | heartbeatDeadline
  | launchWatchdogExpiry (launch : Nat)
  | energyWindowBoundary
  | uncorrectableError (space addr : Nat)
  | postedReductionPerform (k : Nat)
  deriving DecidableEq, Repr

end Sys2Proof
end

