-- ==== Sys2Proof/Machine/State.lean ====
section
/-!
DEFINITION. The state of one CHX-8512 module, as plain data, and the state right after device reset.
-/

namespace Sys2Proof.Machine

/-- Why the machine stops. -/
inductive Fault where
  /-- Raised by `step` when the agenda names a core that the part does not have (R1 gives 64 control cores and 4 management
  cores, numbered 0 to 63 and 64 to 67).  No run from reset meets it unless the agenda names such a core.  Safe: nothing is
  claimed of a core that does not exist. -/
  | noSuchCore
  deriving DecidableEq, Repr

/-- Why a step has no meaning. -/
inductive Refusal where
  /-- Raised by an arm of `exec` whose instruction has no meaning yet.  Safe: no statement about a next state holds of it. -/
  | notModelled (mnemonic : String)
  deriving DecidableEq, Repr

/-- Which agent moves next (DESIGN CHOICE, log 2): a core executes one instruction; an element issues from its ready queue;
an event takes place; the global counter advances by some nanoseconds; a TLB drops its k-th translation, or a ring cache or die store its k-th
configuration, as they may at any time (R211, R269). -/
inductive Pick where
  | core (c : Nat)
  | issue (x e : Nat)
  | event (i : Instr)
  | tick (ns : Nat)
  | dropTlb (k : Nat)
  | dropConfig (k : Nat)
  deriving DecidableEq, Repr

/-- The issue an element is executing (R41): stripe, element, slot, its gathered instances in order, and whether it is an
initial form executed at load (R80). -/
structure Issue where
  x     : Nat
  e     : Nat
  slot  : Nat
  insts : List Inst
  init  : Bool
  deriving DecidableEq, Repr, Inhabited

/-- HBM and die shared memory by physical address (R260).  `cells` lists bytes by rising address, none equal to what an
unlisted byte reads as; `regimes` gives each 1 GiB unit (address div 2^30) the regime its unlisted bytes read under: 0 reads
zero (R253), any other reads free contents (log 6, 7).  `keyed` lists the units that are read under another key than their regime's contents
were encrypted under: that key, and the key they are read under (R276). -/
structure Memory where
  cells   : List Host.Cell
  regimes : Table Nat
  keyed   : Table (List Byte × List Byte)
  deriving DecidableEq, Repr, Inhabited

/-- What a saved launch's on-chip state held (R328, R330). -/
structure SavedContext where
  stripes   : Table Stripe
  stripeBuf : List Host.Cell
  ringBuf   : List Host.Cell
  deriving DecidableEq, Repr, Inhabited

/-- The machine. -/
structure State where
  /-- Which agents move, in order; the model's own field (log 2). -/
  agenda     : List Pick
  /-- Which legal outcome is taken where the spec allows several; the model's own field (log 4). -/
  choices    : List Nat
  /-- How many free values have been drawn; the model's own field (log 4). -/
  draws      : Nat
  /-- The global timestamp counter in ns (R147). -/
  time       : Nat
  /-- The core that executes: 8d + c for control core c of die d, 64 + m for management core m. -/
  core       : Nat
  /-- Word 0 of the instruction being executed (R36). -/
  ir         : BitVec 32
  /-- The continuation or management context that executes. -/
  th         : Thread
  /-- Every other one, by its number. -/
  threads    : Table Thread
  nextThread : Nat
  cores      : Table Core
  /-- What core c holds for launch l, at key 128·(l + 1) + c; a management core's own, at key c. -/
  ctxs       : Table CoreCtx
  /-- The issue being executed by an element (R41). -/
  issue      : Issue
  mem        : Memory
  /-- Stripe buffers: byte b of stripe x at x·2^18 + b (R254); unlisted bytes are zero. -/
  stripeBuf  : List Host.Cell
  /-- Ring buffers: byte b of ring r at r·2^22 + b (R254); unlisted bytes are zero. -/
  ringBuf    : List Host.Cell
  /-- Protected units in error (R277): space 0 memory, 1 stripe buffers, 2 ring buffers, with the unit's first address. -/
  errors     : List (Nat × Nat)
  tlb        : List TlbEntry
  posted     : List PostedStore
  reds       : List PostedRed
  wqueue     : Table (List QueueEntry)
  /-- Whose turn it is among launches of equal PRIO at core c (key c) and at the scroll controller of ring r (key 64 + r): the launch last
  served, and how often in a row (R320). -/
  turns      : Table (Nat × Nat)
  writes     : List PhaseWrite
  writeSeq   : Nat
  releases   : List Release
  /-- What the continuations that have joined at a join record's address so far carry (R171, R290). -/
  joins      : Table View
  faults     : List PendingFault
  parts      : Table Partition
  launches   : Table Launch
  nextLaunch : Nat
  runs       : Table Run
  nextRun    : Nat
  stripes    : Table Stripe
  /-- Die configuration stores: (die, partition, identifier, image) (R156, R211). -/
  dieStore   : List (Nat × Nat × Nat × SegImage)
  /-- Ring configuration caches: (ring, partition, identifier, virtual stripe, configuration) (R211). -/
  ringCache  : List (Nat × Nat × Nat × Nat × StripeImage)
  /-- Parameter-block caches: (die, partition, address, words) (R164). -/
  blockCache : List (Nat × Nat × Nat × List Word)
  copies     : List CopyJob
  segLoads   : List SegLoad
  flushes    : List FlushJob
  ctxJobs    : List CtxJob
  nextJob    : Nat
  parked     : List ParkEntry
  epochs     : Table Epoch
  probes     : List Probe
  inbound    : List Inbound
  outbound   : List WindowWrite
  /-- What the I/O die has issued on the host link, latest first (R364, R368, R372). -/
  hostOut    : List HostTlp
  /-- The Umeno flits that the I/O die has sent, latest first (R377). -/
  umenoOut   : List (List Byte)
  /-- SPDM responses sent by the PF, latest first (R380). -/
  spdmOut    : List (List Byte)
  /-- Values returned to the host for its reads and AtomicOps, latest first (R364, R367). -/
  hostIn     : List (List Byte)
  saved      : Table SavedContext
  io         : IoDie
  deriving DecidableEq, Repr

/-! ## Reset -/

/-- A continuation before its first instruction: registers and trap registers zero, no loop (R170, R280). -/
def Thread.blank (id : Nat) : Thread where
  id := id
  launch := none
  die := 0
  serial := 0
  prio := false
  phase := 0
  arrived := false
  root := false
  regs := Vector.replicate 32 0
  pc := 0
  loop := ⟨false, 0, 0, 0⟩
  heldLoop := ⟨false, 0, 0, 0⟩
  trapPc := 0
  trapCause := 0
  trapVal := 0
  expStep := 0
  trapVec := 0
  scratch := 0
  inTrap := false
  cont := 0
  contFp := 0
  noBreak := false
  cycles := 0
  fresh := true
  status := .queued
  home := none
  fixed := []
  floor := View.zero
  view := View.zero
  copied := View.zero
  redErr := []
  stErr := []
  inst := 0

/-- What a core holds for a launch at its placement: no event, counters and breakpoints zero (R28, R150, R334). -/
def CoreCtx.blank : CoreCtx where
  events := []
  reserved := []
  ticket := 0
  seq := 0
  brkAddr := []
  brkCtl := 0
  stkBase := 0
  stkSize := 0
  stkOvf := 0
  ordered := []

/-- A core that runs nothing. -/
def Core.blank : Core := ⟨none, [], [], false⟩

/-- A queue at reset (R308). -/
def Queue.blank : Queue where
  sqbase := 0
  cqbase := 0
  weight := 1
  prio := 0
  cqlog := 4
  sqlog := 4
  sqwr := 0
  sqrd := 0
  cqwr := 0
  cqrd := 0
  state := 0
  enable := false
  live := []
  refs := []

/-- The placement state of a partition before any PLPOL (R181). -/
def Place.blank : Place where
  policy := none
  pending := none
  nextAt := 0
  region := 0
  experts := []
  actions := []
  owed := []
  nextIssue := 0
  slots := []
  since := 0
  busy := []
  late := []
  wasRead := false

/-- A partition at reset (R362, R365, R369 to R372, R399). -/
def Partition.blank : Partition where
  assign := ⟨0, 0, false, [], []⟩
  tdi := 0
  ptroot := 0
  winbase := 0
  queues := []
  acks := []
  heldCnt := 0
  drop := 0
  invVa := 0
  invPages := 0
  invDone := 0
  invals := []
  frBase := 0
  frLog := 4
  frWr := 0
  frRd := 0
  accept := [1, 0, 0, 0]
  limit := 0
  pools := []
  heaps := []
  windows := []
  streams := []
  memKey := none
  wrapKey := none
  keyCount := none
  objects := []
  regions := []
  place := Place.blank
  placedCnt := 0

/-- The I/O die at reset (R28, R381, R389, R390, R395). -/
def IoDie.atReset : IoDie where
  khmask := []
  fwslot := 0
  hbeat := 0
  handover := 0
  stage := 0
  nosched := false
  dieState := []
  stopped := false
  devid := 0
  measure := []
  slots := []
  watch := .off
  bootSlot := 0
  mgmtRoot := 0
  mgmtKey := []
  linkKeys := []
  linkFails := []
  spdm := Spdm.blank
  regions := []
  budget := []
  budgetIn := []
  energy := []
  energyAt := 0
  booted := false

/-- The context of management core m (R389): core 0 runs, cores 1 to 3 are stopped. -/
def Thread.management (m : Nat) : Thread :=
  { Thread.blank m with serial := m, status := if m = 0 then .running 64 else .stopped }

/-- The machine right after device reset: management core 0 about to run the boot ROM, everything else stopped (R389). -/
def State.reset : State where
  agenda := []
  choices := []
  draws := 0
  time := 0
  core := 64
  ir := 0
  th := Thread.management 0
  threads := [(1, Thread.management 1), (2, Thread.management 2), (3, Thread.management 3)]
  nextThread := 4
  cores := [(64, ⟨some 0, [], [], false⟩)]
  ctxs := []
  issue := ⟨0, 0, 0, [], false⟩
  mem := ⟨[], [], []⟩
  stripeBuf := []
  ringBuf := []
  errors := []
  tlb := []
  posted := []
  reds := []
  wqueue := []
  turns := []
  writes := []
  writeSeq := 0
  releases := []
  joins := []
  faults := []
  parts := []
  launches := []
  nextLaunch := 0
  runs := []
  nextRun := 0
  stripes := []
  dieStore := []
  ringCache := []
  blockCache := []
  copies := []
  segLoads := []
  flushes := []
  ctxJobs := []
  nextJob := 0
  parked := []
  epochs := []
  probes := []
  inbound := []
  outbound := []
  hostOut := []
  umenoOut := []
  spdmOut := []
  hostIn := []
  saved := []
  io := IoDie.atReset

end Sys2Proof.Machine
end

