-- ==== Sys2Proof/Machine/Mem.lean ====
section
/-!
DEFINITION. Physical memory, its map, its errors and its writes (R252 to R262, R277, R287), and the choice among outcomes that the spec
allows (log 4).
-/

namespace Sys2Proof.Machine

open Sys2Proof

/-- The outcome of a step. -/
abbrev Out := Host.Outcome State Fault Refusal

/-! ## Cause codes (R322) -/

def cILLOP : Nat := 0x01
def cILLTILE : Nat := 0x02
def cPRIV : Nat := 0x03
def cALIGN : Nat := 0x04
def cPGFAULT : Nat := 0x05
def cPROT : Nat := 0x06
def cMATCHDUP : Nat := 0x07
def cMISSVER : Nat := 0x08
def cVSTALE : Nat := 0x09
def cDEADLOCK : Nat := 0x0A
def cFEATOFF : Nat := 0x0B
def cCTXFEAT : Nat := 0x0C
def cMEMERR : Nat := 0x0D
def cBRKPT : Nat := 0x0E
def cQOVERRUN : Nat := 0x11
def cCOPYFAIL : Nat := 0x12
def cTAGEXHAUST : Nat := 0x13
def cTIMEOUT : Nat := 0x14
def cTRAPI : Nat := 0x20
def cSTOPPED : Nat := 0xFE

/-! ## Choices and free values (log 4) -/

/-- One of n legal outcomes, 0 to n − 1: the next entry of `choices`, or 0. -/
def choose (n : Nat) (s : State) : Nat × State :=
  if n ≤ 1 then (0, s) else
  match s.choices with
  | [] => (0, s)
  | c :: t => (c % n, { s with choices := t })

/-- A fresh number for a free value. -/
def draw (s : State) : Nat × State := (s.draws, { s with draws := s.draws + 1 })

/-! ## Views -/

/-- Ordered after what either view is ordered after. -/
def View.join (a b : View) : View :=
  ⟨max a.floor b.floor, b.clock.foldl (fun t p => Table.set p.1 (max (Table.getD t p.1 0) p.2) t) a.clock,
    a.marks ++ b.marks.filter (fun m => !a.marks.contains m)⟩

/-- Ordered after a party's writes up to a number as well. -/
def View.add (v : View) (party seq : Nat) : View := v.join ⟨0, [(party, seq)], []⟩

/-- Ordered after some single writes as well. -/
def View.mark (v : View) (seqs : List Nat) : View := v.join ⟨0, [], seqs⟩

/-! ## The physical map (R260) -/

/-- What a physical address names. -/
inductive Loc where
  | hbm (stack off : Nat)
  | dsm (die off : Nat)
  | umeno (entry off : Nat)
  | host (addr : Nat)
  | reserved
  deriving DecidableEq, Repr

/-- The physical map of R260. -/
def locOf (pa : Nat) : Loc :=
  if pa < 2 ^ 40 then .hbm (pa / 2 ^ 36) (pa % 2 ^ 36)
  else if pa < 2 ^ 40 + 2 ^ 31 then
    if (pa - 2 ^ 40) % 2 ^ 28 < 2 ^ 26 then .dsm ((pa - 2 ^ 40) / 2 ^ 28) (pa % 2 ^ 26) else .reserved
  else if pa < 2 ^ 50 then .reserved
  else if pa < 2 ^ 51 then .umeno (pa / 2 ^ 40 % 2 ^ 10) (pa % 2 ^ 40)
  else if pa < 2 ^ 52 then .host (pa % 2 ^ 51)
  else .reserved

/-- The home die of an address, 8 for the I/O die (R260). -/
def homeDie (pa : Nat) : Nat :=
  match locOf pa with
  | .hbm j _ => j / 2
  | .dsm d _ => d
  | _ => 8

/-- The address is HBM or die shared memory. -/
def onDevice (pa : Nat) : Bool := homeDie pa < 8

/-- The first byte and size of the protected unit that holds a memory byte (R277). -/
def unitOf (pa : Nat) : Nat × Nat :=
  match locOf pa with
  | .hbm _ _ => (pa / 128 * 128, 128)
  | _ => (pa / 64 * 64, 64)

/-- HBM decode under a mask (R262): channel, pseudo-channel, column, bank, row, byte. -/
def hbmDecode (mask o : Nat) : Nat × Nat × Nat × Nat × Nat × Nat :=
  let m := Nat.land o mask
  let fold := Nat.xor (Nat.xor (bits m 18 13) (bits m 24 19)) (Nat.xor (bits m 30 25) (bits m 35 31))
  let select := Nat.xor (bits o 12 7) fold
  let index := bits o 35 13
  (bits select 5 1, bits select 0 0, bits index 3 0, bits index 7 4, bits index 22 8, bits o 6 0)

/-! ## Cells -/

/-- The byte at an address of a cell list, d where it is not listed. -/
def cellGet (d : Byte) (a : Nat) : List Host.Cell → Byte
  | [] => d
  | (c, v) :: t => if c = a then v else cellGet d a t

/-- Writes a byte, keeping addresses rising and listing no byte equal to d. -/
def cellPut (d : Byte) (a : Nat) (b : Byte) : List Host.Cell → List Host.Cell
  | [] => if b = d then [] else [(a, b)]
  | (c, v) :: t =>
    if c = a then (if b = d then t else (a, b) :: t)
    else if a < c then (if b = d then (c, v) :: t else (a, b) :: (c, v) :: t)
    else (c, v) :: cellPut d a b t

/-- What an unlisted byte of memory reads as under the key that its unit's contents were encrypted under (R253; log 6, 7). -/
def Memory.base (m : Memory) (a : Nat) : Byte :=
  let r := Table.getD m.regimes (a / 2 ^ 30) 0
  if r = 0 then 0 else Config.openByte r a

/-- What the 16-byte block at an address, encrypted under one key pair, reads as under another: the data unit is the 128-byte granule, with the
tweak pa[51:7] (R276). -/
def recrypt (old new : List Byte) (pa : Nat) (block : List Byte) : List Byte :=
  if old = new then block else
  let tweak := bits pa 51 7
  let j := pa % 128 / 16
  xtsDecrypt new tweak j (xtsEncrypt old tweak j block)

/-- What an unlisted byte of memory reads as: its contents, decrypted under its unit's key (R253, R276). -/
def Memory.dflt (m : Memory) (a : Nat) : Byte :=
  match Table.find (a / 2 ^ 30) m.keyed with
  | none => m.base a
  | some (old, new) =>
    let b := a / 16 * 16
    nth (recrypt old new b ((List.range 16).map (fun i => m.base (b + i)))) (a % 16) 0

/-- Reads one byte of memory. -/
def Memory.read (m : Memory) (a : Nat) : Byte := cellGet (m.dflt a) a m.cells

/-- Writes one byte of memory. -/
def Memory.write (m : Memory) (a : Nat) (b : Byte) : Memory := { m with cells := cellPut (m.dflt a) a b m.cells }

/-- Writes bytes from an address up. -/
def Memory.writeAll (m : Memory) (a : Nat) : List Byte → Memory
  | [] => m
  | b :: t => (m.write a b).writeAll (a + 1) t

/-- The canonical form: addresses strictly rising, no byte equal to what its address reads unlisted. -/
def cellsWf (d : Nat → Byte) : List Host.Cell → Bool
  | [] => true
  | (a, b) :: t => b != d a && t.all (fun c => decide (a < c.1)) && cellsWf d t

/-- Memory is in canonical form. -/
def Memory.wf (m : Memory) : Bool := cellsWf m.dflt m.cells

/-- The n bytes at a physical address. -/
def peek (s : State) (pa n : Nat) : List Byte := (List.range n).map (fun i => s.mem.read (pa + i))

/-- Removes what memory lists in an address range, and lets the range's units read under a regime (R253, R276). -/
def Memory.forget (m : Memory) (unit regime : Nat) : Memory :=
  { cells := m.cells.filter (fun c => c.1 / 2 ^ 30 != unit), regimes := Table.set unit regime m.regimes, keyed := Table.erase unit m.keyed }

/-- A unit's bytes are read under a new key in place of an old one: each is the decryption of what is stored (R276). -/
def Memory.rekey (old new : List Byte) (unit : Nat) (m : Memory) : Memory :=
  let mine := fun (c : Host.Cell) => c.1 / 2 ^ 30 == unit
  let blocks := ((m.cells.filter mine).map (fun c => c.1 / 16 * 16)).eraseDups
  let first := (Table.getD m.keyed unit (old, old)).1
  let bare : Memory := { m with
    cells := m.cells.filter (fun c => !mine c)
    keyed := if first = new then Table.erase unit m.keyed else Table.set unit (first, new) m.keyed }
  blocks.foldl (fun u b => u.writeAll b (recrypt old new b ((List.range 16).map (fun i => m.read (b + i))))) bare

/-! ## Uncorrectable errors (R277) -/

/-- The units, by first address and size, that n bytes touch. -/
def unitsOf (pa n : Nat) : List (Nat × Nat) :=
  let u := unitOf pa
  (List.range ((pa + n - 1 - u.1) / u.2 + 1)).map (fun i => (u.1 + i * u.2, u.2))

/-- The address is homed on a die that boot found not AVAILABLE, or that is LOST: it has no usable memory, and every access fails (R391,
R392). -/
def dieLost (s : State) (pa : Nat) : Bool := decide (2 ≤ Table.getD s.io.dieState (homeDie pa) 0)

/-- A read of the bytes meets a unit in error. -/
def readFails (s : State) (pa n : Nat) : Bool :=
  if n = 0 then false else dieLost s pa || (unitsOf pa n).any (fun u => s.errors.contains (0, u.1))

/-- A write of the bytes meets a unit in error that it covers only in part. -/
def writeFails (s : State) (pa n : Nat) : Bool :=
  if n = 0 then false else dieLost s pa ||
  (unitsOf pa n).any (fun u => s.errors.contains (0, u.1) && !(decide (pa ≤ u.1) && decide (u.1 + u.2 ≤ pa + n)))

/-! ## Writes -/

/-- The aligned 8-byte units that n bytes touch (R287). -/
def words8 (pa n : Nat) : List Nat := if n = 0 then [] else (List.range ((pa + n - 1) / 8 + 1 - pa / 8)).map (· + pa / 8)

/-- Byte i of fault slot k of a launch on a die after a program's write of a byte to it: only RESP of a record that is still pending changes, and only to
1 or 2 (R272, R274; DESIGN CHOICE for 0 and 3, log 62). -/
def slotByte (ld : LaunchDie) (k i : Nat) (old new : Byte) : Byte :=
  if i = 24 ∧ (Table.find k ld.slots).isSome ∧ old &&& 3 = 0 ∧ (new &&& 3 = 1 ∨ new &&& 3 = 2) then new &&& 3 else old

/-- A byte that a program or the host writes, where fault slots stand (R274). -/
def guardByte (s : State) (a : Nat) (new : Byte) : Byte :=
  match (s.launches.flatMap (fun v => v.2.dies)).find? (fun d =>
      match d.2.svc with | b :: _ => decide (b ≤ a) && decide (a < b + 2048) | [] => false) with
  | some (_, ld) =>
    let off := a - ld.svc.headD 0
    slotByte ld (off / 32) (off % 32) (s.mem.read a) new
  | none => new

/-- The bytes that a write leaves: the device's own as given, others guarded. -/
def guardBytes (s : State) (launch party pa : Nat) (data : List Byte) : List Byte :=
  if launch = 0 ∧ party = 0 then data else data.mapIdx (fun i b => guardByte s (pa + i) b)

/-- The parts of a release's bytes that a write of n bytes leaves. -/
def Release.minus (r : Release) (pa n : Nat) : List Release :=
  let len := r.data.length
  if r.pa + len ≤ pa ∨ pa + n ≤ r.pa then [r] else
  (if r.pa < pa then [{ r with data := r.data.take (pa - r.pa) }] else [])
    ++ (if pa + n < r.pa + len then [{ r with pa := pa + n, data := r.data.drop (pa + n - r.pa) }] else [])

/-- What the latest write to a unit brings with it. -/
def lastBrings (s : State) (u : Nat) : View :=
  match s.writes.find? (fun w => w.unit == u) with
  | some w => w.brings
  | none => View.zero

/-- Notes a write of n bytes: what its units held before is kept for racing reads (R287), and release marks on the bytes end.  `party` is a
unit's owner number plus one or the host's, else 0; with `launch` 0 too it is the device itself.  `brings` is what a reader of the bytes
observes with them (R166); a unit written in part keeps what it brought before. -/
def noteWrite (launch party : Nat) (brings : View) (pa n : Nat) (s : State) : State :=
  let brought := fun (u : Nat) => if pa ≤ 8 * u ∧ 8 * u + 8 ≤ pa + n then brings else brings.join (lastBrings s u)
  { s with
    writes := (words8 pa n).map (fun u => ⟨s.writeSeq + 1, launch, party, u, peek s (8 * u) 8, brought u, pa, n⟩) ++ s.writes
    writeSeq := s.writeSeq + 1
    releases := s.releases.flatMap (fun r => r.minus pa n) }

/-- Writes bytes of HBM or die shared memory; an error of a unit covered whole is cleared (R277). -/
def pokeWith (launch party : Nat) (brings : View) (pa : Nat) (data : List Byte) (s : State) : State :=
  let n := data.length
  if n = 0 then s else
  { noteWrite launch party brings pa n s with
    mem := s.mem.writeAll pa (guardBytes s launch party pa data)
    errors := s.errors.filter (fun e => !(e.1 == 0 && decide (pa ≤ e.2) && decide (e.2 + (unitOf e.2).2 ≤ pa + n))) }

/-- Writes bytes that bring nothing with them. -/
def poke (launch party pa : Nat) (data : List Byte) (s : State) : State := pokeWith launch party View.zero pa data s

/-- The party number of the host and of peer devices. -/
def hostParty : Nat := 2 ^ 41

/-- Writes bytes to an on-device address, unless they meet a unit in error. -/
def pokeOk (launch party pa : Nat) (data : List Byte) (s : State) : Option State :=
  if writeFails s pa data.length then none else some (poke launch party pa data s)

/-! ## What an access is ordered after (R284 to R295) -/

/-- A view covers a write. -/
def View.covers (v : View) (w : PhaseWrite) : Bool :=
  decide (w.seq ≤ v.floor) || decide (w.seq ≤ Table.getD v.clock w.party 0) || v.marks.contains w.seq

/-- The write is of another launch that is not complete, whose writes a launch need not see (R289, R318). -/
def foreignWrite (s : State) (l : Nat) (w : PhaseWrite) : Bool :=
  w.launch != 0 && w.launch != l + 1 && (Table.find (w.launch - 1) s.launches).isSome

/-- What a phase of a launch that begins now is ordered after: every write but those of other launches that are not complete (R286, R289,
R318). -/
def presentView (s : State) (l : Nat) : View :=
  match (s.writes.filter (foreignWrite s l)).getLast? with
  | none => View.upTo s.writeSeq
  | some o =>
    ((s.writes.filter (fun w => decide (o.seq ≤ w.seq) && !foreignWrite s l w)).foldl (fun v w => v.add w.party w.seq) (View.upTo (o.seq - 1)))

/-- The write reached a byte. -/
def PhaseWrite.wrote (w : PhaseWrite) (a : Nat) : Bool := w.unit == a / 8 && decide (w.pa ≤ a) && decide (a < w.pa + w.len)

/-- The writes of an aligned 8-byte unit, latest first, each with what the unit held just after it (R287). -/
def unitLog (s : State) (u : Nat) : List (PhaseWrite × List Byte) :=
  let ws := s.writes.filter (fun w => w.unit == u)
  ws.zip (peek s (8 * u) 8 :: ws.map (·.old))

/-- The writes of a unit later than the last that a test picks out; what the unit held before them, with what it brought. -/
def unitSince (s : State) (u : Nat) (last : PhaseWrite → Bool) : List (PhaseWrite × List Byte) × List Byte × View :=
  let log := unitLog s u
  let later := log.takeWhile (fun p => !last p.1)
  match log[later.length]?, later.getLast? with
  | some p, _ => (later, p.2, p.1.brings)
  | none, some p => (later, p.1.old, View.zero)
  | none, none => (later, peek s (8 * u) 8, View.zero)

/-- What a unit held, at an instant before some later writes, with the bytes that those of a party among them wrote. -/
def withOwn (own : PhaseWrite → Bool) (u : Nat) (later : List (PhaseWrite × List Byte)) (bs : List Byte) : List Byte :=
  (List.range 8).map (fun j =>
    match later.find? (fun p => own p.1 && p.1.wrote (8 * u + j)) with
    | some p => nth p.2 j 0
    | none => nth bs j 0)

/-- The contents of a unit at each instant since the last write that a test picks out, the latest first: each with what it brings, and with the
party's own writes later than the instant. -/
def instants (s : State) (u : Nat) (last own : PhaseWrite → Bool) : List (List Byte × View) :=
  let (later, base, brings) := unitSince s u last
  later.zipIdx.map (fun p => (withOwn own u (later.take p.2) p.1.2, p.1.1.brings)) ++ [(withOwn own u later base, brings)]

/-- The contents agree with the bytes that a party has fixed. -/
def agrees (fixed : Table Byte) (u : Nat) (bs : List Byte) : Bool :=
  (List.range 8).all (fun i => match Table.find (8 * u + i) fixed with | some b => nth bs i 0 == b | none => true)

/-- What a racing read of an aligned 8-byte unit by a party may return, with what it brings (R287): the contents at an instant since the last
write that it is ordered after or that is its own, and that agree with what the party has fixed; where none agrees, the contents at an
instant since the last write of another party that it is ordered after, with its own later writes; and where none of these agrees, the
contents just after the last of the writes that it is ordered after (log 4). -/
def unitChoices (s : State) (v : View) (me : Nat) (fixed : Table Byte) (u : Nat) : List (List Byte × View) :=
  let own := fun (w : PhaseWrite) => w.party == me
  let strict := instants s u (fun w => v.covers w || own w) own
  match strict.filter (fun c => agrees fixed u c.1) with
  | [] =>
    (match (instants s u (fun w => decide (w.seq ≤ v.floor) || (!own w && v.covers w)) own).filter (fun c => agrees fixed u c.1) with
    | [] => strict.getLast?.toList
    | good => good)
  | good => good

/-- The fixed values that stay when a party comes to be ordered after more: those of bytes that no newly covered write wrote
(R286, R291, R294). -/
def keepFixed (s : State) (old new : View) (fixed : Table Byte) : Table Byte :=
  fixed.filter (fun f => !s.writes.any (fun w => w.wrote f.1 && new.covers w && !old.covers w))

/-! ## Partitions -/

/-- The partition number under which management code translates (R383). -/
def mgmtPart : Nat := 16

/-- A partition, blank where nothing was written. -/
def State.part (s : State) (p : Nat) : Partition := Table.getD s.parts p Partition.blank

/-- Changes a partition. -/
def State.setPart (s : State) (p : Nat) (v : Partition) : State := { s with parts := Table.set p v s.parts }

/-- The versioned regions of a partition, or of management code. -/
def State.regionsOf (s : State) (p : Nat) : Table Region := if p = mgmtPart then s.io.regions else (s.part p).regions

/-- Changes the versioned regions of a partition, or of management code. -/
def State.setRegions (s : State) (p : Nat) (r : Table Region) : State :=
  if p = mgmtPart then { s with io := { s.io with regions := r } } else s.setPart p { s.part p with regions := r }

/-- The versions of a region become undefined (R401). -/
def Region.spoil (r : Region) : Region :=
  { r with
    granules := Table.mapVals (fun _ (g : Granule) => { g with versions := Table.mapVals (fun _ _ => []) g.versions }) r.granules
    spoiled := true }

/-- The versions of some regions whose heap has pages that a test picks out become undefined. -/
def spoilRegions (hit : Nat → Bool) (t : Table Region) : Table Region :=
  Table.mapVals (fun _ (r : Region) => if r.pages.any hit then r.spoil else r) t

/-- The versions of partitions' regions whose heap has pages that a test picks out become undefined (R401). -/
def spoilHeaps (hit : Nat → Bool) (s : State) : State :=
  if s.parts.any (fun p => p.2.regions.any (fun r => r.2.pages.any hit)) then
    { s with parts := Table.mapVals (fun _ (p : Partition) => { p with regions := spoilRegions hit p.regions }) s.parts }
  else s

/-- A unit of HBM loses its contents: its bytes read under a regime, whatever the key (R249, R253). -/
def loseUnit (u regime : Nat) (s : State) : State := { s with mem := s.mem.forget u regime }

/-- An access other than a version operation reaches the page of an address (R401). -/
def touchHeap (pa : Nat) (s : State) : State := spoilHeaps (fun p => p / 4096 == pa / 4096) s

/-- A die is AVAILABLE (R390). -/
def available (s : State) (d : Nat) : Bool := Table.getD s.io.dieState d 0 == 1

/-- The partition owns a 1 GiB unit of HBM or a MiB of die shared memory (R261, R369). -/
def ownsUnit (s : State) (p pa : Nat) : Bool :=
  if p = mgmtPart then (locOf pa != .reserved) else
  let a := (s.part p).assign
  match locOf pa with
  | .hbm j o => bit (Table.getD a.hbm j 0).toNat (o / 2 ^ 30)
  | .dsm d o => bit (Table.getD a.dsm d 0).toNat (o / 2 ^ 20)
  | .umeno _ _ => true
  | .host _ => true
  | .reserved => false

/-- Every unit that a page of the size names is owned (R261). -/
def ownsPage (s : State) (p pa size : Nat) : Bool :=
  (List.range ((size + 2 ^ 20 - 1) / 2 ^ 20)).all (fun i => ownsUnit s p (pa + i * 2 ^ 20))

end Sys2Proof.Machine
end

