-- ==== Sys2Proof/Machine/Flit.lean ====
section
/-!
DEFINITION. Umeno flits: header, payload, sealing and opening (R375, R377).
-/

namespace Sys2Proof.Machine

open Sys2Proof

/-- The 16-byte header of a flit (R377). -/
structure FlitHead where
  dest   : BitVec 22
  src    : BitVec 22
  stream : BitVec 6
  type   : BitVec 2
  seq    : Word
  deriving DecidableEq, Repr, Inhabited

/-- The header's 16 bytes, its reserved bits zero. -/
def FlitHead.bytes (h : FlitHead) : List Byte :=
  leBytes 16 (h.dest.toNat * 2 ^ 106 + h.src.toNat * 2 ^ 84 + h.stream.toNat * 2 ^ 78 + h.type.toNat * 2 ^ 76 + h.seq.toNat)

/-- The header that 16 bytes hold. -/
def FlitHead.read (bs : List Byte) : FlitHead :=
  let v := leNat bs
  ⟨BitVec.ofNat 22 (bits v 127 106), BitVec.ofNat 22 (bits v 105 84), BitVec.ofNat 6 (bits v 83 78), BitVec.ofNat 2 (bits v 77 76),
    BitVec.ofNat 64 (bits v 63 0)⟩

/-- The 96-bit IV, its highest byte first (R377; log 15). -/
def FlitHead.iv (h : FlitHead) : List Byte := beBytes 12 (h.src.toNat * 2 ^ 74 + h.stream.toNat * 2 ^ 68 + h.seq.toNat)

/-- What the 224 bytes of a payload say, in a layout of the model's own (R377; log 15): the partition at the receiver; the operation code of a
reduction, 1 for a releasing write, or the cause of an acknowledgement; the remote address, or the SEQ acknowledged; and the bytes. -/
structure FlitBody where
  part : BitVec 8
  code : BitVec 8
  addr : Word
  data : List Byte
  deriving DecidableEq, Repr, Inhabited

/-- Bytes of data that a flit has room for. -/
def flitRoom : Nat := 208

/-- The payload of a body. -/
def FlitBody.bytes (b : FlitBody) : List Byte :=
  [b.part, b.code] ++ leBytes 6 b.data.length ++ leBytes 8 b.addr.toNat ++ b.data ++ List.replicate (flitRoom - b.data.length) 0

/-- The body of a payload. -/
def FlitBody.read (bs : List Byte) : FlitBody :=
  ⟨nth bs 0 0, nth bs 1 0, BitVec.ofNat 64 (leNat ((bs.drop 8).take 8)), (bs.drop 16).take (leNat ((bs.drop 2).take 6))⟩

/-- A flit of 256 bytes: the header, the payload under AES-256-GCM with the header as additional data, the tag (R377). -/
def sealFlit (key : List Byte) (h : FlitHead) (payload : List Byte) : List Byte :=
  let c := gcmSeal key h.iv h.bytes payload
  h.bytes ++ c.1 ++ c.2

/-- The payload of a flit whose tag verifies under a key. -/
def openFlit (key flit : List Byte) : Option (List Byte) :=
  if flit.length ≠ 256 then none else
  gcmOpen key (FlitHead.read (flit.take 16)).iv (flit.take 16) ((flit.drop 16).take 224) (flit.drop 240)

/-- Bytes with their offset, cut to what flits have room for. -/
def flitPieces (bs : List Byte) : List (Nat × List Byte) :=
  (List.range (ceilDiv bs.length flitRoom)).map (fun i => (flitRoom * i, (bs.drop (flitRoom * i)).take flitRoom))

/-- A stream sends a flit of a type: its SEQ is used up, and a stream whose next would reach 2^64 − 1 fails (R377). -/
def sendFlit (part stream type : Nat) (body : FlitBody) (s : State) : State :=
  let p := s.part part
  match Table.find stream p.streams with
  | none => s
  | some x =>
    let h : FlitHead := ⟨BitVec.ofNat 22 x.peer, s.io.devid, BitVec.ofNat 6 stream, BitVec.ofNat 2 type, BitVec.ofNat 64 x.txseq⟩
    let next := x.txseq + 1
    let x' := { x with txseq := next, state := if next = 2 ^ 64 - 1 then 2 else x.state }
    { s.setPart part { p with streams := Table.set stream x' p.streams } with
      umenoOut := sealFlit (x.key.getD []) h { body with part := BitVec.ofNat 8 x.ppart }.bytes :: s.umenoOut }

end Sys2Proof.Machine
end

