-- ==== Sys2Proof/Machine/WordCheck.lean ====
section
/-!
DEFINITION. The legality of one element instruction word by itself: operand class (R17, R24), RT (R18), tag operation (R20),
destinations (R21), immediate (R22, R25, R57, R58, R73, R78) and the tile and matrix forms (R79 to R91, R97).  The checks
that look at the rest of the segment stand with SEGLD.
-/

namespace Sys2Proof.Machine

open Sys2Proof

/-- The operand classes of R17; `t1` and `t2` are the tile and matrix forms of ARITY 0b01 and 0b10 (R79). -/
inductive OpClass where
  | a | ap | ab | abc | t1 | t2
  deriving DecidableEq, Repr

/-- Lane width of a type code (R19). -/
def laneWidth (code : Nat) : Nat :=
  match code with
  | 0x0 => 8 | 0x1 => 16 | 0x2 => 32 | 0x3 => 64
  | 0x4 => 8 | 0x5 => 16 | 0x6 => 32 | 0x7 => 64
  | 0x8 => 16 | 0x9 => 16 | 0xA => 32
  | 0xB => 8 | 0xC => 8 | 0xD => 4 | 0xE => 2
  | _ => 64

/-- The accepted RT values of the lane types I8 to N64. -/
def intTypes : List Nat := [0, 1, 2, 3, 4, 5, 6, 7]

/-- The accepted RT values of BF16, F16 and F32. -/
def floatTypes : List Nat := [8, 9, 10]

/-- The accepted rounding modes (R18). -/
def roundModes : List Nat := [0, 1, 2, 3, 4]

/-- The row of R24, R85, R88 to R91, R97 for an element instruction: its word, class and accepted RT values. -/
def elemRow : Instr → Option (EWord × OpClass × List Nat)
  | .elemAdd w | .elemSub w | .elemMul w | .elemMulh w | .elemMin w | .elemMax w | .adds w | .subs w | .avg w =>
    some (w, .ab, intTypes)
  | .neg w | .abs w => some (w, .a, [0, 1, 2, 3])
  | .clamp w | .ins w => some (w, .abc, intTypes)
  | .elemAnd w | .elemOr w | .elemXor w | .tagf w | .tagr w | .steer w | .gate w => some (w, .ab, [0])
  | .shl w | .shr w | .sar w | .rot w => some (w, .ab, intTypes)
  | .elemClz w | .elemPopc w => some (w, .a, intTypes)
  | .sel w => some (w, .abc, [0])
  | .cmpEq w | .cmpNe w | .cmpLt w | .cmpLe w | .cmpGt w | .cmpGe w => some (w, .ab, intTypes)
  | .widenL w | .widenH w => some (w, .a, [0, 1, 2, 4, 5, 6])
  | .narrow w => some (w, .ab, [1, 2, 3, 5, 6, 7])
  | .shuf w | .bcast w | .extr w => some (w, .ap, intTypes)
  | .fadd _ w | .fsub _ w | .fmul _ w => some (w, .ab, roundModes)
  | .ffma _ w => some (w, .abc, roundModes)
  | .fmin w | .fmax w => some (w, .ab, floatTypes)
  | .fabs w | .fneg w => some (w, .a, floatTypes)
  | .cvt w => some (w, .ap, roundModes)
  | .fcmpEq w | .fcmpNe w | .fcmpLt w | .fcmpLe w | .fcmpGt w | .fcmpGe w => some (w, .ab, floatTypes)
  | .rcp w | .rsq w | .sqrt w | .exp2 w | .log2 w | .tanh w | .sigm w | .erf w => some (w, .a, floatTypes)
  | .rsum w | .rmax w | .rmin w => some (w, .a, [0, 1, 2, 3, 4, 5, 6, 7, 8, 9, 10])
  | .tagi w | .tinc w | .const w => some (w, .ap, [0])
  | .tget w | .sink w => some (w, .a, [0])
  | .talloc w | .tshrink w | .tzero w | .tmov w | .text w | .acfg w | .mmaT2 w => some (w, .t1, [0])
  | .tcfg w => some (w, .t1, [0, 1, 2, 3, 4, 5, 6, 7, 8, 9, 10, 11, 12, 13, 14])
  | .tins w => some (w, .t2, [0])
  | .wlatch w => some (w, .t1, [0x8, 0xB, 0xC, 0xD, 0xE])
  | .afmt w => some (w, .t1, [0x0, 0x8, 0xB, 0xC, 0xD])
  | .mmaF4 w | .mmaF8 w => some (w, .t2, roundModes)
  | .mmaBf16 w => some (w, .t1, roundModes)
  | .mmg w =>
    match bits w.imm.toNat 5 4 with
    | 0 => some (w, .t1, [0])
    | 1 => some (w, .t2, roundModes)
    | 2 => some (w, .t2, roundModes)
    | _ => some (w, .t1, roundModes)
  | _ => none

/-- The element word of an element instruction. -/
def elemWord (i : Instr) : Option EWord := (elemRow i).map (·.1)

/-- The lane width that R45 gives an instruction. -/
def widthOf (i : Instr) : Nat :=
  match i with
  | .fadd f _ | .fsub f _ | .fmul f _ | .ffma f _ => if f = .f32 then 32 else 16
  | .elemAnd _ | .elemOr _ | .elemXor _ | .sel _ | .cvt _ | .tagi _ | .tagf _ | .tagr _ | .tinc _ | .tget _
  | .steer _ | .gate _ | .const _ | .sink _ => 64
  | _ =>
    match elemRow i with
    | some (w, _, _) => laneWidth w.rt.toNat
    | none => 64

/-- ARITY, IMMB and SWAP allowed for the class, with IMM zero where R17 wants it so. -/
def comboOk (c : OpClass) (w : EWord) (width : Nat) : Bool :=
  let ar := w.arity.toNat
  match c with
  | .a => ar == 1 && !w.immb && !w.swap && w.imm == 0
  | .ap => ar == 1 && !w.immb && !w.swap
  | .ab => (ar == 1 && w.immb) || (ar == 2 && !w.immb && w.imm == 0)
  | .abc => (ar == 1 && w.immb && width != 64) || (ar == 2 && !w.immb)
  | .t1 => ar == 1 && !w.immb && !w.swap
  | .t2 => ar == 2 && !w.immb && !w.swap

/-- The tag operation fields are defined (R20). -/
def tagOpOk (w : EWord) : Bool :=
  match w.topc.toNat with
  | 0 => w.targ == 0 && !w.tsel
  | 1 => !w.targ.getLsbD 10
  | 2 => !w.targ.getLsbD 10
  | 3 => true
  | 4 => true
  | _ => false

/-- Fields of a destination (R21): VALID, SOFF, TARGET, SLOT, PORT, ROUTEW. -/
def dstValid (d : BitVec 16) : Bool := d.getLsbD 15
def dstSoff (d : BitVec 16) : Nat := bits d.toNat 14 13
def dstTarget (d : BitVec 16) : Nat := bits d.toNat 12 8
def dstSlot (d : BitVec 16) : Nat := bits d.toNat 7 4
def dstPort (d : BitVec 16) : Nat := bits d.toNat 3 3
def dstRoute (d : BitVec 16) : Nat := bits d.toNat 2 0

/-- A destination field is defined (R21, R26). -/
def dstOk (d : BitVec 16) : Bool :=
  if dstValid d then
    dstSoff d != 3 && decide (dstTarget d < 28) && (decide (dstTarget d < 16) || dstPort d == 0)
  else d == 0

/-- Every selector of a SHUF immediate is a lane or 0xF, and the bits above them are zero (R57). -/
def shufOk (n imm : Nat) : Bool :=
  (List.range n).all (fun i => decide (bits imm (4 * i + 3) (4 * i) < n) || bits imm (4 * i + 3) (4 * i) == 15)
    && imm / 2 ^ (4 * n) == 0

/-- The R, BR and KB fields of an ACFG immediate are in range (R91). -/
def acfgOk (imm : Nat) : Bool :=
  let r := bits imm 16 8
  let br := bits imm 25 17
  let kb := bits imm 42 32
  decide (1 ≤ r) && decide (r ≤ 384) && decide (1 ≤ br) && decide (br ≤ 384) && decide (1 ≤ kb) && decide (kb ≤ 1024)
    && decide (ceilDiv r br * kb ≤ 1024)

/-- The immediate of an instruction whose entry restricts it (R25, R57, R58, R73, R78, R85, R88 to R91, R97). -/
def immOk (i : Instr) : Bool :=
  match i with
  | .shuf w => shufOk (64 / laneWidth w.rt.toNat) w.imm.toNat
  | .bcast w | .extr w => decide (w.imm.toNat < 64 / laneWidth w.rt.toNat)
  | .cvt w =>
    let v := w.imm.toNat
    decide (v < 256) && bits v 7 4 != 15 && bits v 3 0 != 15 && bits v 7 4 != bits v 3 0
  | .tagi w => decide (w.imm.toNat ≤ 54)
  | .tinc w => decide (w.imm.toNat < 2 ^ 20) && bits w.imm.toNat 19 10 != 0
  | .talloc w => decide (w.imm.toNat % 2 ^ 63 ≤ 8)
  | .tshrink w => decide (w.imm.toNat ≤ 8)
  | .tcfg w =>
    let v := w.imm.toNat % 2 ^ 63
    let r := bits v 17 8
    let c := bits v 27 18
    decide (v < 2 ^ 28) && bits v 7 3 == 0 && decide (1 ≤ r) && decide (r ≤ 512) && decide (1 ≤ c) && decide (c ≤ 512)
      && decide (r * c * laneWidth w.rt.toNat ≤ 32768)
  | .tzero w => decide (w.imm.toNat % 2 ^ 63 < 8)
  | .tmov w => decide (w.imm.toNat < 128) && !bit w.imm.toNat 3
  | .text w | .tins w => decide (w.imm.toNat < 8)
  | .wlatch w =>
    let v := w.imm.toNat
    decide (v < 2 ^ 32) && bits v 15 1 == 0 && (!bit v 0 || w.rt.toNat == 0xD)
  | .afmt w => w.imm.toNat % 2 ^ 63 == 0
  | .acfg w =>
    let v := w.imm.toNat % 2 ^ 63
    decide (v < 2 ^ 43) && bits v 7 3 == 0 && bits v 31 26 == 0 && acfgOk v
  | .mmaT2 w | .mmaF4 w | .mmaF8 w | .mmaBf16 w => decide (w.imm.toNat < 4)
  | .mmg w =>
    let v := w.imm.toNat
    decide (v < 2 ^ 13) && bits v 3 2 == 0 && bits v 7 6 == 0 && decide (bits v 10 8 ≤ 4)
  | _ => true

/-- Which destinations the instruction must or must not have (R78, R90, R91). -/
def dstsOk (i : Instr) (c : OpClass) (w : EWord) : Bool :=
  match i with
  | .sink _ => !dstValid w.dst1 && !dstValid w.dst2
  | .acfg _ => dstValid w.dst1
  | .mmaT2 _ | .mmaBf16 _ => dstValid w.dst1 && !dstValid w.dst2
  | .mmg _ => (dstValid w.dst1 || dstValid w.dst2) && (c == .t2 || !dstValid w.dst2)
  | _ => dstValid w.dst1 || dstValid w.dst2

/-- An element instruction passes every load check that looks at its word alone; other instructions pass. -/
def elemLegal (i : Instr) : Bool :=
  match elemRow i with
  | none => true
  | some (w, c, rts) =>
    comboOk c w (widthOf i) && rts.contains w.rt.toNat && tagOpOk w && dstOk w.dst1 && dstOk w.dst2
      && immOk i && dstsOk i c w

/-- The initial form of R80: TALLOC, TCFG, TZERO, AFMT or ACFG with IMM[63]. -/
def initialForm (i : Instr) : Bool :=
  match i with
  | .talloc w | .tcfg w | .tzero w | .afmt w | .acfg w => w.imm.getLsbD 63
  | _ => false

end Sys2Proof.Machine
end

