-- ==== Sys2Proof/Machine/Float.lean ====
section
/-!
DEFINITION. Number formats and rounding (R229 to R243): the value of every bit pattern, exact arithmetic on dyadic values, one
rounding with its flags, and the read-modify-write operations of R135 to R137.
-/

namespace Sys2Proof.Machine

open Sys2Proof

/-! ## Flags (R47) -/

def fNV : Nat := 1
def fDZ : Nat := 2
def fOF : Nat := 4
def fUF : Nat := 8
def fNX : Nat := 16
def fSAT : Nat := 32
def fTERNBAD : Nat := 64
def fOUTMISS : Nat := 128
def fSCOVF : Nat := 256
def fSCUNF : Nat := 512

/-- The OR of two flag sets. -/
def orf (a b : Nat) : Nat := Nat.lor a b

/-! ## Formats (R231, R232) -/

/-- A floating format: exponent bits, fraction bits, bias, width, largest finite magnitude, infinity if it has one, and the
canonical NaN if it has one. -/
structure FFmt where
  e    : Nat
  m    : Nat
  bias : Nat
  w    : Nat
  max  : Nat
  inf  : Option Nat
  nan  : Option Nat
  deriving DecidableEq, Repr

def ffF32 : FFmt := ⟨8, 23, 127, 32, 0x7F7FFFFF, some 0x7F800000, some 0x7FC00000⟩
def ffBF16 : FFmt := ⟨8, 7, 127, 16, 0x7F7F, some 0x7F80, some 0x7FC0⟩
def ffF16 : FFmt := ⟨5, 10, 15, 16, 0x7BFF, some 0x7C00, some 0x7E00⟩
def ffE5M2 : FFmt := ⟨5, 2, 15, 8, 0x7B, some 0x7C, some 0x7E⟩
def ffE4M3 : FFmt := ⟨4, 3, 7, 8, 0x7E, none, some 0x7F⟩
def ffE2M1 : FFmt := ⟨2, 1, 1, 4, 0x7, none, none⟩

/-- The format of a type code (R19). -/
def ffOf (code : Nat) : FFmt :=
  match code with
  | 0x8 => ffBF16
  | 0x9 => ffF16
  | 0xA => ffF32
  | 0xB => ffE4M3
  | 0xC => ffE5M2
  | _ => ffE2M1

/-- The format of the FADD group's f field (R24). -/
def ffFmt : Fmt → FFmt
  | .bf16 => ffBF16
  | .f16 => ffF16
  | .f32 => ffF32

/-- A floating value: NaN (signalling or quiet), infinity, or (−1)^neg · m · 2^e. -/
inductive FVal where
  | nan (signalling : Bool)
  | inf (neg : Bool)
  | fin (neg : Bool) (m : Nat) (e : Int)
  deriving DecidableEq, Repr

/-- The exponent of a format's least significant subnormal bit. -/
def FFmt.qmin (f : FFmt) : Int := 1 - (f.bias : Int) - (f.m : Int)

/-- The value of a bit pattern (R230, R232). -/
def FFmt.val (f : FFmt) (v : Nat) : FVal :=
  let neg := bit v (f.w - 1)
  let mag := v % 2 ^ (f.w - 1)
  if some mag = f.inf then .inf neg
  else if mag > f.max then .nan (f.inf.isSome && !bit v (f.m - 1))
  else
    let ex := mag / 2 ^ f.m
    let fr := mag % 2 ^ f.m
    if ex = 0 then .fin neg fr f.qmin else .fin neg (2 ^ f.m + fr) (f.qmin + (ex : Int) - 1)

/-- The sign bit of a format on a magnitude. -/
def FFmt.sign (f : FFmt) (neg : Bool) (mag : Nat) : Nat := if neg then 2 ^ (f.w - 1) + mag else mag

/-- A pattern is a subnormal of the format. -/
def FFmt.subnormal (f : FFmt) (v : Nat) : Bool :=
  let mag := v % 2 ^ (f.w - 1)
  mag != 0 && decide (mag < 2 ^ f.m)

/-- FlushIn (R62): a subnormal operand read as zero of the same sign. -/
def FFmt.flushIn (f : FFmt) (fsi : Bool) (v : Nat) : Nat :=
  if fsi && f.subnormal v then f.sign (bit v (f.w - 1)) 0 else v

def FVal.isNan : FVal → Bool
  | .nan _ => true
  | _ => false

def FVal.isSnan : FVal → Bool
  | .nan b => b
  | _ => false

def FVal.isInf : FVal → Bool
  | .inf _ => true
  | _ => false

def FVal.isZero : FVal → Bool
  | .fin _ m _ => m == 0
  | _ => false

/-! ## Exact arithmetic -/

/-- The integer of a signed mantissa at a common exponent. -/
def scaled (neg : Bool) (m : Nat) (e q : Int) : Int :=
  let v : Int := (m * 2 ^ (e - q).toNat : Nat)
  if neg then -v else v

/-- The exact sum of two finite values; an exact zero sum of values not both zero, or of zeros of unlike signs, has the sign
of `rd` (R60). -/
def finAdd (rd n1 : Bool) (m1 : Nat) (e1 : Int) (n2 : Bool) (m2 : Nat) (e2 : Int) : FVal :=
  if m1 = 0 ∧ m2 = 0 then .fin (if n1 = n2 then n1 else rd) 0 0 else
  let q := if e1 ≤ e2 then e1 else e2
  let v := scaled n1 m1 e1 q + scaled n2 m2 e2 q
  if v = 0 then .fin rd 0 0 else .fin (decide (v < 0)) v.natAbs q

/-- The exact sum, NaN where it is invalid or an operand is NaN. -/
def FVal.add (rd : Bool) : FVal → FVal → FVal
  | .nan _, _ => .nan false
  | _, .nan _ => .nan false
  | .inf a, .inf b => if a = b then .inf a else .nan false
  | .inf a, _ => .inf a
  | _, .inf b => .inf b
  | .fin n1 m1 e1, .fin n2 m2 e2 => finAdd rd n1 m1 e1 n2 m2 e2

/-- The exact product, NaN where it is invalid or an operand is NaN. -/
def FVal.mul : FVal → FVal → FVal
  | .nan _, _ => .nan false
  | _, .nan _ => .nan false
  | .inf a, .inf b => .inf (a != b)
  | .inf a, .fin b m _ => if m = 0 then .nan false else .inf (a != b)
  | .fin a m _, .inf b => if m = 0 then .nan false else .inf (a != b)
  | .fin n1 m1 e1, .fin n2 m2 e2 => .fin (n1 != n2) (m1 * m2) (e1 + e2)

/-- The negative of a value. -/
def FVal.neg : FVal → FVal
  | .nan b => .nan b
  | .inf a => .inf (!a)
  | .fin n m e => .fin (!n) m e

/-- A finite or infinite value as less than another (−0 equals +0); false with a NaN. -/
def FVal.lt : FVal → FVal → Bool
  | .nan _, _ => false
  | _, .nan _ => false
  | .inf a, .inf b => a && !b
  | .inf a, .fin _ _ _ => a
  | .fin _ _ _, .inf b => !b
  | .fin n1 m1 e1, .fin n2 m2 e2 =>
    let q := if e1 ≤ e2 then e1 else e2
    decide (scaled n1 m1 e1 q < scaled n2 m2 e2 q)

/-- Equal values (−0 equals +0); false with a NaN. -/
def FVal.eqv (a b : FVal) : Bool := !a.isNan && !b.isNan && !a.lt b && !b.lt a

/-! ## Rounding (R238 to R240) -/

/-- One step of the rounding LFSR (R239). -/
def lfsrStep (s : Nat) : Nat := if s % 2 = 1 then Nat.xor (s / 2) 0x80200003 else s / 2

/-- Bits of a natural number: 0 has none. -/
def bitLen (m : Nat) : Nat := if m = 0 then 0 else Nat.log2 m + 1

/-- A rounding at a quantum: mantissa, whether inexact, whether away from zero, the LFSR after it. -/
structure Quant where
  z   : Nat
  ine : Bool
  up  : Bool
  lf  : Nat
  deriving DecidableEq, Repr

/-- Rounds m · 2^(−k) to an integer by mode (R238, R240). -/
def quant (rm : Nat) (neg : Bool) (m k lf : Nat) : Quant :=
  let z := m / 2 ^ k
  let r := m % 2 ^ k
  if r = 0 then ⟨z, false, false, lf⟩ else
  let lf' := if rm = 4 then lfsrStep lf else lf
  let up :=
    match rm with
    | 0 => decide (2 * r > 2 ^ k) || (decide (2 * r = 2 ^ k) && z % 2 == 1)
    | 1 => false
    | 2 => !neg
    | 3 => neg
    | _ => decide (lf' < r * 2 ^ 32 / 2 ^ k)
  ⟨if up then z + 1 else z, true, up, lf'⟩

/-- Rounds m · 2^e (m > 0) with `prec` bits and quantum at least 2^qmin: the mantissa and its exponent. -/
def roundAt (rm : Nat) (neg : Bool) (m : Nat) (e : Int) (prec : Nat) (qmin : Int) (lf : Nat) : Quant × Int :=
  let top := e + (bitLen m : Int) - (prec : Int)
  let q := if top ≤ qmin then qmin else top
  if q ≤ e then (⟨m * 2 ^ (e - q).toNat, false, false, lf⟩, q) else (quant rm neg m (q - e).toNat lf, q)

/-- The exact value rounds, with an unbounded exponent and in the direction the delivered result took, below the smallest
normal (R61). -/
def tiny (f : FFmt) (m : Nat) (e : Int) (up : Bool) : Bool :=
  let top := e + (bitLen m : Int) - ((f.m : Int) + 1)
  let k := (top - e).toNat
  let z := if top ≤ e then m * 2 ^ (e - top).toNat else m / 2 ^ k
  let z' := if up && decide (e < top) && m % 2 ^ k != 0 then z + 1 else z
  -- z' · 2^top < 2^(m + qmin)
  decide (top + (bitLen z' : Int) ≤ (f.m : Int) + f.qmin)

/-- A result: pattern, flags, LFSR. -/
structure FRes where
  v  : Nat
  fl : Nat
  lf : Nat
  deriving DecidableEq, Repr, Inhabited

/-- The magnitude that an overflow gives by rounding mode (R61). -/
def FFmt.overflow (f : FFmt) (rm : Nat) (neg : Bool) : Nat :=
  match f.inf with
  | some i => if rm = 0 ∨ (rm = 2 ∧ neg = false) ∨ (rm = 3 ∧ neg = true) then i else f.max
  | none => f.max

/-- Rounds an exact value to a format with the flags of R61 and FlushOut of R62; `ovf` is the magnitude of an overflow.  Where a value above the
range has no bits past the precision, RS does not step its generator (DESIGN CHOICE, log 56). -/
def roundTo (f : FFmt) (rm : Nat) (fso : Bool) (ovf : Bool → Nat) (v : FVal) (lf : Nat) : FRes :=
  match v with
  | .nan _ => ⟨f.nan.getD 0, 0, lf⟩
  | .inf n => ⟨f.sign n (f.inf.getD f.max), 0, lf⟩
  | .fin n m e =>
    if m = 0 then ⟨f.sign n 0, 0, lf⟩ else
    let (r, q) := roundAt rm n m e (f.m + 1) f.qmin lf
    let enc := (q - f.qmin).toNat * 2 ^ f.m + r.z
    if enc > f.max then ⟨f.sign n (ovf n), orf fOF fNX, r.lf⟩
    else
      let fl := if r.ine then (if tiny f m e r.up then orf fUF fNX else fNX) else 0
      if fso && f.subnormal enc then ⟨f.sign n 0, orf fl (orf fUF fNX), r.lf⟩
      else ⟨f.sign n enc, fl, r.lf⟩

/-! ## Policy (R213) -/

/-- The special-value policy keys of an element's configuration word. -/
structure Keys where
  fsi  : Bool
  fso  : Bool
  nsat : Bool
  sovf : Bool
  deriving DecidableEq, Repr

/-- The keys of a configuration word (R213). -/
def keysOf (p : Word) : Keys := ⟨p.getLsbD 1, p.getLsbD 2, p.getLsbD 3, p.getLsbD 4⟩

/-- No key set: the rules of control cores and memory (R237). -/
def noKeys : Keys := ⟨false, false, false, false⟩

/-! ## FADD, FSUB, FMUL, FFMA, FMIN, FMAX (R60, R65) -/

/-- The floating operations of R60. -/
inductive FOp where
  | add | sub | mul | fma
  deriving DecidableEq, Repr

/-- Invalid(op, …) of R60, signalling NaNs apart. -/
def fInvalid (op : FOp) (a b c : FVal) : Bool :=
  match op with
  | .add => (a.isInf && b.isInf && (FVal.add false a b).isNan)
  | .sub => (a.isInf && b.isInf && (FVal.add false a b.neg).isNan)
  | .mul => (a.isZero && b.isInf) || (a.isInf && b.isZero)
  | .fma => (a.isZero && b.isInf) || (a.isInf && b.isZero)
      || ((a.isInf || b.isInf) && !(FVal.mul a b).isNan && c.isInf && (FVal.add false (FVal.mul a b) c).isNan)

/-- The exact result of R60. -/
def fExact (op : FOp) (rd : Bool) (a b c : FVal) : FVal :=
  match op with
  | .add => FVal.add rd a b
  | .sub => FVal.add rd a b.neg
  | .mul => FVal.mul a b
  | .fma => FVal.add rd (FVal.mul a b) c

/-- One lane of FADD, FSUB, FMUL or FFMA (R60 to R64). -/
def fArith (f : FFmt) (op : FOp) (rm : Nat) (k : Keys) (a b c : Nat) (lf : Nat) : FRes :=
  let va := f.val (f.flushIn k.fsi a)
  let vb := f.val (f.flushIn k.fsi b)
  let vc := f.val (f.flushIn k.fsi c)
  let useC := op == .fma
  let inv := fInvalid op va vb vc
  let snan := va.isSnan || vb.isSnan || (useC && vc.isSnan)
  if va.isNan || vb.isNan || (useC && vc.isNan) || inv then
    ⟨f.nan.getD 0, if inv || snan then fNV else 0, lf⟩
  else roundTo f rm k.fso (f.overflow rm) (fExact op (rm == 3) va vb vc) lf

/-- −0 orders below +0 (R65). -/
def fBelow (a b : FVal) : Bool :=
  a.lt b || (match a, b with
    | .fin n1 m1 _, .fin n2 m2 _ => m1 == 0 && m2 == 0 && n1 && !n2
    | _, _ => false)

/-- FlushOut of a result that no rounding made (R62): a subnormal is replaced by zero of the same sign, with UF and NX. -/
def FFmt.flushOut (f : FFmt) (fso : Bool) (v fl : Nat) : FRes :=
  if fso && f.subnormal v then ⟨f.sign (bit v (f.w - 1)) 0, orf fl (orf fUF fNX), 0⟩ else ⟨v, fl, 0⟩

/-- One lane of FMIN or FMAX (R65), with FlushOut as R62 and R237 name every floating instruction but FABS and FNEG (DEDUCED, log 42). -/
def fMinMax (f : FFmt) (max : Bool) (k : Keys) (a b : Nat) : FRes :=
  let a := f.flushIn k.fsi a
  let b := f.flushIn k.fsi b
  let va := f.val a
  let vb := f.val b
  let fl := if va.isSnan || vb.isSnan then fNV else 0
  if va.isNan && vb.isNan then ⟨f.nan.getD 0, fl, 0⟩
  else if va.isNan then f.flushOut k.fso b fl
  else if vb.isNan then f.flushOut k.fso a fl
  else f.flushOut k.fso (if fBelow va vb != max then a else b) fl

/-- One lane of FCMP, by condition number 0 EQ to 5 GE (R67): the truth and the flags. -/
def fCompare (f : FFmt) (cc : Nat) (k : Keys) (a b : Nat) : Bool × Nat :=
  let va := f.val (f.flushIn k.fsi a)
  let vb := f.val (f.flushIn k.fsi b)
  let unord := va.isNan || vb.isNan
  let snan := va.isSnan || vb.isSnan
  let fl := if snan || (unord && decide (2 ≤ cc)) then fNV else 0
  let r :=
    match cc with
    | 0 => va.eqv vb
    | 1 => !va.eqv vb
    | 2 => va.lt vb
    | 3 => va.lt vb || va.eqv vb
    | 4 => vb.lt va
    | _ => vb.lt va || va.eqv vb
  (r, fl)

/-- FAddRN of R137. -/
def fAddRN (f : FFmt) (a b : Nat) : Nat := (fArith f .add 0 noKeys a b 0 0).v

/-! ## Read-modify-write operations (R34, R135) -/

/-- The new value of an AOP on an operand of the given bytes; `cmp` is the compare value of AMOCAS. -/
def aopApply (aop bytes old b cmp : Nat) : Nat :=
  let w := 8 * bytes
  let lessS := decide (signed w old < signed w b)
  match aop with
  | 1 => (old + b) % 2 ^ w
  | 2 => if lessS then old else b
  | 3 => if old < b then old else b
  | 4 => if lessS then b else old
  | 5 => if old < b then b else old
  | 6 => Nat.land old b
  | 7 => Nat.lor old b
  | 8 => Nat.xor old b
  | 9 => b
  | 10 => if old = cmp then b else old
  | 11 => fAddRN ffF32 old b
  | _ => fAddRN ffBF16 old b

/-- Combines two operands of posted reductions of one AOP (R138): what applying both would do, the floating ones rounded. -/
def aopCombine (aop bytes x y : Nat) : Nat := aopApply aop bytes x y 0

end Sys2Proof.Machine
end

