-- ==== Sys2Proof/Machine/Threads.lean ====
section
/-!
DEFINITION. Continuations, launches, registers and what a core holds (R27, R117, R193, R299, R316).
-/

namespace Sys2Proof.Machine

open Sys2Proof

/-- A word from a natural number. -/
def w64 (n : Nat) : Word := BitVec.ofNat 64 n

/-! ## Cores and continuations -/

/-- A management core (R1, R29). -/
def State.mgmt (s : State) : Bool := decide (64 ≤ s.core)

/-- The die of a core; 8 for the I/O die. -/
def coreDie (c : Nat) : Nat := if c < 64 then c / 8 else 8

/-- The ring, 0 to 31, of a control core: two cores per ring (R1, R320). -/
def coreRing (c : Nat) : Nat := c / 2

/-- The ring, 0 to 31, of a physical stripe (R192). -/
def stripeRing (x : Nat) : Nat := x / 16

/-- The die of a physical stripe (R192). -/
def stripeDie (x : Nat) : Nat := x / 64

/-- A continuation by number. -/
def State.thread? (s : State) (tid : Nat) : Option Thread :=
  if s.th.id = tid then (if s.th.status = .exited then none else some s.th) else Table.find tid s.threads

/-- Replaces a continuation. -/
def State.putThread (s : State) (t : Thread) : State :=
  if s.th.id = t.id then { s with th := t } else { s with threads := Table.set t.id t s.threads }

/-- Every continuation that has not exited. -/
def State.allThreads (s : State) : List Thread :=
  (if s.th.status = .exited then [] else [s.th]) ++ s.threads.map (·.2)

/-- The continuations of a launch. -/
def State.threadsOf (s : State) (l : Nat) : List Thread := s.allThreads.filter (fun t => t.launch == some l)

/-- Makes a continuation the executing one; one that has exited is dropped. -/
def State.focus (s : State) (tid : Nat) : State :=
  if s.th.id = tid then s else
  match Table.find tid s.threads with
  | none => s
  | some t =>
    let rest := Table.erase tid s.threads
    { s with th := t, threads := if s.th.status = .exited then rest else Table.set s.th.id s.th rest }

/-- Changes a launch. -/
def State.setLaunch (s : State) (l : Nat) (v : Launch) : State := { s with launches := Table.set l v s.launches }

/-- Changes a launch by a function, where it exists. -/
def State.mapLaunch (s : State) (l : Nat) (f : Launch → Launch) : State :=
  match Table.find l s.launches with
  | some v => s.setLaunch l (f v)
  | none => s

/-- A launch's state on a die, blank where nothing was written. -/
def LaunchDie.blank : LaunchDie := ⟨[], [], 0, [], [], [], 0, [], [], 0⟩

/-- What a launch holds on a die. -/
def Launch.die (v : Launch) (d : Nat) : LaunchDie := Table.getD v.dies d LaunchDie.blank

/-- Changes what a launch holds on a die. -/
def Launch.setDie (v : Launch) (d : Nat) (x : LaunchDie) : Launch := { v with dies := Table.set d x v.dies }

/-- Changes what a launch holds on a die, by a function. -/
def State.mapDie (s : State) (l d : Nat) (f : LaunchDie → LaunchDie) : State :=
  s.mapLaunch l (fun v => v.setDie d (f (v.die d)))

/-- The launch of the executing continuation. -/
def State.launch? (s : State) : Option Launch :=
  match s.th.launch with
  | some l => Table.find l s.launches
  | none => none

/-- The partition that the executing core translates under: its launch's, or that of management code (R267, R383). -/
def State.partNow (s : State) : Nat :=
  match s.launch? with
  | some v => v.part
  | none => mgmtPart

/-- Where what core c holds for a launch stands in `ctxs`. -/
def ctxKey (launch : Option Nat) (c : Nat) : Nat :=
  match launch with
  | some l => 128 * (l + 1) + c
  | none => c

/-- What a core holds for a launch. -/
def State.ctxAt (s : State) (launch : Option Nat) (c : Nat) : CoreCtx := Table.getD s.ctxs (ctxKey launch c) CoreCtx.blank

/-- Changes what a core holds for a launch. -/
def State.setCtx (s : State) (launch : Option Nat) (c : Nat) (v : CoreCtx) : State :=
  { s with ctxs := Table.set (ctxKey launch c) v s.ctxs }

/-- What the executing core holds for the launch it executes. -/
def State.ctx (s : State) : CoreCtx := s.ctxAt s.th.launch s.core

/-- Changes it. -/
def State.putCtx (s : State) (v : CoreCtx) : State := s.setCtx s.th.launch s.core v

/-- A core's own state. -/
def State.coreAt (s : State) (c : Nat) : Core := Table.getD s.cores c Core.blank

/-- Changes the continuation a core runs. -/
def State.setRunning (s : State) (c : Nat) (r : Option Nat) : State :=
  { s with cores := Table.set c { s.coreAt c with running := r } s.cores }

/-! ## Registers (R27, R117) -/

/-- g[n]: reading g[0] gives 0. -/
def State.g (s : State) (r : Reg) : Word := if r = 0 then 0 else s.th.regs[r]

/-- g[n] ← v: writing g[0] is discarded. -/
def State.setG (s : State) (r : Reg) (v : Word) : State :=
  if r = 0 then s else { s with th := { s.th with regs := s.th.regs.set r.val v } }

/-- PC ← v. -/
def State.setPc (s : State) (v : Word) : State := { s with th := { s.th with pc := v } }

/-- PC ← PC + n. -/
def State.advance (s : State) (n : Nat) : State := s.setPc (s.th.pc + BitVec.ofNat 64 n)

/-- Completes a 4-byte instruction that writes one register. -/
def State.write4 (s : State) (r : Reg) (v : Word) : State := (s.setG r v).advance 4

/-! ## Unit identifiers (R299) -/

/-- The unit identifier of a continuation. -/
def threadUnit (t : Thread) : Nat := t.die * 2 ^ 45 + 28 * 2 ^ 40 + t.serial

/-- The unit identifier of an element (0 to 15) or operator slot (16 to 27) of a physical stripe. -/
def fabricUnit (x agent : Nat) : Nat :=
  stripeDie x * 2 ^ 45 + agent * 2 ^ 40 + x / 16 % 4 * 2 ^ 38 + x % 16 * 2 ^ 34

/-! ## Service areas (R316, R324) -/

/-- The physical address of an offset of a launch's service area on a die, fixed at placement. -/
def svcPa (ld : LaunchDie) (off : Nat) : Nat := nth ld.svc (off / 4096) 0 + off % 4096

/-- Writes device data at a physical address; a part of a unit in error is not written (R277). -/
def devWrite (pa : Nat) (data : List Byte) (s : State) : State :=
  match pokeOk 0 0 pa data s with
  | some s' => s'
  | none => s

/-- Writes the next trap record of a launch on a die and increments TRCOUNT (R324). -/
def writeTrapRecord (l d : Nat) (ws : List Word) (s : State) : State :=
  match Table.find l s.launches with
  | none => s
  | some v =>
    let ld := v.die d
    let s1 := devWrite (svcPa ld (0x0C00 + 64 * (ld.trcount % 64))) (wordBytes ws) s
    let s2 := devWrite (svcPa ld 0x0A00) (leBytes 8 (ld.trcount + 1)) s1
    s2.mapDie l d (fun x => { x with trcount := ld.trcount + 1 })

end Sys2Proof.Machine
end

