-- ==== Sys2Proof/Machine/Home.lean ====
section
/-!
DEFINITION. What happens at the home of an address: replica locations that fail there (R336, R355, R356), the HBM write queues and posted traffic
(R131, R138, R258, R293).
-/

namespace Sys2Proof.Machine

open Sys2Proof

/-! ## Replica locations that fail (R336, R355, R356) -/

/-- Changes the placement state of a partition. -/
def State.mapPlace (s : State) (part : Nat) (f : Place → Place) : State :=
  s.setPart part { s.part part with place := f (s.part part).place }

/-- Adds an owed redirect to the ROUTEs of a table among operators. -/
def oweAmong (table : Nat) (item : Nat × Nat × Nat) (im : Table OpImage) (ops : Table Oper) : Table Oper :=
  Table.mapVals (fun o (v : Oper) =>
    match Table.find o im with
    | some i => if i.kind = 11 ∧ i.p0.toNat = table then { v with redirect := v.redirect ++ [item] } else v
    | none => v) ops

/-- Every ROUTE of the partition that reads the table owes the re-issue of a location retired urgently (R336). -/
def oweRedirect (part table : Nat) (item : Nat × Nat × Nat) (s : State) : State :=
  let mine := fun (r : Run) => match Table.find r.launch s.launches with | some v => v.part == part | none => false
  let stripe := fun (_ : Nat) (st : Stripe) =>
    match st.run.bind (fun r => Table.find r s.runs) with
    | some r => if mine r then { st with ops := oweAmong table item st.image.ops st.ops } else st
    | none => st
  let evicted := fun (_ : Nat) (r : Run) =>
    if mine r then
      { r with saved := Table.mapVals (fun k (v : SavedStripe) =>
          match r.image.stripes[k]? with
          | some im => { v with ops := oweAmong table item im.ops v.ops }
          | none => v) r.saved }
    else r
  { s with
    stripes := Table.mapVals stripe s.stripes
    saved := Table.mapVals (fun _ (c : SavedContext) => { c with stripes := Table.mapVals stripe c.stripes }) s.saved
    runs := Table.mapVals evicted s.runs }

/-- A retirement of the location of an expert on a die that is in DRAIN without URGENT becomes urgent (R355). -/
def hastenDrain (part expert die : Nat) (s : State) : State :=
  let pl := (s.part part).place
  let hit := fun (a : Action) => !a.add && !a.urgent && a.state == .drain && a.expert == expert && a.die == die
  match pl.actions.find? hit, pl.policy with
  | some a, some pol =>
    oweRedirect part pol.table (expert, a.loc, a.arg2.toNat)
      (s.mapPlace part (fun p => { p with actions := p.actions.map (fun b => if hit b then { b with urgent := true } else b) }))
  | _, _ => s

/-- Puts an action ahead of every action still QUEUED; the others keep their order. -/
def aheadOfQueued (a : Action) : List Action → List Action
  | [] => [a]
  | b :: t => if b.state = .queued then a :: b :: t else b :: aheadOfQueued a t

/-- Queues the urgent retirement of a failed location ahead of every action still QUEUED, unless the device has one under way or queued
already (R356). -/
def queueFailure (part expert die : Nat) (s : State) : State :=
  let pl := (s.part part).place
  if pl.actions.any (fun a => !a.add && a.urgent && a.expert == expert && a.die == die && (a.state != .queued || a.report.isNone)) then s else
  let a : Action := ⟨pl.nextIssue, false, true, expert, die, .queued, 0, 0, 0, 0, none, none, View.upTo s.writeSeq, View.zero⟩
  s.mapPlace part (fun p => { p with actions := aheadOfQueued a p.actions, nextIssue := p.nextIssue + 1 })

/-- The replica locations of a partition that a test picks out fail (R356): each is retired urgently, and an add in COPY on such a
die rolls back. -/
def failReplicas (part : Nat) (bad : Nat × Nat × Nat × Nat → Bool) (s : State) : State :=
  let pl := (s.part part).place
  let adding := fun (expert die : Nat) => pl.actions.any (fun a => a.add && a.expert == expert && a.die == die && a.state != .queued)
  let hit := pl.slots.filter (fun z => bad z && !adding z.2.2.2 z.1)
  let dies := hit.map (·.1)
  let doomed := (pl.actions.filter (fun a => a.add && a.state == .copy && dies.contains a.die)).map (·.issue)
  let s1 := hit.foldl (fun t z => queueFailure part z.2.2.2 z.1 (hastenDrain part z.2.2.2 z.1 t)) s
  { s1 with copies := s1.copies.map (fun c =>
      if c.part = part ∧ c.placement.any doomed.contains ∧ c.finished = none then { c with finished := some (cMEMERR, 0) } else c) }

/-- An access of a partition to an address met MEMERR: a location whose slot holds the address fails (R356). -/
def noteMemerr (part : Nat) (va : Word) (s : State) : State :=
  if part = mgmtPart then s else
  failReplicas part (fun z => decide (z.2.1 ≤ va.toNat) && decide (va.toNat < z.2.1 + z.2.2.1)) s

/-! ## Write queues and posted traffic (R131, R138, R258, R293) -/

/-- The stack of an HBM address. -/
def stackOf (pa : Nat) : Nat := pa / 2 ^ 36

/-- The owner number of operator slot o of the load that a number names (R282). -/
def operOwner (load o : Nat) : Nat := 2 ^ 40 + 16 * load + o

/-- The owner number of a copy (R282). -/
def copyOwner (id : Nat) : Nat := 2 ^ 42 + id

/-- The launch number plus one of a continuation, 0 for management code and for one that has exited. -/
def markOf (s : State) (tid : Nat) : Nat :=
  match (s.thread? tid).bind (·.launch) with
  | some l => l + 1
  | none => 0

/-- The partition of a launch number plus one; management code's for 0. -/
def partOfMark (s : State) (mark : Nat) : Nat :=
  if mark = 0 then mgmtPart else
  match Table.find (mark - 1) s.launches with
  | some v => v.part
  | none => mgmtPart

/-- The partition of a continuation's launch. -/
def partOfThread (s : State) (owner : Nat) : Nat := partOfMark s (markOf s owner)

/-- The stripe and slot of an operator by its owner number. -/
def operOfOwner (s : State) (owner : Nat) : Option (Nat × Nat × Stripe × Oper) :=
  (s.stripes.find? (fun p => p.2.party == (owner - 2 ^ 40) / 16)).bind (fun p =>
    (Table.find ((owner - 2 ^ 40) % 16) p.2.ops).map (fun v => (p.1, (owner - 2 ^ 40) % 16, p.2, v)))

/-- Records the error that a posted reduction met: for the next FENCE, PHASE or STL of its continuation (R138), or for the completion of its
operator; a replica location fails at once, whatever has become of the issuer (R356). -/
def deferError (q : PostedRed) (s0 : State) : State :=
  let owner := q.owner
  let va := q.va
  let s := noteMemerr (partOfMark s0 q.mark) va s0
  if owner < 2 ^ 40 then
    match s.thread? owner with
    | some t => s.putThread { t with redErr := t.redErr ++ [(va.toNat, q.job)] }
    | none => s
  else
    match operOfOwner s owner with
    | none => s
    | some (x, o, st, v) =>
      { s with stripes := Table.set x { st with ops := Table.set o { v with redErr := some (v.redErr.getD va.toNat) } st.ops } s.stripes }

/-- Of an operator's accesses, the i-th of those not complete is complete, with the writes that it made (R102, R291). -/
def finishNth : Nat → List Nat → List (Token × Bool) → List (Token × Bool)
  | _, _, [] => []
  | i, q, (t, true) :: r => (t, true) :: finishNth i q r
  | 0, q, (t, false) :: r => ({ t with after := t.after.mark q }, true) :: r
  | i + 1, q, (t, false) :: r => (t, false) :: finishNth i q r

/-- A posted operation of an operator is complete. -/
def Oper.finish (v : Oper) (job : Nat) (seqs : List Nat) : Oper :=
  match v.jobs.findIdx? (· == job) with
  | some i => { v with accesses := finishNth i seqs v.accesses, jobs := v.jobs.eraseIdx i }
  | none => v

/-- The posted operation of an owner is complete, with the writes that it made; a continuation keeps no account of its own. -/
def finishPosted (owner job : Nat) (seqs : List Nat) (s : State) : State :=
  if owner < 2 ^ 40 then s else
  match operOfOwner s owner with
  | some (x, o, st, v) => { s with stripes := Table.set x { st with ops := Table.set o (v.finish job seqs) st.ops } s.stripes }
  | none => s

/-- Applies one posted operation at its home; an error is reported to its owner later. -/
def applyRed (r : PostedRed) (s : State) : State :=
  if readFails s r.pa r.bytes then deferError r s
  else
    let old := leNat (peek s r.pa r.bytes)
    let s1 := poke r.mark (r.owner + 1) r.pa (leBytes r.bytes (aopApply r.aop r.bytes old (r.value.toNat % 2 ^ (8 * r.bytes)) 0)) (touchHeap r.pa s)
    finishPosted r.owner r.job [s1.writeSeq] s1

/-- The operands of floating reductions to one location, added to one another in arrival order (R138). -/
def combinedValue (r : PostedRed) (more : List PostedRed) : Word :=
  more.foldl (fun w q => w64 (aopCombine r.aop r.bytes (w.toNat % 2 ^ (8 * r.bytes)) (q.value.toNat % 2 ^ (8 * r.bytes)))) r.value

/-- The owner of a reduction that was added to memory with another's reads what that wrote. -/
def seesWrite (first owner : Nat) (s : State) : State :=
  if owner = first then s else
  if owner < 2 ^ 40 then
    match s.thread? owner with
    | some t => s.putThread { t with view := t.view.add (first + 1) s.writeSeq }
    | none => s
  else
    match operOfOwner s owner with
    | some (x, o, st, v) =>
      { s with stripes := Table.set x { st with ops := Table.set o { v with view := v.view.add (first + 1) s.writeSeq } st.ops } s.stripes }
    | none => s

/-- Applies floating reductions of one entry, location by location; an error is reported to the owner of each (R138). -/
def applyFloats : Nat → List PostedRed → State → State
  | 0, _, s => s
  | _, [], s => s
  | n + 1, r :: rest, s =>
    let same := rest.filter (fun q => q.pa == r.pa)
    let s1 := if readFails s r.pa r.bytes then (r :: same).foldl (fun t q => deferError q t) s
      else
        let s0 := applyRed { r with value := combinedValue r same } s
        same.foldl (fun t q => seesWrite r.owner q.owner (finishPosted q.owner q.job [s0.writeSeq] t)) s0
    applyFloats n (rest.filter (fun q => q.pa != r.pa)) s1

/-- Applies a write-queue entry to its line (R258): integer operations one by one; floating operands are first added to one
another in arrival order, per location (R138). -/
def applyEntry (e : QueueEntry) (s : State) : State :=
  if e.aop < 11 then e.ops.foldl (fun t r => applyRed r t) s else applyFloats e.ops.length e.ops s

/-- Two byte ranges overlap. -/
def overlap (a n b m : Nat) : Bool := decide (a < b + m) && decide (b < a + n)

/-- An entry that holds a reduction of the same owner to some of the same bytes. -/
def QueueEntry.meets (e : QueueEntry) (r : PostedRed) : Bool :=
  e.ops.any (fun q => q.owner == r.owner && overlap q.pa q.bytes r.pa r.bytes)

/-- The place in a stack's queue of the pending entry that a reduction combines into (R258): the latest of its line, AOP and SIZE,
unless the owner has a later reduction to the same bytes in another entry, which comes first (R136; DEDUCED, log 37). -/
def joinPlace (q : List QueueEntry) (r : PostedRed) : Option Nat :=
  let fits := fun (e : QueueEntry) => e.line == r.pa / 64 * 64 && e.aop == r.aop && e.bytes == r.bytes
  match (q.zipIdx.filter (fun p => fits p.1)).getLast? with
  | some p => if (q.drop (p.2 + 1)).any (fun e => e.line == p.1.line && e.meets r) then none else some p.2
  | none => none

/-- The queue of a stack. -/
def queueOf (s : State) (pa : Nat) : List QueueEntry := Table.getD s.wqueue (stackOf pa) []

/-- The reduction would open an entry in a full queue, and stalls (R258). -/
def queueStalls (r : PostedRed) (s : State) : Bool :=
  decide (1024 ≤ (queueOf s r.pa).length) && (joinPlace (queueOf s r.pa) r).isNone

/-- A reduction enters the write queue of its stack: it combines into a pending entry or opens one behind the others (R258).  Where it
cannot wait for a free entry, the oldest is applied first. -/
def enterQueue (r : PostedRed) (s : State) : State :=
  let j := stackOf r.pa
  let q := queueOf s r.pa
  match joinPlace q r with
  | some i => { s with wqueue := Table.set j (q.mapIdx (fun k e => if k = i then { e with ops := e.ops ++ [r] } else e)) s.wqueue }
  | none =>
    let fresh : QueueEntry := ⟨r.pa / 64 * 64, r.aop, r.bytes, [r]⟩
    match q with
    | e :: rest =>
      if 1024 ≤ q.length then
        let s1 := applyEntry e { s with wqueue := Table.set j rest s.wqueue }
        { s1 with wqueue := Table.set j (rest ++ [fresh]) s1.wqueue }
      else { s with wqueue := Table.set j (q ++ [fresh]) s.wqueue }
    | [] => { s with wqueue := Table.set j [fresh] s.wqueue }

/-- Applies every pending entry of the lines that n bytes of HBM touch, in order (R258). -/
def settleLines (pa n : Nat) (s : State) : State :=
  match locOf pa with
  | .hbm j _ =>
    let q := Table.getD s.wqueue j []
    let mine := fun (e : QueueEntry) => decide (pa / 64 * 64 ≤ e.line) && decide (e.line < pa + n)
    if q.any mine then
      let s1 := { s with wqueue := Table.set j (q.filter (fun e => !mine e)) s.wqueue }
      (q.filter mine).foldl (fun t e => applyEntry e t) s1
    else s
  | _ => s

/-- Applies every pending entry of every stack. -/
def settleQueues (s : State) : State :=
  (s.wqueue.flatMap (·.2)).foldl (fun t e => applyEntry e t) { s with wqueue := [] }

/-- The device issues a TLP on the host link (R368). -/
def sendTlp (t : HostTlp) (s : State) : State := { s with hostOut := t :: s.hostOut }

/-- A posted write of a partition to an address of the host window leaves for the host (R368); the device notes it, as it notes a write to its
own memory. -/
def toHost (launch party part pa : Nat) (data : List Byte) (s : State) : State :=
  sendTlp (.write part (pa % 2 ^ 51) data) (noteWrite launch party View.zero pa data.length s)

/-- Records an error that a continuation's posted store met. -/
def deferStoreError (owner : Nat) (va : Word) (job : Nat) (s : State) : State :=
  match s.thread? owner with
  | some t => noteMemerr (partOfThread s owner) va (s.putThread { t with stErr := t.stErr ++ [(va.toNat, job)] })
  | none => s

/-- What a release by a continuation carries: what it is ordered after, and its own accesses (R133, R294). -/
def viewOf (s : State) (tid : Nat) : View :=
  match s.thread? tid with
  | some t => (t.view.join t.floor).add (tid + 1) s.writeSeq
  | none => View.zero.add (tid + 1) s.writeSeq

/-- Marks bytes as last written by a release (R133). -/
def addRelease (pa : Nat) (data : List Byte) (mark rel : Nat) (view : View) (s : State) : State :=
  if rel = 0 then s else { s with releases := ⟨pa, data, mark, rel, view⟩ :: s.releases }

/-- Performs a posted store at its home (R293). -/
def performStore (p : PostedStore) (s : State) : State :=
  match locOf p.pa with
  | .host _ => addRelease p.pa p.data (markOf s p.owner) p.rel (viewOf s p.owner)
      (toHost (markOf s p.owner) (p.owner + 1) (partOfThread s p.owner) p.pa p.data s)
  | _ =>
    let s1 := settleLines p.pa p.data.length s
    match pokeOk (markOf s1 p.owner) (p.owner + 1) p.pa p.data (touchHeap p.pa s1) with
    | some s2 => addRelease p.pa p.data (markOf s1 p.owner) p.rel (viewOf s1 p.owner) s2
    | none => deferStoreError p.owner p.va p.job s1

/-- A posted reduction reaches its home: a bank ALU performs it, or it enters a write queue (R257, R258). -/
def performRed (r : PostedRed) (s : State) : State :=
  match locOf r.pa with
  | .hbm _ _ => enterQueue r s
  | _ => applyRed r s

/-- Of posted items in program order, those of one owner on some bytes, with the older ones on the bytes of any of them: the ranges
met, what must be performed, and what may wait (R131, R136, R293). -/
def splitPosted {α : Type} (rng : α → Option (Nat × Nat)) (want : List (Nat × Nat)) : List α → List (Nat × Nat) × List α × List α
  | [] => (want, [], [])
  | x :: t =>
    let r := splitPosted rng want t
    match rng x with
    | some (a, n) => if r.1.any (fun w => overlap w.1 w.2 a n) then ((a, n) :: r.1, x :: r.2.1, r.2.2) else (r.1, r.2.1, x :: r.2.2)
    | none => (r.1, r.2.1, x :: r.2.2)

/-- Performs a continuation's own posted stores on some bytes, in program order, with the older ones that they follow. -/
def settleStores (tid pa n : Nat) (s : State) : State :=
  let r := splitPosted (fun (p : PostedStore) => if p.owner = tid then some (p.pa, p.data.length) else none) [(pa, n)] s.posted
  if r.2.1.isEmpty then s else r.2.1.foldl (fun t p => performStore p t) { s with posted := r.2.2 }

/-- Performs a continuation's own posted reductions on some bytes, in program order, with the older ones that they follow. -/
def settleReds (tid pa n : Nat) (s : State) : State :=
  let r := splitPosted (fun (p : PostedRed) => if p.owner = tid then some (p.pa, p.bytes) else none) [(pa, n)] s.reds
  if r.2.1.isEmpty then s else r.2.1.foldl (fun t p => performRed p t) { s with reds := r.2.2 }

/-- Performs a continuation's own posted stores and reductions on some bytes, and the pending reductions of their lines,
before an operation at their home (R131, R136, R258). -/
def settleOwn (tid pa n : Nat) (s : State) : State := settleLines pa n (settleReds tid pa n (settleStores tid pa n s))

/-- Performs every posted store and reduction of a continuation (R170, R171). -/
def settleAll (tid : Nat) (s : State) : State :=
  let s1 := { s with posted := s.posted.filter (fun p => p.owner != tid), reds := s.reds.filter (fun r => r.owner != tid) }
  let s2 := (s.posted.filter (fun p => p.owner == tid)).foldl (fun t p => performStore p t) s1
  let s3 := (s.reds.filter (fun r => r.owner == tid)).foldl (fun t r => performRed r t) s2
  let holds := fun (e : QueueEntry) => e.ops.any (fun r => r.owner == tid)
  (s3.wqueue.flatMap (fun q => q.2.filter holds)).foldl (fun t e => settleLines e.line 64 t) s3

end Sys2Proof.Machine
end

