-- ==== Sys2Proof/Machine/Translate.lean ====
section
/-!
DEFINITION. Page tables and translation (R265 to R271, R175).
-/

namespace Sys2Proof.Machine

open Sys2Proof

/-! ## Translation (R265 to R271) -/

/-- The access classes of R267, in the coding of the fault record (R272). -/
inductive Cls where
  | read | write | fetch | rw
  deriving DecidableEq, Repr

/-- CLASS of the fault record. -/
def Cls.code : Cls → Nat
  | .read => 0
  | .write => 1
  | .fetch => 2
  | .rw => 3

/-- Allowed of R267. -/
def Cls.allowed (c : Cls) (r w x : Bool) : Bool :=
  match c with
  | .read => r
  | .write => w
  | .fetch => x
  | .rw => r && w

/-- The end of a translation. -/
inductive Tr where
  | ok (pa : Nat)
  | prot
  | memerr
  | fault (reason level : Nat)
  deriving DecidableEq, Repr

/-- A walk ends in a TLB entry or as a translation does. -/
inductive Walk where
  | leaf (e : TlbEntry)
  | prot
  | memerr
  | fault (reason level : Nat)
  deriving DecidableEq, Repr

/-- The address lies in the 57-bit virtual space (R116). -/
def canonicalVa (va : Word) : Bool := (va.toNat / 2 ^ 56 == 0) || (va.toNat / 2 ^ 56 == 255)

/-- A number that may lie past the last address is an address of the virtual space. -/
def inSpace (va : Nat) : Bool := decide (va < 2 ^ 64) && canonicalVa (w64 va)

/-- The PA field of a page-table entry. -/
def pteAddr (e : Nat) : Nat := bits e 51 12 * 4096

/-- The first of the 16 entries of a table that would form a 64 KiB page with an address's own (R268). -/
def groupStart (t va : Nat) : Nat := t + 8 * (bits va 20 12 / 16 * 16)

/-- GroupCheck of R268: the first entry's PA and permissions when the 16 entries form a 64 KiB page. -/
def groupCheck (s : State) (t va : Nat) : Option Nat :=
  let es := (List.range 16).map (fun i => leNat (peek s (groupStart t va + 8 * i) 8))
  match es with
  | [] => none
  | e0 :: _ =>
    if pteAddr e0 % 65536 = 0 ∧
        (List.range 16).all (fun i =>
          let e := nth es i 0
          bit e 0 && bit e 1 && bit e 5 && bits e 4 2 == bits e0 4 2 && pteAddr e == pteAddr e0 + 4096 * i) = true
    then some e0 else none

/-- The walk of R267 from level k − 1 downward, at table t. -/
def walkAt (s : State) (part va : Nat) : Nat → Nat → Walk
  | 0, _ => .prot
  | k + 1, t =>
    let at8 := t + 8 * bits va (12 + 9 * k + 8) (12 + 9 * k)
    if readFails s at8 8 then .memerr else
    let e := leNat (peek s at8 8)
    if !bit e 0 then .fault 0 k else
    let leaf := bit e 1
    if bits e 63 52 != 0 || bits e 11 6 != 0 || (bit e 5 && k != 0) || (leaf && decide (k > 2)) || (!leaf && k == 0) then .prot else
    if leaf then
      let size := 2 ^ (12 + 9 * k)
      if !ownsPage s part (pteAddr e) size then .prot else
      if pteAddr e % size != 0 then .prot else
      if bit e 5 then
        if readFails s (groupStart t va) 128 then .memerr else
        match groupCheck s t va with
        | some e0 => .leaf ⟨part, va / 65536 * 65536, 65536, pteAddr e0, bit e0 2, bit e0 3, bit e0 4⟩
        | none => .fault 1 0
      else .leaf ⟨part, va / size * size, size, pteAddr e, bit e 2, bit e 3, bit e 4⟩
    else if !(ownsUnit s part (pteAddr e) && onDevice (pteAddr e)) then .prot
    else walkAt s part va k (pteAddr e)

/-- The level-4 table of a partition, or of management code (R265, R383). -/
def rootOf (s : State) (p : Nat) : Nat := if p = mgmtPart then s.io.mgmtRoot else (s.part p).ptroot.toNat

/-- The walk of an address that lies in the virtual space. -/
def walk (s : State) (part : Nat) (va : Nat) : Walk := walkAt s part va 5 (rootOf s part)

/-- The walk's reads of table entries are served after the pending reductions of their lines (R258). -/
def settleWalk (va : Nat) : Nat → Nat → State → State
  | 0, _, s => s
  | k + 1, t, s =>
    let at8 := t + 8 * bits va (12 + 9 * k + 8) (12 + 9 * k)
    let s1 := settleLines at8 8 s
    let e := leNat (peek s1 at8 8)
    if !bit e 0 then s1
    else if bit e 1 then (if bit e 5 then settleLines (groupStart t va) 128 s1 else s1)
    else settleWalk va k (pteAddr e) s1

/-- The region that holds an address, with its number (R175). -/
def regionAt (rs : Table Region) (va : Nat) : Option (Nat × Region) :=
  rs.find? (fun r => decide (r.2.base ≤ va) && decide (va < r.2.base + r.2.size))

/-- Uses a TLB entry for an access. -/
def useEntry (e : TlbEntry) (va : Nat) (c : Cls) : Tr :=
  if c.allowed e.r e.w e.x then .ok (e.pa + (va - e.va)) else .prot

/-- A translation with no versioned-region check.  A held translation may be used or walked anew (R269, R271); a completed
walk enters the TLB. -/
def translateRaw (s : State) (part : Nat) (va : Word) (c : Cls) : Tr × State :=
  if !canonicalVa va then (.prot, s) else
  let v := va.toNat % 2 ^ 57
  let held := s.tlb.filter (fun e => e.part == part && decide (e.va ≤ v) && decide (v < e.va + e.size))
  let (i, s1) := choose (held.length + 1) s
  match held[i]? with
  | some e =>
    (match useEntry e v c with
    | .ok pa => (.ok pa, touchHeap pa s1)
    | t => (t, s1))
  | none =>
    let s1 := settleWalk v 5 (rootOf s1 part) s1
    match walk s1 part v with
    | .leaf e =>
      match useEntry e v c with
      | .ok pa => (.ok pa, touchHeap pa (if s1.tlb.contains e then s1 else { s1 with tlb := e :: s1.tlb }))
      | t => (t, s1)
    | .prot => (.prot, s1)
    | .memerr => (.memerr, s1)
    | .fault r k => (.fault r k, s1)

/-- Bytes of an access lie in a declared region (R175). -/
def touchesRegion (rs : Table Region) (va n : Nat) : Bool :=
  rs.any (fun r => decide (r.2.base < va + n) && decide (va < r.2.base + r.2.size))

/-- The translation of an ordinary access of n bytes within a page: one that meets a declared region is refused (R175). -/
def translateSpan (s : State) (part : Nat) (va : Word) (n : Nat) (c : Cls) : Tr × State :=
  if canonicalVa va && touchesRegion (s.regionsOf part) va.toNat n then (.prot, s) else translateRaw s part va c

/-- The address at which an access of n bytes is refused: its first byte in a declared region (R175), else its first byte. -/
def protAt (s : State) (part : Nat) (va : Word) (n : Nat) : Word :=
  if !canonicalVa va then va else
  match (List.range n).find? (fun i => touchesRegion (s.regionsOf part) (va.toNat + i) 1) with
  | some i => va + w64 i
  | none => va

/-- The same for an access that crosses no 64-byte boundary, which no region cuts. -/
def translate (s : State) (part : Nat) (va : Word) (c : Cls) : Tr × State := translateSpan s part va 1 c

/-- A page counts as mapped (R175). -/
def mappedPage (s : State) (part : Nat) (va : Nat) : Bool :=
  match walk s part va with
  | .fault 0 _ => false
  | _ => true

end Sys2Proof.Machine
end

