-- ==== Sys2Proof/Machine/Ops.lean ====
section
/-!
DEFINITION. The shared operations of the control cores: the halting of a launch (R326), traps and their return (R118, R143), event records
(R150 to R152), blocking (R149), and the accesses of a core to memory (R116 to R138).
-/

namespace Sys2Proof.Machine

open Sys2Proof

/-! ## Faults of a launch that halts (R275) -/

/-- Writes RESP = 3 into a launch's pending fault records and forgets its faults; a fault of another launch that was attached to one
of them waits for a record again. -/
def cancelFaults (l : Nat) (s : State) : State :=
  let held := fun (f : PendingFault) => match f.slot with | some z => z / 64 == l | none => false
  let s1 := s.faults.foldl (fun t (f : PendingFault) =>
    match f.slot, Table.find l t.launches with
    | some z, some v => if z / 64 = l then devWrite (svcPa (v.die f.die) (32 * (z % 64) + 24)) (leBytes 8 3) t else t
    | _, _ => t) s
  let left := (s1.faults.filter (fun (f : PendingFault) => f.launch != l)).map (fun (f : PendingFault) =>
    if held f then { f with slot := none } else f)
  let s2 := { s1 with faults := left }
  s2.mapLaunch l (fun v => { v with dies := Table.mapVals (fun _ d => { d with slots := [] }) v.dies })

/-- Removes the parked waits of continuations (R278, R327). -/
def unpark (ids : List Nat) (s : State) : State :=
  { s with parked := s.parked.filter (fun p => match p.issuer with | .thread t => !ids.contains t | .oper _ _ => true) }

/-- Removes the parked waits of a launch's continuations. -/
def unparkThreads (l : Nat) (s : State) : State := unpark ((s.threadsOf l).map (·.id)) s

/-- Discards a launch's probes in flight, and the epochs of its continuations (R300, R327). -/
def dropProbes (l : Nat) (s : State) : State := { s with probes := s.probes.filter (fun p => p.launch != l) }

/-- Empties the cores that run continuations of a launch. -/
def freeCores (l : Nat) (s : State) : State :=
  { s with cores := Table.mapVals (fun _ c =>
      match c.running with
      | some t => if (s.threadsOf l).any (fun x => x.id == t) then { c with running := none } else c
      | none => c) s.cores }

/-- The runs of a launch that have not ended are asked to halt at their next burst boundary (R158, R212); one that still waits
under its SEGRUN goes with the abandoned instruction (R149). -/
def stopRuns (l : Nat) (s : State) : State :=
  { s with runs := Table.mapVals (fun _ r =>
      if r.launch = l ∧ r.status = .running then { r with status := .stopping } else r) s.runs }

/-- A thread's register, and its change. -/
def Thread.g (t : Thread) (r : Reg) : Word := if r = 0 then 0 else t.regs[r]
def Thread.setG (t : Thread) (r : Reg) (v : Word) : Thread := if r = 0 then t else { t with regs := t.regs.set r.val v }

/-- The end-of-pass check of R127, after an instruction of the continuation completes.  A pass that begins at START after an RFT to END is no execution
at the resume address, so its breakpoints are checked (R143, R145). -/
def Thread.loopEnd (t : Thread) : Thread :=
  let lp := t.loop
  if !lp.active then t else
  if t.pc = lp.stop then
    let t1 := t.setG lp.reg (t.g lp.reg - 1)
    if t1.g lp.reg = 0 then { t1 with loop := { lp with active := false } } else { t1 with pc := lp.start, noBreak := false }
  else if t.pc.toNat < lp.start.toNat ∨ lp.stop.toNat < t.pc.toNat then { t with loop := { lp with active := false } }
  else t

/-- A blocked instruction whose effect is made, but which has not gone on, is complete (R149): a version that exists, a barrier that was
released, a run that has started, a signal that is stored; else none. -/
def Thread.completed (s : State) (t : Thread) : Option Thread :=
  let done := fun (u : Thread) => { u with pc := u.pc + 4 }.loopEnd
  match t.status with
  | .blocked .vstDone => some (done t)
  | .blocked (.bar _ pa gen) => if leNat (peek s (pa + 4) 4) != gen.toNat then some (done t) else none
  | .blocked (.segrun d run) =>
    (match Table.find run s.runs with
    | some r => if r.ticket != 0 then some (done (t.setG d (w64 r.ticket))) else none
    | none => none)
  | .blocked (.flsig d job) =>
    (match s.flushes.find? (fun j => j.id == job && j.done) with
    | some j => some (done (t.setG d (if j.failed then w64 cMEMERR else 0)))
    | none => none)
  | _ => none

/-- What a blocked instruction did before it blocked is undone when it is abandoned (R149): an arrival at a phase or a barrier, a run
that waits, a flush that the continuation waits for. -/
def undoWait (t : Thread) (s : State) : State :=
  match t.completed s with
  | some _ => s
  | none =>
  match t.status with
  | .blocked (.phase _ _) => s.putThread { t with arrived := false }
  | .blocked (.bar _ pa gen) =>
    let word := leNat (peek s pa 8)
    if word / 2 ^ 32 = gen.toNat ∧ 0 < word % 2 ^ 32 then poke (match t.launch with | some l => l + 1 | none => 0) (t.id + 1) pa (leBytes 8 (word - 1)) s
    else s
  | .blocked (.segrun _ run) =>
    { s with runs := s.runs.filter (fun r => !(r.1 == run && r.2.status == .waiting)) }
  | .blocked (.flsig _ job) => { s with flushes := s.flushes.filter (fun j => j.id != job) }
  | _ => s

/-- Undoes the blocked instructions of a launch. -/
def undoWaits (l : Nat) (s : State) : State := (s.threadsOf l).foldl (fun u t => undoWait t u) s

/-- The posted stores and reductions of a launch's continuations reach their homes. -/
def settleLaunch (l : Nat) (s : State) : State := (s.threadsOf l).foldl (fun u t => settleAll t.id u) s

/-- A continuation stops at an instruction boundary: a blocked instruction whose effect is made is complete, another is abandoned (R149,
R327). -/
def Thread.preempted (s : State) (t : Thread) : Thread :=
  match t.status with
  | .running _ => { t with status := .stopped, inst := 0 }
  | .blocked _ =>
    (match t.completed s with
    | some u => { u with status := .stopped, inst := 0 }
    | none => { t with status := .stopped, noBreak := false })
  | _ => t

/-- Halts a launch as PREEMPT does (R327): continuations stop at an instruction boundary, blocked instructions are abandoned,
runs halt at their next burst boundary, copies stop between chunks, and fault records are cancelled. -/
def preemptHalt (l : Nat) (s : State) : State :=
  let s0 := freeCores l (unparkThreads l (dropProbes l (cancelFaults l (undoWaits l (settleLaunch l s)))))
  let stop := fun (t : Thread) => if t.launch = some l then t.preempted s0 else t
  let s1 := { s0 with th := stop s0.th, threads := Table.mapVals (fun _ t => stop t) s0.threads }
  let s2 := stopRuns l s1
  { s2 with
    copies := s2.copies.map (fun c => if c.launch = l then { c with frozen := true } else c)
    flushes := s2.flushes.filter (fun j => !(j.launch == some l && j.wait && j.done)) }

/-- Runs kept halted are asked to end (R326). -/
def endHalted (l : Nat) (s : State) : State :=
  { s with runs := Table.mapVals (fun _ r => if r.launch = l ∧ r.status = .halted then { r with status := .stopping } else r) s.runs }

/-- The bytes of completed chunks that a copy holds back for a whole unit are written (R165, R287). -/
def flushTail (c : CopyJob) (s : State) : State :=
  match c.tail with
  | none => s
  | some (pa, bs) =>
    match pokeOk (c.launch + 1) (copyOwner c.id + 1) pa bs (touchHeap pa (settleLines pa bs.length s)) with
    | some s1 => s1
    | none => s

/-- Ends a launch's work (R326 without TRAPHOLD): every continuation ends, its posted accesses are performed, runs stop as under SEGSTOP,
copies stop at a chunk boundary and their records are discarded. -/
def abandonLaunch (l : Nat) (s : State) : State :=
  let s0 := endHalted l (stopRuns l (freeCores l (unparkThreads l (dropProbes l (cancelFaults l (undoWaits l (settleLaunch l s)))))))
  let mine := fun (t : Thread) => t.launch == some l
  let ended := fun (c : CopyJob) => c.launch == l && c.placement.isNone
  let s1 := (s0.copies.filter ended).foldl (fun u c => flushTail c u) s0
  { s1 with
    th := if mine s1.th then { s1.th with status := .exited } else s1.th
    threads := s1.threads.filter (fun p => !mine p.2)
    copies := s1.copies.filter (fun c => !ended c)
    segLoads := s1.segLoads.filter (fun c => c.launch != l)
    flushes := s1.flushes.filter (fun j => j.launch != some l) }

/-- Halts a launch with a status: held as under PREEMPT, or ended (R326, R370, R392, R394).  A launch that PREEMPT halts and that then meets
a trap to be held for is held; one that is held stays as it is, and so does one that is ending. -/
def haltLaunchAs (l cause : Nat) (hold : Bool) (s : State) : State :=
  match Table.find l s.launches with
  | none => s
  | some v =>
    let stopped := v.status == .halting || v.status == .halted || v.status == .saving
    if v.status == .saved || (stopped && v.result != 0 && (hold || !v.held)) then s
    else if stopped && hold then s.setLaunch l { v with result := cause, held := true, heldOwed := true }
    else
      let s1 := if hold then preemptHalt l s else abandonLaunch l s
      s1.mapLaunch l (fun v => { v with status := .halting, result := cause, held := hold, heldOwed := hold, frozenT := if hold then v.frozenT else none })

/-- HaltLaunch of R118 for a launch's continuation: the record of AGENT 28 on the core's die, then the halt of R326. -/
def haltByTrap (l : Nat) (cause : Nat) (val : Word) (s : State) : State :=
  match Table.find l s.launches with
  | none => s
  | some v =>
    let t := s.th
    let rec_ := [w64 (cause * 2 ^ 56 + threadUnit t), 0, val, w64 s.time, t.pc, t.trapPc, t.trapCause, t.trapVal]
    haltLaunchAs l cause v.trapHold (writeTrapRecord l t.die rec_ s)

/-- A management core whose trap has no handler stops (log 12). -/
def stopManagement (s : State) : State :=
  let s1 := { s with th := { s.th with status := .stopped } }
  s1.setRunning s.core none

/-! ## Traps (R118) and the return from them (R143) -/

/-- Takes a trap of a cause, with the address at which RFT resumes and the expansion step (R118). -/
def trapEntry (cause : Nat) (val : Word) (resume : Word) (expStep : Nat) (s : State) : State :=
  if s.th.inTrap ∨ s.th.trapVec = 0 then
    match s.th.launch with
    | some l => haltByTrap l cause val s
    | none => stopManagement s
  else
    { s with th := { s.th with
        trapPc := resume
        trapCause := w64 cause
        trapVal := val
        expStep := w64 expStep
        inTrap := true
        heldLoop := s.th.loop
        loop := { s.th.loop with active := false }
        noBreak := false
        pc := s.th.trapVec } }

/-- Takes a trap; MEMERR on the slot of a replica location makes the location fail (R356). -/
def trapAt (cause : Nat) (val : Word) (resume : Word) (expStep : Nat) (s : State) : State :=
  trapEntry cause val resume expStep (if cause = cMEMERR then noteMemerr s.partNow val s else s)

/-- Takes a trap whose RFT resumes at the trapping instruction. -/
def trap (cause : Nat) (val : Word) (s : State) : State := trapAt cause val s.th.pc 0 s

/-- Word 0 of the instruction as a trap value. -/
def State.word0 (s : State) : Word := s.ir.setWidth 64

/-- The ILLOP trap with word 0. -/
def illop (s : State) : State := trap cILLOP s.word0 s

/-- RFT of R143. -/
def returnFromTrap (s : State) : State :=
  if s.th.inTrap = false then illop s
  else if s.th.trapPc.toNat % 4 ≠ 0 then
    match s.th.launch with
    | some l => haltByTrap l cALIGN s.th.trapPc s
    | none => stopManagement s
  else
    { s with th := { s.th with inTrap := false, loop := s.th.heldLoop, pc := s.th.trapPc, noBreak := true } }

/-- The end-of-pass check of R127, after an instruction completes. -/
def loopEnd (s : State) : State := { s with th := s.th.loopEnd }

/-! ## Queues and blocking (R149, R219, R221) -/

/-- Puts a continuation at the tail of its priority queue (R221); a management core goes on at once. -/
def enqueue (t : Thread) (s : State) : State :=
  match t.launch with
  | none => (s.putThread { t with status := .running (64 + t.serial) }).setRunning (64 + t.serial) (some t.id)
  | some l =>
    let s1 := s.putThread { t with status := .queued }
    s1.mapDie l t.die (fun d => if t.prio then { d with high := d.high ++ [t.id] } else { d with low := d.low ++ [t.id] })

/-- Blocks the executing continuation; its core may run others. -/
def blockOn (w : Wait) (s : State) : State :=
  let s1 := { s with th := { s.th with status := .blocked w, home := some s.core, inst := s.ir } }
  s1.setRunning s.core none

/-! ## Event records (R150 to R152) -/

/-- What stands at a key of `ctxs` belongs to a launch that is saved: it is out of the core (R328). -/
def ctxSaved (s : State) (key : Nat) : Bool :=
  match Table.find (key / 128 - 1) s.launches with
  | some v => decide (128 ≤ key) && v.status == .saved
  | none => false

/-- Records and reservations in a core's event queue, over every launch that shares the core. -/
def eventCount (s : State) (c : Nat) : Nat :=
  s.ctxs.foldl (fun n p => if p.1 % 128 = c && !ctxSaved s p.1 then n + p.2.events.length + p.2.reserved.length else n) 0

/-- Records present on a core (KEVQ, R151). -/
def eventsPresent (s : State) (c : Nat) : Nat :=
  s.ctxs.foldl (fun n p => if p.1 % 128 = c && !ctxSaved s p.1 then n + p.2.events.length else n) 0

/-- Reserves an entry for the executing continuation; none where the queue has no free entry. -/
def reserve (s : State) : Option State :=
  if eventCount s s.core < 256 then
    let c := s.ctx
    some (s.putCtx { c with reserved := c.reserved ++ [s.th.id] })
  else none

/-- Takes the next ticket of the executing core. -/
def takeTicket (s : State) : BitVec 16 × State :=
  let c := s.ctx
  (c.ticket, s.putCtx { c with ticket := c.ticket + 1 })

/-- The launch of a continuation that has not exited. -/
def launchOfThread (s : State) (owner : Nat) : Option (Option Nat) := (s.thread? owner).map (·.launch)

/-- Delivers the record of a record-producing instruction to its core's queue; the record of a continuation that has exited
is discarded (R151).  `view` is what the record certifies as visible (R284). -/
def deliverWith (core owner kind id status : Nat) (tag : BitVec 32) (arg1 arg2 : Word) (view : View) (s : State) : State :=
  match launchOfThread s owner with
  | none => s
  | some l =>
    let c := s.ctxAt l core
    let r : EvRecord := ⟨owner, BitVec.ofNat 8 kind, BitVec.ofNat 8 status, BitVec.ofNat 16 id, c.seq, tag.setWidth 64, arg1, arg2, view⟩
    s.setCtx l core { c with events := c.events ++ [r], reserved := c.reserved.erase owner, seq := c.seq + 1 }

/-- Delivers a record that certifies no visibility. -/
def deliver (core owner kind id status : Nat) (tag : BitVec 32) (arg1 arg2 : Word) (s : State) : State :=
  deliverWith core owner kind id status tag arg1 arg2 View.zero s

/-- The header of a record (R154). -/
def EvRecord.header (r : EvRecord) : Word :=
  w64 (r.seq.toNat * 2 ^ 32 + r.status.toNat * 2 ^ 24 + r.kind.toNat * 2 ^ 16 + r.id.toNat)

/-- The core that holds a reservation or an unpopped record of a continuation (R151). -/
def homeCore (s : State) (t : Thread) : Option Nat :=
  (s.ctxs.find? (fun p => decide (p.1 / 128 = ctxKey t.launch 0 / 128) &&
    (p.2.events.any (fun e => e.owner == t.id) || p.2.reserved.contains t.id))).map (fun p => p.1 % 128)

/-! ## Phase-consistent reads (R286, R287) -/

/-- What the reads of a continuation are ordered after (R286 to R294). -/
def Thread.sight (t : Thread) : View := t.view.join t.floor

/-- The contents of a unit that a read by the executing continuation takes, with what they bring. -/
def readUnit (u : Nat) (s : State) : (List Byte × View) × State :=
  let cands := unitChoices s s.th.sight (s.th.id + 1) s.th.fixed u
  let (i, s1) := choose cands.length s
  (nth cands i ([], View.zero), s1)

/-- The contents of several units. -/
def readUnits : List Nat → State → List (Nat × List Byte × View) × State
  | [], s => ([], s)
  | u :: t, s =>
    let (v, s1) := readUnit u s
    let (vs, s2) := readUnits t s1
    ((u, v) :: vs, s2)

/-- The executing continuation's own latest posted byte at an address. -/
def ownPosted (s : State) (a : Nat) : Option Byte :=
  match (s.posted.filter (fun p => p.owner == s.th.id && decide (p.pa ≤ a) && decide (a < p.pa + p.data.length))).getLast? with
  | some p => p.data[a - p.pa]?
  | none => none

/-- The executing continuation comes to be ordered after more (R166, R294): what it has fixed of newly written bytes is fixed no longer. -/
def orderAfter (v : View) (s : State) : State :=
  if v = View.zero then s else
  let new := s.th.view.join v
  { s with th := { s.th with view := new, fixed := keepFixed s s.th.sight (new.join s.th.floor) s.th.fixed } }

/-- An ordinary read by the executing continuation of n bytes of HBM or die shared memory: its own posted bytes, else the
values its phase has fixed, else the unit's contents at one instant, which are then fixed (R131, R286, R287).  Management
code, which runs in no phase, reads what memory holds. -/
def readOrdinary (pa n : Nat) (s : State) : List Byte × State :=
  match s.th.launch with
  | none => ((List.range n).map (fun i => (ownPosted s (pa + i)).getD (s.mem.read (pa + i))), s)
  | some _ =>
    let (us, s1) := readUnits (words8 pa n) s
    let fromUnit := fun a => nth (Table.getD us (a / 8) ([], View.zero)).1 (a % 8) 0
    let got := (List.range n).map (fun i =>
      let a := pa + i
      match ownPosted s a with
      | some b => (b, false)
      | none =>
        match Table.find a s.th.fixed with
        | some b => (b, true)
        | none => (fromUnit a, true))
    let s2 := orderAfter (us.foldl (fun v u => v.join u.2.2) View.zero) s1
    let fixed := (List.range n).foldl (fun f i =>
      match got[i]? with
      | some (b, true) => Table.set (pa + i) b f
      | _ => f) s2.th.fixed
    (got.map (·.1), { s2 with th := { s2.th with fixed := fixed } })

/-- A read of the current contents observes what they bring (R166). -/
def observe (pa n : Nat) (s : State) : State :=
  orderAfter ((words8 pa n).foldl (fun v u => v.join (lastBrings s u)) View.zero) s

/-- The bytes are no longer fixed for the executing continuation, which wrote them (R286). -/
def unfix (pa n : Nat) (s : State) : State :=
  { s with th := { s.th with fixed := s.th.fixed.filter (fun f => !(decide (pa ≤ f.1) && decide (f.1 < pa + n))) } }

/-! ## Accesses of a core (R116, R117, R130) -/

/-- A value and the state after it, or the state of an instruction that ended in a trap or blocked. -/
inductive Got (α : Type) where
  | ok (v : α) (s : State)
  | stop (s : State)

/-- Goes on with the value, or ends the instruction. -/
def Got.andThen {α : Type} (x : Got α) (f : α → State → Out) : Out :=
  match x with
  | .ok v s => f v s
  | .stop s => .next s

/-- Goes on with the value to another. -/
def Got.bind {α β : Type} (x : Got α) (f : α → State → Got β) : Got β :=
  match x with
  | .ok v s => f v s
  | .stop s => .stop s

/-- The agent fields of a fault record for the executing core, with its ring (R272), as bits 31:15 of its second word. -/
def coreAgent (s : State) : Nat := s.th.die * 2 ^ 29 + coreRing s.core % 4 * 2 ^ 27 + 28 * 2 ^ 18 + s.core % 8 * 2 ^ 15

/-- A replayable fault of the executing continuation: declined at once on a management core and in mode 0, else the
continuation blocks on the fault service (R119, R272, R273, R383). -/
def pageFault (va : Word) (c : Cls) (reason level ex : Nat) (s : State) : State :=
  match s.launch?, s.th.launch with
  | some v, some l =>
    if v.fmode = 0 then trapAt cPGFAULT va s.th.pc ex s else
    blockOn (.again 0 ex) { s with faults := s.faults ++
      [⟨l, s.th.die, .thread s.th.id, va.toNat, reason, level, c.code, coreAgent s, none⟩] }
  | _, _ => trapAt cPGFAULT va s.th.pc ex s

/-- Translates an access of n bytes within a page by the executing core, trapping or blocking as R116 to R119 give; `ex` is the
expansion step. -/
def translateSpanAt (va : Word) (n : Nat) (c : Cls) (ex : Nat) (s : State) : Got Nat :=
  match translateSpan s s.partNow va n c with
  | (.ok pa, s1) => .ok pa s1
  | (.prot, s1) => .stop (trapAt cPROT (protAt s s.partNow va n) s1.th.pc ex s1)
  | (.memerr, s1) => .stop (trapAt cMEMERR va s1.th.pc ex s1)
  | (.fault r k, s1) => .stop (pageFault va c r k ex s1)

/-- The same for an access that crosses no 64-byte boundary. -/
def translateAt (va : Word) (c : Cls) (ex : Nat) (s : State) : Got Nat := translateSpanAt va 1 c ex s

/-- The signal store of an earlier FLSIG of the executing continuation to some of the bytes is still to be performed (R168). -/
def signalOn (s : State) (pa n : Nat) : Bool := s.flushes.any (fun j => j.owner == s.th.id && !j.done && overlap j.pa 8 pa n)

/-- An access to bytes that a signal store of the continuation still has to write waits for it, so that its accesses to them keep program
order (R131). -/
def behindSignal (pa n : Nat) (s : State) : Got Nat := if signalOn s pa n then .stop (blockOn (.again 5 0) s) else .ok pa s

/-- Access of R117: alignment, then range, translation and permission. -/
def accessAt (va : Word) (n : Nat) (c : Cls) (ex : Nat) (s : State) : Got Nat :=
  if va.toNat % n ≠ 0 then .stop (trapAt cALIGN va s.th.pc ex s)
  else (translateAt va c ex s).bind (fun pa s1 => behindSignal pa n s1)

/-- Access of R117 for an instruction that is no expansion. -/
def access (va : Word) (n : Nat) (c : Cls) (s : State) : Got Nat := accessAt va n c 0 s

/-- The bytes that host memory returns for the n-th draw (R368; log 17). -/
def hostBytes (k a n : Nat) : List Byte := (List.range n).map (fun i => Config.hostByte k (a + i))

/-- Reads n bytes at a translated address; `va` is what a trap reports. -/
def loadPaAt (pa n : Nat) (va : Word) (ex : Nat) (s : State) : Got (List Byte) :=
  match locOf pa with
  | .host a =>
    let (k, s1) := draw (sendTlp (.read s.partNow a n) s)
    if Config.hostError k then .stop (trapAt cMEMERR va s1.th.pc ex s1) else
    let fixedOrNew := (List.range n).map (fun i =>
      match ownPosted s (pa + i) with
      | some b => b
      | none => (Table.find (pa + i) s.th.fixed).getD (Config.hostByte k (a + i)))
    let s2 := if s1.th.launch.isSome then
        { s1 with th := { s1.th with fixed := (List.range n).foldl (fun f i => Table.set (pa + i) (nth fixedOrNew i 0) f) s1.th.fixed } }
      else s1
    .ok fixedOrNew s2
  | .umeno _ _ => .stop (trapAt cPROT va s.th.pc ex s)
  | .reserved => .stop (trapAt cPROT va s.th.pc ex s)
  | _ =>
    let s1 := settleLines pa n s
    if readFails s1 pa n then .stop (trapAt cMEMERR va s1.th.pc ex s1) else
    let (bs, s2) := readOrdinary pa n s1
    .ok bs s2

/-- An ordinary load of n bytes at a virtual address aligned to `al`. -/
def loadAl (va : Word) (n al : Nat) (s : State) : Got (List Byte) :=
  (access va al .read s).bind (fun pa s1 => loadPaAt pa n va 0 s1)

/-- An ordinary load of n bytes, aligned to n. -/
def load (va : Word) (n : Nat) (s : State) : Got (List Byte) := loadAl va n n s

/-- The launch number plus one of the executing continuation, 0 for management code. -/
def State.launchMark (s : State) : Nat := match s.th.launch with | some l => l + 1 | none => 0

/-- The valid window entry and its open stream for an address of the Umeno window (R376): stream and remote address. -/
def windowTarget (s : State) (part entry off : Nat) : Option (Nat × Nat) :=
  if part = mgmtPart then none else
  let w := (Table.getD (s.part part).windows entry 0).toNat
  let st := bits w 62 57
  let opened := match Table.find st (s.part part).streams with | some x => x.state == 1 | none => false
  if bit w 63 && opened then some (st, (sext 57 (bits w 56 40 * 2 ^ 40 + off)).toNat) else none

/-- Sends a window write on its stream, a flit with the next SEQ for each part of it that a flit has room for; what a stream that fails meanwhile
does not send is lost (R377, R379).  `job` is its number among the engine jobs. -/
def windowSendAs (job owner mark part stream remote : Nat) (va : Word) (data : List Byte) (red : Option Nat) (rel : Bool) (s : State) : State :=
  (flitPieces data).foldl (fun t b =>
    match Table.find stream (t.part part).streams with
    | none => t
    | some x =>
      let t1 := if x.state ≠ 1 then t else
        sendFlit part stream (if red.isSome then 1 else 0) ⟨0, BitVec.ofNat 8 (red.getD (ofBool rel)), w64 (remote + b.1), b.2⟩ t
      { t1 with outbound := t1.outbound ++ [⟨owner, mark, part, stream, x.txseq, va.toNat + b.1, remote + b.1, b.2, red, rel, x.state != 1, job⟩] }) s

/-- The same, issued after every engine job so far (R168). -/
def windowSend (owner mark part stream remote : Nat) (va : Word) (data : List Byte) (red : Option Nat) (rel : Bool) (s : State) : State :=
  windowSendAs s.nextJob owner mark part stream remote va data red rel s

/-- The address lies in a window of the Umeno port that is not valid and open, or outside the physical map (R260, R376). -/
def windowClosed (s : State) (pa : Nat) : Bool :=
  match locOf pa with
  | .umeno e off => (windowTarget s s.partNow e off).isNone
  | .reserved => true
  | _ => false

/-- Stores bytes at a translated address as a store of the executing continuation, with its release code (R130 to R132, R293,
R368, R376). -/
def storePaAt (pa : Nat) (data : List Byte) (rel : Nat) (va : Word) (ex : Nat) (s : State) : Got Unit :=
  let n := data.length
  match locOf pa with
  | .reserved => .stop (trapAt cPROT va s.th.pc ex s)
  | .umeno e off =>
    match windowTarget s s.partNow e off with
    | some (st, remote) => .ok () (windowSend s.th.id s.launchMark s.partNow st remote va data none (rel != 0) s)
    | none => .stop (trapAt cPROT va s.th.pc ex s)
  | .host _ =>
    if s.mgmt then .ok () (addRelease pa data s.launchMark rel (viewOf s s.th.id) (toHost s.launchMark (s.th.id + 1) s.partNow pa data s))
    else .ok () { (unfix pa n s) with posted := s.posted ++ [⟨s.th.id, pa, va, data, rel, s.nextJob⟩] }
  | _ =>
    if homeDie pa ≠ coreDie s.core then
      let s1 := settleReds s.th.id pa n s
      .ok () { (unfix pa n s1) with posted := s1.posted ++ [⟨s.th.id, pa, va, data, rel, s.nextJob⟩] }
    else
      let s1 := settleOwn s.th.id pa n s
      match pokeOk s1.launchMark (s1.th.id + 1) pa data s1 with
      | some s2 => .ok () (unfix pa n (addRelease pa data s1.launchMark rel (viewOf s1 s1.th.id) s2))
      | none => .stop (trapAt cMEMERR va s1.th.pc ex s1)

/-- An ordinary store of bytes at a virtual address aligned to `al`. -/
def storeAl (va : Word) (data : List Byte) (al : Nat) (s : State) : Got Unit :=
  (access va al .write s).bind (fun pa s1 => storePaAt pa data 0 va 0 s1)

/-- An ordinary store of an aligned value of n bytes. -/
def store (va : Word) (n : Nat) (v : Word) (s : State) : Got Unit := storeAl va (leBytes n v.toNat) n s

/-- Reads a block of n bytes, 8-aligned at least, page by page: the bytes of an object that may cross pages. -/
def loadPages : Nat → Word → Nat → State → Got (List Byte)
  | 0, _, _, s => .ok [] s
  | k + 1, va, n, s =>
    if n = 0 then .ok [] s else
    let m := min n (4096 - va.toNat % 4096)
    ((translateSpanAt va m .read 0 s).bind (fun pa s1 => behindSignal pa m s1)).bind (fun pa s1 =>
      (loadPaAt pa m va 0 s1).bind (fun bs s2 =>
        (loadPages k (va + BitVec.ofNat 64 m) (n - m) s2).bind (fun rest s3 => .ok (bs ++ rest) s3)))

/-! ## What a fence waits for (R132, R138, R139, R140, R379) -/

/-- The continuation has a posted store under way; with `die`, only to that home. -/
def storesPending (s : State) (tid : Nat) (die : Option Nat) : Bool :=
  s.posted.any (fun p => p.owner == tid && (match die with | some d => homeDie p.pa == d | none => true))

/-- The continuation has a posted reduction under way; with `die`, only to that home. -/
def redsPending (s : State) (tid : Nat) (die : Option Nat) : Bool :=
  let at_ := fun (r : PostedRed) => r.owner == tid && (match die with | some d => homeDie r.pa == d | none => true)
  s.reds.any at_ || s.wqueue.any (fun q => q.2.any (fun e => e.ops.any at_))

/-- The continuation has a window write not yet acknowledged. -/
def windowPending (s : State) (tid : Nat) : Bool := s.outbound.any (fun w => w.owner == tid && !w.failed)

/-- A FLSIG of the continuation has its signal store still to perform (R168). -/
def signalsPending (s : State) (tid : Nat) : Bool := s.flushes.any (fun j => j.owner == tid && !j.done)

/-- Bytes that a copy moves. -/
def CopyJob.total (c : CopyJob) : Nat := c.len * c.rows

/-- A copy has window writes not yet acknowledged (R166, R379). -/
def copySends (s : State) (id : Nat) : Bool := s.outbound.any (fun w => w.owner == copyOwner id && !w.failed)

/-- A copy of the continuation has bytes still to write. -/
def copiesPending (s : State) (tid : Nat) : Bool :=
  s.copies.any (fun c => c.owner == tid && c.finished.isNone && c.placement.isNone && (decide (c.done < c.total) || copySends s c.id))

/-- The address of a window write of the continuation that failed (R379). -/
def windowFailed (s : State) (tid : Nat) : Option Word :=
  (s.outbound.find? (fun w => w.owner == tid && w.failed)).map (fun w => w64 w.va)

/-- Takes the deferred report of a posted store, reduction or window write (R138, R379), as the flags ask: the trap MEMERR
with its address, or nothing.  One is reported at a time, the earliest reduction first, then the earliest store, then the window writes
(DESIGN CHOICE, log 36); the instruction executed again reports the next. -/
def takeDeferred (st red win : Bool) (s : State) : Option State :=
  match (if red then s.th.redErr else []), (if st then s.th.stErr else []),
      (if win then s.outbound.find? (fun w => w.owner == s.th.id && w.failed) else none) with
  | e :: rest, _, _ => some (trap cMEMERR (w64 e.1) { s with th := { s.th with redErr := rest } })
  | [], e :: rest, _ => some (trap cMEMERR (w64 e.1) { s with th := { s.th with stErr := rest } })
  | [], [], some w => some (trap cMEMERR (w64 w.va) { s with outbound := s.outbound.erase w })
  | [], [], none => none

/-- Whether earlier accesses of the executing continuation are under way: stores, with the signal stores of its FLSIGs, reductions, copies,
window writes. -/
def underWay (stores reds copies window : Bool) (s : State) : Bool :=
  (stores && (storesPending s s.th.id none || signalsPending s s.th.id)) || (reds && redsPending s s.th.id none) || (copies && copiesPending s s.th.id)
    || (window && windowPending s s.th.id)

end Sys2Proof.Machine
end

