-- ==== Sys2Proof/Machine/Operands.lean ====
section
/-!
DEFINITION. Operand forms: immediates, addresses and the checks of R36 shared by the control-core instructions; operands,
lanes, tags and destinations of the element instructions (R17 to R23, R44 to R46).
-/

namespace Sys2Proof.Machine

open Sys2Proof

/-! ## Control cores -/

/-- A sign-extended immediate. -/
def sx {n : Nat} (v : BitVec n) : Word := v.signExtend 64

/-- A zero-extended immediate. -/
def zx {n : Nat} (v : BitVec n) : Word := v.setWidth 64

/-- 4 times a sign-extended word offset. -/
def sx4 {n : Nat} (v : BitVec n) : Word := sx v * 4

/-- Bytes of an FM or AMO SIZE code (R30, R34). -/
def sizeOf2 (size : BitVec 2) : Nat := 2 ^ size.toNat

/-- The address of an FM form (R130). -/
def fmAddr (s : State) (a : Reg) (off : BitVec 11) : Word := s.g a + sx off

/-- The low n bytes of a word as a number. -/
def lowBytes (n : Nat) (v : Word) : Nat := v.toNat % 2 ^ (8 * n)

/-- An accepted feature bit of the executing core; management code is gated by none (R383, R399, R400). -/
def featureOn (s : State) (b : Nat) : Bool :=
  s.mgmt || (nth (s.part s.partNow).accept (b / 64) 0).getLsbD (b % 64)

/-- Order 3 of R36 for MAJ 0x2C: PRIV on a core that is not privileged. -/
def privileged (s : State) (k : Out) : Out := if s.mgmt then k else .next (trap cPRIV s.word0 s)

/-- Order 4 of R36: FEATOFF where the gating feature was not accepted. -/
def gated (b : Nat) (s : State) (k : Out) : Out := if featureOn s b then k else .next (trap cFEATOFF s.word0 s)

/-- The instructions that act for a launch trap ILLOP on a management core (R383). -/
def launchOnly (s : State) (k : Out) : Out := if s.mgmt then .next (illop s) else k

/-! ## Elements (R17, R20 to R22, R45, R46) -/

/-- Splat(v): v[w−1:0] replicated across 64 bits (R17). -/
def splat (w v : Nat) : Word := w64 ((List.range (64 / w)).foldl (fun r i => r + v % 2 ^ w * 2 ^ (w * i)) 0)

/-- Operands A, B and C of an instance (R17, R22): `a` and `b` are the values of ports 0 and 1. -/
def elemOperands (c : OpClass) (width : Nat) (w : EWord) (a b : Word) : Word × Word × Word :=
  let (x, y, z) :=
    if w.arity = 2 then (a, b, w.imm)
    else if !w.immb then (a, 0, w.imm)
    else if c = .abc then (a, splat width (bits w.imm.toNat 31 0), splat width (bits w.imm.toNat 63 32))
    else (a, w.imm, 0)
  if w.swap then (y, x, z) else (x, y, z)

/-- Lane i of a value (R19, R46). -/
def laneOf (w i : Nat) (v : Word) : Nat := v.toNat / 2 ^ (w * i) % 2 ^ w

/-- A value from its lanes, lane 0 first; lanes not given are zero. -/
def joinLanes (w : Nat) : List Nat → Nat
  | [] => 0
  | l :: t => l % 2 ^ w + 2 ^ w * joinLanes w t

/-- A lane type code is signed (R19). -/
def signedCode (code : Nat) : Bool := decide (code < 4)

/-- Val(x, i) of R46 for an integer type code. -/
def laneVal (code i : Nat) (v : Word) : Int :=
  let w := laneWidth code
  if signedCode code then signed w (laneOf w i v) else (laneOf w i v : Int)

/-- The bounds of an integer type (R229). -/
def intMin (code : Nat) : Int := if signedCode code then -(2 ^ (laneWidth code - 1) : Nat) else 0
def intMax (code : Nat) : Int :=
  if signedCode code then (2 ^ (laneWidth code - 1) : Nat) - 1 else (2 ^ laneWidth code : Nat) - 1

/-- The tag operation of R20 on a result token. -/
def tagOp (topc : BitVec 4) (targ : BitVec 11) (t : Token) : Token :=
  match topc.toNat with
  | 1 => { t with iter := t.iter + targ.setWidth 10 }
  | 2 => { t with iter := targ.setWidth 10 }
  | 3 => { t with frame := targ }
  | 4 => { t with frame := t.frame + targ }
  | _ => t

end Sys2Proof.Machine
end

