-- ==== Sys2Proof/Machine/Flags.lean ====
section
/-!
DEFINITION. The element status record (R47, R245) and the flags that integer operations set (R46).
-/

namespace Sys2Proof.Machine

open Sys2Proof

/-- Sat(v) of R46 for a type, with SAT where it changes v. -/
def satInt (code : Nat) (v : Int) : Int × Nat :=
  if v < intMin code then (intMin code, fSAT) else if intMax code < v then (intMax code, fSAT) else (v, 0)

/-- Sets sticky flags. -/
def Status.raise (st : Status) (fl : Nat) : Status := { st with flags := st.flags ||| BitVec.ofNat 10 fl }

/-- Counts an issue of n instances. -/
def Status.count (st : Status) (n : Nat) : Status :=
  { st with gissue := st.gissue + 1, ginst := st.ginst + BitVec.ofNat 48 n }

/-- Flags ORed and counters added into a virtual stripe's record at an eviction. -/
def Status.merge (a b : Status) : Status := ⟨a.flags ||| b.flags, a.gissue + b.gissue, a.ginst + b.ginst⟩

/-- The 24 bytes of a record. -/
def Status.bytes (st : Status) : List Byte :=
  leBytes 8 st.flags.toNat ++ leBytes 8 st.gissue.toNat ++ leBytes 8 st.ginst.toNat

end Sys2Proof.Machine
end

