-- ==== Sys2Proof/WellFormed.lean ====
section
/-!
DEFINITION. Well-formed instructions: the terms of `Instr` that are encodings the spec defines, or steps that can be named.
A control-core term is well formed when no field of its word is undefined or reserved (R30 to R35); an element term when it
passes the load checks of its word (R17 to R25, R78 to R91, R97).
-/

namespace Sys2Proof

/-- The sizes an AMO or RED of an integer operation accepts (R34). -/
def wordSize (size : BitVec 2) : Bool := size == 2 || size == 3

/-- A scope code that is defined (R35). -/
def scopeDefined (scope : BitVec 3) : Bool := decide (scope.toNat ≤ 5)

/-- Well-formedness of a term of Instr. -/
def Instr.wf : Instr → Bool
  | .ldn _ _ size _ => size != 3
  | .lda _ _ scope _ _ | .stl _ _ scope _ _ => scopeDefined scope
  | .ldm d _ n _ | .stm d _ n _ => decide (d.val + n.toNat ≤ 31)
  | .amoadd _ _ _ size scope | .amomin _ _ _ size scope | .amominn _ _ _ size scope | .amomax _ _ _ size scope
  | .amomaxn _ _ _ size scope | .amoand _ _ _ size scope | .amoor _ _ _ size scope | .amoxor _ _ _ size scope
  | .amoswp _ _ _ size scope | .amocas _ _ _ size scope => wordSize size && scopeDefined scope
  | .amofaddF32 _ _ _ scope | .amofaddBf16 _ _ _ scope => scopeDefined scope
  | .redadd _ _ size scope | .redmin _ _ size scope | .redminn _ _ size scope | .redmax _ _ size scope
  | .redmaxn _ _ size scope | .redand _ _ size scope | .redor _ _ size scope | .redxor _ _ size scope =>
    wordSize size && scopeDefined scope
  | .redfaddF32 _ _ scope | .redfaddBf16 _ _ scope => scopeDefined scope
  | .fence scope _ => scopeDefined scope
  | .enrdRing _ a _ => a != 0
  | i => Machine.elemLegal i

end Sys2Proof
end

