-- ==== Sys2Proof/Decode.lean ====
section
/-!
DEFINITION. Decoding and encoding.  A control-core instruction is one 32-bit word, or two for the long forms (R30, R31); an
element instruction is one 128-bit word (R16).  Words are read as natural numbers; `bits` is value[hi:lo] of R3.
A decoder answers none for an undefined encoding or a nonzero reserved field (R32 to R34).
-/

namespace Sys2Proof

/-! ## Control-core words -/

/-- The register named by five bits. -/
def regOf (n : Nat) : Reg := ⟨n % 32, Nat.mod_lt _ (by decide)⟩

/-- Format F3, MAJ 0x00 (R33): the ALU register forms by FUNC. -/
def decodeAlu (d a b : Reg) (func : Nat) : Option Instr :=
  match func with
  | 0x001 => some (.add d a b)
  | 0x002 => some (.sub d a b)
  | 0x003 => some (.mul d a b)
  | 0x004 => some (.mulh d a b)
  | 0x005 => some (.mulhn d a b)
  | 0x006 => some (.div d a b)
  | 0x007 => some (.divn d a b)
  | 0x008 => some (.rem d a b)
  | 0x009 => some (.remn d a b)
  | 0x010 => some (.and d a b)
  | 0x011 => some (.or d a b)
  | 0x012 => some (.xor d a b)
  | 0x018 => some (.sll d a b)
  | 0x019 => some (.srl d a b)
  | 0x01A => some (.sra d a b)
  | 0x020 => some (.slt d a b)
  | 0x021 => some (.sltn d a b)
  | 0x028 => some (.min d a b)
  | 0x029 => some (.max d a b)
  | 0x02A => some (.minn d a b)
  | 0x02B => some (.maxn d a b)
  | 0x030 => if b = 0 then some (.clz d a) else none
  | 0x031 => if b = 0 then some (.popc d a) else none
  | 0x038 => if b = 0 then some (.sextB d a) else if b = 1 then some (.sextH d a) else if b = 2 then some (.sextW d a) else none
  | 0x039 => if b = 0 then some (.zextB d a) else if b = 1 then some (.zextH d a) else if b = 2 then some (.zextW d a) else none
  | _ => none

/-- MAJ 0x10 (R34): AMO forms by AOP. -/
def decodeAmo (d a b : Reg) (aop : Nat) (size : BitVec 2) (scope : BitVec 3) : Option Instr :=
  match aop with
  | 1 => some (.amoadd d a b size scope)
  | 2 => some (.amomin d a b size scope)
  | 3 => some (.amominn d a b size scope)
  | 4 => some (.amomax d a b size scope)
  | 5 => some (.amomaxn d a b size scope)
  | 6 => some (.amoand d a b size scope)
  | 7 => some (.amoor d a b size scope)
  | 8 => some (.amoxor d a b size scope)
  | 9 => some (.amoswp d a b size scope)
  | 10 => some (.amocas d a b size scope)
  | 11 => if size = 2 then some (.amofaddF32 d a b scope) else none
  | 12 => if size = 1 then some (.amofaddBf16 d a b scope) else none
  | _ => none

/-- MAJ 0x11 (R34): RED forms by AOP. -/
def decodeRed (a b : Reg) (aop : Nat) (size : BitVec 2) (scope : BitVec 3) : Option Instr :=
  match aop with
  | 1 => some (.redadd a b size scope)
  | 2 => some (.redmin a b size scope)
  | 3 => some (.redminn a b size scope)
  | 4 => some (.redmax a b size scope)
  | 5 => some (.redmaxn a b size scope)
  | 6 => some (.redand a b size scope)
  | 7 => some (.redor a b size scope)
  | 8 => some (.redxor a b size scope)
  | 11 => if size = 2 then some (.redfaddF32 a b scope) else none
  | 12 => if size = 1 then some (.redfaddBf16 a b scope) else none
  | _ => none

/-- MAJ 0x20: FENCE, PHASE and BAR (R139 to R141). -/
def decodeFs20 (d a b : Reg) (fl minor : Nat) : Option Instr :=
  match minor with
  | 0x00 => if d = 0 ∧ a = 0 ∧ b.val < 8 ∧ fl < 8 then some (.fence (BitVec.ofNat 3 b.val) (BitVec.ofNat 3 fl)) else none
  | 0x01 => if a = 0 ∧ b = 0 ∧ fl = 0 then some (.phase d) else none
  | 0x02 => if d = 0 ∧ fl = 0 then some (.bar a b) else none
  | _ => none

/-- MAJ 0x21: the system instructions (R142 to R147, R184). -/
def decodeFs21 (d a b : Reg) (fl low minor : Nat) : Option Instr :=
  match minor with
  | 0x00 => if d = 0 ∧ a = 0 ∧ b = 0 ∧ fl = 0 then some (.nop) else none
  | 0x01 => if d = 0 ∧ a = 0 then some (.trap (BitVec.ofNat 10 low)) else none
  | 0x02 => if d = 0 ∧ a = 0 ∧ b = 0 ∧ fl = 0 then some (.rft) else none
  | 0x03 => if d = 0 ∧ a = 0 ∧ b = 0 ∧ fl = 0 then some (.brk) else none
  | 0x04 => if a = 0 then some (.krd d (BitVec.ofNat 10 low)) else none
  | 0x05 => if d = 0 then some (.kwr a (BitVec.ofNat 10 low)) else none
  | 0x06 => if d = 0 ∧ a = 0 ∧ b = 0 ∧ fl = 0 then some (.cinval) else none
  | 0x07 => if a = 0 ∧ b = 0 ∧ fl = 0 then some (.cyc d) else if a = 0 ∧ b = 0 ∧ fl = 1 then some (.cycCore d) else none
  | 0x08 => if a = 0 ∧ b = 0 ∧ fl < 4 then some (.enrd d (BitVec.ofNat 2 fl)) else if b = 0 ∧ fl < 4 then some (.enrdRing d a (BitVec.ofNat 2 fl)) else none
  | 0x09 => if b = 0 ∧ fl = 0 then some (.featrd d a) else if b = 0 ∧ fl = 1 then some (.featrdOffer d a) else none
  | _ => none

/-- MAJ 0x24: the segment instructions (R155). -/
def decodeFs24 (d a b : Reg) (fl minor : Nat) : Option Instr :=
  match minor with
  | 0x00 => if b = 0 ∧ fl = 0 then some (.segld d a) else none
  | 0x01 => if fl = 0 then some (.segrun d a b) else none
  | 0x02 => if d = 0 ∧ b = 0 ∧ fl = 0 then some (.segstop a) else none
  | 0x03 => if fl = 0 then some (.segwait d a b) else none
  | 0x04 => if b = 0 ∧ fl = 0 then some (.strbind d a) else none
  | 0x05 => if b = 0 ∧ fl = 0 then some (.strfree d a) else none
  | 0x06 => if d = 0 ∧ b = 0 ∧ fl = 0 then some (.cfginv a) else none
  | _ => none

/-- MAJ 0x25: COPY, PBINV and FLSIG (R163, R168). -/
def decodeFs25 (d a b : Reg) (fl minor : Nat) : Option Instr :=
  match minor with
  | 0x00 => if b = 0 ∧ fl = 0 then some (.copy d a) else none
  | 0x01 => if d = 0 ∧ b = 0 ∧ fl = 0 then some (.pbinv a) else none
  | 0x02 => if fl = 0 then some (.flsig d a b) else if fl = 1 then some (.flsigW d a b) else none
  | _ => none

/-- MAJ 0x26: the event instructions (R153). -/
def decodeFs26 (d a b : Reg) (fl minor : Nat) : Option Instr :=
  match minor with
  | 0x00 => if b = 0 ∧ fl = 0 then some (.evpop d a) else none
  | 0x01 => if fl = 0 then some (.evwait d a b) else none
  | 0x02 => if b = 0 ∧ fl = 0 then some (.evpeek d a) else none
  | _ => none

/-- MAJ 0x27: continuations and ranges (R169).  A CSPAWN with REMOTE 0 may have any DIE, which says nothing (DESIGN CHOICE, log 65). -/
def decodeFs27 (d a b : Reg) (fl minor : Nat) : Option Instr :=
  match minor with
  | 0x00 => if d = 0 then some (.cspawn a b (BitVec.ofNat 3 (fl / 4)) (fl / 2 % 2 == 1) (fl % 2 == 1)) else none
  | 0x01 => if d = 0 ∧ b = 0 ∧ fl = 0 then some (.cjoin a) else none
  | 0x02 => if d = 0 ∧ a = 0 ∧ b = 0 ∧ fl = 0 then some (.cexit) else none
  | 0x03 => if d = 0 ∧ a = 0 ∧ b = 0 ∧ fl = 0 then some (.cyield) else none
  | 0x04 => if d = 0 ∧ fl < 16 then some (.rgset a b (BitVec.ofNat 4 fl)) else none
  | 0x05 => if a = 0 ∧ b = 0 ∧ fl < 16 then some (.rgtake d (BitVec.ofNat 4 fl)) else none
  | _ => none

/-- MAJ 0x28: the version instructions (R174). -/
def decodeFs28 (d a b : Reg) (fl minor : Nat) : Option Instr :=
  match minor with
  | 0x00 => if b = 0 ∧ fl = 0 then some (.vdecl d a) else none
  | 0x01 => if fl = 0 then some (.vst d a b) else none
  | 0x02 => if fl = 0 then some (.vld d a b) else none
  | 0x03 => if fl = 0 then some (.vldl d a b) else none
  | 0x04 => if fl = 0 then some (.vfloorRegister d a b) else if fl = 1 then some (.vfloorRaise d a b) else if fl = 2 then some (.vfloorDeregister d a b) else none
  | 0x05 => if d = 0 ∧ b = 0 ∧ fl = 0 then some (.vdrop a) else none
  | 0x06 => if b = 0 ∧ fl < 4 then some (.vstat d a (BitVec.ofNat 2 fl)) else none
  | _ => none

/-- MAJ 0x29: the placement instructions (R179). -/
def decodeFs29 (d a b : Reg) (fl minor : Nat) : Option Instr :=
  match minor with
  | 0x00 => if d = 0 ∧ b = 0 ∧ fl = 0 then some (.exreg a) else none
  | 0x01 => if fl < 4 then some (.exstat d a b (BitVec.ofNat 2 fl)) else none
  | 0x02 => if fl = 0 then some (.plrep d a b) else none
  | 0x03 => if fl = 0 then some (.plret d a b) else if fl = 1 then some (.plretUrgent d a b) else none
  | 0x04 => if d = 0 ∧ b = 0 ∧ fl = 0 then some (.plpol a) else none
  | 0x05 => if a = 0 ∧ b = 0 ∧ fl = 0 then some (.plsync d) else none
  | _ => none

/-- MAJ 0x2C: the privileged instructions (R185). -/
def decodeFs2C (d a b : Reg) (fl minor : Nat) : Option Instr :=
  match minor with
  | 0x00 => if fl = 0 then some (.ctxsave d a b) else none
  | 0x01 => if b = 0 ∧ fl = 0 then some (.ctxrest d a) else none
  | 0x02 => if b = 0 ∧ fl = 0 then some (.preempt d a) else none
  | 0x03 => if d = 0 ∧ b = 0 ∧ fl = 0 then some (.qquiesce a) else none
  | 0x04 => if d = 0 ∧ b = 0 ∧ fl = 0 then some (.qresume a) else none
  | 0x05 => if fl = 0 then some (.fwstage d a b) else none
  | 0x06 => if a = 0 ∧ b = 0 ∧ fl = 0 then some (.fwverify d) else none
  | 0x07 => if d = 0 ∧ fl = 0 then some (.measure a b) else none
  | 0x08 => if d = 0 ∧ b = 0 ∧ fl = 0 then some (.slotsw a) else none
  | 0x09 => if d = 0 ∧ a = 0 ∧ b = 0 ∧ fl = 0 then some (.hbeat) else none
  | 0x0A => if fl = 0 then some (.keyld d a b) else none
  | _ => none

/-- MAJ 0x3F: the long forms by LMAJ (R31); w1 is the second word. -/
def decodeLong (d a : Reg) (lmaj w1 : Nat) : Option Instr :=
  match lmaj with
  | 0x00 => if a = 0 then some (.li d (BitVec.ofNat 32 w1)) else none
  | 0x01 => if a = 0 then some (.lih d (BitVec.ofNat 32 w1)) else none
  | 0x02 => some (.addiL d a (BitVec.ofNat 32 w1))
  | 0x03 => some (.andiL d a (BitVec.ofNat 32 w1))
  | 0x04 => some (.oriL d a (BitVec.ofNat 32 w1))
  | 0x05 => some (.xoriL d a (BitVec.ofNat 32 w1))
  | 0x06 => if a = 0 then some (.jalL d (BitVec.ofNat 32 w1)) else none
  | 0x08 => some (.copyi d a (BitVec.ofNat 32 w1))
  | _ => none

/-- The instruction of a control-core word w, with w1 the word at the next higher address (R30 to R34). -/
def decodeWord (w w1 : Nat) : Option Instr :=
  let d := regOf (bits w 25 21)
  let a := regOf (bits w 20 16)
  let b := regOf (bits w 15 11)
  let imm := BitVec.ofNat 16 w
  let size := BitVec.ofNat 2 (bits w 12 11)
  let off := BitVec.ofNat 11 w
  let mode := bits w 15 13
  let gb := regOf (bits w 9 5)
  let fl := bits w 4 0
  let minor := bits w 15 10
  match bits w 31 26 with
  | 0x00 => decodeAlu d a b (bits w 10 0)
  | 0x01 => some (.addi d a imm)
  | 0x02 => some (.andi d a imm)
  | 0x03 => some (.ori d a imm)
  | 0x04 => some (.xori d a imm)
  | 0x05 => some (.slti d a imm)
  | 0x06 => if bits w 15 6 = 0 then some (.slli d a (BitVec.ofNat 6 w)) else none
  | 0x07 => if bits w 15 6 = 0 then some (.srli d a (BitVec.ofNat 6 w)) else none
  | 0x08 => if bits w 15 6 = 0 then some (.srai d a (BitVec.ofNat 6 w)) else none
  | 0x09 => if mode = 0 then some (.ld d a size off) else if mode = 1 then some (.ldn d a size off) else none
  | 0x0A => if mode = 0 then some (.st d a size off) else none
  | 0x0B => some (.lda d a (BitVec.ofNat 3 mode) size off)
  | 0x0C => some (.stl d a (BitVec.ofNat 3 mode) size off)
  | 0x0D => some (.ldm d a (BitVec.ofNat 5 (bits w 15 11)) off)
  | 0x0E => some (.stm d a (BitVec.ofNat 5 (bits w 15 11)) off)
  | 0x10 => if bits w 1 0 = 0 then
      decodeAmo d a b (bits w 8 5) (BitVec.ofNat 2 (bits w 10 9)) (BitVec.ofNat 3 (bits w 4 2)) else none
  | 0x11 => if bits w 1 0 = 0 ∧ d = 0 then
      decodeRed a b (bits w 8 5) (BitVec.ofNat 2 (bits w 10 9)) (BitVec.ofNat 3 (bits w 4 2)) else none
  | 0x14 => some (.beq d a imm)
  | 0x15 => some (.bne d a imm)
  | 0x16 => some (.blt d a imm)
  | 0x17 => some (.bge d a imm)
  | 0x18 => some (.bltn d a imm)
  | 0x19 => some (.bgen d a imm)
  | 0x1A => if a = 0 then some (.jal d imm) else none
  | 0x1B => some (.jalr d a imm)
  | 0x1C => if a = 0 then some (.rep d imm) else none
  | 0x20 => decodeFs20 d a gb fl minor
  | 0x21 => decodeFs21 d a gb fl (bits w 9 0) minor
  | 0x24 => decodeFs24 d a gb fl minor
  | 0x25 => decodeFs25 d a gb fl minor
  | 0x26 => decodeFs26 d a gb fl minor
  | 0x27 => decodeFs27 d a gb fl minor
  | 0x28 => decodeFs28 d a gb fl minor
  | 0x29 => decodeFs29 d a gb fl minor
  | 0x2C => decodeFs2C d a gb fl minor
  | 0x3F => if bits w 9 0 = 0 then decodeLong d a minor w1 else none
  | _ => none

/-- Bytes an instruction occupies: 8 for a long form, else 4 (R30, R31). -/
def instrLength (w : Nat) : Nat := if bits w 31 26 = 0x3F then 8 else 4

/-- The control-core instruction at the start of a byte sequence, and what follows it. -/
def decodeBytes (bs : List Byte) : Option (Instr × List Byte) :=
  if bs.length < 4 then none else
  let w := leNat (bs.take 4)
  let n := instrLength w
  if bs.length < n then none else
  match decodeWord w (leNat ((bs.drop 4).take 4)) with
  | some i => some (i, bs.drop n)
  | none => none

/-! ## Element words -/

/-- The fields of a 128-bit element word other than OPC (R16). -/
def ewordOf (w : Nat) : EWord where
  arity := BitVec.ofNat 2 (bits w 119 118)
  immb := bit w 117
  swap := bit w 116
  rt := BitVec.ofNat 4 (bits w 115 112)
  topc := BitVec.ofNat 4 (bits w 111 108)
  targ := BitVec.ofNat 11 (bits w 107 97)
  tsel := bit w 96
  dst1 := BitVec.ofNat 16 (bits w 95 80)
  dst2 := BitVec.ofNat 16 (bits w 79 64)
  imm := BitVec.ofNat 64 (bits w 63 0)

/-- The element instruction of an OPC value (R24). -/
def decodeOpc (opc : Nat) (w : EWord) : Option Instr :=
  match opc with
  | 0x01 => some (.elemAdd w)
  | 0x02 => some (.elemSub w)
  | 0x03 => some (.elemMul w)
  | 0x04 => some (.elemMulh w)
  | 0x05 => some (.neg w)
  | 0x06 => some (.abs w)
  | 0x07 => some (.elemMin w)
  | 0x08 => some (.elemMax w)
  | 0x09 => some (.adds w)
  | 0x0A => some (.subs w)
  | 0x0B => some (.avg w)
  | 0x0C => some (.clamp w)
  | 0x10 => some (.elemAnd w)
  | 0x11 => some (.elemOr w)
  | 0x12 => some (.elemXor w)
  | 0x13 => some (.shl w)
  | 0x14 => some (.shr w)
  | 0x15 => some (.sar w)
  | 0x16 => some (.rot w)
  | 0x17 => some (.elemClz w)
  | 0x18 => some (.elemPopc w)
  | 0x19 => some (.sel w)
  | 0x20 => some (.cmpEq w)
  | 0x21 => some (.cmpNe w)
  | 0x22 => some (.cmpLt w)
  | 0x23 => some (.cmpLe w)
  | 0x24 => some (.cmpGt w)
  | 0x25 => some (.cmpGe w)
  | 0x30 => some (.widenL w)
  | 0x31 => some (.widenH w)
  | 0x32 => some (.narrow w)
  | 0x33 => some (.shuf w)
  | 0x34 => some (.bcast w)
  | 0x35 => some (.extr w)
  | 0x36 => some (.ins w)
  | 0x40 => some (.fadd .bf16 w)
  | 0x41 => some (.fadd .f16 w)
  | 0x42 => some (.fadd .f32 w)
  | 0x44 => some (.fsub .bf16 w)
  | 0x45 => some (.fsub .f16 w)
  | 0x46 => some (.fsub .f32 w)
  | 0x48 => some (.fmul .bf16 w)
  | 0x49 => some (.fmul .f16 w)
  | 0x4A => some (.fmul .f32 w)
  | 0x4C => some (.ffma .bf16 w)
  | 0x4D => some (.ffma .f16 w)
  | 0x4E => some (.ffma .f32 w)
  | 0x50 => some (.fmin w)
  | 0x51 => some (.fmax w)
  | 0x52 => some (.fabs w)
  | 0x53 => some (.fneg w)
  | 0x54 => some (.cvt w)
  | 0x58 => some (.fcmpEq w)
  | 0x59 => some (.fcmpNe w)
  | 0x5A => some (.fcmpLt w)
  | 0x5B => some (.fcmpLe w)
  | 0x5C => some (.fcmpGt w)
  | 0x5D => some (.fcmpGe w)
  | 0x60 => some (.rcp w)
  | 0x61 => some (.rsq w)
  | 0x62 => some (.sqrt w)
  | 0x63 => some (.exp2 w)
  | 0x64 => some (.log2 w)
  | 0x65 => some (.tanh w)
  | 0x66 => some (.sigm w)
  | 0x67 => some (.erf w)
  | 0x70 => some (.rsum w)
  | 0x71 => some (.rmax w)
  | 0x72 => some (.rmin w)
  | 0x80 => some (.tagi w)
  | 0x81 => some (.tagf w)
  | 0x82 => some (.tagr w)
  | 0x83 => some (.tinc w)
  | 0x84 => some (.tget w)
  | 0x88 => some (.steer w)
  | 0x89 => some (.gate w)
  | 0x8A => some (.const w)
  | 0x8B => some (.sink w)
  | 0x90 => some (.talloc w)
  | 0x91 => some (.tshrink w)
  | 0x92 => some (.tcfg w)
  | 0x93 => some (.tzero w)
  | 0x94 => some (.tmov w)
  | 0x95 => some (.text w)
  | 0x96 => some (.tins w)
  | 0xA0 => some (.wlatch w)
  | 0xA1 => some (.afmt w)
  | 0xA2 => some (.acfg w)
  | 0xA4 => some (.mmaT2 w)
  | 0xA5 => some (.mmaF4 w)
  | 0xA6 => some (.mmaF8 w)
  | 0xA7 => some (.mmaBf16 w)
  | 0xA8 => some (.mmg w)
  | _ => none

/-- The element instruction of a 128-bit word. -/
def decodeElem (w : Nat) : Option Instr := decodeOpc (bits w 127 120) (ewordOf w)

/-! ## The encoder -/

/-- Format F3 (R30). -/
def f3 (maj : Nat) (d a b : Reg) (func : Nat) : Nat :=
  maj * 2 ^ 26 + d.val * 2 ^ 21 + a.val * 2 ^ 16 + b.val * 2 ^ 11 + func

/-- Formats FI and FB (R30). -/
def fi (maj : Nat) (d a : Reg) (imm : Nat) : Nat := maj * 2 ^ 26 + d.val * 2 ^ 21 + a.val * 2 ^ 16 + imm

/-- Format FM (R30). -/
def fm (maj : Nat) (d a : Reg) (mode size off : Nat) : Nat :=
  maj * 2 ^ 26 + d.val * 2 ^ 21 + a.val * 2 ^ 16 + mode * 2 ^ 13 + size * 2 ^ 11 + off

/-- Format FS (R30). -/
def fs (maj : Nat) (d a : Reg) (minor : Nat) (b : Reg) (fl : Nat) : Nat :=
  maj * 2 ^ 26 + d.val * 2 ^ 21 + a.val * 2 ^ 16 + minor * 2 ^ 10 + b.val * 2 ^ 5 + fl

/-- An AMO word (R34). -/
def amoW (d a b : Reg) (aop size scope : Nat) : Nat := f3 0x10 d a b (size * 2 ^ 9 + aop * 2 ^ 5 + scope * 2 ^ 2)

/-- A RED word (R34). -/
def redW (a b : Reg) (aop size scope : Nat) : Nat := f3 0x11 0 a b (size * 2 ^ 9 + aop * 2 ^ 5 + scope * 2 ^ 2)

/-- An element word (R16). -/
def ew (opc : Nat) (w : EWord) : Nat :=
  opc * 2 ^ 120 + w.arity.toNat * 2 ^ 118 + ofBool w.immb * 2 ^ 117 + ofBool w.swap * 2 ^ 116 + w.rt.toNat * 2 ^ 112
    + w.topc.toNat * 2 ^ 108 + w.targ.toNat * 2 ^ 97 + ofBool w.tsel * 2 ^ 96 + w.dst1.toNat * 2 ^ 80
    + w.dst2.toNat * 2 ^ 64 + w.imm.toNat

/-- The field f of the FADD group (R24). -/
def fmtCode : Fmt → Nat
  | .bf16 => 0
  | .f16 => 1
  | .f32 => 2

/-- The words of an instruction as one number, the first word lowest; none for a step that has no encoding. -/
def encode : Instr → Option Nat
  | .add d a b => some (f3 0x00 d a b 0x001)
  | .sub d a b => some (f3 0x00 d a b 0x002)
  | .mul d a b => some (f3 0x00 d a b 0x003)
  | .mulh d a b => some (f3 0x00 d a b 0x004)
  | .mulhn d a b => some (f3 0x00 d a b 0x005)
  | .div d a b => some (f3 0x00 d a b 0x006)
  | .divn d a b => some (f3 0x00 d a b 0x007)
  | .rem d a b => some (f3 0x00 d a b 0x008)
  | .remn d a b => some (f3 0x00 d a b 0x009)
  | .and d a b => some (f3 0x00 d a b 0x010)
  | .or d a b => some (f3 0x00 d a b 0x011)
  | .xor d a b => some (f3 0x00 d a b 0x012)
  | .sll d a b => some (f3 0x00 d a b 0x018)
  | .srl d a b => some (f3 0x00 d a b 0x019)
  | .sra d a b => some (f3 0x00 d a b 0x01A)
  | .slt d a b => some (f3 0x00 d a b 0x020)
  | .sltn d a b => some (f3 0x00 d a b 0x021)
  | .min d a b => some (f3 0x00 d a b 0x028)
  | .max d a b => some (f3 0x00 d a b 0x029)
  | .minn d a b => some (f3 0x00 d a b 0x02A)
  | .maxn d a b => some (f3 0x00 d a b 0x02B)
  | .clz d a => some (f3 0x00 d a 0 0x030)
  | .popc d a => some (f3 0x00 d a 0 0x031)
  | .sextB d a => some (f3 0x00 d a 0 0x038)
  | .sextH d a => some (f3 0x00 d a 1 0x038)
  | .sextW d a => some (f3 0x00 d a 2 0x038)
  | .zextB d a => some (f3 0x00 d a 0 0x039)
  | .zextH d a => some (f3 0x00 d a 1 0x039)
  | .zextW d a => some (f3 0x00 d a 2 0x039)
  | .addi d a imm => some (fi 0x01 d a imm.toNat)
  | .andi d a imm => some (fi 0x02 d a imm.toNat)
  | .ori d a imm => some (fi 0x03 d a imm.toNat)
  | .xori d a imm => some (fi 0x04 d a imm.toNat)
  | .slti d a imm => some (fi 0x05 d a imm.toNat)
  | .jalr d a imm => some (fi 0x1B d a imm.toNat)
  | .slli d a sh => some (fi 0x06 d a sh.toNat)
  | .srli d a sh => some (fi 0x07 d a sh.toNat)
  | .srai d a sh => some (fi 0x08 d a sh.toNat)
  | .ld d a size off => some (fm 0x09 d a 0 size.toNat off.toNat)
  | .ldn d a size off => some (fm 0x09 d a 1 size.toNat off.toNat)
  | .st d a size off => some (fm 0x0A d a 0 size.toNat off.toNat)
  | .lda d a scope size off => some (fm 0x0B d a scope.toNat size.toNat off.toNat)
  | .stl d a scope size off => some (fm 0x0C d a scope.toNat size.toNat off.toNat)
  | .ldm d a n off => some (fi 0x0D d a (n.toNat * 2048 + off.toNat))
  | .stm d a n off => some (fi 0x0E d a (n.toNat * 2048 + off.toNat))
  | .amoadd d a b size scope => some (amoW d a b 1 size.toNat scope.toNat)
  | .redadd a b size scope => some (redW a b 1 size.toNat scope.toNat)
  | .amomin d a b size scope => some (amoW d a b 2 size.toNat scope.toNat)
  | .redmin a b size scope => some (redW a b 2 size.toNat scope.toNat)
  | .amominn d a b size scope => some (amoW d a b 3 size.toNat scope.toNat)
  | .redminn a b size scope => some (redW a b 3 size.toNat scope.toNat)
  | .amomax d a b size scope => some (amoW d a b 4 size.toNat scope.toNat)
  | .redmax a b size scope => some (redW a b 4 size.toNat scope.toNat)
  | .amomaxn d a b size scope => some (amoW d a b 5 size.toNat scope.toNat)
  | .redmaxn a b size scope => some (redW a b 5 size.toNat scope.toNat)
  | .amoand d a b size scope => some (amoW d a b 6 size.toNat scope.toNat)
  | .redand a b size scope => some (redW a b 6 size.toNat scope.toNat)
  | .amoor d a b size scope => some (amoW d a b 7 size.toNat scope.toNat)
  | .redor a b size scope => some (redW a b 7 size.toNat scope.toNat)
  | .amoxor d a b size scope => some (amoW d a b 8 size.toNat scope.toNat)
  | .redxor a b size scope => some (redW a b 8 size.toNat scope.toNat)
  | .amoswp d a b size scope => some (amoW d a b 9 size.toNat scope.toNat)
  | .amocas d a b size scope => some (amoW d a b 10 size.toNat scope.toNat)
  | .amofaddF32 d a b scope => some (amoW d a b 11 2 scope.toNat)
  | .redfaddF32 a b scope => some (redW a b 11 2 scope.toNat)
  | .amofaddBf16 d a b scope => some (amoW d a b 12 1 scope.toNat)
  | .redfaddBf16 a b scope => some (redW a b 12 1 scope.toNat)
  | .beq a b off => some (fi 0x14 a b off.toNat)
  | .bne a b off => some (fi 0x15 a b off.toNat)
  | .blt a b off => some (fi 0x16 a b off.toNat)
  | .bge a b off => some (fi 0x17 a b off.toNat)
  | .bltn a b off => some (fi 0x18 a b off.toNat)
  | .bgen a b off => some (fi 0x19 a b off.toNat)
  | .jal l off => some (fi 0x1A l 0 off.toNat)
  | .rep a len => some (fi 0x1C a 0 len.toNat)
  | .fence scope classes => some (fs 0x20 0 0 0 0 0 + scope.toNat * 32 + classes.toNat)
  | .phase d => some (fs 0x20 d 0 1 0 0)
  | .bar a b => some (fs 0x20 0 a 2 b 0)
  | .nop => some (fs 0x21 0 0 0 0 0)
  | .rft => some (fs 0x21 0 0 2 0 0)
  | .brk => some (fs 0x21 0 0 3 0 0)
  | .cinval => some (fs 0x21 0 0 6 0 0)
  | .cyc d => some (fs 0x21 d 0 7 0 0)
  | .cycCore d => some (fs 0x21 d 0 7 0 1)
  | .trap code => some (fs 0x21 0 0 1 0 0 + code.toNat)
  | .krd d k => some (fs 0x21 d 0 4 0 0 + k.toNat)
  | .kwr a k => some (fs 0x21 0 a 5 0 0 + k.toNat)
  | .enrd d sel => some (fs 0x21 d 0 8 0 0 + sel.toNat)
  | .enrdRing d a sel => some (fs 0x21 d a 8 0 0 + sel.toNat)
  | .featrd d a => some (fs 0x21 d a 9 0 0)
  | .featrdOffer d a => some (fs 0x21 d a 9 0 1)
  | .segld d a => some (fs 0x24 d a 0 0 0)
  | .segrun d a b => some (fs 0x24 d a 1 b 0)
  | .segstop a => some (fs 0x24 0 a 2 0 0)
  | .segwait d a b => some (fs 0x24 d a 3 b 0)
  | .strbind d a => some (fs 0x24 d a 4 0 0)
  | .strfree d a => some (fs 0x24 d a 5 0 0)
  | .cfginv a => some (fs 0x24 0 a 6 0 0)
  | .copy d a => some (fs 0x25 d a 0 0 0)
  | .pbinv a => some (fs 0x25 0 a 1 0 0)
  | .flsig d a b => some (fs 0x25 d a 2 b 0)
  | .flsigW d a b => some (fs 0x25 d a 2 b 1)
  | .evpop d a => some (fs 0x26 d a 0 0 0)
  | .evwait d a b => some (fs 0x26 d a 1 b 0)
  | .evpeek d a => some (fs 0x26 d a 2 0 0)
  | .cspawn a b die remote prio => some (fs 0x27 0 a 0 b 0 + die.toNat * 4 + ofBool remote * 2 + ofBool prio)
  | .cjoin a => some (fs 0x27 0 a 1 0 0)
  | .cexit => some (fs 0x27 0 0 2 0 0)
  | .cyield => some (fs 0x27 0 0 3 0 0)
  | .rgset a b r => some (fs 0x27 0 a 4 b 0 + r.toNat)
  | .rgtake d r => some (fs 0x27 d 0 5 0 0 + r.toNat)
  | .vdecl d a => some (fs 0x28 d a 0 0 0)
  | .vst d a b => some (fs 0x28 d a 1 b 0)
  | .vld d a b => some (fs 0x28 d a 2 b 0)
  | .vldl d a b => some (fs 0x28 d a 3 b 0)
  | .vfloorRegister d a b => some (fs 0x28 d a 4 b 0)
  | .vfloorRaise d a b => some (fs 0x28 d a 4 b 1)
  | .vfloorDeregister d a b => some (fs 0x28 d a 4 b 2)
  | .vdrop a => some (fs 0x28 0 a 5 0 0)
  | .vstat d a sel => some (fs 0x28 d a 6 0 0 + sel.toNat)
  | .exreg a => some (fs 0x29 0 a 0 0 0)
  | .exstat d a b sel => some (fs 0x29 d a 1 b 0 + sel.toNat)
  | .plrep d a b => some (fs 0x29 d a 2 b 0)
  | .plret d a b => some (fs 0x29 d a 3 b 0)
  | .plretUrgent d a b => some (fs 0x29 d a 3 b 1)
  | .plpol a => some (fs 0x29 0 a 4 0 0)
  | .plsync d => some (fs 0x29 d 0 5 0 0)
  | .ctxsave d a b => some (fs 0x2C d a 0 b 0)
  | .ctxrest d a => some (fs 0x2C d a 1 0 0)
  | .preempt d a => some (fs 0x2C d a 2 0 0)
  | .qquiesce a => some (fs 0x2C 0 a 3 0 0)
  | .qresume a => some (fs 0x2C 0 a 4 0 0)
  | .fwstage d a b => some (fs 0x2C d a 5 b 0)
  | .fwverify d => some (fs 0x2C d 0 6 0 0)
  | .measure a b => some (fs 0x2C 0 a 7 b 0)
  | .slotsw a => some (fs 0x2C 0 a 8 0 0)
  | .hbeat => some (fs 0x2C 0 0 9 0 0)
  | .keyld d a b => some (fs 0x2C d a 10 b 0)
  | .li d imm => some (fi 0x3F d 0 (0 * 1024) + 2 ^ 32 * imm.toNat)
  | .lih d imm => some (fi 0x3F d 0 (1 * 1024) + 2 ^ 32 * imm.toNat)
  | .addiL d a imm => some (fi 0x3F d a (2 * 1024) + 2 ^ 32 * imm.toNat)
  | .andiL d a imm => some (fi 0x3F d a (3 * 1024) + 2 ^ 32 * imm.toNat)
  | .oriL d a imm => some (fi 0x3F d a (4 * 1024) + 2 ^ 32 * imm.toNat)
  | .xoriL d a imm => some (fi 0x3F d a (5 * 1024) + 2 ^ 32 * imm.toNat)
  | .jalL d off => some (fi 0x3F d 0 (6 * 1024) + 2 ^ 32 * off.toNat)
  | .copyi d a len => some (fi 0x3F d a (8 * 1024) + 2 ^ 32 * len.toNat)
  | .elemAdd w => some (ew 0x01 w)
  | .elemSub w => some (ew 0x02 w)
  | .elemMul w => some (ew 0x03 w)
  | .elemMulh w => some (ew 0x04 w)
  | .neg w => some (ew 0x05 w)
  | .abs w => some (ew 0x06 w)
  | .elemMin w => some (ew 0x07 w)
  | .elemMax w => some (ew 0x08 w)
  | .adds w => some (ew 0x09 w)
  | .subs w => some (ew 0x0A w)
  | .avg w => some (ew 0x0B w)
  | .clamp w => some (ew 0x0C w)
  | .elemAnd w => some (ew 0x10 w)
  | .elemOr w => some (ew 0x11 w)
  | .elemXor w => some (ew 0x12 w)
  | .shl w => some (ew 0x13 w)
  | .shr w => some (ew 0x14 w)
  | .sar w => some (ew 0x15 w)
  | .rot w => some (ew 0x16 w)
  | .elemClz w => some (ew 0x17 w)
  | .elemPopc w => some (ew 0x18 w)
  | .sel w => some (ew 0x19 w)
  | .cmpEq w => some (ew 0x20 w)
  | .cmpNe w => some (ew 0x21 w)
  | .cmpLt w => some (ew 0x22 w)
  | .cmpLe w => some (ew 0x23 w)
  | .cmpGt w => some (ew 0x24 w)
  | .cmpGe w => some (ew 0x25 w)
  | .widenL w => some (ew 0x30 w)
  | .widenH w => some (ew 0x31 w)
  | .narrow w => some (ew 0x32 w)
  | .shuf w => some (ew 0x33 w)
  | .bcast w => some (ew 0x34 w)
  | .extr w => some (ew 0x35 w)
  | .ins w => some (ew 0x36 w)
  | .fmin w => some (ew 0x50 w)
  | .fmax w => some (ew 0x51 w)
  | .fabs w => some (ew 0x52 w)
  | .fneg w => some (ew 0x53 w)
  | .cvt w => some (ew 0x54 w)
  | .fcmpEq w => some (ew 0x58 w)
  | .fcmpNe w => some (ew 0x59 w)
  | .fcmpLt w => some (ew 0x5A w)
  | .fcmpLe w => some (ew 0x5B w)
  | .fcmpGt w => some (ew 0x5C w)
  | .fcmpGe w => some (ew 0x5D w)
  | .rcp w => some (ew 0x60 w)
  | .rsq w => some (ew 0x61 w)
  | .sqrt w => some (ew 0x62 w)
  | .exp2 w => some (ew 0x63 w)
  | .log2 w => some (ew 0x64 w)
  | .tanh w => some (ew 0x65 w)
  | .sigm w => some (ew 0x66 w)
  | .erf w => some (ew 0x67 w)
  | .rsum w => some (ew 0x70 w)
  | .rmax w => some (ew 0x71 w)
  | .rmin w => some (ew 0x72 w)
  | .tagi w => some (ew 0x80 w)
  | .tagf w => some (ew 0x81 w)
  | .tagr w => some (ew 0x82 w)
  | .tinc w => some (ew 0x83 w)
  | .tget w => some (ew 0x84 w)
  | .steer w => some (ew 0x88 w)
  | .gate w => some (ew 0x89 w)
  | .const w => some (ew 0x8A w)
  | .sink w => some (ew 0x8B w)
  | .talloc w => some (ew 0x90 w)
  | .tshrink w => some (ew 0x91 w)
  | .tcfg w => some (ew 0x92 w)
  | .tzero w => some (ew 0x93 w)
  | .tmov w => some (ew 0x94 w)
  | .text w => some (ew 0x95 w)
  | .tins w => some (ew 0x96 w)
  | .wlatch w => some (ew 0xA0 w)
  | .afmt w => some (ew 0xA1 w)
  | .acfg w => some (ew 0xA2 w)
  | .mmaT2 w => some (ew 0xA4 w)
  | .mmaF4 w => some (ew 0xA5 w)
  | .mmaF8 w => some (ew 0xA6 w)
  | .mmaBf16 w => some (ew 0xA7 w)
  | .mmg w => some (ew 0xA8 w)
  | .fadd f w => some (ew (0x40 + fmtCode f) w)
  | .fsub f w => some (ew (0x44 + fmtCode f) w)
  | .fmul f w => some (ew (0x48 + fmtCode f) w)
  | .ffma f w => some (ew (0x4C + fmtCode f) w)
  | _ => none

/-- Bytes of an instruction's encoding: 4, 8 for a long form, 16 for an element word, 0 for a step with no encoding. -/
def encodedBytes : Instr → Nat
  | .li .. => 8
  | .lih .. => 8
  | .addiL .. => 8
  | .andiL .. => 8
  | .oriL .. => 8
  | .xoriL .. => 8
  | .jalL .. => 8
  | .copyi .. => 8
  | .elemAdd .. => 16
  | .elemSub .. => 16
  | .elemMul .. => 16
  | .elemMulh .. => 16
  | .neg .. => 16
  | .abs .. => 16
  | .elemMin .. => 16
  | .elemMax .. => 16
  | .adds .. => 16
  | .subs .. => 16
  | .avg .. => 16
  | .clamp .. => 16
  | .elemAnd .. => 16
  | .elemOr .. => 16
  | .elemXor .. => 16
  | .shl .. => 16
  | .shr .. => 16
  | .sar .. => 16
  | .rot .. => 16
  | .elemClz .. => 16
  | .elemPopc .. => 16
  | .sel .. => 16
  | .cmpEq .. => 16
  | .cmpNe .. => 16
  | .cmpLt .. => 16
  | .cmpLe .. => 16
  | .cmpGt .. => 16
  | .cmpGe .. => 16
  | .widenL .. => 16
  | .widenH .. => 16
  | .narrow .. => 16
  | .shuf .. => 16
  | .bcast .. => 16
  | .extr .. => 16
  | .ins .. => 16
  | .fadd .. => 16
  | .fsub .. => 16
  | .fmul .. => 16
  | .ffma .. => 16
  | .fmin .. => 16
  | .fmax .. => 16
  | .fabs .. => 16
  | .fneg .. => 16
  | .cvt .. => 16
  | .fcmpEq .. => 16
  | .fcmpNe .. => 16
  | .fcmpLt .. => 16
  | .fcmpLe .. => 16
  | .fcmpGt .. => 16
  | .fcmpGe .. => 16
  | .rcp .. => 16
  | .rsq .. => 16
  | .sqrt .. => 16
  | .exp2 .. => 16
  | .log2 .. => 16
  | .tanh .. => 16
  | .sigm .. => 16
  | .erf .. => 16
  | .rsum .. => 16
  | .rmax .. => 16
  | .rmin .. => 16
  | .tagi .. => 16
  | .tagf .. => 16
  | .tagr .. => 16
  | .tinc .. => 16
  | .tget .. => 16
  | .steer .. => 16
  | .gate .. => 16
  | .const .. => 16
  | .sink .. => 16
  | .talloc .. => 16
  | .tshrink .. => 16
  | .tcfg .. => 16
  | .tzero .. => 16
  | .tmov .. => 16
  | .text .. => 16
  | .tins .. => 16
  | .wlatch .. => 16
  | .afmt .. => 16
  | .acfg .. => 16
  | .mmaT2 .. => 16
  | .mmaF4 .. => 16
  | .mmaF8 .. => 16
  | .mmaBf16 .. => 16
  | .mmg .. => 16
  | .blockedInstructionComplete .. => 0
  | .evwaitTimeout .. => 0
  | .continuationDispatch .. => 0
  | .phaseBoundary .. => 0
  | .mmgCopy .. => 0
  | .tokenArrival .. => 0
  | .elementEos .. => 0
  | .agenEmit .. => 0
  | .loadAccess .. => 0
  | .loadTileFill .. => 0
  | .storeAccess .. => 0
  | .storeEos .. => 0
  | .atomicAccess .. => 0
  | .sendTransfer .. => 0
  | .sendCompletion .. => 0
  | .operatorCompletion .. => 0
  | .vloadAccess .. => 0
  | .vstoreAccess .. => 0
  | .joinFire .. => 0
  | .accumCombine .. => 0
  | .loopEntry .. => 0
  | .loopExit .. => 0
  | .mergeForward .. => 0
  | .operatorEosForward .. => 0
  | .routeRequest .. => 0
  | .routeAcknowledgement .. => 0
  | .routeTableRead .. => 0
  | .runStart .. => 0
  | .scrollStepBoundary .. => 0
  | .waveDelivery .. => 0
  | .runHalt .. => 0
  | .runEnd .. => 0
  | .postedStorePerform .. => 0
  | .writeQueueApply .. => 0
  | .faultRecordWrite .. => 0
  | .faultResolve .. => 0
  | .copyChunk .. => 0
  | .copyComplete .. => 0
  | .segldComplete .. => 0
  | .flsigComplete .. => 0
  | .preemptHalted .. => 0
  | .ctxsaveComplete .. => 0
  | .ctxrestComplete .. => 0
  | .probeRound .. => 0
  | .probeReceive .. => 0
  | .placementWindowBoundary .. => 0
  | .placementCheck .. => 0
  | .placementCopyEnd .. => 0
  | .placementPublish .. => 0
  | .placementDrainEnd .. => 0
  | .sqwrWrite .. => 0
  | .packetFetch .. => 0
  | .launch .. => 0
  | .launchPlacement .. => 0
  | .loadobj .. => 0
  | .unloadobj .. => 0
  | .nopPacket .. => 0
  | .objectRemove .. => 0
  | .launchComplete .. => 0
  | .queueEnable .. => 0
  | .queueDisable .. => 0
  | .queueReset .. => 0
  | .queueResetComplete .. => 0
  | .invalidationStart .. => 0
  | .invalidationComplete .. => 0
  | .featacceptWrite .. => 0
  | .assignmentBlockWrite .. => 0
  | .devidWrite .. => 0
  | .streamEntryWrite .. => 0
  | .registerWrite .. => 0
  | .lockInterface .. => 0
  | .startInterface .. => 0
  | .stopInterface .. => 0
  | .tdiError .. => 0
  | .spdmRequest .. => 0
  | .inboundWrite .. => 0
  | .inboundWriteRelease .. => 0
  | .inboundWritePerform .. => 0
  | .inboundRead .. => 0
  | .inboundAtomic .. => 0
  | .umenoFlitReceive .. => 0
  | .umenoAckReceive .. => 0
  | .umenoAckTimeout .. => 0
  | .dieLinkDown .. => 0
  | .dieFirmwareFault .. => 0
  | .deviceReset => 0
  | .firstHeartbeatDeadline => 0
  | .heartbeatDeadline => 0
  | .launchWatchdogExpiry .. => 0
  | .energyWindowBoundary => 0
  | .uncorrectableError .. => 0
  | .postedReductionPerform .. => 0
  | _ => 4

/-- The instruction's bytes as the device stores them (R5). -/
def encodeBytes (i : Instr) : List Byte :=
  match encode i with
  | some w => leBytes (encodedBytes i) w
  | none => []

/-- Decodes the words of any instruction that has an encoding. -/
def decodeAny (n w : Nat) : Option Instr :=
  if n = 16 then decodeElem w else
  match decodeBytes (leBytes 8 w) with
  | some (i, _) => some i
  | none => none

/-- The instruction the decoder reads from a table row's word: control words of 32 or 64 bits are laid out little-endian and
read by `decodeBytes`, element words have 128 bits. -/
def decodeTableWord (nbits w : Nat) : Option Instr :=
  if nbits ≤ 64 then decodeAny 8 w else decodeAny 16 w

end Sys2Proof
end

