-- ==== Sys2Proof/Machine/Fabric.lean ====
section
/-!
DEFINITION. The shared operations of the fabric: tokens and their memory form (R23), stripes, elements and operators,
fabric traps and their records (R323 to R325), the sending of tokens (R21, R43, R202, R304), and the accesses of operators and
elements to memory (R101, R286, R291).
-/

namespace Sys2Proof.Machine

open Sys2Proof

/-! ## Tokens (R23) -/

/-- KIND data. -/
def kData : BitVec 2 := 0
/-- KIND tile handle. -/
def kTile : BitVec 2 := 1
/-- KIND end-of-stream. -/
def kEos : BitVec 2 := 2
/-- KIND probe. -/
def kProbe : BitVec 2 := 3

/-- A data token with every field zero. -/
def Token.blank : Token := ⟨0, 0, 0, 0, 0, 0, 0, 0, 0, 0, 0, View.zero⟩

/-- The tag: [23:21] ROUTE, [20:10] FRAME, [9:0] ITER. -/
def Token.tag (t : Token) : Nat := t.route.toNat * 2 ^ 21 + t.frame.toNat * 2 ^ 10 + t.iter.toNat

/-- The destination as bits 99:90 of a token. -/
def Token.dest (t : Token) : Nat := t.target.toNat * 32 + t.slot.toNat * 2 + t.port.toNat

/-- Bits 127:64. -/
def Token.high (t : Token) : Word :=
  w64 (t.route.toNat * 2 ^ 61 + t.frame.toNat * 2 ^ 50 + t.iter.toNat * 2 ^ 40 + t.kind.toNat * 2 ^ 38 + t.soff.toNat * 2 ^ 36
    + t.target.toNat * 2 ^ 31 + t.slot.toNat * 2 ^ 27 + t.port.toNat * 2 ^ 26 + t.hops.toNat * 2 ^ 16 + t.eod.toNat * 2 ^ 12)

/-- The memory form: VALUE at the lower address. -/
def Token.bytes (t : Token) : List Byte := wordBytes [t.value, t.high]

/-- A token toward a destination field (R21, R44): ROUTE rewritten, HOPS zero. -/
def Token.toward (t : Token) (d : BitVec 16) : Token :=
  { t with
    route := t.route ^^^ BitVec.ofNat 3 (dstRoute d)
    soff := BitVec.ofNat 2 (dstSoff d)
    target := BitVec.ofNat 5 (dstTarget d)
    slot := BitVec.ofNat 4 (dstSlot d)
    port := BitVec.ofNat 1 (dstPort d)
    hops := 0 }

/-! ## Stripes, elements, operators -/

def StripeImage.blank : StripeImage := ⟨[], [], [], none, 0⟩
def Stripe.blank : Stripe := ⟨none, none, 0, 0, View.zero, StripeImage.blank, [], [], [], []⟩
def Status.zero : Status := ⟨0, 0, 0⟩

/-- An element at a load, before weights and initial forms (R80, R82, R88, R89, R213). -/
def Elem.blank : Elem where
  ready := []
  frame := []
  lines := []
  seq := 0
  status := Status.zero
  lfsr := 1
  allot := 0
  tiles := []
  wfmt := 0xE
  esc := false
  xval := 0
  slice := []
  afmt := 0
  nodes := []
  ended := []
  eosSent := false
  eosTo := []
  mmgSent := []
  mmgOwed := []
  faulted := none
  out := []
  stuck := []

/-- An operator at a load. -/
def Oper.blank : Oper where
  inputs := []
  ended := []
  eosSent := false
  pos := 0
  base := none
  fillRow := 0
  fillTail := []
  fillView := View.zero
  accesses := []
  jobs := []
  partials := []
  pool := []
  window := []
  select := []
  version := none
  redirect := []
  sends := []
  vdata := []
  vview := View.zero
  vstamp := none
  parked := false
  due := true
  faulted := none
  fixed := []
  view := View.zero
  redErr := none

/-- A physical stripe. -/
def State.stripe (s : State) (x : Nat) : Stripe := Table.getD s.stripes x Stripe.blank

def State.setStripe (s : State) (x : Nat) (v : Stripe) : State := { s with stripes := Table.set x v s.stripes }

def State.mapStripe (s : State) (x : Nat) (f : Stripe → Stripe) : State := s.setStripe x (f (s.stripe x))

def State.elem? (s : State) (x e : Nat) : Option Elem := Table.find e (s.stripe x).elems

def State.setElem (s : State) (x e : Nat) (v : Elem) : State :=
  s.mapStripe x (fun st => { st with elems := Table.set e v st.elems })

def State.mapElem (s : State) (x e : Nat) (f : Elem → Elem) : State :=
  match s.elem? x e with
  | some v => s.setElem x e (f v)
  | none => s

def State.oper? (s : State) (x o : Nat) : Option Oper := Table.find o (s.stripe x).ops

def State.setOper (s : State) (x o : Nat) (v : Oper) : State :=
  s.mapStripe x (fun st => { st with ops := Table.set o v st.ops })

def State.mapOper (s : State) (x o : Nat) (f : Oper → Oper) : State :=
  match s.oper? x o with
  | some v => s.setOper x o (f v)
  | none => s

/-- The owner number of an operator slot of a stripe: its load makes it a party of its own (R282). -/
def State.ownerOf (s : State) (x o : Nat) : Nat := operOwner (s.stripe x).party o

/-- The configuration of an element, and of an operator slot. -/
def State.elemImage (s : State) (x e : Nat) : Option ElemImage := Table.find e (s.stripe x).image.elems
def State.opImage (s : State) (x o : Nat) : Option OpImage := Table.find o (s.stripe x).image.ops

/-- The instruction of a slot; none where the slot is empty. -/
def slotInstr (im : ElemImage) (slot : Nat) : Option Instr := (Table.find slot im.slots).bind (fun w => decodeElem w.toNat)

/-- The instruction of a slot of an element. -/
def State.slotAt (s : State) (x e slot : Nat) : Option Instr := (s.elemImage x e).bind (fun im => slotInstr im slot)

/-- The run that a stripe belongs to. -/
def State.runOf (s : State) (x : Nat) : Option (Nat × Run) :=
  (s.stripe x).run.bind (fun r => (Table.find r s.runs).map (fun v => (r, v)))

def State.setRun (s : State) (r : Nat) (v : Run) : State := { s with runs := Table.set r v s.runs }

def State.mapRun (s : State) (r : Nat) (f : Run → Run) : State :=
  match Table.find r s.runs with
  | some v => s.setRun r (f v)
  | none => s

/-- Virtual stripes of a run. -/
def Run.vcount (r : Run) : Nat := r.image.stripes.length

/-- Resident mode (R197). -/
def Run.resident (r : Run) : Bool := decide (r.vcount ≤ r.width)

/-- A stripe executes: its configuration was loaded at an earlier step of a run under way (R197, R204, R212). -/
def stripeLive (s : State) (x : Nat) : Bool :=
  match s.runOf x with
  | some (_, r) => (r.status == .running || r.status == .stopping) && (s.stripe x).vs.isSome && decide ((s.stripe x).loadedAt < r.step)
  | none => false

/-- The physical stripe of a run that holds a virtual stripe. -/
def stripeOfVs (s : State) (rid k : Nat) : Option Nat :=
  (s.stripes.find? (fun p => p.2.run == some rid && p.2.vs == some k)).map (·.1)

/-- A stripe is in its load step (R197). -/
def stripeLoading (s : State) (x : Nat) : Bool :=
  match s.runOf x with
  | some (_, r) => (r.status == .running || r.status == .stopping) && (s.stripe x).vs.isSome && (s.stripe x).loadedAt == r.step
  | none => false

/-- The physical stripe after p_i for tokens that cross: p((i + 1) mod P), but in a pinned segment p0 after the stripe of vs(V - 1), which the forwarding
stripes and the wrap link lead to (R196, R203). -/
def nextStripe (r : Run) (x : Nat) : Nat :=
  let i := x - r.xorig
  if r.image.pinned && i + 1 == r.vcount then r.xorig else r.xorig + (i + 1) % r.width

/-! ## Fabric traps (R323 to R325) -/

/-- The two doublewords of a token of a trap record. -/
def tokenWords (toks : List Token) (i : Nat) : List Word :=
  match toks[i]? with
  | some t => [t.value, t.high]
  | none => [0, 0]

/-- The trap record of a fabric unit (R325). -/
def fabricRecord (s : State) (r : Run) (x agent slot tag cause : Nat) (addr : Word) (toks : List Token) : List Word :=
  [w64 (cause * 2 ^ 56 + min toks.length 2 * 2 ^ 54 + fabricUnit x agent),
   w64 (r.ticket * 2 ^ 48 + slot % 16 * 2 ^ 40 + ((s.stripe x).vs.getD 0) * 2 ^ 24 + tag), addr, w64 s.time]
    ++ tokenWords toks 0 ++ tokenWords toks 1

/-- The run is asked to halt; its result is the cause of its first record (R323), or DEADLOCK (R302). -/
def Run.trapped (r : Run) (cause : Nat) : Run :=
  { r with
    haltCause := match r.haltCause with | none => some cause | some c => if c = cSTOPPED ∨ cause = cDEADLOCK then some cause else some c
    status := if r.status = .running then .stopping else r.status }

/-- A fabric trap of a run at a unit: the record, the faulted unit, the halt of the run at its next burst boundary, or of the launch where it is
held (R323, R326). -/
def runTrap (rid : Nat) (r : Run) (x agent slot tag cause : Nat) (addr : Word) (toks : List Token) (s : State) : State :=
  let s1 := writeTrapRecord r.launch r.die (fabricRecord s r x agent slot tag cause addr toks) s
  let s2 := s1.mapRun rid (fun v => v.trapped cause)
  let s3 := if agent < 16 then s2.mapElem x agent (fun e => { e with faulted := some cause })
    else s2.mapOper x (agent - 16) (fun o => { o with faulted := some cause })
  match Table.find r.launch s3.launches with
  | some v => if v.trapHold then haltLaunchAs r.launch cause true s3 else s3
  | none => s3

/-- A fabric trap at a unit of a run. -/
def fabricTrap (x agent slot tag cause : Nat) (addr : Word) (toks : List Token) (s : State) : State :=
  match s.runOf x with
  | none => s
  | some (rid, r) => runTrap rid r x agent slot tag cause addr toks s

/-- A fabric trap on a token. -/
def tokenTrap (x agent slot cause : Nat) (t : Token) (s : State) : State := fabricTrap x agent slot t.tag cause 0 [t] s

/-! ## Sending (R43, R202, R304) -/

/-- The pass register of a destination (R23); one of its own for a token that no destination of the stripe named (R202). -/
def passKey (im : StripeImage) (dest : Nat) : Nat :=
  match im.pass.find? (fun p => p.2.toNat == dest) with
  | some p => p.1
  | none => 256 + dest

/-- Tokens on their way to an input inside a stripe. -/
def inboxCount (st : Stripe) (dest : Nat) : Nat := (st.inbox.filter (fun f => f.tok.dest == dest)).length

/-- Tokens that wait at an input of an operator (R304). -/
def heldAt (st : Stripe) (o i : Nat) : Nat :=
  match Table.find o st.ops with
  | some v => (Table.getD v.inputs i []).length
  | none => 0

/-- There is room for a token where it is sent (R202, R304). -/
def roomFor (x : Nat) (t : Token) (s : State) : Bool :=
  let st := s.stripe x
  if t.soff = 0 then
    if 16 ≤ t.target.toNat then decide (heldAt st (t.target.toNat - 16) t.slot.toNat + inboxCount st t.dest < 1024) else true
  else decide ((Table.getD st.pass (passKey st.image t.dest) []).length < 1024)

/-- Puts a token where it is sent: the stripe's own units, or the pass register of its destination. -/
def emit (x src : Nat) (t : Token) (s : State) : State :=
  s.mapStripe x (fun st =>
    if t.soff = 0 then { st with inbox := st.inbox ++ [⟨src, t, false⟩] }
    else
      let k := passKey st.image t.dest
      { st with pass := Table.set k (Table.getD st.pass k [] ++ [⟨src, t, false⟩]) st.pass })

/-- Sends tokens in order while there is room; what is left. -/
def sendAll (x src : Nat) : List Token → State → List Token × State
  | [], s => ([], s)
  | t :: ts, s => if roomFor x t s then sendAll x src ts (emit x src t s) else (t :: ts, s)

/-- A state in which nothing waits where an element's results go. -/
def unhindered (x : Nat) (s : State) : State :=
  s.mapStripe x (fun st => { st with
    inbox := [], pass := [], ops := Table.mapVals (fun _ (v : Oper) => { v with inputs := [] }) st.ops })

/-- The result tokens that found no room. -/
def leftOver (x e : Nat) (s : State) : List Token := match s.elem? x e with | some v => v.out | none => []

/-- The tokens that a stripe sent between two states. -/
def emitted (x : Nat) (s t : State) : List Token :=
  ((t.stripe x).inbox.drop (s.stripe x).inbox.length).map (·.tok)
    ++ (t.stripe x).pass.flatMap (fun p => (p.2.drop (Table.getD (s.stripe x).pass p.1 []).length).map (·.tok))

/-- What of some results finds no room, where all of them would if nothing else waited (R202; log 53). -/
def crowdedOut (x src : Nat) (ts : List Token) (s : State) : List Token :=
  if (sendAll x src ts (unhindered x s)).1.isEmpty then (sendAll x src ts s).1 else []

/-- The waiting result tokens of an element leave while there is room. -/
def flushOut (x e : Nat) (s : State) : State :=
  match s.elem? x e with
  | none => s
  | some el =>
    let (rest, s1) := sendAll x (fabricUnit x e) el.out s
    s1.mapElem x e (fun v => { v with out := rest })

/-- An element sends result tokens in order. -/
def elemSend (x e : Nat) (ts : List Token) (s : State) : State :=
  flushOut x e (s.mapElem x e (fun v => { v with out := v.out ++ ts }))

/-- Every token has room at once, one after the other. -/
def roomForAll (x : Nat) (ts : List Token) (s : State) : Bool := (sendAll x 0 ts s).1.isEmpty

/-- An operator sends tokens in order. -/
def operSend (x o : Nat) (ts : List Token) (s : State) : State := ts.foldl (fun t k => emit x (fabricUnit x (16 + o)) k t) s

/-- A token of an operator on a destination; none where it is not valid. -/
def operOut (d : BitVec 16) (t : Token) : List Token := if dstValid d then [t.toward d] else []

/-- Takes the first token of an input. -/
def Oper.take (v : Oper) (i : Nat) : Oper := { v with inputs := Table.set i ((Table.getD v.inputs i []).drop 1) v.inputs }

/-- The first token of an input. -/
def Oper.head (v : Oper) (i : Nat) : Option Token := (Table.getD v.inputs i []).head?

/-! ## Memory accesses of fabric units -/

/-- The bits 31:15 of W1 of a fault record for a fabric unit (R272). -/
def fabricAgent (x agent : Nat) : Nat :=
  stripeDie x * 2 ^ 29 + x / 16 % 4 * 2 ^ 27 + x % 16 * 2 ^ 23 + agent * 2 ^ 18

/-- The partition and launch of a stripe's run. -/
def stripePart (s : State) (x : Nat) : Option (Nat × Nat) :=
  (s.runOf x).bind (fun p => (Table.find p.2.launch s.launches).map (fun v => (v.part, p.2.launch)))

/-- A memory cause of a fabric unit at an offset of a stripe or ring buffer (R325). -/
def bufferTrap (x agent slot : Nat) (t : Token) (cause off : Nat) (s : State) : State := fabricTrap x agent slot t.tag cause (w64 off) [] s

/-- A memory cause of a fabric unit, with its virtual address (R325): a MEMERR there makes a replica location fail (R356). -/
def memTrap (x agent slot : Nat) (t : Token) (cause : Nat) (va : Word) (s : State) : State :=
  fabricTrap x agent slot t.tag cause va []
    (if cause = cMEMERR then (match stripePart s x with | some (part, _) => noteMemerr part va s | none => s) else s)

/-- Translates an access of n bytes within a page by a fabric unit: PROT and MEMERR trap, and a replayable fault stalls the unit or, in mode 0, traps
PGFAULT (R101, R216, R272, R273). -/
def fabricTranslate (x agent slot : Nat) (t : Token) (va : Word) (n : Nat) (c : Cls) (s : State) : Got Nat :=
  match stripePart s x with
  | none => .stop s
  | some (part, l) =>
    match translateSpan s part va n c with
    | (.ok pa, s1) => .ok pa s1
    | (.prot, s1) => .stop (memTrap x agent slot t cPROT (protAt s part va n) s1)
    | (.memerr, s1) => .stop (memTrap x agent slot t cMEMERR va s1)
    | (.fault reason level, s1) =>
      let fm := match Table.find l s1.launches with | some v => v.fmode | none => 0
      if fm = 0 then .stop (memTrap x agent slot t cPGFAULT va s1) else
      let die := match s1.runOf x with | some (_, _) => stripeDie x | none => 0
      let who : FaultAgent := if agent < 16 then .elem x agent else .oper x (agent - 16)
      .stop { s1 with faults := s1.faults ++ [⟨l, die, who, va.toNat, reason, level, c.code, fabricAgent x agent, none⟩] }

/-- A fabric unit is stalled on the fault service. -/
def fabricStalled (s : State) (who : FaultAgent) : Bool := s.faults.any (fun f => f.agent == who)

/-- An aligned access of an operator to a virtual address. -/
def operTranslate (x o slot : Nat) (t : Token) (va : Word) (align : Nat) (c : Cls) (s : State) : Got Nat :=
  if va.toNat % align ≠ 0 then .stop (memTrap x (16 + o) slot t cALIGN va s) else fabricTranslate x (16 + o) slot t va 1 c s

/-- What an operator's reads for a token are ordered after, and what its phase has fixed for them (R286, R291, R292). -/
def operSight (s : State) (x o : Nat) (t : Token) : View × Table Byte :=
  match s.oper? x o with
  | some v => (v.view.join t.after, keepFixed s v.view (v.view.join t.after) v.fixed)
  | none => (t.after, [])

/-- The contents of units that a read by an operator takes, each at one instant, with what they bring. -/
def operUnits (owner : Nat) (sight : View × Table Byte) : List Nat → State → List (Nat × List Byte × View) × State
  | [], s => ([], s)
  | u :: t, s =>
    let cands := unitChoices s sight.1 (owner + 1) sight.2 u
    let (i, s1) := choose cands.length s
    let (vs, s2) := operUnits owner sight t s1
    ((u, nth cands i ([], View.zero)) :: vs, s2)

/-- An ordinary read by an operator of on-device bytes: values its phase has fixed unless the token orders it after a later
write (R286, R287, R291), else the contents at one instant. -/
def operOrdinary (x o : Nat) (t : Token) (pa n : Nat) (s : State) : List Byte × State :=
  let sight := operSight s x o t
  let (us, s1) := operUnits (s.ownerOf x o) sight (words8 pa n) s
  let got := (List.range n).map (fun i =>
    let a := pa + i
    (Table.find a sight.2).getD (nth (Table.getD us (a / 8) ([], View.zero)).1 (a % 8) 0))
  let brought := us.foldl (fun v u => v.join u.2.2) View.zero
  (got, s1.mapOper x o (fun v => { v with
    view := v.view.join brought
    fixed := (List.range n).foldl (fun f i => Table.set (pa + i) (nth got i 0) f) v.fixed }))

/-- Reads n bytes of translated memory for an operator (R101, R368, R376). -/
def operRead (x o slot : Nat) (t : Token) (pa n : Nat) (va : Word) (s : State) : Got (List Byte) :=
  match locOf pa with
  | .host a =>
    let (k, s1) := draw (sendTlp (.read ((stripePart s x).map (·.1) |>.getD mgmtPart) a n) s)
    if Config.hostError k then .stop (memTrap x (16 + o) slot t cMEMERR va s1) else
    let held := (operSight s x o t).2
    let got := (List.range n).map (fun i => (Table.find (pa + i) held).getD (Config.hostByte k (a + i)))
    .ok got (s1.mapOper x o (fun v => { v with fixed := (List.range n).foldl (fun f i => Table.set (pa + i) (nth got i 0) f) v.fixed }))
  | .umeno _ _ => .stop (memTrap x (16 + o) slot t cPROT va s)
  | .reserved => .stop (memTrap x (16 + o) slot t cPROT va s)
  | _ =>
    let s1 := settleLines pa n s
    if readFails s1 pa n then .stop (memTrap x (16 + o) slot t cMEMERR va s1) else
    let (bs, s2) := operOrdinary x o t pa n s1
    .ok bs s2

/-- Writes bytes of translated memory for an operator; a write of its own ends what its reads had fixed. -/
def operWrite (x o slot : Nat) (t : Token) (pa : Nat) (data : List Byte) (va : Word) (s : State) : Got Unit :=
  let written := fun (v : Oper) => { v with fixed := v.fixed.filter (fun f => !(decide (pa ≤ f.1) && decide (f.1 < pa + data.length))) }
  match locOf pa, stripePart s x with
  | .host _, some (part, l) => .ok () ((toHost (l + 1) (s.ownerOf x o + 1) part pa data s).mapOper x o written)
  | .umeno e off, some (part, l) =>
    match windowTarget s part e off with
    | some (st, remote) => .ok () (windowSend (s.ownerOf x o) (l + 1) part st remote va data none false s)
    | none => .stop (memTrap x (16 + o) slot t cPROT va s)
  | .hbm _ _, some (_, l) | .dsm _ _, some (_, l) =>
    let s1 := settleLines pa data.length s
    match pokeOk (l + 1) (s1.ownerOf x o + 1) pa data s1 with
    | some s2 => .ok () (s2.mapOper x o written)
    | none => .stop (memTrap x (16 + o) slot t cMEMERR va s1)
  | _, _ => .stop (memTrap x (16 + o) slot t cPROT va s)

/-! ## Stripe and ring buffers (R252 to R254, R277) -/

/-- A read of n bytes meets a unit in error; space 1 stripe buffers, 2 ring buffers. -/
def bufferFails (s : State) (space a n : Nat) (whole : Bool) : Bool :=
  (words8 a n).any (fun u => s.errors.contains (space, 8 * u) && !(whole && decide (a ≤ 8 * u) && decide (8 * u + 8 ≤ a + n)))

/-- Reads bytes of the stripe buffers (space 1) or ring buffers (space 2). -/
def bufferRead (s : State) (space a n : Nat) : List Byte :=
  (List.range n).map (fun i => cellGet 0 (a + i) (if space = 1 then s.stripeBuf else s.ringBuf))

/-- Writes bytes of them; an error of a unit covered whole is cleared. -/
def bufferWrite (space a : Nat) (data : List Byte) (s : State) : State :=
  let put := fun (m : List Host.Cell) => (List.range data.length).foldl (fun c i => cellPut 0 (a + i) (nth data i 0) c) m
  let s1 := { s with errors := s.errors.filter (fun e => !(e.1 == space && decide (a ≤ e.2) && decide (e.2 + 8 ≤ a + data.length))) }
  if space = 1 then { s1 with stripeBuf := put s1.stripeBuf } else { s1 with ringBuf := put s1.ringBuf }

/-- The ring window of a launch on a ring: first byte in the ring's buffer, and size (R254). -/
def ringWindow (v : Launch) (ring : Nat) : Nat × Nat :=
  let lo := max v.xbase (16 * ring)
  let hi := min (v.xbase + v.xext) (16 * ring + 16)
  ((lo - 16 * ring) * 262144, (hi - lo) * 262144)

end Sys2Proof.Machine
end

