-- ==== Sys2Proof/Machine/Graph.lean ====
section
/-!
DEFINITION. The graph of a segment's destinations, and every check that SEGLD makes of a configuration (R23, R26, R78, R80, R90,
R99, R103, R109, R114, R187, R195, R196, R213, R305, R400).
-/

namespace Sys2Proof.Machine

open Sys2Proof

/-! ## Destinations -/

/-- A sender: virtual stripe, element or operator slot plus 16, instruction slot (0 for an operator). -/
structure Sender where
  vs   : Nat
  unit : Nat
  slot : Nat
  deriving DecidableEq, Repr

/-- An input: virtual stripe, target, slot or operator input number, port. -/
structure Port where
  vs   : Nat
  tgt  : Nat
  slot : Nat
  port : Nat
  deriving DecidableEq, Repr

/-- The unit that has an input, as a sender. -/
def Port.unit (p : Port) : Sender := ⟨p.vs, p.tgt, if p.tgt < 16 then p.slot else 0⟩

/-- The two destination fields of an element instruction. -/
def slotDests (im : ElemImage) (slot : Nat) : List (BitVec 16) :=
  match (slotInstr im slot).bind elemWord with
  | some w => [w.dst1, w.dst2]
  | none => []

/-- Senders of a virtual stripe with their destination fields, in the order of R26. -/
def stripeSenders (k : Nat) (im : StripeImage) : List (Sender × List (BitVec 16)) :=
  im.elems.flatMap (fun e => e.2.slots.map (fun sl => (⟨k, e.1, sl.1⟩, slotDests e.2 sl.1)))
    ++ im.ops.map (fun o => (⟨k, 16 + o.1, 0⟩, [o.2.out0, o.2.out1]))

/-- Every sender of a segment. -/
def senders (img : SegImage) : List (Sender × List (BitVec 16)) :=
  (img.stripes.zipIdx).flatMap (fun p => stripeSenders p.2 p.1)

/-- The virtual stripe at index k. -/
def SegImage.stripeAt (img : SegImage) (k : Nat) : Option StripeImage := img.stripes[k]?

/-- The input that a valid destination of virtual stripe k names (R21, R196); none where the virtual stripe does not exist. -/
def portOf (img : SegImage) (k : Nat) (d : BitVec 16) : Option Port :=
  let v := img.stripes.length
  let k2 := if img.pinned then (k + dstSoff d) % max v 1 else k + dstSoff d
  if k2 < v then some ⟨k2, dstTarget d, dstSlot d, dstPort d⟩ else none

/-- Inputs of a kind of operator (R100). -/
def opInputs (kind : Nat) : Nat :=
  match kind with
  | 0x0 => 1 | 0x4 => 1 | 0x6 => 3 | 0x7 => 8
  | k => if k < 12 then 2 else 0

/-- ARITY of an element instruction. -/
def arityOf (i : Instr) : Nat :=
  match elemWord i with
  | some w => w.arity.toNat
  | none => 0

/-- An input names a slot that takes tokens on the port, or an input that the operator's kind has (R26, R78, R80, R100). -/
def portOk (img : SegImage) (p : Port) : Bool :=
  match img.stripeAt p.vs with
  | none => false
  | some im =>
    if p.tgt < 16 then
      match (Table.find p.tgt im.elems).bind (fun e => slotInstr e p.slot) with
      | some i => !initialForm i && (p.port == 0 || arityOf i != 1)
      | none => (match (Table.find p.tgt im.elems).bind (fun e => Table.find p.slot e.slots) with
        | some w => p.port == 0 || bits w.toNat 119 118 != 1
        | none => false)
    else
      match Table.find (p.tgt - 16) im.ops with
      | some o => p.port == 0 && decide (p.slot < opInputs o.kind)
      | none => false

/-- A destination field of virtual stripe k is legal. -/
def destLegal (img : SegImage) (k : Nat) (d : BitVec 16) : Bool :=
  if !dstValid d then d == 0 else dstOk d && (match portOf img k d with | some p => portOk img p | none => false)

/-- The operator of virtual stripe k in a slot. -/
def SegImage.opAt (img : SegImage) (k o : Nat) : Option OpImage := (img.stripeAt k).bind (fun im => Table.find o im.ops)

/-- The distance DX at which OUT1 of a SEND to another stripe buffer is interpreted (R107); 0 for every other destination. -/
def sendShift (img : SegImage) (u : Sender) (i : Nat) : Int :=
  if u.unit < 16 ∨ i ≠ 1 then 0 else
  match img.opAt u.vs (u.unit - 16) with
  | some o => if o.kind = 4 ∧ bits o.p0.toNat 16 16 = 0 then signed 8 (bits o.p0.toNat 27 20) else 0
  | none => 0

/-- The virtual stripe from which destination i of a unit counts: its own, or for OUT1 of a SEND the destination stripe's (R107), where it
lies in the segment. -/
def destStripe (img : SegImage) (u : Sender) (i : Nat) : Option Nat :=
  let k : Int := u.vs + sendShift img u i
  if 0 ≤ k ∧ k < img.stripes.length then some k.toNat else none

/-- A segment whose virtual stripes stand side by side in every run: a pinned one, and one of at most 4 virtual stripes, which every partition
holds at once (R157, R197). -/
def SegImage.settled (img : SegImage) : Bool := img.pinned || decide (img.stripes.length ≤ 4)

/-- The virtual stripe k + 1 stands beside k in every run: a run on P stripes, P from 4 to 512, loads vs(k) at steps g V + k for g = 0, 1, …, and the
stripe to the right of p(P - 1) is none of its own (R157, R197). -/
def SegImage.beside (img : SegImage) (k : Nat) : Bool :=
  let n := img.stripes.length
  decide (k + 1 < n) && (List.range 8).all (fun c => decide (n ≤ 4 * 2 ^ c) || (k + 1) % Nat.gcd n (4 * 2 ^ c) != 0)

/-- Destination i of a unit is legal.  That of a SEND to another stripe is judged in the configuration there where the segment alone settles
which that is; else by its own bits (DEDUCED, log 55). -/
def destOk (img : SegImage) (u : Sender) (i : Nat) (d : BitVec 16) : Bool :=
  if sendShift img u i = 0 then destLegal img u.vs d else
  match (if img.settled || (sendShift img u i == 1 && img.beside u.vs) then destStripe img u i else none) with
  | some k => destLegal img k d
  | none => if !dstValid d then d == 0 else dstOk d

/-- The inputs that a sender's destinations name, each with the place of the destination. -/
def targetsAt (img : SegImage) (s : Sender × List (BitVec 16)) : List (Nat × Port) :=
  s.2.zipIdx.flatMap (fun d =>
    if dstValid d.1 then
      (match (destStripe img s.1 d.2).bind (fun k => portOf img k d.1) with | some p => [(d.2, p)] | none => [])
    else [])

/-- The inputs that a sender's destinations name. -/
def targets (img : SegImage) (s : Sender × List (BitVec 16)) : List Port := (targetsAt img s).map (·.2)

/-- Every input that a destination names. -/
def namedPorts (img : SegImage) : List Port := (senders img).flatMap (targets img)

/-! ## Operators -/

/-- The parameter words. -/
def OpImage.params (o : OpImage) : List Nat :=
  [o.p0.toNat, o.p1.toNat, o.p2.toNat, o.p3.toNat, o.p4.toNat, o.p5.toNat, o.p6.toNat, o.p7.toNat]

/-- Bits hi:lo of parameter word i. -/
def OpImage.field (o : OpImage) (i hi lo : Nat) : Nat := bits (nth o.params i 0) hi lo

/-- The parameter words from i on are zero. -/
def OpImage.zeroFrom (o : OpImage) (i : Nat) : Bool := (o.params.drop i).all (· == 0)

/-- An AOP accepts a SIZE in an ATOMIC (R34, R106). -/
def atomicSizeOk (aop size : Nat) : Bool :=
  if 1 ≤ aop ∧ aop ≤ 9 then size == 2 || size == 3 else if aop = 11 then size == 2 else if aop = 12 then size == 1 else false

/-- The parameters and destinations of an operator are legal by themselves (R103 to R114). -/
def opLegal (o : OpImage) : Bool :=
  let f := o.field
  match o.kind with
  | 0x0 => !dstValid o.out1 && f 2 63 33 == 0 && f 2 31 0 != 0 && o.zeroFrom 3
  | 0x1 => f 0 63 24 == 0 && f 0 15 12 == 0 && f 0 3 3 == 0 && decide (f 0 11 8 ≤ 8) && decide (f 0 2 0 ≤ 3) && f 1 63 13 == 0
      && decide (1 ≤ f 1 12 0) && decide (f 1 12 0 ≤ 4096) && o.zeroFrom 3
      && (f 0 6 6 == 0 || (dstValid o.out0 && decide (dstTarget o.out0 < 16)))
  | 0x2 => !dstValid o.out0 && f 0 63 24 == 0 && f 0 15 12 == 0 && f 0 7 6 == 0 && f 0 3 3 == 0 && decide (f 0 11 8 ≤ 8)
      && decide (f 0 2 0 ≤ 3) && f 1 63 0 == 0 && o.zeroFrom 3
  | 0x3 => f 0 63 24 == 0 && f 0 19 15 == 0 && f 0 4 3 == 0 && f 0 2 0 == 2 && decide (f 0 23 20 ≤ 8) && decide (3 ≤ f 0 13 11)
      && decide (f 0 13 11 ≤ 5) && atomicSizeOk (f 0 8 5) (f 0 10 9) && (f 0 8 5 != 9 || f 0 14 14 == 1) && o.zeroFrom 2
  | 0x4 => f 0 63 28 == 0 && f 0 19 17 == 0 && f 0 2 0 == 7 && o.zeroFrom 4
  | 0x5 => f 0 63 1 == 0 && o.zeroFrom 2
  | 0x6 => !dstValid o.out0 && f 0 63 0 == 0 && o.zeroFrom 2
  | 0x7 => !dstValid o.out1 && f 0 63 8 == 0 && f 0 7 0 != 0 && o.zeroFrom 1
  | 0x8 => !dstValid o.out1 && f 0 63 32 == 0 && f 0 15 7 == 0 && f 0 5 4 != 3 && decide (f 0 3 0 ≤ 10) && o.zeroFrom 1
  | 0x9 => f 0 63 28 == 0 && f 0 3 1 == 0 && f 0 27 16 != 0
      && decide (f 0 15 4 + f 0 27 16 ≤ (if f 0 0 0 = 0 then 2048 else 1024)) && o.zeroFrom 1
  | 0xA => !dstValid o.out1 && f 0 63 1 == 0 && o.zeroFrom 1
  | 0xB => !dstValid o.out1 && f 1 63 17 == 0 && decide (1 ≤ f 1 15 0) && decide (f 1 15 0 ≤ 4096) && o.zeroFrom 2
  | _ => false

/-- The feature bit that gates a type code (R400). -/
def codeFeature (c : Nat) : List Nat := if c = 0xD then [3] else if c = 0xB ∨ c = 0xC then [4] else []

/-- The feature bits that gate an element instruction (R400). -/
def slotFeatures (i : Instr) : List Nat :=
  match i with
  | .mmaF4 _ => [3]
  | .mmaF8 _ => [4]
  | .mmg w => (match bits w.imm.toNat 5 4 with | 1 => [3] | 2 => [4] | _ => [])
  | .tcfg w | .afmt w | .wlatch w => codeFeature w.rt.toNat
  | .cvt w => codeFeature (bits w.imm.toNat 7 4) ++ codeFeature (bits w.imm.toNat 3 0)
  | _ => []

/-- The feature bits that gate an operator kind (R400). -/
def kindFeatures (kind : Nat) : List Nat := if kind = 5 ∨ kind = 6 then [1] else if kind = 11 then [2] else []

/-- A feature is in an accepted set. -/
def accepted (set : List Word) (b : Nat) : Bool := (nth set (b / 64) 0).getLsbD (b % 64)

/-! ## Failures -/

/-- A failing instruction: where, and the error. -/
abbrev Failure := Sender × Nat

/-- The failures of one element of virtual stripe k by itself (R26, R78, R213, R400). -/
def elemFailures (set : List Word) (k e : Nat) (im : ElemImage) : List Failure :=
  (if bits im.policy.toNat 63 32 = 0 then [(⟨k, e, 0⟩, cILLOP)] else [])
    ++ (match im.weights with
        | some w => if (codeFeature w.fmt).all (accepted set) then [] else [(⟨k, e, 0⟩, cFEATOFF)]
        | none => [])
    ++ im.slots.flatMap (fun sl =>
        match decodeElem sl.2.toNat with
        | none => [(⟨k, e, sl.1⟩, cILLOP)]
        | some i =>
          (if elemLegal i then [] else [(⟨k, e, sl.1⟩, cILLOP)])
            ++ (if (slotFeatures i).all (accepted set) then [] else [(⟨k, e, sl.1⟩, cFEATOFF)]))

/-- The failures of the operators of virtual stripe k by themselves. -/
def operFailures (set : List Word) (k : Nat) (im : StripeImage) : List Failure :=
  im.ops.flatMap (fun o =>
    (if opLegal o.2 then [] else [(⟨k, 16 + o.1, 0⟩, cILLOP)])
      ++ (if (kindFeatures o.2.kind).all (accepted set) then [] else [(⟨k, 16 + o.1, 0⟩, cFEATOFF)]))

/-- Illegal destinations. -/
def destFailures (img : SegImage) : List Failure :=
  (senders img).flatMap (fun s => if s.2.zipIdx.all (fun d => destOk img s.1 d.2 d.1) then [] else [(s.1, cILLOP)])

/-- The sender that would need a 65th pass register of virtual stripe k fails with ILLOP: the spec rejects such a stripe and gives no error
and no place (R23; DESIGN CHOICE, log 44). -/
def passFailures (k : Nat) (im : StripeImage) : List Failure :=
  let r := (stripeSenders k im).foldl (fun (acc : List Nat × List Failure) s =>
    s.2.foldl (fun (a : List Nat × List Failure) d =>
      let key := bits d.toNat 12 3
      if dstValid d && dstSoff d != 0 && !a.1.contains key then
        (key :: a.1, if a.1.length = 64 then a.2 ++ [(s.1, cILLOP)] else a.2)
      else a) acc) ([], [])
  r.2

/-- SPACE 3 with FIFO 0, the burst source of vs0 or burst sink of vs(V−1) (R187). -/
def burstEnd (kind : Nat) (o : OpImage) : Bool := o.kind == kind && o.field 0 2 0 == 3 && o.field 0 23 16 == 0

/-- A second burst source or burst sink (R187). -/
def burstFailures (img : SegImage) : List Failure :=
  let more := fun (k kind : Nat) =>
    match img.stripeAt k with
    | some im => ((im.ops.filter (fun o => burstEnd kind o.2)).drop 1).map (fun o => ((⟨k, 16 + o.1, 0⟩ : Sender), cILLOP))
    | none => []
  more 0 1 ++ more (img.stripes.length - 1) 2

/-- JOIN inputs selected that no destination names (R109). -/
def joinFailures (img : SegImage) : List Failure :=
  let named := namedPorts img
  (senders img).flatMap (fun s =>
    match img.opAt s.1.vs (s.1.unit - 16) with
    | some o =>
      if 16 ≤ s.1.unit ∧ o.kind = 7 ∧
          (List.range 8).any (fun i => bit o.p0.toNat i && !named.contains ⟨s.1.vs, s.1.unit, i, 0⟩) = true
      then [(s.1, cILLOP)] else []
    | none => [])

/-- Levels of the AGEN chain from an operator on, up to the fuel (R103). -/
def chainLength (img : SegImage) : Nat → Nat → Nat → Nat
  | 0, _, _ => 0
  | n + 1, k, o =>
    match img.opAt k o with
    | some op =>
      if op.kind ≠ 0 then 0 else
      match (if dstValid op.out0 then portOf img k op.out0 else none) with
      | some p => if 16 ≤ p.tgt ∧ p.slot = 0 then 1 + chainLength img n p.vs (p.tgt - 16) else 1
      | none => 1
    | none => 0

/-- AGEN chains of more than 8 levels. -/
def chainFailures (img : SegImage) : List Failure :=
  (senders img).flatMap (fun s =>
    if 16 ≤ s.1.unit ∧ 8 < chainLength img 9 s.1.vs (s.1.unit - 16) then [(s.1, cILLOP)] else [])

/-! ## MMG rectangles (R97, R99) -/

/-- The parameters of an MMG word: WKIND, node, E, PAIR, MEMBER. -/
structure MmgParams where
  wkind  : Nat
  node   : Nat
  ext    : Nat
  pair   : Bool
  member : Bool
  deriving DecidableEq, Repr

/-- Of an instruction that is an MMG. -/
def mmgParams (i : Instr) : Option MmgParams :=
  match i with
  | .mmg w =>
    let v := w.imm.toNat
    some ⟨bits v 5 4, bits v 1 0, 2 ^ bits v 10 8, bit v 11, bit v 12⟩
  | _ => none

/-- The instruction of a slot of a segment. -/
def SegImage.slotAt (img : SegImage) (k e slot : Nat) : Option Instr :=
  ((img.stripeAt k).bind (fun im => Table.find e im.elems)).bind (fun el => slotInstr el slot)

/-- The participants of an origin other than itself: stripe offset and element. -/
def mmgOthers (e : Nat) (p : MmgParams) : List (Nat × Nat) :=
  ((if p.pair then [0, 1] else [0]).flatMap (fun so => (List.range p.ext).map (fun i => (so, e + i)))).filter (fun m => m != (0, e))

/-- The senders that hold an MMG. -/
def mmgSlots (img : SegImage) : List (Sender × MmgParams) :=
  (senders img).filterMap (fun s => ((img.slotAt s.1.vs s.1.unit s.1.slot).bind mmgParams).map (fun p => (s.1, p)))

/-- An origin is aligned and each participant holds the matching member. -/
def originOk (img : SegImage) (s : Sender) (p : MmgParams) : Bool :=
  s.unit % p.ext == 0 && (!p.pair || (s.vs % 2 == 0 && decide (s.vs + 1 < img.stripes.length)))
    && (mmgOthers s.unit p).all (fun m =>
      (img.slotAt (s.vs + m.1) m.2 s.slot).bind mmgParams == some { p with member := true })

/-- The MMG failures of R99.  A participant whose slot does not hold the matching MMG is reported at the origin's element and slot (DESIGN CHOICE,
log 44). -/
def mmgFailures (img : SegImage) : List Failure :=
  let all := mmgSlots img
  let origins := all.filter (fun m => !m.2.member)
  let covered := origins.flatMap (fun m =>
    if originOk img m.1 m.2 then (mmgOthers m.1.unit m.2).map (fun o => (⟨m.1.vs + o.1, o.2, m.1.slot⟩ : Sender)) else [])
  all.flatMap (fun m =>
    if m.2.member then (if covered.contains m.1 then [] else [(m.1, cILLOP)])
    else if originOk img m.1 m.2 then [] else [(m.1, cILLOP)])

/-! ## Cycles and LOOP bodies (R195, R305) -/

/-- The kind of the operator that has an input. -/
def kindAt (img : SegImage) (p : Port) : Option Nat := if p.tgt < 16 then none else (img.opAt p.vs (p.tgt - 16)).map (·.kind)

/-- Inputs left out of the cycle graph: input 1 of a LOAD and of a ROUTE. -/
def returnPort (img : SegImage) (p : Port) : Bool :=
  p.slot == 1 && (kindAt img p == some 1 || kindAt img p == some 11)

/-- The units that a unit's destinations lead to in the cycle graph. -/
def successors (img : SegImage) (all : List (Sender × List (BitVec 16))) (u : Sender) : List Sender :=
  (all.filter (fun s => s.1 == u)).flatMap (fun s => ((targets img s).filter (fun p => !returnPort img p)).map (·.unit))

/-- Adds to a list what is new. -/
def addNew {α : Type} [DecidableEq α] (new seen : List α) : List α := new.foldl (fun l x => if l.contains x then l else l ++ [x]) seen

/-- Everything reached from a list in at most n rounds. -/
def closure {α : Type} [DecidableEq α] (next : α → List α) : Nat → List α → List α
  | 0, seen => seen
  | n + 1, seen => closure next n (addNew (seen.flatMap next) seen)

/-- A unit lies on a cycle. -/
def onCycle (img : SegImage) (all : List (Sender × List (BitVec 16))) (u : Sender) : Bool :=
  (closure (successors img all) all.length (successors img all u)).contains u

/-- Failures of a scroll segment: a LOOP, and the first unit on a cycle (R195). -/
def scrollFailures (img : SegImage) : List Failure :=
  let all := senders img
  let loops := all.filter (fun s => decide (16 ≤ s.1.unit) && (img.opAt s.1.vs (s.1.unit - 16)).map (·.kind) == some 9)
  loops.map (fun s => (s.1, cILLOP)) ++ ((all.filter (fun s => onCycle img all s.1)).take 1).map (fun s => (s.1, cILLOP))

/-- The inputs that the unit of an input sends to. -/
def onward (img : SegImage) (all : List (Sender × List (BitVec 16))) (p : Port) : List Port :=
  (all.filter (fun s => s.1 == p.unit)).flatMap (targets img)

/-- The body of a LOOP operator (R305). -/
def loopBody (img : SegImage) (k o : Nat) : List Port :=
  let all := senders img
  let gate : Port := ⟨k, 16 + o, 1, 0⟩
  let starts := match img.opAt k o with
    | some op => if dstValid op.out0 then (match portOf img k op.out0 with | some p => [p] | none => []) else []
    | none => []
  let next := fun (p : Port) => if p = gate then [] else (onward img all p).filter (fun q => q != gate)
  closure next all.length (starts.filter (fun q => q != gate))

/-- The LOOP operators of a segment. -/
def loopsOf (img : SegImage) : List (Nat × Nat) :=
  (senders img).filterMap (fun s =>
    if 16 ≤ s.1.unit ∧ (img.opAt s.1.vs (s.1.unit - 16)).map (·.kind) = some 9 then some (s.1.vs, s.1.unit - 16) else none)

/-- An input is input 1 of a LOOP. -/
def loopExitPort (img : SegImage) (p : Port) : Bool := p.slot == 1 && kindAt img p == some 9

/-- Failures of the LOOPs of a pinned segment (R305): a destination from outside a body into it other than OUT0 of the LOOP, and an input on
a cycle that is in no body. -/
def loopFailures (img : SegImage) : List Failure :=
  let all := senders img
  let bodies := (loopsOf img).map (fun l => (l, loopBody img l.1 l.2))
  let entering := bodies.flatMap (fun b =>
    all.flatMap (fun s =>
      let own := s.1 == ⟨b.1.1, 16 + b.1.2, 0⟩
      let inside := b.2.any (fun p => p.unit == s.1)
      if !inside && (targetsAt img s).any (fun p => b.2.contains p.2 && !(own && p.1 == 0)) then [(s.1, cILLOP)] else []))
  let stray := all.flatMap (fun s =>
    (targets img s).flatMap (fun p =>
      if onCycle img all p.unit && (closure (successors img all) all.length (successors img all p.unit)).contains s.1
          && !returnPort img p && !loopExitPort img p && !bodies.any (fun b => b.2.contains p)
      then [(p.unit, cILLOP)] else []))
  entering ++ stray

/-! ## The result -/

/-- Every failure of a segment under an accepted set. -/
def segFailures (set : List Word) (img : SegImage) : List Failure :=
  (img.stripes.zipIdx).flatMap (fun p =>
      p.1.elems.flatMap (fun e => elemFailures set p.2 e.1 e.2) ++ operFailures set p.2 p.1 ++ passFailures p.2 p.1)
    ++ destFailures img ++ burstFailures img ++ joinFailures img ++ chainFailures img ++ mmgFailures img
    ++ (if img.pinned then loopFailures img else scrollFailures img)

/-- The order of R26.  Of the errors of one instruction the lowest code comes first, so ILLOP before FEATOFF: the spec orders instructions
only (R26, R78; DESIGN CHOICE, log 44). -/
def Failure.key (f : Failure) : Nat := ((f.1.vs * 64 + f.1.unit) * 16 + f.1.slot) * 256 + f.2

/-- The first failure in the order of R26. -/
def firstFailure (fs : List Failure) : Option Failure :=
  fs.foldl (fun best f =>
    match best with
    | none => some f
    | some b => if f.key < b.key then some f else some b) none

/-- ARG1 of a SEGLD record for a failure (R152). -/
def Failure.arg1 (f : Failure) : Word := w64 (f.1.slot * 2 ^ 24 + f.1.unit * 2 ^ 16 + f.1.vs)

/-- The check of a configuration: status and ARG1 (R26, R156). -/
def checkSegment (set : List Word) (img : SegImage) : Nat × Word :=
  match firstFailure (segFailures set img) with
  | none => (0, 0)
  | some f => (f.2, f.arg1)

/-! ## Sizes (R205, R210, R397) -/

/-- Decoded size of a virtual stripe's configuration (R205). -/
def decodedSize (im : StripeImage) : Nat :=
  128 + 16 * (im.elems.map (fun e => e.2.slots.length)).sum + 2752 * (im.elems.filter (fun e => e.2.weights.isSome)).length
    + 80 * im.ops.length

/-- State of an operator (R205). -/
def operStateSize (o : OpImage) : Nat := if o.kind = 11 then 128 + 16 * o.field 1 15 0 else 128

/-- The largest R of any ACFG that names a node in an element; 0 where none does (R210). -/
def nodeRows (im : ElemImage) (j : Nat) : Nat :=
  im.slots.foldl (fun m sl =>
    match decodeElem sl.2.toNat with
    | some (.acfg w) => if bits w.imm.toNat 1 0 = j then max m (bits w.imm.toNat 16 8) else m
    | _ => m) 0

/-- The largest state of a stateful virtual stripe (R205, R210). -/
def maxState (im : StripeImage) : Nat :=
  match im.stateful with
  | none => 0
  | some live =>
    (im.elems.map (fun e => ((List.range 4).map (fun j => let r := nodeRows e.2 j; if r = 0 then 0 else 64 + 80 * r)).sum)).sum
      + (im.ops.map (fun o => operStateSize o.2)).sum + 256 * live.length

/-- S_max of a segment (R210). -/
def stateBound (img : SegImage) : Nat := 384 * img.stripes.length + (img.stripes.map maxState).sum

/-- The floor of R397 for weights of a format. -/
def weightFloor (fmt : Nat) : Nat := match fmt with | 0xE => 40 | 0xD => 45 | 0xB => 50 | 0xC => 50 | _ => 55

/-- The device's bound on the energy per wave of a virtual stripe (R397). -/
def epwBound (im : StripeImage) : Nat :=
  100 + (im.elems.map (fun e => (if e.2.slots.isEmpty then 0 else 20) + (match e.2.weights with | some w => weightFloor w.fmt | none => 0))).sum
    + (im.ops.map (fun o => if 1 ≤ o.2.kind ∧ o.2.kind ≤ 6 then 40 else 10)).sum

/-- The energy per wave after SEGLD's check (R396). -/
def energyPerWave (im : StripeImage) : Nat := max im.epw.toNat (epwBound im)

end Sys2Proof.Machine
end

