-- ==== Sys2Proof/Machine/Frame.lean ====
section
/-!
DEFINITION. The arrival of tokens (R38, R40, R204), the frame store with its spills (R214 to R216), end-of-stream at inputs (R217,
R305) and the crossing of tokens in a pinned segment (R196, R202).
-/

namespace Sys2Proof.Machine

open Sys2Proof

/-! ## End-of-stream at an input -/

/-- An input of a unit as a number: slot (or operator input) and port. -/
def inputCode (slot port : Nat) : Nat := 2 * slot + port

/-- The end-of-stream tokens that an input receives: one from each element that names it, one for each operator output other than
a LOOP's OUT0, and one from the origin of an MMG member (R101, R217, R225, R305). -/
def eosNeeded (img : SegImage) (p : Port) : Nat :=
  let all := senders img
  let elems := (all.filter (fun s => decide (s.1.unit < 16) && (targets img s).contains p)).map (fun s => (s.1.vs, s.1.unit))
  let opers := (all.filter (fun s => decide (16 ≤ s.1.unit))).map (fun s =>
    let loop := (img.opAt s.1.vs (s.1.unit - 16)).map (·.kind) == some 9
    ((targetsAt img s).filter (fun d => !(loop && d.1 == 0) && d.2 == p)).length)
  let member := match (img.slotAt p.vs p.tgt p.slot).bind mmgParams with | some m => ofBool m.member | none => 0
  (addNew elems []).length + opers.sum + (if p.tgt < 16 then member else 0)

/-- An input lies in the body of a LOOP (R305). -/
def inBody (img : SegImage) (p : Port) : Bool := (loopsOf img).any (fun l => (loopBody img l.1 l.2).contains p)

/-- The mark of a body input that its LOOP has ended. -/
def bodyMark : Nat := 1024

/-- An input has recorded end-of-stream. -/
def inputEnded (img : SegImage) (p : Port) (ended : List Nat) : Bool :=
  let c := inputCode p.slot p.port
  ended.contains (bodyMark + c) || (decide (0 < eosNeeded img p) && decide (eosNeeded img p ≤ (ended.filter (· == c)).length))

/-- The inputs of an element: the slot-ports that a destination names, and both ports of an MMG member (R217, R225). -/
def elemInputs (img : SegImage) (k e : Nat) : List Port :=
  let named := (namedPorts img).filter (fun p => p.vs == k && p.tgt == e)
  let members := ((mmgSlots img).filter (fun m => m.1.vs == k && m.1.unit == e && m.2.member)).flatMap (fun m =>
    [(⟨k, e, m.1.slot, 0⟩ : Port), ⟨k, e, m.1.slot, 1⟩])
  addNew (named ++ members) []

/-- The inputs of an operator that a destination names. -/
def operInputs (img : SegImage) (k o : Nat) : List Port :=
  addNew ((namedPorts img).filter (fun p => p.vs == k && p.tgt == 16 + o)) []

/-! ## The frame store (R214, R215) -/

/-- The frame of a token as a number, and the line that serves it. -/
def Token.frameOf (t : Token) : Nat := t.route.toNat * 2048 + t.frame.toNat
def Token.line (t : Token) : Nat := Nat.xor (t.frame.toNat % 64) (t.route.toNat * 8)

/-- The bytes of a spilled entry (R215). -/
def FrameEntry.bytes (e : Nat) (f : FrameEntry) : List Byte :=
  f.tok.bytes ++ leBytes 8 (e + f.slot * 16 + f.port.toNat * 256) ++ leBytes 8 f.seq

/-- Places of a stripe's frame entries, over its elements. -/
def placesUsed (s : State) (x : Nat) : List EntryPlace := (s.stripe x).elems.flatMap (fun e => e.2.frame.map (·.place))

/-- The lowest free place for a spill: the carve-out, then the overflow area (R215, R216). -/
def freePlace (s : State) (x : Nat) (r : Run) : Option EntryPlace :=
  let used := placesUsed s x
  match (List.range (128 * r.spill)).find? (fun i => !used.contains (.carveOut i)) with
  | some i => some (.carveOut i)
  | none =>
    if r.overflow = 0 then none else
    ((List.range 32768).find? (fun i => !used.contains (.overflow i))).map .overflow

/-- The offset in the stripe buffer of a carve-out place, and the virtual address of an overflow place. -/
def carveOffset (r : Run) (x i : Nat) : Nat := x * 262144 + 262144 - 4096 * r.spill + 32 * i
def overflowVa (r : Run) (x i : Nat) : Word := w64 (r.overflow + (x - r.xorig) * 2 ^ 20 + 32 * i)

/-- Replaces an entry of an element's frame store, found by its sequence number. -/
def placeEntry (x e : Nat) (f : FrameEntry) (s : State) : State :=
  s.mapElem x e (fun v => { v with frame := v.frame.map (fun g => if g.seq = f.seq then f else g) })

/-- Spills an entry (R215, R216). -/
def spillEntry (x e : Nat) (r : Run) (f : FrameEntry) (s : State) : Got Unit :=
  match freePlace s x r with
  | none => .stop (tokenTrap x e f.slot cTAGEXHAUST f.tok s)
  | some .resident => .ok () s
  | some (.carveOut i) =>
    let g := { f with place := .carveOut i }
    .ok () (placeEntry x e g (bufferWrite 1 (carveOffset r x i) (f.bytes e) s))
  | some (.overflow i) =>
    let va := overflowVa r x i
    (fabricTranslate x e f.slot f.tok va 32 .write s).bind (fun pa s1 =>
      match locOf pa with
      | .hbm _ _ | .dsm _ _ =>
        let s2 := settleLines pa 32 s1
        (match pokeOk (r.launch + 1) 0 pa (f.bytes e) s2 with
        | some s3 => .ok () (placeEntry x e { f with place := .overflow i } s3)
        | none => .stop (memTrap x e f.slot f.tok cMEMERR va s2))
      | _ => .stop (memTrap x e f.slot f.tok cPROT va s1))

/-- Reads an entry back: the token it held, or a free value where the overflow area was written (R215; log 4). -/
def readEntry (x e : Nat) (r : Run) (f : FrameEntry) (s : State) : Got Token :=
  match f.place with
  | .resident => .ok f.tok s
  | .carveOut i =>
    if bufferFails s 1 (carveOffset r x i) 32 false then .stop (bufferTrap x e f.slot f.tok cMEMERR (carveOffset r x i % 262144) s)
    else .ok f.tok s
  | .overflow i =>
    let va := overflowVa r x i
    (fabricTranslate x e f.slot f.tok va 32 .read s).bind (fun pa s1 =>
      match locOf pa with
      | .hbm _ _ | .dsm _ _ =>
        let s2 := settleLines pa 32 s1
        if readFails s2 pa 32 then .stop (memTrap x e f.slot f.tok cMEMERR va s2)
        else if peek s2 pa 32 = f.bytes e then .ok f.tok s2
        else
          let (k, s3) := draw s2
          .ok (Config.openToken k) s3
      | _ => .stop (memTrap x e f.slot f.tok cPROT va s1))

/-- Spills entries in order. -/
def spillAll (x e : Nat) (r : Run) : List FrameEntry → State → Got Unit
  | [], s => .ok () s
  | f :: fs, s => (spillEntry x e r f s).bind (fun _ s1 => spillAll x e r fs s1)

/-- Refills entries in order. -/
def refillAll (x e : Nat) (r : Run) : List FrameEntry → State → Got Unit
  | [], s => .ok () s
  | f :: fs, s =>
    (readEntry x e r f s).bind (fun t s1 => refillAll x e r fs (placeEntry x e { f with tok := t, place := .resident } s1))

/-- Entries by rising sequence number: the frame store keeps them so. -/
def entriesOf (el : Elem) (frame : Nat) (resident : Bool) : List FrameEntry :=
  el.frame.filter (fun f => f.tok.frameOf == frame && ((f.place == .resident) == resident))

/-- The line comes to serve the token's frame, with a free entry for it (R214). -/
def prepareLine (x e : Nat) (r : Run) (t : Token) (s : State) : Got Unit :=
  match s.elem? x e with
  | none => .ok () s
  | some el =>
    let served := match Table.find t.line el.lines with | some v => v.toNat | none => t.frameOf
    let others := if served = t.frameOf then [] else entriesOf el served true
    (spillAll x e r others s).bind (fun _ s1 =>
      let s2 := s1.mapElem x e (fun v => { v with lines := Table.set t.line (BitVec.ofNat 14 t.frameOf) v.lines })
      match s2.elem? x e with
      | none => .ok () s2
      | some v =>
        let spilled := entriesOf v t.frameOf false
        let free := 16 - (entriesOf v t.frameOf true).length
        (refillAll x e r (spilled.take free) s2).bind (fun _ s3 =>
          match s3.elem? x e with
          | none => .ok () s3
          | some w =>
            let here := entriesOf w t.frameOf true
            if here.length < 16 then .ok () s3 else spillAll x e r (here.take 1) s3))

/-- Puts a token into the frame store. -/
def keepToken (x e : Nat) (t : Token) (s : State) : State :=
  s.mapElem x e (fun v => { v with frame := v.frame ++ [⟨t, t.slot.toNat, t.port, v.seq, .resident⟩], seq := v.seq + 1 })

/-- A matched instance enters the ready queue (R38, R40). -/
def makeReady (x e : Nat) (i : Inst) (s : State) : State := s.mapElem x e (fun v => { v with ready := v.ready ++ [i] })

/-- A token arrives at a port of a slot with ARITY 0b10 (R214). -/
def matchToken (x e : Nat) (r : Run) (t : Token) (s : State) : Got Unit :=
  match s.elem? x e with
  | none => .ok () s
  | some el =>
    let same := fun (f : FrameEntry) => f.tok.frameOf == t.frameOf && f.slot == t.slot.toNat && f.tok.iter == t.iter
    match el.frame.find? (fun f => same f && f.port == t.port) with
    | some f => .ok () (fabricTrap x e t.slot.toNat t.tag cMATCHDUP 0 [f.tok, t] (keepToken x e t s))
    | none =>
      match el.frame.find? (fun f => same f && f.port != t.port) with
      | some f =>
        (readEntry x e r f s).bind (fun u s1 =>
          let inst : Inst := if t.port = 0 then ⟨t.slot.toNat, t, some u⟩ else ⟨t.slot.toNat, u, some t⟩
          .ok () (makeReady x e inst (s1.mapElem x e (fun v => { v with frame := v.frame.filter (fun g => g.seq != f.seq) }))))
      | none => (prepareLine x e r t s).bind (fun _ s1 => .ok () (keepToken x e t s1))

/-! ## Arrival -/

/-- Where a copy for an MMG member's slot waits among the member's tiles while its handle is on its way (R98, R224). -/
def copyKey (slot k : Nat) : Nat := 32 + 8 * slot + k

/-- The copies of an MMG origin reach the member's tiles with the handle (R98). -/
def landCopy (x e : Nat) (t : Token) (s : State) : State :=
  let k := t.value.toNat % 8
  let key := copyKey t.slot.toNat k
  s.mapElem x e (fun v =>
    match Table.find key v.tiles with
    | some tile => { v with tiles := Table.erase key (Table.set k tile v.tiles) }
    | none => v)

/-- The physical stripe of an MMG participant at stripe offset `so`. -/
def memberStripe (s : State) (x so : Nat) : Option Nat :=
  if so = 0 then some x else
  match s.runOf x, (s.stripe x).vs with
  | some (rid, _), some k => stripeOfVs s rid (k + so)
  | _, _ => none

/-- What goes to a participant is there at once, except toward the next stripe of a scroll segment (R98, R224). -/
def memberDirect (s : State) (x so : Nat) : Bool :=
  so == 0 || (match s.runOf x with | some (_, r) => r.image.pinned | none => true)

/-- An MMG origin delivers a token to a participant on stripe y, in order: at once, or as tokens toward the next stripe are (R202, R224). -/
def deliverMember (x e y : Nat) (tok : Token) (s : State) : State :=
  let so := tok.soff.toNat
  if memberDirect s x so then
    s.mapStripe y (fun v => { v with inbox := v.inbox ++ [⟨fabricUnit x e, { tok with soff := 0 }, so != 0⟩] })
  else
    let reg := 64 + tok.target.toNat
    s.mapStripe x (fun v => { v with pass := Table.set reg (Table.getD v.pass reg [] ++ [⟨fabricUnit x e, tok, false⟩]) v.pass })

/-- A token arrives at an element.  A slot with an initial form has no port (R80), nor one with ARITY 0b01 a port 1 (R204). -/
def arriveElem (x e : Nat) (r : Run) (t : Token) (s : State) : Got Unit :=
  let k := (s.stripe x).vs.getD 0
  let p : Port := ⟨k, e, t.slot.toNat, t.port.toNat⟩
  match s.slotAt x e t.slot.toNat with
  | none => .ok () (tokenTrap x e t.slot.toNat cILLOP t s)
  | some i =>
    let member := match mmgParams i with | some m => m.member | none => false
    if initialForm i = true ∨ (t.port.toNat = 1 ∧ arityOf i ≠ 2 ∧ !(member && t.kind == kEos)) then .ok () (tokenTrap x e t.slot.toNat cILLOP t s)
    else if t.kind = kEos then
      if inBody r.image p then .ok () s
      else .ok () (s.mapElem x e (fun v => { v with ended := v.ended ++ [inputCode p.slot p.port] }))
    else if t.kind = kProbe then .ok () s
    else
      let s1 := if member && t.kind == kTile then landCopy x e t s else s
      if arityOf i = 2 then matchToken x e r t s1
      else .ok () (makeReady x e ⟨t.slot.toNat, t, none⟩ s1)

/-- A token arrives at an operator input (R101, R304). -/
def arriveOper (x o : Nat) (r : Run) (t : Token) (s : State) : Got Unit :=
  let k := (s.stripe x).vs.getD 0
  let i := t.slot.toNat
  match s.opImage x o with
  | none => .ok () (tokenTrap x (16 + o) i cILLOP t s)
  | some im =>
    if opInputs im.kind ≤ i then .ok () (tokenTrap x (16 + o) i cILLOP t s)
    else if t.kind = kEos then
      if inBody r.image ⟨k, 16 + o, i, 0⟩ || (im.kind == 9 && i == 1) then .ok () s
      else .ok () (s.mapOper x o (fun v => { v with ended := v.ended ++ [inputCode i 0] }))
    else if t.kind = kData ∨ (t.kind = kTile ∧ im.kind = 1 ∧ i = 1) then
      .ok () (s.mapOper x o (fun v => { v with
        inputs := Table.set i (Table.getD v.inputs i [] ++ [t]) v.inputs
        accesses := if im.kind = 10 then v.accesses ++ [(t, i == 1)] else v.accesses }))
    else if t.kind = kProbe then .ok () s
    else .ok () (tokenTrap x (16 + o) i cILLOP t s)

/-- The unit a token is for can take it: room in the ready queue or at the input, no stall (R40, R216, R304). -/
def canTake (s : State) (x : Nat) (t : Token) : Bool :=
  let tgt := t.target.toNat
  if tgt < 16 then
    match s.elem? x tgt with
    | some el => decide (el.ready.length < 32) && !fabricStalled s (.elem x tgt)
    | none => true
  else t.kind == kEos || decide (heldAt (s.stripe x) (tgt - 16) t.slot.toNat < 1024)

/-- An earlier token of the inbox must arrive first (R43, R202, R217). -/
def behind (earlier : List InFlight) (f : InFlight) : Bool :=
  earlier.any (fun g => g.tok.dest == f.tok.dest && ((g.crossed && f.crossed)
    || (g.src == f.src && (g.tok.route == f.tok.route || f.tok.kind == kEos))))

/-- A token that crosses into a stripe has room there (R40, R202, R304). -/
def crossRoom (y : Nat) (t : Token) (s : State) : Bool :=
  roomFor y t s && (t.soff != 0 || (canTake s y t && decide (inboxCount (s.stripe y) t.dest < 1024)))

/-- A token of a pinned segment crosses from a stripe to the next, once it has room there (R196, R202): delivered there, or into its pass
register. -/
def crossPinned (x : Nat) (r : Run) (reg : Nat) (s : State) : State :=
  let st := s.stripe x
  match Table.getD st.pass reg [] with
  | [] => s
  | f :: rest =>
    let s1 := s.setStripe x { st with pass := Table.set reg rest st.pass }
    let t := { f.tok with soff := f.tok.soff - 1 }
    let y := nextStripe r x
    bif !crossRoom y t s1 then s
    else bif t.soff == 0 then s1.mapStripe y (fun v => { v with inbox := v.inbox ++ [⟨f.src, t, true⟩] })
    else emit y f.src t s1

/-- TOKEN_ARRIVAL: the k-th token of a stripe's inbox arrives at its unit; past the inbox, the head of the pass register of that
rank crosses, in a pinned segment.  Nothing moves in a run that is halted (R202, R204, R212, R214).  A stripe onto which nothing has
been loaded counts as past its load step from step 1 on, in a pinned segment from the end of the load steps on (DESIGN CHOICE, log 30). -/
def execTokenArrival (x k : Nat) (s : State) : Out :=
  match s.runOf x with
  | none => .next s
  | some (_, r) =>
    let st := s.stripe x
    match st.inbox[k]? with
    | none =>
      (match st.pass[k - st.inbox.length]? with
      | some (reg, _) => .next (if r.image.pinned && (r.status == .running || r.status == .stopping) then crossPinned x r reg s else s)
      | none => .next s)
    | some f =>
      let taken := fun (u : State) => u.mapStripe x (fun v => { v with inbox := v.inbox.erase f })
      let tgt := f.tok.target.toNat
      if st.vs.isNone ∧ (if r.image.pinned then r.vcount else 1) ≤ r.step ∧ r.status ≠ .ended then .next (tokenTrap x tgt f.tok.slot.toNat cILLOP f.tok (taken s)) else
      if !stripeLive s x || behind (st.inbox.take k) f || !canTake s x f.tok then .next s else
      (match (if tgt < 16 then arriveElem x tgt r f.tok s else arriveOper x (tgt - 16) r f.tok s) with
      | .ok _ s1 => .next (taken s1)
      | .stop s1 => .next s1)

end Sys2Proof.Machine
end

