-- ==== Sys2Proof/Machine/Element.lean ====
section
/-!
DEFINITION. The issue of element instructions (R38 to R47): operands, result tokens, flags and counters.  The instances of
the issue stand in `State.issue`.
-/

namespace Sys2Proof.Machine

open Sys2Proof

/-- What one instance gives: result tokens in order, flags, the LFSR after it. -/
structure Effect where
  toks : List Token
  fl   : Nat
  lf   : Nat

/-- The tag of an instance as a data token (R38, R44), ordered after what its operands are ordered after. -/
def Inst.base (i : Inst) : Token :=
  { i.a with
    kind := kData, soff := 0, hops := 0, eod := 0
    after := match i.b with | some b => i.a.after.join b.after | none => i.a.after }

/-- The value on port 1. -/
def Inst.bval (i : Inst) : Word := match i.b with | some b => b.value | none => 0

/-- The KIND of operand A (R39): of the port that A comes from; data for an immediate. -/
def kindOfA (w : EWord) (i : Inst) : BitVec 2 :=
  if !w.swap then i.a.kind
  else if w.arity = 2 then (match i.b with | some b => b.kind | none => kData)
  else kData

/-- The result tokens of a word for a token, on DST1 and DST2 (R20, R21, R44): a destination that is not valid gets none. -/
def wordOut1 (w : EWord) (t : Token) : List Token :=
  if dstValid w.dst1 then [(if w.tsel then t else tagOp w.topc w.targ t).toward w.dst1] else []

def wordOut2 (w : EWord) (t : Token) : List Token :=
  if dstValid w.dst2 then [(tagOp w.topc w.targ t).toward w.dst2] else []

/-- One token to each valid destination. -/
def wordOut (w : EWord) (t : Token) : List Token := wordOut1 w t ++ wordOut2 w t

/-- The operand of an instance that is a tile handle. -/
def handleOperand (i : Inst) : Option Token :=
  if i.a.kind = kTile then some i.a else match i.b with
    | some b => if b.kind = kTile then some b else none
    | none => none

/-- The policy keys of an element. -/
def elemKeys (s : State) (x e : Nat) : Keys :=
  match s.elemImage x e with
  | some im => keysOf im.policy
  | none => ⟨false, false, true, false⟩

/-- Applies the instances of an issue in gather order (R42, R43, R64); one that is refused traps ILLOP with its token, and it and
the instances after it stay in the ready queue (R39, R326).  The number executed. -/
def runInsts (x e : Nat) (one : Keys → Nat → Inst → Effect) (bad : Inst → Option Token) : List Inst → State → Nat × State
  | [], s => (0, s)
  | i :: rest, s =>
    match bad i with
    | some t =>
      (0, fabricTrap x e i.slot i.a.tag cILLOP 0 [t] (s.mapElem x e (fun v => { v with ready := i :: rest ++ v.ready })))
    | none =>
      let lf := match s.elem? x e with | some v => v.lfsr.toNat | none => 1
      let ef := one (elemKeys s x e) lf i
      let s1 := s.mapElem x e (fun v => { v with
        lfsr := BitVec.ofNat 32 ef.lf, status := v.status.raise ef.fl, out := v.out ++ ef.toks })
      let (n, s2) := runInsts x e one bad rest s1
      (n + 1, s2)

/-- Executes the issue: effects, then the counters, then the results leave (R43, R47). -/
def runIssue (one : Keys → Nat → Inst → Effect) (bad : Inst → Option Token) (s : State) : Out :=
  let x := s.issue.x
  let e := s.issue.e
  let (n, s1) := runInsts x e one bad s.issue.insts s
  .next (flushOut x e (if n = 0 then s1 else s1.mapElem x e (fun v => { v with status := v.status.count n })))

/-- An instruction whose result is a value: every valid destination receives it (R44). -/
def valueIssue (c : OpClass) (width : Nat) (w : EWord) (f : Keys → Nat → Word → Word → Word → FRes) (s : State) : Out :=
  runIssue (fun k lf i =>
    let (a, b, z) := elemOperands c width w i.a.value i.bval
    let r := f k lf a b z
    ⟨wordOut w { i.base with value := w64 r.v }, r.fl, r.lf⟩) handleOperand s

/-- An instruction of integer lanes that sets no flag: lane i of the result from lane i of the operands. -/
def laneIssue (c : OpClass) (w : EWord) (f : Nat → Word → Word → Word → Nat → Nat) (s : State) : Out :=
  let width := laneWidth w.rt.toNat
  valueIssue c width w (fun _ lf a b z =>
    ⟨joinLanes width ((List.range (64 / width)).map (fun i => f width a b z i)), 0, lf⟩) s

/-- Lanes with flags, in ascending order. -/
def lanesOf (n : Nat) (lf : Nat) (f : Nat → Nat → FRes) : List Nat × Nat × Nat :=
  (List.range n).foldl (fun (acc : List Nat × Nat × Nat) i =>
    let r := f acc.2.2 i
    (acc.1 ++ [r.v], orf acc.2.1 r.fl, r.lf)) ([], 0, lf)

/-- A result from lanes with flags. -/
def lanesResult (width n lf : Nat) (f : Nat → Nat → FRes) : FRes :=
  let r := lanesOf n lf f
  ⟨joinLanes width r.1, r.2.1, r.2.2⟩

end Sys2Proof.Machine
end

