-- ==== Sys2Proof/Machine/Tile.lean ====
section
/-!
DEFINITION. Tile registers and their handles, the weight slice and the activation format (R79 to R89).
-/

namespace Sys2Proof.Machine

open Sys2Proof

/-! ## Handles (R82 to R84) -/

/-- A tile register as TALLOC leaves it. -/
def Tile.fresh : Tile := ⟨7, 512, 1, []⟩

/-- A tile register of an element. -/
def Elem.tile (v : Elem) (k : Nat) : Tile := Table.getD v.tiles k Tile.fresh

def Elem.setTile (v : Elem) (k : Nat) (t : Tile) : Elem := { v with tiles := Table.set k t v.tiles }

/-- The handle of tile register k of element e. -/
def tileHandle (e k : Nat) (t : Tile) : Word := w64 (e * 2 ^ 32 + t.cols * 2 ^ 18 + t.rows * 2 ^ 8 + t.type * 16 + k)

/-- The tile register that a token's handle names, where the handle is valid (R84). -/
def validHandle (e : Nat) (v : Elem) (t : Token) : Option Nat :=
  let k := t.value.toNat % 8
  if t.kind == kTile && decide (k < v.allot) && t.value == tileHandle e k (v.tile k) then some k else none

/-- Byte i of a tile. -/
def Tile.byte (t : Tile) (i : Nat) : Byte := Table.getD t.bytes i 0

/-- A tile with bytes written from i on; zero bytes are not listed. -/
def Tile.put (t : Tile) (i : Nat) : List Byte → Tile
  | [] => t
  | b :: bs => Tile.put { t with bytes := if b = 0 then Table.erase i t.bytes else Table.set i b t.bytes } (i + 1) bs

/-- Element (r, c) of a tile (R82). -/
def Tile.elem (t : Tile) (r c : Nat) : Nat :=
  let w := laneWidth t.type
  let i := (r * t.cols + c) * w
  leNat ((List.range 8).map (fun j => t.byte (i / 8 + j))) / 2 ^ (i % 8) % 2 ^ w

/-! ## Shared form (R80, R81) -/

/-- What a tile or matrix instruction does: it traps, or leaves the element changed with tokens to send. -/
inductive TileRes where
  | trap (cause : Nat) (toks : List Token)
  | done (v : Elem) (toks : List Token)

/-- The instance of the issue; an initial form has none, and its tag is zero. -/
def theInst (s : State) : Inst := s.issue.insts.headD ⟨s.issue.slot, Token.blank, none⟩

/-- The operand tokens of an instance. -/
def Inst.toks (i : Inst) : List Token := i.a :: i.b.toList

/-- A result token with a handle or a value. -/
def handleTok (i : Inst) (v : Word) : Token := { i.base with value := v, kind := kTile }
def dataTok (i : Inst) (v : Nat) : Token := { i.base with value := w64 v }

/-- Executes one instance of a tile or matrix instruction, initial forms included.  An instance that traps is not executed and
stays in the ready queue (R326). -/
def tileIssue (f : Nat → Elem → Inst → TileRes) (s : State) : Out :=
  let x := s.issue.x
  let e := s.issue.e
  match s.elem? x e with
  | none => .next s
  | some v =>
    let i := theInst s
    match f e v i with
    | .trap cause toks =>
      .next (fabricTrap x e s.issue.slot i.a.tag cause 0 toks (s.setElem x e { v with ready := s.issue.insts ++ v.ready }))
    | .done v' toks =>
      .next (flushOut x e (s.setElem x e { v' with status := v'.status.count 1, out := v'.out ++ toks }))

/-- The same for the instructions of R85 to R89: an operand that is a handle must be valid. -/
def tileOp (f : Nat → Elem → Inst → TileRes) (s : State) : Out :=
  tileIssue (fun e v i =>
    match i.toks.find? (fun t => t.kind == kTile && (validHandle e v t).isNone) with
    | some t => .trap cILLTILE [t]
    | none => f e v i) s

/-- The field IMM[2:0]. -/
def tregOf (w : EWord) : Nat := w.imm.toNat % 8

/-- Needs a tile register below the allotment. -/
def needTile (v : Elem) (k : Nat) (i : Inst) (g : TileRes) : TileRes := if k < v.allot then g else .trap cILLTILE [i.a]

/-! ## Allotment and control registers (R85) -/

def execTalloc (w : EWord) (s : State) : Out :=
  tileOp (fun _ v i =>
    let n := w.imm.toNat % 16
    if n < v.allot then .trap cILLTILE [i.a] else
    let tiles := (List.range (n - v.allot)).foldl (fun t j => Table.set (v.allot + j) Tile.fresh t) v.tiles
    .done { v with allot := n, tiles := tiles } (wordOut w (dataTok i n))) s

def execTshrink (w : EWord) (s : State) : Out :=
  tileOp (fun _ v i =>
    let n := w.imm.toNat % 16
    if v.allot < n then .trap cILLTILE [i.a] else
    .done { v with allot := n, tiles := v.tiles.filter (fun t => decide (t.1 < n) || decide (8 ≤ t.1)) }
      (wordOut w (dataTok i n))) s

def execTcfg (w : EWord) (s : State) : Out :=
  tileOp (fun e v i =>
    let k := tregOf w
    needTile v k i (
      let t : Tile := { v.tile k with type := w.rt.toNat, rows := bits w.imm.toNat 17 8, cols := bits w.imm.toNat 27 18 }
      .done (v.setTile k t) (wordOut w (handleTok i (tileHandle e k t))))) s

/-! ## Contents (R85, R86) -/

def execTzero (w : EWord) (s : State) : Out :=
  tileOp (fun e v i =>
    let k := tregOf w
    needTile v k i (
      let t : Tile := { v.tile k with bytes := [] }
      .done (v.setTile k t) (wordOut w (handleTok i (tileHandle e k t))))) s

def execTmov (w : EWord) (s : State) : Out :=
  tileOp (fun e v i =>
    let k := tregOf w
    let src := bits w.imm.toNat 6 4
    needTile v k i (needTile v src i (
      let t := v.tile src
      .done (v.setTile k t) (wordOut w (handleTok i (tileHandle e k t)))))) s

def execText (w : EWord) (s : State) : Out :=
  tileOp (fun _ v i =>
    let k := tregOf w
    let n := i.a.value.toNat
    needTile v k i (
      if 511 < n then .trap cILLTILE [i.a] else
      .done v (wordOut w (dataTok i (leNat ((List.range 8).map (fun j => (v.tile k).byte (8 * n + j)))))))) s

/-- The handle follows the write of the tile's last word only. -/
def execTins (w : EWord) (s : State) : Out :=
  tileOp (fun e v i =>
    let k := tregOf w
    let n := i.a.value.toNat
    needTile v k i (
      if 511 < n then .trap cILLTILE [i.a] else
      let t := (v.tile k).put (8 * n) (leBytes 8 i.bval.toNat)
      let last := ceilDiv (t.rows * t.cols * laneWidth t.type) 64 - 1
      .done (v.setTile k t) (if n = last then wordOut w (handleTok i (tileHandle e k t)) else []))) s

/-! ## Weights and activation format (R87 to R89) -/

/-- Bytes 0 to 2751 of a tile become the slice. -/
def execWlatch (w : EWord) (s : State) : Out :=
  tileOp (fun e v i =>
    match validHandle e v i.a with
    | none => .trap cILLTILE [i.a]
    | some k =>
      .done { v with
          wfmt := w.rt.toNat, esc := bit w.imm.toNat 0, xval := BitVec.ofNat 16 (bits w.imm.toNat 31 16)
          slice := (List.range 2752).map (v.tile k).byte }
        (wordOut w (handleTok i i.a.value))) s

def execAfmt (w : EWord) (s : State) : Out :=
  tileOp (fun _ v i => .done { v with afmt := w.rt.toNat } (wordOut w (dataTok i w.rt.toNat))) s

end Sys2Proof.Machine
end

