-- ==== Sys2Proof/Machine/Matrix.lean ====
section
/-!
DEFINITION. Accumulator nodes, the matrix instructions and the co-operative MMG (R90 to R99, R224, R233 to R236, R242 to R244).
-/

namespace Sys2Proof.Machine

open Sys2Proof

/-! ## Values (R95, R233 to R237) -/

/-- The entry of the outlier side list with a position, lowest first (R235, R236). -/
def outlier (slice : List Byte) (pos : Nat) : Option Nat :=
  ((List.range 32).find? (fun j => leNat ((slice.drop (2624 + 4 * j)).take 2) % 2048 == pos)).map (fun j =>
    leNat ((slice.drop (2626 + 4 * j)).take 2))

/-- A value of a floating format on the matrix path. -/
def matrixVal (f : FFmt) (fsi : Bool) (v : Nat) : FVal := f.val (f.flushIn fsi v)

/-- Bits of the code at position p of a slice with width w. -/
def sliceCode (slice : List Byte) (w p : Nat) : Nat :=
  leNat ((slice.drop (p * w / 8)).take 2) / 2 ^ (p * w % 8) % 2 ^ w

/-- WVal of R95 at position p, with its flags. -/
def weightVal (v : Elem) (fsi : Bool) (p : Nat) : FVal × Nat :=
  if v.wfmt = 14 then
    let c := sliceCode v.slice 2 p
    if c = 1 then (.fin false 1 0, 0) else if c = 3 then (.fin true 1 0, 0)
    else (.fin false 0 0, if c = 2 then fTERNBAD else 0)
  else
    let f := ffOf v.wfmt
    let c := sliceCode v.slice f.w p
    if v.wfmt = 13 ∧ c = 8 then
      if v.esc then (matrixVal ffBF16 fsi v.xval.toNat, 0)
      else match outlier v.slice p with
        | some b => (matrixVal ffBF16 fsi b, 0)
        | none => (.fin false 0 0, fOUTMISS)
    else (matrixVal f fsi c, 0)

/-- ActVal of R95: element (r, k) of the activation tile. -/
def actVal (v : Elem) (a : Tile) (fsi : Bool) (r k : Nat) : FVal :=
  let c := a.elem r k
  if v.afmt = 0 then
    let i := signed 8 c
    .fin (decide (i < 0)) i.natAbs 0
  else matrixVal (ffOf v.afmt) fsi c

/-- A value times ScaleVal(sa, sw) (R95, R242). -/
def scaleBy (sa sw : Nat) : FVal → FVal
  | .fin n m e => if sa = 255 ∨ sw = 255 then .nan false else .fin n m (e + (sa : Int) + (sw : Int) - 254)
  | v => if sa = 255 ∨ sw = 255 then .nan false else v

/-- BlockSum of R95: the exact sum of the 64 products of row r and column n, with its flags.  The sum of no terms is +0. -/
def blockSum (v : Elem) (a : Tile) (b : Option Tile) (fsi : Bool) (r n : Nat) : FVal × Nat :=
  (List.range 64).foldl (fun (acc : FVal × Nat) k =>
    let h := k / 32
    let w := weightVal v fsi (20 * k + n)
    let p := FVal.mul (actVal v a fsi r k) w.1
    let q := match b with
      | some t => scaleBy (t.byte (2 * r + h)).toNat (nth v.slice (2560 + 20 * h + n) 0).toNat p
      | none => p
    (FVal.add false acc.1 q, orf acc.2 w.2)) (.fin false 0 0, 0)

/-! ## AddBlock (R96) -/

/-- The integer that a sum of integers is. -/
def FVal.toInt : FVal → Int
  | .fin n m e => let v := m * 2 ^ e.toNat; if n then -(v : Int) else (v : Int)
  | _ => 0

/-- AddBlock for an INT32 node. -/
def addBlockInt (a : Nat) (s : FVal) : FRes :=
  let r := satInt 2 (signed 32 a + s.toInt)
  ⟨wrapInt 32 r.1, r.2, 0⟩

/-- AddBlock for an FP32 node, by rounding mode; `sat` is the policy key sovf = sat.  A node that holds NaN keeps it before S is looked at, as R96
gives the order, so a tiny S sets no SCUNF there (DESIGN CHOICE between R96 and R242, log 64). -/
def addBlock (rm : Nat) (sat : Bool) (a : Nat) (s : FVal) (lf : Nat) : FRes :=
  let va := ffF32.val a
  let bad := if s.isNan then fNV else 0
  if va.isNan || s.isNan then ⟨0x7FC00000, bad, lf⟩ else
  let (s', fl) : FVal × Nat := match s with
    | .fin n m e => if m ≠ 0 ∧ e + (bitLen m : Int) ≤ -126 then (.fin n 0 0, fSCUNF) else (s, 0)
    | t => (t, 0)
  match FVal.add (rm == 3) va s' with
  | .nan _ => ⟨0x7FC00000, orf fl fNV, lf⟩
  | .inf n => ⟨ffF32.sign n 0x7F800000, fl, lf⟩
  | .fin n m e =>
    if m = 0 then ⟨ffF32.sign (rm == 3) 0, fl, lf⟩ else
    let (r, q) := roundAt rm n m e 24 ffF32.qmin lf
    let enc := (q - ffF32.qmin).toNat * 2 ^ 23 + r.z
    if ffF32.max < enc then ⟨ffF32.sign n (if sat then ffF32.max else 0x7F800000), orf fl fSCOVF, r.lf⟩
    else ⟨ffF32.sign n enc, fl, r.lf⟩

/-! ## Nodes (R91 to R93) -/

/-- The contribution count of a node. -/
def Node.total (nd : Node) : Nat := ceilDiv nd.rows nd.brows * nd.kblk

/-- A cleared node: +0, no contributions. -/
def Node.clear (nd : Node) : Node := { nd with acc := [], next := [], count := 0 }

/-- A position of a node. -/
def Node.at (nd : Node) (r n : Nat) : Nat := (Table.getD nd.acc (20 * r + n) 0).toNat

/-- Configures a node, or traps where it holds contributions. -/
def execAcfg (w : EWord) (s : State) : Out :=
  tileOp (fun _ v i =>
    let m := w.imm.toNat
    let j := bits m 1 0
    let held := match Table.find j v.nodes with | some nd => nd.count | none => 0
    if held ≠ 0 then .trap cILLOP [i.a] else
    let nd : Node := {
      int := bit m 2, rows := bits m 16 8, brows := bits m 25 17, kblk := bits m 42 32, acc := [], next := [], count := 0,
      releaseDst := w.dst1, doneDst := w.dst2, topc := w.topc, targ := w.targ, tsel := w.tsel }
    .done { v with nodes := Table.set j nd v.nodes } []) s

/-- The tokens of a release, for the tag of the contribution that completed the node (R93). -/
def releaseToks (nd : Node) (base : Token) : List Token :=
  let rows := (List.range nd.rows).flatMap (fun r => (List.range 10).map (fun j =>
    let t := { base with iter := BitVec.ofNat 10 r, value := w64 (nd.at r (2 * j) + 2 ^ 32 * nd.at r (2 * j + 1)) }
    (if nd.tsel then t else tagOp nd.topc nd.targ t).toward nd.releaseDst))
  let last := { base with iter := BitVec.ofNat 10 nd.rows, value := w64 (10 * nd.rows) }
  rows ++ (if dstValid nd.doneDst then [(tagOp nd.topc nd.targ last).toward nd.doneDst] else [])

/-! ## MMA (R90, R92, R94) -/

/-- Formats, arity and node type of a matrix form, 0 T2 to 3 BF16 (R90). -/
def formatsOk (kind : Nat) (w : EWord) (v : Elem) (nd : Node) : Bool :=
  match kind with
  | 0 => v.wfmt == 14 && v.afmt == 0 && w.arity == 1 && nd.int
  | 1 => v.wfmt == 13 && [11, 12, 13].contains v.afmt && w.arity == 2 && !nd.int
  | 2 => [11, 12].contains v.wfmt && [11, 12, 13].contains v.afmt && w.arity == 2 && !nd.int
  | _ => v.wfmt == 8 && v.afmt == 8 && w.arity == 1 && !nd.int

/-- Band, K-block, first row and rows of a contribution. -/
def Node.band (nd : Node) (ci : Nat) : Nat × Nat × Nat × Nat :=
  let band := ci / nd.kblk
  (band, ci % nd.kblk, band * nd.brows, min nd.brows (nd.rows - band * nd.brows))

/-- The checks of a matrix instance at issue: a trap, or its node and operand tiles.  An instance that breaks several conditions takes the trap
of the first in this order: node and formats, contribution number, duplicate, operand A, operand B (R90, R92, R94 give none; DESIGN CHOICE,
log 45). -/
def mmaCheck (kind : Nat) (w : EWord) (e : Nat) (v : Elem) (i : Inst) : Except (Nat × List Token) (Node × Nat × Option Nat) :=
  match Table.find (bits w.imm.toNat 1 0) v.nodes with
  | none => .error (cILLOP, i.toks)
  | some nd =>
    if !formatsOk kind w v nd then .error (cILLOP, i.toks) else
    let ci := i.a.iter.toNat
    if nd.total ≤ ci then .error (cILLOP, i.toks) else
    let (band, kb, _, m) := nd.band ci
    if kb < Table.getD nd.next band 0 then .error (cMATCHDUP, i.toks) else
    match validHandle e v i.a with
    | none => .error (cILLTILE, [i.a])
    | some ka =>
      let a := v.tile ka
      if a.type ≠ v.afmt ∨ a.cols ≠ 64 ∨ a.rows ≠ m then .error (cILLTILE, [i.a]) else
      match i.b with
      | none => .ok (nd, ka, none)
      | some tb =>
        match validHandle e v tb with
        | none => .error (cILLTILE, [tb])
        | some kb2 =>
          let b := v.tile kb2
          if b.type ≠ 4 ∨ b.cols ≠ 2 ∨ b.rows ≠ m then .error (cILLTILE, [tb]) else .ok (nd, ka, some kb2)

/-- Applies one contribution to a node: the accumulator, the flags and the LFSR. -/
def contribute (kind rm : Nat) (k : Keys) (v : Elem) (nd : Node) (a : Tile) (b : Option Tile) (ci : Nat) : Node × Nat × Nat :=
  let (band, kb, row0, m) := nd.band ci
  let cells := (List.range m).flatMap (fun r => (List.range 20).map (fun n => (r, n)))
  let r := cells.foldl (fun (acc : Table (BitVec 32) × Nat × Nat) p =>
    let s := blockSum v a b k.fsi p.1 p.2
    let key := 20 * (row0 + p.1) + p.2
    let old := (Table.getD acc.1 key 0).toNat
    let f := if kind = 0 then { addBlockInt old s.1 with lf := acc.2.2 } else addBlock rm (!k.sovf) old s.1 acc.2.2
    (Table.set key (BitVec.ofNat 32 f.v) acc.1, orf acc.2.1 (orf s.2 f.fl), f.lf)) (nd.acc, 0, v.lfsr.toNat)
  ({ nd with acc := r.1, next := Table.set band (kb + 1) nd.next, count := nd.count + 1 }, r.2.1, r.2.2)

/-- The effect of a matrix instance that passed its checks: its own handles, then a release that it completes. -/
def mmaRun (kind : Nat) (w : EWord) (k : Keys) (v : Elem) (nd : Node) (a : Tile) (b : Option Tile) (i : Inst) : Elem × List Token :=
  let j := bits w.imm.toNat 1 0
  let (nd1, fl, lf) := contribute kind w.rt.toNat k v nd a b i.a.iter.toNat
  let own := wordOut1 w (handleTok i i.a.value) ++ (match i.b with | some t => wordOut2 w (handleTok i t.value) | none => [])
  let full := nd1.count == nd1.total
  ({ v with
      nodes := Table.set j (if full then nd1.clear else nd1) v.nodes
      status := v.status.raise fl
      lfsr := BitVec.ofNat 32 lf },
   own ++ (if full then releaseToks nd1 i.base else []))

/-- An MMA of a form. -/
def mmaIssue (kind : Nat) (w : EWord) (s : State) : Out :=
  let k := elemKeys s s.issue.x s.issue.e
  tileIssue (fun e v i =>
    match mmaCheck kind w e v i with
    | .error (c, ts) => .trap c ts
    | .ok (nd, ka, kb) =>
      let (v', ts) := mmaRun kind w k v nd (v.tile ka) (kb.map v.tile) i
      .done v' ts) s

def execMmaT2 (w : EWord) (s : State) : Out := mmaIssue 0 w s
def execMmaF4 (w : EWord) (s : State) : Out := mmaIssue 1 w s
def execMmaF8 (w : EWord) (s : State) : Out := mmaIssue 2 w s
def execMmaBf16 (w : EWord) (s : State) : Out := mmaIssue 3 w s

/-! ## MMG (R97, R98, R224) -/

/-- The parameters of the MMG word. -/
def mmgOf (w : EWord) : MmgParams :=
  let v := w.imm.toNat
  ⟨bits v 5 4, bits v 1 0, 2 ^ bits v 10 8, bit v 11, bit v 12⟩

/-- A member fires as an MMA; its issue answers the origin's copy.  An origin waits at issue for room for its results (R202), then
reads its operand tiles and owes a copy to every other participant; without any it executes at once. -/
def execMmg (w : EWord) (s : State) : Out :=
  let p := mmgOf w
  let k := elemKeys s s.issue.x s.issue.e
  tileIssue (fun e v0 i =>
    let v := if p.member then { v0 with mmgSent := Table.erase i.slot v0.mmgSent } else v0
    match mmaCheck p.wkind w e v i with
    | .error (c, ts) => .trap c ts
    | .ok (nd, ka, kb) =>
      let others := if p.member then [] else mmgOthers e p
      let (v', ts) := mmaRun p.wkind w k v nd (v.tile ka) (kb.map v.tile) i
      let left := crowdedOut s.issue.x (fabricUnit s.issue.x s.issue.e) ts s
      if others.isEmpty then .done v' ts
      else if !left.isEmpty then .done v ts
      else
        let v1 := v.setTile 16 (v.tile ka)
        let v2 := match kb with | some b => v1.setTile 17 (v.tile b) | none => v1
        .done { v2 with mmgOwed := others.map (fun o => (o.1, o.2, i.a, i.b)) } []) s

/-- An origin as its participants know it: element and stripe offset. -/
def originCode (e so : Nat) : Nat := 16 * so + e

/-- A stripe has not completed its load: initial forms that a break held wait in a ready queue (R333). -/
def formsHeld (s : State) (y : Nat) : Bool :=
  (s.stripe y).elems.any (fun p => p.2.ready.any (fun i => match s.slotAt y p.1 i.slot with | some ins => initialForm ins | none => false))

/-- A participant's stripe has completed the load of its virtual stripe, initial forms included, and the participant has issued its instance for
every earlier copy that the origin made into it (R224). -/
def memberReady (s : State) (x e : Nat) (o : Nat × Nat × Token × Option Token) : Bool :=
  match memberStripe s x o.1 with
  | none => false
  | some y =>
    (match s.elem? y o.2.1 with
      | some m => !formsHeld s y && m.mmgSent.all (fun p => p.2 != originCode e o.1)
      | none => false)

/-- The handle token of a copy for a participant, on a port. -/
def memberTok (so el port : Nat) (tile : Tile) (slot : Nat) (t : Token) : Token :=
  { t with
    value := tileHandle el (t.value.toNat % 8) tile, kind := kTile, soff := BitVec.ofNat 2 so, target := BitVec.ofNat 5 el
    slot := BitVec.ofNat 4 slot, port := BitVec.ofNat 1 port, hops := 0, eod := 0 }

/-- Copies one operand tile into a participant and delivers its handle; a copy whose handle travels through a pass register waits beside its
tile (R98, R202). -/
def copyOperand (x e y : Nat) (o : Nat × Nat × Token × Option Token) (key port : Nat) (t : Token) (s : State) : State :=
  let tile := match s.elem? x e with | some v => v.tile key | none => Tile.fresh
  let k := t.value.toNat % 8
  let tok := memberTok o.1 o.2.1 port tile t.slot.toNat t
  let key := if memberDirect s x o.1 then k else copyKey t.slot.toNat k
  deliverMember x e y tok (s.mapElem y o.2.1 (fun m => m.setTile key tile))

/-- The origin executes as an MMA after its last copy, on the tiles it read. -/
def mmgFinish (x e : Nat) (a : Token) (b : Option Token) (s : State) : State :=
  let slot := a.slot.toNat
  match s.elem? x e, s.slotAt x e slot with
  | some v, some (.mmg w) =>
    match Table.find (bits w.imm.toNat 1 0) v.nodes with
    | some nd =>
      let (v', ts) := mmaRun (mmgOf w).wkind w (elemKeys s x e) v nd (v.tile 16) (b.map (fun _ => v.tile 17)) ⟨slot, a, b⟩
      flushOut x e (s.setElem x e { v' with
        tiles := Table.erase 16 (Table.erase 17 v'.tiles), mmgOwed := [], out := v'.out ++ ts })
    | none => s
  | _, _ => s

/-- MMG_COPY: an origin copies its operands into the first participant that can take them, and after the last one executes (R98,
R224); while its results would find no room it waits with that copy (R202). -/
def execMmgCopy (x e : Nat) (s : State) : Out :=
  match s.elem? x e with
  | none => .next s
  | some v =>
    if v.faulted.isSome || !stripeLive s x then .next s else
    match v.mmgOwed.find? (memberReady s x e) with
    | none => .next s
    | some o =>
      match memberStripe s x o.1 with
      | none => .next s
      | some y =>
        let slot := o.2.2.1.slot.toNat
        let allot := match s.elem? y o.2.1 with | some m => m.allot | none => 0
        let toks := o.2.2.1 :: o.2.2.2.toList
        match toks.find? (fun t => decide (allot ≤ t.value.toNat % 8)) with
        | some t => .next (fabricTrap y o.2.1 slot o.2.2.1.tag cILLTILE 0 [t] s)
        | none =>
          let s1 := copyOperand x e y o 16 0 o.2.2.1 s
          let s2 := match o.2.2.2 with | some b => copyOperand x e y o 17 1 b s1 | none => s1
          let s3 := s2.mapElem y o.2.1 (fun m => { m with mmgSent := Table.set slot (originCode e o.1) m.mmgSent })
          let rest := v.mmgOwed.erase o
          let s4 := s3.mapElem x e (fun u => { u with mmgOwed := rest, stuck := [] })
          if !rest.isEmpty then .next s4 else
          let finish := mmgFinish x e o.2.2.1 o.2.2.2
          let left := leftOver x e (finish s4)
          .next (if !left.isEmpty && (leftOver x e (finish (unhindered x s4))).isEmpty then s.mapElem x e (fun u => { u with stuck := emitted x s4 (finish s4) ++ left })
            else finish s4)

end Sys2Proof.Machine
end

