-- ==== Sys2Proof/Machine/CoreCont.lean ====
section
/-!
DEFINITION. Continuations and the range unit (R169 to R173, R219 to R222).
-/

namespace Sys2Proof.Machine

open Sys2Proof

/-- A die belongs to a launch: its rectangle touches it (R193). -/
def launchHasDie (v : Launch) (d : Nat) : Bool := decide (v.xbase < 64 * (d + 1)) && decide (64 * d < v.xbase + v.xext)

/-- A launch's rectangle touches a ring (R193). -/
def launchHasRing (v : Launch) (r : Nat) : Bool := decide (v.xbase < 16 * (r + 1)) && decide (16 * r < v.xbase + v.xext)

/-- Records queued at a priority on a die of a launch. -/
def queueLength (s : State) (l d : Nat) (prio : Bool) : Nat :=
  match Table.find l s.launches with
  | some v => if prio then (v.die d).high.length else (v.die d).low.length
  | none => 0

/-- Creates a continuation of a launch on a die and puts it at the tail of its queue (R170, R171, R273); its reads are ordered after the
what `floor` and `view` cover (R290). -/
def createThread (l d : Nat) (prio : Bool) (phase : Nat) (code frame g2 cont : Word) (root : Bool) (floor view : View) (s : State) : State :=
  match Table.find l s.launches with
  | none => s
  | some v =>
    let id := s.nextThread
    let t : Thread := { Thread.blank id with
      launch := some l
      die := d
      serial := (v.die d).serial
      prio := prio
      phase := phase
      root := root
      regs := ((Vector.replicate 32 0).set 1 frame).set 2 g2
      pc := code
      cont := cont
      contFp := if root then 0 else frame
      floor := floor
      view := view }
    let s1 := { s with nextThread := id + 1 }
    enqueue t (s1.mapDie l d (fun x => { x with serial := x.serial + 1 }))

/-- CSPAWN (R170). -/
def execCspawn (a b : Reg) (die : BitVec 3) (remote prio : Bool) (s : State) : Out :=
  launchOnly s (
    match s.th.launch, s.launch? with
    | some l, some v =>
      let code := s.g a
      let d := if remote then die.toNat else s.th.die
      if code.toNat % 4 ≠ 0 then .next (trap cALIGN code s)
      else if !launchHasDie v d then .next (trap cPROT s.word0 s)
      else if 65536 ≤ queueLength s l d prio then .next (blockOn (.again 2 (2 * d + ofBool prio)) s)
      else if signalsPending s s.th.id then .next (blockOn (.again 5 0) s)
      else
        let s1 := settleAll s.th.id s
        .next ((createThread l d prio s.th.phase code (s.g b) s.th.cont 0 false s1.th.floor (viewOf s1 s1.th.id) s1).advance 4)
    | _, _ => .next s)

/-- The end of CJOIN's step: the count goes down, and the last joiner enqueues the record's continuation, which is ordered after the
accesses of every joiner (R171, R290). -/
def joinStep (l die pa c : Nat) (rec_ : Option (Word × List Word)) (s : State) : State :=
  let s1 := unfix pa 8 (poke s.launchMark (s.th.id + 1) pa (leBytes 8 (c - 1)) s)
  let carried := (Table.getD s1.joins pa View.zero).join (viewOf s1 s1.th.id)
  match rec_ with
  | none => { s1 with joins := Table.set pa carried s1.joins }.advance 4
  | some (r, ws) =>
    let s2 := { s1 with joins := Table.erase pa s1.joins }
    (createThread l die ((nth ws 2 0).getLsbD 0) s2.th.phase (nth ws 0 0) (nth ws 1 0) s2.th.cont r false s2.th.floor carried s2).advance 4

/-- CJOIN (R171). -/
def execCjoin (a : Reg) (s : State) : Out :=
  launchOnly s (if signalsPending s s.th.id then .next (blockOn (.again 5 0) s) else
    let va := s.g a
    (access va 16 .rw (settleAll s.th.id s)).andThen (fun pa s0 =>
      let s1 := settleLines pa 16 s0
      match s1.th.launch, s1.launch? with
      | some l, some v =>
        if !launchHasDie v (homeDie pa) then .next (trap cPROT va s1) else
        if readFails s1 pa 16 then .next (trap cMEMERR va s1) else
        let c := leNat (peek s1 pa 8)
        let r := w64 (leNat (peek s1 (pa + 8) 8))
        if c = 0 then .next (illop s1)
        else if c = 1 then
          if r.toNat % 8 ≠ 0 then .next (trap cALIGN r s1) else
          (loadPages 2 r 32 s1).andThen (fun bs s2 =>
            let ws := bytesWords 4 bs
            let code := nth ws 0 0
            let prio := (nth ws 2 0).getLsbD 0
            if code.toNat % 4 ≠ 0 then .next (trap cALIGN code s2)
            else if 65536 ≤ queueLength s2 l (homeDie pa) prio then
              .next (blockOn (.again 2 (2 * homeDie pa + ofBool prio)) s2)
            else .next (joinStep l (homeDie pa) pa c (some (r, ws)) s2))
        else .next (joinStep l (homeDie pa) pa c none s1)
      | _, _ => .next s1))

/-- Discards the records of a continuation that exits (R151) and frees its reserved entries at once (DESIGN CHOICE, log 40). -/
def dropRecords (tid : Nat) (s : State) : State :=
  { s with ctxs := Table.mapVals (fun _ c =>
      { c with events := c.events.filter (fun e => e.owner != tid), reserved := c.reserved.filter (fun r => r != tid) }) s.ctxs }

/-- CEXIT (R172).  The continuation's posted stores and reductions reach their homes (DESIGN CHOICE, log 40). -/
def execCexit (s : State) : Out :=
  launchOnly s (
    let s1 := (dropRecords s.th.id (settleAll s.th.id s)).setRunning s.core none
    .next { s1 with th := { s1.th with status := .exited } })

/-- CYIELD (R172). -/
def execCyield (s : State) : Out :=
  launchOnly s (
    let s1 := (s.advance 4).setRunning s.core none
    .next (enqueue s1.th s1))

/-- RGSET (R173): applied between two RGTAKEs (R222). -/
def execRgset (a b : Reg) (r : BitVec 4) (s : State) : Out :=
  launchOnly s (
    let n := (s.g a).toNat
    let parties := bits (s.g b).toNat 15 0
    let minimum := bits (s.g b).toNat 47 16
    match s.th.launch with
    | none => .next s
    | some l =>
      if parties = 0 ∨ minimum = 0 ∨ 2 ^ 40 ≤ n then .next (illop s) else
      .next ((s.mapDie l s.th.die (fun x =>
        { x with ranges := Table.set r.toNat ⟨n, n, parties, minimum⟩ x.ranges })).advance 4))

/-- The chunk that RGTAKE takes (R173). -/
def rangeChunk (x : Range) : Nat :=
  min x.remaining (min (2 ^ 24 - 1) (max x.minimum (ceilDiv x.remaining (2 * x.parties))))

/-- RGTAKE (R173, R222). -/
def execRgtake (d : Reg) (r : BitVec 4) (s : State) : Out :=
  launchOnly s (
    match s.th.launch, s.launch? with
    | some l, some v =>
      match Table.find r.toNat (v.die s.th.die).ranges with
      | none => .next (illop s)
      | some x =>
        let c := rangeChunk x
        let start := x.total - x.remaining
        let s1 := s.mapDie l s.th.die (fun y =>
          { y with ranges := Table.set r.toNat { x with remaining := x.remaining - c } y.ranges })
        .next (s1.write4 d (w64 (c * 2 ^ 40 + start)))
    | _, _ => .next s)

end Sys2Proof.Machine
end

