-- ==== Sys2Proof/Machine/CoreEvent.lean ====
section
/-!
DEFINITION. EVPOP, EVWAIT and EVPEEK (R153, R154) and FLSIG (R168).
-/

namespace Sys2Proof.Machine

open Sys2Proof

/-- The oldest record of the executing continuation. -/
def oldestRecord (s : State) : Option EvRecord := s.ctx.events.find? (fun r => r.owner == s.th.id)

/-- The 32 bytes of a record (R152). -/
def EvRecord.bytes (r : EvRecord) : List Byte := wordBytes [r.header, r.tag, r.arg1, r.arg2]

/-- Hands a record to the program: stored at g[GA] unless GA is 0, its header in g[GD], and removed unless peeked (R153); what it certifies
as visible is seen from then on (R166, R284). -/
def takeRecord (d a : Reg) (remove : Bool) (r : EvRecord) (s : State) : Out :=
  (if a = 0 then Got.ok () s else storeAl (s.g a) r.bytes 32 s).andThen (fun _ s1 =>
    let s2 := if remove then s1.putCtx { s1.ctx with events := s1.ctx.events.erase r } else s1
    .next ((orderAfter r.view s2).write4 d r.header))

/-- EVPOP (R153). -/
def execEvpop (d a : Reg) (s : State) : Out :=
  match oldestRecord s with
  | none => .next (s.write4 d 0)
  | some r => takeRecord d a true r s

/-- EVPEEK (R153). -/
def execEvpeek (d a : Reg) (s : State) : Out :=
  match oldestRecord s with
  | none => .next (s.write4 d 0)
  | some r => takeRecord d a false r s

/-- EVWAIT (R153, R154): a zero timeout waits without limit. -/
def execEvwait (d a b : Reg) (s : State) : Out :=
  match oldestRecord s with
  | some r => takeRecord d a true r s
  | none =>
    let deadline := if s.g b = 0 then none else some (s.time + (s.g b).toNat)
    .next (blockOn (.evwait d a deadline) s)

/-- The FLSIG job that an issue starts (R168). -/
def flushJob (s : State) (ticket : BitVec 16) (va value : Word) (pa : Nat) (wait : Bool) : FlushJob :=
  ⟨s.nextJob, s.th.id, s.th.launch, s.core, ticket, va, pa, value, wait, false, false⟩

/-- The signal address of a FLSIG: faults on it are precise (R168), a window of the Umeno port that is not valid and open among them (R376). -/
def signalAccess (va : Word) (s : State) : Got Nat :=
  (access va 8 .write s).bind (fun pa s1 => if windowClosed s1 pa then .stop (trap cPROT va s1) else .ok pa s1)

/-- FLSIG (R168): the ticket at issue, the record on completion. -/
def execFlsig (d a b : Reg) (s : State) : Out :=
  let va := s.g a
  (signalAccess va s).andThen (fun pa s1 =>
    match reserve s1 with
    | none => .next (blockOn (.again 1 0) s1)
    | some s2 =>
      let (ticket, s3) := takeTicket s2
      let s4 := { s3 with flushes := s3.flushes ++ [flushJob s3 ticket va (s3.g b) pa false], nextJob := s3.nextJob + 1 }
      .next (s4.write4 d (ticket.setWidth 64)))

/-- FLSIG.W (R168): blocks until completion. -/
def execFlsigW (d a b : Reg) (s : State) : Out :=
  let va := s.g a
  (signalAccess va s).andThen (fun pa s1 =>
    let s2 := { s1 with flushes := s1.flushes ++ [flushJob s1 0 va (s1.g b) pa true], nextJob := s1.nextJob + 1 }
    .next (blockOn (.flsig d s1.nextJob) s2))

/-- A member of the set S of a FLSIG is under way: a posted store, reduction or window write issued before it. -/
def flushPending (j : FlushJob) (s : State) : Bool :=
  s.posted.any (fun p => p.owner == j.owner && decide (p.job ≤ j.id))
    || s.reds.any (fun r => r.owner == j.owner && decide (r.job ≤ j.id))
    || s.wqueue.any (fun q => q.2.any (fun e => e.ops.any (fun r => r.owner == j.owner && decide (r.job ≤ j.id))))
    || s.outbound.any (fun w => w.owner == j.owner && decide (w.job ≤ j.id) && !w.failed)

/-- The deferred errors of a FLSIG's set, which it reports in their place (R168). -/
def takeErrors (j : FlushJob) (s : State) : Bool × State :=
  let lost := fun (w : WindowWrite) => w.owner == j.owner && decide (w.job ≤ j.id) && w.failed
  let mine := fun (e : Nat × Nat) => decide (e.2 ≤ j.id)
  let s1 := { s with outbound := s.outbound.filter (fun w => !lost w) }
  match s1.thread? j.owner with
  | some t => (s.outbound.any lost || t.redErr.any mine || t.stErr.any mine,
      s1.putThread { t with redErr := t.redErr.filter (fun e => !mine e), stErr := t.stErr.filter (fun e => !mine e) })
  | none => (s.outbound.any lost, s1)

/-- The signal store, as STL.D.DEV at its home (R168, R293, R379); whether it met an error. -/
def signalStore (j : FlushJob) (s : State) : Bool × State :=
  let data := leBytes 8 j.value.toNat
  let mark := match j.launch with | some l => l + 1 | none => 0
  match locOf j.pa with
  | .host _ => (false, addRelease j.pa data mark (16 * 4 + coreDie j.core) (viewOf s j.owner)
      (toHost mark (j.owner + 1) (partOfMark s mark) j.pa data s))
  | .reserved => (true, s)
  | .umeno e off =>
    match windowTarget s (partOfMark s mark) e off with
    | some (st, remote) => (false, windowSend j.owner mark (partOfMark s mark) st remote j.addr data none true s)
    | none => (true, s)
  | _ =>
    let s1 := touchHeap j.pa (settleOwn j.owner j.pa 8 s)
    match pokeOk mark (j.owner + 1) j.pa data s1 with
    | some s2 => (false, addRelease j.pa data mark (16 * 4 + coreDie j.core) (viewOf s1 j.owner) s2)
    | none => (true, noteMemerr (partOfMark s1 mark) j.addr s1)

/-- FLSIG ends (R168): once its set is visible the signal is stored, and the record is delivered or the blocked FLSIG.W may
complete. -/
def execFlsigComplete (job : Nat) (s : State) : Out :=
  match s.flushes.find? (fun j => j.id == job && !j.done) with
  | none => .next s
  | some j =>
    if flushPending j s then .next s else
    let (e1, s1) := takeErrors j s
    let (e2, s2) := signalStore j s1
    let bad := e1 || e2
    if j.wait then
      .next { s2 with flushes := s2.flushes.map (fun x => if x.id = job then { x with done := true, failed := bad } else x) }
    else
      let s3 := { s2 with flushes := s2.flushes.filter (fun x => x.id != job) }
      .next (deliver j.core j.owner 3 j.ticket.toNat (if bad then cMEMERR else 0) 0 j.addr j.value s3)

end Sys2Proof.Machine
end

