-- ==== Sys2Proof/Machine/CoreMem.lean ====
section
/-!
DEFINITION. Loads and stores of the control cores, acquire and release, LDM and STM (R130 to R134).
-/

namespace Sys2Proof.Machine

open Sys2Proof

/-- LD (R130). -/
def execLd (d a : Reg) (size : BitVec 2) (off : BitVec 11) (s : State) : Out :=
  let n := sizeOf2 size
  (load (fmAddr s a off) n s).andThen (fun bs s1 => .next (s1.write4 d (sext (8 * n) (leNat bs))))

/-- LDN (R130); SIZE 0b11 is undefined (R32). -/
def execLdn (d a : Reg) (size : BitVec 2) (off : BitVec 11) (s : State) : Out :=
  if size = 3 then .next (illop s) else
  (load (fmAddr s a off) (sizeOf2 size) s).andThen (fun bs s1 => .next (s1.write4 d (w64 (leNat bs))))

/-- ST (R130). -/
def execSt (d a : Reg) (size : BitVec 2) (off : BitVec 11) (s : State) : Out :=
  (store (fmAddr s a off) (sizeOf2 size) (s.g d) s).andThen (fun _ s1 => .next (s1.advance 4))

/-- SIZE and scope accepted by LDA and STL (R132). -/
def acqRelOk (scope : BitVec 3) (size : BitVec 2) : Bool :=
  decide (2 ≤ size.toNat) && decide (2 ≤ scope.toNat) && decide (scope.toNat ≤ 5)

/-- A release with a code synchronises with an LDA of a scope on a die (R133, R361, R379). -/
def synchronises (scope die rel : Nat) : Bool :=
  let m := rel % 16
  let r := rel / 16
  if m = 15 then scope == 5
  else if m = 14 then decide (4 ≤ scope)
  else (m == die && decide (3 ≤ scope) && decide (3 ≤ r)) || (decide (4 ≤ scope) && decide (4 ≤ r))

/-- Bytes read at an address are, where they meet a release's, those that it wrote. -/
def Release.reads (r : Release) (pa : Nat) (bs : List Byte) : Bool :=
  (List.range bs.length).all (fun i => decide (pa + i < r.pa) || decide (r.pa + r.data.length ≤ pa + i)
    || nth r.data (pa + i - r.pa) 0 == nth bs i 0)

/-- After an LDA that reads bytes written by a release of a party outside its launch, later reads return nothing older than what the releasing
party's reads would have returned (R133, R286).  In host memory, which others than the device write, bytes that are equal to those of the
last release of the device count as read from it (DESIGN CHOICE, log 17). -/
def acquire (pa scope : Nat) (bs : List Byte) (s : State) : State :=
  let hits := s.releases.filter (fun r => overlap r.pa r.data.length pa bs.length && synchronises scope (coreDie s.core) r.rel
    && (r.mark == 0 || r.mark != s.launchMark) && (onDevice pa || r.reads pa bs))
  if hits.isEmpty then s else
  { s with th := { s.th with view := hits.foldl (fun v r => v.join r.view) s.th.view, fixed := [] } }

/-- The value an LDA returns becomes the fixed value of its bytes (R286). -/
def fixValue (pa : Nat) (bs : List Byte) (s : State) : State :=
  if s.th.launch.isSome then
    { s with th := { s.th with fixed := (List.range bs.length).foldl (fun f i => Table.set (pa + i) (nth bs i 0) f) s.th.fixed } }
  else s

/-- Reads the current value at an address for LDA (R132). -/
def loadCurrent (pa n : Nat) (va : Word) (scope : Nat) (s : State) : Got (List Byte) :=
  if onDevice pa then
    let s1 := settleOwn s.th.id pa n s
    if readFails s1 pa n then .stop (trap cMEMERR va s1) else
    let bs := peek s1 pa n
    .ok bs (fixValue pa bs (acquire pa scope bs (observe pa n s1)))
  else
    (loadPaAt pa n va 0 (unfix pa n (settleOwn s.th.id pa n s))).bind (fun bs s1 => .ok bs (fixValue pa bs (acquire pa scope bs s1)))

/-- LDA (R132). -/
def execLda (d a : Reg) (scope : BitVec 3) (size : BitVec 2) (off : BitVec 11) (s : State) : Out :=
  if !acqRelOk scope size then .next (illop s) else
  let va := fmAddr s a off
  let n := sizeOf2 size
  ((access va n .read s).bind (fun pa s1 => loadCurrent pa n va scope.toNat s1)).andThen
    (fun bs s1 => .next (s1.write4 d (sext (8 * n) (leNat bs))))

/-- Earlier accesses that STL must find complete: at RING and DIE scope only those homed on the issuing die (R132, R379). -/
def releasePending (scope : Nat) (s : State) : Bool :=
  let die := if scope ≤ 3 then some (coreDie s.core) else none
  storesPending s s.th.id die || redsPending s s.th.id die || windowPending s s.th.id || signalsPending s s.th.id

/-- STL (R132): waits until earlier accesses are complete, reports a deferred error (R138), then performs the store. -/
def execStl (d a : Reg) (scope : BitVec 3) (size : BitVec 2) (off : BitVec 11) (s : State) : Out :=
  if !acqRelOk scope size then .next (illop s) else
  let va := fmAddr s a off
  let n := sizeOf2 size
  (access va n .write s).andThen (fun pa s1 =>
    if releasePending scope.toNat s1 then .next (blockOn (.again 3 (if scope.toNat ≤ 3 then 1 else 0)) s1) else
    match takeDeferred true true true s1 with
    | some s2 => .next s2
    | none =>
      (storePaAt pa (leBytes n (s1.g d).toNat) (16 * scope.toNat + coreDie s1.core) va 0 s1).andThen
        (fun _ s2 => .next (s2.advance 4)))

/-- The reads of LDM, step i on (R134). -/
def ldmFrom : List Nat → Word → State → Got (List Word)
  | [], _, s => .ok [] s
  | i :: t, a, s =>
    let va := a + w64 (8 * i)
    (accessAt va 8 .read i s).bind (fun pa s1 =>
      (loadPaAt pa 8 va i s1).bind (fun bs s2 =>
        (ldmFrom t a s2).bind (fun ws s3 => .ok (w64 (leNat bs) :: ws) s3)))

/-- Writes consecutive registers. -/
def setRegs : List Word → Nat → State → State
  | [], _, s => s
  | w :: t, r, s => setRegs t (r + 1) (s.setG (regOf r) w)

/-- LDM (R134): registers change only at the last step.  A range past g31 (undefined in R32) traps ILLOP before the LEGACY gate (DESIGN
CHOICE, log 38). -/
def execLdm (d a : Reg) (n : BitVec 5) (off : BitVec 11) (s : State) : Out :=
  if 31 < d.val + n.toNat then .next (illop s) else
  gated 5 s ((ldmFrom (List.range (n.toNat + 1)) (fmAddr s a off) s).andThen
    (fun ws s1 => .next ((setRegs ws d.val s1).advance 4)))

/-- The translations of STM, step i on (R134). -/
def stmFrom : List Nat → Word → State → Got (List Nat)
  | [], _, s => .ok [] s
  | i :: t, a, s =>
    (accessAt (a + w64 (8 * i)) 8 .write i s).bind (fun pa s1 =>
      if windowClosed s1 pa then .stop (trapAt cPROT (a + w64 (8 * i)) s1.th.pc i s1) else
      (stmFrom t a s1).bind (fun pas s2 => .ok (pa :: pas) s2))

/-- The stores of STM's last step. -/
def stmWrite : List Nat → Nat → Nat → Word → Nat → State → Got Unit
  | [], _, _, _, _, s => .ok () s
  | pa :: t, i, r, a, ex, s =>
    (storePaAt pa (leBytes 8 (s.g (regOf (r + i))).toNat) 0 (a + w64 (8 * i)) ex s).bind (fun _ s1 =>
      stmWrite t (i + 1) r a ex s1)

/-- STM (R134): nothing is written before every address has been translated and checked.  A range past g31 traps ILLOP before the LEGACY
gate (DESIGN CHOICE, log 38). -/
def execStm (d a : Reg) (n : BitVec 5) (off : BitVec 11) (s : State) : Out :=
  if 31 < d.val + n.toNat then .next (illop s) else
  let va := fmAddr s a off
  gated 5 s (((stmFrom (List.range (n.toNat + 1)) va s).bind (fun pas s1 =>
    stmWrite pas 0 d.val va (n.toNat + 1) s1)).andThen (fun _ s1 => .next (s1.advance 4)))

end Sys2Proof.Machine
end

