-- ==== Sys2Proof/Machine/CoreSys.lean ====
section
/-!
DEFINITION. FENCE, PHASE, BAR and the system instructions of the control cores (R139 to R147, R184), and their control
registers (R28, R29, R144).
-/

namespace Sys2Proof.Machine

open Sys2Proof

/-! ## FENCE, PHASE, BAR -/

/-- Earlier accesses of the named classes are under way (R139, R379): FL[0] MEM, FL[1] AMO, FL[2] COPY. -/
def fencePending (scope classes : Nat) (s : State) : Bool :=
  underWay (bit classes 0) (bit classes 1) (bit classes 2) (scope == 5 && (bit classes 0 || bit classes 1)) s

/-- After a FENCE with the COPY class later reads see what its copies wrote (R139, R166). -/
def seeCopies (on : Bool) (s : State) : State := if on then orderAfter s.th.copied s else s

/-- The end of a FENCE: a deferred report (R138, R379), or the next instruction. -/
def fenceDone (scope classes : Nat) (s : State) : State :=
  match takeDeferred (bit classes 0 || bit classes 1) (bit classes 1) (scope == 5 && (bit classes 0 || bit classes 1)) s with
  | some s1 => s1
  | none => (seeCopies (bit classes 2) s).advance 4

/-- FENCE (R139). -/
def execFence (scope : BitVec 3) (classes : BitVec 3) (s : State) : Out :=
  if scope.toNat < 2 ∨ 5 < scope.toNat ∨ classes = 0 then .next (illop s) else
  if fencePending scope.toNat classes.toNat s then .next (blockOn (.fence scope.toNat (classes.setWidth 5)) s)
  else .next (fenceDone scope.toNat classes.toNat s)

/-- PHASE (R140): the fence of all classes at DEV scope, then arrival, then a wait for the boundary. -/
def execPhase (d : Reg) (s : State) : Out :=
  launchOnly s (
    if underWay true true true true s then .next (blockOn (.again 3 2) s) else
    match takeDeferred true true true s with
    | some s1 => .next s1
    | none =>
      let s1 := seeCopies true s
      .next (blockOn (.phase d s.th.phase) { s1 with th := { s1.th with arrived := true } }))

/-- The atomic step of BAR at the bank (R141): the new word, and the generation a waiter waits to leave. -/
def barStep (word count : Nat) : Nat × Option Nat :=
  let n := (word % 2 ^ 32 + 1) % 2 ^ 32
  let gen := word / 2 ^ 32
  if count ≤ n then ((gen + 1) % 2 ^ 32 * 2 ^ 32, none) else (gen * 2 ^ 32 + n, some gen)

/-- BAR (R141).  The count is checked before the address, a misaligned address traps ALIGN as a data address does (R148), and the
translation is that of a read and write (DESIGN CHOICE, log 39). -/
def execBar (a b : Reg) (s : State) : Out :=
  launchOnly s (
    let va := s.g a
    let count := (s.g b).toNat
    if count = 0 ∨ 4096 < count then .next (trap cILLOP (s.g b) s) else
    (access va 8 .rw s).andThen (fun pa s1 =>
      match locOf pa with
      | .dsm die _ =>
        if die ≠ coreDie s1.core then .next (trap cPROT va s1) else
        let s2 := settleOwn s1.th.id pa 8 s1
        if readFails s2 pa 8 then .next (trap cMEMERR va s2) else
        let (word, wait) := barStep (leNat (peek s2 pa 8)) count
        let s3 := unfix pa 8 (poke s2.launchMark (s2.th.id + 1) pa (leBytes 8 word) s2)
        match wait with
        | none => .next (s3.advance 4)
        | some gen => .next (blockOn (.bar va pa (BitVec.ofNat 32 gen)) s3)
      | _ => .next (trap cPROT va s1)))

/-! ## NOP, TRAP, RFT, BRK, CINVAL, CYC -/

def execNop (s : State) : Out := .next (s.advance 4)

/-- TRAP (R142): RFT continues after it. -/
def execTrap (code : BitVec 10) (s : State) : Out := .next (trapAt cTRAPI (zx code) (s.th.pc + 4) 0 s)

/-- RFT (R143). -/
def execRft (s : State) : Out := .next (returnFromTrap s)

/-- BRK (R142). -/
def execBrk (s : State) : Out := .next (trap cBRKPT 0 s)

/-- Empties a core's fetch, loop and REP buffers. -/
def emptyBuffers (c : Nat) (s : State) : State :=
  { s with cores := Table.set c { s.coreAt c with fetched := [], body := [], stale := false } s.cores }

/-- CINVAL (R146): waits for earlier stores, then empties the core's fetch, loop and REP buffers; inside a REP body that takes effect on the
next pass. -/
def execCinval (s : State) : Out :=
  if storesPending s s.th.id none || signalsPending s s.th.id then .next (blockOn (.again 3 3) s)
  else if s.th.loop.active then
    .next ({ s with cores := Table.set s.core { s.coreAt s.core with stale := true } s.cores }.advance 4)
  else .next ((emptyBuffers s.core s).advance 4)

/-- CYC (R147): the global timestamp counter. -/
def execCyc (d : Reg) (s : State) : Out := .next (s.write4 d (w64 s.time))

/-- CYC.CORE (R147): the core's cycle counter at 2.2 GHz; `cycles` counts fifths of a cycle. -/
def execCycCore (d : Reg) (s : State) : Out := .next (s.write4 d (w64 (s.th.cycles / 5)))

/-! ## Control registers (R28, R29) -/

/-- KSTAT (R29). -/
def kstat (s : State) : Word :=
  let die := if s.mgmt then 0 else coreDie s.core
  let core := if s.mgmt then s.core - 64 else s.core % 8
  let m := ofBool s.mgmt
  w64 (die * 2 ^ 29 + core * 2 ^ 26 + m * 2 ^ 25 + m * 2 ^ 24 + ofBool s.th.prio * 2 ^ 16 + ofBool s.th.inTrap * 2 ^ 8)

/-- The HMASK of a stack (R263). -/
def khmask (s : State) (j : Nat) : Word := Table.getD s.io.khmask j 0x0FFFF80000

/-- The value of a control register; none where KNUM is undefined (R28). -/
def kread (s : State) (k : Nat) : Option Word :=
  let none0 := fun (v : Word) => if s.mgmt then (0 : Word) else v
  let c := s.ctx
  if k = 0x000 then some (kstat s)
  else if k = 0x001 then some s.th.trapPc
  else if k = 0x002 then some s.th.trapCause
  else if k = 0x003 then some s.th.trapVal
  else if k = 0x004 then some s.th.expStep
  else if k = 0x005 then some s.th.trapVec
  else if k = 0x006 then some s.th.scratch
  else if k = 0x010 then some (none0 c.stkBase)
  else if k = 0x011 then some (none0 c.stkSize)
  else if k = 0x012 then some (none0 c.stkOvf)
  else if k = 0x018 then some (none0 s.th.cont)
  else if k = 0x019 then some (none0 s.th.contFp)
  else if k = 0x020 then some (w64 (eventsPresent s s.core))
  else if 0x030 ≤ k ∧ k ≤ 0x037 then some (Table.getD c.brkAddr (k - 0x030) 0)
  else if k = 0x038 then some (c.brkCtl.setWidth 64)
  else if k = 0x040 then some (none0 (match s.launch? with | some v => v.ident | none => 0))
  else if k = 0x041 then some (none0 (match s.launch? with | some v => w64 v.part | none => 0))
  else if 0x110 ≤ k ∧ k ≤ 0x11F then some (khmask s (k - 0x110))
  else if k = 0x120 then some (w64 s.io.fwslot)
  else if k = 0x121 then some s.io.hbeat
  else if k = 0x122 then some s.io.handover
  else none

/-- A KNUM that only a privileged core reaches (R28). -/
def privKnum (k : Nat) : Bool := decide (0x100 ≤ k)

/-- KRD (R144). -/
def execKrd (d : Reg) (k : BitVec 10) (s : State) : Out :=
  if privKnum k.toNat && !s.mgmt then .next (trap cPRIV s.word0 s) else
  match kread s k.toNat with
  | some v => .next (s.write4 d v)
  | none => .next (illop s)

/-- An address in HBM stack j. -/
def inStack (j pa : Nat) : Bool :=
  match locOf pa with
  | .hbm i _ => i == j
  | _ => false

/-- A live mapping of stack j (R264): a held translation, or an access under way. -/
def liveMapping (s : State) (j : Nat) : Bool :=
  s.tlb.any (fun e => inStack j e.pa) || s.posted.any (fun p => inStack j p.pa) || s.reds.any (fun r => inStack j r.pa)
    || Table.getD s.wqueue j [] != [] || s.flushes.any (fun f => !f.done && inStack j f.pa)
    || s.copies.any (fun c => match c.tail with | some z => inStack j z.1 | none => false) || s.inbound.any (fun w => w.reg.isNone && inStack j w.pa)

/-- The offset whose granule stands, under another mask, where that of an offset stood (R262). -/
def movedOffset (old new o : Nat) : Nat :=
  let (c, p, _) := hbmDecode old o
  let base := o - bits o 12 7 * 128
  let (c0, p0, _) := hbmDecode new base
  base + Nat.xor (2 * c + p) (2 * c0 + p0) * 128

/-- Every unit of a stack reads free contents from now on, the version heaps there too, and errors stay with their granules (R249, R262, R277;
log 7). -/
def scramble (j old new : Nat) (s : State) : State :=
  let (k, s1) := draw s
  let moved := fun (a : Nat) => if inStack j a then j * 2 ^ 36 + movedOffset old new (a % 2 ^ 36) else a
  let s2 := (List.range 64).foldl (fun t u => loseUnit (64 * j + u) (k + 1) t) s1
  spoilHeaps (inStack j) { s2 with io := { s2.io with regions := spoilRegions (inStack j) s2.io.regions }, errors := s2.errors.map (fun e => if e.1 = 0 then (0, moved e.2) else e) }

/-- KWR to KHMASKj (R263, R264): refused while the stack holds a live mapping; the write carries no data across it (R249). -/
def writeHmask (j : Nat) (v : Word) (s : State) : State :=
  let new := v &&& 0xFFFFFE000
  let s1 := scramble j (khmask s j).toNat new.toNat s
  { s1 with io := { s1.io with khmask := Table.set j new s1.io.khmask } }

/-- KWR to a breakpoint address of the executing core (R28, R334). -/
def writeBrk (i : Nat) (v : Word) (s : State) : State := s.putCtx { s.ctx with brkAddr := Table.set i v s.ctx.brkAddr }

/-- KWR (R28, R144). -/
def execKwr (a : Reg) (k : BitVec 10) (s : State) : Out :=
  let n := k.toNat
  let v := s.g a
  let done := fun (t : State) => (Host.Outcome.next (t.advance 4) : Out)
  if privKnum n && !s.mgmt then .next (trap cPRIV s.word0 s)
  else if n = 0x001 then done { s with th := { s.th with trapPc := v } }
  else if n = 0x002 then done { s with th := { s.th with trapCause := v } }
  else if n = 0x003 then done { s with th := { s.th with trapVal := v } }
  else if n = 0x005 then
    if v.toNat % 4 ≠ 0 then .next (trap cALIGN v s) else done { s with th := { s.th with trapVec := v } }
  else if n = 0x006 then done { s with th := { s.th with scratch := v } }
  else if 0x030 ≤ n ∧ n ≤ 0x037 then done (writeBrk (n - 0x030) v s)
  else if n = 0x038 then done (s.putCtx { s.ctx with brkCtl := v.setWidth 8 })
  else if 0x110 ≤ n ∧ n ≤ 0x11F then
    if liveMapping s (n - 0x110) then .next (trap cPROT (w64 n) s) else done (writeHmask (n - 0x110) v s)
  else if n = 0x122 then
    if v.toNat % 64 ≠ 0 then .next (trap cALIGN v s) else done { s with io := { s.io with handover := v } }
  else .next (illop s)

/-! ## ENRD, FEATRD (R184, R399) -/

/-- A ring's energy budget in force, in nJ (R395). -/
def ringBudget (s : State) (r : Nat) : Nat := Table.getD s.io.budget r 68750000

/-- A ring's energy left in the window, in nJ (R395). -/
def ringEnergy (s : State) (r : Nat) : Nat := Table.getD s.io.energy r (ringBudget s r)

/-- Once a window boundary is reached, budgets written since the last one come into force, and every ring has its whole budget again (R395). -/
def openWindow (s : State) : State :=
  if s.time / 1000000 ≤ s.io.energyAt then s else
  { s with io := { s.io with
    energyAt := s.time / 1000000, energy := [], budgetIn := []
    budget := s.io.budgetIn.foldl (fun t b => Table.set b.1 b.2 t) s.io.budget } }

/-- The value of ENRD for a ring, sel 0 to 2. -/
def energyRead (s : State) (r sel : Nat) : Word :=
  if !available s (r / 4) then 0
  else if sel = 0 then w64 (ringEnergy s r)
  else if sel = 1 then w64 (ringBudget s r)
  else w64 (1000000 - s.time % 1000000)

/-- ENRD of a ring (R184): sel 3 and a ring above 31 trap ILLOP. -/
def energyOf (d : Reg) (r sel : Nat) (s : State) : Out :=
  if sel = 3 ∨ 31 < r then .next (illop s) else .next (s.write4 d (energyRead s r sel))

/-- ENRD with GA = g0: the ring of a control core; ring 0 on a management core, since g0 reads 0. -/
def execEnrd (d : Reg) (sel : BitVec 2) (s : State) : Out :=
  energyOf d (if s.mgmt then 0 else coreRing s.core) sel.toNat s

/-- ENRD with GA ≠ g0: a management core names the ring; ILLOP on a control core. -/
def execEnrdRing (d a : Reg) (sel : BitVec 2) (s : State) : Out :=
  if s.mgmt then energyOf d (s.g a).toNat sel.toNat s else .next (illop s)

/-- FEATRD of a set (R184): a word number above 3 traps ILLOP. -/
def featWord (d a : Reg) (set : List Word) (s : State) : Out :=
  launchOnly s (if 3 < (s.g a).toNat then .next (illop s) else .next (s.write4 d (nth set (s.g a).toNat 0)))

def execFeatrd (d a : Reg) (s : State) : Out := featWord d a (s.part s.partNow).accept s
def execFeatrdOffer (d a : Reg) (s : State) : Out := featWord d a Config.featOffer s

end Sys2Proof.Machine
end

