-- ==== Sys2Proof/Machine/Sha.lean ====
section
/-!
DEFINITION. SHA-384, which the spec names for digests and measurement registers (R165, R181, R185, R330, R381, R384).  The
algorithm is that of FIPS 180-4, which the spec does not print (PRESUMED, log 10).
-/

namespace Sys2Proof.Machine

open Sys2Proof

/-- The 80 round constants. -/
def shaK : List Word :=
  [0x428A2F98D728AE22, 0x7137449123EF65CD, 0xB5C0FBCFEC4D3B2F, 0xE9B5DBA58189DBBC]
    ++ [0x3956C25BF348B538, 0x59F111F1B605D019, 0x923F82A4AF194F9B, 0xAB1C5ED5DA6D8118]
    ++ [0xD807AA98A3030242, 0x12835B0145706FBE, 0x243185BE4EE4B28C, 0x550C7DC3D5FFB4E2]
    ++ [0x72BE5D74F27B896F, 0x80DEB1FE3B1696B1, 0x9BDC06A725C71235, 0xC19BF174CF692694]
    ++ [0xE49B69C19EF14AD2, 0xEFBE4786384F25E3, 0x0FC19DC68B8CD5B5, 0x240CA1CC77AC9C65]
    ++ [0x2DE92C6F592B0275, 0x4A7484AA6EA6E483, 0x5CB0A9DCBD41FBD4, 0x76F988DA831153B5]
    ++ [0x983E5152EE66DFAB, 0xA831C66D2DB43210, 0xB00327C898FB213F, 0xBF597FC7BEEF0EE4]
    ++ [0xC6E00BF33DA88FC2, 0xD5A79147930AA725, 0x06CA6351E003826F, 0x142929670A0E6E70]
    ++ [0x27B70A8546D22FFC, 0x2E1B21385C26C926, 0x4D2C6DFC5AC42AED, 0x53380D139D95B3DF]
    ++ [0x650A73548BAF63DE, 0x766A0ABB3C77B2A8, 0x81C2C92E47EDAEE6, 0x92722C851482353B]
    ++ [0xA2BFE8A14CF10364, 0xA81A664BBC423001, 0xC24B8B70D0F89791, 0xC76C51A30654BE30]
    ++ [0xD192E819D6EF5218, 0xD69906245565A910, 0xF40E35855771202A, 0x106AA07032BBD1B8]
    ++ [0x19A4C116B8D2D0C8, 0x1E376C085141AB53, 0x2748774CDF8EEB99, 0x34B0BCB5E19B48A8]
    ++ [0x391C0CB3C5C95A63, 0x4ED8AA4AE3418ACB, 0x5B9CCA4F7763E373, 0x682E6FF3D6B2B8A3]
    ++ [0x748F82EE5DEFB2FC, 0x78A5636F43172F60, 0x84C87814A1F0AB72, 0x8CC702081A6439EC]
    ++ [0x90BEFFFA23631E28, 0xA4506CEBDE82BDE9, 0xBEF9A3F7B2C67915, 0xC67178F2E372532B]
    ++ [0xCA273ECEEA26619C, 0xD186B8C721C0C207, 0xEADA7DD6CDE0EB1E, 0xF57D4F7FEE6ED178]
    ++ [0x06F067AA72176FBA, 0x0A637DC5A2C898A6, 0x113F9804BEF90DAE, 0x1B710B35131C471B]
    ++ [0x28DB77F523047D84, 0x32CAAB7B40C72493, 0x3C9EBE0A15C9BEBC, 0x431D67C49C100D4C]
    ++ [0x4CC5D4BECB3E42B6, 0x597F299CFC657E2A, 0x5FCB6FAB3AD6FAEC, 0x6C44198C4A475817]

/-- The initial hash value of SHA-384. -/
def shaH0 : List Word :=
  [0xCBBB9D5DC1059ED8, 0x629A292A367CD507, 0x9159015A3070DD17, 0x152FECD8F70E5939]
    ++ [0x67332667FFC00B31, 0x8EB44A8768581511, 0xDB0C2E0D64F98FA7, 0x47B5481DBEFA4FA4]

/-- A word from eight bytes, most significant first. -/
def w64be (bs : List Byte) : Word := BitVec.ofNat 64 (leNat bs.reverse)

/-- Rotation to the right. -/
def shaRotr (x : Word) (n : Nat) : Word := x.rotateRight n

/-- Message schedule: the next word from the last sixteen, latest first. -/
def shaNext (w : List Word) : Word :=
  let a := nth w 1 0
  let b := nth w 14 0
  let s1 := shaRotr a 19 ^^^ shaRotr a 61 ^^^ (a >>> 6)
  let s0 := shaRotr b 1 ^^^ shaRotr b 8 ^^^ (b >>> 7)
  s1 + nth w 6 0 + s0 + nth w 15 0

/-- Extends a schedule, latest first, by n words. -/
def shaExtend : Nat → List Word → List Word
  | 0, w => w
  | n + 1, w => shaExtend n (shaNext w :: w)

/-- The eight working variables. -/
structure ShaSt where
  a : Word
  b : Word
  c : Word
  d : Word
  e : Word
  f : Word
  g : Word
  h : Word

/-- One round. -/
def shaRound (v : ShaSt) (kw : Word × Word) : ShaSt :=
  let s1 := shaRotr v.e 14 ^^^ shaRotr v.e 18 ^^^ shaRotr v.e 41
  let ch := (v.e &&& v.f) ^^^ (~~~ v.e &&& v.g)
  let t1 := v.h + s1 + ch + kw.1 + kw.2
  let s0 := shaRotr v.a 28 ^^^ shaRotr v.a 34 ^^^ shaRotr v.a 39
  let maj := (v.a &&& v.b) ^^^ (v.a &&& v.c) ^^^ (v.b &&& v.c)
  ⟨t1 + (s0 + maj), v.a, v.b, v.c, v.d + t1, v.e, v.f, v.g⟩

/-- The compression of one 128-byte block. -/
def shaBlock (h : List Word) (block : List Byte) : List Word :=
  let w0 := (List.range 16).map (fun i => w64be ((block.drop (8 * i)).take 8))
  let ws := (shaExtend 64 w0.reverse).reverse
  let v : ShaSt := ⟨nth h 0 0, nth h 1 0, nth h 2 0, nth h 3 0, nth h 4 0, nth h 5 0, nth h 6 0, nth h 7 0⟩
  let r := (shaK.zip ws).foldl shaRound v
  [nth h 0 0 + r.a, nth h 1 0 + r.b, nth h 2 0 + r.c, nth h 3 0 + r.d,
   nth h 4 0 + r.e, nth h 5 0 + r.f, nth h 6 0 + r.g, nth h 7 0 + r.h]

/-- The compression of n blocks. -/
def shaBlocks : Nat → List Word → List Byte → List Word
  | 0, h, _ => h
  | n + 1, h, bs => shaBlocks n (shaBlock h (bs.take 128)) (bs.drop 128)

/-- The message with its padding. -/
def shaPad (bs : List Byte) : List Byte :=
  let z := (240 - bs.length % 128 - 1) % 128
  bs ++ [0x80] ++ List.replicate z 0 ++ beBytes 16 (8 * bs.length)

/-- SHA-384 of a byte string: 48 bytes. -/
def sha384 (bs : List Byte) : List Byte :=
  let p := shaPad bs
  ((shaBlocks (p.length / 128) shaH0 p).take 6).flatMap (fun w => beBytes 8 w.toNat)

/-! ## Keys from secrets (RFC 2104, RFC 5869; log 10) -/

/-- HMAC with SHA-384. -/
def hmac384 (key msg : List Byte) : List Byte :=
  let k := if 128 < key.length then sha384 key else key
  let pad := k ++ List.replicate (128 - k.length) 0
  sha384 (pad.map (· ^^^ 0x5C) ++ sha384 (pad.map (· ^^^ 0x36) ++ msg))

/-- HKDF-Expand to n bytes, at most 48. -/
def hkdfExpand (secret info : List Byte) (n : Nat) : List Byte := (hmac384 secret (info ++ [1])).take n

/-- The bytes of a text. -/
def asciiBytes (text : String) : List Byte := text.toList.map (fun c => BitVec.ofNat 8 c.toNat)

/-- How the SPDM key schedule names a version. -/
def spdmName (version : Byte) : List Byte := asciiBytes (if version = 0x13 then "spdm1.3 " else "spdm1.2 ")

end Sys2Proof.Machine
end

