-- ==== Sys2Proof/Machine/Copy.lean ====
section
/-!
DEFINITION. Copies: COPY, COPYI, PBINV and the copy engine (R163 to R167).
-/

namespace Sys2Proof.Machine

open Sys2Proof

/-! ## Issue -/

/-- The words of a parameter block (R163) with every reserved field zero and its counts in range (R164). -/
def blockLegal (ws : List Word) : Bool :=
  let w := fun i => (nth ws i 0).toNat
  let len := w 2
  let rows := w 3
  decide (len < 2 ^ 40) && decide (rows < 2 ^ 32) && bits (w 6) 31 6 == 0 && len != 0 && rows != 0
    && (!bit (w 6) 4 || decide (len * rows ≤ 2 ^ 32))

/-- The die, partition and address of a cached block. -/
def cachedBlock (s : State) (va : Word) : Option (List Word) :=
  (s.blockCache.find? (fun b => b.1 == coreDie s.core && b.2.1 == s.partNow && b.2.2.1 == va.toNat)).map (·.2.2.2)

/-- Reads a parameter block: the cached entry of its address, else 64 bytes as an ordinary load (R164). -/
def readBlock (va : Word) (s : State) : Got (List Word) :=
  if va.toNat % 64 ≠ 0 then .stop (trap cALIGN va s) else
  match cachedBlock s va with
  | some ws => .ok ws s
  | none =>
    (loadAl va 64 64 s).bind (fun bs s1 => .ok (bytesWords 8 bs) s1)

/-- A block whose IMMUT is 1 is entered in the cache when its COPY issues (R164). -/
def cacheBlock (va : Word) (ws : List Word) (s : State) : State :=
  if bit (nth ws 6 0).toNat 3 && (cachedBlock s va).isNone then
    { s with blockCache := s.blockCache ++ [(coreDie s.core, s.partNow, va.toNat, ws)] }
  else s

/-- The first source byte must be homed on the issuing die (R164); a page fault there is left to the engine (log 18). -/
def sourceHomed (src : Word) (s : State) : Got Unit :=
  match translate s s.partNow src .read with
  | (.ok pa, s1) => if homeDie pa = coreDie s1.core then .ok () s1 else .stop (trap cPROT src s1)
  | (.prot, s1) => .stop (trap cPROT src s1)
  | (.memerr, s1) => .stop (trap cMEMERR src s1)
  | (.fault _ _, s1) => .ok () s1

/-- The copy that an issue starts. -/
def newCopy (s : State) (l : Nat) (ws : List Word) (ticket : BitVec 16) : CopyJob :=
  let w6 := (nth ws 6 0).toNat
  { id := s.nextJob, die := coreDie s.core, queue := bits w6 1 0, owner := s.th.id, launch := l, part := s.partNow,
    core := s.core, phase := s.th.phase, ticket := ticket, src := nth ws 0 0, dst := nth ws 1 0, len := (nth ws 2 0).toNat,
    rows := (nth ws 3 0).toNat, sstride := nth ws 4 0, dstride := nth ws 5 0, tag := BitVec.ofNat 32 (bits w6 63 32),
    norec := bit w6 5, verify := bit w6 4, ordered := bit w6 2, digest := nth ws 7 0, expected := [], done := 0, chunk := 0,
    finished := none, frozen := false, placement := none, faulted := false, started := false, floor := s.th.floor, fixed := [],
    after := View.zero, tail := none }

/-- Issues a copy of a block: the source check, the entry, the ticket, and what `keep` adds (R150, R164). -/
def issueCopy (d : Reg) (ws : List Word) (bytes : Nat) (keep : State → State) (s : State) : Out :=
  match s.th.launch with
  | none => .next s
  | some l =>
    if !blockLegal ws then .next (illop s) else
    (sourceHomed (nth ws 0 0) s).andThen (fun _ s1 =>
      let norec := bit (nth ws 6 0).toNat 5
      match (if norec then some s1 else reserve s1) with
      | none => .next (blockOn (.again 1 0) s1)
      | some s2 =>
        let (ticket, s3) := takeTicket s2
        let s4 := keep { s3 with copies := s3.copies ++ [newCopy s3 l ws ticket], nextJob := s3.nextJob + 1 }
        .next ((s4.setG d (ticket.setWidth 64)).advance bytes))

/-- COPY (R163, R164). -/
def execCopy (d a : Reg) (s : State) : Out :=
  launchOnly s ((readBlock (s.g a) s).andThen (fun ws s1 => issueCopy d ws 4 (cacheBlock (s.g a) ws) s1))

/-- COPYI (R163): one row, queue 0, ordered; LEN 0 traps ILLOP. -/
def execCopyi (d a : Reg) (len : BitVec 32) (s : State) : Out :=
  launchOnly s (issueCopy d [s.g a, s.g d, zx len, 1, 0, 0, 4, 0] 8 id s)

/-- PBINV (R163): GA = g0 empties the die's cache; another register removes the entry of its address. -/
def execPbinv (a : Reg) (s : State) : Out :=
  launchOnly s (
    let die := coreDie s.core
    let gone := fun (b : Nat × Nat × Nat × List Word) =>
      b.1 == die && (a == 0 || (b.2.1 == s.partNow && b.2.2.1 == (s.g a).toNat))
    .next ({ s with blockCache := s.blockCache.filter (fun b => !gone b) }.advance 4))

/-! ## The engine (R165 to R167) -/

/-- Changes a copy. -/
def mapCopy (id : Nat) (f : CopyJob → CopyJob) (s : State) : State :=
  { s with copies := s.copies.map (fun c => if c.id = id then f c else c) }

/-- A piece of a chunk, within one row and one page on either side: its row, its virtual and physical addresses and its bytes. -/
structure CopyPiece where
  row   : Nat
  srcVa : Word
  dstVa : Word
  len   : Nat
  src   : Nat
  dst   : Nat
  deriving DecidableEq, Repr

/-- The pieces of m bytes of copy order from position p, not yet translated. -/
def copyPieces (c : CopyJob) : Nat → Nat → Nat → List CopyPiece
  | 0, _, _ => []
  | fuel + 1, p, m =>
    if m = 0 then [] else
    let row := p / c.len
    let col := p % c.len
    let sa := c.src + w64 row * c.sstride + w64 col
    let da := c.dst + w64 row * c.dstride + w64 col
    let k := min m (min (c.len - col) (min (4096 - sa.toNat % 4096) (4096 - da.toNat % 4096)))
    ⟨row, sa, da, k, 0, 0⟩ :: copyPieces c fuel (p + k) (m - k)

/-- The translation of a chunk: its pieces, an end with its cause and address, or a replayable fault. -/
inductive ChunkTr where
  | ok (ps : List CopyPiece)
  | fail (cause : Nat) (va : Word)
  | fault (va : Word) (c : Cls) (reason level : Nat)

/-- Whether a copy may write an address (R165, R368, R376). -/
def copyTarget (s : State) (part pa : Nat) : Bool :=
  match locOf pa with
  | .hbm _ _ => true
  | .dsm _ _ => true
  | .umeno e off => (windowTarget s part e off).isSome
  | .host _ => false
  | .reserved => false

/-- The outcomes of two parts of a chunk: a page that is not mapped comes first, since every page is translated before anything is judged; of two
failures the first counts (R165). -/
def ChunkTr.join : ChunkTr → ChunkTr → ChunkTr
  | .fault va c r l, _ => .fault va c r l
  | _, .fault va c r l => .fault va c r l
  | .fail c va, _ => .fail c va
  | _, .fail c va => .fail c va
  | .ok ps, .ok qs => .ok (ps ++ qs)

/-- One end of a piece: its page is translated, then its place judged. -/
def translateEnd (part : Nat) (va : Word) (n : Nat) (cls : Cls) (good : State → Nat → Bool) (piece : Nat → List CopyPiece) (s : State) : ChunkTr × State :=
  match translateSpan s part va n cls with
  | (.prot, s1) => (.fail cPROT (protAt s part va n), s1)
  | (.memerr, s1) => (.fail cMEMERR va, s1)
  | (.fault r l, s1) => (.fault va cls r l, s1)
  | (.ok pa, s1) => (if good s1 pa then .ok (piece pa) else .fail cPROT va, s1)

/-- Both ends of a piece: the source is homed on the issuing die, and the destination is one that a copy may write. -/
def translatePiece (c : CopyJob) (p : CopyPiece) (s : State) : ChunkTr × State :=
  let a := translateEnd c.part p.srcVa p.len .read (fun _ pa => homeDie pa == c.die) (fun pa => [{ p with src := pa }]) s
  let src := match a.1 with | .ok [q] => q.src | _ => 0
  let b := translateEnd c.part p.dstVa p.len .write (fun t pa => copyTarget t c.part pa) (fun pa => [{ p with src := src, dst := pa }]) a.2
  (match a.1 with | .ok _ => b.1 | e => e.join b.1, b.2)

/-- Translates the pieces of a chunk. -/
def translateChunk (c : CopyJob) : List CopyPiece → State → ChunkTr × State
  | [], s => (.ok [], s)
  | p :: t, s =>
    let a := translatePiece c p s
    let b := translateChunk c t a.2
    (a.1.join b.1, b.2)

/-- The on-device ranges that a chunk writes, with the bytes held back before it. -/
def chunkRanges (c : CopyJob) (ps : List CopyPiece) : List (Nat × Nat) :=
  (match c.tail with | some (pa, bs) => [(pa, bs.length)] | none => [])
    ++ (ps.filter (fun p => onDevice p.dst)).map (fun p => (p.dst, p.len))

/-- Every byte of a unit lies in the ranges. -/
def rangesCover (rs : List (Nat × Nat)) (u : Nat × Nat) : Bool :=
  (List.range u.2).all (fun i => rs.any (fun r => decide (r.1 ≤ u.1 + i) && decide (u.1 + i < r.1 + r.2)))

/-- The offset of the first byte of a piece that a test picks out. -/
def firstByte (n : Nat) (bad : Nat → Bool) : Option Nat := (List.range n).find? bad

/-- The address of the first uncorrectable error that moving a piece would meet: a source byte in error, or a byte of a unit in error that
the chunk covers only in part (R165, R277). -/
def pieceFails (s : State) (rs : List (Nat × Nat)) (p : CopyPiece) : Option Word :=
  match firstByte p.len (fun i => readFails s (p.src + i) 1) with
  | some i => some (p.srcVa + w64 i)
  | none =>
    if !onDevice p.dst then none else
    (firstByte p.len (fun i => dieLost s p.dst || (s.errors.contains (0, (unitOf (p.dst + i)).1) && !rangesCover rs (unitOf (p.dst + i))))).map
      (fun i => p.dstVa + w64 i)

/-- The address of the first uncorrectable error that moving the chunk would meet. -/
def chunkError (s : State) (c : CopyJob) (ps : List CopyPiece) : Option Word := ps.findSome? (pieceFails s (chunkRanges c ps))

/-- The contents of units that a copy reads, each at one instant (R287). -/
def copyUnits (c : CopyJob) : List Nat → State → List (Nat × List Byte) × State
  | [], s => ([], s)
  | u :: t, s =>
    let cands := unitChoices s (c.after.join c.floor) (copyOwner c.id + 1) c.fixed u
    let (i, s1) := choose cands.length s
    let (vs, s2) := copyUnits c t s1
    ((u, (nth cands i ([], View.zero)).1) :: vs, s2)

/-- The source bytes of a piece as the copy, a party of its own, reads them: what its reads have fixed, else the unit's contents at one
instant, which are then fixed (R282, R286, R287). -/
def copyRead (c : CopyJob) (pa n : Nat) (s : State) : List Byte × CopyJob × State :=
  let (us, s1) := copyUnits c (words8 pa n) s
  let got := (List.range n).map (fun i =>
    (Table.find (pa + i) c.fixed).getD (nth (Table.getD us ((pa + i) / 8) []) ((pa + i) % 8) 0))
  (got, { c with fixed := (List.range n).foldl (fun f i => Table.set (pa + i) (nth got i 0) f) c.fixed }, s1)

/-- Reads the pieces of a chunk. -/
def readChunk : List CopyPiece → CopyJob → State → List (CopyPiece × List Byte) × CopyJob × State
  | [], c, s => ([], c, s)
  | p :: t, c, s =>
    let (bs, c1, s1) := copyRead c p.src p.len (settleLines p.src p.len s)
    let (more, c2, s2) := readChunk t c1 s1
    ((p, bs) :: more, c2, s2)

/-- Bytes of one row that stand one after the other at the destination: where they go, and whether they end the row's part of the
chunk. -/
structure CopyRun where
  row   : Nat
  dst   : Nat
  dstVa : Word
  data  : List Byte

/-- Pieces of one row that follow on each other on the device are written as one. -/
def joinRuns : List (CopyPiece × List Byte) → List CopyRun
  | [] => []
  | (p, bs) :: t =>
    match joinRuns t with
    | r :: rest =>
      if r.row = p.row ∧ r.dst = p.dst + p.len ∧ onDevice p.dst = true then ⟨p.row, p.dst, p.dstVa, bs ++ r.data⟩ :: rest
      else ⟨p.row, p.dst, p.dstVa, bs⟩ :: r :: rest
    | [] => [⟨p.row, p.dst, p.dstVa, bs⟩]

/-- Writes a run of bytes for a copy: on the device as the copy's own write, to another module as a window write. -/
def writeRun (c : CopyJob) (r : CopyRun) (s : State) : State :=
  if r.data.isEmpty then s else
  match locOf r.dst with
  | .umeno e off =>
    match windowTarget s c.part e off with
    | some (st, remote) => windowSendAs c.done (copyOwner c.id) (c.launch + 1) c.part st remote r.dstVa r.data none false s
    | none => s
  | _ => pokeWith (c.launch + 1) (copyOwner c.id + 1) c.after r.dst r.data (settleLines r.dst r.data.length s)

/-- The bytes held back go before the first run where they complete its unit; else they are written by themselves. -/
def takeTail (c : CopyJob) (rs : List CopyRun) (s : State) : List CopyRun × State :=
  match c.tail, rs with
  | some (pa, bs), r :: rest =>
    if pa + bs.length = r.dst then (⟨r.row, pa, r.dstVa - w64 bs.length, bs ++ r.data⟩ :: rest, s) else (rs, flushTail c s)
  | _, _ => (rs, flushTail c s)

/-- Of the last run, what a row that goes on leaves in an 8-byte unit for the next chunk (R287). -/
def holdBack (goesOn : Bool) : List CopyRun → List CopyRun × Option (Nat × List Byte)
  | [] => ([], none)
  | [r] =>
    let n := if goesOn && onDevice r.dst then min ((r.dst + r.data.length) % 8) r.data.length else 0
    let k := r.data.length - n
    ([{ r with data := r.data.take k }], if n = 0 then none else some (r.dst + k, r.data.drop k))
  | r :: t => let x := holdBack goesOn t; (r :: x.1, x.2)

/-- The errors of units that the chunk covers whole are cleared (R277). -/
def clearCovered (rs : List (Nat × Nat)) (s : State) : State :=
  { s with errors := s.errors.filter (fun e => !(e.1 == 0 && rangesCover rs (unitOf e.2))) }

/-- Changes a continuation, where it has not exited. -/
def mapThread (tid : Nat) (f : Thread → Thread) (s : State) : State :=
  match s.thread? tid with
  | some t => s.putThread (f t)
  | none => s

/-- Moves a chunk of m bytes, sources read before anything is written: destination bytes are applied in aligned 8-byte units (R165, R287).
What the copy has written is noted for FENCE and for the ordered copies that follow (R139, R166). -/
def moveChunk (c : CopyJob) (m : Nat) (ps : List CopyPiece) (s : State) : State :=
  let (data, c1, s1) := readChunk ps c s
  let (runs, s2) := takeTail c1 (joinRuns data) (clearCovered (chunkRanges c1 ps) s1)
  let (now, tail) := holdBack (decide ((c.done + m) % c.len ≠ 0)) runs
  let s3 := now.foldl (fun t r => writeRun c1 r t) s2
  let whole := decide (c.total ≤ c.done + m)
  let seen := c1.after.add (copyOwner c.id + 1) s3.writeSeq
  let s4 := mapCopy c.id (fun _ => { c1 with done := c.done + m, chunk := c.chunk + 1, tail := tail }) s3
  let s5 := mapThread c.owner (fun t => { t with copied := t.copied.join seen }) s4
  if whole && c.ordered && c.placement.isNone then
    let k := s5.ctxAt (some c.launch) c.core
    s5.setCtx (some c.launch) c.core { k with ordered := Table.set c.queue seen k.ordered }
  else s5

/-- The bytes of a failing chunk each hold their old value or the new one (R165; log 4). -/
def spoilChunk (ps : List CopyPiece) (c : CopyJob) (s : State) : State :=
  ps.foldl (fun t p =>
    if onDevice p.dst && !readFails t p.src p.len && !writeFails t p.dst p.len then
      let (k, t0) := draw t
      let t1 := settleLines p.dst p.len (settleLines p.src p.len t0)
      let old := peek t1 p.dst p.len
      let new := peek t1 p.src p.len
      writeRun c ⟨p.row, p.dst, p.dstVa, (List.range p.len).map (fun i => if Config.chunkNew k i then nth new i 0 else nth old i 0)⟩ t1
    else t) s

/-- An earlier copy of its die's queue that a copy must wait for: one that has not started, unless its launch is halted, or one that is
ordered with it and not written whole (R166; log 41). -/
def copyBehind (c e : CopyJob) : Bool :=
  decide (e.id < c.id) && e.die == c.die && e.queue == c.queue && e.placement.isNone && e.finished.isNone
    && ((!e.started && !e.frozen)
      || (c.ordered && e.ordered && e.core == c.core && e.launch == c.launch && decide (e.done < e.total)))

/-- A copy may move its next chunk: started in issue order within its queue, and after every earlier ordered copy of its core
and queue is written whole when it is ordered itself (R166). -/
def copyEnabled (s : State) (c : CopyJob) : Bool :=
  c.finished.isNone && !c.frozen && !c.faulted && decide (c.done < c.total) && !s.copies.any (copyBehind c)

/-- Ends a copy with a cause and address; what it held back of completed chunks is written. -/
def endCopy (id cause : Nat) (va : Word) (s : State) : State :=
  match s.copies.find? (fun c => c.id == id) with
  | none => s
  | some c =>
    let s1 := flushTail c s
    mapCopy id (fun x => { x with finished := some (cause, va.toNat), tail := none }) (if cause = cMEMERR then noteMemerr c.part va s1 else s1)

/-- The launch's fault mode; management work declines at once. -/
def faultMode (s : State) (l : Nat) : Nat := match Table.find l s.launches with | some v => v.fmode | none => 0

/-- The copy as it starts: what observes its bytes observes those of the ordered copies before it (R166). -/
def CopyJob.begin (s : State) (c : CopyJob) : CopyJob :=
  if c.started then c else
  { c with
    started := true
    after := if c.ordered && c.placement.isNone then Table.getD (s.ctxAt (some c.launch) c.core).ordered c.queue View.zero else View.zero }

/-- Reads n bytes at virtual addresses for an engine, page by page; none with a cause and address where it cannot.  Bytes in one of some regions
are refused (R175), and so is a window of Umeno, which cannot be read (DESIGN CHOICE, log 60); an error makes the replica location fail that holds it (R356). -/
def readVirtual (part : Nat) (c : Cls) (rs : Table Region) : Nat → Word → Nat → State → (List Byte × Option (Nat × Word)) × State
  | 0, _, _, s => (([], none), s)
  | fuel + 1, va, n, s =>
    if n = 0 then (([], none), s) else
    let m := min n (4096 - va.toNat % 4096)
    let broken := fun (t : State) => (([], some (cMEMERR, va)), noteMemerr part va t)
    if canonicalVa va && touchesRegion rs va.toNat m then (([], some (cPROT, protAt s part va m)), s) else
    match translateRaw s part va c with
    | (.prot, s1) => (([], some (cPROT, va)), s1)
    | (.memerr, s1) => broken s1
    | (.fault _ _, s1) => (([], some (cPGFAULT, va)), s1)
    | (.ok pa, s1) =>
      if !onDevice pa then
        match locOf pa with
        | .host a =>
          let (k, s2) := draw (sendTlp (.read part a m) s1)
          if Config.hostError k then broken s2 else
          let r := readVirtual part c rs fuel (va + w64 m) (n - m) s2
          ((hostBytes k a m ++ r.1.1, r.1.2), r.2)
        | _ => (([], some (cPROT, va)), s1)
      else
        let s2 := settleLines pa m s1
        match (List.range m).find? (fun i => readFails s2 (pa + i) 1) with
        | some i => (([], some (cMEMERR, va + w64 i)), noteMemerr part (va + w64 i) s2)
        | none =>
          let r := readVirtual part c rs fuel (va + w64 m) (n - m) s2
          ((peek s2 pa m ++ r.1.1, r.1.2), r.2)

/-- The destination bytes of a copy in copy order. -/
def destBytes (c : CopyJob) (s : State) : (List Byte × Option (Nat × Word)) × State :=
  (List.range c.rows).foldl (fun acc i =>
    match acc.1.2 with
    | some _ => acc
    | none =>
      let r := readVirtual c.part .write (acc.2.regionsOf c.part) (c.len / 4096 + 2) (c.dst + w64 i * c.dstride) c.len acc.2
      ((acc.1.1 ++ r.1.1, r.1.2), r.2)) (([], none), s)

/-- How VERIFY ends (R165): a status and address, or a page that is not mapped, with the class of the access. -/
inductive VerifyEnd where
  | status (cause addr : Nat)
  | fault (va : Word) (c : Cls)

/-- What a failed read of VERIFY comes to. -/
def verifyFailed (cause : Nat) (va : Word) (c : Cls) : VerifyEnd := if cause = cPGFAULT then .fault va c else .status cause va.toNat

/-- The end of a copy that wrote every byte: status 0, or COPYFAIL where VERIFY finds another digest (R165). -/
def verifyCopy (c : CopyJob) (s : State) : VerifyEnd × State :=
  if !c.verify then (.status 0 0, s) else
  match destBytes c s with
  | ((_, some (cause, va)), s1) => (verifyFailed cause va .write, s1)
  | ((bs, none), s1) =>
    match readVirtual c.part .read (s1.regionsOf c.part) 2 c.digest 48 s1 with
    | ((_, some (cause, va)), s2) => (verifyFailed cause va .read, s2)
    | ((dg, none), s2) => (if sha384 bs = dg then .status 0 0 else .status cCOPYFAIL 0, s2)

/-- A copy meets a page that is not mapped: it waits for the fault service, or ends where its launch has none (R272, R273). -/
def copyFault (c : CopyJob) (va : Word) (cls : Cls) (reason level : Nat) (s : State) : State :=
  if faultMode s c.launch = 0 ∨ c.placement.isSome then endCopy c.id cPGFAULT va s else
  mapCopy c.id (fun x => { x with faulted := true }) { s with faults := s.faults ++
    [⟨c.launch, c.die, .copy c.id, va.toNat, reason, level, cls.code, c.die * 2 ^ 29 + 29 * 2 ^ 18, none⟩] }

/-- The copy engine translates and moves one chunk of 4 KiB (R165). -/
def execCopyChunk (job : Nat) (s : State) : Out :=
  match s.copies.find? (fun c => c.id == job) with
  | none => .next s
  | some c0 =>
    if !copyEnabled s c0 then .next s else
    let c := c0.begin s
    let m := min 4096 (c.total - c.done)
    match translateChunk c (copyPieces c m c.done m) (mapCopy job (fun _ => c) s) with
    | (.fail cause va, s1) => .next (endCopy job cause va s1)
    | (.fault va cls r k, s1) => .next (copyFault c va cls r k s1)
    | (.ok ps, s1) =>
      match chunkError s1 c ps with
      | some va => .next (endCopy job cMEMERR va (spoilChunk ps c s1))
      | none => .next (moveChunk c m ps s1)

/-- A copy is over: it is gone, and its record is delivered (R152, R166). -/
def finishCopy (c : CopyJob) (cause addr : Nat) (s : State) : State :=
  let s1 := { s with copies := s.copies.filter (fun x => x.id != c.id), outbound := s.outbound.filter (fun w => w.owner != copyOwner c.id) }
  if c.norec then s1
  else deliverWith c.core c.owner 1 c.ticket.toNat cause c.tag (w64 c.done) (w64 addr) (c.after.add (copyOwner c.id + 1) s1.writeSeq) s1

/-- The first window write of a copy that was refused or lost: its address, and the bytes of the copy that stand before its chunk (R379). -/
def copyLost (s : State) (id : Nat) : Option (Word × Nat) :=
  (s.outbound.find? (fun w => w.owner == copyOwner id && w.failed)).map (fun w => (w64 w.va, w.job))

/-- A copy ends: once its window writes are acknowledged its digest is checked, and its record is delivered, after those of earlier ordered copies
of its core and queue (R165, R166). -/
def execCopyComplete (job : Nat) (s : State) : Out :=
  match s.copies.find? (fun c => c.id == job) with
  | none => .next s
  | some c =>
    let waits := s.copies.any (fun e => decide (e.id < c.id) && e.die == c.die && e.queue == c.queue && e.core == c.core
      && e.launch == c.launch && e.ordered && c.ordered && e.placement.isNone)
    if c.frozen || c.faulted || c.placement.isSome || waits || copySends s c.id || (c.finished.isNone && decide (c.done < c.total)) then .next s
    else
      match copyLost s c.id, c.finished with
      | some (va, before), _ => .next (finishCopy { c with done := before } cMEMERR va.toNat s)
      | none, some f => .next (finishCopy c f.1 f.2 s)
      | none, none =>
        match verifyCopy c s with
        | (.status cause addr, s1) => .next (finishCopy c cause addr s1)
        | (.fault va cls, s1) =>
          match translateRaw s1 c.part va cls with
          | (.fault r k, s2) => .next (copyFault c va cls r k s2)
          | (_, s2) => .next (finishCopy c cPGFAULT va.toNat s2)

end Sys2Proof.Machine
end

