-- ==== Sys2Proof/Machine/Version.lean ====
section
/-!
DEFINITION. Versioned regions: declaration, the operations at the home die, parked waits, and the version instructions (R174 to R178,
R278, R279, R294 to R297, R401).
-/

namespace Sys2Proof.Machine

open Sys2Proof

/-! ## Granules (R176) -/

/-- A granule that no VST has reached: version 0, 64 zero bytes (R175). -/
def Granule.initial : Granule := ⟨0, [(0, List.replicate 64 0)]⟩

/-- A granule of a region. -/
def Region.gran (r : Region) (g : Nat) : Granule :=
  Table.getD r.granules g (if r.spoiled then ⟨0, [(0, [])]⟩ else Granule.initial)

/-- The region floor: the least mark; none is ∞. -/
def Region.floor (r : Region) : Option Nat :=
  r.readers.foldl (fun f p => match f with | none => some p.2.mark | some m => some (min m p.2.mark)) none

/-- A version is at or above the floor. -/
def aboveFloor (f : Option Nat) (u : Nat) : Bool := match f with | none => false | some m => decide (m ≤ u)

/-- Reclaims every version below the floor and below the latest. -/
def Granule.reclaim (f : Option Nat) (g : Granule) : Granule :=
  { g with versions := g.versions.filter (fun v => aboveFloor f v.1 || v.1 == g.latest) }

/-- Version v may be created. -/
def Region.canCreate (r : Region) (g v : Nat) : Bool :=
  let x := r.gran g
  x.latest + 1 == v && decide ((x.versions.filter (fun u => aboveFloor r.floor u.1)).length < r.depth)

/-! ## The replica table among the regions (R345, R348) -/

/-- The ROUTE operators of a stripe with their configurations. -/
def routeOps (st : Stripe) : List (Nat × OpImage × Oper) :=
  st.ops.filterMap (fun o =>
    match Table.find o.1 st.image.ops with
    | some im => if im.kind = 11 then some (o.1, im, o.2) else none
    | none => none)

/-- A run of a partition that has not ended. -/
def partRun (s : State) (part : Nat) (r : Run) : Bool :=
  r.status != .ended && (match Table.find r.launch s.launches with | some v => v.part == part | none => false)

/-- The stripes of a partition's runs, those of saved launches among them. -/
def partStripes (s : State) (part : Nat) : List (Nat × Stripe) :=
  let live := fun (st : Stripe) => match st.run.bind (fun r => Table.find r s.runs) with | some r => partRun s part r | none => false
  s.stripes.filter (fun p => live p.2) ++ s.saved.flatMap (fun c => c.2.stripes.filter (fun p => live p.2))

/-- Every replay-window entry of the ROUTEs of a partition (R351), those of evicted virtual stripes among them. -/
def partWindows (s : State) (part : Nat) : List WinEntry :=
  (partStripes s part).flatMap (fun p => p.2.ops.flatMap (fun o => o.2.window))
    ++ (s.runs.filter (fun r => partRun s part r.2)).flatMap (fun r => r.2.saved.flatMap (fun v => v.2.ops.flatMap (fun o => o.2.window)))

/-- A region is its partition's replica table (R180). -/
def isTable (s : State) (part n : Nat) : Bool :=
  part != mgmtPart && (s.part part).place.policy.isSome && (s.part part).place.region == n

/-- The versions of a table that its ROUTEs hold. -/
def heldVersions (s : State) (part : Nat) (r : Region) : List Nat :=
  (partStripes s part).flatMap (fun p => (routeOps p.2).filterMap (fun o => if o.2.1.p0.toNat = r.base then o.2.2.version else none))

/-- The table floor (R348). -/
def tableFloor (s : State) (part : Nat) (r : Region) : Nat :=
  match r.readers.map (fun p => p.2.mark) ++ heldVersions s part r with
  | [] => (r.gran 0).latest
  | m :: ms => ms.foldl min m

/-- The floor of a region (R177, R348). -/
def regionFloor (s : State) (part n : Nat) (r : Region) : Option Nat :=
  if isTable s part n then some (tableFloor s part r) else r.floor

/-- Reclaims every version that has a successor at or below the table floor (R348). -/
def Granule.reclaimTable (f : Nat) (g : Granule) : Granule :=
  { g with versions := g.versions.filter (fun v => !g.versions.any (fun w => decide (v.1 < w.1) && decide (w.1 ≤ f))) }

/-- Reclamation in a granule of a region. -/
def reclaimAs (s : State) (part n : Nat) (r : Region) (g : Granule) : Granule :=
  if isTable s part n then g.reclaimTable (tableFloor s part r) else g.reclaim r.floor

/-- A region by number, and its replacement. -/
def State.region? (s : State) (part n : Nat) : Option Region := Table.find n (s.regionsOf part)
def State.putRegion (s : State) (part n : Nat) (r : Region) : State := s.setRegions part (Table.set n r (s.regionsOf part))

/-- The 64 bytes of a retained version as its home delivers them; those of an undefined one are free (R401; log 4). -/
def versionData (bs : List Byte) (s : State) : List Byte × State :=
  if bs.isEmpty then
    let (k, s1) := draw s
    ((List.range 64).map (Config.versionByte k), s1)
  else (bs, s)

/-- What the acquire of a version orders later reads after (R294): what the creators of it and of the versions before it released. -/
def Region.released (r : Region) (g u : Nat) : View :=
  ((Table.getD r.releases g []).filter (fun p => decide (p.1 ≤ u))).foldl (fun m p => m.join p.2) View.zero

/-- Where the heap of a region holds a version of a granule (R175; log 16). -/
def heapPa (r : Region) (g v : Nat) : Nat :=
  let off := Config.heapSlot r.stamp g v % max 1 (64 * r.pages.length) * 64
  nth r.pages (off / 4096) 0 + off % 4096

/-- The unit of memory that holds a version, or would, is in error: reading it, and writing its half, fail with MEMERR (R277). -/
def heapFails (s : State) (r : Region) (g v : Nat) : Bool := s.errors.contains (0, (unitOf (heapPa r g v)).1)

/-- A version of a replica table entry that no publication created is below the table version (R346). -/
def passedOver (s : State) (part n : Nat) (r : Region) (g v : Nat) : Bool :=
  isTable s part n && g != 0 && decide ((r.gran g).latest < v) && decide (v ≤ (r.gran 0).latest)

/-! ## Answers to parked operations (R278, R279) -/

/-- The end of a parked operation. -/
inductive VersionEnd where
  | data (bs : List Byte) (rel : View)
  | stored
  | failed (cause : Nat)

/-- A cause that a version operation of an operator ends with. -/
def versionFault (x o : Nat) (t : Token) (cause : Nat) (va : Word) (s : State) : State :=
  if cause = cILLOP then tokenTrap x (16 + o) 0 cause t s
  else if cause = cMEMERR then memTrap x (16 + o) 0 t cause va s
  else fabricTrap x (16 + o) 0 t.tag cause va [] s

/-- Ends a parked wait: a continuation's wait may complete, an operator goes on or takes the cause as a fabric trap (R278, R178). -/
def answer (p : ParkEntry) (e : VersionEnd) (s : State) : State :=
  let s1 := { s with parked := s.parked.erase p }
  match p.issuer with
  | .thread tid =>
    match s1.thread? tid with
    | none => s1
    | some t =>
      match t.status with
      | .blocked w =>
        let w' : Wait := match e, w with
          | .data bs rel, .vld _ _ _ _ dest => .vldDone bs rel dest
          | .stored, _ => .vstDone
          | .failed c, _ => if c = cVSTALE then .vstale (w64 p.version) else if c = cMISSVER then .missver (w64 p.version)
              else if c = cILLOP then .again 6 0
              else .memerr (w64 (match s1.region? p.part p.region with | some r => r.base + 64 * p.granule | none => 0))
          | _, x => x
        s1.putThread { t with status := .blocked w' }
      | _ => s1
  | .oper x o =>
    let tok := match s1.oper? x o with | some v => (v.head 0).getD Token.blank | none => Token.blank
    let s2 := s1.mapOper x o (fun v => { v with parked := false })
    match e with
    | .data bs rel => s2.mapOper x o (fun v => { v with vdata := bytesWords 8 bs, vview := rel, version := some p.version })
    | .stored => s2.mapOper x o (fun v => { v with version := some p.version })
    | .failed c =>
      let va := match s1.region? p.part p.region with | some r => w64 (r.base + 64 * p.granule) | none => 0
      versionFault x o tok c va s2

/-- Ends parked operations in order. -/
def answerAll (ps : List ParkEntry) (e : VersionEnd) (s : State) : State := ps.foldl (fun t p => answer p e t) s

/-! ## Operations at the home (R176, R279) -/

/-- What a version releases that a parked operation creates: what its continuation is ordered after and its own accesses, or what the tokens
of its operator carry (R294, R295). -/
def Parked.view (s : State) : Parked → View
  | .thread t => viewOf s t
  | .oper x o => match s.oper? x o with | some v => v.vview | none => View.zero

/-- Creates a version: parked loads of it are answered in parking order, then older versions are reclaimed.  A load parked for an
entry version of the replica table that was passed over is answered as reclaimed (R346). -/
def createVersion (part n g v party : Nat) (view : View) (data : List Byte) (s : State) : State :=
  match s.region? part n with
  | none => s
  | some r =>
    let x := r.gran g
    let x1 : Granule := ⟨v, Table.set v data x.versions⟩
    let rel := Table.set g (Table.set v view (Table.getD r.releases g [])) r.releases
    let r1 := { r with
      granules := Table.set g (reclaimAs s part n r x1) r.granules
      releases := rel
      creators := if r.creators.contains party then r.creators else r.creators ++ [party] }
    let s1 := s.putRegion part n r1
    let loads := s1.parked.filter (fun p => p.part == part && p.region == n && p.granule == g && !p.store)
    let s2 := answerAll (loads.filter (fun p => p.version == v)) (.data data (r1.released g v)) s1
    answerAll (loads.filter (fun p => decide (p.version < v))) (.failed cMISSVER) s2

/-- Parked loads of entry versions that a table's publication passed over are answered as those of reclaimed ones (R346). -/
def answerPassed (part n : Nat) (s : State) : State :=
  match s.region? part n with
  | none => s
  | some r =>
    answerAll (s.parked.filter (fun p => p.part == part && p.region == n && !p.store && passedOver s part n r p.granule p.version))
      (.failed cMISSVER) s

/-- Who a parked operation's version counts as created by. -/
def Parked.party (s : State) : Parked → Nat
  | .thread t => t
  | .oper x o => s.ownerOf x o

/-- Tests the parked stores of a region in parking order until none can end (R279); a store into the replica table is refused (R346). -/
def retestStores (part n : Nat) : Nat → State → State
  | 0, s => s
  | k + 1, s =>
    match s.region? part n with
    | none => s
    | some r =>
      let mine := s.parked.filter (fun p => p.part == part && p.region == n && p.store)
      match mine.find? (fun p => isTable s part n || decide (p.version ≤ (r.gran p.granule).latest) || r.canCreate p.granule p.version) with
      | none => s
      | some p =>
        if isTable s part n then retestStores part n k (answer p (.failed cILLOP) s)
        else if p.version ≤ (r.gran p.granule).latest then retestStores part n k (answer p (.failed cVSTALE) s)
        else if heapFails s r p.granule p.version then retestStores part n k (answer p (.failed cMEMERR) s)
        else
          let s1 := answer p .stored s
          retestStores part n k (createVersion part n p.granule p.version (p.issuer.party s) (p.issuer.view s) p.data s1)

/-- After a creation or a change of floor. -/
def afterChange (part n : Nat) (s : State) : State := retestStores part n (s.parked.length + 1) s

/-- The home of a region is LOST: every operation on it ends with MEMERR (R175). -/
def homeLost (s : State) (r : Region) : Bool := decide (2 ≤ Table.getD s.io.dieState r.home 0)

/-- A store at the home: none where it must wait, else a cause or the state after it. -/
def homeStore (part n g v party : Nat) (view : View) (data : List Byte) (s : State) : Option (Except Nat State) :=
  match s.region? part n with
  | none => some (.error cMISSVER)
  | some r =>
    if homeLost s r then some (.error cMEMERR)
    else if isTable s part n then some (.error cILLOP)
    else if v ≤ (r.gran g).latest then some (.error cVSTALE)
    else if !r.canCreate g v then none
    else if heapFails s r g v then some (.error cMEMERR)
    else some (.ok (afterChange part n (createVersion part n g v party view data s)))

/-- A load at the home: none where it must wait, else a cause, or the bytes and what they release. -/
def homeLoad (part n g v : Nat) (s : State) : Option ((Except Nat (List Byte × View)) × State) :=
  match s.region? part n with
  | none => some (.error cMISSVER, s)
  | some r =>
    if homeLost s r then some (.error cMEMERR, s) else
    let x := r.gran g
    if passedOver s part n r g v then some (.error cMISSVER, s) else
    if x.latest < v then none else
    match Table.find v x.versions with
    | none => some (.error cMISSVER, s)
    | some bs =>
      if heapFails s r g v then some (.error cMEMERR, s) else
      let (d, s1) := versionData bs s
      some (.ok (d, r.released g v), s1)

/-- Applies a change of readers at the home: reclamation, then the parked stores (R177, R279). -/
def applyFloor (part n : Nat) (readers : Table Reader) (s : State) : State :=
  match s.region? part n with
  | none => s
  | some r =>
    let r1 := { r with readers := readers }
    let r2 := { r1 with granules := Table.mapVals (fun _ g => reclaimAs s part n r1 g) r1.granules }
    afterChange part n (s.putRegion part n r2)

/-- The home of a region has a free wait entry (R278). -/
def parkFree (s : State) (home : Nat) : Bool :=
  decide ((s.parked.filter (fun p => match s.region? p.part p.region with | some r => r.home == home | none => false)).length < 4096)

/-! ## VDECL and VDROP (R175, R178, R401) -/

/-- The partition may have regions homed on a die (R175). -/
def homeOwned (s : State) (part d : Nat) : Bool :=
  if part = mgmtPart then true else
  let a := (s.part part).assign
  (Table.getD a.hbm (2 * d) 0 != 0 || Table.getD a.hbm (2 * d + 1) 0 != 0) && Table.getD a.dsm d 0 != 0

/-- The lowest free range of a partition's pool on a die. -/
def heapRange (s : State) (part d need : Nat) : Option Nat :=
  match Table.find d (s.part part).heaps with
  | none => none
  | some (b, z) =>
    let used := ((s.regionsOf part).filter (fun r => r.2.home == d)).map (fun r => (r.2.heapBase, r.2.heapBase + r.2.heapSize))
    let free := fun (p : Nat) => decide (p + need ≤ b.toNat + z.toNat) && used.all (fun u => decide (p + need ≤ u.1) || decide (u.2 ≤ p))
    let starts := (b.toNat :: used.map (·.2)).filter free
    starts.foldl (fun m p => match m with | none => some p | some q => some (min p q)) none

/-- The physical pages of a heap range, where every page is readable and writable HBM of the die. -/
def heapPages (s : State) (part d base size : Nat) : Option (List Nat) :=
  let ps := (List.range (size / 4096)).map (fun i =>
    let va := base + 4096 * i
    if !inSpace va then none else
    match walk s part (va % 2 ^ 57) with
    | .leaf e =>
      let pa := e.pa + (va % 2 ^ 57 - e.va)
      (match locOf pa with | .hbm j _ => if e.r && e.w && j / 2 == d then some pa else none | _ => none)
    | _ => none)
  if ps.all Option.isSome then some (ps.filterMap id) else none

/-- A page of management heap lies in the HBM of its home die (R175). -/
def mgmtPage (d stamp k : Nat) : Nat :=
  let p := Config.mgmtHeapPage d stamp k
  (2 * d + p % 2) * 2 ^ 36 + p / 2 % 2 ^ 24 * 4096

/-- The heap that VDECL reserves: base, size and pages; none where there is no room. -/
def reserveHeap (s : State) (part d size depth : Nat) : Option (Nat × Nat × List Nat) :=
  let need := ceilDiv (size * depth) 65536 * 65536
  if part = mgmtPart then
    (if Config.mgmtHeapFits d need s.io.regions.length then some (0, need, (List.range (need / 4096)).map (mgmtPage d s.nextJob)) else none)
  else
  match heapRange s part d need with
  | none => none
  | some b => (heapPages s part d b need).map (fun ps => (b, need, ps))

/-- The limits of a region descriptor (R175); a SIZE of 0 is refused (DESIGN CHOICE, log 58). -/
def regionLegal (s : State) (part : Nat) (base size depth : Nat) : Bool :=
  base % 64 == 0 && size % 64 == 0 && size != 0 && decide (size ≤ 2 ^ 36) && decide (1 ≤ depth) && decide (depth ≤ 16)
    && canonicalVa (w64 base) && canonicalVa (w64 (base + size - 1)) && decide (base / 2 ^ 63 = (base + size - 1) / 2 ^ 63)
    && !(s.regionsOf part).any (fun r => decide (r.2.base < base + size) && decide (base < r.2.base + r.2.size))
    && (List.range ((base + size - 1) / 4096 + 1 - base / 4096)).all (fun i =>
      !mappedPage s part ((base / 4096 + i) * 4096 % 2 ^ 57))

/-- Declares a region of a descriptor, or traps (R175); its walks are served after the pending reductions (R258). -/
def declare (d : Reg) (desc : Word) (ws : List Word) (s0 : State) : Out :=
  let s := settleQueues s0
  let part := s.partNow
  let base := (nth ws 0 0).toNat
  let size := (nth ws 1 0).toNat
  let depth := bits (nth ws 2 0).toNat 4 0
  let home := bits (nth ws 2 0).toNat 10 8
  if !regionLegal s part base size depth then .next (illop s)
  else if !available s home || !homeOwned s part home then .next (trap cPROT desc s)
  else if 1024 ≤ (s.regionsOf part).length then .next (s.write4 d (-2))
  else
    match reserveHeap s part home size depth with
    | none => .next (s.write4 d (-1))
    | some (hb, hs, pages) =>
      let n := Table.firstFree (s.regionsOf part) 1024
      let r : Region := {
        base := base, size := size, depth := depth, home := home, heapBase := hb, heapSize := hs, pages := pages,
        since := s.writeSeq, stamp := s.nextJob, granules := [], readers := [], creators := [], releases := [], spoiled := false }
      .next (({ s with nextJob := s.nextJob + 1 }.putRegion part n r).write4 d (w64 n))

/-- VDECL (R175). -/
def execVdecl (d a : Reg) (s : State) : Out :=
  gated 1 s (
    let desc := s.g a
    if desc.toNat % 8 ≠ 0 then .next (trap cALIGN desc s) else
    (loadPages 2 desc 32 s).andThen (fun bs s1 => declare d desc (bytesWords 4 bs) s1))

/-- Undeclares a region: everything blocked on it ends with MISSVER. -/
def dropRegion (part n : Nat) (s : State) : State :=
  let mine := s.parked.filter (fun p => p.part == part && p.region == n)
  let s1 := answerAll mine (.failed cMISSVER) s
  s1.setRegions part (Table.erase n (s1.regionsOf part))

/-- A declared region named by number, or a trap; KTRAPVAL of MEMERR is the number (DESIGN CHOICE, log 58). -/
def withRegion (a : Reg) (s : State) (k : Nat → Region → Out) : Out :=
  let n := (s.g a).toNat
  match s.region? s.partNow n with
  | none => .next (illop s)
  | some r => if homeLost s r then .next (trap cMEMERR (s.g a) s) else k n r

/-- VDROP (R178). -/
def execVdrop (a : Reg) (s : State) : Out :=
  gated 1 s (withRegion a s (fun n _ =>
    if isTable s s.partNow n then .next (illop s) else .next ((dropRegion s.partNow n s).advance 4)))

/-! ## VFLOOR (R177) -/

/-- VFLOOR op 0, which gives the lowest free id (DESIGN CHOICE, log 58). -/
def execVfloorRegister (d a b : Reg) (s : State) : Out :=
  gated 1 s (withRegion a s (fun n r =>
    let id := Table.firstFree r.readers 64
    if isTable s s.partNow n || decide (64 ≤ id) then .next (illop s) else
    .next ((applyFloor s.partNow n (Table.set id ⟨(s.g b).toNat, s.th.id⟩ r.readers) s).write4 d (w64 id))))

/-- VFLOOR op 1: a mark never decreases. -/
def execVfloorRaise (d a b : Reg) (s : State) : Out :=
  gated 1 s (withRegion a s (fun n r =>
    let id := (s.g d).toNat
    match Table.find id r.readers with
    | none => .next (illop s)
    | some x => .next ((applyFloor s.partNow n (Table.set id ⟨max x.mark (s.g b).toNat, s.th.id⟩ r.readers) s).advance 4)))

/-- VFLOOR op 2. -/
def execVfloorDeregister (d a _b : Reg) (s : State) : Out :=
  gated 1 s (withRegion a s (fun n r =>
    let id := (s.g d).toNat
    match Table.find id r.readers with
    | none => .next (illop s)
    | some _ => .next ((applyFloor s.partNow n (Table.erase id r.readers) s).advance 4)))

/-! ## VST, VLD, VLDL, VSTAT (R174, R176, R178) -/

/-- A granule address: its region and index, or a trap (R174). -/
def withGranule (va : Word) (s : State) (k : Nat → Region → Nat → Out) : Out :=
  if va.toNat % 64 ≠ 0 then .next (trap cALIGN va s) else
  match regionAt (s.regionsOf s.partNow) va.toNat with
  | none => .next (trap cPROT va s)
  | some (n, r) => if homeLost s r then .next (trap cMEMERR va s) else k n r ((va.toNat - r.base) / 64)

/-- What VST makes visible before its version exists is under way (R176, R294, R379). -/
def vstPending (s : State) : Bool := underWay true true false true s

/-- Parks an operation of the executing continuation. -/
def parkThread (n g : Nat) (v : Word) (store : Bool) (data : List Byte) (s : State) : State :=
  { s with parked := s.parked ++ [⟨s.partNow, n, g, v.toNat, store, data, .thread s.th.id⟩] }

/-- A cause that a version operation of the executing continuation ends with at its home. -/
def versionTrap (c : Nat) (va v : Word) (s : State) : State :=
  if c = cILLOP then illop s else trap c (if c = cMEMERR then va else v) s

/-- A VST at the home: it ends, parks, or waits at its own die for a free wait entry (R176, R278). -/
def vstHome (n stamp g : Nat) (v : Word) (data : List Byte) (s : State) : Out :=
  let wait : Wait := .vst n stamp g v data
  match s.region? s.partNow n with
  | none => .next (trap cMISSVER v s)
  | some r =>
    if r.stamp ≠ stamp then .next (trap cMISSVER v s) else
    match homeStore s.partNow n g v.toNat s.th.id (viewOf s s.th.id) data s with
    | some (.ok s1) => .next (s1.advance 4)
    | some (.error c) => .next (versionTrap c (w64 (r.base + 64 * g)) v s)
    | none => .next (blockOn wait (if parkFree s r.home then parkThread n g v true data s else s))

/-- A VST whose earlier accesses are complete: a failed window write is reported (R379), or the operation reaches its home. -/
def vstProceed (n stamp g : Nat) (v : Word) (data : List Byte) (s : State) : Out :=
  match takeDeferred false false true s with
  | some s1 => .next s1
  | none => vstHome n stamp g v data s

/-- VST (R176): the data are read at issue. -/
def execVst (d a b : Reg) (s : State) : Out :=
  gated 1 s (withGranule (s.g a) s (fun n r g =>
    if isTable s s.partNow n then .next (illop s) else
    (loadAl (s.g d) 64 64 s).andThen (fun bs s1 =>
      if vstPending s1 then .next (blockOn (.vst n r.stamp g (s.g b) bs) s1)
      else vstProceed n r.stamp g (s.g b) bs s1)))

/-- Stores the bytes of a loaded version as ordinary stores and completes: later reads return nothing older than what the version carries
(R176, R294, R297). -/
def vldStore (dest : Word) (bs : List Byte) (rel : View) (k : State → State) (s : State) : Out :=
  (storeAl dest bs 64 s).andThen (fun _ s1 => .next (k (orderAfter rel s1)))

/-- A VLD at the home. -/
def vldHome (n stamp g : Nat) (v dest : Word) (s : State) : Out :=
  match s.region? s.partNow n with
  | none => .next (trap cMISSVER v s)
  | some r =>
    if r.stamp ≠ stamp then .next (trap cMISSVER v s) else
    match homeLoad s.partNow n g v.toNat s with
    | some (.ok (bs, rel), s1) => vldStore dest bs rel (fun t => t.advance 4) s1
    | some (.error c, s1) => .next (versionTrap c (w64 (r.base + 64 * g)) v s1)
    | none => .next (blockOn (.vld n stamp g v dest) (if parkFree s r.home then parkThread n g v false [] s else s))

/-- VLD (R176): the destination is translated before the request leaves for the home (R332). -/
def execVld (d a b : Reg) (s : State) : Out :=
  gated 1 s (withGranule (s.g a) s (fun n r g =>
    (access (s.g d) 64 .write s).andThen (fun _ s1 => vldHome n r.stamp g (s.g b) (s.g d) s1)))

/-- VLDL (R176): the latest version, without blocking. -/
def execVldl (d a b : Reg) (s : State) : Out :=
  gated 1 s (withGranule (s.g a) s (fun n r g =>
    let u := (r.gran g).latest
    (access (s.g b) 64 .write s).andThen (fun _ s0 =>
      match homeLoad s0.partNow n g u s0 with
      | some (.ok (bs, rel), s1) => vldStore (s.g b) bs rel (fun t => t.write4 d (w64 u)) s1
      | some (.error c, s1) => .next (versionTrap c (s.g a) (w64 u) s1)
      | none => .next (trap cMISSVER (w64 u) s0))))

/-- VSTAT (R178). -/
def execVstat (d a : Reg) (sel : BitVec 2) (s : State) : Out :=
  gated 1 s (withGranule (s.g a) s (fun n r g =>
    let x := r.gran g
    let v : Word := match sel.toNat with
      | 0 => w64 x.latest
      | 1 => w64 ((x.versions.head?.map (·.1)).getD 0)
      | 2 => (match regionFloor s s.partNow n r with | none => -1 | some f => w64 f)
      | _ => w64 x.versions.length
    .next (s.write4 d v)))

end Sys2Proof.Machine
end

