-- ==== Sys2Proof/Machine/Place.lean ====
section
/-!
DEFINITION. Expert placement: the replica table, the instructions of MAJ 0x29 (R179 to R183) and the actions of Equinox (R335, R340 to
R357).
-/

namespace Sys2Proof.Machine

open Sys2Proof

/-! ## The replica table (R345 to R347) -/

/-- The table region of a partition, once PLPOL has executed. -/
def State.table? (s : State) (part : Nat) : Option Region :=
  match (s.part part).place.policy with
  | some _ => s.region? part (s.part part).place.region
  | none => none

/-- The table version T: the latest version of the header. -/
def tableVersion (s : State) (part : Nat) : Nat :=
  match s.table? part with
  | some r => (r.gran 0).latest
  | none => 0

/-- The entry of an expert under version T: the version number it has, and its bytes (R345). -/
def entryUnder (r : Region) (x t : Nat) : Option (Nat × List Byte) :=
  ((r.gran (x + 1)).versions.filter (fun v => decide (v.1 ≤ t))).getLast?

/-- The location words of an expert's entry under T, as its home delivers them. -/
def entryWords (r : Region) (x t : Nat) (s : State) : List Nat × State :=
  match entryUnder r x t with
  | none => (List.replicate 8 0, s)
  | some (_, bs) =>
    let (d, s1) := versionData bs s
    ((bytesWords 8 d).map (·.toNat), s1)

/-- A table cannot be read for an expert under T: its home is LOST, or the unit that holds the entry is in error (R277, R392). -/
def entryFails (s : State) (r : Region) (x t : Nat) : Bool :=
  homeLost s r || (match entryUnder r x t with | some e => heapFails s r (x + 1) e.1 | none => false)

/-- The address of an expert's entry in a table. -/
def entryVa (r : Region) (x : Nat) : Word := w64 (r.base + 64 * (x + 1))

/-- The address at which an expert's entry stands in the partition's table. -/
def expertVa (s : State) (part x : Nat) : Word := match s.table? part with | some r => entryVa r x | none => 0

/-- Fields of a location word (R347). -/
def locValid (w : Nat) : Bool := bit w 5
def locDie (w : Nat) : Nat := bits w 63 61
def locWeight (w : Nat) : Nat := bits w 60 57
def locAddr (w : Nat) : Nat := (sext 57 (bits w 56 6 * 64)).toNat

/-- A valid location word of weight 8; it holds no bits below the 64-byte alignment of an address (log 61). -/
def locWord (die : Nat) (addr : Word) : Nat := die * 2 ^ 61 + 8 * 2 ^ 57 + bits addr.toNat 56 6 * 64 + 32

/-- The valid locations of an entry: LOC and die. -/
def locations (ws : List Nat) : List (Nat × Nat) :=
  (ws.zipIdx.filter (fun p => locValid p.1)).map (fun p => (p.2, locDie p.1))

/-- Replicas of an entry. -/
def replicaCount (ws : List Nat) : Nat := ((locations ws).filter (fun l => l.1 != 0)).length

/-- The in-flight count of an expert on a die, under every version (R183, R351). -/
def inFlight (s : State) (part x d : Nat) : Nat :=
  ((partWindows s part).filter (fun w => w.expert == x && w.die == d)).length

/-! ## PLPOL (R180, R341) -/

/-- The policy of a block; none where a field is out of range. -/
def policyOf (ws : List Word) : Option Policy :=
  let w := (nth ws 1 0).toNat
  let p : Policy := ⟨(nth ws 0 0).toNat, bit w 48, bits w 47 32, bits w 31 16, bits w 15 8, bits w 7 4, bits w 3 0⟩
  if 1 ≤ p.window ∧ 16 ≤ p.hot ∧ p.idle ≤ 100 ∧ 1 ≤ p.maxAct ∧ p.maxAct ≤ 8 ∧ p.maxRep ≤ 7 then some p else none

/-- PRIV unless the launch packet granted placement control. -/
def placementControl (s : State) (k : Out) : Out :=
  match s.launch? with
  | some v => if v.placeCtl then k else .next (trap cPRIV s.word0 s)
  | none => .next (illop s)

/-- The declared region whose base an address is, large and deep enough to be a table. -/
def tableRegion (s : State) (part base : Nat) : Option Nat :=
  ((s.regionsOf part).find? (fun r => r.2.base == base && decide (4097 * 64 ≤ r.2.size) && decide (2 ≤ r.2.depth))).map (·.1)

/-- The first window boundary after a moment. -/
def nextWindow (time window : Nat) : Nat := (time / (1000 * window) + 1) * (1000 * window)

/-- A policy comes into force: the first, or one with another table, at once; else at the next window boundary (R341).  The first
window's time counts from the first policy on (R343), and stores parked in a region that becomes the table are refused (R346). -/
def setPolicy (part n : Nat) (p : Policy) (s : State) : State :=
  afterChange part n (s.mapPlace part (fun pl =>
    match pl.policy with
    | none => { pl with policy := some p, region := n, nextAt := nextWindow s.time p.window, since := s.time, busy := [], late := [] }
    | some old => if old.table = p.table then { pl with pending := some p } else { pl with policy := some p, pending := none, region := n }))

/-- Every version of the table that the ROUTEs left no longer hold is reclaimed (R348). -/
def refloorTable (part : Nat) (s : State) : State :=
  match s.table? part with
  | some r => applyFloor part (s.part part).place.region r.readers s
  | none => s

/-- PLPOL. -/
def execPlpol (a : Reg) (s : State) : Out :=
  gated 2 s (launchOnly s (placementControl s (
    (loadAl (s.g a) 64 64 s).andThen (fun bs s1 =>
      let part := s1.partNow
      let pl := (s1.part part).place
      match policyOf (bytesWords 8 bs) with
      | none => .next (illop s1)
      | some p =>
        match tableRegion s1 part p.table with
        | none => .next (illop s1)
        | some n =>
          if pl.policy.any (fun old => old.table != p.table) && !pl.experts.isEmpty then .next (illop s1)
          else .next ((answerPassed part n (setPolicy part n p s1)).advance 4)))))

/-! ## EXREG (R181, R340, R347) -/

/-- The size of an expert is in range (R181); 0 is not (DESIGN CHOICE, log 61). -/
def expertSizeOk (size : Nat) : Bool := size % 64 == 0 && size != 0 && decide (size ≤ 2 ^ 32)

/-- Registers an expert: the entry of the registry, and word 0 of its entry in table version 0. -/
def registerExpert (part x die : Nat) (addr : Word) (size : Nat) (digest : List Byte) (s : State) : State :=
  let s1 := s.mapPlace part (fun pl => { pl with experts := Table.set x ⟨addr, size, digest, [], []⟩ pl.experts })
  match s1.table? part with
  | none => s1
  | some r =>
    let data := leBytes 8 (locWord die addr) ++ List.replicate 56 0
    s1.putRegion part (s1.part part).place.region { r with granules := Table.set (x + 1) ⟨0, [(0, data)]⟩ r.granules }

/-- EXREG: ILLOP also of weights that no compute die is the home of (DESIGN CHOICE, log 61); MEMERR where the entry's half of its unit cannot be
written (R277). -/
def execExreg (a : Reg) (s : State) : Out :=
  gated 2 s (launchOnly s (
    let va := s.g a
    if va.toNat % 8 ≠ 0 then .next (trap cALIGN va s) else
    (loadPages 2 va 80 s).andThen (fun bs s1 =>
      let ws := bytesWords 10 bs
      let x := bits (nth ws 0 0).toNat 11 0
      let addr := nth ws 1 0
      let size := (nth ws 2 0).toNat
      let digest := (bs.drop 24).take 48
      let part := s1.partNow
      let pl := (s1.part part).place
      if pl.policy.isNone || (Table.find x pl.experts).isSome || tableVersion s1 part != 0 || pl.wasRead || !expertSizeOk size
      then .next (illop s1) else
      (translateAt addr .read 0 s1).andThen (fun pa s2 =>
        if 8 ≤ homeDie pa then .next (illop s2) else
        (loadPages (size / 4096 + 2) addr size s2).andThen (fun bytes s3 =>
          if (s3.table? part).any (fun r => homeLost s3 r || heapFails s3 r (x + 1) 0) then .next (trap cMEMERR (expertVa s3 part x) s3)
          else if sha384 bytes = digest then .next ((registerExpert part x (homeDie pa) addr size digest s3).advance 4)
          else .next (trap cCOPYFAIL (w64 x) s3))))))

/-! ## EXSTAT, PLSYNC (R183) -/

/-- The value of EXSTAT for an expert and die. -/
def expertStat (part x d sel : Nat) (s : State) : Nat × State :=
  match sel with
  | 0 => ((match Table.find x (s.part part).place.experts with | some e => Table.getD e.avg d 0 | none => 0), s)
  | 1 =>
    (match s.table? part with
    | some r => let (ws, s1) := entryWords r x (tableVersion s part) s; (replicaCount ws, s1)
    | none => (0, s))
  | 2 => (tableVersion s part, s)
  | _ => (inFlight s part x d, s)

/-- EXSTAT meets MEMERR where it reads the table: of an entry for sel 1, of the region for sel 2 (R277, R392). -/
def expertUnread (s : State) (part x sel : Nat) : Bool :=
  match s.table? part with
  | some r => if sel = 1 then entryFails s r x (r.gran 0).latest else sel == 2 && homeLost s r
  | none => false

/-- EXSTAT (R183): ILLOP of a number above 4,095, and 0 of an expert that is not registered (DESIGN CHOICE, log 61). -/
def execExstat (d a b : Reg) (sel : BitVec 2) (s : State) : Out :=
  gated 2 s (launchOnly s (
    let x := (s.g a).toNat
    if 4095 < x then .next (illop s) else
    if expertUnread s s.partNow x sel.toNat then .next (trap cMEMERR (expertVa s s.partNow x) s) else
    let (v, s1) := expertStat s.partNow x ((s.g b).toNat % 8) sel.toNat s
    .next (s1.write4 d (w64 v))))

/-- Actions of a partition issued before a moment that have not ended. -/
def actionsBefore (s : State) (part n : Nat) : Bool := (s.part part).place.actions.any (fun a => decide (a.issue < n))

/-- PLSYNC: waits for every action issued so far, then returns T. -/
def execPlsync (d : Reg) (s : State) : Out :=
  gated 2 s (launchOnly s (
    let part := s.partNow
    let n := (s.part part).place.nextIssue
    if actionsBefore s part n then .next (blockOn (.plsync d part n) s)
    else .next (s.write4 d (w64 (tableVersion s part)))))

/-! ## PLREP, PLRET (R182, R335, R355) -/

/-- Queues an action: the issuer's accesses are released toward it, its signals awaited, the entry reserved and the ticket taken (R150, R335).  All but a malformed
id or die is checked when the action runs (R182). -/
def queueAction (add urgent : Bool) (d a b : Reg) (s : State) : Out :=
  gated 2 s (launchOnly s (placementControl s (
    let x := (s.g a).toNat
    let die := (s.g b).toNat
    let part := s.partNow
    if 4095 < x ∨ 7 < die then .next (illop s) else
    if signalsPending s s.th.id then .next (blockOn (.again 5 0) s) else
    match reserve s with
    | none => .next (blockOn (.again 1 0) s)
    | some s1 =>
      let (ticket, s2) := takeTicket s1
      let s3 := settleAll s2.th.id s2
      let s4 := if urgent then hastenDrain part x die s3 else s3
      let n := (s4.part part).place.nextIssue
      let act : Action := ⟨n, add, urgent, x, die, .queued, 0, 0, 0, 0, some (s4.core, s4.th.id, ticket), s4.th.launch, s4.th.floor,
        viewOf s4 s4.th.id⟩
      .next ((s4.mapPlace part (fun p => { p with actions := p.actions ++ [act], nextIssue := n + 1 })).write4 d (ticket.setWidth 64)))))

def execPlrep (d a b : Reg) (s : State) : Out := queueAction true false d a b s
def execPlret (d a b : Reg) (s : State) : Out := queueAction false false d a b s
def execPlretUrgent (d a b : Reg) (s : State) : Out := queueAction false true d a b s

/-! ## Actions (R352 to R355) -/

/-- Changes an action. -/
def mapAction (part issue : Nat) (f : Action → Action) (s : State) : State :=
  s.mapPlace part (fun p => { p with actions := p.actions.map (fun a => if a.issue = issue then f a else a) })

/-- An action by its issue number. -/
def action? (s : State) (part issue : Nat) : Option Action := (s.part part).place.actions.find? (fun a => a.issue == issue)

/-- Delivers the record of an action that is DONE (R152); a proposed action has none. -/
def reportAction (a : Action) (s : State) : State :=
  match a.report with
  | some (core, owner, ticket) => deliver core owner 4 ticket.toNat a.result 0 (w64 (a.die * 4096 + a.expert)) a.arg2 s
  | none => s

/-- The record of an action waits: its launch is halted or saved (R327). -/
def reportHeld (s : State) (a : Action) : Bool :=
  match a.launch.bind (fun l => Table.find l s.launches) with
  | some v => a.report.isSome && v.status != .placed
  | none => false

/-- DONE: the action leaves the queue and its record is delivered, after CTXREST where its launch is halted (R152, R327). -/
def endAction (part : Nat) (a : Action) (status : Nat) (arg2 : Word) (s : State) : State :=
  let over_ := { a with state := .done, result := status, arg2 := arg2 }
  let s1 := s.mapPlace part (fun p => { p with actions := p.actions.filter (fun b => b.issue != a.issue) })
  if reportHeld s a then s1.mapPlace part (fun p => { p with owed := p.owed ++ [over_] }) else reportAction over_ s1

/-- The records that waited for a launch of a partition are delivered (R327). -/
def reportOwed (part launch : Nat) (s : State) : State :=
  let mine := fun (a : Action) => a.launch == some launch
  ((s.part part).place.owed.filter mine).foldl (fun t a => reportAction a t)
    (s.mapPlace part (fun p => { p with owed := p.owed.filter (fun a => !mine a) }))

/-- A virtual range is mapped to HBM of a die with R and W. -/
def rangeOnDie (s : State) (part d base size : Nat) : Bool :=
  (List.range (size / 4096)).all (fun i =>
    let va := base + 4096 * i
    inSpace va && match walk s part (va % 2 ^ 57) with
    | .leaf e => e.r && e.w && (match locOf (e.pa + (va % 2 ^ 57 - e.va)) with | .hbm j _ => j / 2 == d | _ => false)
    | _ => false)

/-- The lowest free range of a die's placement pool that a slot fits (R353, R373). -/
def freeSlot (s : State) (part d size : Nat) : Option Nat :=
  match Table.find d (s.part part).pools with
  | none => none
  | some (b, z) =>
    if z = 0 || !rangeOnDie s part d b.toNat z.toNat then none else
    let used := ((s.part part).place.slots.filter (fun t => t.1 == d)).map (fun t => (t.2.1, t.2.1 + t.2.2.1))
    let free := fun (p : Nat) => decide (p + size ≤ b.toNat + z.toNat) && used.all (fun u => decide (p + size ≤ u.1) || decide (u.2 ≤ p))
    ((b.toNat :: used.map (·.2)).filter free).foldl (fun m p => match m with | none => some p | some q => some (min p q)) none

/-- The copy of an add: the registered bytes into the slot, on the engine of the primary's die, after what the action acts after (R335,
R353). -/
def placementCopy (s : State) (part : Nat) (a : Action) (die : Nat) (e : Expert) (slot : Nat) : CopyJob :=
  { id := s.nextJob, die := die, queue := 4, owner := 2 ^ 50, launch := 2 ^ 32, part := part, core := 0, phase := 0, ticket := 0,
    src := e.addr, dst := w64 slot, len := e.size, rows := 1, sstride := 0, dstride := 0, tag := 0, norec := true, verify := true,
    ordered := false, digest := 0, expected := e.digest, done := 0, chunk := 0, finished := none, frozen := false,
    placement := some a.issue, faulted := false, started := true, floor := a.floor, fixed := [], after := a.view, tail := none }

/-- CHECK, ALLOC and the start of COPY of an add, or CHECK of a retirement; where the table cannot be read, the action ends with MEMERR (DESIGN CHOICE,
log 63). -/
def checkAction (part : Nat) (a : Action) (maxRep : Nat) (r : Region) (s0 : State) : State :=
  let s := settleQueues s0
  if entryFails s r a.expert (r.gran 0).latest then endAction part a cMEMERR 0 s else
  let (ws, s1) := entryWords r a.expert (r.gran 0).latest s
  let here := (locations ws).find? (fun l => l.2 == a.die)
  if a.add then
    match Table.find a.expert (s1.part part).place.experts, here with
    | some e, none =>
      if maxRep ≤ replicaCount ws then endAction part a cILLOP 0 s1 else
      let size := ceilDiv e.size 4096 * 4096
      match freeSlot s1 part a.die size with
      | none => endAction part a cILLOP 0 s1
      | some slot =>
        let s2 := mapAction part a.issue (fun x => { x with state := .copy, slot := slot }) s1
        let s3 := s2.mapPlace part (fun p => { p with slots := p.slots ++ [(a.die, slot, size, a.expert)] })
        { s3 with copies := s3.copies ++ [placementCopy s3 part a (locDie (nth ws 0 0)) e slot], nextJob := s3.nextJob + 1 }
    | _, _ => endAction part a cILLOP 0 s1
  else
    match here with
    | some (l, _) =>
      if l = 0 then endAction part a cILLOP 0 s1
      else mapAction part a.issue (fun x => { x with state := .publish, loc := l, slot := locAddr (nth ws l 0) }) s1
    | none => endAction part a cILLOP 0 s1

/-- A queued action of a queue may leave QUEUED as far as its expert goes: every earlier action on it is DONE (R352). -/
def expertFree (q : List Action) (a : Action) : Bool := (q.takeWhile (fun b => b.issue != a.issue)).all (fun b => b.expert != a.expert)

/-- The next action to leave QUEUED: the first whose expert is free, since Equinox performs actions in issue order (R182). -/
def nextQueued (q : List Action) : Option Action := q.find? (fun a => a.state == .queued && expertFree q a)

/-- PLACEMENT_CHECK: the next action leaves QUEUED while fewer than MAXACT are past it (R352); without a table it fails its checks (R182). -/
def execPlacementCheck (part act : Nat) (s : State) : Out :=
  let pl := (s.part part).place
  match action? s part act, pl.policy, s.table? part with
  | some a, some pol, some r =>
    let started := (pl.actions.filter (fun b => b.state != .queued)).length
    if nextQueued pl.actions = some a ∧ started < pol.maxAct then
      .next (checkAction part a pol.maxRep r s)
    else .next s
  | some a, _, _ =>
    if nextQueued pl.actions = some a then
      .next (endAction part a cILLOP 0 s)
    else .next s
  | none, _, _ => .next s

/-- How a placement's copy ended: 0 and 0, or a cause and the failing address (R165, R353). -/
def placementOutcome (c : CopyJob) (s : State) : (Nat × Nat) × State :=
  match c.finished with
  | some f => (f, s)
  | none =>
    match destBytes c s with
    | ((_, some (cause, va)), s1) => ((cause, va.toNat), s1)
    | ((bs, none), s1) => (if sha384 bs = c.expected then (0, 0) else (cCOPYFAIL, 0), s1)

/-- Frees the slot of an action. -/
def freeActionSlot (part : Nat) (a : Action) (s : State) : State :=
  s.mapPlace part (fun p => { p with slots := p.slots.filter (fun t => !(t.1 == a.die && t.2.1 == a.slot)) })

/-- PLACEMENT_COPY_END: the digest agrees and the add goes on to PUBLISH, or it rolls back (R353). -/
def execPlacementCopyEnd (part act : Nat) (s : State) : Out :=
  match action? s part act, s.copies.find? (fun c => c.part == part && c.placement == some act) with
  | some a, some c =>
    if c.finished.isNone ∧ c.done < c.total then .next s else
    let (fin, s1) := placementOutcome c s
    let s2 := { s1 with copies := s1.copies.filter (fun x => x.id != c.id) }
    if fin.1 = 0 then
      .next (mapAction part act (fun x => { x with state := .publish, view := x.view.add (copyOwner c.id + 1) s2.writeSeq }) s2)
    else .next (endAction part a cCOPYFAIL (w64 fin.2) (freeActionSlot part a s2))
  | _, _ => .next s

/-- A launch of the partition holds a frozen version (R357). -/
def publicationFrozen (s : State) (part : Nat) : Bool := s.launches.any (fun v => v.2.part == part && v.2.frozenT.isSome)

/-- A granule of a table holds fewer than D versions (R348). -/
def depthFree (r : Region) (f g : Nat) : Bool := decide (((r.gran g).reclaimTable f).versions.length < r.depth)

/-- The lowest LOC whose word is not valid. -/
def lowestLoc (ws : List Nat) : Nat := ((List.range 8).find? (fun k => !locValid (nth ws k 0))).getD 7

/-- The header of a publication (R346). -/
def headerBytes (act die loc expert time : Nat) : List Byte :=
  wordBytes [w64 (loc * 2 ^ 21 + die * 2 ^ 18 + act * 2 ^ 16 + expert), w64 time] ++ List.replicate 48 0

/-- The party that creates the versions of the replica table: Equinox. -/
def equinoxParty : Nat := 2 ^ 50

/-- Creates entry version T + 1 of an expert, then header version T + 1 (R345, R353, R354). -/
def publish (part : Nat) (a : Action) (r : Region) (s : State) : State :=
  let t := (r.gran 0).latest
  let n := (s.part part).place.region
  let (ws, s1) := entryWords r a.expert t s
  let loc := if a.add then lowestLoc ws else a.loc
  let ws1 := ws.set loc (if a.add then locWord a.die (w64 a.slot) else 0)
  let s2 := createVersion part n (a.expert + 1) (t + 1) equinoxParty a.view (wordBytes (ws1.map w64)) s1
  let s3 := createVersion part n 0 (t + 1) equinoxParty a.view (headerBytes (if a.add then 1 else if a.urgent then 3 else 2) a.die loc a.expert s2.time) s2
  let s4 := answerPassed part n (match s3.region? part n with | some r3 => applyFloor part n r3.readers s3 | none => s3)
  let s5 := mapAction part a.issue (fun x => { x with state := .drain, loc := loc, arg2 := w64 (t + 1) }) s4
  if a.add then endAction part a 0 (w64 (t + 1)) s5
  else if a.urgent then oweRedirect part r.base (a.expert, loc, t + 1) s5
  else s5

/-- A publication cannot be made: the entry cannot be read, or a unit that a new version goes into is in error (R277). -/
def publishFails (s : State) (r : Region) (a : Action) : Bool :=
  let t := (r.gran 0).latest
  entryFails s r a.expert t || heapFails s r (a.expert + 1) (t + 1) || heapFails s r 0 (t + 1)

/-- PLACEMENT_PUBLISH: in queue order, one at a time, held while a version is frozen or a granule is full (R348, R352, R357); where
memory fails, the action ends with MEMERR, and an add gives its slot back (DESIGN CHOICE, log 63). -/
def execPlacementPublish (part act : Nat) (s : State) : Out :=
  match action? s part act, s.table? part with
  | some a, some r =>
    let before := (s.part part).place.actions.takeWhile (fun b => b.issue != act)
    let f := tableFloor s part r
    if a.state = .publish ∧ before.all (fun b => b.state == .drain) ∧ publicationFrozen s part = false
        ∧ depthFree r f 0 = true ∧ depthFree r f (a.expert + 1) = true
    then .next (if publishFails s r a then endAction part a cMEMERR 0 (if a.add then freeActionSlot part a s else s) else publish part a r s)
    else .next s
  | _, _ => .next s

/-- Every Running ROUTE of the partition holds a version of `v` or later (R354). -/
def routesReached (s : State) (part v : Nat) (r : Region) : Bool :=
  s.stripes.all (fun p =>
    match p.2.run.bind (fun n => Table.find n s.runs) with
    | some run =>
      !(partRun s part run && (run.status == .running || run.status == .stopping))
        || (routeOps p.2).all (fun o => o.2.1.p0.toNat != r.base || (match o.2.2.version with | some t => decide (v ≤ t) | none => true))
    | none => true)

/-- PLACEMENT_DRAIN_END: no ROUTE can send to the location any more and none of its tokens is in flight; the slot is freed (R354). -/
def execPlacementDrainEnd (part act : Nat) (s : State) : Out :=
  match action? s part act, s.table? part with
  | some a, some r =>
    let busy := (partWindows s part).any (fun w => w.expert == a.expert && w.loc == a.loc)
    if a.state = .drain ∧ busy = false ∧ routesReached s part a.arg2.toNat r = true
    then .next (endAction part a 0 a.arg2 (freeActionSlot part a s)) else .next s
  | _, _ => .next s

/-! ## Window boundaries (R342 to R344) -/

/-- The update of an expert's averages; its counters are cleared. -/
def Expert.window (e : Expert) : Expert :=
  { e with
    count := []
    avg := (List.range 8).map (fun d =>
      let a := Table.getD e.avg d 0
      (d, (a - a / 8 + 32 * Table.getD e.count d 0) % 2 ^ 64)) }

/-- The total average of an expert. -/
def Expert.total (e : Expert) : Nat := (e.avg.map (·.2)).sum

/-- Dies on which a partition owns stripes (R369). -/
def partDies (s : State) (part : Nat) : List Nat :=
  let a := (s.part part).assign
  if a.xcode = 0 ∧ a.xbase = 0 ∧ a.hbm = [] ∧ a.dsm = [] then [] else
  (List.range 8).filter (fun d => decide (a.xbase < 64 * (d + 1)) && decide (64 * d < a.xbase + 4 * 2 ^ a.xcode))

/-- Adds busy time of a die. -/
def addTime (d ns : Nat) (t : Table Nat) : Table Nat := Table.set d (Table.getD t d 0 + ns) t

/-- The share of late busy spans, each a die with its first moment and its end, that lies in a window, from its end `since` of the one before to
its own `till`; and what lies past it (R343). -/
def lateShare (since till : Nat) (late : List (Nat × Nat × Nat)) : Table Nat × List (Nat × Nat × Nat) :=
  (late.foldl (fun t x => addTime x.1 (min x.2.2 till - max x.2.1 since) t) [],
    late.filterMap (fun x => if till < x.2.2 then some (x.1, max x.2.1 till, x.2.2) else none))

/-- The utilisation of a die in the window that ends, of a length in fabric cycles (R343). -/
def utilisation (pl : Place) (d : Nat) : Nat := 100 * Table.getD pl.busy d 0 / (64 * (pl.nextAt - pl.since))

/-- Equinox appends a proposal; it has no record. -/
def propose (part : Nat) (add : Bool) (x die : Nat) (s : State) : State :=
  s.mapPlace part (fun p => { p with
    actions := p.actions ++ [⟨p.nextIssue, add, false, x, die, .queued, 0, 0, 0, 0, none, none, View.upTo s.writeSeq, View.zero⟩], nextIssue := p.nextIssue + 1 })

/-- The experts of a table by descending total average, ties by id: insertion of one. -/
def insertHot (p : Nat × Nat) : List (Nat × Nat) → List (Nat × Nat)
  | [] => [p]
  | q :: t => if q.2 < p.2 then p :: q :: t else q :: insertHot p t

/-- The retirement proposed for an expert: its replica of highest LOC (R344). -/
def proposeRetire (part t mean : Nat) (r : Region) (x : Nat) (e : Expert) (s : State) : State :=
  if mean ≤ e.total || entryFails s r x t || (s.part part).place.actions.any (fun a => a.expert == x) then s else
  let (ws, s1) := entryWords r x t s
  match ((locations ws).filter (fun l => l.1 != 0)).getLast? with
  | some l => propose part false x l.2 s1
  | none => s1

/-- The replication proposed for a hot expert, on the idle die of lowest utilisation that holds no location of it (R344). -/
def proposeAdd (part t maxRep : Nat) (r : Region) (idle : List (Nat × Nat)) (x : Nat) (s : State) : State :=
  if entryFails s r x t || (s.part part).place.actions.any (fun a => a.expert == x) then s else
  let (ws, s1) := entryWords r x t s
  if maxRep ≤ replicaCount ws then s1 else
  let free := idle.filter (fun d => !(locations ws).any (fun l => l.2 == d.1))
  let best := free.foldl (fun (m : Option (Nat × Nat)) d =>
    match m with
    | none => some d
    | some b => if d.2 < b.2 then some d else some b) none
  match best with
  | some d => propose part true x d.1 s1
  | none => s1

/-- Equinox's proposals at a window boundary (R344); `idle` lists the idle dies with their utilisation. -/
def equinoxPropose (part : Nat) (pol : Policy) (idle : List (Nat × Nat)) (s : State) : State :=
  let ex := (s.part part).place.experts
  let mean := (ex.map (fun e => e.2.total)).sum / ex.length
  match s.table? part with
  | none => s
  | some r =>
    if !pol.enable || mean = 0 then s else
    let t := (r.gran 0).latest
    let s1 := ex.foldl (fun u e => proposeRetire part t mean r e.1 e.2 u) s
    let hot := (ex.filter (fun e => decide (pol.hot * mean < 16 * e.2.total))).foldl (fun l e => insertHot (e.1, e.2.total) l) []
    hot.foldl (fun u h => proposeAdd part t pol.maxRep r idle h.1 u) s1

/-- PLACEMENT_WINDOW_BOUNDARY: averages, a new policy, proposals (R341, R342, R344). -/
def execPlacementWindowBoundary (part : Nat) (s : State) : Out :=
  let pl := (s.part part).place
  match pl.policy with
  | none => .next s
  | some old =>
    if s.time < pl.nextAt then .next s else
    let pol := pl.pending.getD old
    let use := (partDies s part).map (fun d => (d, utilisation pl d))
    let idle := use.filter (fun u => decide (u.2 < pol.idle))
    let till := nextWindow pl.nextAt pol.window
    let share := lateShare pl.nextAt till pl.late
    let s1 := s.mapPlace part (fun p => { p with
      experts := Table.mapVals (fun _ e => e.window) p.experts, since := pl.nextAt, busy := share.1, late := share.2, policy := some pol, pending := none
      nextAt := till })
    .next (equinoxPropose part pol idle s1)

end Sys2Proof.Machine
end

