-- ==== Sys2Proof/Machine/Image.lean ====
section
/-!
DEFINITION. The sections and the size of a context image (R330).
-/

namespace Sys2Proof.Machine

open Sys2Proof

/-- UNIT of a die, a control core, a stripe and a unit of a stripe. -/
def unitDie (d : Nat) : Nat := d * 2 ^ 13
def unitCore (c : Nat) : Nat := c / 8 * 2 ^ 13 + c % 8 * 2 ^ 7 + 28
def unitStripe (x : Nat) : Nat := stripeDie x * 2 ^ 13 + x / 16 % 4 * 2 ^ 11 + x % 16 * 2 ^ 7

/-- The stripes that the runs of a launch hold. -/
def launchStripes (s : State) (l : Nat) : Table Stripe :=
  s.stripes.filter (fun p => match p.2.run.bind (fun r => Table.find r s.runs) with | some r => r.launch == l | none => false)

/-- The cores of a launch. -/
def launchCores (v : Launch) : List Nat := (List.range 64).filter (fun c => launchHasRing v (coreRing c))

/-- KIND and UNIT of every section. -/
def imageSections (s : State) (l : Nat) (v : Launch) : List (Nat × Nat) :=
  let dies := (List.range 8).filter (launchHasDie v)
  let rings := (List.range 32).filter (launchHasRing v)
  let xs := launchStripes s l
  (s.threadsOf l).map (fun t => (0x01, unitDie t.die + 28))
    ++ dies.map (fun d => (0x02, unitDie d))
    ++ (launchCores v).map (fun c => (0x03, unitCore c)) ++ (launchCores v).map (fun c => (0x04, unitCore c))
    ++ (s.runs.filter (fun r => r.2.launch == l)).map (fun r => (0x05, unitDie r.2.die))
    ++ xs.flatMap (fun p => p.2.elems.map (fun e => (0x06, unitStripe p.1 + e.1)))
    ++ xs.flatMap (fun p => p.2.ops.map (fun o => (0x07, unitStripe p.1 + 16 + o.1)))
    ++ xs.map (fun p => (0x08, unitStripe p.1))
    ++ (List.range v.xext).map (fun i => (0x09, unitStripe (v.xbase + i)))
    ++ rings.map (fun r => (0x0A, r / 4 * 2 ^ 13 + r % 4 * 2 ^ 11))
    ++ dies.map (fun d => (0x0B, unitDie d)) ++ dies.map (fun d => (0x0C, unitDie d)) ++ dies.map (fun d => (0x0D, unitDie d))

/-- What a launch holds, on which the lengths of its sections depend. -/
def launchContent (s : State) (l : Nat) :
    List Thread × Table CoreCtx × Table Run × Table Stripe × List CopyJob × List PendingFault × Option (Table LaunchDie) :=
  (s.threadsOf l, s.ctxs.filter (fun c => c.1 / 128 == l + 1), s.runs.filter (fun r => r.2.launch == l), launchStripes s l,
    s.copies.filter (fun c => c.launch == l), s.faults.filter (fun f => f.launch == l), (Table.find l s.launches).map (·.dies))

/-- The sections of an image with their lengths; a stripe buffer's is 256 KiB. -/
def sectionSizes (s : State) (l : Nat) (v : Launch) : List ((Nat × Nat) × Nat) :=
  (imageSections s l v).map (fun k => (k, if k.1 = 0x09 then 262144 else Config.sectionSize (launchContent s l) k.1 k.2))

/-- The sections of an image with their bytes, at the n-th draw. -/
def sectionList (s : State) (l : Nat) (v : Launch) (n : Nat) : List ((Nat × Nat) × List Byte) :=
  (sectionSizes s l v).mapIdx (fun i k => (k.1, padTo k.2 (Config.sectionBytes n i)))

/-- The size of an image. -/
def imageSize (secs : List ((Nat × Nat) × Nat)) : Nat := secs.foldl (fun m x => m + 16 + x.2) 128

end Sys2Proof.Machine
end

