-- ==== Sys2Proof/Machine/Priv.lean ====
section
/-!
DEFINITION. The privileged instructions of MAJ 0x2C (R185, R310, R327, R328, R331, R382 to R387).
-/

namespace Sys2Proof.Machine

open Sys2Proof

/-! ## Launches by identifier -/

/-- The placed launch, halted or not, that an identifier names. -/
def placedLaunch (s : State) (ident : Word) : Option (Nat × Launch) :=
  s.launches.find? (fun v => v.2.ident == ident &&
    (v.2.status == .placed || v.2.status == .halting || v.2.status == .halted))

/-- Issues a record-producing privileged instruction: the entry, the ticket, what it starts (R150). -/
def issueRecord (d : Reg) (s : State) (start : BitVec 16 → State → State) : Out :=
  match reserve s with
  | none => .next (blockOn (.again 1 0) s)
  | some s1 =>
    let (ticket, s2) := takeTicket s1
    .next ((start ticket s2).write4 d (ticket.setWidth 64))

/-- Halts a launch for a PREEMPT, unless it is halting already (R327). -/
def startPreempt (l : Nat) (v : Launch) (report : Nat × Nat × BitVec 16) (s : State) : State :=
  let s1 := if v.status = .placed then (preemptHalt l s).mapLaunch l (fun x => { x with status := .halting }) else s
  s1.mapLaunch l (fun x => { x with preempt := x.preempt ++ [report] })

/-- PREEMPT (R185, R327): ILLOP where the identifier names no placed launch (DESIGN CHOICE, log 59). -/
def execPreempt (d a : Reg) (s : State) : Out :=
  privileged s (
    match placedLaunch s (s.g a) with
    | none => .next (illop s)
    | some (l, v) => issueRecord d s (fun t s1 => startPreempt l v (s1.core, s1.th.id, t) s1))

/-- CTXSAVE (R328): of a launch halted by PREEMPT, or held. -/
def execCtxsave (d a b : Reg) (s : State) : Out :=
  privileged s (
    match placedLaunch s (s.g a) with
    | none => .next (illop s)
    | some (l, v) =>
      let addr := s.g b
      if v.status ≠ .halted then .next (illop s)
      else if addr.toNat % 4096 ≠ 0 then .next (trap cALIGN addr s)
      else issueRecord d s (fun t s1 =>
        let s2 := { s1 with ctxJobs := s1.ctxJobs ++ [⟨false, l, s1.th.id, s1.core, t, addr, v.ident, imageSize (sectionSizes s l v)⟩] }
        if addr = 0 then s2 else s2.mapLaunch l (fun x => { x with status := .saving })))

/-- CTXREST (R331): the checks are made when the image is read. -/
def execCtxrest (d a : Reg) (s : State) : Out :=
  privileged s (issueRecord d s (fun t s1 =>
    { s1 with ctxJobs := s1.ctxJobs ++ [⟨true, s1.nextJob, s1.th.id, s1.core, t, s1.g a, 0, 0⟩], nextJob := s1.nextJob + 1 }))

/-! ## Queues (R185, R310) -/

/-- The state codes of a queue (R310). -/
def qDISABLED : Nat := 0
def qACTIVE : Nat := 1
def qQUIESCED : Nat := 2
def qOVERRUN : Nat := 3
def qRESETTING : Nat := 4

/-- A queue of a partition. -/
def State.queue (s : State) (part q : Nat) : Queue := Table.getD (s.part part).queues q Queue.blank

/-- Changes a queue. -/
def State.mapQueue (s : State) (part q : Nat) (f : Queue → Queue) : State :=
  let p := s.part part
  s.setPart part { p with queues := Table.set q (f (s.queue part q)) p.queues }

/-- A fetched launch of a queue has not completed. -/
def queueBusy (s : State) (part q : Nat) : Bool := (s.queue part q).live.any (fun k => k.2.2.isSome)

/-- The partition and queue that an operand names: [9:6] and [5:0]; none where it has other bits, for which
QQUIESCE and QRESUME trap ILLOP (DESIGN CHOICE, log 59). -/
def queueOperand (v : Word) : Option (Nat × Nat) :=
  if v.toNat < 1024 then some (bits v.toNat 9 6, bits v.toNat 5 0) else none

/-- QQUIESCE: stops fetch of an ACTIVE queue and waits for its fetched launches. -/
def execQquiesce (a : Reg) (s : State) : Out :=
  privileged s (
    match queueOperand (s.g a) with
    | none => .next (illop s)
    | some (p, q) =>
      let s1 := s.mapQueue p q (fun x => if x.state = qACTIVE then { x with state := qQUIESCED } else x)
      if queueBusy s1 p q then .next (blockOn (.qquiesce p q) s1) else .next (s1.advance 4))

/-- QRESUME: a QUIESCED queue is ACTIVE again. -/
def execQresume (a : Reg) (s : State) : Out :=
  privileged s (
    match queueOperand (s.g a) with
    | none => .next (illop s)
    | some (p, q) =>
      .next ((s.mapQueue p q (fun x => if x.state = qQUIESCED then { x with state := qACTIVE } else x)).advance 4))

/-! ## Firmware (R384 to R387, R393) -/

/-- A firmware slot. -/
def State.fw (s : State) (slot : Nat) : FwSlot := Table.getD s.io.slots slot ⟨[], 0, false⟩

/-- Changes a firmware slot. -/
def State.setFw (s : State) (slot : Nat) (v : FwSlot) : State := { s with io := { s.io with slots := Table.set slot v s.io.slots } }

/-- The slot that is not active. -/
def inactiveSlot (s : State) : Nat := 1 - s.io.fwslot

/-- FWSTAGE: 0, or 1 where the count exceeds 16 MiB. -/
def execFwstage (d a b : Reg) (s : State) : Out :=
  privileged s (
    let n := (s.g b).toNat
    if 2 ^ 24 < n then .next (s.write4 d 1) else
    (loadPages (n / 4096 + 2) (s.g a) n s).andThen (fun bs s1 =>
      .next ((s1.setFw (inactiveSlot s1) ⟨bs, n, false⟩).write4 d 0)))

/-- The Ed25519 and ML-DSA-65 results of a package of some bytes (R384). -/
def packageResults (pkg : List Byte) (count : Nat) : Bool × Bool :=
  let head := pkg.take 64
  let body := pkg.drop 4096
  let good := decide (4096 ≤ count) && leNat ((pkg.drop 48).take 8) == count - 4096 && sha384 body == pkg.take 48
  (good && Config.ed25519 head ((pkg.drop 64).take 64), good && Config.mlDsa65 head ((pkg.drop 128).take 3309))

/-- Both signatures of a package verify. -/
def packageGood (pkg : List Byte) : Bool := (packageResults pkg pkg.length).1 && (packageResults pkg pkg.length).2

/-- FWVERIFY: the results of the staged image; it counts as verified only when both are 1. -/
def execFwverify (d : Reg) (s : State) : Out :=
  privileged s (
    let slot := inactiveSlot s
    let f := s.fw slot
    let r := packageResults f.package f.count
    .next ((s.setFw slot { f with verified := r.1 && r.2 }).write4 d (w64 (ofBool r.1 + 2 * ofBool r.2))))

/-- A measurement register; 48 zero bytes at reset (R381). -/
def measurement (s : State) (k : Nat) : List Byte := Table.getD s.io.measure k (List.replicate 48 0)

/-- Extends a measurement register (R185). -/
def extendMeasure (k : Nat) (digest : List Byte) (s : State) : State :=
  { s with io := { s.io with measure := Table.set k (sha384 (measurement s k ++ digest)) s.io.measure } }

/-- MEASURE (R385): registers 28 to 31. -/
def execMeasure (a b : Reg) (s : State) : Out :=
  privileged s (
    let k := (s.g b).toNat
    if k < 28 ∨ 31 < k then .next (illop s) else
    (loadPages 2 (s.g a) 48 s).andThen (fun bs s1 => .next ((extendMeasure k bs s1).advance 4)))

/-- The image on management core m stops at an instruction boundary (R386, R387): its posted accesses reach their homes, the instruction that it
is blocked in is abandoned, and with it an operation that is parked, and its records are discarded as those of a continuation that has
exited. -/
def endImage (m : Nat) (s : State) : State :=
  match s.allThreads.find? (fun t => t.launch.isNone && t.serial == m) with
  | none => s
  | some t =>
    let s1 := unpark [t.id] (settleAll t.id s)
    let s2 := { s1 with
      flushes := s1.flushes.filter (fun j => !(j.owner == t.id && j.wait))
      ctxs := Table.erase (64 + m) s1.ctxs
      cores := Table.set (64 + m) Core.blank s1.cores }
    if s2.th.id = t.id then { s2 with th := { s2.th with status := .exited } } else { s2 with threads := Table.erase t.id s2.threads }

/-- Management core m stops its image and starts another at its entry, with g1 = KHANDOVER; its records and debug registers are new (R386). -/
def startCore (m : Nat) (entry : Word) (s : State) : State :=
  let s1 := endImage m s
  let t := { Thread.management m with
    id := s1.nextThread, pc := entry, regs := (Vector.replicate 32 0).set 1 s1.io.handover, status := .running (64 + m), cycles := 0 }
  { s1 with
    threads := Table.set t.id t s1.threads
    nextThread := s1.nextThread + 1
    cores := Table.set (64 + m) { Core.blank with running := some t.id } s1.cores }

/-- Stops the image on cores 1 to 3, then starts the image of a slot on them (R386, R387, R393). -/
def startImage (slot : Nat) (s : State) : State :=
  let entry := w64 (leNat (((s.fw slot).package.drop 4096).take 8))
  startCore 3 entry (startCore 2 entry (startCore 1 entry s))

/-- 10 ms. -/
def beatLimit : Nat := 10000000

/-- A slot becomes active: measured, KFWSLOT and KHBEAT set, its image started (R386, R387, R393). -/
def activate (slot : Nat) (w : Watch) (s : State) : State :=
  let s1 := extendMeasure 10 ((s.fw slot).package.take 48) s
  startImage slot { s1 with io := { s1.io with fwslot := slot, hbeat := 0, watch := w } }

/-- Every queue of every partition is QUIESCED, DISABLED or OVERRUN (R386). -/
def allQuiet (s : State) : Bool :=
  s.parts.all (fun p => p.2.queues.all (fun q => q.2.state != qACTIVE && q.2.state != qRESETTING))

/-- SLOTSW (R185, R386).  A core whose own image it stops goes on at the new image's entry. -/
def execSlotsw (a : Reg) (s : State) : Out :=
  privileged s (
    let slot := (s.g a).toNat
    if 1 < slot ∨ slot = s.io.fwslot ∨ (s.fw slot).verified = false ∨ allQuiet s = false then .next (illop s) else
    let s1 := activate slot (.first (s.time + beatLimit) (some s.io.fwslot)) s
    .next (if s.core = 64 then s1.advance 4 else s1))

/-- The roll-back to the old slot (R387). -/
def rollBack (old : Nat) (s : State) : State :=
  let bad := s.io.fwslot
  activate old .off (s.setFw bad { s.fw bad with verified := false })

/-- The same slot starts again (R393). -/
def restartSlot (s : State) : State := activate s.io.fwslot (.first (s.time + beatLimit) none) s

/-- Boot starts the image of a slot, with the other slot where that is still to be tried (R389). -/
def bootSlotStart (slot : Nat) (other : Option Nat) (s : State) : State :=
  startImage slot { s with io := { s.io with fwslot := slot, hbeat := 0, stage := 6, watch := .boot (s.time + beatLimit) other } }

/-- No image that boot has tried runs: cores 1 to 3 stop (R389). -/
def noScheduler (s : State) : State :=
  let s1 := endImage 3 (endImage 2 (endImage 1 s))
  { s1 with io := { s1.io with stage := 5, nosched := true, watch := .off } }

/-- What follows a heartbeat deadline that has passed; none where no deadline has. -/
def deadlinePassed (s : State) : Option State :=
  match s.io.watch with
  | .off => none
  | .boot t (some other) => if t ≤ s.time then some (bootSlotStart other none s) else none
  | .boot t none => if t ≤ s.time then some (noScheduler s) else none
  | .first t (some old) => if t ≤ s.time then some (rollBack old s) else none
  | .first t none => if t ≤ s.time then some (restartSlot s) else none
  | .beating t => if t ≤ s.time then some (restartSlot s) else none

/-- The boot slot after an HBEAT: the first one after a SLOTSW makes its slot the boot slot (R389). -/
def slotAfterBeat (s : State) : Nat :=
  match s.io.watch with
  | .first _ (some _) => s.io.fwslot
  | _ => s.io.bootSlot

/-- HBEAT (R185, R383, R386, R389, R393): one that comes after the deadline goes with its image. -/
def execHbeat (s : State) : Out :=
  privileged s (
    if s.core = 64 then .next (illop s) else
    match deadlinePassed s with
    | some s1 => .next s1
    | none =>
      .next ({ s with io := { s.io with
        hbeat := s.io.hbeat + 1, watch := .beating (s.time + beatLimit), stage := 0xFF, bootSlot := slotAfterBeat s } }.advance 4))

/-! ## KEYLD (R276, R382) -/

/-- Every 1 GiB unit of HBM that a partition owns (R369). -/
def ownedUnits (a : Assign) : List Nat :=
  (List.range 16).flatMap (fun j => (List.range 64).filterMap (fun u =>
    if bit (Table.getD a.hbm j 0).toNat u then some (64 * j + u) else none))

/-- A memory key in place of another: the units' contents, version heaps among them, are decrypted under it from now on (R276).  The first key
leaves them as the assignment did (R253). -/
def newMemoryKey (part : Nat) (key : List Byte) (s : State) : State :=
  let p := s.part part
  match p.memKey with
  | none => s.setPart part { p with memKey := some key }
  | some old =>
    if old = key then s else
    let us := ownedUnits p.assign
    let s1 := spoilHeaps (fun pa => us.contains (pa / 2 ^ 30)) { s with mem := us.foldl (fun m u => m.rekey old key u) s.mem }
    s1.setPart part { s1.part part with memKey := some key }

/-- The key that a 112-byte blob unwraps to, for a use, stream and partition (R382). -/
def unwrapKey (p : Partition) (part use stream : Nat) (blob : List Byte) : Option (Nat × List Byte) :=
  let byte := fun i => (nth blob i 0).toNat
  let counter := leNat (blob.take 8)
  let zero := fun (bs : List Byte) => bs.all (· == 0)
  let fresh := match p.keyCount with | none => true | some c => decide (c < counter)
  match p.wrapKey with
  | none => none
  | some wk =>
    match gcmOpen wk ((blob.drop 16).take 12) (blob.take 28) ((blob.drop 28).take 64) ((blob.drop 96).take 16) with
    | none => none
    | some plain =>
      let key := if use = 0 then plain else plain.take 32
      if fresh && byte 8 == use && byte 9 == (if use = 1 then stream else 0) && byte 10 == part
          && zero ((blob.drop 11).take 5) && zero ((blob.drop 92).take 4) && !zero key
      then some (counter, key) else none

/-- Loads an unwrapped key into its slot. -/
def installKey (part use stream counter : Nat) (key : List Byte) (s : State) : State :=
  let s1 := s.setPart part { s.part part with keyCount := some counter }
  if use = 0 then newMemoryKey part key s1 else
  let p := s1.part part
  let x := Table.getD p.streams stream ⟨0, 0, 0, 0, 0, none⟩
  let x1 := { x with key := some key, state := if x.peer = 0 then x.state else 1 }
  s1.setPart part { p with streams := Table.set stream x1 p.streams }

/-- KEYLD (R185, R382). -/
def execKeyld (d a b : Reg) (s : State) : Out :=
  privileged s (
    let v := (s.g b).toNat
    let part := bits v 3 0
    let use := bits v 5 4
    let stream := bits v 11 6
    if 4096 ≤ v ∨ 1 < use ∨ (use = 0 ∧ stream ≠ 0) then .next (illop s) else
    (loadPages 2 (s.g a) 112 s).andThen (fun blob s1 =>
      match unwrapKey (s1.part part) part use stream blob with
      | none => .next (s1.write4 d 1)
      | some (counter, key) => .next ((installKey part use stream counter key s1).write4 d 0)))

end Sys2Proof.Machine
end

