-- ==== Sys2Proof/Machine/Segment.lean ====
section
/-!
DEFINITION. The segment and stream-FIFO instructions (R155 to R162, R187, R210, R211, R223, R254 to R256) and the fetch of
configuration images.
-/

namespace Sys2Proof.Machine

open Sys2Proof

/-! ## Configuration images (R156, R211) -/

/-- The image address that the loaded objects of a partition give an identifier, objects kept without references included (R313, R314). -/
def imageAddr (s : State) (part ident : Nat) : Option Word :=
  (s.part part).objects.findSome? (fun o => Table.find ident o.2.table)

/-- The n bytes of an image at an offset. -/
def imageBytes (bs : List Byte) (n off : Nat) : List Byte := (bs.drop off).take n

/-- The n bytes of an image at an offset as a number, the first the least significant (R5). -/
def imageWord (bs : List Byte) (n off : Nat) : Nat := leNat (imageBytes bs n off)

/-- An operator's configuration, read from the image. -/
def OpLayout.read (bs : List Byte) (o : OpLayout) : OpImage :=
  let p := fun (i : Nat) => w64 (imageWord bs 8 (nth o.params i bs.length))
  ⟨o.kind, p 0, p 1, p 2, p 3, p 4, p 5, p 6, p 7, BitVec.ofNat 16 (imageWord bs 2 o.out0), BitVec.ofNat 16 (imageWord bs 2 o.out1)⟩

/-- A weight slice, read from the image. -/
def WeightLayout.read (bs : List Byte) (w : WeightLayout) : WeightImage :=
  ⟨w.fmt, w.esc, BitVec.ofNat 16 (imageWord bs 2 w.xval), imageBytes bs 2752 w.slice⟩

/-- An element's configuration, read from the image: 128-bit words have bits [7:0] at their lowest address (R5, R333). -/
def ElemLayout.read (bs : List Byte) (e : ElemLayout) : ElemImage :=
  { slots := Table.mapVals (fun _ off => BitVec.ofNat 128 (imageWord bs 16 off)) e.slots
    policy := w64 (imageWord bs 8 e.policy)
    weights := e.weights.map (fun w => w.read bs)
    breakMask := BitVec.ofNat 16 (imageWord bs 2 e.breakMask) }

/-- The configuration of a virtual stripe, read from the image; EPW has 32 bits (R396). -/
def StripeLayout.read (bs : List Byte) (im : StripeLayout) : StripeImage :=
  { elems := Table.mapVals (fun _ (e : ElemLayout) => e.read bs) im.elems
    ops := Table.mapVals (fun _ (o : OpLayout) => o.read bs) im.ops
    pass := im.pass
    stateful := im.stateful
    epw := BitVec.ofNat 32 (imageWord bs 4 im.epw) }

/-- A virtual stripe fits the device: 16 elements with 16 slots each, 12 operator slots and 64 pass registers (R1, R23). -/
def StripeLayout.fits (im : StripeLayout) : Bool :=
  im.elems.all (fun e => decide (e.1 < 16) && e.2.slots.all (fun sl => decide (sl.1 < 16))) && im.ops.all (fun o => decide (o.1 < 12))
    && im.pass.all (fun p => decide (p.1 < 64))

/-- The configuration that an image's bytes form, where it is one of this device. -/
def readImage (bs : List Byte) : Option SegImage :=
  match Config.decodeImage bs with
  | some img => if img.stripes.all StripeLayout.fits then some ⟨img.pinned, img.stripes.map (fun im => im.read bs)⟩ else none
  | none => none

/-- Fetches an image from memory: its configuration, or the status of a failure of the image as a whole (R156; log 5). -/
def fetchImage (part : Nat) (va : Word) (s : State) : (Except Nat SegImage) × State :=
  match readVirtual part .read [] 3 va 64 s with
  | ((_, some (cause, _)), s1) => (.error cause, s1)
  | ((head, none), s1) =>
    let n := Config.imageLength head
    match readVirtual part .read [] (n / 4096 + 2) va n s1 with
    | ((_, some (cause, _)), s2) => (.error cause, s2)
    | ((bs, none), s2) =>
      match readImage bs with
      | some img => (.ok img, s2)
      | none => (.error cILLOP, s2)

/-- The configuration of an identifier, from the die configuration store or from its image (R211). -/
def dieImage (die part ident : Nat) (s : State) : (Except Nat SegImage) × State :=
  match s.dieStore.find? (fun d => d.1 == die && d.2.1 == part && d.2.2.1 == ident) with
  | some d => (.ok d.2.2.2, s)
  | none =>
    match imageAddr s part ident with
    | none => (.error cILLOP, s)
    | some va =>
      match fetchImage part va s with
      | (.ok img, s1) => (.ok img, { s1 with dieStore := s1.dieStore ++ [(die, part, ident, img)] })
      | e => e

/-! ## SEGLD (R156) -/

/-- Changes a handle of a launch on a die. -/
def mapHandle (l die h : Nat) (f : Handle → Handle) (s : State) : State :=
  s.mapDie l die (fun d =>
    match Table.find h d.handles with
    | some v => { d with handles := Table.set h (f v) d.handles }
    | none => d)

/-- The handle of an identifier on a die, or the lowest free number (DESIGN CHOICE, log 59). -/
def handleFor (d : LaunchDie) (ident : Nat) : Option Nat :=
  match d.handles.find? (fun h => h.2.ident == ident) with
  | some h => some h.1
  | none => if d.handles.length < 256 then some (Table.firstFree d.handles 256) else none

/-- SEGLD (R150, R156): the handle at once, the record later. -/
def execSegld (d a : Reg) (s : State) : Out :=
  launchOnly s (
    match s.th.launch, s.launch? with
    | some l, some v =>
      let die := s.th.die
      let ident := (s.g a).toNat
      if (imageAddr s v.part ident).isNone then .next (trap cILLOP (s.g a) s) else
      match handleFor (v.die die) ident with
      | none => .next (trap cILLOP (s.g a) s)
      | some h =>
        match reserve s with
        | none => .next (blockOn (.again 1 0) s)
        | some s1 =>
          let isNew := (Table.find h (v.die die).handles).isNone
          let id := s1.nextJob
          let load : SegLoad := ⟨id, l, die, s1.core, s1.th.id, ident, h, isNew⟩
          let s2 := { s1 with segLoads := s1.segLoads ++ [load], nextJob := id + 1 }
          let s3 := if isNew then
              s2.mapDie l die (fun x => { x with handles := Table.set h ⟨ident, some id, false, 0, 0, 0, none⟩ x.handles })
            else s2
          .next (s3.write4 d (w64 h))
    | _, _ => .next s)

/-- The checks of a load that has none made since the last CFGINV: status, ARG1 and configuration. -/
def checkLoad (die part ident : Nat) (s : State) : (Nat × Word × Option SegImage) × State :=
  match dieImage die part ident s with
  | (.error cause, s1) => ((cause, -1, none), s1)
  | (.ok img, s1) =>
    let r := checkSegment (s1.part part).accept img
    ((r.1, r.2, some img), s1)

/-- SEGLD ends: its checks, unless they stand since the last CFGINV, and its record (R156). -/
def execSegldComplete (job : Nat) (s : State) : Out :=
  match s.segLoads.find? (fun c => c.id == job) with
  | none => .next s
  | some c =>
    match Table.find c.launch s.launches with
    | none => .next s
    | some v =>
      match Table.find c.handle (v.die c.die).handles with
      | none => .next s
      | some h =>
        let (r, s1) := if h.checked then ((h.status, h.arg1, h.image), s) else checkLoad c.die v.part c.ident s
        let s2 := mapHandle c.launch c.die c.handle (fun x => { x with
          checked := true, status := r.1, arg1 := r.2.1
          image := match r.2.2 with | some i => some i | none => x.image
          loading := if c.assigning then none else x.loading
          first := if c.assigning then r.1 else x.first }) s1
        let s3 := { s2 with segLoads := s2.segLoads.filter (fun x => x.id != job) }
        .next (deliver c.core c.owner 2 c.handle r.1 0 r.2.1 0 s3)

/-! ## SEGRUN (R157, R210) -/

/-- A run descriptor's legality by itself (R157). -/
def descLegal (ws : List Word) : Bool :=
  let w := fun i => (nth ws i 0).toNat
  bits (w 0) 63 48 == 0 && bits (w 0) 31 24 == 0 && bits (w 0) 15 12 == 0 && bits (w 1) 63 16 == 0
    && (ws.drop 3).all (· == 0)
    && decide (1 ≤ bits (w 0) 8 0) && decide (bits (w 0) 8 0 ≤ 384) && decide (bits (w 0) 23 16 ≤ 48)
    && bits (w 0) 47 32 % (4 * 2 ^ bits (w 0) 11 9) == 0 && w 2 % 4096 == 0

/-- The FIFOs that SPACE 3 operators of some kinds name directly in a segment (R187). -/
def fifosOf (kinds : List Nat) (img : SegImage) : List Nat :=
  let last := img.stripes.length - 1
  (img.stripes.zipIdx).flatMap (fun p => p.1.ops.filterMap (fun o =>
    let space3 := kinds.contains o.2.kind && o.2.field 0 2 0 == 3
    let ends := (p.2 == 0 && burstEnd 1 o.2) || (p.2 == last && burstEnd 2 o.2)
    if space3 && !ends then some (o.2.field 0 23 16) else none))

/-- The FIFOs that a run reads: that of its burst source, and those that LOADs name directly. -/
def Run.sources (r : Run) : List Nat :=
  (if (r.image.stripes.take 1).any (fun p => p.ops.any (fun o => burstEnd 1 o.2)) then [r.inFifo] else []) ++ fifosOf [1] r.image

/-- The FIFOs that a run names. -/
def Run.fifos (r : Run) : List Nat := r.inFifo :: r.outFifo :: fifosOf [1, 2] r.image

/-- The run that a descriptor asks for. -/
def newRun (l die owner ident phase : Nat) (floor : View) (img : SegImage) (ws : List Word) : Run :=
  let w := fun i => (nth ws i 0).toNat
  { launch := l, ticket := 0, die := die, owner := owner, ident := ident, image := img, phase := phase, status := .waiting,
    xorig := bits (w 0) 47 32, width := 4 * 2 ^ bits (w 0) 11 9, waves := bits (w 0) 8 0, spill := bits (w 0) 23 16,
    overflow := w 2, inFifo := bits (w 1) 7 0, outFifo := bits (w 1) 15 8, reserve := stateBound img, step := 0,
    stepOpen := false, waveNext := 0, burstOf := [], lastBurst := none, eosGiven := false, steps := 0, bursts := 0,
    stretched := 0, startTime := 0, endTime := 0, saved := [], records := [], haltCause := none, result := 0, stepDue := 0,
    floor := floor, drained := View.zero }

/-- Rings that a run's partition touches, and their pooled state store in bytes (R210). -/
def Run.rings (r : Run) : List Nat := (List.range ((r.width + 15) / 16)).map (· + r.xorig / 16)
def Run.pool (r : Run) : Nat := 2 ^ 20 * r.rings.length

/-- The run may be asked for: its stripes lie in the rectangle, a pinned segment fits, its FIFOs are bound, and its state fits the
state stores (R157, R210). -/
def runLegal (v : Launch) (r : Run) : Bool :=
  decide (v.xbase ≤ r.xorig) && decide (r.xorig + r.width ≤ v.xbase + v.xext)
    && !(r.image.pinned && decide (r.width < r.vcount))
    && r.fifos.all (fun f => match Table.find f (v.die r.die).fifos with | some x => x.bound | none => false)
    && decide (r.reserve ≤ r.pool)

/-- Runs of a launch that have not been retired. -/
def State.runsOf (s : State) (l : Nat) : List (Nat × Run) := s.runs.filter (fun r => r.2.launch == l)

/-- The loads whose records a SEGRUN of a handle waits for. -/
def loadsBefore (s : State) (l die h : Nat) (v : Handle) : Bool :=
  v.loading.isSome || s.segLoads.any (fun c => c.launch == l && c.die == die && c.handle == h && c.owner == s.th.id)

/-- Not all run tickets of a launch are held (R155); a run that has not started holds none. -/
def ticketLeft (s : State) (l : Nat) : Bool := decide (((s.runsOf l).filter (fun r => r.2.ticket != 0)).length < 65535)

/-- SEGRUN (R157): once its checks pass the run waits for its stripes, and the instruction with it; RUN_START gives the ticket. -/
def execSegrun (d a b : Reg) (s : State) : Out :=
  launchOnly s (
    match s.th.launch, s.launch? with
    | some l, some v =>
      let die := s.th.die
      let h := (s.g a).toNat
      match Table.find h (v.die die).handles with
      | none => .next (trap cILLOP (s.g a) s)
      | some hd =>
        if loadsBefore s l die h hd then .next (blockOn (.again 4 h) s)
        else if hd.first ≠ 0 then .next (trap hd.first (s.g a) s)
        else
          (loadAl (s.g b) 64 64 s).andThen (fun bs s1 =>
            let ws := bytesWords 8 bs
            match hd.image with
            | none => .next (illop s1)
            | some img =>
              let r := newRun l die s1.th.id hd.ident s1.th.phase s1.th.floor img ws
              if descLegal ws && runLegal v r && ticketLeft s1 l then
                let id := s1.nextRun
                .next (blockOn (.segrun d id) { s1 with runs := Table.set id r s1.runs, nextRun := id + 1 })
              else .next (illop s1))
    | _, _ => .next s)

/-! ## SEGSTOP, SEGWAIT, CFGINV (R158 to R160) -/

/-- The unretired run of a launch with a ticket. -/
def runByTicket (s : State) (l : Nat) (t : Word) : Option (Nat × Run) :=
  s.runs.find? (fun r => r.2.launch == l && r.2.ticket != 0 && r.2.ticket == t.toNat)

/-- Asks a run to halt with a cause of its own, where none came before. -/
def Run.stop (r : Run) (cause : Nat) : Run :=
  if r.status = .running then { r with status := .stopping, haltCause := some (r.haltCause.getD cause) } else r

/-- SEGSTOP (R158). -/
def execSegstop (a : Reg) (s : State) : Out :=
  launchOnly s (
    match s.th.launch with
    | none => .next s
    | some l =>
      match runByTicket s l (s.g a) with
      | none => .next (illop s)
      | some (id, _) => .next ((s.mapRun id (fun r => r.stop cSTOPPED)).advance 4))

/-- The statistics of a run (R159): the header, then the records of every element of every virtual stripe. -/
def Run.statistics (r : Run) : List Byte :=
  wordBytes [w64 r.vcount, w64 r.steps, w64 r.bursts, w64 r.stretched, w64 r.startTime, w64 r.endTime, 0, 0]
    ++ (List.range (16 * r.vcount)).flatMap (fun i => (Table.getD r.records i Status.zero).bytes)

/-- The physical addresses of n blocks of 64 bytes that a store may write, from a virtual address aligned to 64; nothing is written where
one of them may not be (R7). -/
def blocksFor : Nat → Word → State → Got (List Nat)
  | 0, _, s => .ok [] s
  | n + 1, va, s =>
    ((translateSpanAt va 64 .write 0 s).bind (fun pa s1 => behindSignal pa 64 s1)).bind (fun pa s1 =>
      if windowClosed s1 pa then .stop (trap cPROT va s1)
      else if onDevice pa && homeDie pa == coreDie s1.core && writeFails s1 pa 64 then .stop (trap cMEMERR va s1)
      else (blocksFor n (va + 64) s1).bind (fun rest s2 => .ok (pa :: rest) s2))

/-- Stores bytes in blocks of 64 at translated addresses. -/
def storeBlocks : List Nat → Word → List Byte → State → Got Unit
  | [], _, _, s => .ok () s
  | pa :: t, va, bs, s => (storePaAt pa (bs.take 64) 0 va 0 s).bind (fun _ s1 => storeBlocks t (va + 64) (bs.drop 64) s1)

/-- SEGWAIT ends: the statistics unless GB was g0, the retirement, the status (R159). -/
def segwaitDone (d : Reg) (id : Nat) (r : Run) (stats : Option Word) (s : State) : Out :=
  (match stats with
    | none => Got.ok () s
    | some va => (blocksFor (6 * r.vcount + 1) va s).bind (fun pas s1 => storeBlocks pas va r.statistics s1)).andThen (fun _ s1 =>
      .next ({ s1 with runs := Table.erase id s1.runs }.write4 d (w64 r.result)))

/-- SEGWAIT (R159). -/
def execSegwait (d a b : Reg) (s : State) : Out :=
  launchOnly s (
    match s.th.launch with
    | none => .next s
    | some l =>
      let stats := if b = 0 then none else some (s.g b)
      match runByTicket s l (s.g a) with
      | none => .next (illop s)
      | some (id, r) =>
        if stats.isSome ∧ (s.g b).toNat % 64 ≠ 0 then .next (trap cALIGN (s.g b) s)
        else if r.status = .ended then segwaitDone d id r stats s
        else .next (blockOn (.segwait d id stats) s))

/-- CFGINV (R160): on every die of the partition. -/
def execCfginv (a : Reg) (s : State) : Out :=
  launchOnly s (
    let part := s.partNow
    let ident := (s.g a).toNat
    let stale := fun (h : Handle) => if h.ident = ident then { h with checked := false } else h
    let s1 := { s with
      dieStore := s.dieStore.filter (fun d => !(d.2.1 == part && d.2.2.1 == ident))
      ringCache := s.ringCache.filter (fun d => !(d.2.1 == part && d.2.2.1 == ident))
      launches := Table.mapVals (fun _ (v : Launch) =>
        if v.part = part then
          { v with dies := Table.mapVals (fun _ (x : LaunchDie) => { x with handles := Table.mapVals (fun _ h => stale h) x.handles }) v.dies }
        else v) s.launches }
    .next (s1.advance 4))

/-! ## Stream FIFOs (R161, R162, R223, R254) -/

/-- The FIFO of a descriptor for a launch on a die; none where it breaks the limits.  Its reserved fields are ignored (R6). -/
def fifoOf (v : Launch) (die : Nat) (ws : List Word) : Option Fifo :=
  let w := fun i => (nth ws i 0).toNat
  let size := bits (w 1) 39 0
  let back := bits (w 1) 41 40
  let ring := bits (w 1) 44 42
  let pow := (List.range 25).any (fun i => size == 2 ^ (i + 8))
  let win := (ringWindow v (4 * die + ring)).2
  if back < 2 ∧ pow = true ∧ w 0 % size = 0 ∧ w 2 ≤ size
      ∧ (back = 1 → ring = 0) ∧ (back = 0 → ring < 4 ∧ w 0 + size ≤ win) then
    some { virt := back == 1, base := w 0, ring := 4 * die + ring, size := size, rpos := 0, wpos := w 2, start := w 2,
           eos := bit (w 3) 0, bound := true, appended := View.zero }
  else none

/-- STRBIND (R161, R223). -/
def execStrbind (d a : Reg) (s : State) : Out :=
  launchOnly s (
    match s.th.launch, s.launch? with
    | some l, some v =>
      let die := s.th.die
      (loadAl (s.g a) 32 32 s).andThen (fun bs s1 =>
        let n := (v.die die).nextFifo
        match fifoOf v die (bytesWords 4 bs) with
        | none => .next (illop s1)
        | some f =>
          if 256 ≤ n then .next (illop s1) else
          .next ((s1.mapDie l die (fun x => { x with fifos := Table.set n f x.fifos, nextFifo := n + 1 })).write4 d (w64 n)))
    | _, _ => .next s)

/-- A running segment of a launch names a FIFO of a die; one that still waits for its stripes is none (R195). -/
def fifoNamed (s : State) (l die f : Nat) : Bool :=
  s.runs.any (fun r => r.2.launch == l && r.2.die == die && r.2.status != .ended && r.2.status != .waiting && r.2.fifos.contains f)

/-- STRFREE ends: the FIFO is unbound, and the bytes appended since STRBIND are returned. -/
def strfreeDone (d : Reg) (l die f : Nat) (x : Fifo) (s : State) : State :=
  (s.mapDie l die (fun y => { y with fifos := Table.set f { x with bound := false } y.fifos })).write4 d (w64 (x.wpos - x.start))

/-- STRFREE (R162). -/
def execStrfree (d a : Reg) (s : State) : Out :=
  launchOnly s (
    match s.th.launch, s.launch? with
    | some l, some v =>
      let die := s.th.die
      let f := (s.g a).toNat
      match Table.find f (v.die die).fifos with
      | none => .next (illop s)
      | some x =>
        if !x.bound then .next (illop s)
        else if fifoNamed s l die f then .next (blockOn (.strfree d f) s)
        else .next (strfreeDone d l die f x s)
    | _, _ => .next s)

end Sys2Proof.Machine
end

