-- ==== Sys2Proof/Machine/Blocked.lean ====
section
/-!
DEFINITION. How blocked instructions end (R149), how continuations are dispatched (R219 to R221, R320), and phase boundaries (R140,
R285, R286).
-/

namespace Sys2Proof.Machine

open Sys2Proof

/-! ## When a wait can end -/

/-- The continuation's operation is parked at a home. -/
def isParked (s : State) (tid : Nat) : Bool := s.parked.any (fun p => p.issuer == .thread tid)

/-- A store at a home can end now. -/
def storeCanEnd (s : State) (part n stamp g v : Nat) : Bool :=
  match s.region? part n with
  | none => true
  | some r => r.stamp != stamp || homeLost s r || isTable s part n || decide (v ≤ (r.gran g).latest) || r.canCreate g v

/-- A load at a home can end now. -/
def loadCanEnd (s : State) (part n stamp g v : Nat) : Bool :=
  match s.region? part n with
  | none => true
  | some r => r.stamp != stamp || homeLost s r || decide (v ≤ (r.gran g).latest) || passedOver s part n r g v

/-- The home of a region has a free wait entry, or the region is gone. -/
def homeFree (s : State) (part n : Nat) : Bool := match s.region? part n with | some r => parkFree s r.home | none => true

/-- The wait of the executing continuation can end. -/
def waitOver (w : Wait) (s : State) : Bool :=
  let l := s.th.launch.getD 0
  match w with
  | .again 0 _ => !s.faults.any (fun f => f.agent == .thread s.th.id)
  | .again 1 _ => decide (eventCount s s.core < 256)
  | .again 2 a => decide (queueLength s l (a / 2) (a % 2 == 1) < 65536)
  | .again 3 0 => !underWay true true false true s
  | .again 3 1 => !releasePending 2 s
  | .again 3 2 => !underWay true true true true s
  | .again 3 _ => !(storesPending s s.th.id none || signalsPending s s.th.id)
  | .again 5 _ => !signalsPending s s.th.id
  | .again 6 _ => true
  | .again _ h => (match s.launch? with
      | some v => (match Table.find h (v.die s.th.die).handles with
        | some x => !loadsBefore s l s.th.die h x
        | none => true)
      | none => true)
  | .fence scope classes => !fencePending scope classes.toNat s
  | .phase _ _ => false
  | .bar _ pa gen => leNat (peek s (pa + 4) 4) != gen.toNat
  | .evwait _ _ _ => (oldestRecord s).isSome
  | .segrun _ id => (match Table.find id s.runs with | some r => r.ticket != 0 | none => true)
  | .segwait _ id _ => (match Table.find id s.runs with | some r => r.status == .ended | none => true)
  | .strfree _ f => !fifoNamed s l s.th.die f
  | .flsig _ job => !s.flushes.any (fun j => j.id == job && !j.done)
  | .vst n st g v _ => !isParked s s.th.id && !vstPending s && (storeCanEnd s s.partNow n st g v.toNat || homeFree s s.partNow n)
  | .vld n st g v _ => !isParked s s.th.id && (loadCanEnd s s.partNow n st g v.toNat || homeFree s s.partNow n)
  | .plsync _ part n => !actionsBefore s part n
  | .qquiesce part q => !queueBusy s part q
  | _ => true

/-! ## How it ends -/

/-- FLSIG.W returns 0, or MEMERR (R168). -/
def flsigDone (d : Reg) (job : Nat) (s : State) : State :=
  let bad := s.flushes.any (fun j => j.id == job && j.failed)
  { s with flushes := s.flushes.filter (fun j => j.id != job) }.write4 d (if bad then w64 cMEMERR else 0)

/-- SEGWAIT ends; a run that another SEGWAIT retired meanwhile traps ILLOP (R155). -/
def segwaitEnd (d : Reg) (id : Nat) (stats : Option Word) (s : State) : Out :=
  match Table.find id s.runs with
  | some r => segwaitDone d id r stats s
  | none => .next (illop s)

/-- SEGRUN ends with its ticket. -/
def segrunEnd (d : Reg) (id : Nat) (s : State) : Out :=
  match Table.find id s.runs with
  | some r => .next (s.write4 d (w64 r.ticket))
  | none => .next (illop s)

/-- STRFREE ends. -/
def strfreeEnd (d : Reg) (f : Nat) (s : State) : Out :=
  match s.th.launch, s.launch? with
  | some l, some v =>
    (match Table.find f (v.die s.th.die).fifos with
    | some x => if x.bound then .next (strfreeDone d l s.th.die f x s) else .next (illop s)
    | none => .next (illop s))
  | _, _ => .next s

/-- The end of a wait, other than that the instruction executes again. -/
def endWait (w : Wait) (s : State) : Out :=
  match w with
  | .again _ _ => .next s
  | .fence scope classes => .next (fenceDone scope classes.toNat s)
  | .phase d p => .next (s.write4 d (w64 (p + 1)))
  | .bar _ _ _ => .next (s.advance 4)
  | .evwait d a _ =>
    (match oldestRecord s with
    | some r => takeRecord d a true r s
    | none => .next (s.write4 d 0))
  | .segrun d id => segrunEnd d id s
  | .segwait d id stats => segwaitEnd d id stats s
  | .strfree d f => strfreeEnd d f s
  | .flsig d job => .next (flsigDone d job s)
  | .vst n st g v data => vstProceed n st g v data s
  | .vld n st g v dest => vldHome n st g v dest s
  | .vldDone bs rel dest => vldStore dest bs rel (fun t => t.advance 4) s
  | .vstDone => .next (s.advance 4)
  | .memerr va => .next (trap cMEMERR va s)
  | .missver v => .next (trap cMISSVER v s)
  | .vstale v => .next (trap cVSTALE v s)
  | .plsync d part _ => .next (s.write4 d (w64 (tableVersion s part)))
  | .qquiesce _ _ => .next (s.advance 4)

/-- The word that a core executes for a blocked continuation: the core keeps what else it runs. -/
def keepRunning (core : Nat) (was : Option Nat) (s : State) : State :=
  match was with
  | some t =>
    (match s.thread? t with
    | some v => if v.status = .running core then s.setRunning core (some t) else s
    | none => s)
  | none => s

/-- What follows: the continuation goes to the tail of its queue, unless it blocked, exited or stopped (R221). -/
def requeue (core : Nat) (was : Option Nat) (o : Out) : Out :=
  match o with
  | .next s =>
    let s1 := keepRunning core was (loopEnd s)
    .next (if s1.th.status = .queued then enqueue s1.th s1 else s1)
  | .fault f => .fault f
  | .refused r => .refused r

/-- Ends the wait of the executing, blocked continuation: its instruction ends as given. -/
def wakeWith (k : State → Out) (s : State) : Out :=
  requeue s.core (s.coreAt s.core).running (k { s with th := { s.th with status := .queued } })

/-- A wait ends: the instruction executes again from its beginning, checked for breakpoints only where it is a replayed fault (R145), or
completes. -/
def finishWait (w : Wait) (s : State) : Out :=
  match w with
  | .again why _ =>
    let s1 := { s with th := { s.th with status := .queued, noBreak := why != 0 } }
    .next (enqueue s1.th s1)
  | _ => wakeWith (endWait w) s

/-- A blocked continuation by number, made the executing one on its home core. -/
def focusBlocked (tid : Nat) (s : State) : Option (Wait × State) :=
  match s.thread? tid with
  | none => none
  | some t =>
    match t.status with
    | .blocked w =>
      let s1 := s.focus tid
      some (w, { s1 with core := t.home.getD s1.core })
    | _ => none

/-- BLOCKED_INSTRUCTION_COMPLETE (R149): where the wait of a continuation is over. -/
def execBlockedInstructionComplete (tid : Nat) (s : State) : Out :=
  match focusBlocked tid s with
  | none => .next s
  | some (w, s1) => if waitOver w s1 then finishWait w s1 else .next s

/-- EVWAIT_TIMEOUT (R153): the time has passed and no record has come. -/
def execEvwaitTimeout (tid : Nat) (s : State) : Out :=
  match focusBlocked tid s with
  | some (.evwait d a (some t), s1) =>
    if t ≤ s1.time ∧ oldestRecord s1 = none then finishWait (.evwait d a (some t)) s1 else .next s
  | _ => .next s

/-! ## Dispatch (R151, R219, R220, R320) -/

/-- The priority of the queue that a launch came from. -/
def launchPrio (s : State) (v : Launch) : Nat := (s.queue v.part v.queue).prio

/-- The first continuation of a list that may run on a core: one that holds records resumes on the core that holds them. -/
def firstFor (s : State) (core : Nat) (ids : List Nat) : Option Nat :=
  ids.find? (fun t => match s.thread? t with
    | some v => (match homeCore s v with | some c => c == core | none => true)
    | none => false)

/-- The continuation that an idle core takes from a launch. -/
def nextFor (s : State) (core : Nat) (v : Launch) : Option Nat :=
  let ld := v.die (coreDie core)
  match firstFor s core ld.high with
  | some t => some t
  | none => firstFor s core ld.low

/-- The launch may run on the core: placed, touching its ring, with a continuation queued for it. -/
def offers (s : State) (core : Nat) (v : Launch) : Bool :=
  v.status == .placed && launchHasRing v (coreRing core) && (nextFor s core v).isSome

/-- A root's g30 on its first dispatch (R220). -/
def rootStack (core l : Nat) (t : Thread) (s : State) : Vector Word 32 :=
  if t.root && t.fresh then
    let c := s.ctxAt (some l) core
    t.regs.set 30 (c.stkBase + c.stkSize)
  else t.regs

/-- A core takes up a continuation. -/
def dispatch (core l tid : Nat) (s : State) : State :=
  let s1 := (s.mapDie l (coreDie core) (fun d => { d with low := d.low.erase tid, high := d.high.erase tid })).focus tid
  let s2 := { s1 with cores := Table.set core { s1.coreAt core with running := some tid, body := [], stale := false, fetched := if (s1.coreAt core).stale then [] else (s1.coreAt core).fetched } s1.cores }
  { s2 with th := { s2.th with status := .running core, regs := rootStack core l s2.th s2, fresh := false } }

/-- The round-robin weight of a launch: that of its queue, 0 read as 1 (R308). -/
def launchWeight (s : State) (v : Launch) : Nat := max 1 (s.queue v.part v.queue).weight

/-- The launch after another in the round of those that wait: the next number, or the lowest (DEDUCED, log 51). -/
def nextInRound (h : Nat) (waiting : List Nat) : Option Nat :=
  let least := fun (l : List Nat) => l.foldl (fun (m : Option Nat) x => match m with | none => some x | some y => some (min x y)) none
  match least (waiting.filter (fun x => decide (h < x))) with
  | some x => some x
  | none => least waiting

/-- A launch may be served next among launches of equal PRIO that wait: the one whose turn it is for up to WEIGHT services in a row, then the
next of the round (R320). -/
def inTurn (s : State) (key : Nat) (waiting : List Nat) (l : Nat) : Bool :=
  match Table.find key s.turns with
  | none => true
  | some (h, n) =>
    let weight := match Table.find h s.launches with | some v => launchWeight s v | none => 0
    if waiting.contains h && decide (n < weight) then l == h else nextInRound h waiting == some l

/-- A launch has been served. -/
def takeTurn (key l : Nat) (s : State) : State :=
  let n := match Table.find key s.turns with
    | some (h, n) => if h = l ∧ n < (match Table.find h s.launches with | some v => launchWeight s v | none => 0) then n + 1 else 1
    | none => 1
  { s with turns := Table.set key (l, n) s.turns }

/-- CONTINUATION_DISPATCH: an idle core takes its next continuation, from a launch of the highest PRIO that offers one, by weighted round robin
among equal PRIO (R320). -/
def execContinuationDispatch (core launch : Nat) (s : State) : Out :=
  if 64 ≤ core ∨ (s.coreAt core).running.isSome then .next s else
  match Table.find launch s.launches with
  | none => .next s
  | some v =>
    let others := s.launches.filter (fun w => offers s core w.2)
    let equal := (others.filter (fun w => launchPrio s w.2 == launchPrio s v)).map (·.1)
    if !offers s core v || others.any (fun w => decide (launchPrio s v < launchPrio s w.2)) || !inTurn s core equal launch then .next s else
    match nextFor s core v with
    | none => .next s
    | some tid => .next (takeTurn core launch (dispatch core launch tid s))

/-! ## Phases (R140, R285 to R287, R357) -/

/-- A queued action cannot leave QUEUED before a publication: one of an earlier action on its expert, or those of MAXACT actions (R352). -/
def behindPublication (pl : Place) (a : Action) : Bool :=
  let held := pl.actions.filter (fun b => b.state == .publish)
  held.any (fun b => b.expert == a.expert && decide (b.issue < a.issue))
    || (match pl.policy with | some p => decide (p.maxAct ≤ held.length) | none => false)

/-- An add of the launch still has its replica to write: it belongs to the phase in which it was queued (R285).  One that waits behind a
publication that the launch's own frozen version holds back for this boundary (R357) does not hold it back (DESIGN CHOICE, log 49). -/
def addsPending (s : State) (l : Nat) : Bool :=
  match Table.find l s.launches with
  | none => false
  | some v =>
    let pl := (s.part v.part).place
    pl.actions.any (fun a => a.add && a.launch == some l
      && (a.state == .copy || (a.state == .queued && !(v.frozenT.isSome && behindPublication pl a))))

/-- Every access of the launch's current phase is complete, every live continuation has arrived, and no segment runs. -/
def phaseReached (s : State) (l : Nat) : Bool :=
  let ts := s.threadsOf l
  !ts.isEmpty && ts.all (fun t => t.arrived)
    && s.runs.all (fun r => r.2.launch != l || r.2.status == .ended)
    && s.copies.all (fun c => c.launch != l || c.placement.isSome || c.finished.isSome || decide (c.total ≤ c.done))
    && s.outbound.all (fun w => w.launch != l + 1 || w.failed)
    && s.flushes.all (fun j => j.launch != some l || j.done)
    && !addsPending s l

/-- The next phase of a continuation: what it has read is no longer fixed, and it reads nothing older than the boundary. -/
def Thread.nextPhase (t : Thread) (v : View) : Thread :=
  { t with phase := t.phase + 1, arrived := false, fixed := [], floor := t.floor.join v }

/-- A continuation passes the boundary: its PHASE completes. -/
def passBoundary (tid : Nat) (s : State) : State :=
  match focusBlocked tid s with
  | some (.phase d p, s1) =>
    (match finishWait (.phase d p) { s1 with th := s1.th.nextPhase (presentView s1 (s1.th.launch.getD 0)) } with
    | .next s2 => s2
    | _ => s)
  | _ => s

/-- PHASE_BOUNDARY of a launch. -/
def execPhaseBoundary (launch : Nat) (s : State) : Out :=
  match Table.find launch s.launches with
  | none => .next s
  | some v =>
    if v.status ≠ .placed ∨ phaseReached s launch = false then .next s else
    let s1 := s.mapLaunch launch (fun x => { x with phase := x.phase + 1, frozenT := none })
    .next ((s1.threadsOf launch).foldl (fun u t => passBoundary t.id u) s1)

end Sys2Proof.Machine
end

