-- ==== Sys2Proof/Machine/ElemInt.lean ====
section
/-!
DEFINITION. Integer arithmetic, logic, shifts, bit counts, compare and select of the elements (R45 to R54).
-/

namespace Sys2Proof.Machine

open Sys2Proof

/-! ## Shared forms -/

/-- Integer lanes of R48: lane i of the result and its flags from Val of the operands' lanes. -/
def intIssue (c : OpClass) (w : EWord) (f : Nat → Int → Int → Int → Int × Nat) (s : State) : Out :=
  let code := w.rt.toNat
  let width := laneWidth code
  valueIssue c width w (fun _ lf a b z => lanesResult width (64 / width) lf (fun l i =>
    let r := f code (laneVal code i a) (laneVal code i b) (laneVal code i z)
    ⟨wrapInt width r.1, r.2, l⟩)) s

/-- Lanes read as bits, whatever the signedness: lane i of the result from the width and the operands' lanes. -/
def bitsIssue (c : OpClass) (w : EWord) (f : Nat → Nat → Nat → Nat) (s : State) : Out :=
  laneIssue c w (fun width a b _ i => f width (laneOf width i a) (laneOf width i b)) s

/-- The 64-bit logic instructions (R50, R54). -/
def logicIssue (c : OpClass) (w : EWord) (f : Word → Word → Word → Word) (s : State) : Out :=
  valueIssue c 64 w (fun _ lf a b z => ⟨(f a b z).toNat, 0, lf⟩) s

/-- A lane mask of a truth value (R53, R67). -/
def maskLane (width : Nat) (t : Bool) : Nat := if t then 2 ^ width - 1 else 0

/-- The compares of R53. -/
def cmpIssue (w : EWord) (f : Int → Int → Bool) (s : State) : Out :=
  intIssue .ab w (fun code a b _ => ((maskLane (laneWidth code) (f a b) : Nat), 0)) s

/-! ## Integer arithmetic (R48, R49) -/

def execElemAdd (w : EWord) (s : State) : Out := intIssue .ab w (fun _ a b _ => (a + b, 0)) s
def execElemSub (w : EWord) (s : State) : Out := intIssue .ab w (fun _ a b _ => (a - b, 0)) s
def execElemMul (w : EWord) (s : State) : Out := intIssue .ab w (fun _ a b _ => (a * b, 0)) s

/-- The upper half of the exact product. -/
def execElemMulh (w : EWord) (s : State) : Out :=
  intIssue .ab w (fun code a b _ => (a * b / (2 ^ laneWidth code : Nat), 0)) s

def execNeg (w : EWord) (s : State) : Out := intIssue .a w (fun _ a _ _ => (-a, 0)) s
def execAbs (w : EWord) (s : State) : Out := intIssue .a w (fun _ a _ _ => ((a.natAbs : Int), 0)) s
def execElemMin (w : EWord) (s : State) : Out := intIssue .ab w (fun _ a b _ => (if b < a then b else a, 0)) s
def execElemMax (w : EWord) (s : State) : Out := intIssue .ab w (fun _ a b _ => (if a < b then b else a, 0)) s
def execAdds (w : EWord) (s : State) : Out := intIssue .ab w (fun code a b _ => satInt code (a + b)) s
def execSubs (w : EWord) (s : State) : Out := intIssue .ab w (fun code a b _ => satInt code (a - b)) s

/-- floor((a + b + 1) / 2), exactly. -/
def execAvg (w : EWord) (s : State) : Out := intIssue .ab w (fun _ a b _ => ((a + b + 1) / 2, 0)) s

/-- The lower bound first, the upper bound second (R49). -/
def execClamp (w : EWord) (s : State) : Out :=
  intIssue .abc w (fun _ a b c =>
    let v := if a < b then b else a
    (if c < v then c else v, 0)) s

/-! ## Logic (R50, R54) -/

def execElemAnd (w : EWord) (s : State) : Out := logicIssue .ab w (fun a b _ => a &&& b) s
def execElemOr (w : EWord) (s : State) : Out := logicIssue .ab w (fun a b _ => a ||| b) s
def execElemXor (w : EWord) (s : State) : Out := logicIssue .ab w (fun a b _ => a ^^^ b) s

/-- (A AND B) OR (NOT A AND C). -/
def execSel (w : EWord) (s : State) : Out := logicIssue .abc w (fun a b c => (a &&& b) ||| (~~~a &&& c)) s

/-! ## Shifts (R51) -/

/-- The shift count of a lane: its low log2 w bits. -/
def shiftCount (width b : Nat) : Nat := b % width

def execShl (w : EWord) (s : State) : Out := bitsIssue .ab w (fun width a b => a * 2 ^ (shiftCount width b)) s
def execShr (w : EWord) (s : State) : Out := bitsIssue .ab w (fun width a b => a / 2 ^ (shiftCount width b)) s

def execSar (w : EWord) (s : State) : Out :=
  bitsIssue .ab w (fun width a b => wrapInt width (signed width a / (2 ^ (shiftCount width b) : Nat))) s

def execRot (w : EWord) (s : State) : Out :=
  bitsIssue .ab w (fun width a b =>
    let n := shiftCount width b
    Nat.lor (a * 2 ^ n % 2 ^ width) (a / 2 ^ (width - n))) s

/-! ## Bit counts (R52) -/

/-- One bits of the low n bits of a value. -/
def onesIn : Nat → Nat → Nat
  | 0, _ => 0
  | n + 1, v => v % 2 + onesIn n (v / 2)

def execElemClz (w : EWord) (s : State) : Out := bitsIssue .a w (fun width a _ => width - bitLen a) s
def execElemPopc (w : EWord) (s : State) : Out := bitsIssue .a w (fun width a _ => onesIn width a) s

/-! ## Compare (R53) -/

def execCmpEq (w : EWord) (s : State) : Out := cmpIssue w (fun a b => decide (a = b)) s
def execCmpNe (w : EWord) (s : State) : Out := cmpIssue w (fun a b => decide (a ≠ b)) s
def execCmpLt (w : EWord) (s : State) : Out := cmpIssue w (fun a b => decide (a < b)) s
def execCmpLe (w : EWord) (s : State) : Out := cmpIssue w (fun a b => decide (a ≤ b)) s
def execCmpGt (w : EWord) (s : State) : Out := cmpIssue w (fun a b => decide (b < a)) s
def execCmpGe (w : EWord) (s : State) : Out := cmpIssue w (fun a b => decide (b ≤ a)) s

end Sys2Proof.Machine
end

