-- ==== Sys2Proof/Machine/ElemFloat.lean ====
section
/-!
DEFINITION. Floating arithmetic, compare, conversion and lane reductions of the elements (R60 to R69, R72).
-/

namespace Sys2Proof.Machine

open Sys2Proof

/-! ## Arithmetic (R60 to R66) -/

/-- Lanes of FADD, FSUB, FMUL and FFMA: the format of the opcode's f field, the rounding mode in RT. -/
def floatIssue (c : OpClass) (op : FOp) (f : Fmt) (w : EWord) (s : State) : Out :=
  let ff := ffFmt f
  valueIssue c ff.w w (fun k lf a b z => lanesResult ff.w (64 / ff.w) lf (fun l i =>
    fArith ff op w.rt.toNat k (laneOf ff.w i a) (laneOf ff.w i b) (laneOf ff.w i z) l)) s

def execFadd (f : Fmt) (w : EWord) (s : State) : Out := floatIssue .ab .add f w s
def execFsub (f : Fmt) (w : EWord) (s : State) : Out := floatIssue .ab .sub f w s
def execFmul (f : Fmt) (w : EWord) (s : State) : Out := floatIssue .ab .mul f w s
def execFfma (f : Fmt) (w : EWord) (s : State) : Out := floatIssue .abc .fma f w s

/-- Lanes of FMIN and FMAX. -/
def minMaxIssue (max : Bool) (w : EWord) (s : State) : Out :=
  let ff := ffOf w.rt.toNat
  valueIssue .ab ff.w w (fun k lf a b _ => lanesResult ff.w (64 / ff.w) lf (fun l i =>
    { fMinMax ff max k (laneOf ff.w i a) (laneOf ff.w i b) with lf := l })) s

def execFmin (w : EWord) (s : State) : Out := minMaxIssue false w s
def execFmax (w : EWord) (s : State) : Out := minMaxIssue true w s

/-- Bit w − 1 of each lane cleared, or inverted (R66). -/
def execFabs (w : EWord) (s : State) : Out := bitsIssue .a w (fun width a _ => a % 2 ^ (width - 1)) s
def execFneg (w : EWord) (s : State) : Out := bitsIssue .a w (fun width a _ => Nat.xor a (2 ^ (width - 1))) s

/-! ## Compare (R67) -/

/-- Lanes of FCMP by condition number. -/
def fcmpIssue (cc : Nat) (w : EWord) (s : State) : Out :=
  let ff := ffOf w.rt.toNat
  valueIssue .ab ff.w w (fun k lf a b _ => lanesResult ff.w (64 / ff.w) lf (fun l i =>
    let r := fCompare ff cc k (laneOf ff.w i a) (laneOf ff.w i b)
    ⟨maskLane ff.w r.1, r.2, l⟩)) s

def execFcmpEq (w : EWord) (s : State) : Out := fcmpIssue 0 w s
def execFcmpNe (w : EWord) (s : State) : Out := fcmpIssue 1 w s
def execFcmpLt (w : EWord) (s : State) : Out := fcmpIssue 2 w s
def execFcmpLe (w : EWord) (s : State) : Out := fcmpIssue 3 w s
def execFcmpGt (w : EWord) (s : State) : Out := fcmpIssue 4 w s
def execFcmpGe (w : EWord) (s : State) : Out := fcmpIssue 5 w s

/-! ## Conversion (R68, R69) -/

/-- The value of a ternary code: 0, +1 or −1, and TERNBAD for 0b10 (R234). -/
def ternaryVal (v : Nat) : Int × Nat :=
  match v with
  | 1 => (1, 0)
  | 3 => (-1, 0)
  | 2 => (0, fTERNBAD)
  | _ => (0, 0)

/-- The value of a CVT source lane and the flags of reading it. -/
def cvtSource (k : Keys) (src v : Nat) : FVal × Nat :=
  if src = 14 then
    let r := ternaryVal v
    (.fin (decide (r.1 < 0)) r.1.natAbs 0, r.2)
  else if src < 8 then
    let i : Int := if signedCode src then signed (laneWidth src) v else (v : Int)
    (.fin (decide (i < 0)) i.natAbs 0, 0)
  else
    let f := ffOf src
    (f.val (f.flushIn k.fsi v), 0)

/-- A value rounded to an integer by a mode: the integer, whether inexact, the LFSR. -/
def roundInt (rm : Nat) (neg : Bool) (m : Nat) (e : Int) (lf : Nat) : Int × Bool × Nat :=
  let q : Quant := if 0 ≤ e then ⟨m * 2 ^ e.toNat, false, false, lf⟩ else quant rm neg m (-e).toNat lf
  (if neg then -(q.z : Int) else (q.z : Int), q.ine, q.lf)

/-- A conversion to an integer type. -/
def cvtInt (rm : Nat) (k : Keys) (src dst : Nat) (v : FVal) (lf : Nat) : FRes :=
  let w := laneWidth dst
  match v with
  | .nan _ => ⟨0, fNV, lf⟩
  | .inf n => ⟨wrapInt w (if n then intMin dst else intMax dst), fNV, lf⟩
  | .fin n m e =>
    let (i, ine, lf') := roundInt rm n m e lf
    if intMin dst ≤ i ∧ i ≤ intMax dst then ⟨wrapInt w i, if ine then fNX else 0, lf'⟩
    else if src = 14 then ⟨Config.ternaryNegative dst % 2 ^ w, 0, lf'⟩
    else if src < 8 then (if k.nsat then ⟨wrapInt w (satInt dst i).1, fSAT, lf'⟩ else ⟨wrapInt w i, 0, lf'⟩)
    else ⟨wrapInt w (satInt dst i).1, fNV, lf'⟩

/-- A conversion to ternary. -/
def cvtTernary (rm : Nat) (v : FVal) (lf : Nat) : FRes :=
  match v with
  | .nan _ => ⟨0, fNV, lf⟩
  | .inf n => ⟨if n then 3 else 1, fSAT, lf⟩
  | .fin n m e =>
    let (i, _, lf') := roundInt rm n m e lf
    if i < -1 then ⟨3, fSAT, lf'⟩ else if 1 < i then ⟨1, fSAT, lf'⟩
    else ⟨if i = 1 then 1 else if i = -1 then 3 else 0, 0, lf'⟩

/-- The magnitude of an overflow in CVT. -/
def cvtOverflow (f : FFmt) (nsat : Bool) : Nat := if nsat then f.max else f.inf.getD (f.nan.getD f.max)

/-- A NaN pattern loses its sign: every NaN result is canonical (R63). -/
def FFmt.canon (f : FFmt) (v : Nat) : Nat := if (f.val v).isNan then f.nan.getD 0 else v

/-- A conversion to a floating format.  E2M1 is not flushed and has no negative zero. -/
def cvtFloat (rm : Nat) (k : Keys) (dst : Nat) (v : FVal) (lf : Nat) : FRes :=
  let f := ffOf dst
  match v with
  | .nan sig => if dst = 13 then ⟨0, fNV, lf⟩ else ⟨f.nan.getD 0, if sig then fNV else 0, lf⟩
  | .inf n => ⟨f.canon (f.sign n (f.inf.getD (cvtOverflow f (k.nsat || dst == 13)))), 0, lf⟩
  | .fin _ _ _ =>
    let r := roundTo f rm (k.fso && dst != 13) (fun _ => cvtOverflow f (k.nsat || dst == 13)) v lf
    let p := f.canon r.v
    { r with v := if dst = 13 ∧ p = 8 then 0 else p }

/-- One lane of CVT. -/
def cvtLane (rm : Nat) (k : Keys) (dst src v lf : Nat) : FRes :=
  let (x, fl) := cvtSource k src v
  let r := if dst < 8 then cvtInt rm k src dst x lf else if dst = 14 then cvtTernary rm x lf else cvtFloat rm k dst x lf
  { r with fl := orf fl r.fl }

/-- Lanes 0 to m − 1 converted, the others zero. -/
def execCvt (w : EWord) (s : State) : Out :=
  let dst := bits w.imm.toNat 7 4
  let src := bits w.imm.toNat 3 0
  let m := min (64 / laneWidth src) (64 / laneWidth dst)
  valueIssue .ap 64 w (fun k lf a _ _ => lanesResult (laneWidth dst) m lf (fun l i =>
    cvtLane w.rt.toNat k dst src (laneOf (laneWidth src) i a) l)) s

/-! ## Lane reductions (R72) -/

/-- The results of adjacent pairs, in order, with their flags. -/
def pairUp (f : Nat → Nat → Nat × Nat) : List Nat → List Nat × Nat
  | a :: b :: t =>
    let r := f a b
    let rest := pairUp f t
    (r.1 :: rest.1, orf r.2 rest.2)
  | l => (l, 0)

/-- The pairwise tree, over at most n levels. -/
def reduceTree (f : Nat → Nat → Nat × Nat) : Nat → List Nat → Nat × Nat
  | 0, l => (l.headD 0, 0)
  | n + 1, l =>
    let p := pairUp f l
    let r := reduceTree f n p.1
    (r.1, orf p.2 r.2)

/-- The combining operation of a reduction: 0 sum, 1 maximum, 2 minimum. -/
def combineLane (op code : Nat) (k : Keys) (a b : Nat) : Nat × Nat :=
  let width := laneWidth code
  if code < 8 then
    let va : Int := if signedCode code then signed width a else (a : Int)
    let vb : Int := if signedCode code then signed width b else (b : Int)
    match op with
    | 0 => ((a + b) % 2 ^ width, 0)
    | 1 => (if va < vb then b else a, 0)
    | _ => (if vb < va then b else a, 0)
  else
    let f := ffOf code
    let r := if op = 0 then fArith f .add 0 k a b 0 0 else fMinMax f (op == 1) k a b
    (r.v, r.fl)

/-- A reduction to result lane 0. -/
def reduceIssue (op : Nat) (w : EWord) (s : State) : Out :=
  let code := w.rt.toNat
  let width := laneWidth code
  valueIssue .a width w (fun k lf a _ _ =>
    let r := reduceTree (combineLane op code k) 3 ((List.range (64 / width)).map (fun i => laneOf width i a))
    ⟨r.1, r.2, lf⟩) s

def execRsum (w : EWord) (s : State) : Out := reduceIssue 0 w s
def execRmax (w : EWord) (s : State) : Out := reduceIssue 1 w s
def execRmin (w : EWord) (s : State) : Out := reduceIssue 2 w s

end Sys2Proof.Machine
end

