-- ==== Sys2Proof/Machine/CoreAtomic.lean ====
section
/-!
DEFINITION. Atomics and posted reductions of the control cores (R135 to R138).
-/

namespace Sys2Proof.Machine

open Sys2Proof

/-- Scopes accepted by AMO and RED: DIE, DEV and SYS (R135, R138). -/
def atomicScope (scope : BitVec 3) : Bool := decide (3 ≤ scope.toNat) && decide (scope.toNat ≤ 5)

/-- The sizes of the integer forms (R34). -/
def atomicSize (size : BitVec 2) : Bool := decide (2 ≤ size.toNat)

/-- The AtomicOps that the host port offers (R368). -/
def hostAtomic (aop scope : Nat) : Bool := scope == 5 && (aop == 1 || aop == 9 || aop == 10)

/-- The read-modify-write at a translated address: the old value (R135, R136, R368, R376). -/
def amoAt (aop n pa : Nat) (b cmp : Nat) (scope : Nat) (va : Word) (s : State) : Got Nat :=
  match locOf pa with
  | .host a =>
    if !hostAtomic aop scope then .stop (trap cPROT va s) else
    let (k, s1) := draw (sendTlp (.atomic s.partNow a aop n b cmp) (settleStores s.th.id pa n s))
    if Config.hostError k then .stop (trap cMEMERR va s1) else
    .ok (leNat (hostBytes k a n)) (unfix pa n (noteWrite s1.launchMark (s1.th.id + 1) View.zero pa n s1))
  | .umeno _ _ => .stop (trap cPROT va s)
  | .reserved => .stop (trap cPROT va s)
  | _ =>
    let s1 := settleOwn s.th.id pa n s
    if readFails s1 pa n then .stop (trap cMEMERR va s1) else
    let old := leNat (peek s1 pa n)
    .ok old (unfix pa n (poke s1.launchMark (s1.th.id + 1) pa (leBytes n (aopApply aop n old b cmp)) (observe pa n s1)))

/-- An AMO of n bytes: g[GD] ← the old value, sign-extended for the integer forms (R135). -/
def amo (aop n : Nat) (d a b : Reg) (scope : BitVec 3) (s : State) : Out :=
  let va := s.g a
  ((access va n .rw s).bind (fun pa s1 =>
    amoAt aop n pa (lowBytes n (s1.g b)) (lowBytes n (s1.g d)) scope.toNat va s1)).andThen
    (fun old s1 => .next (s1.write4 d (if aop < 11 then sext (8 * n) old else w64 old)))

/-- An integer AMO with its size and scope checks. -/
def amoInt (aop : Nat) (d a b : Reg) (size : BitVec 2) (scope : BitVec 3) (s : State) : Out :=
  if !(atomicSize size && atomicScope scope) then .next (illop s) else amo aop (sizeOf2 size) d a b scope s

/-- A floating AMO with its scope check. -/
def amoFloat (aop n : Nat) (d a b : Reg) (scope : BitVec 3) (s : State) : Out :=
  if !atomicScope scope then .next (illop s) else amo aop n d a b scope s

def execAmoadd (d a b : Reg) (size : BitVec 2) (scope : BitVec 3) (s : State) : Out := amoInt 1 d a b size scope s
def execAmomin (d a b : Reg) (size : BitVec 2) (scope : BitVec 3) (s : State) : Out := amoInt 2 d a b size scope s
def execAmominn (d a b : Reg) (size : BitVec 2) (scope : BitVec 3) (s : State) : Out := amoInt 3 d a b size scope s
def execAmomax (d a b : Reg) (size : BitVec 2) (scope : BitVec 3) (s : State) : Out := amoInt 4 d a b size scope s
def execAmomaxn (d a b : Reg) (size : BitVec 2) (scope : BitVec 3) (s : State) : Out := amoInt 5 d a b size scope s
def execAmoand (d a b : Reg) (size : BitVec 2) (scope : BitVec 3) (s : State) : Out := amoInt 6 d a b size scope s
def execAmoor (d a b : Reg) (size : BitVec 2) (scope : BitVec 3) (s : State) : Out := amoInt 7 d a b size scope s
def execAmoxor (d a b : Reg) (size : BitVec 2) (scope : BitVec 3) (s : State) : Out := amoInt 8 d a b size scope s
def execAmoswp (d a b : Reg) (size : BitVec 2) (scope : BitVec 3) (s : State) : Out := amoInt 9 d a b size scope s
def execAmocas (d a b : Reg) (size : BitVec 2) (scope : BitVec 3) (s : State) : Out := amoInt 10 d a b size scope s
def execAmofaddF32 (d a b : Reg) (scope : BitVec 3) (s : State) : Out := amoFloat 11 4 d a b scope s
def execAmofaddBf16 (d a b : Reg) (scope : BitVec 3) (s : State) : Out := amoFloat 12 2 d a b scope s

/-- A posted reduction leaves the core at a translated address (R138, R368, R376). -/
def redAt (aop n pa : Nat) (b va : Word) (s : State) : Got Unit :=
  match locOf pa with
  | .host _ => .stop (trap cPROT va s)
  | .reserved => .stop (trap cPROT va s)
  | .umeno e off =>
    match windowTarget s s.partNow e off with
    | some (st, remote) => .ok () (windowSend s.th.id s.launchMark s.partNow st remote va (leBytes n b.toNat) (some aop) false s)
    | none => .stop (trap cPROT va s)
  | _ =>
    let s1 := settleStores s.th.id pa n s
    .ok () { (unfix pa n s1) with reds := s1.reds ++ [⟨s.th.id, s.launchMark, aop, n, pa, va, b, s.nextJob⟩] }

/-- A RED of n bytes (R138). -/
def red (aop n : Nat) (a b : Reg) (s : State) : Out :=
  let va := s.g a
  ((access va n .rw s).bind (fun pa s1 => redAt aop n pa (s1.g b) va s1)).andThen (fun _ s1 => .next (s1.advance 4))

/-- An integer RED with its size and scope checks. -/
def redInt (aop : Nat) (a b : Reg) (size : BitVec 2) (scope : BitVec 3) (s : State) : Out :=
  if !(atomicSize size && atomicScope scope) then .next (illop s) else red aop (sizeOf2 size) a b s

/-- A floating RED with its scope check. -/
def redFloat (aop n : Nat) (a b : Reg) (scope : BitVec 3) (s : State) : Out :=
  if !atomicScope scope then .next (illop s) else red aop n a b s

def execRedadd (a b : Reg) (size : BitVec 2) (scope : BitVec 3) (s : State) : Out := redInt 1 a b size scope s
def execRedmin (a b : Reg) (size : BitVec 2) (scope : BitVec 3) (s : State) : Out := redInt 2 a b size scope s
def execRedminn (a b : Reg) (size : BitVec 2) (scope : BitVec 3) (s : State) : Out := redInt 3 a b size scope s
def execRedmax (a b : Reg) (size : BitVec 2) (scope : BitVec 3) (s : State) : Out := redInt 4 a b size scope s
def execRedmaxn (a b : Reg) (size : BitVec 2) (scope : BitVec 3) (s : State) : Out := redInt 5 a b size scope s
def execRedand (a b : Reg) (size : BitVec 2) (scope : BitVec 3) (s : State) : Out := redInt 6 a b size scope s
def execRedor (a b : Reg) (size : BitVec 2) (scope : BitVec 3) (s : State) : Out := redInt 7 a b size scope s
def execRedxor (a b : Reg) (size : BitVec 2) (scope : BitVec 3) (s : State) : Out := redInt 8 a b size scope s
def execRedfaddF32 (a b : Reg) (scope : BitVec 3) (s : State) : Out := redFloat 11 4 a b scope s
def execRedfaddBf16 (a b : Reg) (scope : BitVec 3) (s : State) : Out := redFloat 12 2 a b scope s

/-- A posted RED reaches its home: a bank ALU performs it, or it enters the write queue of its stack; REDs of one
continuation to the same bytes keep program order, and one that would open an entry in a full queue stalls (R136, R138, R257, R258). -/
def execPostedReductionPerform (k : Nat) (s : State) : Out :=
  match s.reds[k]? with
  | none => .next s
  | some r =>
    if (s.reds.take k).any (fun x => x.owner == r.owner && overlap x.pa x.bytes r.pa r.bytes)
        || (decide (stackOf r.pa < 16) && queueStalls r s) then .next s
    else .next (performRed r { s with reds := dropAt s.reds k })

/-- A posted store reaches its home and is performed, after the continuation's earlier stores to the same bytes (R293). -/
def execPostedStorePerform (k : Nat) (s : State) : Out :=
  match s.posted[k]? with
  | none => .next s
  | some p =>
    if (s.posted.take k).any (fun x => x.owner == p.owner && overlap x.pa x.data.length p.pa p.data.length) then .next s
    else .next (performStore p { s with posted := dropAt s.posted k })

/-- A write-queue entry of a stack is applied to its line, after every earlier entry of the line (R258). -/
def execWriteQueueApply (stack : Nat) (s : State) : Out :=
  let q := Table.getD s.wqueue stack []
  let (i, s1) := choose q.length s
  match q[i]? with
  | none => .next s
  | some e =>
    if (q.take i).any (fun x => x.line == e.line) then .next s1
    else .next (applyEntry e { s1 with wqueue := Table.set stack (dropAt q i) s1.wqueue })

end Sys2Proof.Machine
end

