-- ==== Sys2Proof/Machine/Eos.lean ====
section
/-!
DEFINITION. Which burst a stripe executes (R197, R198) and the end-of-stream of elements (R208, R217, R305).
-/

namespace Sys2Proof.Machine

open Sys2Proof

/-! ## Bursts (R197) -/

/-- The burst that a stripe executes at the run's current step; none where it executes nothing. -/
def burstAt (r : Run) (st : Stripe) : Option Nat :=
  match st.vs with
  | none => none
  | some k =>
    let t := st.loadedAt
    if r.step ≤ t then none else
    let b := if r.resident then some (r.step - k - 1)
      else if r.step - t ≤ r.width - 1 then some ((t - k) / r.vcount * (r.width - 1) + (r.step - t - 1)) else none
    match b, r.lastBurst with
    | some n, some m => if m < n then none else some n
    | o, _ => o

/-- The copy of a virtual stripe on a stripe counts as ended where it has no inputs: from its load in resident mode and in a pinned
segment, else only while it executes the burst that carries the run's end-of-stream (R217). -/
def startsEnded (r : Run) (st : Stripe) : Bool :=
  r.image.pinned || r.resident || (r.lastBurst.isSome && burstAt r st == r.lastBurst)

/-! ## Elements (R217) -/

/-- An end-of-stream token. -/
def eosToken : Token := { Token.blank with kind := kEos }

/-- What a destination field names: SOFF, TARGET, SLOT and PORT. -/
def destKey (d : BitVec 16) : Nat := bits d.toNat 14 3

/-- Destination fields for both ports of the participants of an origin's slot (R225). -/
def memberDests (im : ElemImage) (e slot : Nat) : List (BitVec 16) :=
  match (slotInstr im slot).bind mmgParams with
  | some p =>
    if p.member then [] else
    (mmgOthers e p).flatMap (fun m => [0, 8].map (fun port =>
      BitVec.ofNat 16 (2 ^ 15 + m.1 * 2 ^ 13 + m.2 * 2 ^ 8 + slot * 16 + port)))
  | none => []

/-- What the slots of an element send to, each input once: the ports of its participants first, then the valid destinations in slot order,
DST1 before DST2. -/
def elemDests (im : ElemImage) (e : Nat) : List (BitVec 16) :=
  (im.slots.flatMap (fun sl => memberDests im e sl.1) ++ im.slots.flatMap (fun sl => (slotDests im sl.1).filter dstValid)).foldl
    (fun l d => if l.any (fun x => destKey x == destKey d) then l else l ++ [d]) []

/-- The node that a slot uses: that of its ACFG, MMA or MMG, with whether it is an ACFG. -/
def slotNode (im : ElemImage) (slot : Nat) : Option (Nat × Bool) :=
  match slotInstr im slot with
  | some (.acfg w) => some (bits w.imm.toNat 1 0, true)
  | some (.mmaT2 w) | some (.mmaF4 w) | some (.mmaF8 w) | some (.mmaBf16 w) | some (.mmg w) => some (bits w.imm.toNat 1 0, false)
  | _ => none

/-- The slots whose tokens a destination of an element receives: those that name it, and for the destinations that an ACFG stores the
slots that contribute to its node (R91, R93). -/
def slotsToward (im : ElemImage) (e : Nat) (d : BitVec 16) : List Nat :=
  let direct := (im.slots.filter (fun sl => (memberDests im e sl.1 ++ slotDests im sl.1).any (fun x => dstValid x && destKey x == destKey d))).map (·.1)
  let nodes := direct.filterMap (fun sl => match slotNode im sl with | some (j, true) => some j | _ => none)
  let adding := (im.slots.filter (fun sl => match slotNode im sl.1 with | some (j, false) => nodes.contains j | _ => false)).map (·.1)
  addNew (direct ++ adding) []

/-- The participants that a sender is the MMG origin of (R225). -/
def memberUnits (img : SegImage) (s : Sender) : List (Nat × Nat) :=
  match (img.slotAt s.vs s.unit s.slot).bind mmgParams with
  | some p => if p.member then [] else (mmgOthers s.unit p).map (fun m => (s.vs + m.1, m.2))
  | none => []

/-- The units that a unit hands end-of-stream to outside LOOP bodies, the participants of its MMGs among them. -/
def eosNext (img : SegImage) (u : Nat × Nat) : List (Nat × Nat) :=
  (senders img).flatMap (fun s =>
    if s.1.vs = u.1 ∧ s.1.unit = u.2 then
      memberUnits img s.1
        ++ ((targets img s).filter (fun p => !returnPort img p && !loopExitPort img p && !inBody img p)).map (fun p => (p.vs, p.tgt))
    else [])

/-- An element that can reach itself outside LOOP bodies hands on end-of-stream destination by destination (DEDUCED, log 34). -/
def eosBySlot (img : SegImage) (k e : Nat) : Bool :=
  (closure (eosNext img) (29 * img.stripes.length) (eosNext img (k, e))).contains (k, e)

/-- Nothing of some slots of an element is left to issue or to leave. -/
def slotsIdle (el : Elem) (slots : List Nat) : Bool :=
  el.out.isEmpty && el.mmgOwed.isEmpty && el.ready.all (fun i => !slots.contains i.slot)

/-- The named inputs of some slots have all recorded end-of-stream; a unit without any has ended as `started` says. -/
def portsEnded (img : SegImage) (ps : List Port) (ended : List Nat) (started : Bool) : Bool :=
  if ps.isEmpty then started else ps.all (fun p => inputEnded img p ended)

/-- The end of some slots: their waiting operands can meet no partner and trap ILLOP (R208), or end-of-stream is sent to what has not had
it. -/
def endSlots (x e : Nat) (el : Elem) (slots : List Nat) (dests : List (BitVec 16)) (done : Bool) (s : State) : State :=
  match el.frame.find? (fun f => slots.contains f.slot) with
  | some f => fabricTrap x e f.slot f.tok.tag cILLOP 0 [f.tok] s
  | none =>
    let ds := dests.filter (fun d => !el.eosTo.contains (destKey d))
    elemSend x e (ds.map (fun d => eosToken.toward d))
      (s.mapElem x e (fun v => { v with eosSent := done, eosTo := v.eosTo ++ ds.map destKey }))

/-- The next destination that an element that hands on by destination can end; none left ends the element. -/
def endNext (x e k : Nat) (r : Run) (im : ElemImage) (el : Elem) (started : Bool) (s : State) : State :=
  let ports := elemInputs r.image k e
  let ready := fun (slots : List Nat) => slots.all (fun sl =>
    portsEnded r.image (ports.filter (fun p => p.slot == sl)) el.ended started) && slotsIdle el slots
  let left := (elemDests im e).filter (fun d => !el.eosTo.contains (destKey d))
  match left.find? (fun d => ready (slotsToward im e d)) with
  | some d => endSlots x e el (slotsToward im e d) [d] false s
  | none => if left.isEmpty && ready (im.slots.map (·.1)) then endSlots x e el (im.slots.map (·.1)) [] true s else s

/-- An MMG origin's slot both of whose ports have ended, whose last copy is made and whose participants have had no end-of-stream (R225). -/
def endingOrigin (r : Run) (im : ElemImage) (el : Elem) (e k : Nat) (started : Bool) : Option (Nat × List (BitVec 16)) :=
  ((im.slots.map (fun sl => (sl.1, (memberDests im e sl.1).filter (fun d => !el.eosTo.contains (destKey d))))).filter
    (fun m => !m.2.isEmpty)).find? (fun m =>
      portsEnded r.image ((elemInputs r.image k e).filter (fun p => p.slot == m.1)) el.ended started && slotsIdle el [m.1])

/-- The origin delivers end-of-stream to both ports of a slot of its participants, behind its copies (R225). -/
def endMembers (x e : Nat) (ds : List (BitVec 16)) (s : State) : State :=
  let s1 := s.mapElem x e (fun v => { v with eosTo := v.eosTo ++ ds.map destKey })
  ds.foldl (fun u d =>
    match memberStripe u x (dstSoff d) with
    | some y => deliverMember x e y (eosToken.toward d) u
    | none => u) s1

/-- ELEMENT_EOS (R217): an element whose inputs have all ended, and whose instances have all issued and left, sends end-of-stream; an MMG
origin ends its participants first (R225). -/
def execElementEos (x e : Nat) (s : State) : Out :=
  match s.runOf x, s.elem? x e, s.elemImage x e, (s.stripe x).vs with
  | some (_, r), some el, some im, some k =>
    if el.eosSent || el.faulted.isSome || !stripeLive s x || fabricStalled s (.elem x e) then .next s else
    let started := startsEnded r (s.stripe x)
    match endingOrigin r im el e k started with
    | some m => .next (endMembers x e m.2 s)
    | none =>
    if eosBySlot r.image k e then .next (endNext x e k r im el started s) else
    let slots := im.slots.map (·.1)
    if portsEnded r.image (elemInputs r.image k e) el.ended started && slotsIdle el slots then
      .next (endSlots x e el slots (elemDests im e) true s)
    else .next s
  | _, _, _, _ => .next s

end Sys2Proof.Machine
end

