-- ==== Sys2Proof/Machine/Operators.lean ====
section
/-!
DEFINITION. The operators that address memory: AGEN, LOAD, STORE, ATOMIC, SEND, VLOAD and VSTORE, with their accesses in every space and
their completions (R101 to R108, R187, R201, R254 to R256, R278, R295).
-/

namespace Sys2Proof.Machine

open Sys2Proof

/-! ## Shared -/

/-- An operator of a kind that may act: its configuration was loaded at an earlier step, and it is neither faulted nor stalled. -/
def operOn (x o kind : Nat) (s : State) : Option (OpImage × Oper) :=
  match s.opImage x o, s.oper? x o with
  | some im, some v =>
    if im.kind == kind && v.faulted.isNone && stripeLive s x && !fabricStalled s (.oper x o) then some (im, v) else none
  | _, _ => none

/-- A data token of an operator with the tag of another. -/
def Token.result (t : Token) (v : Word) : Token := { t with kind := kData, value := v, eod := 0 }

/-- The writes that a party has made from one state to another. -/
def ownMarks (party : Nat) (s s1 : State) : List Nat :=
  ((s1.writes.filter (fun w => decide (s.writeSeq < w.seq) && w.party == party)).map (·.seq)).eraseDups

/-- A token is ordered after the writes that its operator has made for it, from one state to another (R291). -/
def afterOwn (x o : Nat) (t : Token) (s s1 : State) : Token := { t with after := t.after.mark (ownMarks (s.ownerOf x o + 1) s s1) }

/-- Records an access for the completion tokens of OUT1; a posted one under the number of its operation. -/
def Oper.record (v : Oper) (im : OpImage) (t : Token) (job : Option Nat) : Oper :=
  if dstValid im.out1 then { v with accesses := v.accesses ++ [(t, job.isNone)], jobs := v.jobs ++ job.toList } else v

/-- A STORE or ATOMIC has made the access of a pair of tokens, from one state to another: it takes them and records it. -/
def accessMade (x o : Nat) (im : OpImage) (t : Token) (posted : Bool) (s s1 : State) : State :=
  let s2 := s1.mapOper x o (fun u => ((u.take 0).take 1).record im (afterOwn x o t s s1) (if posted then some s.nextJob else none))
  if posted then { s2 with nextJob := s2.nextJob + 1 } else s2

/-- The run, launch number and launch of a stripe. -/
def stripeLaunch (s : State) (x : Nat) : Option (Run × Nat × Launch) :=
  match s.runOf x with
  | some (_, r) => (Table.find r.launch s.launches).map (fun v => (r, r.launch, v))
  | none => none

/-! ## AGEN (R103) -/

/-- AGEN_EMIT: the next address of the base in hand, or of the next base token. -/
def execAgenEmit (x o : Nat) (s : State) : Out :=
  match operOn x o 0 s with
  | none => .next s
  | some (im, v) =>
    let (base, v1) := match v.base with
      | some b => (some b, v)
      | none => (v.head 0, v.take 0)
    match base with
    | none => .next s
    | some b =>
      let count := im.field 2 31 0
      let last := v.pos + 1 == count
      let t := { b with
        kind := kData
        value := b.value + im.p0 + w64 v.pos * im.p1
        iter := if im.field 2 32 32 = 1 then BitVec.ofNat 10 v.pos else b.iter
        eod := if last then b.eod + 1 else 0 }
      let ts := operOut im.out0 t
      if !roomForAll x ts s then .next s else
      .next (operSend x o ts (s.setOper x o (if last then { v1 with base := none, pos := 0 } else { v1 with base := some b, pos := v.pos + 1 })))

/-! ## Virtual accesses of any length -/

/-- The pieces of n bytes from an address, none crossing a 4 KiB page. -/
def pagePieces : Nat → Word → Nat → List (Word × Nat)
  | 0, _, _ => []
  | k + 1, va, n =>
    if n = 0 then [] else
    let m := min n (4096 - va.toNat % 4096)
    (va, m) :: pagePieces k (va + w64 m) (n - m)

/-- The pieces of n bytes at a position of a FIFO with a virtual backing (R256). -/
def fifoPieces (f : Fifo) : Nat → Nat → Nat → List (Nat × Nat)
  | 0, _, _ => []
  | k + 1, p, n =>
    if n = 0 then [] else
    let at_ := p % f.size
    let m := min n (min (f.size - at_) (4096 - (f.base + at_) % 4096))
    (f.base + at_, m) :: fifoPieces f k (p + m) (n - m)

/-- Translates pieces for an operator: physical address, length, virtual address. -/
def translatePieces (x o slot : Nat) (t : Token) (c : Cls) : List (Word × Nat) → State → Got (List (Nat × Nat × Word))
  | [], s => .ok [] s
  | (va, n) :: rest, s =>
    (fabricTranslate x (16 + o) slot t va n c s).bind (fun pa s1 =>
      (translatePieces x o slot t c rest s1).bind (fun ps s2 => .ok ((pa, n, va) :: ps) s2))

/-- Reads translated pieces. -/
def readPieces (x o slot : Nat) (t : Token) : List (Nat × Nat × Word) → State → Got (List Byte)
  | [], s => .ok [] s
  | (pa, n, va) :: rest, s =>
    (operRead x o slot t pa n va s).bind (fun bs s1 =>
      (readPieces x o slot t rest s1).bind (fun more s2 => .ok (bs ++ more) s2))

/-- Writes translated pieces. -/
def writePieces (x o slot : Nat) (t : Token) : List (Nat × Nat × Word) → List Byte → State → Got Unit
  | [], _, s => .ok () s
  | (pa, n, va) :: rest, data, s =>
    (operWrite x o slot t pa (data.take n) va s).bind (fun _ s1 => writePieces x o slot t rest (data.drop n) s1)

/-- The first piece that a write cannot perform because of a unit in error. -/
def pieceError (s : State) (ps : List (Nat × Nat × Word)) : Option Word :=
  (ps.find? (fun p => onDevice p.1 && writeFails s p.1 p.2.1)).map (fun p => p.2.2)

/-- Reads n bytes at virtual pieces. -/
def virtRead (x o slot : Nat) (t : Token) (ps : List (Word × Nat)) (s : State) : Got (List Byte) :=
  (translatePieces x o slot t .read ps s).bind (fun qs s1 => readPieces x o slot t qs s1)

/-- Writes bytes at virtual pieces, or nothing where one of them cannot be written. -/
def virtWrite (x o slot : Nat) (t : Token) (ps : List (Word × Nat)) (data : List Byte) (s : State) : Got Unit :=
  (translatePieces x o slot t .write ps s).bind (fun qs s1 =>
    match pieceError s1 qs with
    | some va => .stop (memTrap x (16 + o) slot t cMEMERR va s1)
    | none => writePieces x o slot t qs data s1)

/-! ## Buffers (R254) -/

/-- Where an offset of SPACE 0 or 1 stands: the buffer's space number and address; none where the access is refused. -/
def bufferAt (s : State) (x space off n : Nat) : Option (Nat × Nat) :=
  match stripeLaunch s x with
  | none => none
  | some (r, _, v) =>
    if space = 0 then (if off + n ≤ 262144 - 4096 * r.spill then some (1, x * 262144 + off) else none)
    else
      let w := ringWindow v (stripeRing x)
      if off + n ≤ w.2 then some (2, stripeRing x * 4194304 + w.1 + off) else none

/-- Reads n bytes of a buffer at an offset. -/
def bufferLoad (x o slot : Nat) (t : Token) (space off n align : Nat) (s : State) : Got (List Byte) :=
  if off % align ≠ 0 then .stop (bufferTrap x (16 + o) slot t cALIGN off s) else
  match bufferAt s x space off n with
  | none => .stop (bufferTrap x (16 + o) slot t cPROT off s)
  | some (b, a) =>
    if bufferFails s b a n false then .stop (bufferTrap x (16 + o) slot t cMEMERR off s) else .ok (bufferRead s b a n) s

/-- Writes bytes of a buffer at an offset. -/
def bufferStore (x o slot : Nat) (t : Token) (space off : Nat) (data : List Byte) (align : Nat) (s : State) : Got Unit :=
  if off % align ≠ 0 then .stop (bufferTrap x (16 + o) slot t cALIGN off s) else
  match bufferAt s x space off data.length with
  | none => .stop (bufferTrap x (16 + o) slot t cPROT off s)
  | some (b, a) =>
    if bufferFails s b a data.length true then .stop (bufferTrap x (16 + o) slot t cMEMERR off s)
    else .ok () (bufferWrite b a data s)

/-! ## FIFOs (R187, R255, R256) -/

/-- The operator is the burst source, or the burst sink, of its run (R187). -/
def isBurstSource (s : State) (x : Nat) (im : OpImage) : Bool := burstEnd 1 im && (s.stripe x).vs == some 0

def isBurstSink (s : State) (x : Nat) (r : Run) (im : OpImage) : Bool := burstEnd 2 im && (s.stripe x).vs == some (r.vcount - 1)

/-- The FIFO number that a SPACE 3 operator uses. -/
def fifoNumber (s : State) (x : Nat) (r : Run) (im : OpImage) : Nat :=
  if isBurstSource s x im then r.inFifo else if isBurstSink s x r im then r.outFifo else im.field 0 23 16

/-- A bound FIFO of a run. -/
def fifoOfRun (s : State) (r : Run) (n : Nat) : Option Fifo :=
  (Table.find r.launch s.launches).bind (fun v => Table.find n (v.die r.die).fifos)

/-- Changes a FIFO of a run. -/
def setFifo (r : Run) (n : Nat) (f : Fifo) (s : State) : State :=
  s.mapDie r.launch r.die (fun d => { d with fifos := Table.set n f d.fifos })

/-- The pieces of a FIFO's ring backing as ring-buffer addresses. -/
def ringPieces (v : Launch) (f : Fifo) (p n : Nat) : List (Nat × Nat) :=
  (fifoPieces f (n / 256 + 2) p n).map (fun q => (f.ring * 4194304 + (ringWindow v f.ring).1 + q.1, q.2))

/-- Reads the n bytes at a position of a FIFO: a reader receives what was appended (R256). -/
def fifoBytes (x o slot : Nat) (t : Token) (v : Launch) (f : Fifo) (p n : Nat) (s : State) : Got (List Byte) :=
  if f.virt then virtRead x o slot { t with after := t.after.join f.appended } ((fifoPieces f (n / 256 + 2) p n).map (fun q => (w64 q.1, q.2))) s
  else
    let ps := ringPieces v f p n
    match ps.find? (fun q => bufferFails s 2 q.1 q.2 false) with
    | some _ => .stop (bufferTrap x (16 + o) slot t cMEMERR (f.base + p % f.size) s)
    | none => .ok (ps.flatMap (fun q => bufferRead s 2 q.1 q.2)) s

/-- Writes bytes to pieces of the ring buffers. -/
def writeRing : List (Nat × Nat) → List Byte → State → State
  | [], _, s => s
  | (a, n) :: rest, data, s => writeRing rest (data.drop n) (bufferWrite 2 a (data.take n) s)

/-- Writes bytes at a position of a FIFO. -/
def fifoPut (x o slot : Nat) (t : Token) (v : Launch) (f : Fifo) (p : Nat) (data : List Byte) (s : State) : Got Unit :=
  let n := data.length
  if f.virt then virtWrite x o slot t ((fifoPieces f (n / 256 + 2) p n).map (fun q => (w64 q.1, q.2))) data s
  else
    let ps := ringPieces v f p n
    match ps.find? (fun q => bufferFails s 2 q.1 q.2 true) with
    | some _ => .stop (bufferTrap x (16 + o) slot t cMEMERR (f.base + p % f.size) s)
    | none => .ok () (writeRing ps data s)

/-! ## LOAD (R104) -/

/-- Bytes of one access. -/
def OpImage.accessBytes (im : OpImage) : Nat :=
  if im.kind = 1 ∧ im.field 0 6 6 = 1 then im.field 1 12 0 else 2 ^ im.field 0 5 4

/-- The alignment of an access: its size, or for a tile row the power of two that divides ROWB, at most 8 (R102). -/
def OpImage.alignment (im : OpImage) : Nat :=
  if im.kind = 1 ∧ im.field 0 6 6 = 1 then
    let n := im.field 1 12 0
    if n % 8 = 0 then 8 else if n % 4 = 0 then 4 else if n % 2 = 0 then 2 else 1
  else 2 ^ im.field 0 5 4

/-- What a LOAD finds for an address token: it waits, the stream has ended, or the access. -/
inductive Fetched where
  | wait
  | ended
  | got (g : Got (List Byte))

/-- The access of a LOAD for an address token. -/
def loadFetch (x o : Nat) (im : OpImage) (t : Token) (s : State) : Fetched :=
  let n := im.accessBytes
  let addr := im.p2 + t.value
  match im.field 0 2 0 with
  | 3 =>
    match stripeLaunch s x with
    | none => .wait
    | some (r, _, v) =>
      let k := fifoNumber s x r im
      match fifoOfRun s r k with
      | none => .wait
      | some f =>
        if n ≤ f.wpos - f.rpos then
          .got ((fifoBytes x o 0 t v f f.rpos n s).bind (fun bs s1 => .ok bs (setFifo r k { f with rpos := f.rpos + n } s1)))
        else if f.eos && !isBurstSource s x im then .ended else .wait
  | 2 =>
    .got (if addr.toNat % im.alignment ≠ 0 then .stop (memTrap x (16 + o) 0 t cALIGN addr s)
      else virtRead x o 0 t (pagePieces 3 addr n) s)
  | sp => .got (bufferLoad x o 0 t sp addr.toNat n im.alignment s)

/-- The stream of a LOAD has ended: the token is consumed and produces nothing, and input 0 counts as ended (R104). -/
def streamEnded (x o : Nat) (v : Oper) (s : State) : State :=
  s.setOper x o { v.take 0 with ended := v.ended ++ [bodyMark + inputCode 0 0] }

/-- A token that has a LOAD read from a FIFO carries on what the appended tokens carried (R291, R295, R350). -/
def fedBy (s : State) (x : Nat) (im : OpImage) (t : Token) : Token :=
  if im.field 0 2 0 ≠ 3 then t else
  match (stripeLaunch s x).bind (fun q => fifoOfRun s q.1 (fifoNumber s x q.1 im)) with
  | some f => { t with after := t.after.join f.appended }
  | none => t

/-- LOAD_ACCESS (MODE 0). -/
def execLoadAccess (x o : Nat) (s : State) : Out :=
  match operOn x o 1 s with
  | none => .next s
  | some (im, v) =>
    match (v.head 0).map (fedBy s x im) with
    | none => .next s
    | some t =>
      if im.field 0 6 6 = 1 ∨ !roomForAll x (operOut im.out0 t) s then .next s else
      match loadFetch x o im t s with
      | .wait => .next s
      | .ended => .next (streamEnded x o v s)
      | .got g => g.andThen (fun bs s1 =>
          let raw := leNat bs
          let val := if im.field 0 7 7 = 1 then sext (8 * im.accessBytes) raw else w64 raw
          .next (operSend x o (operOut im.out0 { t with kind := kData, value := val })
            (s1.mapOper x o (fun u => (u.take 0).record im t none))))

/-- The tile register of a credit, in the element that OUT0 names, where the handle is valid and its rows have ROWB bytes (R84, R104).
The element that uses a credit is that of OUT0's TARGET in the LOAD's own stripe, whatever its SOFF (DESIGN CHOICE, log 28). -/
def creditTile (s : State) (x : Nat) (im : OpImage) (c : Token) : Option (Nat × Nat × Tile) :=
  let e := dstTarget im.out0
  match s.elem? x e with
  | none => none
  | some el =>
    match validHandle e el c with
    | none => none
    | some k =>
      let tile := el.tile k
      if tile.cols * laneWidth tile.type = 8 * im.field 1 12 0 then some (e, k, tile) else none

/-- The bytes that the rows of a tile fill have brought reach the tile in whole 8-byte words, the rest with its last row (R86): the tile and
what is left. -/
def fillTile (v : Oper) (row : Nat) (bs : List Byte) (last : Bool) (t : Tile) : Tile × List Byte :=
  let data := v.fillTail ++ bs
  let n := if last then data.length else data.length / 8 * 8
  (t.put (v.fillRow * row - v.fillTail.length) (data.take n), data.drop n)

/-- LOAD_TILE_FILL (MODE 1): the next row of the tile of the credit at the head of input 1.  An address token waits for a credit, also in
SPACE 3 when the stream has ended (DESIGN CHOICE, log 46). -/
def execLoadTileFill (x o : Nat) (s : State) : Out :=
  match operOn x o 1 s with
  | none => .next s
  | some (im, v) =>
    match (v.head 0).map (fedBy s x im), v.head 1 with
    | some t, some c =>
      if im.field 0 6 6 = 0 then .next s else
      match creditTile s x im c with
      | none => .next (tokenTrap x (16 + o) 1 cILLTILE c s)
      | some (e, k, tile) =>
        let last := v.fillRow + 1 == tile.rows
        let view := (v.fillView.join t.after).join c.after
        let out := { t with kind := kTile, value := c.value, eod := 0, after := view }
        if last && !roomForAll x (operOut im.out0 out) s then .next s else
        match loadFetch x o im t s with
        | .wait => .next s
        | .ended => .next (streamEnded x o v s)
        | .got g => g.andThen (fun bs s1 =>
            let r := fillTile v (im.field 1 12 0) bs last tile
            let s2 := s1.mapElem x e (fun el => el.setTile k r.1)
            let s3 := s2.mapOper x o (fun u =>
              if last then { ((u.take 0).take 1).record im t none with fillRow := 0, fillTail := [], fillView := View.zero }
              else { (u.take 0).record im t none with fillRow := v.fillRow + 1, fillTail := r.2, fillView := view })
            .next (if last then operSend x o (operOut im.out0 out) s3 else s3))
    | _, _ => .next s

/-! ## STORE (R105, R201) -/

/-- The append of a SPACE 3 STORE; none while the FIFO is full. -/
def appendFifo (x o : Nat) (im : OpImage) (t d : Token) (data : List Byte) (s : State) : Option (Got Unit) :=
  match stripeLaunch s x with
  | none => none
  | some (r, _, v) =>
    let k := fifoNumber s x r im
    match fifoOfRun s r k with
    | none => none
    | some f =>
      if f.eos then some (.stop (tokenTrap x (16 + o) 1 cILLOP d s))
      else if f.size < f.wpos - f.rpos + data.length then none
      else some ((fifoPut x o 0 t v f f.wpos data s).bind (fun _ s1 => .ok () (setFifo r k { f with
          wpos := f.wpos + data.length
          appended := f.appended.join (afterOwn x o t s s1).after } s1)))

/-- STORE_ACCESS. -/
def execStoreAccess (x o : Nat) (s : State) : Out :=
  match operOn x o 2 s with
  | none => .next s
  | some (im, v) =>
    match v.head 0, v.head 1 with
    | some t, some d =>
      let n := im.accessBytes
      let data := leBytes n d.value.toNat
      let addr := im.p2 + t.value
      let tok := { t with after := t.after.join d.after }
      let done := fun (posted : Bool) (s1 : State) => Host.Outcome.next (accessMade x o im tok posted s s1)
      match im.field 0 2 0 with
      | 3 =>
        match appendFifo x o im tok d data s with
        | none => .next s
        | some g => g.andThen (fun _ s1 => done false s1)
      | 2 =>
        (if addr.toNat % n ≠ 0 then Got.stop (memTrap x (16 + o) 0 tok cALIGN addr s)
          else virtWrite x o 0 tok [(addr, n)] data s).andThen (fun _ s1 => done (s1.outbound.length != s.outbound.length) s1)
      | sp => (bufferStore x o 0 tok sp addr.toNat data n s).andThen (fun _ s1 => done false s1)
    | _, _ => .next s

/-- No further append of a STORE can come: input 1 has ended and nothing of it can be paired. -/
def appendsDone (img : SegImage) (k o : Nat) (v : Oper) : Bool :=
  inputEnded img ⟨k, 16 + o, 1, 0⟩ v.ended &&
    ((v.head 1).isNone || ((v.head 0).isNone && inputEnded img ⟨k, 16 + o, 0, 0⟩ v.ended))

/-- STORE_EOS: a SPACE 3 STORE marks end-of-stream in its FIFO at the write position. -/
def execStoreEos (x o : Nat) (s : State) : Out :=
  match operOn x o 2 s, stripeLaunch s x with
  | some (im, v), some (r, _, _) =>
    let n := fifoNumber s x r im
    if im.field 0 2 0 = 3 ∧ appendsDone r.image ((s.stripe x).vs.getD 0) o v = true then
      (match fifoOfRun s r n with
      | some f => .next (setFifo r n { f with eos := true } s)
      | none => .next s)
    else .next s
  | _, _ => .next s

/-! ## ATOMIC (R106) -/

/-- What an operator's read of the current contents observes comes with it (R166). -/
def operObserve (x o pa n : Nat) (s : State) : State :=
  let brought := (words8 pa n).foldl (fun v u => v.join (lastBrings s u)) View.zero
  s.mapOper x o (fun v => { v with view := v.view.join brought })

/-- The operation at a translated address: the old value, and whether its effect is still to come (R257, R258, R368, R376).  One that would
open an entry in a full write queue waits (R258). -/
def atomicAt (x o : Nat) (im : OpImage) (t : Token) (b : Word) (n pa : Nat) (va : Word) (s : State) : Got (Nat × Bool) :=
  let aop := im.field 0 8 5
  let ret := im.field 0 14 14 == 1
  let low := lowBytes n b
  let owner := s.ownerOf x o
  match stripePart s x, locOf pa with
  | some (part, l), .umeno e off =>
    (match (if ret then none else windowTarget s part e off) with
    | some (st, remote) => .ok (0, true) (windowSend owner (l + 1) part st remote va (leBytes n low) (some aop) false s)
    | none => .stop (memTrap x (16 + o) 0 t cPROT va s))
  | some (_, l), .hbm _ _ | some (_, l), .dsm _ _ =>
    if readFails s pa n then .stop (memTrap x (16 + o) 0 t cMEMERR va s) else
    let r : PostedRed := ⟨owner, l + 1, aop, n, pa, va, b, s.nextJob⟩
    if !ret && decide (stackOf pa < 16) then (if queueStalls r s then .stop s else .ok (0, true) (enterQueue r s)) else
    let s1 := settleLines pa n s
    if readFails s1 pa n then .stop (memTrap x (16 + o) 0 t cMEMERR va s1) else
    let old := leNat (peek s1 pa n)
    .ok (old, false) (poke (l + 1) (owner + 1) pa (leBytes n (aopApply aop n old low 0)) (if ret then operObserve x o pa n s1 else s1))
  | _, _ => .stop (memTrap x (16 + o) 0 t cPROT va s)

/-- ATOMIC_ACCESS. -/
def execAtomicAccess (x o : Nat) (s : State) : Out :=
  match operOn x o 3 s with
  | none => .next s
  | some (im, v) =>
    match v.head 0, v.head 1 with
    | some t, some b =>
      let n := 2 ^ im.field 0 10 9
      let va := im.p1 + t.value
      let ret := im.field 0 14 14 == 1
      let tok := { t with after := t.after.join b.after }
      let out := fun (old : Word) => if ret then operOut im.out0 { b.result old with after := tok.after } else []
      if !roomForAll x (out 0) s then .next s else
      ((operTranslate x o 0 tok va n .rw s).bind (fun pa s1 => atomicAt x o im tok b.value n pa va s1)).andThen (fun r s1 =>
        let old := if im.field 0 8 5 < 11 then sext (8 * n) r.1 else w64 r.1
        .next (operSend x o (out old) (accessMade x o im tok r.2 s s1)))
    | _, _ => .next s

/-! ## SEND (R107) -/

/-- The destination of a bulk transfer. -/
def sendDest (im : OpImage) (t : Token) : Word := im.p1 + w64 t.frame.toNat * im.p3 + w64 t.iter.toNat * im.p2

/-- The stripe DX positions away; none outside the launch's rectangle. -/
def sendStripe (im : OpImage) (v : Launch) (x : Nat) : Option Nat :=
  let y := (x : Int) + signed 8 (im.field 0 27 20)
  if (v.xbase : Int) ≤ y ∧ y < (v.xbase + v.xext : Nat) then some y.toNat else none

/-- The part of a stripe buffer that a SEND may write: the carve-out of the run that holds the stripe is left out. -/
def sendLimit (s : State) (y : Nat) : Nat := 262144 - 4096 * (match s.runOf y with | some (_, r) => r.spill | none => 0)

/-- A new transfer: the checks of R107, the source bytes, the token of OUT0. -/
def sendStart (x o : Nat) (im : OpImage) (v : Oper) (t : Token) (s : State) : Out :=
  let n := im.field 0 15 0 + 1
  let off := t.value
  let dest := sendDest im t
  let refuse := fun (cause : Nat) (va : Word) => Host.Outcome.next (memTrap x (16 + o) 0 t cause va s)
  match stripeLaunch s x with
  | none => .next s
  | some (_, _, l) =>
    if off.toNat % 8 ≠ 0 then refuse cALIGN off
    else if dest.toNat % 8 ≠ 0 then refuse cALIGN dest
    else
      let target := if im.field 0 16 16 = 1 then some x else sendStripe im l x
      let badDest := im.field 0 16 16 = 0 && (match target with
        | some y => decide (sendLimit s y < dest.toNat + n)
        | none => true)
      match bufferAt s x 0 off.toNat n with
      | none => refuse cPROT off
      | some (b, a) =>
        if badDest then refuse cPROT dest
        else if bufferFails s b a n false then .next (bufferTrap x (16 + o) 0 t cMEMERR off.toNat s)
        else if !roomForAll x (operOut im.out0 t) s then .next s
        else
          let job : SendJob := ⟨t, dest.toNat, bufferRead s b a n⟩
          .next (operSend x o (operOut im.out0 (t.result off))
            (s.setOper x o { v.take 0 with sends := v.sends ++ [job] }))

/-- The next bytes of a transfer reach their destination. -/
def sendMove (x o : Nat) (im : OpImage) (j : SendJob) (s : State) : Out :=
  let n := im.field 0 15 0 + 1
  let at_ := j.dest + (n - j.data.length)
  let moved := fun (k : Nat) (s1 : State) =>
    Host.Outcome.next (s1.mapOper x o (fun u => { u with sends := u.sends.map (fun q =>
      if q = j then { j with tok := afterOwn x o j.tok s s1, data := j.data.drop k } else q) }))
  if im.field 0 16 16 = 0 then
    match stripeLaunch s x with
    | none => .next s
    | some (_, _, l) =>
      match sendStripe im l x with
      | none => .next s
      | some y =>
        let a := y * 262144 + at_
        if bufferFails s 1 a j.data.length true then .next (bufferTrap x (16 + o) 0 j.tok cMEMERR at_ s)
        else moved j.data.length (bufferWrite 1 a j.data s)
  else
    let va := w64 at_
    let k := min j.data.length (4096 - va.toNat % 4096)
    (fabricTranslate x (16 + o) 0 j.tok va k .write s).andThen (fun pa s1 =>
      match locOf pa with
      | .host _ => .next (memTrap x (16 + o) 0 j.tok cPROT va s1)
      | _ => (operWrite x o 0 j.tok pa (j.data.take k) va s1).andThen (fun _ s2 => moved k s2))

/-- SEND_TRANSFER: the oldest transfer with bytes left moves on, or the next token starts one. -/
def execSendTransfer (x o : Nat) (s : State) : Out :=
  match operOn x o 4 s with
  | none => .next s
  | some (im, v) =>
    match v.sends.find? (fun j => !j.data.isEmpty) with
    | some j => sendMove x o im j s
    | none =>
      match v.head 0 with
      | some t => sendStart x o im v t s
      | none => .next s

/-- The operator has posted work of its own under way: reductions in a write queue, window writes. -/
def operPosted (s : State) (x o : Nat) : Bool :=
  s.wqueue.any (fun q => q.2.any (fun e => e.ops.any (fun r => r.owner == s.ownerOf x o)))
    || s.outbound.any (fun w => w.owner == s.ownerOf x o && !w.failed)

/-- A posted access of the operator that failed: its address (R138, R379). -/
def operError (s : State) (x o : Nat) (v : Oper) : Option Word :=
  match v.redErr with
  | some va => some (w64 va)
  | none => windowFailed s (s.ownerOf x o)

/-- The failure of a posted access is reported as a fabric trap. -/
def reportError (x o : Nat) (v : Oper) (va : Word) (s : State) : State :=
  let t := match v.accesses.head? with | some a => a.1 | none => Token.blank
  let s1 := s.setOper x o { v with redErr := none }
  memTrap x (16 + o) 0 t cMEMERR va { s1 with outbound := s1.outbound.filter (fun w => !(w.owner == s.ownerOf x o && w.failed)) }

/-- The stripe relative to which a SEND's OUT1 is interpreted: the destination's, or with DKIND 1 its own (R106). -/
def sendEnd (s : State) (im : OpImage) (x : Nat) : Nat :=
  if im.field 0 16 16 = 1 then x else
  match stripeLaunch s x with
  | some (_, _, l) => (sendStripe im l x).getD x
  | none => x

/-- A token comes to a stripe that no run holds, so that nothing was loaded there: ILLOP in the run of the stripe that sent it, whose record names the
stripe that it came to (R204; DESIGN CHOICE for the run, log 55). -/
def strayToken (x y : Nat) (s : State) (t : Token) : State :=
  match s.runOf x with
  | some (rid, r) => runTrap rid r y t.target.toNat t.slot.toNat t.tag cILLOP 0 [t] s
  | none => s

/-- SEND_COMPLETION: the oldest transfer that is written whole sends its completion token, toward OUT1 as the destination stripe sees it. -/
def execSendCompletion (x o : Nat) (s : State) : Out :=
  match operOn x o 4 s with
  | none => .next s
  | some (im, v) =>
    match operError s x o v with
    | some va => .next (reportError x o v va s)
    | none =>
      match v.sends with
      | [] => .next s
      | j :: rest =>
        if !j.data.isEmpty || operPosted s x o then .next s else
        let y := sendEnd s im x
        let ts := operOut im.out1 (j.tok.result (w64 j.dest))
        let s1 := s.setOper x o { v with sends := rest }
        match s.runOf y with
        | none => .next (ts.foldl (strayToken x y) s1)
        | some _ => if !roomForAll y ts s then .next s else .next (ts.foldl (fun u t => emit y (fabricUnit x (16 + o)) t u) s1)

/-! ## Completion tokens (R102) -/

/-- The first counted group: its accesses and the token that closes it. -/
def closedGroup (cdim : Nat) (acc : List (Token × Bool)) : Option (List (Token × Bool) × Token) :=
  match acc.findIdx? (fun a => decide (cdim ≤ a.1.eod.toNat)) with
  | some i => (acc[i]?).map (fun a => (acc.take (i + 1), a.1))
  | none => none

/-- CDIM of a memory operator. -/
def OpImage.cdim (im : OpImage) : Nat := if im.kind = 3 then im.field 0 23 20 else im.field 0 11 8

/-- A group that is complete. -/
def completeGroup (im : OpImage) (v : Oper) : Option (List (Token × Bool) × Token) :=
  match closedGroup im.cdim v.accesses with
  | some g => if g.1.all (·.2) then some g else none
  | none => none

/-- What the accesses of a group are ordered after, and their writes (R291). -/
def groupView (g : List (Token × Bool)) : View := g.foldl (fun w a => w.join a.1.after) View.zero

/-- OPERATOR_COMPLETION of a LOAD, STORE or ATOMIC. -/
def execOperatorCompletion (x o : Nat) (s : State) : Out :=
  match s.opImage x o with
  | none => .next s
  | some im0 =>
    if im0.kind = 0 ∨ 3 < im0.kind then .next s else
    match operOn x o im0.kind s with
    | none => .next s
    | some (im, v) =>
      match operError s x o v with
      | some va => .next (reportError x o v va s)
      | none =>
        match completeGroup im v with
        | none => .next s
        | some (g, t) =>
          let ts := operOut im.out1 { t.result (w64 g.length) with after := groupView g }
          if !roomForAll x ts s then .next s else
          .next (operSend x o ts (s.setOper x o { v with accesses := v.accesses.drop g.length }))

/-! ## VLOAD and VSTORE (R108, R278, R295) -/

/-- The granule of an operator's address, or the trap of R174.  An operation keeps to the region that it was issued to: once that is dropped it
ends with MISSVER (R296). -/
def operGranule (x o : Nat) (t : Token) (va : Word) (part : Nat) (s : State) : Got (Nat × Region × Nat) :=
  if va.toNat % 64 ≠ 0 then .stop (memTrap x (16 + o) 0 t cALIGN va s) else
  let issued := (s.oper? x o).bind (·.vstamp)
  match regionAt (s.regionsOf part) va.toNat with
  | none => .stop (if issued.isSome then versionFault x o t cMISSVER va s else memTrap x (16 + o) 0 t cPROT va s)
  | some (n, r) =>
    if issued.any (· != r.stamp) then .stop (versionFault x o t cMISSVER va s)
    else if homeLost s r then .stop (memTrap x (16 + o) 0 t cMEMERR va s)
    else .ok (n, r, (va.toNat - r.base) / 64) (s.mapOper x o (fun v => { v with vstamp := some r.stamp }))

/-- Parks an operator's operation where its home has a free wait entry (R278). -/
def parkOper (x o part n g v : Nat) (home : Nat) (store : Bool) (data : List Byte) (s : State) : State :=
  if parkFree s home then
    (s.mapOper x o (fun u => { u with parked := true })) |> fun s1 =>
      { s1 with parked := s1.parked ++ [⟨part, n, g, v, store, data, .oper x o⟩] }
  else s

/-- VLOAD sends the words of its version: in latest mode the number first (R108). -/
def vloadSend (x o : Nat) (im : OpImage) (t : Token) (latest : Option Nat) (words : List Word) (rel : View) (two : Bool) (s : State) : Out :=
  let tok := { t with after := t.after.join rel }
  let ts := (match latest with | some u => operOut im.out1 (tok.result (w64 u)) | none => [])
    ++ words.flatMap (fun w => operOut im.out0 (tok.result w))
  if !roomForAll x ts s then .next s else
  .next (operSend x o ts (s.mapOper x o (fun u =>
    let v1 := { u.take 0 with vdata := [], vview := View.zero, version := none, vstamp := none }
    if two then v1.take 1 else v1)))

/-- The version operation of a VLOAD at the home. -/
def vloadHome (x o : Nat) (im : OpImage) (t : Token) (want : Option Nat) (va : Word) (part : Nat) (s : State) : Out :=
  (operGranule x o t va part s).andThen (fun q s1 =>
    let u := want.getD (q.2.1.gran q.2.2).latest
    match homeLoad part q.1 q.2.2 u s1 with
    | some (.ok (bs, rel), s2) => vloadSend x o im t (if want.isNone then some u else none) (bytesWords 8 bs) rel want.isSome s2
    | some (.error c, s2) => .next (versionFault x o t c va s2)
    | none => .next (parkOper x o part q.1 q.2.2 u q.2.1.home false [] s1))

/-- VLOAD_ACCESS. -/
def execVloadAccess (x o : Nat) (s : State) : Out :=
  match operOn x o 5 s, stripePart s x with
  | some (im, v), some (part, _) =>
    if v.parked then .next s else
    let latest := im.field 0 0 0 == 1
    (match v.head 0, (if latest then some Token.blank else v.head 1) with
    | some t, some w =>
      let tok := { t with after := t.after.join w.after }
      if !v.vdata.isEmpty then vloadSend x o im tok none v.vdata v.vview (!latest) s
      else vloadHome x o im tok (if latest then none else some w.value.toNat) (im.p1 + t.value) part s
    | _, _ => .next s)
  | _, _ => .next s

/-- A VSTORE ends: its inputs are consumed and its completion sent. -/
def vstoreDone (x o : Nat) (im : OpImage) (t : Token) (s : State) : Out :=
  let ts := operOut im.out1 (t.result 1)
  if !roomForAll x ts s then .next s else
  .next (operSend x o ts (s.mapOper x o (fun u =>
    { (u.take 0).take 1 with version := none, vstamp := none, vview := View.zero, inputs := Table.set 2 ((Table.getD u.inputs 2 []).drop 8) ((u.take 0).take 1).inputs })))

/-- The version operation of a VSTORE at the home.  It releases what its tokens are ordered after, and the configurations drained before its
own (R295). -/
def vstoreHome (x o : Nat) (t : Token) (v : Nat) (data : List Byte) (va : Word) (part : Nat) (s : State) : Out :=
  (operGranule x o t va part s).andThen (fun q s1 =>
    let view := (s1.stripe x).drained.join t.after
    let s2 := s1.mapOper x o (fun u => { u with vview := view })
    match homeStore part q.1 q.2.2 v (s2.ownerOf x o) view data s2 with
    | some (.ok s3) => .next (s3.mapOper x o (fun u => { u with version := some v }))
    | some (.error c) => .next (versionFault x o t c va s2)
    | none => .next (parkOper x o part q.1 q.2.2 v q.2.1.home true data s2))

/-- VSTORE_ACCESS: creates the version of its next address, version and eight data tokens, and then completes. -/
def execVstoreAccess (x o : Nat) (s : State) : Out :=
  match operOn x o 6 s, stripePart s x with
  | some (im, v), some (part, _) =>
    if v.parked then .next s else
    let data := (Table.getD v.inputs 2 []).take 8
    (match v.head 0, v.head 1 with
    | some t, some w =>
      let tok := { t with after := data.foldl (fun m d => m.join d.after) (t.after.join w.after) }
      if data.length < 8 then .next s
      else if v.version.isSome then vstoreDone x o im tok s
      else vstoreHome x o tok w.value.toNat (wordBytes (data.map (·.value))) (im.p1 + t.value) part s
    | _, _ => .next s)
  | _, _ => .next s

end Sys2Proof.Machine
end

