-- ==== Sys2Proof/Machine/Streams.lean ====
section
/-!
DEFINITION. The operators that join, accumulate, loop, merge and route tokens (R109 to R113, R305, R336, R337, R349, R350, R357), and the
end-of-stream of operators (R101, R337).
-/

namespace Sys2Proof.Machine

open Sys2Proof

/-! ## JOIN (R109) -/

/-- The inputs that a JOIN's MASK selects. -/
def joinInputs (im : OpImage) : List Nat := (List.range 8).filter (fun i => bit (im.field 0 7 0) i)

/-- JOIN_FIRE. -/
def execJoinFire (x o : Nat) (s : State) : Out :=
  match operOn x o 7 s with
  | none => .next s
  | some (im, v) =>
    let ins := joinInputs im
    let heads := ins.filterMap v.head
    match heads with
    | [] => .next s
    | t :: _ =>
      let ts := operOut im.out0 { t with after := heads.foldl (fun m h => m.join h.after) View.zero }
      if heads.length ≠ ins.length ∨ !roomForAll x ts s then .next s else
      .next (operSend x o ts (s.setOper x o (ins.foldl (fun u i => u.take i) v)))

/-! ## ACCUM (R110) -/

/-- The identity of an ACCUM's operation, lane by lane. -/
def accumIdentity (op code : Nat) : Word :=
  let w := laneWidth code
  let lane :=
    if code < 8 then (match op with | 0 => 0 | 1 => wrapInt w (intMin code) | _ => wrapInt w (intMax code))
    else
      let f := ffOf code
      match op with
      | 0 => f.sign true 0
      | 1 => f.sign true (f.inf.getD f.max)
      | _ => f.sign false (f.inf.getD f.max)
  splat w lane

/-- One lane of a combination, with its flags. -/
def accumLane (op code : Nat) (sat : Bool) (a b : Nat) : Nat × Nat :=
  if op = 0 ∧ code < 8 ∧ sat = true then
    let w := laneWidth code
    let value := fun (v : Nat) => if signedCode code then signed w v else (v : Int)
    let r := satInt code (value a + value b)
    (wrapInt w r.1, r.2)
  else combineLane op code noKeys a b

/-- The combination of a partial with a value, with its flags. -/
def accumWord (op code : Nat) (sat : Bool) (a b : Word) : Word × Nat :=
  let w := laneWidth code
  let rs := (List.range (64 / w)).map (fun i => accumLane op code sat (laneOf w i a) (laneOf w i b))
  (w64 (joinLanes w (rs.map (·.1))), rs.foldl (fun m r => orf m r.2) 0)

/-- The partial and count of a route, and what its contributions are ordered after. -/
def accumPartial (im : OpImage) (v : Oper) (route : Nat) : Word × Nat × View :=
  Table.getD v.partials route (accumIdentity (im.field 0 5 4) (im.field 0 3 0), 0, View.zero)

/-- Token k of an input, where it is the first of its route there. -/
def firstOfRoute (v : Oper) (i k : Nat) : Option Token :=
  let q := Table.getD v.inputs i []
  match q[k]? with
  | some t => if (q.take k).any (fun u => u.route == t.route) then none else some t
  | none => none

/-- Removes token k of an input. -/
def Oper.takeAt (v : Oper) (i k : Nat) : Oper := { v with inputs := Table.set i (dropAt (Table.getD v.inputs i []) k) v.inputs }

/-- The oldest release count of a route, with its place in input 1. -/
def releaseCount (v : Oper) (route : BitVec 3) : Option (Nat × Token) :=
  ((Table.getD v.inputs 1 []).zipIdx.find? (fun p => p.1.route == route)).map (fun p => (p.2, p.1))

/-- A partial is released with the tag of a token and starts again from the identity. -/
def accumRelease (x o : Nat) (im : OpImage) (v : Oper) (t : Token) (value : Word) (s : State) : State :=
  operSend x o (operOut im.out0 (t.result value))
    (s.setOper x o { v with partials := Table.erase t.route.toNat v.partials })

/-- A value is combined into its route's partial, which is released when its count is reached; the release depends on every contribution and
on the release count's token (R291). -/
def accumTake (x o k : Nat) (im : OpImage) (v : Oper) (t : Token) (need : Nat) (counter : Option (Nat × Token)) (s : State) : Out :=
  let p := accumPartial im v t.route.toNat
  let r := accumWord (im.field 0 5 4) (im.field 0 3 0) (im.field 0 6 6 == 1) p.1 t.value
  let s1 := s.mapElem x 0 (fun e => { e with status := e.status.raise r.2 })
  let v1 := v.takeAt 0 k
  let view := p.2.2.join t.after
  if p.2.1 + 1 = need then
    if !roomForAll x (operOut im.out0 t) s then .next s else
    let (v2, after) := match counter with | some c => (v1.takeAt 1 c.1, view.join c.2.after) | none => (v1, view)
    .next (accumRelease x o im v2 { t with after := after } r.1 s1)
  else .next (s1.setOper x o { v1 with partials := Table.set t.route.toNat (r.1, p.2.1 + 1, view) v1.partials })

/-- A release count of zero that is its route's oldest. -/
def emptyRelease (x o k : Nat) (im : OpImage) (v : Oper) (s : State) : Out :=
  match firstOfRoute v 1 k with
  | some c =>
    if c.value ≠ 0 ∨ im.field 0 31 16 ≠ 0 ∨ (accumPartial im v c.route.toNat).2.1 ≠ 0 ∨ !roomForAll x (operOut im.out0 c) s then .next s else
    .next (accumRelease x o im (v.takeAt 1 k) c (accumIdentity (im.field 0 5 4) (im.field 0 3 0)) s)
  | none => .next s

/-- ACCUM_COMBINE: the k-th waiting value, taken where it is its route's first; past the values, the release counts of zero of input 1
by rank.  With COUNT above 0 the tokens of input 1 wait for ever (DESIGN CHOICE, log 29). -/
def execAccumCombine (x o k : Nat) (s : State) : Out :=
  match operOn x o 8 s with
  | none => .next s
  | some (im, v) =>
    let waiting := (Table.getD v.inputs 0 []).length
    if waiting ≤ k then emptyRelease x o (k - waiting) im v s else
    match firstOfRoute v 0 k with
    | none => .next s
    | some t =>
      let count := im.field 0 31 16
      if count ≠ 0 then (if k = 0 then accumTake x o k im v t count none s else .next s) else
      match releaseCount v t.route with
      | some (j, c) => if c.value = 0 then .next s else accumTake x o k im v t c.value.toNat (some (j, c)) s
      | none => .next s

/-! ## LOOP (R111) -/

/-- The field that a LOOP allocates, of a token. -/
def loopField (im : OpImage) (t : Token) : Nat := if im.field 0 0 0 = 0 then t.frame.toNat else t.iter.toNat

/-- The lowest free value of a LOOP's pool. -/
def freeValue (im : OpImage) (v : Oper) : Option Nat :=
  ((List.range (im.field 0 27 16)).map (· + im.field 0 15 4)).find? (fun n => (Table.find n v.pool).isNone)

/-- LOOP_ENTRY. -/
def execLoopEntry (x o : Nat) (s : State) : Out :=
  match operOn x o 9 s with
  | none => .next s
  | some (im, v) =>
    match v.head 0, freeValue im v with
    | some t, some n =>
      let u := if im.field 0 0 0 = 0 then { t with frame := BitVec.ofNat 11 n } else { t with iter := BitVec.ofNat 10 n }
      if !roomForAll x (operOut im.out0 u) s then .next s else
      .next (operSend x o (operOut im.out0 u) (s.setOper x o { v.take 0 with pool := Table.set n t v.pool }))
    | _, _ => .next s

/-- LOOP_EXIT.  The token on OUT1 carries EOD 0 (DESIGN CHOICE, log 57). -/
def execLoopExit (x o : Nat) (s : State) : Out :=
  match operOn x o 9 s with
  | none => .next s
  | some (im, v) =>
    match v.head 1 with
    | none => .next s
    | some t =>
      let n := loopField im t
      match Table.find n v.pool with
      | none => .next (tokenTrap x (16 + o) 1 cILLOP t s)
      | some saved =>
        let u := { saved.result t.value with after := saved.after.join t.after }
        if !roomForAll x (operOut im.out1 u) s then .next s else
        .next (operSend x o (operOut im.out1 u) (s.setOper x o { v.take 1 with pool := Table.erase n v.pool }))

/-! ## MERGE (R112) -/

/-- The key of MODE 1. -/
def mergeKey (t : Token) : Nat := t.frame.toNat * 1024 + t.iter.toNat

/-- Nothing more can come on an input of an operator. -/
def inputOver (img : SegImage) (k o i : Nat) (v : Oper) : Bool :=
  let p : Port := ⟨k, 16 + o, i, 0⟩
  (v.head i).isNone && (inputEnded img p v.ended || !(operInputs img k o).contains p)

/-- The input whose head a MERGE sends next. -/
def mergeNext (img : SegImage) (k o : Nat) (im : OpImage) (v : Oper) : Option Nat :=
  if im.field 0 0 0 = 0 then v.accesses.head?.map (fun a => ofBool a.2) else
  match v.head 0, v.head 1 with
  | some a, some b => if mergeKey b < mergeKey a then some 1 else some 0
  | some _, none => if inputOver img k o 1 v then some 0 else none
  | none, some _ => if inputOver img k o 0 v then some 1 else none
  | none, none => none

/-- MERGE_FORWARD. -/
def execMergeForward (x o : Nat) (s : State) : Out :=
  match operOn x o 10 s, s.runOf x with
  | some (im, v), some (_, r) =>
    match mergeNext r.image ((s.stripe x).vs.getD 0) o im v with
    | none => .next s
    | some i =>
      match v.head i with
      | none => .next s
      | some t =>
        let ts := operOut im.out0 t
        if !roomForAll x ts s then .next s else
        .next (operSend x o ts (s.setOper x o { v.take i with accesses := v.accesses.erase (t, i == 1) }))
  | _, _ => .next s

/-! ## ROUTE (R113, R336, R337, R349 to R351, R357) -/

/-- The table region that a ROUTE reads: its partition's, where TABLE is its base. -/
def routeTable (s : State) (part : Nat) (im : OpImage) : Option Region :=
  match s.table? part with
  | some r => if im.p0.toNat = r.base then some r else none
  | none => none

/-- The load counter of an expert on a die rises; it saturates (R342). -/
def countLoad (part expert die : Nat) (s : State) : State :=
  s.mapPlace part (fun p =>
    match Table.find expert p.experts with
    | some e => { p with experts := Table.set expert { e with count := Table.set die (min (Table.getD e.count die 0 + 1) (2 ^ 32 - 1)) e.count } p.experts }
    | none => p)

/-- The VALUE of a routed token. -/
def routedValue (t : Token) (tver die loc expert : Nat) : Word :=
  w64 (bits t.value.toNat 63 32 * 2 ^ 32 + tver % 2 ^ 14 * 2 ^ 18 + die * 2 ^ 15 + loc * 2 ^ 12 + expert)

/-- The choice of R349 among location words: the selector values after it, and the location. -/
def selectLocation (ws : List Nat) (cur : List Int) : List Int × Nat :=
  let raised := (List.range 8).map (fun k => if locValid (nth ws k 0) then nth cur k 0 + (locWeight (nth ws k 0) : Int) else nth cur k 0)
  let total := ((List.range 8).map (fun k => if locValid (nth ws k 0) then locWeight (nth ws k 0) else 0)).sum
  let best := (List.range 8).foldl (fun (m : Option Nat) k =>
    if !locValid (nth ws k 0) then m else
    match m with
    | none => some k
    | some j => if nth raised j 0 < nth raised k 0 then some k else some j) none
  let k := best.getD 0
  (raised.set k (nth raised k 0 - (total : Int)), k)

/-- The ROUTE owes a re-issue under the version it holds (R336). -/
def redirectOwed (v : Oper) : Bool := v.redirect.any (fun i => match v.version with | some t => decide (i.2.2 ≤ t) | none => false)

/-- The ROUTE still has to read the table, or owes a re-issue. -/
def routeOwes (v : Oper) : Bool := v.due || redirectOwed v

/-- ROUTE_REQUEST. -/
def execRouteRequest (x o : Nat) (s : State) : Out :=
  match operOn x o 11 s, stripePart s x with
  | some (im, v), some (part, _) =>
    match v.head 0 with
    | none => .next s
    | some t =>
      if routeOwes v || decide (im.field 1 15 0 ≤ v.window.length) then .next s else
      let expert := bits t.value.toNat 11 0
      match routeTable s part im, v.version with
      | some r, some held =>
        let (ws, s1) := entryWords r expert held s
        let under := match entryUnder r expert held with | some e => e.1 | none => 0
        if heapFails s r (expert + 1) under then .next (memTrap x (16 + o) 0 t cMEMERR im.p0 s) else
        if !locValid (nth ws 0 0) then .next (tokenTrap x (16 + o) 0 cILLOP t s) else
        let cur := match Table.find expert v.select with
          | some c => if c.1 = under then c.2 else List.replicate 8 0
          | none => List.replicate 8 0
        let (cur1, loc) := selectLocation ws cur
        let die := locDie (nth ws loc 0)
        let tok := { t with after := t.after.join (r.released 0 held) }
        let ts := operOut im.out0 (tok.result (routedValue t held die loc expert))
        if !roomForAll x ts s then .next s else
        let v1 := { v.take 0 with
          select := Table.set expert (under, cur1) v.select
          window := v.window ++ [⟨tok, expert, die, loc, held % 2 ^ 14⟩] }
        .next (operSend x o ts (countLoad part expert die (s1.setOper x o v1)))
      | _, _ => .next (tokenTrap x (16 + o) 0 cILLOP t s)
  | _, _ => .next s

/-- ROUTE_ACKNOWLEDGEMENT: a tag that matches no entry is discarded. -/
def execRouteAcknowledgement (x o : Nat) (s : State) : Out :=
  match operOn x o 11 s with
  | none => .next s
  | some (_, v) =>
    match v.head 1 with
    | none => .next s
    | some t =>
      .next (s.setOper x o { v.take 1 with
        window := match v.window.findIdx? (fun w => w.tok.tag == t.tag) with | some i => dropAt v.window i | none => v.window })

/-- A ROUTE reads the version that it will hold (R349, R350, R357): its table floor may advance. -/
def readTable (x o part l : Nat) (im : OpImage) (s : State) : State :=
  match routeTable s part im with
  | none => s.mapOper x o (fun v => { v with due := false, version := none })
  | some r =>
    let latest := (r.gran 0).latest
    let train := im.field 1 16 16 == 1
    let frozen := (Table.find l s.launches).bind (·.frozenT)
    let t := if train then frozen.getD latest else latest
    let s1 := s.mapOper x o (fun v => { v with due := false, version := some t, view := v.view.join (r.released 0 t) })
    let s2 := if train then s1.mapLaunch l (fun v => { v with frozenT := some t }) else s1
    let s3 := s2.mapPlace part (fun p => { p with wasRead := true })
    applyFloor part (s3.part part).place.region r.readers s3

/-- Re-issues the window entries of a location, oldest first, while there is room (R336), ordered after what the version held released
(R350). -/
def reissue (x o part : Nat) (im : OpImage) (item : Nat × Nat × Nat) (r : Region) : Nat → State → State
  | 0, s => s
  | n + 1, s =>
    match s.oper? x o with
    | none => s
    | some v =>
      match v.window.findIdx? (fun w => w.expert == item.1 && w.loc == item.2.1) with
      | none => s.setOper x o { v with redirect := v.redirect.erase item }
      | some i =>
        match v.window[i]? with
        | none => s
        | some w =>
          if entryFails s r item.1 (v.version.getD item.2.2) then memTrap x (16 + o) 0 w.tok cMEMERR im.p0 s else
          let (ws, s1) := entryWords r item.1 (v.version.getD item.2.2) s
          let die := locDie (nth ws 0 0)
          let tok := { w.tok with after := w.tok.after.join (r.released 0 (v.version.getD item.2.2)) }
          let ts := operOut im.out0 (tok.result (routedValue tok item.2.2 die 0 item.1))
          if !roomForAll x ts s then s else
          let v1 := { v with window := v.window.set i { w with tok := tok, die := die, loc := 0, tver := item.2.2 % 2 ^ 14 } }
          reissue x o part im item r n (operSend x o ts (countLoad part item.1 die (s1.setOper x o v1)))

/-- ROUTE_TABLE_READ: the version of a burst boundary, then the re-issues owed under it. -/
def execRouteTableRead (x o : Nat) (s : State) : Out :=
  match operOn x o 11 s, stripePart s x with
  | some (im, v), some (part, l) =>
    if (match routeTable s part im with | some r => homeLost s r || (v.due && heapFails s r 0 (r.gran 0).latest) | none => false) then
      .next (memTrap x (16 + o) 0 Token.blank cMEMERR im.p0 s) else
    let s1 := if v.due then readTable x o part l im s else s
    match s1.oper? x o, routeTable s1 part im with
    | some u, some r =>
      if u.eosSent then .next s1 else
      (match u.redirect.find? (fun i => match u.version with | some t => decide (i.2.2 ≤ t) | none => false) with
      | some item => .next (reissue x o part im item r (u.window.length + 1) s1)
      | none => .next s1)
    | _, _ => .next s1
  | _, _ => .next s

/-! ## End-of-stream (R101, R111, R305, R337) -/

/-- Inputs whose end-of-stream an operator waits for. -/
def eosPorts (img : SegImage) (k o : Nat) (im : OpImage) : List Port :=
  (operInputs img k o).filter (fun p => !(p.slot == 1 && (im.kind == 1 || im.kind == 9 || im.kind == 11)))

/-- Every input has ended; the burst source's input 0 by the controller's token (R188). -/
def operEnded (s : State) (x o : Nat) (r : Run) (im : OpImage) (v : Oper) : Bool :=
  let k := (s.stripe x).vs.getD 0
  let ps := eosPorts r.image k o im
  if isBurstSource s x im then
    ps.all (fun p => decide (eosNeeded r.image p + 1 ≤ (v.ended.filter (· == inputCode p.slot p.port)).length))
      && v.ended.contains (inputCode 0 0)
  else portsEnded r.image ps v.ended (startsEnded r (s.stripe x))

/-- No accepted work is left and nothing that waits can fire. -/
def operIdle (s : State) (x o : Nat) (im : OpImage) (v : Oper) : Bool :=
  let empty := fun (i : Nat) => (v.head i).isNone
  !operPosted s x o && (operError s x o v).isNone && v.sends.isEmpty && v.vdata.isEmpty && !v.parked
    && (!(decide (1 ≤ im.kind) && decide (im.kind ≤ 3)) || (completeGroup im v).isNone)
    && (match im.kind with
      | 0 => v.base.isNone && empty 0
      | 1 => empty 0
      | 2 => empty 0 || empty 1
      | 3 => empty 0 || empty 1
      | 4 => empty 0
      | 5 => empty 0 || (im.field 0 0 0 == 0 && empty 1)
      | 6 => empty 0 || empty 1 || decide ((Table.getD v.inputs 2 []).length < 8)
      | 7 => (joinInputs im).any empty
      | 8 => if im.field 0 31 16 ≠ 0 then empty 0 else
          (Table.getD v.inputs 0 []).all (fun t => (releaseCount v t.route).isNone)
            && (Table.getD v.inputs 1 []).all (fun t => t.value != 0 || (accumPartial im v t.route.toNat).2.1 != 0)
      | 9 => empty 0 && empty 1 && v.pool.isEmpty
      | 10 => empty 0 && empty 1
      | _ => empty 0 && !v.due && !redirectOwed v)

/-- The stream FIFO of a SPACE 3 STORE that received end-of-stream is marked. -/
def streamMarked (s : State) (x o : Nat) (r : Run) (im : OpImage) (v : Oper) : Bool :=
  if im.kind = 2 ∧ im.field 0 2 0 = 3 ∧ inputEnded r.image ⟨(s.stripe x).vs.getD 0, 16 + o, 1, 0⟩ v.ended = true then
    (match fifoOfRun s r (fifoNumber s x r im) with | some f => f.eos | none => true)
  else true

/-- A body input records end-of-stream (R305). -/
def markBody (rid : Nat) (p : Port) (s : State) : State :=
  match stripeOfVs s rid p.vs with
  | none => s
  | some y =>
    let c := bodyMark + inputCode p.slot p.port
    if p.tgt < 16 then s.mapElem y p.tgt (fun e => { e with ended := e.ended ++ [c] })
    else s.mapOper y (p.tgt - 16) (fun v => { v with ended := v.ended ++ [c] })

/-- The stripe from which OUT1 of an operator counts: for a SEND to another stripe buffer the destination (R107). -/
def out1Stripe (s : State) (x : Nat) (im : OpImage) : Option Nat :=
  if im.kind = 4 ∧ im.field 0 16 16 = 0 then (stripeLaunch s x).bind (fun l => sendStripe im l.2.2 x) else some x

/-- The end-of-stream tokens of an operator: what it sends in its own stripe, the stripe of OUT1, and what it sends there (R101, R107, R111). -/
def eosSends (s : State) (x : Nat) (im : OpImage) : List Token × Nat × List Token :=
  let far := (out1Stripe s x im).isSome
  (if im.kind = 9 then [] else operOut im.out0 eosToken, (out1Stripe s x im).getD x, if far then operOut im.out1 eosToken else [])

/-- An operator has end-of-stream to hand on. -/
def eosReady (s : State) (x o : Nat) (r : Run) (im : OpImage) (v : Oper) : Bool :=
  !v.eosSent && operEnded s x o r im v && operIdle s x o im v && streamMarked s x o r im v

/-- OPERATOR_EOS_FORWARD. -/
def execOperatorEosForward (x o : Nat) (s : State) : Out :=
  match s.opImage x o, s.runOf x with
  | some im0, some (rid, r) =>
    (match operOn x o im0.kind s with
    | none => .next s
    | some (im, v) =>
      if !eosReady s x o r im v then .next s else
      let (ts, y, far) := eosSends s x im
      let s0 := operSend x o ts (s.setOper x o { v with eosSent := true })
      if !roomForAll x ts s || !roomForAll y far s0 then .next s else
      let s1 := far.foldl (fun u t => emit y (fabricUnit x (16 + o)) t u) s0
      .next (if im.kind == 9 then (loopBody r.image ((s.stripe x).vs.getD 0) o).foldl (fun u p => markBody rid p u) s1 else s1))
  | _, _ => .next s

end Sys2Proof.Machine
end

