-- ==== Sys2Proof/Machine/MemEvents.lean ====
section
/-!
DEFINITION. The fault service and uncorrectable errors (R272 to R274, R277, R372).
-/

namespace Sys2Proof.Machine

open Sys2Proof

/-! ## Fault records (R272, R273) -/

/-- The virtual address of a fault slot. -/
def slotVa (v : Launch) (die k : Nat) : Word := v.svcBase + w64 (65536 * die + 32 * k)

/-- The four words of a new record. -/
def faultWords (f : PendingFault) : List Word := [w64 f.va, w64 (f.unit + f.reason * 256 + f.level * 16 + f.cls), 0, 0]

/-- A record of the partition on the die with the same page and class whose RESP nobody has written: its launch and slot. -/
def sameRecord (s : State) (part : Nat) (f : PendingFault) : Option (Nat × Nat × List Nat) :=
  s.launches.findSome? (fun l =>
    if l.2.part = part then
      (((l.2.die f.die).slots).find? (fun z =>
        nth z.2 0 0 == f.va / 4096 && nth z.2 1 0 == f.cls && s.mem.read (svcPa (l.2.die f.die) (32 * z.1 + 24)) &&& 3 == 0)).map (fun z => (l.1, z.1, z.2))
    else none)

/-- A notice fits in the partition's fault ring (R372). -/
def noticeRoom (s : State) (part : Nat) : Bool :=
  let p := s.part part
  decide ((p.frWr - p.frRd).toNat < 2 ^ min 16 (max 4 p.frLog))

/-- Writes a notice to the fault ring in host memory, and then signals vector 64 (R372). -/
def writeNotice (part : Nat) (ws : List Word) (s : State) : State :=
  let p := s.part part
  let at_ := p.frBase.toNat + 32 * (p.frWr.toNat % 2 ^ min 16 (max 4 p.frLog))
  (sendTlp (.msix part 64) (sendTlp (.write part at_ (wordBytes ws)) s)).setPart part { p with frWr := p.frWr + 1 }

/-- Replaces the k-th fault. -/
def setFaultSlot (k z : Nat) (s : State) : State :=
  { s with faults := s.faults.mapIdx (fun i f => if i = k then { f with slot := some z } else f) }

/-- Attaches a fault to a pending record. -/
def attachFault (k : Nat) (f : PendingFault) (l slot : Nat) (rec_ : List Nat) (s : State) : State :=
  match Table.find l s.launches with
  | none => s
  | some v =>
    let n := nth rec_ 2 0 + 1
    let s1 := devWrite (svcPa (v.die f.die) (32 * slot + 16)) (leBytes 4 n) s
    setFaultSlot k (64 * l + slot) (s1.mapDie l f.die (fun d => { d with slots := Table.set slot (rec_.set 2 n) d.slots }))

/-- Writes a new record, and reports it to the program or the host. -/
def newRecord (k : Nat) (f : PendingFault) (v : Launch) (slot : Nat) (s : State) : State :=
  let s1 := devWrite (svcPa (v.die f.die) (32 * slot)) (wordBytes (faultWords f)) s
  let s2 := setFaultSlot k (64 * f.launch + slot) (s1.mapDie f.launch f.die (fun d =>
    { d with slots := Table.set slot [f.va / 4096, f.cls, 0] d.slots }))
  let va := slotVa v f.die slot
  if v.fmode = 1 then createThread f.launch f.die true v.phase v.faultH va 0 0 false (presentView s2 f.launch) View.zero s2
  else writeNotice v.part [va, w64 f.va, 1, 0] s2

/-- The report of a new record has somewhere to go. -/
def reportRoom (s : State) (f : PendingFault) (v : Launch) : Bool :=
  if v.fmode = 1 then decide (queueLength s f.launch f.die true < 65536) else noticeRoom s v.part

/-- FAULT_RECORD_WRITE: the k-th pending fault attaches to a record, or gets one of its own in a free slot.  One of a launch that halts is written
no record: its access is abandoned (R275). -/
def execFaultRecordWrite (k : Nat) (s : State) : Out :=
  match s.faults[k]? with
  | none => .next s
  | some f =>
    match Table.find f.launch s.launches with
    | none => .next s
    | some v =>
      if f.slot.isSome || v.status != .placed then .next s else
      match sameRecord s v.part f with
      | some (l, slot, rec_) => .next (attachFault k f l slot rec_ s)
      | none =>
        let slot := Table.firstFree (v.die f.die).slots 64
        if slot < 64 ∧ reportRoom s f v = true then .next (newRecord k f v slot s) else .next s

/-! ## Resolution (R274) -/

/-- An operator's or element's stalled access is declined. -/
def declineFabric (x agent : Nat) (f : PendingFault) (s : State) : State :=
  let t := if agent < 16 then none else
    (s.oper? x (agent - 16)).bind (fun v => match v.sends with | j :: _ => some j.tok | [] => v.head 0)
  memTrap x agent 0 (t.getD Token.blank) cPGFAULT (w64 f.va) s

/-- The expansion step of a thread that waits on the fault service. -/
def faultStep (w : Wait) : Nat := match w with | .again 0 ex => ex | _ => 0

/-- A declined fault fails as R274 gives. -/
def declineFault (f : PendingFault) (s : State) : State :=
  match f.agent with
  | .thread tid =>
    (match focusBlocked tid s with
    | some (w, s1) =>
      (match wakeWith (fun u => .next (trapAt cPGFAULT (w64 f.va) u.th.pc (faultStep w) u)) s1 with
      | .next s2 => s2
      | _ => s)
    | none => s)
  | .oper x o => declineFabric x (16 + o) f s
  | .elem x e => declineFabric x e f s
  | .copy id => endCopy id cPGFAULT (w64 f.va) s

/-- A resolved fault replays its access. -/
def replayFault (f : PendingFault) (s : State) : State :=
  match f.agent with
  | .copy id => mapCopy id (fun c => { c with faulted := false }) s
  | _ => s

/-- FAULT_RESOLVE: what RESP of a pending record says takes effect for it and every fault attached. -/
def execFaultResolve (launch die slot : Nat) (s : State) : Out :=
  match Table.find launch s.launches with
  | none => .next s
  | some v =>
    let ld := v.die die
    match Table.find slot ld.slots with
    | none => .next s
    | some _ =>
      let resp := leNat (peek s (svcPa ld (32 * slot + 24)) 1) % 4
      if resp ≠ 1 ∧ resp ≠ 2 then .next s else
      let mine := fun (f : PendingFault) => f.die == die && f.slot == some (64 * launch + slot)
      let fs := s.faults.filter mine
      let s1 := { s with faults := s.faults.filter (fun f => !mine f) }
      let s2 := s1.mapDie launch die (fun d => { d with slots := Table.erase slot d.slots })
      .next (fs.foldl (fun u f => if resp = 1 then replayFault f u else declineFault f u) s2)

/-! ## Uncorrectable errors (R277) -/

/-- UNCORRECTABLE_ERROR: a protected unit of memory (space 0), of a stripe buffer (1) or of a ring buffer (2) is in error from now on. -/
def execUncorrectableError (space addr : Nat) (s : State) : Out :=
  let there := match space with
    | 0 => onDevice addr
    | 1 => decide (addr < 512 * 262144)
    | 2 => decide (addr < 32 * 4194304)
    | _ => false
  if !there then .next s else
  let u := if space = 0 then (unitOf addr).1 else addr / 8 * 8
  .next (if s.errors.contains (space, u) then s else { s with errors := s.errors ++ [(space, u)] })

end Sys2Proof.Machine
end

