-- ==== Sys2Proof/Machine/Scroll.lean ====
section
/-!
DEFINITION. The scroll controller: the start of a run, its steps, its waves, its halt and its end (R188, R189, R197 to R212, R218,
R398).
-/

namespace Sys2Proof.Machine

open Sys2Proof

/-! ## Loads (R80, R82, R88, R209, R211, R213) -/

/-- The configuration of a virtual stripe as a load finds it: the ring's cache, the die's store, the image in memory (R211). -/
def loadConfig (x part : Nat) (r : Run) (k : Nat) (s : State) : (Except Nat StripeImage) × State :=
  let ring := stripeRing x
  match s.ringCache.find? (fun c => c.1 == ring && c.2.1 == part && c.2.2.1 == r.ident && c.2.2.2.1 == k) with
  | some c => (.ok c.2.2.2.2, s)
  | none =>
    match dieImage (stripeDie x) part r.ident s with
    | (.error cause, s1) => (.error cause, s1)
    | (.ok img, s1) =>
      match img.stripes[k]? with
      | none => (.error cILLOP, s1)
      | some im =>
        if img.stripes.length ≠ r.vcount ∨ img.pinned ≠ r.image.pinned then (.error cILLOP, s1)
        else (.ok im, { s1 with ringCache := s1.ringCache ++ [(ring, part, r.ident, k, im)] })

/-- An element as a load leaves it, before its initial forms. -/
def loadedElem (im : ElemImage) : Elem :=
  let e := { Elem.blank with lfsr := im.policy.extractLsb' 32 32 }
  match im.weights with
  | some w => { e with wfmt := w.fmt, esc := w.esc, xval := w.xval, slice := w.slice }
  | none => e

/-- The elements of a load; element 0 is there in any case, for the flags that ACCUM operators set (R110). -/
def loadedElems (im : StripeImage) : Table Elem :=
  let es := Table.mapVals (fun _ e => loadedElem e) im.elems
  if (Table.find 0 es).isNone then Table.set 0 Elem.blank es else es

/-- The effect of an initial form (R80). -/
def initialEffect (i : Instr) (s : State) : Out :=
  match i with
  | .talloc w => execTalloc w s
  | .tcfg w => execTcfg w s
  | .tzero w => execTzero w s
  | .afmt w => execAfmt w s
  | .acfg w => execAcfg w s
  | _ => .next s

/-- Executes one initial form. -/
def runInitial (x e slot : Nat) (i : Instr) (s : State) : State :=
  match initialEffect i { s with issue := ⟨x, e, slot, [], true⟩ } with
  | .next s1 => s1
  | _ => s

/-- Executes an initial form, or, in a slot marked for a break, traps BRKPT: the form, and those of its element after it, then wait in the
ready queue (R333). -/
def stepInitial (x e : Nat) (im : ElemImage) (slot : Nat) (i : Instr) (s : State) : State :=
  let held := match s.elem? x e with | some v => v.faulted.isSome | none => false
  let marked := bit im.breakMask.toNat slot
  if held || marked then
    let s1 := s.mapElem x e (fun v => { v with ready := v.ready ++ [⟨slot, Token.blank, none⟩] })
    if held then s1 else fabricTrap x e slot 0 cBRKPT 0 [] s1
  else runInitial x e slot i s

/-- Executes the initial forms of a stripe in ascending slot order, element by element. -/
def runInitials (x : Nat) (im : StripeImage) (s : State) : State :=
  im.elems.foldl (fun u e => e.2.slots.foldl (fun t sl =>
    match slotInstr e.2 sl.1 with
    | some i => if initialForm i then stepInitial x e.1 e.2 sl.1 i t else t
    | none => t) u) s

/-- An operator's restored state at a stateful load: its selectors are cleared, a ROUTE holds no version until it reads the table, and it is a new party
(R100, R209, R282, R348, R349). -/
def Oper.reloaded (v : Oper) (view : View) : Oper :=
  { v with select := [], version := none, due := true, fixed := [], view := view, redErr := none, eosSent := false, ended := [], faulted := none }

/-- Writes the saved state of a virtual stripe over its new load (R209). -/
def restoreStripe (x : Nat) (v : SavedStripe) (view : View) (s : State) : State :=
  s.mapStripe x (fun st => { st with
    elems := Table.mapVals (fun e (w : Elem) =>
      match Table.find e v.nodes with | some ns => { w with nodes := ns } | none => w) st.elems
    ops := Table.mapVals (fun o (w : Oper) =>
      match Table.find o v.ops with | some u => u.reloaded view | none => w) st.ops
    pass := v.pass.foldl (fun p q => Table.set q.1 (q.2 ++ Table.getD p q.1 []) p) st.pass })

/-- Load(p, vs): the stripe keeps only what waits in its inbox.  A configuration that cannot be had is a fabric trap of that
cause, and the stripe then holds nothing of the virtual stripe (R204, R211).  Its units are new parties, ordered after the phase's beginning and the configurations drained before it (R282, R285, R292). -/
def loadStripe (rid x k step part : Nat) (s : State) : State :=
  match Table.find rid s.runs with
  | none => s
  | some r =>
    match loadConfig x part r k s with
    | (.error cause, s1) =>
      fabricTrap x 0 0 0 cause 0 [] (s1.setStripe x { Stripe.blank with
        run := some rid, vs := some k, loadedAt := step, drained := r.drained, inbox := (s1.stripe x).inbox })
    | (.ok im, s1) =>
      let view := r.drained.join r.floor
      let st : Stripe := { Stripe.blank with
        run := some rid, vs := some k, loadedAt := step, party := s1.nextJob, drained := r.drained, image := im, inbox := (s1.stripe x).inbox
        elems := loadedElems im
        ops := Table.mapVals (fun _ _ => { Oper.blank with view := view }) im.ops }
      let s2 := runInitials x im ({ s1 with nextJob := s1.nextJob + 1 }.setStripe x st)
      match Table.find k r.saved with
      | some v => restoreStripe x v view (s2.mapRun rid (fun u => { u with saved := Table.erase k u.saved }))
      | none => s2

/-! ## Sizes and steps (R205) -/

/-- State of the nodes, operators and live pass registers of a stateful virtual stripe. -/
def stateBytes (im : StripeImage) (nodes : Table (Table Node)) (pass : Table (List InFlight)) : Nat :=
  (nodes.map (fun e => (e.2.map (fun n => 64 + 80 * n.2.rows)).sum)).sum + (im.ops.map (fun o => operStateSize o.2)).sum
    + (pass.map (fun p => 16 * p.2.length)).sum

/-- The nominal length of a step that loads a configuration, saves and restores some state, in fabric cycles. -/
def nominalLength (waves size moved : Nat) : Nat := max waves (max (ceilDiv size 2048) (ceilDiv moved 4096))

/-- Fabric cycles as nanoseconds at 3.3 GHz. -/
def cycleTime (n : Nat) : Nat := ceilDiv (10 * n) 33

/-- The moment at which a step with a load ends at the earliest, and the step begun. -/
def openStep (rid size moved : Nat) (s : State) : State :=
  s.mapRun rid (fun r => { r with stepOpen := true, stepDue := s.time + cycleTime (nominalLength r.waves size moved) })

/-! ## RUN_START (R157, R197, R210) -/

/-- The physical stripes of a run. -/
def Run.stripes (r : Run) : List Nat := (List.range r.width).map (· + r.xorig)

/-- Runs that hold stripes. -/
def holdsStripes (r : Run) : Bool := r.status == .running || r.status == .stopping || r.status == .halted

/-- The run's launch is saved: its share of the state stores is released (R328). -/
def runSaved (s : State) (r : Run) : Bool := match Table.find r.launch s.launches with | some v => v.status == .saved | none => false

/-- The free room of the pooled state store that a run reserves in (R210). -/
def poolFree (s : State) (r : Run) : Nat :=
  r.pool - ((s.runs.filter (fun q => holdsStripes q.2 && !runSaved s q.2 && q.2.rings.any r.rings.contains)).map (fun q => q.2.reserve)).sum

/-- The next ticket of a launch, 1 to 65535, that no unretired run holds (R155). -/
def freeTicket (s : State) (l start : Nat) : Nat :=
  let used := (s.runsOf l).map (fun r => r.2.ticket)
  match ((List.range 65535).map (fun i => (start - 1 + i) % 65535 + 1)).find? (fun t => !used.contains t) with
  | some t => t
  | none => start

/-- The burst source of a virtual stripe's configuration. -/
def sourceOf (im : StripeImage) : Option (Nat × OpImage) := im.ops.find? (fun o => burstEnd 1 o.2)

/-- A waiting run may start. -/
def canStart (s : State) (r : Run) : Bool :=
  r.status == .waiting && r.stripes.all (fun x => (s.stripe x).run.isNone) && decide (r.reserve ≤ poolFree s r)
    && (match Table.find r.launch s.launches with | some v => v.status == .placed | none => false)

/-- RUN_START: the ticket, the stripes, and the load of vs0 at step 0; where no ticket is left the run is gone, and its SEGRUN traps ILLOP
(R155). -/
def execRunStart (run : Nat) (s : State) : Out :=
  match Table.find run s.runs with
  | none => .next s
  | some r =>
    match Table.find r.launch s.launches with
    | none => .next s
    | some v =>
      if !canStart s r then .next s else
      if !ticketLeft s r.launch then .next { s with runs := Table.erase run s.runs } else
      let t := freeTicket s r.launch v.nextTicket
      let empty := match r.image.stripes.head? with | some im => (sourceOf im).isNone | none => true
      let r1 := { r with
        ticket := t, status := .running, startTime := s.time
        lastBurst := if empty then some 0 else none, eosGiven := empty, burstOf := [0] }
      let s1 := (s.setRun run r1).setLaunch r.launch { v with nextTicket := t % 65535 + 1 }
      let s2 := r.stripes.foldl (fun u x => u.setStripe x { Stripe.blank with run := some run }) s1
      .next (openStep run (match r.image.stripes.head? with | some im => decodedSize im | none => 0) 0 (loadStripe run r.xorig 0 0 v.part s2))

/-! ## The end of a burst (R200, R206, R207) -/

/-- Waves delivered in a burst. -/
def Run.wavesOf (r : Run) (b : Nat) : Nat := nth r.burstOf b 0

/-- The waves of a burst have all been delivered. -/
def burstOver (r : Run) (b : Nat) : Bool := (r.lastBurst == some b && r.eosGiven) || r.wavesOf b == r.waves

/-- The tokens that operators hold at inputs, tile credits apart. -/
def inputsEmpty (st : Stripe) : Bool :=
  st.ops.all (fun o => o.2.inputs.all (fun i => i.2.isEmpty ||
    (i.1 == 1 && (match Table.find o.1 st.image.ops with | some im => im.kind == 1 | none => false))))

/-- Nothing on a stripe waits to issue, to arrive or to leave, and its operators are idle. -/
def workDone (s : State) (x : Nat) : Bool :=
  let st := s.stripe x
  st.inbox.isEmpty && inputsEmpty st
    && st.elems.all (fun e => e.2.ready.isEmpty && e.2.out.isEmpty && e.2.mmgOwed.isEmpty)
    && st.ops.all (fun o => match Table.find o.1 st.image.ops with
      | some im => operIdle s x o.1 im o.2
      | none => true)

/-- Every unit of a stripe has handed on end-of-stream. -/
def unitsEnded (st : Stripe) : Bool :=
  st.image.elems.all (fun e => match Table.find e.1 st.elems with | some v => v.eosSent | none => true)
    && st.ops.all (fun o => o.2.eosSent)

/-- A stripe has completed the burst that it executes; the run's last burst takes end-of-stream with it. -/
def stripeDone (s : State) (r : Run) (x : Nat) : Bool :=
  let st := s.stripe x
  match burstAt r st with
  | none => true
  | some b => workDone s x && (st.vs != some 0 || burstOver r b) && (r.lastBurst != some b || unitsEnded st)

/-- Conditions 1 to 3 of R206. -/
def stepDone (s : State) (r : Run) : Bool :=
  r.stepOpen && decide (r.stepDue ≤ s.time) && (r.image.pinned || r.stripes.all (stripeDone s r))

/-- The load of a step: the stripe and the virtual stripe; none where R197 loads nothing. -/
def loadAt (r : Run) (n : Nat) : Option (Nat × Nat) :=
  if r.resident then (if n < r.vcount then some (r.xorig + n, n) else none)
  else
    let g := n / r.vcount
    let more := match r.lastBurst with | none => true | some m => decide (g * (r.width - 1) ≤ m)
    if more then some (r.xorig + n % r.width, n % r.vcount) else none

/-- A waiting operand of a stripe's frame stores: the oldest of the lowest element that holds one (R208; DESIGN CHOICE, log 30). -/
def leftover (st : Stripe) : Option (Nat × FrameEntry) :=
  (st.elems.filterMap (fun e => (e.2.frame.head?).map (fun f => (e.1, f)))).head?

/-- The live pass registers of a stripe to be evicted, where its virtual stripe is stateful. -/
def livePass (st : Stripe) : Table (List InFlight) :=
  match st.image.stateful with
  | some live => st.pass.filter (fun p => live.contains p.1)
  | none => []

/-! ## Energy (R396 to R398) -/

/-- The waves that a burst is charged for at its admission: those delivered, or for a new burst of vs0 those that the INFIFO can still
give it (DEDUCED, log 35). -/
def chargedWaves (s : State) (r : Run) (k b : Nat) : Nat :=
  if k ≠ 0 then r.wavesOf b else
  match (r.image.stripes.head?).bind sourceOf with
  | none => 0
  | some (_, im) =>
    match fifoOfRun s r r.inFifo with
    | some f => if f.eos then min r.waves ((f.wpos - f.rpos) / im.accessBytes) else r.waves
    | none => 0

/-- The charge of a virtual stripe for n waves, in nJ. -/
def stripeCharge (im : StripeImage) (n : Nat) : Nat := ceilDiv (energyPerWave im * n) 1000

/-- Adds shares to a table of charges by ring. -/
def addCharge (x n : Nat) (t : Table Nat) : Table Nat :=
  if n = 0 then t else Table.set (stripeRing x) (Table.getD t (stripeRing x) 0 + n) t

/-- What the executing stripes of a step charge, by ring. -/
def stepCharge (s : State) (r : Run) : Table Nat :=
  r.stripes.foldl (fun t x =>
    let st := s.stripe x
    match burstAt r st, st.vs with
    | some b, some k => addCharge x (stripeCharge st.image (chargedWaves s r k b)) t
    | _, _ => t) []

/-- What one wave of a pinned segment charges, by ring. -/
def waveCharge (s : State) (r : Run) : Table Nat :=
  r.stripes.foldl (fun t x =>
    let st := s.stripe x
    if st.vs.isSome then addCharge x (stripeCharge st.image 1) t else t) []

/-- The meter has room for charges. -/
def meterAdmits (s : State) (t : Table Nat) : Bool :=
  t.all (fun c => decide (c.2 ≤ ringEnergy s c.1) || ringEnergy s c.1 == ringBudget s c.1)

/-- The charges are subtracted. -/
def chargeRings (t : Table Nat) (s : State) : State :=
  { s with io := { s.io with energy := t.foldl (fun e c => Table.set c.1 (ringEnergy s c.1 - c.2) e) s.io.energy } }

/-! ## Step boundaries (R202, R206 to R209) -/

/-- The run's step s + 1 waits for its boundary only: conditions 1 to 4 of R206. -/
def boundaryReady (s : State) (r : Run) : Bool :=
  r.status == .running && stepDone s r &&
    (match loadAt r (r.step + 1) with
      | some (y, _) => (s.stripe y).vs.isNone || (workDone s y && (s.stripe y).ops.all (fun o => o.2.sends.isEmpty && !operPosted s y o.1))
      | none => true)

/-- The next step with its number, for the charge that it makes. -/
def Run.following (r : Run) : Run := { r with step := r.step + 1 }

/-- The next wave of burst b can be given to the burst source, where `held` tokens wait: its bytes are there (R200), there is room (R304), and
it is known whether it is the last of its burst, so that its EOD is right (R188; DEDUCED, log 52). -/
def waveReady (r : Run) (f : Fifo) (n b held : Nat) : Bool :=
  let left := f.wpos - f.rpos
  decide ((held + 1) * n ≤ left) && decide (held < 1024)
    && (f.eos || r.wavesOf b + 1 == r.waves || decide ((held + 2) * n ≤ left))

/-- The last wave of the run: end-of-stream is there and no whole wave follows; bytes that follow a full burst make one burst more (R188). -/
def waveFinal (r : Run) (f : Fifo) (n b held : Nat) : Bool :=
  let left := f.wpos - f.rpos
  f.eos && (if r.wavesOf b + 1 == r.waves then left == (held + 1) * n else decide (left < (held + 2) * n))

/-- The tokens that wait at the burst source. -/
def sourceHeld (s : State) (x o : Nat) : Nat := heldAt (s.stripe x) o 0 + inboxCount (s.stripe x) ((16 + o) * 32)

/-- The run's phase has ended on a scroll segment: vs(V−1) has completed the last burst (R189, R218). -/
def scrollEnded (s : State) (r : Run) : Bool :=
  !r.image.pinned && r.lastBurst.isSome && stepDone s r && r.stripes.any (fun x =>
    (s.stripe x).vs == some (r.vcount - 1) && burstAt r (s.stripe x) == r.lastBurst)

/-- The priority of a run's launch. -/
def runPrio (s : State) (r : Run) : Nat := match Table.find r.launch s.launches with | some v => launchPrio s v | none => 0

/-- The ring whose scroll controller serves a run: that of p0.  Runs that share a ring lie within it (R203). -/
def Run.ring (r : Run) : Nat := stripeRing r.xorig

/-- The run has a step boundary, or in a pinned segment a wave, that waits for its scroll controller. -/
def waitsForRing (s : State) (rid : Nat) (r : Run) : Bool :=
  if r.image.pinned && !r.stepOpen then
    match stripeOfVs s rid 0, (r.image.stripes.head?).bind sourceOf with
    | some x, some (o, im) =>
      (match fifoOfRun s r r.inFifo with
      | some f => r.status == .running && r.lastBurst.isNone && waveReady r f im.accessBytes (r.waveNext / r.waves) (sourceHeld s x o)
      | none => false)
    | _, _ => false
  else boundaryReady s r && !scrollEnded s r

/-- The controller of the run's ring serves it next: no run of higher PRIO waits there, and among equal PRIO it is its launch's turn (R320,
R398). -/
def firstInLine (s : State) (r : Run) : Bool :=
  let waiting := s.runs.filter (fun q => q.2.ring == r.ring && waitsForRing s q.1 q.2)
  waiting.all (fun q => decide (runPrio s q.2 ≤ runPrio s r))
    && inTurn s (64 + r.ring) ((waiting.filter (fun q => runPrio s q.2 == runPrio s r)).map (·.2.launch)) r.launch

/-- The controller has served the run. -/
def servedBy (r : Run) (s : State) : State := takeTurn (64 + r.ring) r.launch s

/-- Takes the tokens of the pass registers of a run's stripes, except what stays with an evicted stripe: each with the stripe it leaves
and its register. -/
def takePass (r : Run) (kept : Nat → Table (List InFlight)) (s : State) : List (Nat × InFlight) × State :=
  r.stripes.foldl (fun (acc : List (Nat × InFlight) × State) x =>
    let st := acc.2.stripe x
    let stay := kept x
    let go := (st.pass.filter (fun p => (Table.find p.1 stay).isNone)).flatMap (fun p => p.2.map (fun f => (x, f)))
    if st.pass.isEmpty then acc else (acc.1 ++ go, acc.2.setStripe x { st with pass := [] })) ([], s)

/-- The token that a pass register hands on. -/
def crossed (p : Nat × InFlight) : InFlight := { p.2 with tok := { p.2.tok with soff := p.2.tok.soff - 1 }, crossed := true }

/-- Delivers tokens that have arrived to the stripe after the one that they leave. -/
def deliverPass (r : Run) (ps : List (Nat × InFlight)) (s : State) : State :=
  ps.foldl (fun u p =>
    bif p.2.tok.soff == 1 then u.mapStripe (nextStripe r p.1) (fun v => { v with inbox := v.inbox ++ [crossed p] }) else u) s

/-- Puts tokens that cross once more into the pass registers of the stripe that they have reached. -/
def passOn (r : Run) (ps : List (Nat × InFlight)) (s : State) : State :=
  ps.foldl (fun u p =>
    bif p.2.tok.soff == 1 then u else u.mapStripe (nextStripe r p.1) (fun v =>
      let f := crossed p
      let k := passKey v.image f.tok.dest
      { v with pass := Table.set k (Table.getD v.pass k [] ++ [f]) v.pass })) s

/-- Merges the status records of a stripe into those of the virtual stripe that it holds (R47). -/
def mergeRecords (r : Run) (st : Stripe) : Table Status :=
  match st.vs with
  | none => r.records
  | some k => st.elems.foldl (fun t e =>
      Table.set (16 * k + e.1) ((Table.getD t (16 * k + e.1) Status.zero).merge e.2.status) t) r.records

/-- The state of a stateful virtual stripe at its eviction (R209). -/
def saveStripe (st : Stripe) : SavedStripe :=
  { nodes := Table.mapVals (fun _ (e : Elem) => e.nodes) st.elems, ops := st.ops, pass := livePass st }

/-- What is ordered after a drained configuration is ordered after the accesses of its operators (R292). -/
def drainedView (s : State) (st : Stripe) : View :=
  st.ops.foldl (fun w o => (w.join o.2.view).add (operOwner st.party o.1 + 1) s.writeSeq) View.zero

/-- Evicts a stripe of a run: its records, and the state of a stateful virtual stripe, whose size is returned. -/
def evict (rid y : Nat) (s : State) : Nat × State :=
  let st := s.stripe y
  match st.vs, Table.find rid s.runs with
  | some k, some r =>
    let r1 := { r with records := mergeRecords r st, drained := r.drained.join (drainedView s st) }
    match st.image.stateful with
    | some _ =>
      let v := saveStripe st
      (stateBytes st.image v.nodes v.pass, s.setRun rid { r1 with saved := Table.set k v r1.saved })
    | none => (0, s.setRun rid r1)
  | _, _ => (0, s)

/-- Bytes restored by the load of a virtual stripe. -/
def restoredBytes (r : Run) (k : Nat) : Nat :=
  match Table.find k r.saved, r.image.stripes[k]? with
  | some v, some im => stateBytes im v.nodes v.pass
  | _, _ => 0

/-- The counts of a run at the end of a step: the step, a stretch, and a burst that vs(V−1) has completed. -/
def countStep (s : State) (r : Run) : Run :=
  let out := r.stripes.any (fun x =>
    let st := s.stripe x
    st.vs == some (r.vcount - 1) && (match burstAt r st with | some b => r.wavesOf b != 0 | none => false))
  { r with
    steps := r.steps + 1
    stretched := if r.stepDue < s.time then r.stretched + 1 else r.stretched
    bursts := if out && !r.image.pinned then r.bursts + 1 else r.bursts }

/-- Every ROUTE of a run has a burst boundary behind it (R349). -/
def routesDue (r : Run) (s : State) : State :=
  r.stripes.foldl (fun u x =>
    let st := u.stripe x
    if (routeOps st).isEmpty then u else
    u.setStripe x { st with ops := Table.mapVals (fun o (v : Oper) =>
      match Table.find o st.image.ops with | some im => if im.kind = 11 then { v with due := true } else v | none => v) st.ops }) s

/-- The boundary between step s and step s + 1: delivery, saving, loading (R207), then the next step begins.  The table floor may advance with an
evicted ROUTE (R348). -/
def crossBoundary (rid part : Nat) (r : Run) (s : State) : State :=
  let load := loadAt r (r.step + 1)
  let evicted := match load with | some (y, _) => some y | none => none
  let kept := fun (x : Nat) => if evicted = some x then livePass (s.stripe x) else []
  let s0 := s.setRun rid (countStep s r)
  let held := match evicted with | some y => livePass (s.stripe y) | none => []
  let (toks, s1) := if r.image.pinned then ([], s0) else takePass r kept s0
  let s2 := match evicted with
    | some y => if held.isEmpty then s1 else s1.mapStripe y (fun st => { st with pass := held })
    | none => s1
  let s3 := deliverPass r toks s2
  let s4 := s3.mapRun rid (fun v => { v with step := v.step + 1 })
  match load with
  | none => passOn r toks (openStep rid 0 0 s4)
  | some (y, k) =>
    let (out, s5) := evict rid y s4
    let back := match Table.find rid s5.runs with | some v => restoredBytes v k | none => 0
    let size := match r.image.stripes[k]? with | some im => decodedSize im | none => 0
    refloorTable part (passOn r toks (openStep rid size (out + back) (loadStripe rid y k (r.step + 1) part s5)))

/-- The trap that a boundary meets: a stripe that has completed its last execute step holds a waiting operand (R208), or a live pass
register more than 16 tokens (R209), whose number ADDR of the record says (DESIGN CHOICE, log 30). -/
def boundaryTrap (r : Run) (s : State) : Option State :=
  match loadAt r (r.step + 1) with
  | none => none
  | some (y, _) =>
    let st := s.stripe y
    if st.vs.isNone then none else
    match leftover st with
    | some (e, f) => some (fabricTrap y e f.slot f.tok.tag cILLOP 0 [f.tok] s)
    | none =>
      match (livePass st).find? (fun p => decide (16 < p.2.length)) with
      | some p => some (fabricTrap y 0 0 0 cILLOP (w64 p.1) [] s)
      | none => none

/-- SCROLL_STEP_BOUNDARY.  The load steps of a pinned segment end with step V − 1. -/
def execScrollStepBoundary (run : Nat) (s : State) : Out :=
  match Table.find run s.runs with
  | none => .next s
  | some r =>
    match Table.find r.launch s.launches with
    | none => .next s
    | some v =>
      if !boundaryReady s r || scrollEnded s r || !firstInLine s r then .next s else
      if r.image.pinned && decide (r.vcount ≤ r.step + 1) then
        .next (servedBy r (s.setRun run { countStep s r with step := r.vcount, stepOpen := false }))
      else
        match boundaryTrap r s with
        | some s1 => .next s1
        | none =>
          let t := if r.image.pinned then [] else stepCharge s r.following
          if !meterAdmits s t then .next s else
          .next (servedBy r <| routesDue r (crossBoundary run v.part r (chargeRings t s)))

/-! ## Waves (R188, R200, R212) -/

/-- Wave n of a run. -/
def waveToken (n : Nat) (last : Bool) : Token := { Token.blank with iter := BitVec.ofNat 10 n, eod := if last then 1 else 0 }

/-- A wave reaches input 0 of the burst source. -/
def giveWave (run x o b : Nat) (r : Run) (last final : Bool) (s : State) : State :=
  let s1 := s.mapOper x o (fun v => { v with inputs := Table.set 0 (Table.getD v.inputs 0 [] ++ [waveToken r.waveNext last]) v.inputs })
  let counts := r.burstOf ++ List.replicate (b + 1 - r.burstOf.length) 0
  s1.setRun run { r with
    waveNext := r.waveNext + 1, burstOf := counts.set b (nth counts b 0 + 1)
    lastBurst := if final then some b else r.lastBurst }

/-- What the controller does for burst b at the burst source: a wave, the knowledge that the burst is the last, or its
end-of-stream. -/
def driveSource (run x o b : Nat) (im : OpImage) (r : Run) (s : State) : State :=
  let n := im.accessBytes
  match fifoOfRun s r r.inFifo, s.oper? x o with
  | some f, some _ =>
    let held := sourceHeld s x o
    if r.lastBurst = some b then
      (s.mapOper x o (fun u => { u with ended := u.ended ++ [inputCode 0 0] })).setRun run { r with eosGiven := true }
    else if !r.image.pinned && r.wavesOf b == r.waves then s
    else if (held + 1) * n ≤ f.wpos - f.rpos then
      if !waveReady r f n b held then s else
      let final := waveFinal r f n b held
      let last := final || r.wavesOf b + 1 == r.waves
      if r.image.pinned then
        let t := waveCharge s r
        if !meterAdmits s t || !firstInLine s r then s
        else servedBy r (routesDue r (giveWave run x o b r last final (chargeRings t s)))
      else giveWave run x o b r last final s
    else if f.eos then s.setRun run { r with lastBurst := some b, burstOf := r.burstOf ++ List.replicate (b + 1 - r.burstOf.length) 0 }
    else s
  | _, _ => s

/-- WAVE_DELIVERY. -/
def execWaveDelivery (run : Nat) (s : State) : Out :=
  match Table.find run s.runs with
  | none => .next s
  | some r =>
    match stripeOfVs s run 0 with
    | none => .next s
    | some x =>
      if r.status ≠ .running ∨ r.eosGiven = true then .next s else
      match sourceOf (s.stripe x).image with
      | none => .next s
      | some (o, im) =>
        if r.image.pinned then (if r.stepOpen then .next s else .next (driveSource run x o (r.waveNext / r.waves) im r s)) else
        match burstAt r (s.stripe x) with
        | some b => .next (driveSource run x o b im r s)
        | none => .next s

/-! ## The halt and the end of a run (R158, R212, R218, R275, R302, R327) -/

/-- The agent is a unit of a run. -/
def agentOfRun (s : State) (rid : Nat) (a : FaultAgent) : Bool :=
  match a with
  | .oper x _ => (s.stripe x).run == some rid
  | .elem x _ => (s.stripe x).run == some rid
  | _ => false

/-- The pending faults of a run that ends are forgotten; a record to which no other fault is attached is cancelled (R275). -/
def cancelRunFaults (rid : Nat) (s : State) : State :=
  let gone := s.faults.filter (fun f => agentOfRun s rid f.agent)
  let left := s.faults.filter (fun f => !agentOfRun s rid f.agent)
  gone.foldl (fun u f =>
    match f.slot with
    | none => u
    | some z =>
      match Table.find (z / 64) u.launches with
      | some v =>
        if left.any (fun g => g.die == f.die && g.slot == some z) then u
        else (devWrite (svcPa (v.die f.die) (32 * (z % 64) + 24)) (leBytes 8 3) u).mapDie (z / 64) f.die
          (fun d => { d with slots := Table.erase (z % 64) d.slots })
      | none => u) { s with faults := left }

/-- The parked operations of a run's operators go with it. -/
def unparkRun (rid : Nat) (s : State) : State :=
  { s with parked := s.parked.filter (fun p => match p.issuer with | .oper x _ => (s.stripe x).run != some rid | .thread _ => true) }

/-- The parked operations of a run that is kept halted are abandoned: its operators issue them again (R278, R327). -/
def unparkKept (rid : Nat) (s : State) : State :=
  let s1 := unparkRun rid s
  { s1 with stripes := Table.mapVals (fun _ (st : Stripe) =>
      if st.run = some rid then { st with ops := Table.mapVals (fun _ (o : Oper) => { o with parked := false, vstamp := none }) st.ops } else st) s1.stripes }

/-- The bytes that a run which is halted has not consumed of the FIFOs that it reads are discarded (R158; DEDUCED, log 43). -/
def discardFifos (r : Run) (s : State) : State :=
  s.mapDie r.launch r.die (fun d => { d with fifos := Table.mapVals (fun n (f : Fifo) =>
    if f.bound && r.sources.contains n then { f with rpos := f.wpos } else f) d.fifos })

/-- The partition of a run's launch. -/
def runPart (s : State) (r : Run) : Nat := match Table.find r.launch s.launches with | some v => v.part | none => mgmtPart

/-- The stripes of a run are released: what they hold is discarded, with the FIFO contents that a halt leaves unread, and their status records
are kept.  The table floor may advance (R348). -/
def releaseRun (rid : Nat) (r : Run) (result : Nat) (s0 : State) : State :=
  let s := if result = 0 then s0 else discardFifos r s0
  let s1 := unparkRun rid (cancelRunFaults rid s)
  let recs := r.stripes.foldl (fun (v : Run) x => { v with records := mergeRecords v (s.stripe x) }) r
  let s2 := { s1 with stripes := s1.stripes.filter (fun p => p.2.run != some rid) }
  refloorTable (runPart s r) (s2.setRun rid { recs with status := .ended, result := result, endTime := s.time, saved := [], stepOpen := false })

/-- Every access accepted by an operator of the run has completed or is stalled on the fault service (R212). -/
def accessesDone (s : State) (r : Run) : Bool :=
  r.stripes.all (fun x =>
    (s.stripe x).ops.all (fun o => fabricStalled s (.oper x o.1) || o.2.faulted.isSome
      || (o.2.sends.all (fun j => j.data.isEmpty) && !operPosted s x o.1)))

/-- Every access is done, and every instance issued has completed (R212); an MMG origin that waits for a participant is held as it is. -/
def atBoundary (s : State) (r : Run) : Bool :=
  accessesDone s r && r.stripes.all (fun x =>
    (s.stripe x).elems.all (fun e => e.2.faulted.isSome || e.2.mmgOwed.all (fun o => !memberReady s x e.1 o)))

/-- A halt keeps the run for the context image: its launch is pre-empted or held. -/
def haltKeeps (v : Launch) (r : Run) : Bool :=
  (v.status == .halting || v.status == .halted) && (v.held || (v.result == 0 && r.haltCause.isNone))

/-- RUN_HALT: at its next burst boundary a stopping run is kept halted, or ends with its cause.  A DEADLOCK halts it at once, when the accesses
that can complete have (R302). -/
def execRunHalt (run : Nat) (s : State) : Out :=
  match Table.find run s.runs with
  | none => .next s
  | some r =>
    match Table.find r.launch s.launches with
    | none => .next s
    | some v =>
      let due := (r.haltCause == some cDEADLOCK && accessesDone s r)
        || ((r.image.pinned || !r.stepOpen || decide (r.stepDue ≤ s.time)) && atBoundary s r)
      if r.status ≠ .stopping ∨ due = false then .next s else
      if haltKeeps v r then .next ((unparkKept run s).setRun run { r with status := .halted })
      else .next (releaseRun run r (r.haltCause.getD cSTOPPED) s)

/-- Every unit of a pinned run has handed on end-of-stream and every stripe is quiescent (R207, R218). -/
def pinnedEnded (s : State) (r : Run) : Bool :=
  r.image.pinned && !r.stepOpen && r.eosGiven && r.stripes.all (fun x =>
    let st := s.stripe x
    unitsEnded st && workDone s x && st.pass.all (fun p => p.2.isEmpty) && (leftover st).isNone)

/-- RUN_END: the phase of the run ends, and the run with it (R189, R218). -/
def execRunEnd (run : Nat) (s : State) : Out :=
  match Table.find run s.runs with
  | none => .next s
  | some r =>
    if r.status ≠ .running then .next s
    else if pinnedEnded s r then .next (releaseRun run r 0 s)
    else if scrollEnded s r then
      (match (r.stripes.filterMap (fun x => (leftover (s.stripe x)).map (fun l => (x, l)))).head? with
      | some (x, e, f) => .next (fabricTrap x e f.slot f.tok.tag cILLOP 0 [f.tok] s)
      | none => .next (releaseRun run (countStep s r) 0 s))
    else .next s

end Sys2Proof.Machine
end

