-- ==== Sys2Proof/Machine/Probe.lean ====
section
/-!
DEFINITION. Blocked units, their wait-for edges, and the deadlock probes (R298 to R302).
-/

namespace Sys2Proof.Machine

open Sys2Proof

/-- A party of R298. -/
inductive Party where
  | thread (tid : Nat)
  | elem (x e : Nat)
  | oper (x o : Nat)
  deriving DecidableEq, Repr

/-- The key of a party: its unit identifier, and above it its launch's number plus one. -/
def partyKey (s : State) (p : Party) : Nat :=
  match p with
  | .thread t => (match s.thread? t with
    | some v => (match v.launch with | some l => l + 1 | none => 0) * 2 ^ 48 + threadUnit v
    | none => 0)
  | .elem x e => (match s.runOf x with | some (_, r) => (r.launch + 1) * 2 ^ 48 | none => 0) + fabricUnit x e
  | .oper x o => (match s.runOf x with | some (_, r) => (r.launch + 1) * 2 ^ 48 | none => 0) + fabricUnit x (16 + o)

/-- The elements and operators of a run, by stripe. -/
def runParties (s : State) (rid : Nat) : List Party :=
  s.stripes.flatMap (fun p => if p.2.run = some rid then
      p.2.elems.map (fun e => Party.elem p.1 e.1) ++ p.2.ops.map (fun o => Party.oper p.1 o.1) else [])

/-- Every party that can wait. -/
def allParties (s : State) : List Party :=
  (s.allThreads.filter (fun t => t.launch.isSome)).map (fun t => Party.thread t.id)
    ++ (s.runs.filter (fun r => r.2.status == .running || r.2.status == .stopping)).flatMap (fun r => runParties s r.1)

/-- The party of a key. -/
def partyOfKey (s : State) (k : Nat) : Option Party := (allParties s).find? (fun p => partyKey s p == k)

/-! ## Parked waits: codes 0x01 to 0x03 -/

/-- The parked wait of an issuer. -/
def parkedOf (s : State) (who : Parked) : Option ParkEntry := s.parked.find? (fun p => p.issuer == who)

/-- The party of a parked operation. -/
def Parked.unit : Parked → Party
  | .thread t => .thread t
  | .oper x o => .oper x o

/-- The party that a number of `creators` names, and its launch; an operator whose load is gone is none. -/
def creatorParty (s : State) (n : Nat) : Option (Party × Option Nat) :=
  if n < 2 ^ 40 then some (.thread n, (s.thread? n).bind (·.launch))
  else (operOfOwner s n).map (fun p => (.oper p.1 p.2.1, (s.runOf p.1).map (fun r => r.2.launch)))

/-- The launch of a party. -/
def partyLaunch (s : State) (p : Party) : Option Nat :=
  match p with
  | .thread t => (s.thread? t).bind (·.launch)
  | .elem x _ => (s.runOf x).map (fun r => r.2.launch)
  | .oper x _ => (s.runOf x).map (fun r => r.2.launch)

/-- Those who may create the version that a parked operation waits for. -/
def producers (s : State) (me : Party) (p : ParkEntry) (r : Region) : List Party :=
  (s.parked.filter (fun q => q.part == p.part && q.region == p.region && q.granule == p.granule && q.store)).map (fun q => q.issuer.unit)
    ++ ((r.creators.filterMap (creatorParty s)).filter (fun c => c.2 == partyLaunch s me)).map (·.1)

/-- The wait of a parked operation, with its edges. -/
def parkedWait (s : State) (me : Party) (p : ParkEntry) : Option (Nat × List Party) :=
  match s.region? p.part p.region with
  | none => none
  | some r =>
    if !p.store then some (1, producers s me p r)
    else if (r.gran p.granule).latest + 1 < p.version then some (2, producers s me p r)
    else some (3, (r.readers.filter (fun x => some x.2.mark == r.floor)).map (fun x => Party.thread x.2.holder))

/-! ## Streams: codes 0x04 and 0x05 -/

/-- The running operators of a kind that use a stream FIFO of a launch on a die (R187). -/
def fifoUsers (s : State) (launch die k kind : Nat) : List Party :=
  s.stripes.flatMap (fun p =>
    match s.runOf p.1 with
    | some (_, r) =>
      if r.launch = launch ∧ r.die = die ∧ (r.status = .running ∨ r.status = .stopping) then
        (p.2.image.ops.filter (fun o => o.2.kind == kind && o.2.field 0 2 0 == 3 && fifoNumber s p.1 r o.2 == k)).map
          (fun o => Party.oper p.1 o.1)
      else []
    | none => [])

/-- A writer of a full FIFO. -/
def fullWait (s : State) (x : Nat) (im : OpImage) (v : Oper) (r : Run) : Option (Nat × List Party) :=
  if im.kind = 2 ∧ im.field 0 2 0 = 3 then
    match v.head 0, v.head 1, fifoOfRun s r (fifoNumber s x r im) with
    | some _, some _, some f =>
      if f.eos = false ∧ f.size < f.wpos - f.rpos + im.accessBytes then some (4, fifoUsers s r.launch r.die (fifoNumber s x r im) 1) else none
    | _, _, _ => none
  else none

/-- A reader, or a burst source whose burst has waves left, of an empty FIFO without end-of-stream. -/
def emptyWait (s : State) (x o : Nat) (im : OpImage) (v : Oper) (r : Run) : Option (Nat × List Party) :=
  if im.kind = 1 ∧ im.field 0 2 0 = 3 then
    match fifoOfRun s r (fifoNumber s x r im) with
    | some f =>
      let held := if isBurstSource s x im then sourceHeld s x o * im.accessBytes else 0
      let wants := if isBurstSource s x im then
          !r.eosGiven && (r.image.pinned || (match burstAt r (s.stripe x) with | some b => r.wavesOf b != r.waves | none => false))
        else (v.head 0).isSome
      if wants = true ∧ f.eos = false ∧ f.wpos - f.rpos < held + im.accessBytes then
        some (5, fifoUsers s r.launch r.die (fifoNumber s x r im) 2)
      else none
    | none => none
  else none

/-! ## Missing tokens: code 0x06 -/

/-- The inputs that lack a token for the next firing of an operator; none where it can fire or waits for something else. -/
def missingInputs (img : SegImage) (k o : Nat) (im : OpImage) (v : Oper) : List Nat :=
  let empty := fun (i : Nat) => (v.head i).isNone
  match im.kind with
  | 5 => (if im.field 0 0 0 = 0 then [0, 1] else [0]).filter empty
  | 7 => (joinInputs im).filter empty
  | 8 =>
    if im.field 0 31 16 ≠ 0 then [0].filter empty
    else if (Table.getD v.inputs 0 []).any (fun t => (releaseCount v t.route).isSome)
      || (Table.getD v.inputs 1 []).any (fun t => t.value == 0 && (accumPartial im v t.route.toNat).2.1 == 0) then []
    else [0, 1].filter empty
  | 9 => if !empty 1 || (!empty 0 && (freeValue im v).isSome) then [] else [0, 1].filter empty
  | 10 => if (mergeNext img k o im v).isSome then [] else [0, 1].filter empty
  | _ => []

/-- The units that name an input in a destination, where their virtual stripes are held. -/
def feeders (s : State) (rid : Nat) (img : SegImage) (ports : List Port) : List Party :=
  ((senders img).filter (fun d => (targets img d).any ports.contains)).filterMap (fun d =>
    (stripeOfVs s rid d.1.vs).map (fun y => if d.1.unit < 16 then Party.elem y d.1.unit else Party.oper y (d.1.unit - 16)))

/-- An operator with an input that lacks a token. -/
def missingWait (s : State) (x o rid : Nat) (im : OpImage) (v : Oper) (r : Run) : Option (Nat × List Party) :=
  let k := (s.stripe x).vs.getD 0
  match missingInputs r.image k o im v with
  | [] => none
  | ins => some (6, feeders s rid r.image (ins.map (fun i => ⟨k, 16 + o, i, 0⟩)))

/-! ## Elements: codes 0x07 to 0x09 -/

/-- The node that a matrix instruction contributes to. -/
def matrixNode (i : Instr) : Option Nat :=
  match i with
  | .mmaT2 w | .mmaF4 w | .mmaF8 w | .mmaBf16 w => some (bits w.imm.toNat 1 0)
  | .mmg w => some (mmgOf w).node
  | _ => none

/-- The K-block that a matrix instance of a slot contributes comes after one that is still missing in its band (R92). -/
def waitsForBlock (s : State) (x e : Nat) (i : Inst) : Bool :=
  match (s.slotAt x e i.slot).bind matrixNode, s.elem? x e with
  | some n, some v =>
    (match Table.find n v.nodes with
    | some nd =>
      let ci := i.a.iter.toNat
      let b := nd.band ci
      decide (ci < nd.total) && decide (Table.getD nd.next b.1 0 < b.2.1)
    | none => false)
  | _, _ => false

/-- A sender's wait for room for tokens that stripe x sends at once, with its edges to the units that those without room are for (R202, R304). -/
def roomWait (s : State) (x : Nat) (ts : List Token) : Option (Nat × List Party) :=
  match sendAll x 0 ts s with
  | ([], _) => none
  | (t :: left, s1) =>
    let after := fun (y : Nat) => match s.runOf y with | some (_, r) => nextStripe r y | none => y
    let at_ := fun (u : Token) => if u.soff = 0 then x else if u.soff = 1 then after x else after (after x)
    some (7, (t :: left.filter (fun u => !roomFor x u s1)).map (fun u =>
      if u.target.toNat < 16 then Party.elem (at_ u) u.target.toNat else .oper (at_ u) (u.target.toNat - 16)))

/-- A re-issue that a ROUTE owes under the version it holds has a window entry to send again (R336). -/
def reissueDue (v : Oper) : Bool :=
  !v.due && v.redirect.any (fun i => (match v.version with | some t => decide (i.2.2 ≤ t) | none => false)
    && v.window.any (fun w => w.expert == i.1 && w.loc == i.2.1))

/-- The destinations of the tokens that an operator's next firing, or its next completion, sends at once. -/
def neededOutputs (s : State) (x : Nat) (im : OpImage) (v : Oper) : List (BitVec 16) :=
  let has := fun (i : Nat) => (v.head i).isSome
  let when_ := fun (c : Bool) (d : BitVec 16) => if c && dstValid d then [d] else []
  let words := fun (d : BitVec 16) => (List.range 8).flatMap (fun _ => when_ true d)
  let done := (completeGroup im v).isSome
  match im.kind with
  | 0 => when_ (v.base.isSome || has 0) im.out0
  | 1 =>
    if !has 0 then when_ done im.out1
    else if im.field 0 6 6 = 0 then when_ true im.out0
    else (match (v.head 1).bind (creditTile s x im) with
      | some c => when_ (v.fillRow + 1 == c.2.2.rows) im.out0
      | none => [])
  | 2 => if has 0 && has 1 then [] else when_ done im.out1
  | 3 => if has 0 && has 1 then when_ (im.field 0 14 14 == 1) im.out0 else when_ done im.out1
  | 5 => if im.field 0 0 0 = 1 then (if has 0 then when_ true im.out1 ++ words im.out0 else []) else if has 0 && has 1 then words im.out0 else []
  | 6 => when_ v.version.isSome im.out1
  | 8 => when_ ((Table.getD v.inputs 0 []).any (fun t =>
      let count := im.field 0 31 16
      let need := if count ≠ 0 then count else (match releaseCount v t.route with | some c => c.2.value.toNat | none => 0)
      (accumPartial im v t.route.toNat).2.1 + 1 == need)
    || (im.field 0 31 16 == 0 && (Table.getD v.inputs 1 []).any (fun t => (accumPartial im v t.route.toNat).2.1 == 0
      && (match releaseCount v t.route with | some c => c.2.value == 0 | none => false)))) im.out0
  | 9 => if has 1 then when_ true im.out1 else when_ (has 0 && (freeValue im v).isSome) im.out0
  | 11 => when_ (if routeOwes v then reissueDue v else has 0 && decide (v.window.length < im.field 1 15 0)) im.out0
  | _ => when_ true im.out0

/-- What an operator can do next that sends tokens: the stripe that they are sent from, and the tokens. -/
def nextSends (s : State) (x o : Nat) (im : OpImage) (v : Oper) : List (Nat × List Token) :=
  let toks := fun (ds : List (BitVec 16)) => ds.map (fun d => Token.blank.toward d)
  if im.kind = 4 then
    if v.sends.any (fun j => !j.data.isEmpty) then [] else
    (if (v.head 0).isSome then [(x, operOut im.out0 Token.blank)] else [])
      ++ (if v.sends.isEmpty || operPosted s x o then [] else [(sendEnd s im x, operOut im.out1 Token.blank)])
  else [(x, toks (neededOutputs s x im v))]

/-- The wait of an operator for room: whatever it can do next, or its end-of-stream, finds none. -/
def sendsWait (s : State) (x o : Nat) (r : Run) (im : OpImage) (v : Oper) : Option (Nat × List Party) :=
  if eosReady s x o r im v then
    (match roomWait s x (eosSends s x im).1 with
    | some w => some w
    | none => roomWait s (eosSends s x im).2.1 (eosSends s x im).2.2)
  else
  let waits := (nextSends s x o im v).map (fun m => roomWait s m.1 m.2)
  if waits.all Option.isSome then waits.findSome? id else none

/-- The wait of an element, with the edges of everything that it waits for: each participant that an MMG origin still has to copy into, each slot whose
instances wait for a K-block. -/
def elemWait (s : State) (x e rid : Nat) (r : Run) (v : Elem) : Option (Nat × List Party) :=
  let img := r.image
  let k := (s.stripe x).vs.getD 0
  match v.out ++ v.stuck, v.mmgOwed with
  | t :: ts, _ => roomWait s x (t :: ts)
  | [], o :: os =>
    if v.mmgOwed.any (memberReady s x e) then none
    else some (9, (o :: os).filterMap (fun m => (memberStripe s x m.1).map (fun y => Party.elem y m.2.1)))
  | [], [] =>
    (match v.ready with
    | [] => none
    | is =>
      if is.all (waitsForBlock s x e) then some (8, feeders s rid img (is.flatMap (fun i => [⟨k, e, i.slot, 0⟩, ⟨k, e, i.slot, 1⟩]))) else none)

/-- The wait of an operator. -/
def operWait (s : State) (x o rid : Nat) (r : Run) (im : OpImage) (v : Oper) : Option (Nat × List Party) :=
  match parkedOf s (.oper x o) with
  | some p => parkedWait s (.oper x o) p
  | none =>
    match fullWait s x im v r with
    | some w => some w
    | none =>
      match emptyWait s x o im v r with
      | some w => some w
      | none =>
        match missingWait s x o rid im v r with
        | some w => some w
        | none => sendsWait s x o r im v

/-- The wait of an element or operator, with its edges. -/
def fabricWait (s : State) (p : Party) : Option (Nat × List Party) :=
  match p with
  | .thread _ => none
  | .elem x e =>
    (match s.runOf x, s.elem? x e with
    | some (rid, r), some v =>
      if !stripeLive s x || v.faulted.isSome || (v.eosSent && v.out.isEmpty) || fabricStalled s (.elem x e) then none else elemWait s x e rid r v
    | _, _ => none)
  | .oper x o =>
    (match s.runOf x, s.opImage x o, s.oper? x o with
    | some (rid, r), some im, some v =>
      if !stripeLive s x || v.faulted.isSome || v.eosSent || fabricStalled s (.oper x o) then none else operWait s x o rid r im v
    | _, _, _ => none)

/-! ## Continuations: codes 0x01 to 0x03 and 0x0A to 0x0C -/

/-- The blocked units of runs. -/
def blockedOf (s : State) (rids : List Nat) : List Party := (rids.flatMap (runParties s)).filter (fun p => (fabricWait s p).isSome)

/-- The wait of a continuation of a launch, with its edges. -/
def threadWait (s : State) (l : Nat) (t : Thread) : Option (Nat × List Party) :=
  let owned := (s.runs.filter (fun r => r.2.owner == t.id && r.2.launch == l)).map (·.1)
  match t.status with
  | .blocked (.vld _ _ _ _ _) => (parkedOf s (.thread t.id)).bind (parkedWait s (.thread t.id))
  | .blocked (.vst _ _ _ _ _) => (parkedOf s (.thread t.id)).bind (parkedWait s (.thread t.id))
  | .blocked (.phase _ _) =>
    some (0x0A, ((s.threadsOf l).filter (fun u => !u.arrived)).map (fun u => Party.thread u.id)
      ++ blockedOf s ((s.runs.filter (fun r => r.2.launch == l && r.2.status == .running)).map (·.1)))
  | .blocked (.bar _ pa _) =>
    some (0x0B, ((s.threadsOf l).filter (fun u => u.die == homeDie pa &&
      (match u.status with | .blocked (.bar _ q _) => q != pa | _ => true))).map (fun u => Party.thread u.id))
  | .blocked (.segwait _ _ _) => some (0x0C, blockedOf s owned)
  | .blocked (.plsync _ _ _) => some (0x0C, blockedOf s owned)
  | .blocked (.evwait _ _ none) => some (0x0C, blockedOf s owned)
  | _ => none

/-- A launch that has halted: its parties are no blocked units until CTXREST (R327). -/
def launchStopped (s : State) (l : Nat) : Bool :=
  match Table.find l s.launches with
  | some v => v.status == .halted || v.status == .saving || v.status == .saved
  | none => false

/-- The wait of a party: its code and its edges; none where it is not a blocked unit (R298).  A unit has no edge to itself: a cycle lists two units
at least (R301; DEDUCED, log 54). -/
def waitOf (s : State) (p : Party) : Option (Nat × List Party) :=
  if launchStopped s (partyKey s p / 2 ^ 48 - 1) then none else
  let wait := match p with
    | .thread tid =>
      (match s.thread? tid with
      | some t => (match t.launch with | some l => threadWait s l t | none => none)
      | none => none)
    | q => fabricWait s q
  wait.map (fun w => (w.1, (w.2.filter (· != p)).eraseDups))

/-! ## Epochs (R300) -/

/-- A unit that has never blocked. -/
def Epoch.none : Epoch := ⟨255, 0, 0, false, []⟩

/-- Opens an epoch for a unit that has come to block, and ends that of one that no longer blocks. -/
def noteEpoch (s : State) (p : Party) : State :=
  let k := partyKey s p
  let e := Table.getD s.epochs k Epoch.none
  match waitOf s p with
  | some _ => if e.active then s else { s with epochs := Table.set k ⟨(e.number + 1) % 256, s.time, 0, true, e.seen⟩ s.epochs }
  | none => if e.active then { s with epochs := Table.set k { e with active := false } s.epochs } else s

/-- Keeps the epochs in step with what blocks. -/
def noteEpochs (s : State) : State := (allParties s).foldl noteEpoch s

/-! ## Probes (R300, R301) -/

/-- Sends a probe along every edge of a unit. -/
def sendProbes (origin epoch round hops launch : Nat) (path : List (Nat × Nat)) (edges : List Party) (s : State) : State :=
  { s with probes := s.probes ++ edges.map (fun q => ⟨origin, epoch, round, hops, partyKey s q, path, launch⟩) }

/-- PROBE_ROUND: the unit of a key has been blocked long enough for its next round. -/
def execProbeRound (unit : Nat) (s : State) : Out :=
  match partyOfKey s unit, Table.find unit s.epochs with
  | some p, some e =>
    (match waitOf s p with
    | some (code, edges) =>
      if !e.active || decide (s.time < e.since + 20000 * (e.round + 1)) then .next s else
      .next (sendProbes unit e.number (e.round % 256) 1 (unit / 2 ^ 48 - 1) [(unit, code)] edges
        { s with epochs := Table.set unit { e with round := e.round + 1 } s.epochs })
    | none => .next s)
  | _, _ => .next s

/-- The cycle record (R301). -/
def cycleRecord (time hops : Nat) (path : List (Nat × Nat)) : List Word :=
  let listed := path.take 31
  [w64 (hops * 2 ^ 16 + ofBool (decide (31 < hops)) * 2 ^ 6 + listed.length), w64 time]
    ++ listed.map (fun e => w64 (e.2 * 2 ^ 56 + e.1 % 2 ^ 48)) ++ List.replicate (31 - listed.length) 0

/-- Writes device data line by line: a line that is covered in part and is in error does not keep the others from being written (R301). -/
def devWriteLines : Nat → Nat → List Byte → State → State
  | 0, _, _, s => s
  | n + 1, pa, data, s => if data.isEmpty then s else devWriteLines n (pa + 64) (data.drop 64) (devWrite pa (data.take 64) s)

/-- The die of a party. -/
def partyDie (s : State) (p : Party) : Nat :=
  match p with
  | .thread t => (match s.thread? t with | some v => v.die | none => 0)
  | .elem x _ => stripeDie x
  | .oper x _ => stripeDie x

/-- DEADLOCK at a continuation: its instruction is abandoned and it traps (R302). -/
def deadlockThread (tid : Nat) (va : Word) (s : State) : State :=
  match focusBlocked tid s with
  | some (_, s1) =>
    let s2 := undoWait s1.th { s1 with parked := s1.parked.filter (fun p => p.issuer != .thread tid) }
    (match wakeWith (fun u => .next (trap cDEADLOCK va u)) s2 with
    | .next s3 => s3
    | _ => s)
  | none => s

/-- The origin detects a cycle (R301, R302). -/
def detect (p : Party) (l : Nat) (b : Probe) (s : State) : State :=
  match Table.find l s.launches with
  | none => s
  | some v =>
    let d := partyDie s p
    let s1 := devWriteLines 5 (svcPa (v.die d) 0x800) (wordBytes (cycleRecord s.time b.hops b.path)) s
    let va := v.svcBase + w64 (65536 * d + 0x800)
    match p with
    | .thread tid => deadlockThread tid va s1
    | .elem x e => fabricTrap x e 0 0 cDEADLOCK va [] s1
    | .oper x o => fabricTrap x (16 + o) 0 0 cDEADLOCK va [] s1

/-- PROBE_RECEIVE: the k-th probe on its way reaches its unit. -/
def execProbeReceive (k : Nat) (s : State) : Out :=
  match s.probes[k]? with
  | none => .next s
  | some b =>
    let s1 := { s with probes := dropAt s.probes k }
    match partyOfKey s1 b.target with
    | none => .next s1
    | some p =>
      let e := Table.getD s1.epochs b.target Epoch.none
      match waitOf s1 p with
      | none => .next s1
      | some (code, edges) =>
        if b.hops = 1023 then .next s1
        else if b.target = b.origin then
          .next (if b.epoch = e.number ∧ e.active = true then detect p (b.target / 2 ^ 48 - 1) b s1 else s1)
        else if b.origin % 2 ^ 48 < b.target % 2 ^ 48 ∨ e.seen.contains (b.origin, b.epoch, b.round) = true then .next s1
        else
          .next (sendProbes b.origin b.epoch b.round (b.hops + 1) b.launch (b.path ++ [(b.target, code)]) edges
            { s1 with epochs := Table.set b.target { e with seen := (b.origin, b.epoch, b.round) :: e.seen } s1.epochs })

end Sys2Proof.Machine
end

