-- ==== Sys2Proof/Machine/Agents.lean ====
section
/-!
DEFINITION. What the agenda lets happen beside instructions and events: the issue of an element (R40 to R42, R92, R98, R333), the passing
of time (R147, R343), and the loss of cached configurations (R211).
-/

namespace Sys2Proof.Machine

open Sys2Proof

/-! ## Issue -/

/-- Instances that one issue of an instruction gathers: eight, or one for a tile or matrix instruction (R41, R79). -/
def gatherWidth (i : Instr) : Nat :=
  match elemRow i with
  | some (_, .t1, _) => 1
  | some (_, .t2, _) => 1
  | _ => 8

/-- The issue of an instance and of those gathered with it, `most` in all: they leave the ready queue. -/
def issueOf (most x e : Nat) (v : Elem) (i : Inst) (ins : Instr) (s : State) : State :=
  let picks := ((v.ready.filter (fun j => j.slot == i.slot)).dropWhile (fun j => j != i)).take (min most (gatherWidth ins))
  { (s.setElem x e { v with ready := picks.foldl (fun q j => q.erase j) v.ready }) with issue := ⟨x, e, i.slot, picks, false⟩ }

/-- The next issue of an element, of `most` instances at most: its instruction and the state in which it executes; or none, with the state after.  Result tokens that
wait leave first; an instance of a marked slot traps BRKPT and stays in the queue.  In the load step only initial forms issue that a break held (R333). -/
def gather (most x e : Nat) (s : State) : Option Instr × State :=
  match s.elem? x e, s.elemImage x e with
  | some v, some im =>
    let live := stripeLive s x
    if !(live || stripeLoading s x) || v.faulted.isSome || fabricStalled s (.elem x e) || !v.mmgOwed.isEmpty then (none, s)
    else if !v.out.isEmpty then (none, flushOut x e s)
    else
      match v.ready.find? (fun i => (live || (slotInstr im i.slot).any initialForm) && !waitsForBlock s x e i) with
      | none => (none, s)
      | some i =>
        match slotInstr im i.slot with
        | none => (none, s)
        | some ins =>
          if bit im.breakMask.toNat i.slot then (none, fabricTrap x e i.slot i.a.tag cBRKPT 0 (if initialForm ins then [] else i.toks) s)
          else (some ins, issueOf most x e v i ins s)
  | _, _ => (none, s)

/-- The issue of as many of the gathered instances, n at most, as find room for their results; without room for one the element waits at issue,
and nothing else changes (R202, R304).  A result that no register or input holds at once leaves as room comes (DESIGN CHOICE, log 53). -/
def issueWithRoom (run : Instr → State → Out) (x e : Nat) (s : State) : Nat → Out
  | 0 => .next s
  | n + 1 =>
    match gather (n + 1) x e s with
    | (none, s1) => .next s1
    | (some i, s1) =>
      match run i s1 with
      | .next s2 =>
        let left := leftOver x e s2
        if left.isEmpty then .next (s2.mapElem x e (fun v => { v with stuck := [] }))
        else if n ≠ 0 then issueWithRoom run x e s n
        else
          let big := match run i (unhindered x s1) with | .next s3 => !(leftOver x e s3).isEmpty | _ => false
          .next (if big then s2 else s.mapElem x e (fun v => { v with stuck := emitted x s1 s2 ++ left }))
      | o => o

/-! ## Time -/

/-- A continuation that runs counts cycles of 2.2 GHz, in fifths (R147). -/
def Thread.ticked (ns : Nat) (t : Thread) : Thread :=
  match t.status with
  | .running _ => { t with cycles := t.cycles + 11 * ns }
  | _ => t

/-- The stripe executes, as R343 counts it: a run under way and not idle. -/
def stripeBusy (s : State) (p : Nat × Stripe) : Bool :=
  match s.runOf p.1 with
  | some (_, r) => stripeLive s p.1 && (r.image.pinned || (burstAt r p.2).isSome)
  | none => false

/-- The partition of a stripe. -/
def partOfStripe (s : State) (x : Nat) : Option Nat := (stripePart s x).map (·.1)

/-- A die's stripe was busy for some nanoseconds from a moment on: what lies past the window's end is kept for the windows after it (R343). -/
def Place.addBusy (p : Place) (time d ns : Nat) : Place :=
  if p.policy.isNone then p else
  { p with
    busy := addTime d (min ns (p.nextAt - time)) p.busy
    late := if p.nextAt < time + ns then p.late ++ [(d, max time p.nextAt, time + ns)] else p.late }

/-- The busy time of partitions' dies over some nanoseconds (R343). -/
def countBusy (ns : Nat) (s : State) : State :=
  (s.stripes.filter (stripeBusy s)).foldl (fun t p =>
    match partOfStripe s p.1 with
    | some part => t.mapPlace part (fun u => u.addBusy s.time (stripeDie p.1) ns)
    | none => t) s

/-- Some nanoseconds pass; an energy window that they end makes way for the next (R395). -/
def tick (ns : Nat) (s : State) : State :=
  let s1 := countBusy ns s
  openWindow { s1 with
    time := s1.time + ns
    th := s1.th.ticked ns
    threads := Table.mapVals (fun _ t => t.ticked ns) s1.threads }

/-- A ring cache drops its k-th configuration, or, past the ring caches, a die store its own. -/
def dropConfig (k : Nat) (s : State) : State :=
  if k < s.ringCache.length then { s with ringCache := dropAt s.ringCache k }
  else { s with dieStore := dropAt s.dieStore (k - s.ringCache.length) }

end Sys2Proof.Machine
end

