-- ==== Sys2Proof/Machine/QueueEv.lean ====
section
/-!
DEFINITION. Submission queues, their packets other than LAUNCH, and code objects (R308 to R314).
-/

namespace Sys2Proof.Machine

open Sys2Proof

/-! ## Writes of the device through a partition's translation -/

/-- Writes bytes at virtual addresses, page by page, as the device: the cause that stopped it, if any (R311, R329). -/
def writeVirtual (part : Nat) : Nat → Word → List Byte → State → Option Nat × State
  | 0, _, _, s => (none, s)
  | fuel + 1, va, bs, s =>
    if bs.isEmpty then (none, s) else
    let m := min bs.length (4096 - va.toNat % 4096)
    match translateRaw s part va .write with
    | (.prot, s1) => (some cPROT, s1)
    | (.memerr, s1) => (some cMEMERR, noteMemerr part va s1)
    | (.fault _ _, s1) => (some cPGFAULT, s1)
    | (.ok pa, s1) =>
      match locOf pa with
      | .host _ => writeVirtual part fuel (va + w64 m) (bs.drop m) (toHost 0 0 part pa (bs.take m) s1)
      | .umeno _ _ => (some cPROT, s1)
      | .reserved => (some cPROT, s1)
      | _ =>
        match pokeOk 0 0 pa (bs.take m) (settleLines pa m s1) with
        | some s2 => writeVirtual part fuel (va + w64 m) (bs.drop m) s2
        | none => (some cMEMERR, noteMemerr part va s1)

/-! ## Completion entries (R311) -/

/-- 2^LOG entries of a ring whose LOG field holds n; a value outside 4 to 20 counts as the nearest (log 19). -/
def ringEntries (n : Nat) : Nat := 2 ^ min 20 (max 4 n)

/-- Writes a completion entry, increments CQWR and signals the queue's vector (R311, R364). -/
def writeCompletion (part q : Nat) (ws : List Word) (s : State) : State :=
  let x := s.queue part q
  let va := x.cqbase + w64 (32 * (x.cqwr.toNat % ringEntries x.cqlog))
  sendTlp (.msix part q) ((writeVirtual part 2 va (wordBytes ws) s).2.mapQueue part q (fun y => { y with cqwr := y.cqwr + 1 }))

/-- A queue whose ENABLE was written 0 is DISABLED once its fetched packets are complete (R310). -/
def Queue.settle (x : Queue) : Queue :=
  if !x.enable && x.live.isEmpty && (x.state == qACTIVE || x.state == qQUIESCED || x.state == qOVERRUN) then
    { x with state := qDISABLED }
  else x

/-- A fetched packet completes: its entry, and it is no longer among the fetched ones. -/
def completePacket (part q index : Nat) (cookie ident : Word) (type status : Nat) (held : Bool) (s : State) : State :=
  (writeCompletion part q [cookie, ident, w64 (status * 2 ^ 16 + type * 2 ^ 8 + ofBool held), w64 index] s).mapQueue part q
    (fun x => Queue.settle { x with live := x.live.filter (fun p => p.1 != index) })

/-! ## Packets (R312) -/

/-- The fields of a packet. -/
def pktType (ws : List Word) : Nat := bits (nth ws 0 0).toNat 63 56
def pktObj (ws : List Word) : Nat := bits (nth ws 0 0).toNat 27 16

/-- The reserved fields of a packet are zero. -/
def pktReserved (ws : List Word) : Bool :=
  let w := fun (i : Nat) => (nth ws i 0).toNat
  let rest := fun (i : Nat) => (ws.drop i).all (fun v => v == 0)
  match pktType ws with
  | 1 => bits (w 0) 55 51 == 0 && bits (w 0) 39 38 == 0 && bits (w 0) 15 0 == 0
  | 2 => bits (w 0) 55 28 == 0 && bits (w 0) 15 0 == 0 && bits (w 3) 63 12 == 0
  | 3 => bits (w 0) 55 28 == 0 && bits (w 0) 15 0 == 0 && rest 2
  | 4 => bits (w 0) 55 0 == 0 && rest 2
  | _ => false

/-- The oldest fetched packet of a queue, where its words were read, has a type and is no launch. -/
def headPacket (s : State) (part q : Nat) : Option (Nat × List Word) :=
  match (s.queue part q).live with
  | (i, ws, none) :: _ => some (i, ws)
  | _ => none

/-- A packet that is no launch completes. -/
def finishPacket (part q i : Nat) (ws : List Word) (status : Nat) (s : State) : State :=
  completePacket part q i (nth ws 1 0) 0 (pktType ws) status false s

/-! ## Fetch (R309, R310, R370, R389, R393) -/

/-- An image that was restarted has not beaten since (R393). -/
def fetchPaused (s : State) : Bool :=
  match s.io.watch with
  | .first _ none => true
  | _ => false

/-- Queues of the device fetch: it has booted with a scheduler image (R389, R390), and no restart pauses them. -/
def fetchOn (s : State) : Bool := s.io.booted && !s.io.stopped && !s.io.nosched && !fetchPaused s

/-- PACKET_FETCH: the packet at SQRD, or OVERRUN.  A LAUNCH takes its launch number, by which launches stand in fetch order (R319). -/
def execPacketFetch (part q : Nat) (s : State) : Out :=
  let x := s.queue part q
  if 16 ≤ part ∨ 64 ≤ q ∨ (s.part part).tdi ≠ 2 ∨ fetchOn s = false ∨ x.state ≠ qACTIVE ∨ x.enable = false then .next s else
  let n := (x.sqwr - x.sqrd).toNat
  if ringEntries x.sqlog < n then
    .next (writeCompletion part q [0, 0, w64 (cQOVERRUN * 2 ^ 16), x.sqrd] (s.mapQueue part q (fun y => { y with state := qOVERRUN })))
  else if n = 0 ∨ ringEntries x.cqlog ≤ x.live.length + (x.cqwr - x.cqrd).toNat then .next s
  else
    let va := x.sqbase + w64 (64 * (x.sqrd.toNat % ringEntries x.sqlog))
    let r := readVirtual part .read [] 2 va 64 s
    let ws := match r.1.2 with | none => bytesWords 8 r.1.1 | some _ => []
    let l := if pktType ws = 1 then some r.2.nextLaunch else none
    .next ({ r.2 with nextLaunch := r.2.nextLaunch + 1 }.mapQueue part q (fun y =>
      { y with sqrd := y.sqrd + 1, live := y.live ++ [(x.sqrd.toNat, ws, l)] }))

/-- NOP_PACKET: the oldest packet of a queue is a NOP, a packet of no defined TYPE, or one that could not be read (log 19). -/
def execNopPacket (part q : Nat) (s : State) : Out :=
  match headPacket s part q with
  | none => .next s
  | some (i, ws) =>
    if pktType ws = 2 ∨ pktType ws = 3 then .next s else
    let status := if ws.isEmpty then cPROT else if pktType ws = 4 ∧ pktReserved ws = true then 0 else cILLOP
    .next (finishPacket part q i ws status s)

/-! ## Code objects (R313, R314) -/

/-- The identifiers and image addresses of a LOADOBJ's table; none where an entry is malformed or an identifier comes twice. -/
def objectTable : List Word → Option (Table Word)
  | i :: a :: rest =>
    match objectTable rest with
    | none => none
    | some t => if 2 ^ 16 ≤ i.toNat ∨ (Table.find i.toNat t).isSome = true then none else some (Table.set i.toNat a t)
  | _ => some []

/-- A queue gains its reference to an object. -/
def addReference (part q obj : Nat) (s : State) : State :=
  s.mapQueue part q (fun x => if x.refs.contains obj then x else { x with refs := x.refs ++ [obj] })

/-- The effect of a LOADOBJ, or none where it completes with ILLOP. -/
def loadObject (part q obj : Nat) (table : Table Word) (features : List Word) (s : State) : Option State :=
  let p := s.part part
  match Table.find obj p.objects with
  | some o =>
    if o.table = table ∧ o.features = features then
      some (addReference part q obj (s.setPart part { p with objects := Table.set obj { o with removing := false } p.objects }))
    else none
  | none =>
    if table.any (fun e => p.objects.any (fun o => (Table.find e.1 o.2.table).isSome)) then none
    else some (addReference part q obj (s.setPart part { p with objects := Table.set obj ⟨table, features, false⟩ p.objects }))

/-- LOADOBJ. -/
def execLoadobj (part q : Nat) (s : State) : Out :=
  match headPacket s part q with
  | none => .next s
  | some (i, ws) =>
    if pktType ws ≠ 2 then .next s else
    let n := bits (nth ws 3 0).toNat 11 0
    if !pktReserved ws || n == 0 then .next (finishPacket part q i ws cILLOP s) else
    let r := readVirtual part .read [] (16 * n / 4096 + 2) (nth ws 2 0) (16 * n) s
    match r.1.2 with
    | some _ => .next (finishPacket part q i ws cPROT r.2)
    | none =>
      match (objectTable (bytesWords (2 * n) r.1.1)).bind (fun t => loadObject part q (pktObj ws) t (ws.drop 4) r.2) with
      | some s1 => .next (finishPacket part q i ws 0 s1)
      | none => .next (finishPacket part q i ws cILLOP r.2)

/-- A queue of the partition refers to an object. -/
def referenced (s : State) (part obj : Nat) : Bool := (s.part part).queues.any (fun x => x.2.refs.contains obj)

/-- UNLOADOBJ: the queue's reference is dropped; without references the object waits to be removed. -/
def execUnloadobj (part q : Nat) (s : State) : Out :=
  match headPacket s part q with
  | none => .next s
  | some (i, ws) =>
    if pktType ws ≠ 3 then .next s else
    let obj := pktObj ws
    if !pktReserved ws || !(s.queue part q).refs.contains obj then .next (finishPacket part q i ws cILLOP s) else
    let s1 := s.mapQueue part q (fun x => { x with refs := x.refs.filter (fun o => o != obj) })
    let p := s1.part part
    let s2 := if referenced s1 part obj then s1 else
      match Table.find obj p.objects with
      | some o => s1.setPart part { p with objects := Table.set obj { o with removing := true } p.objects }
      | none => s1
    .next (finishPacket part q i ws 0 s2)

/-- A launch of the partition holds a handle of one of some identifiers (R314). -/
def handleHeld (s : State) (part : Nat) (idents : List Nat) : Bool :=
  s.launches.any (fun v => v.2.part == part && v.2.dies.any (fun d => d.2.handles.any (fun h => idents.contains h.2.ident)))

/-- What CFGINV drops of an identifier (R160). -/
def dropConfigs (part : Nat) (idents : List Nat) (s : State) : State :=
  { s with
    dieStore := s.dieStore.filter (fun d => !(d.2.1 == part && idents.contains d.2.2.1))
    ringCache := s.ringCache.filter (fun d => !(d.2.1 == part && idents.contains d.2.2.1)) }

/-- OBJECT_REMOVE. -/
def execObjectRemove (part obj : Nat) (s : State) : Out :=
  let p := s.part part
  match Table.find obj p.objects with
  | none => .next s
  | some o =>
    let ids := o.table.map (·.1)
    if !o.removing || referenced s part obj || handleHeld s part ids then .next s else
    .next (dropConfigs part ids (s.setPart part { p with objects := Table.erase obj p.objects }))

/-! ## The register block (R308, R310) -/

/-- Word w of a queue's register block as the host reads it: reserved fields and RESET read zero, and a WEIGHT of 0 reads 1. -/
def readQueueWord (w : Nat) (x : Queue) : Word :=
  match w with
  | 0 => x.sqbase
  | 1 => x.cqbase
  | 2 => w64 (max 1 x.weight * 2 ^ 32 + x.prio * 2 ^ 24 + x.cqlog * 2 ^ 8 + x.sqlog)
  | 3 => x.sqwr
  | 4 => x.sqrd
  | 5 => x.cqwr
  | 6 => x.cqrd
  | 7 => w64 (x.state * 16 + ofBool x.enable)
  | _ => 0

/-- A write of W7: RESET, then ENABLE. -/
def writeControl (v : Nat) (x : Queue) : Queue :=
  let y := { x with enable := bit v 0 }
  if bit v 1 then { y with state := qRESETTING }
  else if bit v 0 && x.state == qDISABLED then { y with state := qACTIVE }
  else y.settle

/-- A write of word w of a queue's register block. -/
def writeQueueWord (w : Nat) (v : Word) (x : Queue) : Queue :=
  match w with
  | 0 => if x.enable then x else { x with sqbase := v }
  | 1 => if x.enable then x else { x with cqbase := v }
  | 2 =>
    if x.enable then x else
    { x with weight := bits v.toNat 39 32, prio := bits v.toNat 26 24, cqlog := bits v.toNat 12 8, sqlog := bits v.toNat 4 0 }
  | 3 => { x with sqwr := v }
  | 6 => { x with cqrd := v }
  | 7 => writeControl v.toNat x
  | _ => x

/-- QUEUE_RESET_COMPLETE: every fetched packet is complete. -/
def execQueueResetComplete (part q : Nat) (s : State) : Out :=
  let x := s.queue part q
  if x.state ≠ qRESETTING ∨ x.live.isEmpty = false then .next s else
  .next (s.mapQueue part q (fun y => { y with sqrd := y.sqwr, state := if y.enable then qACTIVE else qDISABLED }))

end Sys2Proof.Machine
end

