-- ==== Sys2Proof/Machine/HostEv.lean ====
section
/-!
DEFINITION. What the host does through a partition's interface: register writes, invalidations, and accesses through the memory window
(R359 to R362, R364 to R367, R370 to R373, R376, R390, R394, R395, R399, R401).
-/

namespace Sys2Proof.Machine

open Sys2Proof

/-! ## Registers of BAR 0 (R365) -/

/-- A launch of the partition is placed (R365, R370). -/
def Launch.isPlaced (v : Launch) : Bool :=
  v.status == .placed || v.status == .halting || v.status == .halted || v.status == .saving

/-- The partition has a placed launch. -/
def partPlaced (s : State) (part : Nat) : Bool := s.launches.any (fun v => v.2.part == part && v.2.isPlaced)

/-- Clears the low n bits. -/
def maskLow (n : Nat) (v : Word) : Word := w64 (v.toNat / 2 ^ n * 2 ^ n)

/-- Changes a word of a pool table: two words per die. -/
def poolWord (bits : Nat) (w : Nat) (v : Word) (t : Table (Word × Word)) : Table (Word × Word) :=
  let old := Table.getD t (w / 2) (0, 0)
  Table.set (w / 2) (if w % 2 = 0 then (maskLow bits v, old.2) else (old.1, maskLow bits v)) t

/-- A write to the stream table: word 0 closes the stream and erases its key (R376); what it still had to acknowledge is lost (R379). -/
def writeStream (part i : Nat) (v : Word) (s : State) : State :=
  let p := s.part part
  let x : Stream := ⟨0, bits v.toNat 29 26, bits v.toNat 21 0, 0, 0, none⟩
  { (s.setPart part { p with streams := Table.set i x p.streams }) with
    outbound := s.outbound.map (fun w => if w.part = part ∧ w.stream = i then { w with failed := true } else w) }

/-- A write of the accepted set (R399): only while the TDI is CONFIG_UNLOCKED. -/
def writeAccept (part k : Nat) (v : Word) (s : State) : State :=
  let p := s.part part
  if p.tdi ≠ 0 ∨ 4 ≤ k then s else
  let w := v &&& nth Config.featOffer k 0
  s.setPart part { p with accept := p.accept.set k (if k = 0 then w ||| 1 else w) }

/-- Starts an invalidation (R371). -/
def startInvalidation (part : Nat) (seq : Word) (s : State) : State :=
  let p := s.part part
  s.setPart part { p with invals := p.invals ++ [⟨seq, p.invVa.toNat / 4096, p.invPages.toNat⟩] }

/-- A write of the partition control, invalidation, fault ring and watchdog registers. -/
def writePartWord (part off : Nat) (v : Word) (s : State) : State :=
  let p := s.part part
  match off with
  | 0x1080 => if partPlaced s part then s else s.setPart part { p with ptroot := w64 (bits v.toNat 51 12 * 4096) }
  | 0x1088 => s.setPart part { p with winbase := maskLow 40 v }
  | 0x1100 => s.setPart part { p with invVa := maskLow 12 v }
  | 0x1108 => s.setPart part { p with invPages := v }
  | 0x1110 => startInvalidation part v s
  | 0x1140 => s.setPart part { p with frBase := w64 (bits v.toNat 50 5 * 32) }
  | 0x1148 => s.setPart part { p with frLog := bits v.toNat 4 0 }
  | 0x1158 => s.setPart part { p with frRd := v }
  | 0x11A0 => if p.tdi = 0 then s.setPart part { p with limit := bits v.toNat 31 0 } else s
  | _ => s

/-- A write of a doubleword of BAR 0 takes effect.  The queue blocks refuse access but in RUN (R370); read-only and reserved words ignore
it. -/
def performRegister (part off : Nat) (v : Word) (s : State) : State :=
  let p := s.part part
  if off % 8 ≠ 0 then s
  else if off < 0x1000 then (if p.tdi = 2 then s.mapQueue part (off / 64) (writeQueueWord (off / 8 % 8) v) else s)
  else if 0x1180 ≤ off ∧ off < 0x11A0 then writeAccept part ((off - 0x1180) / 8) v s
  else if 0x1200 ≤ off ∧ off < 0x1280 then
    let w := (off - 0x1200) / 8
    if p.place.slots.any (fun z => z.1 == w / 2) then s else s.setPart part { p with pools := poolWord 21 w v p.pools }
  else if 0x1280 ≤ off ∧ off < 0x1300 then
    let w := (off - 0x1280) / 8
    if p.regions.any (fun r => r.2.home == w / 2) then s else s.setPart part { p with heaps := poolWord 16 w v p.heaps }
  else if 0x1400 ≤ off ∧ off < 0x3400 then s.setPart part { p with windows := Table.set ((off - 0x1400) / 8) (maskLow 40 v) p.windows }
  else if 0x3400 ≤ off ∧ off < 0x3800 then (if off % 16 = 0 then writeStream part ((off - 0x3400) / 16) v s else s)
  else writePartWord part off v s

/-! ## What the host reads of BAR 0 (R6, R308, R362, R365, R371, R372, R390, R395, R399) -/

/-- A word of a pool table. -/
def readPool (w : Nat) (t : Table (Word × Word)) : Word :=
  let e := Table.getD t (w / 2) (0, 0)
  if w % 2 = 0 then e.1 else e.2

/-- Word w of the inbound counter block (R362). -/
def readCounter (p : Partition) (w : Nat) : Word :=
  if w < 8 then Table.getD p.acks w 0 else if w = 8 then p.heldCnt else if w = 9 then p.drop else 0

/-- A word of the stream table (R376). -/
def readStream (p : Partition) (w : Nat) : Word :=
  match Table.find (w / 2) p.streams with
  | some x => if w % 2 = 0 then w64 (x.state * 2 ^ 62 + x.ppart * 2 ^ 26 + x.peer) else w64 x.txseq
  | none => 0

/-- The partition control, invalidation, fault ring, feature and watchdog registers; INVSEQ is write-only. -/
def readControl (p : Partition) (off : Nat) : Word :=
  match off with
  | 0x1080 => p.ptroot
  | 0x1088 => p.winbase
  | 0x1090 => w64 (ofBool p.assign.placeRight * 8 + p.tdi)
  | 0x1100 => p.invVa
  | 0x1108 => p.invPages
  | 0x1118 => p.invDone
  | 0x1140 => p.frBase
  | 0x1148 => w64 p.frLog
  | 0x1150 => p.frWr
  | 0x1158 => p.frRd
  | 0x11A0 => w64 p.limit
  | _ => 0

/-- The doubleword of a partition's BAR 0 at an 8-aligned offset; what is not listed, and every reserved field, reads zero. -/
def readPartWord (p : Partition) (off : Nat) : Word :=
  let w := off / 8
  if off < 0x1000 then readQueueWord (w % 8) (Table.getD p.queues (off / 64) Queue.blank)
  else if off < 0x1080 then readCounter p (w % 16)
  else if 0x1160 ≤ off ∧ off < 0x1180 then nth Config.featOffer (w % 4) 0
  else if 0x1180 ≤ off ∧ off < 0x11A0 then nth p.accept (w % 4) 0
  else if 0x1200 ≤ off ∧ off < 0x1280 then readPool (w % 16) p.pools
  else if 0x1280 ≤ off ∧ off < 0x1300 then readPool (w % 16) p.heaps
  else if 0x1400 ≤ off ∧ off < 0x3400 then Table.getD p.windows (w - 0x280) 0
  else if 0x3400 ≤ off ∧ off < 0x3800 then readStream p (w - 0x680)
  else readControl p off

/-- BOOTSTAT (R390): the model's states of a die count from 1, with 0 for a die that boot has not reached. -/
def bootstat (io : IoDie) : Word :=
  w64 (io.stage * 2 ^ 24 + ofBool io.nosched * 2 ^ 16
    + (List.range 8).foldl (fun t d => t + (Table.getD io.dieState d 0 - 1) * 4 ^ d) 0)

/-- Word k of an assignment block (R369). -/
def Assign.word (a : Assign) (k : Nat) : Word :=
  if k = 0 then w64 (a.xcode * 2 ^ 16 + ofBool a.placeRight * 2 ^ 10 + a.xbase)
  else if k ≤ 16 then Table.getD a.hbm (k - 1) 0
  else if k ≤ 24 then Table.getD a.dsm (k - 17) 0
  else 0

/-- The doubleword of the PF's BAR 0 at an 8-aligned offset (R369, R375, R390, R395). -/
def readPfWord (s : State) (off : Nat) : Word :=
  if off = 0 then s.io.devid.setWidth 64
  else if off = 8 then bootstat s.io
  else if 0x100 ≤ off ∧ off < 0x200 then
    let r := (off - 0x100) / 8
    w64 (Table.getD s.io.budgetIn r (ringBudget s r))
  else if 0x1000 ≤ off ∧ off < 0x2000 then (s.part ((off - 0x1000) / 256)).assign.word (off / 8 % 32)
  else 0

/-- Bytes of BAR 0 of a partition, or of the PF (16). -/
def readRegisters (part off len : Nat) (s : State) : List Byte :=
  (List.range len).map (fun i =>
    let at_ := off + i
    let w := if part < 16 then readPartWord (s.part part) (at_ / 8 * 8) else readPfWord s (at_ / 8 * 8)
    nth (leBytes 8 w.toNat) (at_ % 8) 0)

/-! ## Ordering at the I/O die (R359, R366) -/

/-- A TLP that is not of the partition's IDE stream with the T bit set; `req` carries the Requester ID in its low 16 bits, and such a TLP
has a bit above them (R370; log 20). -/
def foreign (req : Nat) : Bool := decide (2 ^ 16 ≤ req)

/-- A partition in RUN refuses the TLP (R370). -/
def refusesTlp (s : State) (part req : Nat) : Bool := (s.part part).tdi == 2 && foreign req

/-- A held write counts in HELD (R362). -/
def countHeld (part : Nat) (s : State) : State := s.setPart part { s.part part with heldCnt := (s.part part).heldCnt + 1 }

/-- A VF is there to be reached: the device has booted as far as that, and the number is one of 16 (R364, R389). -/
def vfOn (s : State) (part : Nat) : Bool := s.io.booted && !s.io.stopped && decide (part < 16)

/-- Two TLPs are of one requester: the Requester ID is the low 16 bits, and the T bit is no part of it (R359). -/
def sameRequester (a b : Nat) : Bool := a % 2 ^ 16 == b % 2 ^ 16

/-- The requester has an earlier write, among some, to another route. -/
def otherRoute (req : Nat) (route : Option Nat) (earlier : List Inbound) : Bool :=
  earlier.any (fun w => sameRequester w.req req && w.route != route)

/-- The requester has an earlier write, among some, that has not left yet on the route. -/
def unsentBefore (req : Nat) (route : Option Nat) (earlier : List Inbound) : Bool :=
  earlier.any (fun w => sameRequester w.req req && w.route == route && !w.sent)

/-- The route of register writes: the I/O die (R366). -/
def ioRoute : Option Nat := some 8

/-- A register write of a requester: it takes effect, or is held behind the requester's writes to compute dies. -/
def registerTlp (part req off : Nat) (v : Word) (s : State) : State :=
  if !vfOn s part || refusesTlp s part req then s
  else if otherRoute req ioRoute s.inbound || unsentBefore req ioRoute s.inbound then
    let s1 := if otherRoute req ioRoute s.inbound then countHeld part s else s
    { s1 with inbound := s1.inbound ++ [⟨part, req, ioRoute, 0, 0, leBytes 8 v.toNat, some off, false, true⟩] }
  else performRegister part off v s

/-- SQWR_WRITE. -/
def execSqwrWrite (part req q : Nat) (v : Word) (s : State) : Out := .next (registerTlp part req (64 * (q % 64) + 24) v s)

/-- QUEUE_ENABLE. -/
def execQueueEnable (part req q : Nat) (s : State) : Out := .next (registerTlp part req (64 * (q % 64) + 56) 1 s)

/-- QUEUE_DISABLE. -/
def execQueueDisable (part req q : Nat) (s : State) : Out := .next (registerTlp part req (64 * (q % 64) + 56) 0 s)

/-- QUEUE_RESET: RESET with ENABLE as it stands. -/
def execQueueReset (part req q : Nat) (s : State) : Out :=
  .next (registerTlp part req (64 * (q % 64) + 56) (if (s.queue part (q % 64)).enable then 3 else 2) s)

/-- INVALIDATION_START: a write of INVSEQ. -/
def execInvalidationStart (part req : Nat) (seq : Word) (s : State) : Out := .next (registerTlp part req 0x1110 seq s)

/-- FEATACCEPT_WRITE of word k. -/
def execFeatacceptWrite (part req k : Nat) (v : Word) (s : State) : Out := .next (registerTlp part req (0x1180 + 8 * (k % 4)) v s)

/-- STREAM_ENTRY_WRITE of word 0 of entry i. -/
def execStreamEntryWrite (part req i : Nat) (v : Word) (s : State) : Out := .next (registerTlp part req (0x3400 + 16 * (i % 64)) v s)

/-- The rings' budgets come into force at the next window boundary (R395). -/
def writeBudget (r : Nat) (v : Word) (s : State) : State :=
  { s with io := { s.io with budgetIn := Table.set r (max 1 (bits v.toNat 39 0)) s.io.budgetIn } }

/-- REGISTER_WRITE: a doubleword of a partition's BAR 0, or of the PF's energy budgets at BAR 0 offset 0x0100 (R366, R395). -/
def execRegisterWrite (part : Option Nat) (req off : Nat) (v : Word) (s : State) : Out :=
  match part with
  | some n => .next (registerTlp n req off v s)
  | none =>
    .next (if s.io.booted && !s.io.stopped && decide (0x100 ≤ off) && decide (off < 0x200) && off % 8 == 0
      then writeBudget ((off - 0x100) / 8) v s else s)

/-! ## Invalidations (R271, R371) -/

/-- A virtual address lies in the range of an invalidation. -/
def Invalidation.covers (i : Invalidation) (va : Nat) : Bool :=
  i.pages == 0 || (let p := va % 2 ^ 57 / 4096; let f := i.first % 2 ^ 45
    decide (f ≤ p) && decide (p < f + i.pages))

/-- A copy holds back bytes for a unit of the range (R287). -/
def CopyJob.tailUnder (c : CopyJob) (part : Nat) (i : Invalidation) : Bool :=
  match c.tail with
  | some (_, bs) =>
    let p := c.done - bs.length
    c.part == part && i.covers (c.dst + w64 (p / c.len) * c.dstride + w64 (p % c.len)).toNat
  | none => false

/-- Copies that cannot go on write what they hold back for a range (R271). -/
def releaseTails (part : Nat) (i : Invalidation) (s : State) : State :=
  (s.copies.filter (fun c => c.tailUnder part i)).foldl (fun t c => mapCopy c.id (fun x => { x with tail := none }) (flushTail c t)) s

/-- An access of the partition to the range has been translated and is not complete. -/
def accessUnderWay (s : State) (part : Nat) (i : Invalidation) : Bool :=
  s.posted.any (fun p => partOfThread s p.owner == part && i.covers p.va.toNat)
    || s.reds.any (fun p => partOfThread s p.owner == part && i.covers p.va.toNat)
    || s.flushes.any (fun j => !j.done && partOfMark s (match j.launch with | some l => l + 1 | none => 0) == part && i.covers j.addr.toNat)
    || s.wqueue.any (fun q => q.2.any (fun e => e.ops.any (fun p => ownsUnit s part p.pa && i.covers p.va.toNat)))
    || s.outbound.any (fun w => w.part == part && !w.failed && i.covers w.va)
    || s.inbound.any (fun w => w.part == part && w.reg.isNone && i.covers w.va)
    || s.allThreads.any (fun t => partOfThread s t.id == part && (match t.status with | .blocked (.bar va _ _) => i.covers va.toNat | _ => false))
    || s.copies.any (fun c => c.tailUnder part i && !c.frozen && !c.faulted)

/-- A held translation reaches into the range. -/
def Invalidation.drops (i : Invalidation) (part : Nat) (e : TlbEntry) : Bool :=
  e.part == part && (i.pages == 0 || (let f := i.first % 2 ^ 45 * 4096; decide (f < e.va + e.size) && decide (e.va < f + 4096 * i.pages)))

/-- INVALIDATION_COMPLETE: the oldest invalidation of a partition. -/
def execInvalidationComplete (part : Nat) (s : State) : Out :=
  let p := s.part part
  match p.invals with
  | [] => .next s
  | i :: rest =>
    if accessUnderWay s part i then .next s else
    let s1 := releaseTails part i s
    .next { s1.setPart part { p with invals := rest, invDone := i.seq } with tlb := s.tlb.filter (fun e => !i.drops part e) }

/-! ## The memory window: posted writes (R359 to R361) -/

/-- A window access that is not performed counts in DROP (R360, R365). -/
def countDrop (part : Nat) (s : State) : State := s.setPart part { s.part part with drop := (s.part part).drop + 1 }

/-- An inbound write that is not performed counts in DROP, once, and is reported where the fault ring has room (R360, R362, R372). -/
def dropInbound (part req : Nat) (va : Word) (cause : Nat) (s : State) : State :=
  let s1 := countDrop part s
  if noticeRoom s1 part then writeNotice part [0, va, w64 (cause * 256 + 2), w64 (req % 2 ^ 16)] s1 else s1

/-- The address of a window offset, where it lies in the virtual space (R365). -/
def windowVa (s : State) (part off : Nat) : Option Word :=
  let va := (s.part part).winbase + w64 off
  if off < 2 ^ 40 ∧ canonicalVa va = true then some va else none

/-- A window access of n bytes within a page translates to a compute die, or does not, with a cause and the faulting address (R359, R360); one
that meets a versioned region is refused (R175). -/
def windowPa (s : State) (part : Nat) (va : Word) (n : Nat) (c : Cls) : (Except (Nat × Word) Nat) × State :=
  match translateSpan s part va n c with
  | (.ok pa, s1) => (if onDevice pa then .ok pa else .error (cPROT, va), s1)
  | (.prot, s1) => (.error (cPROT, protAt s part va n), s1)
  | (.memerr, s1) => (.error (cMEMERR, va), noteMemerr part va s1)
  | (.fault _ _, s1) => (.error (cPGFAULT, va), s1)

/-- A TLP reaches the memory window of a VF with bytes that lie in one page. -/
def windowTlp (s : State) (part off n : Nat) : Bool := vfOn s part && decide (0 < n) && decide (off % 4096 + n ≤ 4096)

/-- The memory window takes a TLP: the TDI is in RUN, and the TLP is of its IDE stream with the T bit set (R370). -/
def windowTakes (s : State) (part req : Nat) : Bool := (s.part part).tdi == 2 && !foreign req

/-- INBOUND_WRITE: a posted write of a requester reaches the I/O die, which translates it, holds it or sends it on its route. -/
def execInboundWrite (part req off : Nat) (data : List Byte) (s : State) : Out :=
  if !windowTlp s part off data.length || decide (512 < data.length) || !windowTakes s part req then .next s else
  match windowVa s part off with
  | none => .next (dropInbound part req ((s.part part).winbase + w64 off) cPROT s)
  | some va =>
    match windowPa s part va data.length .write with
    | (.error (cause, at_), s1) => .next (dropInbound part req at_ cause s1)
    | (.ok pa, s1) =>
      let route := some (homeDie pa)
      let held := otherRoute req route s1.inbound
      let s2 := if held then countHeld part s1 else s1
      .next { s2 with inbound := s2.inbound ++ [⟨part, req, route, pa, va.toNat, data, none,
        !held && !unsentBefore req route s2.inbound, held⟩] }

/-- INBOUND_WRITE_RELEASE: the k-th inbound write leaves for its route; a register write takes effect. -/
def execInboundWriteRelease (k : Nat) (s : State) : Out :=
  match s.inbound[k]? with
  | none => .next s
  | some w =>
    let earlier := s.inbound.take k
    if w.sent || otherRoute w.req w.route earlier || unsentBefore w.req w.route earlier then .next s else
    match w.reg with
    | some off => .next (performRegister w.part off (w64 (leNat w.data)) { s with inbound := dropAt s.inbound k })
    | none => .next { s with inbound := s.inbound.set k { w with sent := true, held := false } }

/-- The party number of a requester of the host: its writes are ordered among themselves only (R359, R361). -/
def requesterParty (req : Nat) : Nat := hostParty + 1 + req % 2 ^ 16

/-- The bytes of a posted write of the host, with which an LDA at SYS scope that reads them synchronises: it is ordered after the
requester's writes performed before (R361). -/
def markInbound (req pa : Nat) (data : List Byte) (s : State) : State :=
  addRelease pa data 0 (16 * 5 + 15) (View.zero.add (requesterParty req) s.writeSeq) s

/-- INBOUND_WRITE_PERFORM: the k-th inbound write becomes visible at its die and is acknowledged. -/
def execInboundWritePerform (k : Nat) (s : State) : Out :=
  match s.inbound[k]? with
  | none => .next s
  | some w =>
    if !w.sent || (s.inbound.take k).any (fun v => sameRequester v.req w.req && v.route == w.route) then .next s else
    let n := w.data.length
    let s1 := settleLines w.pa n { s with inbound := dropAt s.inbound k }
    let d := w.route.getD 0
    let p := s1.part w.part
    let s2 := s1.setPart w.part { p with acks := Table.set d (Table.getD p.acks d 0 + 1) p.acks }
    match pokeOk 0 (requesterParty w.req) w.pa w.data (touchHeap w.pa s2) with
    | some s3 => .next (markInbound w.req w.pa w.data s3)
    | none => .next (dropInbound w.part w.req (w64 w.va) cMEMERR (noteMemerr w.part (w64 w.va) s2))

/-! ## Reads and AtomicOps (R364, R367) -/

/-- The host gets bytes back; none for an access that completes with an error. -/
def hostGets (bs : List Byte) (s : State) : State := { s with hostIn := bs :: s.hostIn }

/-- A read of BAR 0: in RUN of the partition's own TLPs only, and of its queue blocks in RUN only (R366, R370).  It waits for the
requester's earlier register writes (log 20). -/
def readBar0 (part req off len : Nat) (s : State) : Out :=
  if s.inbound.any (fun w => sameRequester w.req req && w.route == ioRoute) then .next s
  else if part < 16 ∧ (refusesTlp s part req = true ∨ (off < 0x1000 ∧ (s.part part).tdi ≠ 2)) then .next (hostGets [] s)
  else .next (hostGets (readRegisters part off len s) s)

/-- INBOUND_READ: offsets below 2^40 are the memory window's, where it is performed once every earlier write of the requester is
acknowledged (R359, R367); offset 2^40 + o is o of BAR 0, of the PF for partition 16 (log 20). -/
def execInboundRead (part req off len : Nat) (s : State) : Out :=
  if 2 ^ 40 ≤ off then
    (if s.io.booted = true ∧ s.io.stopped = false ∧ part ≤ 16 ∧ 0 < len ∧ len ≤ 4096 then readBar0 part req (off - 2 ^ 40) len s else .next s)
  else if !windowTlp s part off len || s.inbound.any (fun w => sameRequester w.req req) then .next s
  else if !windowTakes s part req then .next (hostGets [] s) else
  match windowVa s part off with
  | none => .next (hostGets [] (countDrop part s))
  | some va =>
    match windowPa s part va len .read with
    | (.error _, s1) => .next (hostGets [] s1)
    | (.ok pa, s1) =>
      let s2 := touchHeap pa (settleLines pa len s1)
      if readFails s2 pa len then .next (hostGets [] (noteMemerr part va s2)) else .next (hostGets (peek s2 pa len) s2)

/-- INBOUND_ATOMIC: FetchAdd (op 0), Swap (1) or CAS (2) of 4 or 8 bytes, performed at its home at SYS scope (R136, R364). -/
def execInboundAtomic (part req off bytes op : Nat) (operand compare : Word) (s : State) : Out :=
  if !windowTlp s part off bytes || s.inbound.any (fun w => sameRequester w.req req) then .next s
  else if !windowTakes s part req ∨ (bytes ≠ 4 ∧ bytes ≠ 8) ∨ 2 < op ∨ off % bytes ≠ 0 then .next (hostGets [] s) else
  match windowVa s part off with
  | none => .next (hostGets [] (countDrop part s))
  | some va =>
    match windowPa s part va bytes .rw with
    | (.error _, s1) => .next (hostGets [] s1)
    | (.ok pa, s1) =>
      let s2 := touchHeap pa (settleLines pa bytes s1)
      if readFails s2 pa bytes then .next (hostGets [] (noteMemerr part va s2)) else
      let old := peek s2 pa bytes
      let aop := match op with | 0 => 1 | 1 => 9 | _ => 10
      let low := fun (w : Word) => w.toNat % 2 ^ (8 * bytes)
      .next (hostGets old (poke 0 (requesterParty req) pa (leBytes bytes (aopApply aop bytes (leNat old) (low operand) (low compare))) s2))

end Sys2Proof.Machine
end

