-- ==== Sys2Proof/Machine/LaunchEv.lean ====
section
/-!
DEFINITION. Launches: checks, placement, completion, and the launch watchdog (R312, R315 to R319, R394).
-/

namespace Sys2Proof.Machine

open Sys2Proof

/-! ## Checks (R315) -/

/-- XEXT of a code. -/
def extentOf (code : Nat) : Nat := 4 * 2 ^ code

/-- The partition holds stripes: a block with every field zero holds none (R369). -/
def Assign.holds (a : Assign) : Bool :=
  a.xcode != 0 || a.xbase != 0 || a.hbm.any (fun w => w.2 != 0) || a.dsm.any (fun w => w.2 != 0)

/-- The stripes of a partition: first, and how many. -/
def Assign.stripes (a : Assign) : Nat × Nat := (a.xbase, if a.holds then extentOf a.xcode else 0)

/-- The first check: fields in range and aligned, reserved fields zero. -/
def launchFieldsOk (ws : List Word) : Bool :=
  let w := fun (i : Nat) => (nth ws i 0).toNat
  let xreq := bits (w 0) 37 28
  let stk := bits (w 6) 31 0
  pktReserved ws && bits (w 0) 47 46 != 3 && (xreq == 0x3FF || (decide (xreq < 512) && xreq % extentOf (bits (w 0) 45 43) == 0))
    && w 2 % 4 == 0 && w 5 % 65536 == 0 && w 7 % 65536 == 0
    && stk % 4096 == 0 && decide (4096 ≤ stk) && decide (stk ≤ 131072) && decide (bits (w 6) 63 32 ≤ 256)

/-- A feature set lies within another. -/
def setWithin (a b : List Word) : Bool := (List.range 4).all (fun k => nth a k 0 &&& ~~~(nth b k 0) == 0)

/-- The status of the checks of a LAUNCH, in their order; 0 where it may be placed. -/
def launchStatus (s : State) (part q : Nat) (ws : List Word) : Nat :=
  let p := s.part part
  let w0 := (nth ws 0 0).toNat
  let ext := extentOf (bits w0 45 43)
  let xreq := bits w0 37 28
  let has := p.assign.stripes
  if !launchFieldsOk ws then cILLOP
  else if !(s.queue part q).refs.contains (pktObj ws) then cILLOP
  else if !setWithin (match Table.find (pktObj ws) p.objects with | some o => o.features | none => []) p.accept then cFEATOFF
  else if bit w0 49 && !p.assign.placeRight then cPRIV
  else if decide (has.2 < ext) || (xreq != 0x3FF && !(decide (has.1 ≤ xreq) && decide (xreq + ext ≤ has.1 + has.2))) then cILLOP
  else if p.memKey = none then cPROT
  else 0

/-- The launch of a packet that passed its checks. -/
def launchOf (part q : Nat) (index : Nat) (ws : List Word) : Launch :=
  let w := fun (i : Nat) => nth ws i 0
  let w0 := (w 0).toNat
  { part := part, queue := q, index := w64 index, cookie := w 1, ident := 0, obj := pktObj ws, entry := w 2, arg := w 3, faultH := w 4,
    fmode := bits w0 47 46, trapHold := bit w0 50, placeCtl := bit w0 49, overlap := bit w0 48, xreq := bits w0 37 28, xbase := 0,
    xext := extentOf (bits w0 45 43), rootDie := bits w0 42 40, svcBase := w 5, stkBase := w 7, stkSize := bits (w 6).toNat 31 0,
    ovfSize := bits (w 6).toNat 63 32, phase := 0, frozenT := none, nextTicket := 1, status := .checked, result := 0, held := false, heldOwed := false,
    preempt := [], placedAt := 0, savedFor := 0, digest := none, dies := [] }

/-- The launch has reached its last placement (R318). -/
def lastPlacement (s : State) (l : Nat) : Bool :=
  match Table.find l s.launches with
  | some v =>
    v.status == .placed && (s.threadsOf l).all (fun t => match t.status with | .blocked (.segwait _ _ _) => true | _ => false)
      && s.runs.all (fun r => r.2.launch != l || r.2.status == .running || r.2.status == .ended)
  | none => false

/-- The first fetched LAUNCH of a queue that has not been checked, with what stands before it. -/
def nextLaunchPacket (s : State) (part q : Nat) : Option (List (Nat × List Word × Option Nat) × Nat × List Word × Nat) :=
  let live := (s.queue part q).live
  let fresh := fun (p : Nat × List Word × Option Nat) => match p.2.2 with | some l => (Table.find l s.launches).isNone | none => false
  match live.find? fresh with
  | some (i, ws, some l) => some (live.takeWhile (fun p => !fresh p), i, ws, l)
  | _ => none

/-- A LAUNCH with packet index i may start, given the packets of its queue before it that are not complete (R318): with OVERLAP it waits for
the last placement of the launch just before it alone, which where that one is complete is past. -/
def mayStart (s : State) (before : List (Nat × List Word × Option Nat)) (i : Nat) (overlap : Bool) : Bool :=
  match before.getLast? with
  | none => true
  | some (j, _, some l) => overlap && (if j + 1 = i then lastPlacement s l else true)
  | some (_, _, none) => false

/-- A checked launch may still start (R318). -/
def startsNow (s : State) (v : Launch) : Bool :=
  mayStart s ((s.queue v.part v.queue).live.takeWhile (fun p => p.1 != v.index.toNat)) v.index.toNat v.overlap

/-- LAUNCH: the next launch packet of a queue that may start is checked; it waits for its rectangle, or completes with a status. -/
def execLaunch (part q : Nat) (s : State) : Out :=
  match nextLaunchPacket s part q with
  | none => .next s
  | some (before, i, ws, l) =>
    if !mayStart s before i (bit (nth ws 0 0).toNat 48) || (s.part part).tdi != 2 then .next s else
    let st := launchStatus s part q ws
    if st ≠ 0 then .next (finishPacket part q i ws st s) else .next (s.setLaunch l (launchOf part q i ws))

/-! ## Placement (R315, R316, R319) -/

/-- Two ranges of stripes meet. -/
def stripesMeet (a n b m : Nat) : Bool := decide (a < b + m) && decide (b < a + n)

/-- The rectangle is free and lies on AVAILABLE dies (R315, R391). -/
def rectFree (s : State) (x n : Nat) : Bool :=
  s.launches.all (fun v => !v.2.isPlaced || !stripesMeet x n v.2.xbase v.2.xext)
    && (List.range 8).all (fun d => available s d || !stripesMeet x n (64 * d) 64)

/-- Where a checked launch goes now; none while it waits. -/
def rectangleFor (s : State) (v : Launch) : Option Nat :=
  if v.xreq ≠ 0x3FF then (if rectFree s v.xreq v.xext then some v.xreq else none) else
  let has := (s.part v.part).assign.stripes
  ((List.range (has.2 / v.xext)).map (fun i => has.1 + i * v.xext)).find? (fun x => rectFree s x v.xext)

/-- The launch comes before another in the order of R319. -/
def placedFirst (s : State) (a b : Nat × Launch) : Bool :=
  decide (launchPrio s b.2 < launchPrio s a.2) || (launchPrio s a.2 == launchPrio s b.2 && decide (a.1 < b.1))

/-- The launch that a queue's next LAUNCH packet will be, where R318 allows it to start and it passes its checks. -/
def arriving (s : State) (part q : Nat) : Option (Nat × Launch) :=
  match nextLaunchPacket s part q with
  | none => none
  | some (before, i, ws, l) =>
    if mayStart s before i (bit (nth ws 0 0).toNat 48) && (s.part part).tdi == 2 && launchStatus s part q ws == 0 then
      some (l, launchOf part q i ws)
    else none

/-- Every launch that R318 allows to start and that is not placed: those checked, and those whose check is still to come. -/
def startable (s : State) : List (Nat × Launch) :=
  s.launches.filter (fun w => w.2.status == .checked && startsNow s w.2)
    ++ s.parts.flatMap (fun p => p.2.queues.filterMap (fun q => arriving s p.1 q.1))

/-- The physical pages of a range of the partition, where every page lies where a test asks; with `rw`, it may be read and written too
(R316). -/
def rangePages (s : State) (part base size : Nat) (rw : Bool) (ok : Loc → Bool) : Option (List Nat) :=
  (List.range (size / 4096)).foldr (fun i acc =>
    match acc with
    | none => none
    | some ps =>
      let va := base + 4096 * i
      if !inSpace va then none else
      match walk s part (va % 2 ^ 57) with
      | .leaf e =>
        let pa := e.pa + (va % 2 ^ 57 - e.va)
        if (!rw || (e.r && e.w)) && ok (locOf pa) then some (pa :: ps) else none
      | _ => none) (some [])

/-- Die shared memory, or HBM, of a die. -/
def inDsm (d : Nat) : Loc → Bool
  | .dsm e _ => e == d
  | _ => false
def inHbm (d : Nat) : Loc → Bool
  | .hbm j _ => j / 2 == d
  | _ => false

/-- The start of the stack window of a core (R316). -/
def stackWindow (v : Launch) (core : Nat) : Nat := v.stkBase.toNat + core * (65536 + 4096 * v.ovfSize + v.stkSize)

/-- The windows of a core are where R316 wants them. -/
def coreWindowOk (s : State) (v : Launch) (core : Nat) : Bool :=
  let ovf := stackWindow v core + 65536
  (rangePages s v.part ovf (4096 * v.ovfSize) false (inHbm (core / 8))).isSome
    && (rangePages s v.part (ovf + 4096 * v.ovfSize) v.stkSize true (inDsm (core / 8))).isSome

/-- The service areas, by die; none where one of them or a stack window is not where it has to be. -/
def launchWindows (s : State) (v : Launch) : Option (Table (List Nat)) :=
  if !(launchCores v).all (coreWindowOk s v) then none else
  ((List.range 8).filter (launchHasDie v)).foldr (fun d acc =>
    match acc, rangePages s v.part (v.svcBase.toNat + 65536 * d) 65536 true (inDsm d) with
    | some t, some ps => some (Table.set d ps t)
    | _, _ => none) (some [])

/-- The stripe buffers and the ring windows of a rectangle read zero (R253). -/
def zeroBuffers (x n : Nat) (s : State) : State :=
  let outside := fun (a : Nat) => decide (a < x * 262144) || decide ((x + n) * 262144 ≤ a)
  { s with
    stripeBuf := s.stripeBuf.filter (fun c => outside c.1)
    ringBuf := s.ringBuf.filter (fun c => outside c.1)
    errors := s.errors.filter (fun e => e.1 == 0 || outside e.2) }

/-- A core's state for a launch at its placement (R28, R316, R334). -/
def launchCtx (v : Launch) (core : Nat) : CoreCtx :=
  let ovf := stackWindow v core + 65536
  { CoreCtx.blank with stkOvf := w64 ovf, stkBase := w64 (ovf + 4096 * v.ovfSize), stkSize := w64 v.stkSize }

/-- The launch is placed at a rectangle, with its windows. -/
def placeLaunch (l : Nat) (v : Launch) (svc : Table (List Nat)) (s : State) : State :=
  let p := s.part v.part
  let v1 := { v with
    status := .placed, placedAt := s.time, ident := w64 (v.part * 2 ^ 32 + p.placedCnt % 2 ^ 32)
    dies := Table.mapVals (fun _ ps => { LaunchDie.blank with svc := ps }) svc }
  let s1 := (zeroBuffers v.xbase v.xext (s.setPart v.part { p with placedCnt := p.placedCnt + 1 })).setLaunch l v1
  let s2 := (launchCores v).foldl (fun t c => t.setCtx (some l) c (launchCtx v c)) s1
  createThread l v.rootDie false 0 v.entry v.arg 0 0 true (presentView s2 l) View.zero s2

/-- The packet of a launch completes, where its entry has not been written. -/
def endPacket (v : Launch) (status : Nat) (held : Bool) (s : State) : State :=
  if (s.queue v.part v.queue).live.any (fun p => p.1 == v.index.toNat) then
    completePacket v.part v.queue v.index.toNat v.cookie v.ident 1 status held s
  else s

/-- A launch that cannot be placed completes with a status. -/
def failLaunch (l : Nat) (v : Launch) (status : Nat) (s : State) : State :=
  endPacket v status false { s with launches := Table.erase l s.launches }

/-- LAUNCH_PLACEMENT, its walks served after the pending reductions (R258): the rectangle of a launch that R318 still allows to start is free, and no launch that comes before it fits (R319). -/
def execLaunchPlacement (launch : Nat) (s : State) : Out :=
  match Table.find launch s.launches with
  | none => .next s
  | some v =>
    if v.status ≠ .checked ∨ (s.part v.part).tdi ≠ 2 ∨ startsNow s v = false then .next s else
    match rectangleFor s v with
    | none => .next s
    | some x =>
      if (startable s).any (fun w => placedFirst s w (launch, v) && (rectangleFor s w.2).isSome) then .next s else
      let u := { v with xbase := x }
      if !launchHasDie u v.rootDie then .next (failLaunch launch v cILLOP s) else
      let s1 := settleQueues s
      match launchWindows s1 u with
      | none => .next (failLaunch launch v cPROT s1)
      | some svc => .next (placeLaunch launch u svc s1)

/-! ## Completion (R317, R326) -/

/-- A posted reduction of an operator to memory of the launch's partition waits in a write queue. -/
def operWrites (s : State) (v : Launch) : Bool :=
  s.wqueue.any (fun q => q.2.any (fun e => e.ops.any (fun r => decide (2 ^ 40 ≤ r.owner) && ownsUnit s v.part r.pa)))

/-- A continuation of the launch has a posted access to perform. -/
def threadWrites (s : State) (l : Nat) : Bool :=
  s.posted.any (fun p => markOf s p.owner == l + 1) || s.reds.any (fun r => markOf s r.owner == l + 1)
    || s.wqueue.any (fun q => q.2.any (fun e => e.ops.any (fun r => markOf s r.owner == l + 1)))

/-- Everything that the launch did has ended (R317): its continuations, which performed their posted accesses as they exited (log 40), its
runs, copies, signals and faults, and what its operators and windows posted. -/
def launchDone (s : State) (l : Nat) (v : Launch) : Bool :=
  (s.threadsOf l).isEmpty && s.runs.all (fun r => r.2.launch != l || r.2.status == .ended)
    && s.copies.all (fun c => c.launch != l || c.placement.isSome) && s.flushes.all (fun j => j.launch != some l)
    && s.faults.all (fun f => f.launch != l) && v.dies.all (fun d => d.2.slots.isEmpty)
    && s.outbound.all (fun w => w.launch != l + 1 || w.failed) && s.segLoads.all (fun j => j.launch != l)
    && !threadWrites s l && !operWrites s v

/-- The placement records that wait for a launch of a partition are discarded (R317); its continuations, which would get others, are gone. -/
def dropReports (part l : Nat) (s : State) : State :=
  s.mapPlace part (fun p => { p with owed := p.owed.filter (fun a => a.launch != some l) })

/-- Delivers the KIND 0x05 records of the PREEMPTs of a launch. -/
def reportPreempts (l : Nat) (v : Launch) (s : State) : State :=
  (v.preempt.foldl (fun t p => deliver p.1 p.2.1 5 p.2.2.toNat 0 0 v.ident 0 t) s).mapLaunch l (fun x => { x with preempt := [] })

/-- The launch is gone: its runs, records, epochs and core state with it, and the marks of its runs on the replica table (R348).  A PREEMPT of it that has no record
yet gets its record (R185, R327). -/
def eraseLaunch (l : Nat) (s0 : State) : State :=
  let s := match Table.find l s0.launches with | some v => reportPreempts l v s0 | none => s0
  let part := match Table.find l s.launches with | some v => v.part | none => 16
  let gone : State := { dropReports part l s with
    launches := Table.erase l s.launches
    runs := s.runs.filter (fun r => r.2.launch != l)
    ctxs := s.ctxs.filter (fun c => c.1 / 128 != l + 1)
    epochs := s.epochs.filter (fun e => e.1 / 2 ^ 48 != l + 1)
    probes := s.probes.filter (fun p => p.launch != l)
    outbound := s.outbound.filter (fun w => w.launch != l + 1)
    copies := s.copies.filter (fun c => c.launch != l || c.placement.isSome) }
  refloorTable part gone

/-- The completion entry of a launch that is held, with HELD = 1 (R326). -/
def reportHeldEntry (l : Nat) (v : Launch) (s : State) : State :=
  endPacket v v.result true (s.mapLaunch l (fun x => { x with heldOwed := false }))

/-- LAUNCH_COMPLETE: the entry of a launch that has ended; for one that is held, its entry alone (R326). -/
def execLaunchComplete (launch : Nat) (s : State) : Out :=
  match Table.find launch s.launches with
  | none => .next s
  | some v =>
    if v.heldOwed && v.status != .halting then .next (reportHeldEntry launch v s)
    else if (v.status == .placed || (v.status == .halting && !v.held && v.result != 0)) && launchDone s launch v then
      .next (endPacket v v.result false (eraseLaunch launch s))
    else .next s

/-! ## The launch watchdog (R394) -/

/-- LAUNCH_WATCHDOG_EXPIRY. -/
def execLaunchWatchdogExpiry (launch : Nat) (s : State) : Out :=
  match Table.find launch s.launches with
  | none => .next s
  | some v =>
    let limit := (s.part v.part).limit
    if limit = 0 ∨ v.isPlaced = false ∨ s.time < v.placedAt + limit * 1000000 then .next s
    else .next (haltLaunchAs launch cTIMEOUT false s)

end Sys2Proof.Machine
end

