-- ==== Sys2Proof/Machine/Ctx.lean ====
section
/-!
DEFINITION. Pre-emption, the context image, saving and restoring (R327 to R331).
-/

namespace Sys2Proof.Machine

open Sys2Proof

/-! ## The end of a halt (R327) -/

/-- Every party of a launch has halted. -/
def haltOver (s : State) (l : Nat) : Bool :=
  (s.threadsOf l).all (fun t => match t.status with | .running _ => false | .blocked _ => false | _ => true)
    && s.runs.all (fun r => r.2.launch != l || r.2.status == .halted || r.2.status == .ended)

/-- PREEMPT_HALTED: every party of the launch has halted; the probes that it sent in the meantime are discarded. -/
def execPreemptHalted (launch : Nat) (s : State) : Out :=
  match Table.find launch s.launches with
  | none => .next s
  | some v =>
    if v.status = .halted then .next (reportPreempts launch v s)
    else if v.status ≠ .halting ∨ haltOver s launch = false then .next s
    else
      let s1 := dropProbes launch (cancelFaults launch s)
      let s2 := if v.held || v.result == 0 then s1.mapLaunch launch (fun x => { x with status := .halted }) else s1
      .next (reportPreempts launch v s2)

/-! ## The context image (R330) -/

/-- The feature bit that a format code makes live (R400). -/
def codeLive (c : Nat) : Nat := if c = 0xD then 8 else if c = 0xB ∨ c = 0xC then 16 else 0

/-- The feature bits that an element makes live: formats, slice and tiles. -/
def elemLive (e : Elem) : Nat :=
  let slice := if e.slice.isEmpty then 0 else codeLive e.wfmt
  e.tiles.foldl (fun m t => Nat.lor m (codeLive t.2.type)) (Nat.lor slice (codeLive e.afmt))

/-- The feature bit that an abandoned instruction makes live: a version operation, LDM or STM. -/
def instLive (w : BitVec 32) : Nat :=
  let maj := bits w.toNat 31 26
  if maj = 0x28 then 2 else if maj = 0x0D ∨ maj = 0x0E then 32 else 0

/-- The kinds of the operators of a run whose state its ring's store keeps. -/
def evictedKinds (r : Run) : List Nat :=
  r.saved.flatMap (fun v => v.2.ops.filterMap (fun o =>
    (r.image.stripes[v.1]?).bind (fun im => (Table.find o.1 im.ops).map (·.kind))))

/-- The live features of a launch (R330, R400). -/
def liveFeatures (s : State) (l : Nat) : Nat :=
  let xs := launchStripes s l
  let ops := xs.flatMap (fun p => p.2.image.ops.map (fun o => o.2.kind))
  let kept := (s.runs.filter (fun r => r.2.launch == l)).flatMap (fun r => evictedKinds r.2)
  let els := xs.flatMap (fun p => p.2.elems.map (fun e => e.2))
  let insts := (s.threadsOf l).filter (fun t => t.status == .stopped)
  Nat.lor (insts.foldl (fun m t => Nat.lor m (instLive t.inst)) 0) (Nat.lor (if (ops ++ kept).any (fun k => k == 5 || k == 6) then 2 else 0)
    (Nat.lor (if ops.contains 11 then 4 else 0) (els.foldl (fun m e => Nat.lor m (elemLive e)) 0)))

/-- The directory from an offset on. -/
def directory : List ((Nat × Nat) × List Byte) → Nat → List Word
  | [], _ => []
  | (k, bs) :: rest, off => w64 (k.2 * 2 ^ 16 + k.1) :: w64 (bs.length * 2 ^ 32 + off % 2 ^ 32) :: directory rest (off + bs.length)

/-- The header of an image of a number of sections and a size, with a digest. -/
def imageHeader (v : Launch) (count size live : Nat) (digest : List Byte) : List Byte :=
  wordBytes [w64 (2 ^ 48 + count), w64 size, v.ident, w64 (Nat.log2 (v.xext / 4) * 2 ^ 13 + v.xbase), w64 live, 0, 0, 0]
    ++ digest ++ List.replicate 16 0

/-- An image and its digest. -/
def contextImage (s : State) (l : Nat) (v : Launch) (n : Nat) : List Byte × List Byte :=
  let secs := sectionList s l v n
  let live := liveFeatures s l
  let size := imageSize (sectionSizes s l v)
  let rest := wordBytes (directory secs (128 + 16 * secs.length)) ++ secs.flatMap (·.2)
  let digest := sha384 (imageHeader v secs.length size live (List.replicate 48 0) ++ rest)
  (imageHeader v secs.length size live digest ++ rest, digest)

/-! ## CTXSAVE (R328, R329) -/

/-- The cells of a list that lie in a launch's rectangle of buffers. -/
def rectCells (v : Launch) (inside : Bool) (m : List Host.Cell) : List Host.Cell :=
  m.filter (fun c => (decide (v.xbase * 262144 ≤ c.1) && decide (c.1 < (v.xbase + v.xext) * 262144)) == inside)

/-- The rectangle, the control-core state and the ring state stores are released. -/
def releaseContext (l : Nat) (v : Launch) (digest : List Byte) (s : State) : State :=
  let xs := launchStripes s l
  let ctx : SavedContext := ⟨xs, rectCells v true s.stripeBuf, rectCells v true s.ringBuf⟩
  let s1 := { s with
    saved := Table.set l ctx s.saved
    stripes := s.stripes.filter (fun p => (Table.find p.1 xs).isNone)
    stripeBuf := rectCells v false s.stripeBuf
    ringBuf := rectCells v false s.ringBuf }
  s1.mapLaunch l (fun x => { x with status := .saved, digest := some digest, savedFor := s.time - x.placedAt })

/-- A buffer of the rectangle holds a unit in error. -/
def rectError (s : State) (v : Launch) : Bool :=
  s.errors.any (fun e => e.1 != 0 && decide (v.xbase * 262144 ≤ e.2) && decide (e.2 < (v.xbase + v.xext) * 262144))

/-- The end of a CTXSAVE: its job is gone and its record delivered. -/
def endCtx (j : CtxJob) (ident : Word) (status size : Nat) (s : State) : State :=
  deliver j.core j.owner 6 j.ticket.toNat status 0 ident (w64 size)
    { s with ctxJobs := s.ctxJobs.filter (fun k => !(k.restore == j.restore && k.launch == j.launch && k.ticket == j.ticket && k.core == j.core)) }

/-- CTXSAVE_COMPLETE: the oldest CTXSAVE of a launch; ILLOP where the launch has ended since (log 13). -/
def execCtxsaveComplete (launch : Nat) (s : State) : Out :=
  match s.ctxJobs.find? (fun j => !j.restore && j.launch == launch) with
  | none => .next s
  | some j =>
    match Table.find launch s.launches with
    | none => .next (endCtx j j.ident cILLOP j.size s)
    | some v =>
      let (n, s0) := draw s
      let size := imageSize (sectionSizes s launch v)
      if j.addr = 0 then .next (endCtx j v.ident 0 size s0)
      else if v.status ≠ .saving then .next (endCtx j v.ident cILLOP size s0)
      else
        let back := fun (t : State) => t.mapLaunch launch (fun x => { x with status := .halted })
        if rectError s v then .next (endCtx j v.ident cMEMERR size (back s0)) else
        let image := contextImage s launch v n
        let r := writeVirtual v.part (size / 4096 + 2) j.addr image.1 s0
        match r.1 with
        | some cause => .next (endCtx j v.ident cause size (back r.2))
        | none => .next (endCtx j v.ident 0 size (releaseContext launch v image.2 r.2))

/-! ## CTXREST (R331) -/

/-- What an image at an address is: a saved launch's, with the status of the checks and its size; or another's, with the status and what its
header names. -/
inductive ImageFound where
  | none (status : Nat) (ident : Word) (size : Nat)
  | saved (l : Nat) (v : Launch) (status size : Nat)
  deriving DecidableEq

/-- The live features of a header are offered and accepted. -/
def liveAccepted (accept : List Word) (head : List Byte) : Bool :=
  let live := bytesWords 4 (head.drop 32)
  setWithin live accept && setWithin live Config.featOffer

/-- REV of a header is supported. -/
def revGood (head : List Byte) : Bool := leNat ((head.drop 6).take 2) == 1

/-- The digest of an image that can be read throughout is not that of its bytes. -/
def digestWrong (bs : List Byte) : Bool :=
  sha384 (bs.take 64 ++ List.replicate 48 0 ++ bs.drop 112) != (bs.drop 64).take 48

/-- The checks of an image whose header names a saved launch, in their order (R331); a body that is not mapped has no digest, and one in
error still has its header's. -/
def checkImage (l : Nat) (v : Launch) (addr : Word) (head : List Byte) (s : State) : ImageFound × State :=
  let size := leNat ((head.drop 8).take 8)
  if !revGood head then (.saved l v cILLOP size, s) else
  let r := readVirtual v.part .read [] (size / 4096 + 2) addr size s
  let broken := match r.1.2 with
    | none => digestWrong r.1.1
    | some (cause, _) => cause != cMEMERR
  if v.digest ≠ some ((head.drop 64).take 48) ∨ broken = true then (.saved l v cPROT size, r.2)
  else if !liveAccepted (s.part v.part).accept head then (.saved l v cCTXFEAT size, r.2)
  else (.saved l v (if r.1.2.isSome then cMEMERR else 0) size, r.2)

/-- The identifier and the image size that a header names (R330). -/
def headNames (head : List Byte) : Word × Nat := (w64 (leNat ((head.drop 16).take 8)), leNat ((head.drop 8).take 8))

/-- How a CTXREST ends where no saved launch's image stands at an address, tried through the translation of every partition: PROT where there is a
header of a supported revision, else ILLOP where there is another, with what the first such header names; without a header MEMERR where one
cannot be read, else PROT, and zeros (log 13). -/
def imageLost (addr : Word) (s : State) : Nat × Word × Nat :=
  let tries := (List.range 16).map (fun p => (readVirtual p .read [] 2 addr 128 s).1)
  let heads := (tries.filter (fun t => t.2.isNone)).map (·.1)
  match heads.find? revGood, heads with
  | some h, _ => (cPROT, headNames h)
  | none, h :: _ => (cILLOP, headNames h)
  | none, [] => (if tries.any (fun t => match t.2 with | some (cause, _) => cause == cMEMERR | none => false) then cMEMERR else cPROT, 0, 0)

/-- Finds the saved launch whose image stands at an address, read through each one's partition (log 13). -/
def findImage (addr : Word) : Table Launch → State → ImageFound × State
  | [], s => (let x := imageLost addr s; .none x.1 x.2.1 x.2.2, s)
  | (l, v) :: rest, s =>
    if v.status ≠ .saved then findImage addr rest s else
    let r := readVirtual v.part .read [] 2 addr 128 s
    if r.1.2.isNone ∧ leNat ((r.1.1.drop 16).take 8) = v.ident.toNat then checkImage l v addr r.1.1 r.2 else findImage addr rest r.2

/-- A stripe takes its configuration again by identifier (R331); where it cannot be had, it keeps the one it held (log 13). -/
def reconfigure (part : Nat) (s : State) (p : Nat × Stripe) : State :=
  match p.2.run.bind (fun r => Table.find r s.runs), p.2.vs with
  | some r, some k =>
    (match loadConfig p.1 part r k s with
    | (.ok im, s1) => s1.mapStripe p.1 (fun st => { st with image := im })
    | (.error _, s1) => s1)
  | _, _ => s

/-- Units that had trapped go on, and their traps are forgotten. -/
def Stripe.resumed (st : Stripe) : Stripe :=
  { st with
    elems := Table.mapVals (fun _ (e : Elem) => { e with faulted := none }) st.elems
    ops := Table.mapVals (fun _ (o : Oper) => { o with faulted := none, parked := false }) st.ops }

/-- A run that was kept halted goes on, or, where SEGSTOP asked for it, still has to stop. -/
def Run.resumed (r : Run) : Run :=
  if r.status ≠ .halted then r
  else if r.haltCause = some cSTOPPED then { r with status := .stopping } else { r with status := .running, haltCause := none }

/-- Every section of a saved launch is restored (R331): its buffers whole, its stripes, runs, copies and continuations; the entry and the
records that waited for it follow (R326, R327). -/
def restoreContext (l : Nat) (v : Launch) (ctx : SavedContext) (sv : State) : State :=
  let s := if v.heldOwed then reportHeldEntry l v sv else sv
  let merge := fun (a b : List Host.Cell) => b.foldl (fun m c => cellPut 0 c.1 c.2 m) a
  let held := fun (t : Table Stripe) (p : Nat × Stripe) => Table.set p.1 p.2.resumed t
  let wake := fun (c : CopyJob) => if c.launch = l then { c with frozen := false, faulted := false } else c
  let s1 : State := { s with
    saved := Table.erase l s.saved
    stripes := ctx.stripes.foldl held s.stripes
    stripeBuf := merge (rectCells v false s.stripeBuf) ctx.stripeBuf
    ringBuf := merge (rectCells v false s.ringBuf) ctx.ringBuf
    errors := s.errors.filter (fun e => !(e.1 != 0 && decide (v.xbase * 262144 ≤ e.2) && decide (e.2 < (v.xbase + v.xext) * 262144)))
    runs := Table.mapVals (fun _ (r : Run) => if r.launch = l then r.resumed else r) s.runs
    copies := s.copies.map wake
    epochs := s.epochs.filter (fun e => e.1 / 2 ^ 48 != l + 1) }
  let s2 := s1.mapLaunch l (fun x => { x with
    status := .placed, held := false, result := 0, digest := none, placedAt := s.time - x.savedFor, savedFor := 0 })
  let s3 := ((s2.threadsOf l).filter (fun t => t.status == .stopped)).foldl (fun t th => enqueue th t) s2
  reportOwed v.part l (ctx.stripes.foldl (reconfigure v.part) s3)

/-- CTXREST_COMPLETE: a CTXREST by its job number; a good image waits until its rectangle is free. -/
def execCtxrestComplete (launch : Nat) (s : State) : Out :=
  match s.ctxJobs.find? (fun j => j.restore && j.launch == launch) with
  | none => .next s
  | some j =>
    match findImage j.addr s.launches s with
    | (.none status ident size, s1) => .next (endCtx j ident status size s1)
    | (.saved l v status size, s1) =>
      if status ≠ 0 then .next (endCtx j v.ident status size s1)
      else if !rectFree s1 v.xbase v.xext then .next s
      else
        match Table.find l s1.saved with
        | some ctx => .next (endCtx j v.ident 0 size (restoreContext l v ctx s1))
        | none => .next (endCtx j v.ident cPROT size s1)

end Sys2Proof.Machine
end

