-- ==== Sys2Proof/Machine/Trust.lean ====
section
/-!
DEFINITION. Partitions as TDISP interfaces, and attestation (R369, R370, R375, R380, R381, R391).
-/

namespace Sys2Proof.Machine

open Sys2Proof

/-! ## Clearing and erasing -/

/-- A range of memory reads zero again, and its errors are gone (R253). -/
def clearRange (a n : Nat) (s : State) : State :=
  let outside := fun (p : Nat) => decide (p < a) || decide (a + n ≤ p)
  { s with
    mem := { s.mem with cells := s.mem.cells.filter (fun c => outside c.1) }
    errors := s.errors.filter (fun e => e.1 != 0 || outside e.2)
    releases := s.releases.flatMap (fun r => r.minus a n) }

/-- The bits that a word has and another has not. -/
def lostBits (old new : Word) : List Nat := (List.range 64).filter (fun u => bit old.toNat u && !bit new.toNat u)

/-- A 1 GiB unit of HBM, and a MiB of die shared memory, is cleared. -/
def clearHbm (j u : Nat) (s : State) : State :=
  spoilHeaps (fun p => p / 2 ^ 30 == j * 64 + u) (loseUnit (j * 64 + u) 0 (clearRange (j * 2 ^ 36 + u * 2 ^ 30) (2 ^ 30) s))
def clearDsm (d u : Nat) (s : State) : State := clearRange (2 ^ 40 + d * 2 ^ 28 + u * 2 ^ 20) (2 ^ 20) s

/-- Clears every unit that a block has and another has not. -/
def clearLost (a b : Assign) (s : State) : State :=
  let hbm := (List.range 16).flatMap (fun j => (lostBits (Table.getD a.hbm j 0) (Table.getD b.hbm j 0)).map (fun u => (j, u)))
  let dsm := (List.range 8).flatMap (fun d => (lostBits (Table.getD a.dsm d 0) (Table.getD b.dsm d 0)).map (fun u => (d, u)))
  dsm.foldl (fun t p => clearDsm p.1 p.2 t) (hbm.foldl (fun t p => clearHbm p.1 p.2 t) s)

/-- The memory and Umeno keys of a partition are erased (R370): what its units hold can no longer be decrypted (R276; log 7). -/
def eraseKeys (part : Nat) (s : State) : State :=
  let (k, s1) := draw s
  let p := s1.part part
  let us := ownedUnits p.assign
  let s2 := if p.memKey = none then s1 else
    spoilHeaps (fun pa => us.contains (pa / 2 ^ 30)) (us.foldl (fun t u => loseUnit u (k + 1) t) s1)
  let q := s2.part part
  s2.setPart part { q with
    memKey := none, wrapKey := none
    streams := Table.mapVals (fun _ (x : Stream) => { x with key := none, state := if x.state = 1 then 0 else x.state }) q.streams }

/-- Every launch of a partition halts as under R326 without TRAPHOLD (R370; log 20). -/
def haltPartition (part : Nat) (s : State) : State :=
  (s.launches.filter (fun v => v.2.part == part && v.2.isPlaced)).foldl (fun t v => haltLaunchAs v.1 cPROT false t) s

/-! ## The assignment block (R369, R391) -/

/-- A block with one word written; words 25 to 31 are reserved. -/
def Assign.write (a : Assign) (k : Nat) (v : Word) : Assign :=
  if k = 0 then { a with xcode := bits v.toNat 18 16, placeRight := bit v.toNat 10, xbase := bits v.toNat 9 0 }
  else if k ≤ 16 then { a with hbm := Table.set (k - 1) v a.hbm }
  else if k ≤ 24 then { a with dsm := Table.set (k - 17) v a.dsm }
  else a

/-- The stripes of a block form an aligned rectangle of the mesh. -/
def Assign.aligned (a : Assign) : Bool := a.xbase % extentOf a.xcode == 0 && decide (a.xbase + extentOf a.xcode ≤ 512)

/-- Two blocks share a stripe or a unit. -/
def Assign.overlaps (a b : Assign) : Bool :=
  stripesMeet a.stripes.1 a.stripes.2 b.stripes.1 b.stripes.2 && a.holds && b.holds
    || (List.range 16).any (fun j => Table.getD a.hbm j 0 &&& Table.getD b.hbm j 0 != 0)
    || (List.range 8).any (fun d => Table.getD a.dsm d 0 &&& Table.getD b.dsm d 0 != 0)

/-- A write of word k that turns a block into `a` names a stripe or a unit of a die (R391): word 0 the stripes, as does a word that makes the block hold
stripes, and a word of units the units of its own stack or die. -/
def Assign.names (old a : Assign) (k d : Nat) : Bool :=
  ((k == 0 || !old.holds) && a.holds && stripesMeet a.stripes.1 a.stripes.2 (64 * d) 64)
    || (decide (1 ≤ k) && decide (k ≤ 16) && (k - 1) / 2 == d && Table.getD a.hbm (k - 1) 0 != 0)
    || (decide (17 ≤ k) && k - 17 == d && Table.getD a.dsm (k - 17) 0 != 0)

/-- The TDI of a partition enters ERROR (R370). -/
def enterError (part : Nat) (s : State) : State :=
  let s1 := eraseKeys part (haltPartition part s)
  s1.setPart part { s1.part part with tdi := 3 }

/-- ASSIGNMENT_BLOCK_WRITE: word k of a partition's block; the units that leave the partition, and those that come to it, read zero
(R253), and so does the inbound counter block (R362). -/
def execAssignmentBlockWrite (part k : Nat) (v : Word) (s : State) : Out :=
  if !vfOn s part then .next s else
  let p := s.part part
  if p.tdi = 1 ∨ p.tdi = 2 then .next (enterError part s)
  else if p.tdi ≠ 0 then .next s
  else
    let a := p.assign.write k v
    let others := s.parts.filter (fun q => q.1 != part)
    if !a.aligned || others.any (fun q => a.overlaps q.2.assign) || (List.range 8).any (fun d => !available s d && p.assign.names a k d) then .next s
    else .next (clearLost a p.assign (clearLost p.assign a (s.setPart part { p with assign := a, acks := [], heldCnt := 0, drop := 0 })))

/-- DEVID_WRITE: only while no TDI is CONFIG_LOCKED or RUN; the identifier extends register 11 (R375; log 21). -/
def execDevidWrite (v : Word) (s : State) : Out :=
  if !s.io.booted || s.io.stopped || s.parts.any (fun p => p.2.tdi == 1 || p.2.tdi == 2) then .next s else
  .next (extendMeasure 11 (leBytes 48 (v.toNat % 2 ^ 22)) { s with io := { s.io with devid := v.setWidth 22 } })

/-! ## The states of a TDI (R370) -/

/-- The wrapping key of a partition: the session's export master secret expanded by the SPDM key schedule with the label "chx wrap" and the partition
number (R382; log 9). -/
def wrappingKey (version : Byte) (secret : List Byte) (part : Nat) : List Byte :=
  hkdfExpand secret (leBytes 2 32 ++ spdmName version ++ asciiBytes "chx wrap" ++ [BitVec.ofNat 8 part]) 32

/-- LOCK_INTERFACE: the wrapping key comes from the session's secret, and the interface report extends register 12 + n. -/
def execLockInterface (part : Nat) (secret : List Byte) (s : State) : Out :=
  let p := s.part part
  if !vfOn s part || p.tdi != 0 then .next s else
  let report := Config.interfaceReport part p.assign s.io.devid p.accept
  let s1 := extendMeasure (12 + part) (sha384 report) s
  .next (s1.setPart part { p with tdi := 1, wrapKey := some (wrappingKey s.io.spdm.version secret part) })

/-- START_INTERFACE. -/
def execStartInterface (part : Nat) (s : State) : Out :=
  let p := s.part part
  if !vfOn s part || p.tdi != 1 then .next s else .next (s.setPart part { p with tdi := 2 })

/-- TDI_ERROR: a failure of the IDE stream, or a reset of the VF, while CONFIG_LOCKED or RUN. -/
def execTdiError (part : Nat) (s : State) : Out :=
  let p := s.part part
  if !vfOn s part || (p.tdi != 1 && p.tdi != 2) then .next s else .next (enterError part s)

/-- What a partition's launches have under way is discarded: posted accesses to its memory among it. -/
def dropTraffic (part : Nat) (s : State) : State :=
  let mine := fun (pa : Nat) => onDevice pa && ownsUnit s part pa
  { s with
    posted := s.posted.filter (fun p => !mine p.pa)
    reds := s.reds.filter (fun r => !mine r.pa)
    wqueue := Table.mapVals (fun _ (q : List QueueEntry) => q.filter (fun e => !mine e.line)) s.wqueue
    inbound := s.inbound.filter (fun w => w.part != part)
    outbound := s.outbound.filter (fun w => w.part != part)
    copies := s.copies.filter (fun c => c.part != part)
    parked := s.parked.filter (fun p => p.part != part)
    tlb := s.tlb.filter (fun e => e.part != part)
    blockCache := s.blockCache.filter (fun b => b.2.1 != part)
    dieStore := s.dieStore.filter (fun d => d.2.1 != part)
    ringCache := s.ringCache.filter (fun d => d.2.1 != part) }

/-- A launch is halted and gone at once, with what it held (log 20). -/
def discardLaunch (l : Nat) (s : State) : State :=
  let s1 := abandonLaunch l s
  let s2 := { s1 with
    stripes := s1.stripes.filter (fun p => match p.2.run.bind (fun r => Table.find r s1.runs) with | some r => r.launch != l | none => true)
    saved := Table.erase l s1.saved
    flushes := s1.flushes.filter (fun j => j.launch != some l)
    threads := s1.threads.filter (fun t => t.2.launch != some l) }
  eraseLaunch l s2

/-- A partition whose assignment ends keeps its block, its queues' registers and its accepted set (R370, R401; log 20). -/
def Partition.stopped (p : Partition) : Partition :=
  { p with
    tdi := 0, streams := [], windows := [], objects := [], regions := [], place := Place.blank, invals := []
    acks := [], heldCnt := 0, drop := 0
    queues := Table.mapVals (fun _ (x : Queue) => { x with live := [], refs := [] }) p.queues }

/-- STOP_INTERFACE: the launches halt, the keys are erased and every unit is cleared before the TDI is CONFIG_UNLOCKED. -/
def execStopInterface (part : Nat) (s : State) : Out :=
  if !vfOn s part || (s.part part).tdi == 0 then .next s else
  let ls := (s.launches.filter (fun v => v.2.part == part)).map (·.1)
  let s1 := eraseKeys part (dropTraffic part (ls.foldl (fun t l => discardLaunch l t) s))
  let a := (s1.part part).assign
  let s2 := clearLost a ⟨0, 0, false, [], []⟩ s1
  .next (s2.setPart part (s2.part part).stopped)

end Sys2Proof.Machine
end

