-- ==== Sys2Proof/Machine/Boot.lean ====
section
/-!
DEFINITION. Boot, the loss of a die, the watchdogs of the scheduler image, and the energy windows (R374, R387, R389 to R393, R395).
-/

namespace Sys2Proof.Machine

open Sys2Proof

/-! ## Boot (R389) -/

/-- The digest of a package: its bytes 0 to 47 (R384). -/
def packageDigest (pkg : List Byte) : List Byte := padTo 48 pkg

/-- Steps 1 to 3: fuses, I/O die firmware, keys.  None where the device stops. -/
def bootIo (s : State) : State :=
  let stop := fun (t : State) => { (t.setRunning 64 none) with
    th := { t.th with status := .stopped }, io := { t.io with stopped := true, booted := true } }
  if !Config.fusesGood then stop s else
  let s1 := extendMeasure 0 (sha384 Config.romAndFuses) s
  let s2 := { s1 with io := { s1.io with stage := 1 } }
  if !packageGood (Config.flash 0) then stop s2 else
  let s3 := extendMeasure 1 (packageDigest (Config.flash 0)) s2
  let (k, s4) := draw s3
  { s4 with io := { s4.io with stage := 3, linkKeys := (List.range 16).map (fun d => (d, Config.drawnKey k d)), mgmtKey := Config.drawnKey k 16 } }

/-- Steps 4 and 5 for a die: its links train and its firmware verifies, or it is LINKFAIL or FWFAIL. -/
def bootDie (s : State) (d : Nat) : State :=
  let set := fun (v : Nat) (t : State) => { t with io := { t.io with dieState := Table.set d v t.io.dieState } }
  if !Config.linkTrains d then set 2 s
  else if packageGood (Config.flash (1 + d)) then set 1 (extendMeasure (2 + d) (packageDigest (Config.flash (1 + d))) s)
  else set 3 s

/-- A firmware slot as boot finds it: what was staged there last, or what flash held from the first. -/
def bootPackage (s : State) (k : Nat) : FwSlot :=
  (Table.find k s.io.slots).getD ⟨Config.flash (9 + k), (Config.flash (9 + k)).length, packageGood (Config.flash (9 + k))⟩

/-- Step 6, after step 5: the image of the boot slot, or of the other slot, starts; where neither verifies there is no scheduler. -/
def bootImage (s : State) : State :=
  let slot := bootPackage s
  let good := fun (k : Nat) => (packageResults (slot k).package (slot k).count).1 && (packageResults (slot k).package (slot k).count).2
  let s1 := { s with io := { s.io with stage := 5, slots := [(0, slot 0), (1, slot 1)], booted := true } }
  let first := s.io.bootSlot % 2
  if good first then bootSlotStart first (if good (1 - first) then some (1 - first) else none) s1
  else if good (1 - first) then bootSlotStart (1 - first) none s1
  else { s1 with io := { s1.io with nosched := true } }

/-- The machine as a device reset finds it: what flash keeps, the firmware slots and the boot slot, is kept, and the model's own fields go on
(log 2, 4). -/
def afterReset (s : State) : State :=
  { State.reset with agenda := s.agenda, choices := s.choices, draws := s.draws, time := s.time
                     io := { IoDie.atReset with slots := s.io.slots, bootSlot := s.io.bootSlot, energyAt := s.time / 1000000 } }

/-- DEVICE_RESET: the boot ROM's steps, in order. -/
def execDeviceReset (s : State) : Out :=
  let s1 := bootIo (afterReset s)
  .next (if s1.io.stopped then s1 else bootImage ((List.range 8).foldl bootDie s1))

/-! ## The loss of a die (R374, R392) -/

/-- Every parked operation on a region that is homed on a die ends with MEMERR (R175). -/
def loseHomes (d : Nat) (s : State) : State :=
  let homed := fun (p : ParkEntry) => match s.region? p.part p.region with | some r => r.home == d | none => false
  answerAll (s.parked.filter homed) (.failed cMEMERR) { s with parked := s.parked.filter (fun p => !homed p) }

/-- An AVAILABLE die becomes LOST: its launches halt, its parked operations end, its replica locations fail. -/
def loseDie (d : Nat) (s : State) : State :=
  if !available s d then s else
  let s1 := { s with io := { s.io with dieState := Table.set d 4 s.io.dieState } }
  let hit := s1.launches.filter (fun v => v.2.isPlaced && launchHasDie v.2 d)
  let s2 := hit.foldl (fun t v => haltLaunchAs v.1 cMEMERR false t) s1
  s2.parts.foldl (fun t p => failReplicas p.1 (fun z => z.1 == d) t) (loseHomes d s2)

/-- The tag of a flit, its last sixteen bytes, verifies under its link's key. -/
def linkFlitGood (key flit : List Byte) : Bool :=
  decide (16 ≤ flit.length)
    && (gcmOpen key (Config.linkNonce flit) [] (flit.take (flit.length - 16)) (flit.drop (flit.length - 16))).isSome

/-- The number of a link: the star link of a die, or the bridge that leads to it from the die before. -/
def linkNumber (a : LinkFlits) : Nat := if a.bridge then 8 + a.die else a.die

/-- The part has the link: eight star links, and bridges to D1 to D7. -/
def linkPresent (a : LinkFlits) : Bool := decide (a.die < 8) && (!a.bridge || a.die != 0)

/-- A flit arrives on a link of a die: one that fails its tag is sent again, and the sixteenth failure on end brings the link down. -/
def linkFlit (die link : Nat) (s : State) (flit : List Byte) : State :=
  let n := if linkFlitGood (Table.getD s.io.linkKeys link []) flit then 0 else Table.getD s.io.linkFails link 0 + 1
  let s1 := { s with io := { s.io with linkFails := Table.set link n s.io.linkFails } }
  if n = 16 then loseDie die s1 else s1

/-- DIE_LINK_DOWN: flits arrive on a link, and sixteen on end that fail make its die LOST; the die of a bridge is the one that it trains for (R389). -/
def execDieLinkDown (arrived : LinkFlits) (s : State) : Out :=
  .next (if linkPresent arrived then arrived.flits.foldl (linkFlit arrived.die (linkNumber arrived)) s else s)

/-- DIE_FIRMWARE_FAULT. -/
def execDieFirmwareFault (die : Nat) (s : State) : Out := .next (loseDie die s)

/-! ## Heartbeats (R387, R393) -/

/-- FIRST_HEARTBEAT_DEADLINE: the first HBEAT of an image did not come in time. -/
def execFirstHeartbeatDeadline (s : State) : Out :=
  match s.io.watch with
  | .first _ _ | .boot _ _ => .next ((deadlinePassed s).getD s)
  | _ => .next s

/-- HEARTBEAT_DEADLINE: an image that had beaten did not beat in time. -/
def execHeartbeatDeadline (s : State) : Out :=
  match s.io.watch with
  | .beating _ => .next ((deadlinePassed s).getD s)
  | _ => .next s

/-! ## Energy windows (R395) -/

/-- ENERGY_WINDOW_BOUNDARY: budgets written since the last boundary come into force, and every ring has its whole budget again. -/
def execEnergyWindowBoundary (s : State) : Out := .next (openWindow s)

end Sys2Proof.Machine
end

