-- ==== Sys2Proof/Machine/CoreAlu.lean ====
section
/-!
DEFINITION. The ALU register and immediate forms and the long forms of the control cores (R120 to R123).
-/

namespace Sys2Proof.Machine

open Sys2Proof

/-- Signed quotient, saturating (R121). -/
def divS (a b : Word) : Word :=
  if b = 0 then (if a = 0 then 0 else if a.toInt < 0 then BitVec.intMin 64 else BitVec.intMax 64)
  else if a = BitVec.intMin 64 ∧ b = -1 then BitVec.intMax 64
  else a.sdiv b

/-- Unsigned quotient, saturating (R121). -/
def divU (a b : Word) : Word := if b = 0 then (if a = 0 then 0 else BitVec.allOnes 64) else a.udiv b

/-- Signed remainder, with the sign of a; 0 where the quotient saturates (R121). -/
def remS (a b : Word) : Word := if b = 0 then 0 else if a = BitVec.intMin 64 ∧ b = -1 then 0 else a.srem b

/-- Unsigned remainder (R121). -/
def remU (a b : Word) : Word := if b = 0 then 0 else a.umod b

/-- Bits [127:64] of the signed product. -/
def mulhS (a b : Word) : Word := (a.signExtend 128 * b.signExtend 128).extractLsb' 64 64

/-- Bits [127:64] of the unsigned product. -/
def mulhU (a b : Word) : Word := (a.setWidth 128 * b.setWidth 128).extractLsb' 64 64

/-- Leading zero bits; 64 of zero. -/
def clz64 (a : Word) : Word := w64 (64 - bitLen a.toNat)

/-- One bits. -/
def popc64 (a : Word) : Word := w64 ((List.range 64).countP (fun i => a.getLsbD i))

/-- 1 if a condition holds, else 0. -/
def truth (b : Bool) : Word := if b then 1 else 0

def execAdd (d a b : Reg) (s : State) : Out := .next (s.write4 d (s.g a + s.g b))
def execSub (d a b : Reg) (s : State) : Out := .next (s.write4 d (s.g a - s.g b))
def execMul (d a b : Reg) (s : State) : Out := .next (s.write4 d (s.g a * s.g b))
def execMulh (d a b : Reg) (s : State) : Out := .next (s.write4 d (mulhS (s.g a) (s.g b)))
def execMulhn (d a b : Reg) (s : State) : Out := .next (s.write4 d (mulhU (s.g a) (s.g b)))
def execDiv (d a b : Reg) (s : State) : Out := .next (s.write4 d (divS (s.g a) (s.g b)))
def execDivn (d a b : Reg) (s : State) : Out := .next (s.write4 d (divU (s.g a) (s.g b)))
def execRem (d a b : Reg) (s : State) : Out := .next (s.write4 d (remS (s.g a) (s.g b)))
def execRemn (d a b : Reg) (s : State) : Out := .next (s.write4 d (remU (s.g a) (s.g b)))
def execAnd (d a b : Reg) (s : State) : Out := .next (s.write4 d (s.g a &&& s.g b))
def execOr (d a b : Reg) (s : State) : Out := .next (s.write4 d (s.g a ||| s.g b))
def execXor (d a b : Reg) (s : State) : Out := .next (s.write4 d (s.g a ^^^ s.g b))
def execSll (d a b : Reg) (s : State) : Out := .next (s.write4 d (s.g a <<< ((s.g b).toNat % 64)))
def execSrl (d a b : Reg) (s : State) : Out := .next (s.write4 d (s.g a >>> ((s.g b).toNat % 64)))
def execSra (d a b : Reg) (s : State) : Out := .next (s.write4 d ((s.g a).sshiftRight ((s.g b).toNat % 64)))
def execSlt (d a b : Reg) (s : State) : Out := .next (s.write4 d (truth ((s.g a).slt (s.g b))))
def execSltn (d a b : Reg) (s : State) : Out := .next (s.write4 d (truth ((s.g a).ult (s.g b))))
def execMin (d a b : Reg) (s : State) : Out := .next (s.write4 d (if (s.g a).slt (s.g b) then s.g a else s.g b))
def execMax (d a b : Reg) (s : State) : Out := .next (s.write4 d (if (s.g a).slt (s.g b) then s.g b else s.g a))
def execMinn (d a b : Reg) (s : State) : Out := .next (s.write4 d (if (s.g a).ult (s.g b) then s.g a else s.g b))
def execMaxn (d a b : Reg) (s : State) : Out := .next (s.write4 d (if (s.g a).ult (s.g b) then s.g b else s.g a))
def execClz (d a : Reg) (s : State) : Out := .next (s.write4 d (clz64 (s.g a)))
def execPopc (d a : Reg) (s : State) : Out := .next (s.write4 d (popc64 (s.g a)))
def execSextB (d a : Reg) (s : State) : Out := .next (s.write4 d (sx ((s.g a).setWidth 8)))
def execSextH (d a : Reg) (s : State) : Out := .next (s.write4 d (sx ((s.g a).setWidth 16)))
def execSextW (d a : Reg) (s : State) : Out := .next (s.write4 d (sx ((s.g a).setWidth 32)))
def execZextB (d a : Reg) (s : State) : Out := .next (s.write4 d (zx ((s.g a).setWidth 8)))
def execZextH (d a : Reg) (s : State) : Out := .next (s.write4 d (zx ((s.g a).setWidth 16)))
def execZextW (d a : Reg) (s : State) : Out := .next (s.write4 d (zx ((s.g a).setWidth 32)))

def execAddi (d a : Reg) (imm : BitVec 16) (s : State) : Out := .next (s.write4 d (s.g a + sx imm))
def execAndi (d a : Reg) (imm : BitVec 16) (s : State) : Out := .next (s.write4 d (s.g a &&& zx imm))
def execOri (d a : Reg) (imm : BitVec 16) (s : State) : Out := .next (s.write4 d (s.g a ||| zx imm))
def execXori (d a : Reg) (imm : BitVec 16) (s : State) : Out := .next (s.write4 d (s.g a ^^^ zx imm))
def execSlti (d a : Reg) (imm : BitVec 16) (s : State) : Out := .next (s.write4 d (truth ((s.g a).slt (sx imm))))
def execSlli (d a : Reg) (sh : BitVec 6) (s : State) : Out := .next (s.write4 d (s.g a <<< sh.toNat))
def execSrli (d a : Reg) (sh : BitVec 6) (s : State) : Out := .next (s.write4 d (s.g a >>> sh.toNat))
def execSrai (d a : Reg) (sh : BitVec 6) (s : State) : Out := .next (s.write4 d ((s.g a).sshiftRight sh.toNat))

/-- Completes an 8-byte instruction that writes one register. -/
def State.write8 (s : State) (r : Reg) (v : Word) : State := (s.setG r v).advance 8

def execLi (d : Reg) (imm : BitVec 32) (s : State) : Out := .next (s.write8 d (sx imm))
def execLih (d : Reg) (imm : BitVec 32) (s : State) : Out :=
  .next (s.write8 d (zx imm <<< 32 ||| zx ((s.g d).setWidth 32)))
def execAddiL (d a : Reg) (imm : BitVec 32) (s : State) : Out := .next (s.write8 d (s.g a + sx imm))
def execAndiL (d a : Reg) (imm : BitVec 32) (s : State) : Out := .next (s.write8 d (s.g a &&& zx imm))
def execOriL (d a : Reg) (imm : BitVec 32) (s : State) : Out := .next (s.write8 d (s.g a ||| zx imm))
def execXoriL (d a : Reg) (imm : BitVec 32) (s : State) : Out := .next (s.write8 d (s.g a ^^^ zx imm))

end Sys2Proof.Machine
end

