-- ==== Sys2Proof/Machine/CoreBranch.lean ====
section
/-!
DEFINITION. Branches, jumps and REP (R124 to R128).
-/

namespace Sys2Proof.Machine

open Sys2Proof

/-- PC ← PC + 4 · SignExtend(OFF16) where the comparison holds, else PC + 4 (R124). -/
def branch (taken : Bool) (off : BitVec 16) (s : State) : Out :=
  .next (if taken then s.setPc (s.th.pc + sx4 off) else s.advance 4)

def execBeq (a b : Reg) (off : BitVec 16) (s : State) : Out := branch (s.g a == s.g b) off s
def execBne (a b : Reg) (off : BitVec 16) (s : State) : Out := branch (s.g a != s.g b) off s
def execBlt (a b : Reg) (off : BitVec 16) (s : State) : Out := branch ((s.g a).slt (s.g b)) off s
def execBge (a b : Reg) (off : BitVec 16) (s : State) : Out := branch (!(s.g a).slt (s.g b)) off s
def execBltn (a b : Reg) (off : BitVec 16) (s : State) : Out := branch ((s.g a).ult (s.g b)) off s
def execBgen (a b : Reg) (off : BitVec 16) (s : State) : Out := branch (!(s.g a).ult (s.g b)) off s

/-- JAL (R125): the link register, then the jump. -/
def execJal (l : Reg) (off : BitVec 16) (s : State) : Out :=
  .next ((s.setG l (s.th.pc + 4)).setPc (s.th.pc + sx4 off))

/-- JAL.L (R31, R125). -/
def execJalL (d : Reg) (off : BitVec 32) (s : State) : Out :=
  .next ((s.setG d (s.th.pc + 8)).setPc (s.th.pc + sx4 off))

/-- JALR (R125): reads g[GA] before it writes g[GD]; a target not 4-aligned traps ALIGN. -/
def execJalr (d a : Reg) (imm : BitVec 16) (s : State) : Out :=
  let t := s.g a + sx imm
  if t.toNat % 4 ≠ 0 then .next (trap cALIGN t s)
  else .next ((s.setG d (s.th.pc + 4)).setPc t)

/-- REP (R126, R128). -/
def execRep (a : Reg) (len : BitVec 16) (s : State) : Out :=
  if len = 0 ∨ s.th.loop.active = true ∨ s.th.inTrap = true then .next (illop s) else
  let start := s.th.pc + 4
  let stop := start + zx len * 4
  if s.g a = 0 then .next (s.setPc stop)
  else .next { s with th := { s.th with loop := ⟨true, start, stop, a⟩, pc := start } }

end Sys2Proof.Machine
end

