-- ==== Sys2Proof/Machine/ElemLane.lean ====
section
/-!
DEFINITION. Lane movement of the elements (R55 to R59).
-/

namespace Sys2Proof.Machine

open Sys2Proof

/-! ## Widening and narrowing (R55, R56) -/

/-- Half of the lanes of A, widened: the first or the second half. -/
def widenIssue (high : Bool) (w : EWord) (s : State) : Out :=
  let code := w.rt.toNat
  let width := laneWidth code
  let half := 64 / width / 2
  valueIssue .a width w (fun _ lf a _ _ =>
    ⟨joinLanes (2 * width) ((List.range half).map (fun i =>
      wrapInt (2 * width) (laneVal code (if high then half + i else i) a))), 0, lf⟩) s

def execWidenL (w : EWord) (s : State) : Out := widenIssue false w s
def execWidenH (w : EWord) (s : State) : Out := widenIssue true w s

/-- The source lanes saturated to half their width: those of A, then those of B. -/
def execNarrow (w : EWord) (s : State) : Out :=
  let code := w.rt.toNat
  let width := laneWidth code
  let n := 64 / width
  valueIssue .ab width w (fun _ lf a b _ => lanesResult (width / 2) (2 * n) lf (fun l i =>
    let r := satInt (code - 1) (if i < n then laneVal code i a else laneVal code (i - n) b)
    ⟨wrapInt (width / 2) r.1, r.2, l⟩)) s

/-! ## Permutation (R57 to R59) -/

/-- Each selector of IMM copies a lane of A; selector 0xF gives a zero lane. -/
def execShuf (w : EWord) (s : State) : Out :=
  laneIssue .ap w (fun width a _ _ i =>
    let sel := bits w.imm.toNat (4 * i + 3) (4 * i)
    if sel = 15 then 0 else laneOf width sel a) s

/-- Lane IMM of A in every lane. -/
def execBcast (w : EWord) (s : State) : Out := laneIssue .ap w (fun width a _ _ _ => laneOf width w.imm.toNat a) s

/-- Lane IMM of A as a 64-bit integer. -/
def execExtr (w : EWord) (s : State) : Out :=
  let code := w.rt.toNat
  valueIssue .ap (laneWidth code) w (fun _ lf a _ _ => ⟨wrapInt 64 (laneVal code w.imm.toNat a), 0, lf⟩) s

/-- A with lane C[2:0] AND (n − 1) replaced by lane 0 of B. -/
def execIns (w : EWord) (s : State) : Out :=
  laneIssue .abc w (fun width a b z i =>
    if i = z.toNat % 8 % (64 / width) then laneOf width 0 b else laneOf width i a) s

end Sys2Proof.Machine
end

