-- ==== Sys2Proof/Machine/ElemSfu.lean ====
section
/-!
DEFINITION. The special functions of the elements (R70, R71).  The exact value of a function is bracketed by fixed-point numbers
of 512 fraction bits; which of the results within the bound of R70 the unit delivers is `Config.sfuPick` (log 8).
-/

namespace Sys2Proof.Machine

open Sys2Proof

/-! ## Fixed point -/

/-- One, with 512 fraction bits. -/
def fx1 : Nat := 2 ^ 512

/-- ln 2 and 2/√π, truncated. -/
def fxLn2 : Nat := 0xb17217f7d1cf79abc9e3b39803f2f6af40f343267298b62d8a0d175b8baafa2be7b876206debac98559552fb4afa1b10ed2eae35c138214427573b291169b825
def fxErf : Nat := 0x120dd750429b6d11ae3a914fed7fd8688281341d7587cea2e7342b06199cc416180eb39f0b24e1e2281806c12d98f35d77a3e9ddc91c394f0e9eedf0efffd84a2

/-- An exact magnitude: m · 2^e where `ine` is false, else a value between m · 2^e and (m + 1) · 2^e. -/
structure Bracket where
  m   : Nat
  e   : Int
  ine : Bool

/-- A fixed-point magnitude. -/
def Bracket.ofFixed (v : Nat) : Bracket := ⟨v, -512, true⟩

/-- e^r − 1 for fixed r, by n terms from term k on. -/
def expTail (r : Nat) : Nat → Nat → Nat → Nat
  | 0, _, _ => 0
  | n + 1, k, t => t + expTail r n (k + 1) (t * r / fx1 / (k + 1))

/-- e^r − 1 for fixed r below one. -/
def fxExpm1 (r : Nat) : Nat := expTail r 110 1 r

/-- e^(−a) for fixed a. -/
def fxExpNeg (a : Nat) : Nat :=
  let n := a / fxLn2
  fx1 * fx1 / (fx1 + fxExpm1 (a - n * fxLn2)) / 2 ^ n

/-- Σ z^(2j + 1) / (2j + 1) for fixed z, by n terms from j on. -/
def atanhTail (z2 : Nat) : Nat → Nat → Nat → Nat
  | 0, _, _ => 0
  | n + 1, j, t => t / (2 * j + 1) + atanhTail z2 n (j + 1) (t * z2 / fx1)

/-- Σ (−1)^k a^(2k + 1) / (k! (2k + 1)) for fixed a, by n terms from k on. -/
def erfTail (a2 : Nat) : Nat → Nat → Nat → Int
  | 0, _, _ => 0
  | n + 1, k, t => (t / (2 * k + 1) : Nat) - erfTail a2 n (k + 1) (t * a2 / fx1 / (k + 1))

/-- The integer square root, bit by bit from bit b − 1 down. -/
def isqrtFrom (n : Nat) : Nat → Nat → Nat
  | 0, r => r
  | b + 1, r =>
    let t := r + 2 ^ b
    isqrtFrom n b (if t * t ≤ n then t else r)

/-- m · 2^e as fixed point, cut to at most `cap` ones (e ≥ −512). -/
def fxOf (m : Nat) (e : Int) (cap : Nat) : Nat := min (m * 2 ^ (e + 512).toNat) (cap * fx1)

/-! ## Exact values (R70) -/

/-- The sign and magnitude of function fn at (−1)^neg · m · 2^e (m = 0 for SIGM only), outside the special cases of R71. -/
def sfuExact (fn : Nat) (neg : Bool) (m : Nat) (e : Int) : Bool × Bracket :=
  let odd := decide (e % 2 ≠ 0)
  let m2 := if odd then 2 * m else m
  let e2 := if odd then e - 1 else e
  match fn with
  | 0 => (neg, ⟨2 ^ 1024 / m, -e - 1024, decide (2 ^ 1024 % m ≠ 0)⟩)
  | 1 =>
    let q := isqrtFrom (2 ^ 1024 / m2) 513 0
    (false, ⟨q, -(e2 / 2) - 512, decide (q * q * m2 ≠ 2 ^ 1024)⟩)
  | 2 =>
    let n := m2 * 2 ^ 200
    let q := isqrtFrom n 120 0
    (false, ⟨q, e2 / 2 - 100, decide (q * q ≠ n)⟩)
  | 3 =>
    let x := fxOf m e 1024
    let n : Int := if neg then -((x + fx1 - 1) / fx1 : Nat) else (x / fx1 : Nat)
    let f := if neg then (fx1 - x % fx1) % fx1 else x % fx1
    (false, ⟨fx1 + fxExpm1 (f * fxLn2 / fx1), n - 512, decide (f ≠ 0)⟩)
  | 4 =>
    let top := bitLen m - 1
    let frac := m * fx1 / 2 ^ top
    let z := (frac - fx1) * fx1 / (frac + fx1)
    let l := 2 * atanhTail (z * z / fx1) 170 0 z * fx1 / fxLn2
    let v : Int := (e + (top : Int)) * (fx1 : Nat) + (l : Nat)
    (decide (v < 0), ⟨v.natAbs, -512, decide (frac ≠ fx1)⟩)
  | 5 =>
    let a := fxOf m e 64
    if 2 * a < fx1 then
      let t := fxExpm1 (2 * a)
      (neg, .ofFixed (t * fx1 / (t + 2 * fx1)))
    else
      let t := fxExpNeg (2 * a)
      (neg, .ofFixed ((fx1 - t) * fx1 / (fx1 + t)))
  | 6 =>
    if m = 0 then (false, ⟨1, -1, false⟩) else
    let a := fxOf m e 256
    let t := fxExpNeg a
    (false, .ofFixed ((if neg then t else fx1) * fx1 / (fx1 + t)))
  | _ =>
    let a := fxOf m e 6
    (neg, .ofFixed ((erfTail (a * a / fx1) 250 0 a).toNat * fxErf / fx1))

/-- The bound of R70 in units of the last place of F32; 0 for SQRT, which is correctly rounded. -/
def sfuBound (fn : Nat) : Nat := match fn with | 0 => 1 | 1 => 1 | 2 => 0 | _ => 2

/-- Whether an exact result is one that R70 promises. -/
def sfuExactCase (fn : Nat) (b : Bracket) : Bool := !b.ine && (fn == 0 || fn == 2 || fn == 3 || fn == 4)

/-- The least quantum of a number whose range is not bounded: far below that of any result. -/
def sfuQuantum : Int := -4096

/-- The magnitude that the unit delivers with F32 precision and an unbounded range, before the destination's range is applied (R71):
correctly rounded, exact, or one of the values within the bound that are multiples of the last place of the exact result's binade (DESIGN
CHOICE, log 8). -/
def sfuDeliver (fn pat : Nat) (b : Bracket) : Nat × Int :=
  if fn = 2 then
    let r := roundAt 0 false (2 * b.m + ofBool b.ine) (b.e - 1) 24 sfuQuantum 0
    (r.1.z, r.2)
  else
    let r := roundAt 1 false (2 * b.m + ofBool b.ine) (b.e - 1) 24 sfuQuantum 0
    if sfuExactCase fn b && !r.1.ine then (r.1.z, r.2) else
    let k := sfuBound fn
    let low := if r.1.ine then r.1.z + 1 - k else r.1.z - k
    (low + Config.sfuPick fn pat % (if r.1.ine then 2 * k else 2 * k + 1), r.2)

/-! ## A lane (R70, R71) -/

/-- One of a format. -/
def FFmt.one (f : FFmt) : Nat := f.bias * 2 ^ f.m

/-- The result of a finite nonzero operand. -/
def sfuFinite (f : FFmt) (fn : Nat) (fso neg : Bool) (m : Nat) (e : Int) : FRes :=
  let pat := (roundTo ffF32 0 false (ffF32.overflow 0) (.fin neg m e) 0).v
  let (sg, b) := sfuExact fn neg m e
  let (dm, de) := sfuDeliver fn pat b
  let wide := roundTo ffF32 0 false (ffF32.overflow 0) (.fin sg dm de) 0
  let r := roundTo f 0 false (f.overflow 0) (if bit wide.fl 2 then .inf sg else ffF32.val wide.v) 0
  let got := f.val r.v
  let big := got.isInf
  let (gm, ge) := match got with | .fin _ gm ge => (gm, ge) | _ => (0, 0)
  let q := if ge ≤ b.e then ge else b.e
  let g := gm * 2 ^ (ge - q).toNat
  let x := b.m * 2 ^ (b.e - q).toNat
  let same := !b.ine && g == x
  let small := !big && b.m != 0 && !(sfuExactCase fn b && same) && tiny f b.m b.e (decide (x < g))
  let fl := orf (if big then fOF else 0) (if small then fUF else 0)
  if fso && f.subnormal r.v then ⟨f.sign sg 0, orf fl fUF, 0⟩ else ⟨r.v, fl, 0⟩

/-- One lane of function fn, 0 RCP to 7 ERF.  A zero result of TANH and ERF keeps the operand's sign (DEDUCED, log 8). -/
def sfuLane (f : FFmt) (fn : Nat) (k : Keys) (v : Nat) : FRes :=
  let inf := f.inf.getD 0
  let nan := f.nan.getD 0
  let negBad := fn == 1 || fn == 2 || fn == 4
  match f.val (f.flushIn k.fsi v) with
  | .nan sig => ⟨nan, if sig then fNV else 0, 0⟩
  | .inf n =>
    if n && negBad then ⟨nan, fNV, 0⟩ else
    (match fn with
    | 0 => ⟨f.sign n 0, 0, 0⟩
    | 1 => ⟨0, 0, 0⟩
    | 2 => ⟨inf, 0, 0⟩
    | 3 => ⟨if n then 0 else inf, 0, 0⟩
    | 4 => ⟨inf, 0, 0⟩
    | 6 => ⟨if n then 0 else f.one, 0, 0⟩
    | _ => ⟨f.sign n f.one, 0, 0⟩)
  | .fin n m e =>
    if m = 0 then
      match fn with
      | 0 => ⟨f.sign n inf, fDZ, 0⟩
      | 1 => ⟨f.sign n inf, fDZ, 0⟩
      | 2 => ⟨f.sign n 0, 0, 0⟩
      | 3 => ⟨f.one, 0, 0⟩
      | 4 => ⟨f.sign true inf, fDZ, 0⟩
      | 6 => sfuFinite f 6 k.fso false 0 0
      | _ => ⟨f.sign n 0, 0, 0⟩
    else if n && negBad then ⟨nan, fNV, 0⟩
    else sfuFinite f fn k.fso n m e

/-- The lanes of a special function. -/
def sfuIssue (fn : Nat) (w : EWord) (s : State) : Out :=
  let f := ffOf w.rt.toNat
  valueIssue .a f.w w (fun k lf a _ _ => lanesResult f.w (64 / f.w) lf (fun l i =>
    { sfuLane f fn k (laneOf f.w i a) with lf := l })) s

def execRcp (w : EWord) (s : State) : Out := sfuIssue 0 w s
def execRsq (w : EWord) (s : State) : Out := sfuIssue 1 w s
def execSqrt (w : EWord) (s : State) : Out := sfuIssue 2 w s
def execExp2 (w : EWord) (s : State) : Out := sfuIssue 3 w s
def execLog2 (w : EWord) (s : State) : Out := sfuIssue 4 w s
def execTanh (w : EWord) (s : State) : Out := sfuIssue 5 w s
def execSigm (w : EWord) (s : State) : Out := sfuIssue 6 w s
def execErf (w : EWord) (s : State) : Out := sfuIssue 7 w s

end Sys2Proof.Machine
end

