-- ==== Sys2Proof/Machine/ElemTag.lean ====
section
/-!
DEFINITION. The tag and flow instructions of the elements (R39, R73 to R77).
-/

namespace Sys2Proof.Machine

open Sys2Proof

/-! ## Shared form -/

/-- An instruction that accepts tile handles and gives result tokens the KIND of operand A; `f` builds them from the token with
the instance's tag and VALUE A, operand B, the tokens of the word being built by `wordOut1` and `wordOut2`. -/
def tagIssue (c : OpClass) (w : EWord) (f : Token → Word → List Token) (s : State) : Out :=
  runIssue (fun _ lf i =>
    let (a, b, _) := elemOperands c 64 w i.a.value i.bval
    ⟨f { i.base with value := a, kind := kindOfA w i } b, 0, lf⟩) (fun _ => none) s

/-! ## Tag changes (R73, R74) -/

/-- ITER ← A[p + 9 : p]. -/
def execTagi (w : EWord) (s : State) : Out :=
  tagIssue .ap w (fun t _ => wordOut w { t with iter := BitVec.ofNat 10 (t.value.toNat / 2 ^ (w.imm.toNat % 64)) }) s

/-- FRAME ← B[10:0]. -/
def execTagf (w : EWord) (s : State) : Out := tagIssue .ab w (fun t b => wordOut w { t with frame := b.setWidth 11 }) s

/-- ROUTE ← B[2:0], before ROUTEW. -/
def execTagr (w : EWord) (s : State) : Out := tagIssue .ab w (fun t b => wordOut w { t with route := b.setWidth 3 }) s

/-- ITER advances by s, to DST1 while below L and to DST2 past it. -/
def execTinc (w : EWord) (s : State) : Out :=
  tagIssue .ap w (fun t _ =>
    let n := t.iter.toNat + bits w.imm.toNat 9 0
    let l := bits w.imm.toNat 19 10
    if n < l then wordOut1 w { t with iter := BitVec.ofNat 10 n }
    else wordOut2 w { t with iter := BitVec.ofNat 10 (n - l) }) s

/-- VALUE ← the tag. -/
def execTget (w : EWord) (s : State) : Out := tagIssue .a w (fun t _ => wordOut w { t with value := w64 t.tag }) s

/-! ## Flow (R73, R75, R76) -/

/-- A to DST1 where B is nonzero, else to DST2. -/
def execSteer (w : EWord) (s : State) : Out := tagIssue .ab w (fun t b => if b = 0 then wordOut2 w t else wordOut1 w t) s

/-- A to every destination where B is nonzero, else nothing. -/
def execGate (w : EWord) (s : State) : Out := tagIssue .ab w (fun t b => if b = 0 then [] else wordOut w t) s

/-- VALUE ← IMM. -/
def execConst (w : EWord) (s : State) : Out := valueIssue .ap 64 w (fun _ lf _ _ _ => ⟨w.imm.toNat, 0, lf⟩) s

/-- Consumes the token. -/
def execSink (w : EWord) (s : State) : Out := tagIssue .a w (fun _ _ => []) s

end Sys2Proof.Machine
end

