-- ==== Sys2Proof/Machine/Spdm.lean ====
section
/-!
DEFINITION. The PF's SPDM responder (R380, R381, R389).  Message formats, codes and transcripts are those of DSP0274 1.2 and 1.3, which the spec
names and does not print (PRESUMED, log 9).
-/

namespace Sys2Proof.Machine

open Sys2Proof

/-- The response to a request: its bytes, and the connection after it. -/
abbrev SpdmAnswer := List Byte × Spdm

/-- Request codes. -/
def spdmGetDigests : Byte := 0x81
def spdmGetCertificate : Byte := 0x82
def spdmChallenge : Byte := 0x83
def spdmGetVersion : Byte := 0x84
def spdmGetMeasurements : Byte := 0xE0
def spdmGetCapabilities : Byte := 0xE1
def spdmNegotiate : Byte := 0xE3
def spdmKeyExchange : Byte := 0xE4

/-- ERROR with a code. -/
def spdmError (version code : Byte) : List Byte := [version, 0x7F, code, 0]

/-! ## Negotiation -/

/-- VERSION: 1.2 and 1.3; a new connection begins. -/
def answerVersion (req : List Byte) : SpdmAnswer :=
  let rsp : List Byte := [0x10, 0x04, 0, 0, 0, 2] ++ leBytes 2 0x1200 ++ leBytes 2 0x1300
  (rsp, { Spdm.blank with vca := req ++ rsp })

/-- CAPABILITIES, in the version of the request, which is the connection's from now on. -/
def answerCapabilities (req : List Byte) (c : Spdm) : SpdmAnswer :=
  let rsp := [nth req 0 0, 0x61, 0, 0] ++ Config.spdmCapabilities
  (rsp, { c with version := nth req 0 0, vca := c.vca ++ req ++ rsp })

/-- ALGORITHMS: SHA-384, Ed25519 and the DMTF measurement specification with SHA-384, each where the requester offers it. -/
def answerAlgorithms (req : List Byte) (c : Spdm) : SpdmAnswer :=
  let offered := fun (at_ n mask : Nat) => leBytes n (Nat.land (leNat ((req.drop at_).take n)) mask)
  let more := Config.spdmAlgorithms req
  let rsp := [c.version, 0x63, BitVec.ofNat 8 (more.length / 4), 0] ++ leBytes 2 (36 + more.length) ++ offered 6 1 1 ++ offered 7 1 2
    ++ leBytes 4 4 ++ offered 8 4 0x400 ++ offered 12 4 2 ++ List.replicate 16 0 ++ more
  (rsp, { c with vca := c.vca ++ req ++ rsp })

/-! ## Certificates -/

/-- DIGESTS of slots 0 and 1. -/
def answerDigests (req : List Byte) (c : Spdm) : SpdmAnswer :=
  let rsp := [c.version, 0x01, if c.version = 0x13 then 3 else 0, 3] ++ sha384 (Config.certChain 0) ++ sha384 (Config.certChain 1)
  (rsp, { c with certs := c.certs ++ req ++ rsp })

/-- CERTIFICATE: the part of a slot's chain that the request asks for. -/
def answerCertificate (req : List Byte) (c : Spdm) : SpdmAnswer :=
  let slot := (nth req 2 0).toNat % 16
  let off := leNat ((req.drop 4).take 2)
  let chain := Config.certChain slot
  if 1 < slot ∨ chain.length ≤ off then (spdmError c.version 0x01, c) else
  let part := (chain.drop off).take (leNat ((req.drop 6).take 2))
  let rsp := [c.version, 0x02, BitVec.ofNat 8 slot, 0] ++ leBytes 2 part.length ++ leBytes 2 (chain.length - off - part.length) ++ part
  (rsp, { c with certs := c.certs ++ req ++ rsp })

/-! ## Signed responses (R380) -/

/-- The opaque data of a signed response: one element of Akfitia's vendor type 0x0001 that holds an ML-DSA-65 signature. -/
def signedOpaque (signature : List Byte) : List Byte :=
  let element := Config.spdmVendor ++ leBytes 2 (2 + signature.length) ++ leBytes 2 1 ++ signature
  [1, 0, 0, 0] ++ element ++ List.replicate ((4 - element.length % 4) % 4) 0

/-- A response with both signatures over the hash of one transcript: the messages before, the request, and the response up to its signatures
(DESIGN CHOICE, log 9). -/
def signedAnswer (before req head : List Byte) : List Byte :=
  let code := (nth head 1 0).toNat
  let hash := sha384 (before ++ req ++ head)
  let opaqueData := signedOpaque (Config.mlDsa65Sign code hash)
  head ++ leBytes 2 opaqueData.length ++ opaqueData ++ Config.ed25519Sign code hash

/-- Register k as the measurement block of index k + 1 (R381): a DMTF digest of immutable ROM for register 0, of firmware for the others. -/
def measureBlock (s : State) (k : Nat) : List Byte :=
  [BitVec.ofNat 8 (k + 1), 1] ++ leBytes 2 51 ++ [if k = 0 then 0 else 1] ++ leBytes 2 48 ++ measurement s k

/-- The blocks that a request asks for: none for index 0, all for 0xFF, else one; none where there is no such block. -/
def measureBlocks (s : State) (index : Nat) : Option (List (List Byte)) :=
  if index = 0 then some []
  else if index = 0xFF then some ((List.range 32).map (measureBlock s))
  else if index ≤ 32 then some [measureBlock s (index - 1)]
  else none

/-- The requester's context, which 1.3 returns. -/
def spdmContext (c : Spdm) (bs : List Byte) : List Byte := if c.version = 0x13 then padTo 8 bs else []

/-- CHALLENGE_AUTH, for slot 0 or 1: the hash of its chain, a nonce, the summary of the measurements where it is asked for, and both signatures. -/
def answerChallenge (s : State) (k : Nat) (req : List Byte) (c : Spdm) : SpdmAnswer :=
  let slot := (nth req 2 0).toNat % 16
  if 1 < slot then (spdmError c.version 0x01, c) else
  let summary := if nth req 3 0 = 0 then [] else sha384 ((List.range 32).flatMap (measureBlock s))
  let head := [c.version, 0x03, BitVec.ofNat 8 slot, 3] ++ sha384 (Config.certChain slot) ++ padTo 32 (Config.spdmNonce k) ++ summary
    ++ spdmContext c (req.drop 36)
  (signedAnswer (c.vca ++ c.certs) req head, { c with certs := [] })

/-- MEASUREMENTS: the blocks asked for, signed where the request asks for a signature. -/
def answerMeasurements (s : State) (k : Nat) (req : List Byte) (c : Spdm) : SpdmAnswer :=
  let index := (nth req 3 0).toNat
  let sign := bit (nth req 2 0).toNat 0
  match measureBlocks s index with
  | none => (spdmError c.version 0x01, c)
  | some blocks =>
    let record := blocks.flatten
    let head := [c.version, 0x60, if index = 0 then 32 else 0, if sign then BitVec.ofNat 8 ((nth req 36 0).toNat % 16) else 0]
      ++ [BitVec.ofNat 8 blocks.length] ++ leBytes 3 record.length ++ record ++ padTo 32 (Config.spdmNonce k)
      ++ spdmContext c (req.drop (if sign then 37 else 4))
    if sign then (signedAnswer (c.vca ++ c.meas) req head, { c with meas := [] })
    else
      let rsp := head ++ leBytes 2 0
      (rsp, { c with meas := c.meas ++ req ++ rsp })

/-- KEY_EXCHANGE_RSP, for slot 0 or 1: its parameters, both signatures and its verify data. -/
def answerExchange (k : Nat) (req : List Byte) (c : Spdm) : SpdmAnswer :=
  let slot := (nth req 3 0).toNat % 16
  if 1 < slot then (spdmError c.version 0x01, c) else
  let head := [c.version, 0x64] ++ Config.spdmExchange k req
  (signedAnswer (c.vca ++ sha384 (Config.certChain slot)) req head ++ Config.spdmVerify k req, c)

/-! ## SPDM_REQUEST -/

/-- The answer to a request of a version that the connection supports. -/
def spdmAnswer (s : State) (k : Nat) (req : List Byte) (c : Spdm) : SpdmAnswer :=
  let code := nth req 1 0
  if code = spdmGetCapabilities then answerCapabilities req c
  else if code = spdmNegotiate then answerAlgorithms req c
  else if code = spdmGetDigests then answerDigests req c
  else if code = spdmGetCertificate then answerCertificate req c
  else if code = spdmChallenge then answerChallenge s k req c
  else if code = spdmGetMeasurements then answerMeasurements s k req c
  else if code = spdmKeyExchange then answerExchange k req c
  else (Config.spdmOther k req, c)

/-- SPDM_REQUEST: the PF answers; a device whose boot has stopped answers GET_VERSION only (R389). -/
def execSpdmRequest (request : List Byte) (s : State) : Out :=
  let (k, s1) := draw s
  let version := nth request 0 0
  let code := nth request 1 0
  if s.io.stopped ∧ code ≠ spdmGetVersion then .next s else
  let a := if code = spdmGetVersion then answerVersion request
    else if version = 0x12 ∨ version = 0x13 then spdmAnswer s k request s.io.spdm
    else (spdmError 0x10 0x41, s.io.spdm)
  .next { s1 with spdmOut := a.1 :: s.spdmOut, io := { s1.io with spdm := a.2 } }

end Sys2Proof.Machine
end

