-- ==== Sys2Proof/Machine/Umeno.lean ====
section
/-!
DEFINITION. Umeno streams: flits received, acknowledgements, and their loss (R377 to R379).
-/

namespace Sys2Proof.Machine

open Sys2Proof

/-- A stream of a partition. -/
def State.stream? (s : State) (part i : Nat) : Option Stream := Table.find i (s.part part).streams

/-- Changes a stream. -/
def State.setStream (s : State) (part i : Nat) (x : Stream) : State :=
  s.setPart part { s.part part with streams := Table.set i x (s.part part).streams }

/-- The acknowledgement of a flit leaves, with a cause or 0 (R378). -/
def acknowledge (part i seq cause : Nat) (s : State) : State := sendFlit part i 2 ⟨0, BitVec.ofNat 8 cause, w64 seq, []⟩ s

/-- A write that is not performed is reported on the fault ring (R372, R378). -/
def refuseFlit (part : Nat) (va : Word) (cause : Nat) (s : State) : State :=
  if noticeRoom s part then writeNotice part [0, va, w64 (cause * 256 + 2), 0] s
  else countDrop part s

/-- What a write (type 0) or reduction (1) of a peer leaves at translated bytes. -/
def flitBytes (type : Nat) (f : FlitBody) (pa : Nat) (s : State) : List Byte :=
  if type = 1 then
    let n := f.data.length
    leBytes n (aopApply f.code.toNat n (leNat (peek s pa n)) (leNat f.data) 0)
  else f.data

/-- The party number of a peer device: a release of one of its writes covers those that it had sent before (R379; log 15). -/
def peerParty (src : Nat) : Nat := hostParty + 2 ^ 17 + src % 2 ^ 22

/-- An accepted write or reduction is translated and performed, or refused: the cause that its acknowledgement carries (R378). -/
def performFlit (part type src : Nat) (f : FlitBody) (s : State) : Nat × State :=
  let n := f.data.length
  if n = 0 then (0, s) else
  match windowPa s part f.addr n (if type = 1 then .rw else .write) with
  | (.error (cause, va), s1) => (cause, refuseFlit part va cause s1)
  | (.ok pa, s1) =>
    let s2 := touchHeap pa (settleLines pa n s1)
    if writeFails s2 pa n || (type == 1 && readFails s2 pa n) then (cMEMERR, refuseFlit part f.addr cMEMERR (noteMemerr part f.addr s2)) else
    let s3 := poke 0 (peerParty src) pa (flitBytes type f pa s2) s2
    (0, if type = 0 ∧ f.code = 1 then addRelease pa f.data 0 (16 * 5 + 14) (View.zero.add (peerParty src) s3.writeSeq) s3 else s3)

/-! ## Delivery (R378) -/

/-- The OPEN streams of a flit's number and source, by partition. -/
def flitStreams (s : State) (h : FlitHead) : List (Nat × Stream) :=
  (List.range 16).filterMap (fun p =>
    match s.stream? p h.stream.toNat with
    | some x => if x.state = 1 ∧ x.peer = h.src.toNat then some (p, x) else none
    | none => none)

/-- What a flit says under the key of a stream, where its tag verifies. -/
def flitFor (flit : List Byte) (q : Nat × Stream) : Option FlitBody := (openFlit (q.2.key.getD []) flit).map FlitBody.read

/-- The stream that a flit is delivered to, with what it says there: of those of its number and source the one of the partition that the sender
names, as the flit says it under a key for which it verifies; where it verifies for none, the first (DESIGN CHOICE, log 15).  A flit that names a partition
without such a stream is discarded. -/
def flitStream (s : State) (flit : List Byte) : Option (Nat × Stream × Option FlitBody) :=
  let qs := flitStreams s (FlitHead.read (flit.take 16))
  match qs.findSome? (flitFor flit) with
  | some b => (qs.find? (fun q => q.1 == b.part.toNat)).map (fun q => (q.1, q.2, flitFor flit q))
  | none => qs.head?.map (fun q => (q.1, q.2, none))

/-- A flit for this device is delivered: one that names no stream is discarded, one that does not verify or is not the next fails its stream, and an
accepted one has its effect. -/
def receiveFlit (flit : List Byte) (act : Nat → FlitHead → FlitBody → State → State) (s : State) : Out :=
  let h := FlitHead.read (flit.take 16)
  let i := h.stream.toNat
  if h.dest ≠ s.io.devid then .next s else
  match flitStream s flit with
  | none => .next s
  | some (part, x, body) =>
    match body with
    | none => .next (s.setStream part i { x with state := 2 })
    | some b =>
      if h.seq.toNat ≠ x.rxseq then .next (s.setStream part i { x with state := 2 })
      else .next (act part h b (s.setStream part i { x with rxseq := x.rxseq + 1 }))

/-- A write or reduction is performed, then acknowledged; a reserved type says nothing. -/
def flitEffect (part : Nat) (h : FlitHead) (b : FlitBody) (s : State) : State :=
  if 2 ≤ h.type.toNat then s else
  let r := performFlit part h.type.toNat h.src.toNat b s
  acknowledge part h.stream.toNat h.seq.toNat r.1 r.2

/-- UMENO_FLIT_RECEIVE: a flit other than an acknowledgement. -/
def execUmenoFlitReceive (header payload tag : List Byte) (s : State) : Out :=
  let flit := header ++ payload ++ tag
  if (FlitHead.read (flit.take 16)).type = 2 then .next s else receiveFlit flit flitEffect s

/-- A window write is acknowledged, with a cause or without (R379); the operation that made it is complete with its last. -/
def ackWrite (part stream seq cause : Nat) (s : State) : State :=
  let mine := fun (w : WindowWrite) => w.part == part && w.stream == stream && w.seq == seq
  if cause = 0 then
    let left := s.outbound.filter (fun w => !mine w)
    (s.outbound.filter mine).foldl (fun t w => if left.any (fun v => v.owner == w.owner && v.job == w.job) then t else finishPosted w.owner w.job [] t)
      { s with outbound := left }
  else { s with outbound := s.outbound.map (fun (w : WindowWrite) => if mine w then { w with failed := true } else w) }

/-- UMENO_ACK_RECEIVE: an acknowledgement of the write whose SEQ it names; the header's SEQ stands in its low half. -/
def execUmenoAckReceive (seq ident payload tag : List Byte) (s : State) : Out :=
  let flit := seq ++ ident ++ payload ++ tag
  if (FlitHead.read (flit.take 16)).type ≠ 2 then .next s else
  receiveFlit flit (fun part h b t => ackWrite part h.stream.toNat b.addr.toNat b.code.toNat t) s

/-- UMENO_ACK_TIMEOUT: a window write was not acknowledged; its stream fails, and every write that waits on it is lost (R378, R379). -/
def execUmenoAckTimeout (part stream : Nat) (s : State) : Out :=
  let mine := fun (w : WindowWrite) => w.part == part && w.stream == stream && !w.failed
  match s.stream? part stream with
  | none => .next s
  | some x =>
    if !s.outbound.any mine then .next s else
    .next { (s.setStream part stream { x with state := 2 }) with
      outbound := s.outbound.map (fun (w : WindowWrite) => if mine w then { w with failed := true } else w) }

end Sys2Proof.Machine
end

