-- ==== Sys2Proof/Machine/Dispatch.lean ====
section
/-!
DEFINITION. The meaning of every step, by constructor of Instr.
-/

namespace Sys2Proof.Machine

/-- The step that an instruction takes. -/
def exec (i : Instr) (s : State) : Host.Outcome State Fault Refusal :=
  match i with
  | .add d a b => Sys2Proof.Machine.execAdd d a b s
  | .sub d a b => Sys2Proof.Machine.execSub d a b s
  | .mul d a b => Sys2Proof.Machine.execMul d a b s
  | .mulh d a b => Sys2Proof.Machine.execMulh d a b s
  | .mulhn d a b => Sys2Proof.Machine.execMulhn d a b s
  | .div d a b => Sys2Proof.Machine.execDiv d a b s
  | .divn d a b => Sys2Proof.Machine.execDivn d a b s
  | .rem d a b => Sys2Proof.Machine.execRem d a b s
  | .remn d a b => Sys2Proof.Machine.execRemn d a b s
  | .and d a b => Sys2Proof.Machine.execAnd d a b s
  | .or d a b => Sys2Proof.Machine.execOr d a b s
  | .xor d a b => Sys2Proof.Machine.execXor d a b s
  | .sll d a b => Sys2Proof.Machine.execSll d a b s
  | .srl d a b => Sys2Proof.Machine.execSrl d a b s
  | .sra d a b => Sys2Proof.Machine.execSra d a b s
  | .slt d a b => Sys2Proof.Machine.execSlt d a b s
  | .sltn d a b => Sys2Proof.Machine.execSltn d a b s
  | .min d a b => Sys2Proof.Machine.execMin d a b s
  | .max d a b => Sys2Proof.Machine.execMax d a b s
  | .minn d a b => Sys2Proof.Machine.execMinn d a b s
  | .maxn d a b => Sys2Proof.Machine.execMaxn d a b s
  | .clz d a => Sys2Proof.Machine.execClz d a s
  | .popc d a => Sys2Proof.Machine.execPopc d a s
  | .sextB d a => Sys2Proof.Machine.execSextB d a s
  | .sextH d a => Sys2Proof.Machine.execSextH d a s
  | .sextW d a => Sys2Proof.Machine.execSextW d a s
  | .zextB d a => Sys2Proof.Machine.execZextB d a s
  | .zextH d a => Sys2Proof.Machine.execZextH d a s
  | .zextW d a => Sys2Proof.Machine.execZextW d a s
  | .addi d a imm => Sys2Proof.Machine.execAddi d a imm s
  | .andi d a imm => Sys2Proof.Machine.execAndi d a imm s
  | .ori d a imm => Sys2Proof.Machine.execOri d a imm s
  | .xori d a imm => Sys2Proof.Machine.execXori d a imm s
  | .slti d a imm => Sys2Proof.Machine.execSlti d a imm s
  | .slli d a sh => Sys2Proof.Machine.execSlli d a sh s
  | .srli d a sh => Sys2Proof.Machine.execSrli d a sh s
  | .srai d a sh => Sys2Proof.Machine.execSrai d a sh s
  | .li d imm => Sys2Proof.Machine.execLi d imm s
  | .lih d imm => Sys2Proof.Machine.execLih d imm s
  | .addiL d a imm => Sys2Proof.Machine.execAddiL d a imm s
  | .andiL d a imm => Sys2Proof.Machine.execAndiL d a imm s
  | .oriL d a imm => Sys2Proof.Machine.execOriL d a imm s
  | .xoriL d a imm => Sys2Proof.Machine.execXoriL d a imm s
  | .jalL d off => Sys2Proof.Machine.execJalL d off s
  | .copyi d a len => Sys2Proof.Machine.execCopyi d a len s
  | .ld d a size off => Sys2Proof.Machine.execLd d a size off s
  | .ldn d a size off => Sys2Proof.Machine.execLdn d a size off s
  | .st d a size off => Sys2Proof.Machine.execSt d a size off s
  | .lda d a scope size off => Sys2Proof.Machine.execLda d a scope size off s
  | .stl d a scope size off => Sys2Proof.Machine.execStl d a scope size off s
  | .ldm d a n off => Sys2Proof.Machine.execLdm d a n off s
  | .stm d a n off => Sys2Proof.Machine.execStm d a n off s
  | .amoadd d a b size scope => Sys2Proof.Machine.execAmoadd d a b size scope s
  | .amomin d a b size scope => Sys2Proof.Machine.execAmomin d a b size scope s
  | .amominn d a b size scope => Sys2Proof.Machine.execAmominn d a b size scope s
  | .amomax d a b size scope => Sys2Proof.Machine.execAmomax d a b size scope s
  | .amomaxn d a b size scope => Sys2Proof.Machine.execAmomaxn d a b size scope s
  | .amoand d a b size scope => Sys2Proof.Machine.execAmoand d a b size scope s
  | .amoor d a b size scope => Sys2Proof.Machine.execAmoor d a b size scope s
  | .amoxor d a b size scope => Sys2Proof.Machine.execAmoxor d a b size scope s
  | .amoswp d a b size scope => Sys2Proof.Machine.execAmoswp d a b size scope s
  | .amocas d a b size scope => Sys2Proof.Machine.execAmocas d a b size scope s
  | .amofaddF32 d a b scope => Sys2Proof.Machine.execAmofaddF32 d a b scope s
  | .amofaddBf16 d a b scope => Sys2Proof.Machine.execAmofaddBf16 d a b scope s
  | .redadd a b size scope => Sys2Proof.Machine.execRedadd a b size scope s
  | .redmin a b size scope => Sys2Proof.Machine.execRedmin a b size scope s
  | .redminn a b size scope => Sys2Proof.Machine.execRedminn a b size scope s
  | .redmax a b size scope => Sys2Proof.Machine.execRedmax a b size scope s
  | .redmaxn a b size scope => Sys2Proof.Machine.execRedmaxn a b size scope s
  | .redand a b size scope => Sys2Proof.Machine.execRedand a b size scope s
  | .redor a b size scope => Sys2Proof.Machine.execRedor a b size scope s
  | .redxor a b size scope => Sys2Proof.Machine.execRedxor a b size scope s
  | .redfaddF32 a b scope => Sys2Proof.Machine.execRedfaddF32 a b scope s
  | .redfaddBf16 a b scope => Sys2Proof.Machine.execRedfaddBf16 a b scope s
  | .beq a b off => Sys2Proof.Machine.execBeq a b off s
  | .bne a b off => Sys2Proof.Machine.execBne a b off s
  | .blt a b off => Sys2Proof.Machine.execBlt a b off s
  | .bge a b off => Sys2Proof.Machine.execBge a b off s
  | .bltn a b off => Sys2Proof.Machine.execBltn a b off s
  | .bgen a b off => Sys2Proof.Machine.execBgen a b off s
  | .jal l off => Sys2Proof.Machine.execJal l off s
  | .jalr d a imm => Sys2Proof.Machine.execJalr d a imm s
  | .rep a len => Sys2Proof.Machine.execRep a len s
  | .fence scope classes => Sys2Proof.Machine.execFence scope classes s
  | .phase d => Sys2Proof.Machine.execPhase d s
  | .bar a b => Sys2Proof.Machine.execBar a b s
  | .nop => Sys2Proof.Machine.execNop s
  | .trap code => Sys2Proof.Machine.execTrap code s
  | .rft => Sys2Proof.Machine.execRft s
  | .brk => Sys2Proof.Machine.execBrk s
  | .krd d k => Sys2Proof.Machine.execKrd d k s
  | .kwr a k => Sys2Proof.Machine.execKwr a k s
  | .cinval => Sys2Proof.Machine.execCinval s
  | .cyc d => Sys2Proof.Machine.execCyc d s
  | .cycCore d => Sys2Proof.Machine.execCycCore d s
  | .enrd d sel => Sys2Proof.Machine.execEnrd d sel s
  | .enrdRing d a sel => Sys2Proof.Machine.execEnrdRing d a sel s
  | .featrd d a => Sys2Proof.Machine.execFeatrd d a s
  | .featrdOffer d a => Sys2Proof.Machine.execFeatrdOffer d a s
  | .segld d a => Sys2Proof.Machine.execSegld d a s
  | .segrun d a b => Sys2Proof.Machine.execSegrun d a b s
  | .segstop a => Sys2Proof.Machine.execSegstop a s
  | .segwait d a b => Sys2Proof.Machine.execSegwait d a b s
  | .strbind d a => Sys2Proof.Machine.execStrbind d a s
  | .strfree d a => Sys2Proof.Machine.execStrfree d a s
  | .cfginv a => Sys2Proof.Machine.execCfginv a s
  | .copy d a => Sys2Proof.Machine.execCopy d a s
  | .pbinv a => Sys2Proof.Machine.execPbinv a s
  | .flsig d a b => Sys2Proof.Machine.execFlsig d a b s
  | .flsigW d a b => Sys2Proof.Machine.execFlsigW d a b s
  | .evpop d a => Sys2Proof.Machine.execEvpop d a s
  | .evwait d a b => Sys2Proof.Machine.execEvwait d a b s
  | .evpeek d a => Sys2Proof.Machine.execEvpeek d a s
  | .cspawn a b die remote prio => Sys2Proof.Machine.execCspawn a b die remote prio s
  | .cjoin a => Sys2Proof.Machine.execCjoin a s
  | .cexit => Sys2Proof.Machine.execCexit s
  | .cyield => Sys2Proof.Machine.execCyield s
  | .rgset a b r => Sys2Proof.Machine.execRgset a b r s
  | .rgtake d r => Sys2Proof.Machine.execRgtake d r s
  | .vdecl d a => Sys2Proof.Machine.execVdecl d a s
  | .vst d a b => Sys2Proof.Machine.execVst d a b s
  | .vld d a b => Sys2Proof.Machine.execVld d a b s
  | .vldl d a b => Sys2Proof.Machine.execVldl d a b s
  | .vfloorRegister d a b => Sys2Proof.Machine.execVfloorRegister d a b s
  | .vfloorRaise d a b => Sys2Proof.Machine.execVfloorRaise d a b s
  | .vfloorDeregister d a b => Sys2Proof.Machine.execVfloorDeregister d a b s
  | .vdrop a => Sys2Proof.Machine.execVdrop a s
  | .vstat d a sel => Sys2Proof.Machine.execVstat d a sel s
  | .exreg a => Sys2Proof.Machine.execExreg a s
  | .exstat d a b sel => Sys2Proof.Machine.execExstat d a b sel s
  | .plrep d a b => Sys2Proof.Machine.execPlrep d a b s
  | .plret d a b => Sys2Proof.Machine.execPlret d a b s
  | .plretUrgent d a b => Sys2Proof.Machine.execPlretUrgent d a b s
  | .plpol a => Sys2Proof.Machine.execPlpol a s
  | .plsync d => Sys2Proof.Machine.execPlsync d s
  | .ctxsave d a b => Sys2Proof.Machine.execCtxsave d a b s
  | .ctxrest d a => Sys2Proof.Machine.execCtxrest d a s
  | .preempt d a => Sys2Proof.Machine.execPreempt d a s
  | .qquiesce a => Sys2Proof.Machine.execQquiesce a s
  | .qresume a => Sys2Proof.Machine.execQresume a s
  | .fwstage d a b => Sys2Proof.Machine.execFwstage d a b s
  | .fwverify d => Sys2Proof.Machine.execFwverify d s
  | .measure a b => Sys2Proof.Machine.execMeasure a b s
  | .slotsw a => Sys2Proof.Machine.execSlotsw a s
  | .hbeat => Sys2Proof.Machine.execHbeat s
  | .keyld d a b => Sys2Proof.Machine.execKeyld d a b s
  | .blockedInstructionComplete tid => Sys2Proof.Machine.execBlockedInstructionComplete tid s
  | .evwaitTimeout tid => Sys2Proof.Machine.execEvwaitTimeout tid s
  | .continuationDispatch core launch => Sys2Proof.Machine.execContinuationDispatch core launch s
  | .phaseBoundary launch => Sys2Proof.Machine.execPhaseBoundary launch s
  | .elemAdd w => Sys2Proof.Machine.execElemAdd w s
  | .elemSub w => Sys2Proof.Machine.execElemSub w s
  | .elemMul w => Sys2Proof.Machine.execElemMul w s
  | .elemMulh w => Sys2Proof.Machine.execElemMulh w s
  | .neg w => Sys2Proof.Machine.execNeg w s
  | .abs w => Sys2Proof.Machine.execAbs w s
  | .elemMin w => Sys2Proof.Machine.execElemMin w s
  | .elemMax w => Sys2Proof.Machine.execElemMax w s
  | .adds w => Sys2Proof.Machine.execAdds w s
  | .subs w => Sys2Proof.Machine.execSubs w s
  | .avg w => Sys2Proof.Machine.execAvg w s
  | .clamp w => Sys2Proof.Machine.execClamp w s
  | .elemAnd w => Sys2Proof.Machine.execElemAnd w s
  | .elemOr w => Sys2Proof.Machine.execElemOr w s
  | .elemXor w => Sys2Proof.Machine.execElemXor w s
  | .shl w => Sys2Proof.Machine.execShl w s
  | .shr w => Sys2Proof.Machine.execShr w s
  | .sar w => Sys2Proof.Machine.execSar w s
  | .rot w => Sys2Proof.Machine.execRot w s
  | .elemClz w => Sys2Proof.Machine.execElemClz w s
  | .elemPopc w => Sys2Proof.Machine.execElemPopc w s
  | .sel w => Sys2Proof.Machine.execSel w s
  | .cmpEq w => Sys2Proof.Machine.execCmpEq w s
  | .cmpNe w => Sys2Proof.Machine.execCmpNe w s
  | .cmpLt w => Sys2Proof.Machine.execCmpLt w s
  | .cmpLe w => Sys2Proof.Machine.execCmpLe w s
  | .cmpGt w => Sys2Proof.Machine.execCmpGt w s
  | .cmpGe w => Sys2Proof.Machine.execCmpGe w s
  | .widenL w => Sys2Proof.Machine.execWidenL w s
  | .widenH w => Sys2Proof.Machine.execWidenH w s
  | .narrow w => Sys2Proof.Machine.execNarrow w s
  | .shuf w => Sys2Proof.Machine.execShuf w s
  | .bcast w => Sys2Proof.Machine.execBcast w s
  | .extr w => Sys2Proof.Machine.execExtr w s
  | .ins w => Sys2Proof.Machine.execIns w s
  | .fadd f w => Sys2Proof.Machine.execFadd f w s
  | .fsub f w => Sys2Proof.Machine.execFsub f w s
  | .fmul f w => Sys2Proof.Machine.execFmul f w s
  | .ffma f w => Sys2Proof.Machine.execFfma f w s
  | .fmin w => Sys2Proof.Machine.execFmin w s
  | .fmax w => Sys2Proof.Machine.execFmax w s
  | .fabs w => Sys2Proof.Machine.execFabs w s
  | .fneg w => Sys2Proof.Machine.execFneg w s
  | .cvt w => Sys2Proof.Machine.execCvt w s
  | .fcmpEq w => Sys2Proof.Machine.execFcmpEq w s
  | .fcmpNe w => Sys2Proof.Machine.execFcmpNe w s
  | .fcmpLt w => Sys2Proof.Machine.execFcmpLt w s
  | .fcmpLe w => Sys2Proof.Machine.execFcmpLe w s
  | .fcmpGt w => Sys2Proof.Machine.execFcmpGt w s
  | .fcmpGe w => Sys2Proof.Machine.execFcmpGe w s
  | .rcp w => Sys2Proof.Machine.execRcp w s
  | .rsq w => Sys2Proof.Machine.execRsq w s
  | .sqrt w => Sys2Proof.Machine.execSqrt w s
  | .exp2 w => Sys2Proof.Machine.execExp2 w s
  | .log2 w => Sys2Proof.Machine.execLog2 w s
  | .tanh w => Sys2Proof.Machine.execTanh w s
  | .sigm w => Sys2Proof.Machine.execSigm w s
  | .erf w => Sys2Proof.Machine.execErf w s
  | .rsum w => Sys2Proof.Machine.execRsum w s
  | .rmax w => Sys2Proof.Machine.execRmax w s
  | .rmin w => Sys2Proof.Machine.execRmin w s
  | .tagi w => Sys2Proof.Machine.execTagi w s
  | .tagf w => Sys2Proof.Machine.execTagf w s
  | .tagr w => Sys2Proof.Machine.execTagr w s
  | .tinc w => Sys2Proof.Machine.execTinc w s
  | .tget w => Sys2Proof.Machine.execTget w s
  | .steer w => Sys2Proof.Machine.execSteer w s
  | .gate w => Sys2Proof.Machine.execGate w s
  | .const w => Sys2Proof.Machine.execConst w s
  | .sink w => Sys2Proof.Machine.execSink w s
  | .talloc w => Sys2Proof.Machine.execTalloc w s
  | .tshrink w => Sys2Proof.Machine.execTshrink w s
  | .tcfg w => Sys2Proof.Machine.execTcfg w s
  | .tzero w => Sys2Proof.Machine.execTzero w s
  | .tmov w => Sys2Proof.Machine.execTmov w s
  | .text w => Sys2Proof.Machine.execText w s
  | .tins w => Sys2Proof.Machine.execTins w s
  | .wlatch w => Sys2Proof.Machine.execWlatch w s
  | .afmt w => Sys2Proof.Machine.execAfmt w s
  | .acfg w => Sys2Proof.Machine.execAcfg w s
  | .mmaT2 w => Sys2Proof.Machine.execMmaT2 w s
  | .mmaF4 w => Sys2Proof.Machine.execMmaF4 w s
  | .mmaF8 w => Sys2Proof.Machine.execMmaF8 w s
  | .mmaBf16 w => Sys2Proof.Machine.execMmaBf16 w s
  | .mmg w => Sys2Proof.Machine.execMmg w s
  | .mmgCopy x e => Sys2Proof.Machine.execMmgCopy x e s
  | .tokenArrival x k => Sys2Proof.Machine.execTokenArrival x k s
  | .elementEos x e => Sys2Proof.Machine.execElementEos x e s
  | .agenEmit x o => Sys2Proof.Machine.execAgenEmit x o s
  | .loadAccess x o => Sys2Proof.Machine.execLoadAccess x o s
  | .loadTileFill x o => Sys2Proof.Machine.execLoadTileFill x o s
  | .storeAccess x o => Sys2Proof.Machine.execStoreAccess x o s
  | .storeEos x o => Sys2Proof.Machine.execStoreEos x o s
  | .atomicAccess x o => Sys2Proof.Machine.execAtomicAccess x o s
  | .sendTransfer x o => Sys2Proof.Machine.execSendTransfer x o s
  | .sendCompletion x o => Sys2Proof.Machine.execSendCompletion x o s
  | .operatorCompletion x o => Sys2Proof.Machine.execOperatorCompletion x o s
  | .vloadAccess x o => Sys2Proof.Machine.execVloadAccess x o s
  | .vstoreAccess x o => Sys2Proof.Machine.execVstoreAccess x o s
  | .joinFire x o => Sys2Proof.Machine.execJoinFire x o s
  | .accumCombine x o k => Sys2Proof.Machine.execAccumCombine x o k s
  | .loopEntry x o => Sys2Proof.Machine.execLoopEntry x o s
  | .loopExit x o => Sys2Proof.Machine.execLoopExit x o s
  | .mergeForward x o => Sys2Proof.Machine.execMergeForward x o s
  | .operatorEosForward x o => Sys2Proof.Machine.execOperatorEosForward x o s
  | .routeRequest x o => Sys2Proof.Machine.execRouteRequest x o s
  | .routeAcknowledgement x o => Sys2Proof.Machine.execRouteAcknowledgement x o s
  | .routeTableRead x o => Sys2Proof.Machine.execRouteTableRead x o s
  | .runStart run => Sys2Proof.Machine.execRunStart run s
  | .scrollStepBoundary run => Sys2Proof.Machine.execScrollStepBoundary run s
  | .waveDelivery run => Sys2Proof.Machine.execWaveDelivery run s
  | .runHalt run => Sys2Proof.Machine.execRunHalt run s
  | .runEnd run => Sys2Proof.Machine.execRunEnd run s
  | .postedStorePerform k => Sys2Proof.Machine.execPostedStorePerform k s
  | .writeQueueApply stack => Sys2Proof.Machine.execWriteQueueApply stack s
  | .faultRecordWrite k => Sys2Proof.Machine.execFaultRecordWrite k s
  | .faultResolve launch die slot => Sys2Proof.Machine.execFaultResolve launch die slot s
  | .copyChunk job => Sys2Proof.Machine.execCopyChunk job s
  | .copyComplete job => Sys2Proof.Machine.execCopyComplete job s
  | .segldComplete job => Sys2Proof.Machine.execSegldComplete job s
  | .flsigComplete job => Sys2Proof.Machine.execFlsigComplete job s
  | .preemptHalted launch => Sys2Proof.Machine.execPreemptHalted launch s
  | .ctxsaveComplete launch => Sys2Proof.Machine.execCtxsaveComplete launch s
  | .ctxrestComplete launch => Sys2Proof.Machine.execCtxrestComplete launch s
  | .probeRound unit => Sys2Proof.Machine.execProbeRound unit s
  | .probeReceive k => Sys2Proof.Machine.execProbeReceive k s
  | .placementWindowBoundary part => Sys2Proof.Machine.execPlacementWindowBoundary part s
  | .placementCheck part act => Sys2Proof.Machine.execPlacementCheck part act s
  | .placementCopyEnd part act => Sys2Proof.Machine.execPlacementCopyEnd part act s
  | .placementPublish part act => Sys2Proof.Machine.execPlacementPublish part act s
  | .placementDrainEnd part act => Sys2Proof.Machine.execPlacementDrainEnd part act s
  | .sqwrWrite part req q value => Sys2Proof.Machine.execSqwrWrite part req q value s
  | .packetFetch part q => Sys2Proof.Machine.execPacketFetch part q s
  | .launch part q => Sys2Proof.Machine.execLaunch part q s
  | .launchPlacement launch => Sys2Proof.Machine.execLaunchPlacement launch s
  | .loadobj part q => Sys2Proof.Machine.execLoadobj part q s
  | .unloadobj part q => Sys2Proof.Machine.execUnloadobj part q s
  | .nopPacket part q => Sys2Proof.Machine.execNopPacket part q s
  | .objectRemove part obj => Sys2Proof.Machine.execObjectRemove part obj s
  | .launchComplete launch => Sys2Proof.Machine.execLaunchComplete launch s
  | .queueEnable part req q => Sys2Proof.Machine.execQueueEnable part req q s
  | .queueDisable part req q => Sys2Proof.Machine.execQueueDisable part req q s
  | .queueReset part req q => Sys2Proof.Machine.execQueueReset part req q s
  | .queueResetComplete part q => Sys2Proof.Machine.execQueueResetComplete part q s
  | .invalidationStart part req seq => Sys2Proof.Machine.execInvalidationStart part req seq s
  | .invalidationComplete part => Sys2Proof.Machine.execInvalidationComplete part s
  | .featacceptWrite part req k value => Sys2Proof.Machine.execFeatacceptWrite part req k value s
  | .assignmentBlockWrite part k value => Sys2Proof.Machine.execAssignmentBlockWrite part k value s
  | .devidWrite value => Sys2Proof.Machine.execDevidWrite value s
  | .streamEntryWrite part req entry value => Sys2Proof.Machine.execStreamEntryWrite part req entry value s
  | .registerWrite part req off value => Sys2Proof.Machine.execRegisterWrite part req off value s
  | .lockInterface part secret => Sys2Proof.Machine.execLockInterface part secret s
  | .startInterface part => Sys2Proof.Machine.execStartInterface part s
  | .stopInterface part => Sys2Proof.Machine.execStopInterface part s
  | .tdiError part => Sys2Proof.Machine.execTdiError part s
  | .spdmRequest request => Sys2Proof.Machine.execSpdmRequest request s
  | .inboundWrite part req off data => Sys2Proof.Machine.execInboundWrite part req off data s
  | .inboundWriteRelease k => Sys2Proof.Machine.execInboundWriteRelease k s
  | .inboundWritePerform k => Sys2Proof.Machine.execInboundWritePerform k s
  | .inboundRead part req off len => Sys2Proof.Machine.execInboundRead part req off len s
  | .inboundAtomic part req off bytes op operand compare => Sys2Proof.Machine.execInboundAtomic part req off bytes op operand compare s
  | .umenoFlitReceive header payload tag => Sys2Proof.Machine.execUmenoFlitReceive header payload tag s
  | .umenoAckReceive seq ident payload tag => Sys2Proof.Machine.execUmenoAckReceive seq ident payload tag s
  | .umenoAckTimeout part stream => Sys2Proof.Machine.execUmenoAckTimeout part stream s
  | .dieLinkDown arrived => Sys2Proof.Machine.execDieLinkDown arrived s
  | .dieFirmwareFault die => Sys2Proof.Machine.execDieFirmwareFault die s
  | .deviceReset => Sys2Proof.Machine.execDeviceReset s
  | .firstHeartbeatDeadline => Sys2Proof.Machine.execFirstHeartbeatDeadline s
  | .heartbeatDeadline => Sys2Proof.Machine.execHeartbeatDeadline s
  | .launchWatchdogExpiry launch => Sys2Proof.Machine.execLaunchWatchdogExpiry launch s
  | .energyWindowBoundary => Sys2Proof.Machine.execEnergyWindowBoundary s
  | .uncorrectableError space addr => Sys2Proof.Machine.execUncorrectableError space addr s
  | .postedReductionPerform k => Sys2Proof.Machine.execPostedReductionPerform k s

end Sys2Proof.Machine
end

