-- ==== Sys2Proof/Machine/Fetch.lean ====
section
/-!
DEFINITION. What a core does around an instruction: breakpoints (R145), fetch (R31, R36, R129, R146), and the placing of an
instruction where the next step fetches it.
-/

namespace Sys2Proof.Machine

open Sys2Proof

/-- The lowest breakpoint that matches the next instruction (R145). -/
def breakpointHit (s : State) : Option Nat :=
  if s.th.noBreak then none else
  (List.range 8).find? (fun i => s.ctx.brkCtl.getLsbD i && (Table.getD s.ctx.brkAddr i 0 == s.th.pc))

/-- Where a core's fetch buffers keep the word at an address. -/
def fetchKey (s : State) (va : Word) : Nat := 2 ^ 64 * s.partNow + va.toNat

/-- The address lies in the body of the active loop, which is short enough to run from the loop buffer without refetch (R129). -/
def inLoopBuffer (s : State) (va : Word) : Bool :=
  let lp := s.th.loop
  lp.active && decide (lp.start.toNat ≤ va.toNat) && decide (va.toNat < lp.stop.toNat)
    && decide (lp.stop.toNat - lp.start.toNat ≤ 256)

/-- Changes the executing core's own state, where that changes anything. -/
def State.putCore (s : State) (c : Core) : State := if s.coreAt s.core = c then s else { s with cores := Table.set s.core c s.cores }

/-- Keeps a fetched word in the core's buffers. -/
def keepWord (va : Word) (w : BitVec 32) (s : State) : State :=
  let c := s.coreAt s.core
  if Table.find (fetchKey s va) c.fetched = some w then s else s.putCore { c with fetched := Table.set (fetchKey s va) w c.fetched }

/-- The loop buffer takes up a word of its body; outside a loop, and not in a handler that suspends one, it is empty. -/
def keepBody (va : Word) (w : BitVec 32) (s : State) : State :=
  let c := s.coreAt s.core
  if inLoopBuffer s va then s.putCore { c with body := Table.set va.toNat w c.body }
  else if s.th.loop.active || (s.th.inTrap && s.th.heldLoop.active) then s
  else s.putCore { c with body := [] }

/-- Fetches a word from memory (R116, R119, R258, R267): no ordinary read, so it fixes no value (R286). -/
def fetchMemory (va : Word) (s : State) : Got (BitVec 32) :=
  (translateAt va .fetch 0 s).bind (fun pa s1 =>
    match locOf pa with
    | .host a =>
      let (k, s2) := draw (sendTlp (.read s1.partNow a 4) s1)
      if Config.hostError k then .stop (trap cMEMERR va s2) else .ok (BitVec.ofNat 32 (leNat (hostBytes k a 4))) s2
    | .umeno _ _ => .stop (trap cPROT va s1)
    | .reserved => .stop (trap cPROT va s1)
    | _ =>
      let s2 := settleLines pa 4 s1
      if readFails s2 pa 4 then .stop (trap cMEMERR va s2) else .ok (BitVec.ofNat 32 (leNat (peek s2 pa 4))) s2)

/-- Fetches a word from the core's fetch buffers or from memory (log 4). -/
def fetchFresh (va : Word) (s : State) : Got (BitVec 32) :=
  match Table.find (fetchKey s va) (s.coreAt s.core).fetched with
  | some w =>
    let (i, s1) := choose 2 s
    if i = 1 then .ok w s1 else (fetchMemory va s1).bind (fun w' s2 => .ok w' (keepWord va w' s2))
  | none => (fetchMemory va s).bind (fun w s1 => .ok w (keepWord va w s1))

/-- Fetches the word at an address: the loop buffer's where it has it, else the fetch buffers' or memory's. -/
def fetchWord (va : Word) (s : State) : Got (BitVec 32) :=
  match (if inLoopBuffer s va then Table.find va.toNat (s.coreAt s.core).body else none) with
  | some w => .ok w s
  | none => (fetchFresh va s).bind (fun w s1 => .ok w (keepBody va w s1))

/-- Fetches the words of the instruction at PC: word 0, and the next for a long form (R31). -/
def fetchInstr (s : State) : Got (Nat × Nat) :=
  (fetchWord s.th.pc s).bind (fun w0 s1 =>
    if instrLength w0.toNat = 8 then
      (fetchWord (s.th.pc + 4) s1).bind (fun w1 s2 => .ok (w0.toNat, w1.toNat) s2)
    else .ok (w0.toNat, 0) s1)

/-- The state in which an instruction of word 0 executes: the one suppressed breakpoint check is used up (R143). -/
def State.issueWord (s : State) (w0 : Nat) : State :=
  { s with ir := BitVec.ofNat 32 w0, th := { s.th with noBreak := false } }

/-- VFLOOR with op 3: the operation check comes after the feature check (R36, R177). -/
def vfloorOp3 (w0 : Nat) : Bool := bits w0 31 26 == 0x28 && bits w0 15 10 == 0x04 && bits w0 4 0 == 3

/-- What a word that is no instruction traps (R36): ILLOP; for VFLOOR with op 3, FEATOFF where versioned regions were not accepted. -/
def undefinedTrap (w0 : Nat) (s : State) : State :=
  let t := s.issueWord w0
  if vfloorOp3 w0 && !featureOn t 1 then trap cFEATOFF t.word0 t else illop t

/-- The first physical address of the page tables that `withFetchWord` lays (log 3). -/
def fetchTables : Nat := 0x100000

/-- A page-table entry: valid pointer, or a readable, writable and executable page. -/
def pointerEntry (pa : Nat) : List Byte := leBytes 8 (pa + 1)
def pageEntry (pa : Nat) : List Byte := leBytes 8 (pa + 0x1F)

/-- The state with bytes of an instruction where management core 0 fetches next: five tables and one page of management
memory that map PC's page, and the bytes on it (log 3). -/
def placeInstr (bytes : List Byte) (s : State) : State :=
  let pc := s.th.pc.toNat
  let t := fetchTables
  let m0 := s.mem.writeAll (t + 8 * bits pc 56 48) (pointerEntry (t + 4096))
  let m1 := m0.writeAll (t + 4096 + 8 * bits pc 47 39) (pointerEntry (t + 8192))
  let m2 := m1.writeAll (t + 8192 + 8 * bits pc 38 30) (pointerEntry (t + 12288))
  let m3 := m2.writeAll (t + 12288 + 8 * bits pc 29 21) (pointerEntry (t + 16384))
  let m4 := m3.writeAll (t + 16384 + 8 * bits pc 20 12) (pageEntry (t + 20480))
  let m5 := m4.writeAll (t + 20480 + pc % 4096) bytes
  { s with mem := m5, io := { s.io with mgmtRoot := t, booted := true }, agenda := [.core s.core] }

end Sys2Proof.Machine
end

