-- ==== Sys2Proof/Machine/Step.lean ====
section
/-!
DEFINITION. One step of the machine: the agent that the agenda names moves (log 2).
-/

namespace Sys2Proof.Machine

open Sys2Proof

/-- A CINVAL of the pass that ends takes effect (R146). -/
def endPass (before : Thread) (s : State) : State :=
  if (s.coreAt s.core).stale && (!s.th.loop.active || before.pc == before.loop.stop) && !s.th.inTrap then emptyBuffers s.core s else s

/-- What follows an instruction that a core executed: the end-of-pass check of R127. -/
def retire (o : Out) : Out :=
  match o with
  | .next s => .next (endPass s.th (loopEnd s))
  | .fault f => .fault f
  | .refused r => .refused r

/-- Executes the instruction of fetched words, or traps ILLOP (R36). -/
def runWords (w0 w1 : Nat) (s : State) : Out :=
  match decodeWord w0 w1 with
  | some i => retire (exec i (s.issueWord w0))
  | none => .next (undefinedTrap w0 s)

/-- The executing continuation takes one instruction: breakpoint check, fetch, decode, effect. -/
def runThread (s : State) : Out :=
  match breakpointHit s with
  | some i => .next (trap cBRKPT (w64 (0x100 + i)) s)
  | none => (fetchInstr s).andThen (fun w s1 => runWords w.1 w.2 s1)

/-- A core takes one instruction of the continuation it runs; a core that runs none does nothing. -/
def stepCore (c : Nat) (s : State) : Out :=
  if 68 ≤ c then .fault .noSuchCore else
  let s0 := { s with core := c, ir := 0 }
  match (s0.coreAt c).running with
  | none => .next s0
  | some tid =>
    let s1 := s0.focus tid
    if s1.th.id = tid ∧ s1.th.status = .running c then runThread s1 else .next s0

/-- What the agent named by a pick does. -/
def stepPick (p : Pick) (s : State) : Out :=
  match p with
  | .core c => stepCore c s
  | .issue x e =>
    issueWithRoom exec x e s 8
  | .event i => exec i s
  | .tick ns => .next (tick ns s)
  | .dropTlb k => .next { s with tlb := dropAt s.tlb k }
  | .dropConfig k => .next (dropConfig k s)

/-- The agent that moves next: the head of the agenda; without one, the core that executes, or the boot of a device that has not
booted. -/
def stepAgent (s : State) : Out :=
  match s.agenda with
  | [] => if s.io.booted then stepCore s.core s else exec .deviceReset s
  | p :: rest => stepPick p { s with agenda := rest }

/-- What blocks after a step opens its epoch (R300). -/
def withEpochs (o : Out) : Out :=
  match o with
  | .next s => .next (if s.launches.isEmpty then s else noteEpochs s)
  | .fault f => .fault f
  | .refused r => .refused r

/-- One step. -/
def step (s : State) : Out := withEpochs (stepAgent s)

/-- A run of one virtual stripe under way at its second step, on stripe 0 (log 3). -/
def probeRun (im : StripeImage) : Run :=
  { (default : Run) with image := ⟨false, [im]⟩, status := .running, width := 1, waves := 1, step := 1, stepOpen := true }

/-- The state in which an element instruction issues next: stripe 0 holds a configuration whose element 0 has it in slot 0, with one
matched instance of zero tokens ready (log 3). -/
def placeElem (w : Nat) (s : State) : State :=
  let im : StripeImage := { StripeImage.blank with elems := [(0, ⟨[(0, BitVec.ofNat 128 w)], 0, none, 0⟩)] }
  let two := match decodeElem w with | some i => arityOf i == 2 | none => false
  let e : Elem := { Elem.blank with ready := [⟨0, Token.blank, if two then some Token.blank else none⟩] }
  let st : Stripe := { Stripe.blank with run := some 0, vs := some 0, image := im, elems := [(0, e)] }
  { s with runs := [(0, probeRun im)], stripes := [(0, st)], agenda := [.issue 0 0], io := { s.io with booted := true } }

/-- The state with an instruction where the next step fetches or takes it: a control-core word at management core 0's PC, an element
word in an element of stripe 0. -/
def State.withFetchWord (s : State) (nbits w : Nat) : State :=
  if nbits ≤ 64 then placeInstr (leBytes 8 w) s else placeElem w s

end Sys2Proof.Machine
end

