-- ==== Sys2Proof/Safety.lean ====
section
/-!
DEFINITION. What a run that stops is, the invariant of a state, and the terms in which the statements about the machine are made:
what a step gives, what it leaves unchanged, which accesses a memory operand needs.
-/

namespace Sys2Proof.Machine

open Sys2Proof

/-! ## Runs -/

/-- The machine goes on from a state. -/
def GoesOn (s : State) : Prop := ∃ t, step s = .next t

/-- A state that some steps lead to. -/
inductive Leads : State → State → Prop where
  | refl (s : State) : Leads s s
  | tail {s t u : State} : Leads s t → step t = .next u → Leads s u

/-- A run from a state is safe when it stops nowhere. -/
def SafeFrom (s : State) : Prop := ∀ t, Leads s t → GoesOn t

/-- The invariant of a state: memory is in its canonical form. -/
def State.Inv (s : State) : Prop := s.mem.wf = true

/-! ## What a step gives -/

/-- The instruction answers a next state, of which P holds. -/
def Gives (i : Instr) (s : State) (P : State → Prop) : Prop := ∃ t, exec i s = .next t ∧ P t

/-- Nothing changes but g[d] and the program counter: g[d] becomes v, unless d is g0, and PC goes k further. -/
def SetsReg (d : Reg) (v : Word) (k : Nat) (s t : State) : Prop :=
  (∀ r, t.g r = if r = d ∧ d ≠ 0 then v else s.g r) ∧ t.th.pc = s.th.pc + BitVec.ofNat 64 k
    ∧ t = { s with th := { s.th with regs := t.th.regs, pc := t.th.pc } }

/-- Nothing changes but the program counter. -/
def JumpsTo (v : Word) (s t : State) : Prop := t = { s with th := { s.th with pc := v } }

/-- The general registers after a write of v to g[d] that g0 discards. -/
def RegsSet (d : Reg) (v : Word) (s t : State) : Prop := ∀ r, t.g r = if r = d ∧ d ≠ 0 then v else s.g r

/-- The general registers are as before. -/
def RegsKept (s t : State) : Prop := ∀ r, t.g r = s.g r

/-- A continuation keeps all but its registers, its program counter, what its reads have fixed and what they are ordered after. -/
def ThreadKept (s t : State) : Prop := t.th = { s.th with regs := t.th.regs, pc := t.th.pc, fixed := t.th.fixed, view := t.th.view }

/-- The machine keeps all but the executing continuation, the translations it holds and the choices still open. -/
def MachineKept (s t : State) : Prop := t = { s with th := t.th, tlb := t.tlb, choices := t.choices }

/-- No posted store, reduction or window write is under way, and no signal store of the executing continuation is still to be performed. -/
def Quiet (s : State) : Prop :=
  s.posted = [] ∧ s.reds = [] ∧ s.wqueue = [] ∧ s.outbound = [] ∧ s.flushes.all (fun j => j.owner != s.th.id || j.done) = true

/-- No earlier error waits to be reported to the executing continuation (R138). -/
def NoReport (s : State) : Prop := s.th.redErr = [] ∧ s.th.stErr = []

/-- No write races with the reads of the executing continuation, and none of its reads is fixed (R286, R287). -/
def Raceless (s : State) : Prop := s.writes = [] ∧ s.th.fixed = []

/-- An access of n bytes passes its checks and lands at an on-device address, on a page of no version heap (R117, R260, R401). -/
def Lands (va : Word) (n : Nat) (c : Cls) (s : State) (pa : Nat) (s1 : State) : Prop :=
  access va n c s = .ok pa s1 ∧ onDevice pa = true ∧ touchHeap pa s = s

/-- Bytes stand in memory from an address on, as far as fault slots let them (R274), and every other byte is as before. -/
def Stores (pa : Nat) (bs : List Byte) (s t : State) : Prop :=
  ∀ a, t.mem.read a = if pa ≤ a ∧ a < pa + bs.length then guardByte s a (nth bs (a - pa) 0) else s.mem.read a

/-- What a store performed at once may change. -/
def StoreFrame (s t : State) : Prop :=
  t = { s with th := t.th, tlb := t.tlb, choices := t.choices, mem := t.mem, writes := t.writes, writeSeq := t.writeSeq,
               errors := t.errors, releases := t.releases }

/-- An element executes an issue of one instance: the flags and the counters are recorded, the result tokens wait behind those before them, and
what has room leaves (R43, R47). -/
def Issues (i : Instr) (s : State) (toks : List Token) (fl : Nat) (lf : BitVec 32) : Prop :=
  ∀ v, s.elem? s.issue.x s.issue.e = some v →
    exec i s = .next (flushOut s.issue.x s.issue.e (s.setElem s.issue.x s.issue.e
      { v with lfsr := lf, status := (v.status.raise fl).count 1, out := v.out ++ toks }))

/-- An instruction of lanes gives a value with these lanes to every valid destination (R44, R46), with flags, and no draw of the LFSR. -/
def GivesLanes (i : Instr) (w : EWord) (s : State) (inst : Inst) (width : Nat) (lane : Nat → Nat) (fl : Nat) : Prop :=
  ∀ v, s.elem? s.issue.x s.issue.e = some v → ∃ r : Word, (∀ k, k < 64 / width → laneOf width k r = lane k) ∧
    Issues i s (wordOut w { inst.base with value := r }) fl v.lfsr

/-- An instruction gives a value to every valid destination, with no flag and no draw. -/
def GivesValue (i : Instr) (w : EWord) (s : State) (inst : Inst) (r : Word) : Prop :=
  ∀ v, s.elem? s.issue.x s.issue.e = some v → Issues i s (wordOut w { inst.base with value := r }) 0 v.lfsr

/-- A tile or matrix instruction leaves its element so, and sends tokens. -/
def LeavesElem (i : Instr) (s : State) (v : Elem) (toks : List Token) : Prop :=
  exec i s = .next (flushOut s.issue.x s.issue.e (s.setElem s.issue.x s.issue.e
    { v with status := v.status.count 1, out := v.out ++ toks }))

/-! ## Rounded values (R238 to R240) -/

/-- A number has at most `prec` bits, the lowest worth at least 2^qmin: a value of a format, its exponent unbounded above (R238). -/
def Fits (prec : Nat) (qmin : Int) (y : ℚ) : Prop := ∃ (z : Nat) (q : Int), z < 2 ^ prec ∧ qmin ≤ q ∧ |y| = z * (2 : ℚ) ^ q

/-- x rounds to r by a mode, drawing from the generator as it stands (R238 to R240): x itself where it fits; else its neighbour z toward zero or
its neighbour a away from it, by the mode.  The model draws nothing for an x that fits but for its exponent (log 56). -/
def Rounded (prec : Nat) (qmin : Int) (rm lf : Nat) (x r : ℚ) (lf' : Nat) : Prop :=
  (Fits prec qmin x → r = x ∧ lf' = lf) ∧
  (¬ Fits prec qmin x → lf' = (if rm = 4 then lfsrStep lf else lf) ∧ ∃ z a : ℚ, Fits prec qmin z ∧ Fits prec qmin a ∧
    |z| < |x| ∧ |x| < |a| ∧ 0 ≤ z * x ∧ 0 < a * x ∧ (∀ y, Fits prec qmin y → |y| ≤ |z| ∨ |a| ≤ |y|) ∧
    match rm with
      | 0 => (|x - z| < |a - x| → r = z) ∧ (|a - x| < |x - z| → r = a) ∧
        (|x - z| = |a - x| → (∃ n : Nat, |z| = 2 * n * |a - z|) → r = z) ∧ (|x - z| = |a - x| → (¬ ∃ n : Nat, |z| = 2 * n * |a - z|) → r = a)
      | 1 => r = z
      | 2 => r = max z a
      | 3 => r = min z a
      | _ => r = if (lfsrStep lf : Int) < ⌊|x - z| / |a - z| * 2 ^ 32⌋ then a else z)

/-- The number that a finite value is. -/
def FVal.number : FVal → ℚ
  | .fin n m e => (if n then -1 else 1) * (m * (2 : ℚ) ^ e)
  | _ => 0

/-- A value is a number. -/
def FVal.finite : FVal → Bool
  | .fin _ _ _ => true
  | _ => false

/-- A result lane is x ≠ 0 rounded once to a format, with the flags of R61 and FlushOut of R62; `ovf` is what stands for a rounded magnitude above the
largest finite value. -/
def RoundsTo (f : FFmt) (rm : Nat) (fso : Bool) (ovf : Nat) (x : ℚ) (lf : Nat) (res : FRes) : Prop :=
  ∃ r, Rounded (f.m + 1) f.qmin rm lf x r res.lf ∧
    let neg := decide (x < 0)
    let normal := (2 : ℚ) ^ (f.qmin + f.m)
    let tiny := if |x| < |r| then ∃ (z : Nat) (q : Int), z < 2 ^ (f.m + 1) ∧ |x| ≤ z * (2 : ℚ) ^ q ∧ z * (2 : ℚ) ^ q < normal else |x| < normal
    if FVal.number (f.val f.max) < |r| then res.v = f.sign neg ovf ∧ res.fl = fOF + fNX
    else if fso = true ∧ r ≠ 0 ∧ |r| < normal then res.v = f.sign neg 0 ∧ res.fl = fUF + fNX
    else FVal.number (f.val res.v) = r ∧ FVal.finite (f.val res.v) = true ∧ bit res.v (f.w - 1) = neg ∧ res.v < 2 ^ f.w ∧
      (r = x → res.fl = 0) ∧ (r ≠ x → tiny → res.fl = fUF + fNX) ∧ (r ≠ x → ¬ tiny → res.fl = fNX)

/-- An access succeeds, as a test. -/
def Got.isOk {α : Type} : Got α → Bool
  | .ok _ _ => true
  | .stop _ => false

end Sys2Proof.Machine
end

