-- ==== Sys2Proof/Certificates/Slice0/Obligations.lean ====
section
/-!
DEFINITION. The statements about the CHX-8512 that are to be proved.
-/

namespace Sys2Proof.Says
end Sys2Proof.Says

open Sys2Proof Sys2Proof.Machine Sys2Proof.Says

/-! ## Control cores: arithmetic -/

/-- The ALU register forms write what R120 gives, for every operand, and change nothing else; g0 discards (R117, R120). -/
def Sys2Proof.Says.AluRegisterForms : Prop :=
  ∀ (s : State) (d a b : Reg), let x := s.g a; let y := s.g b; let k := y.toNat % 64
    Gives (.add d a b) s (SetsReg d (BitVec.ofNat 64 (x.toNat + y.toNat)) 4 s) ∧
    Gives (.sub d a b) s (SetsReg d (BitVec.ofInt 64 (x.toNat - y.toNat)) 4 s) ∧
    Gives (.mul d a b) s (SetsReg d (BitVec.ofNat 64 (x.toNat * y.toNat)) 4 s) ∧
    Gives (.mulh d a b) s (SetsReg d (BitVec.ofInt 64 (x.toInt * y.toInt / 2 ^ 64)) 4 s) ∧
    Gives (.mulhn d a b) s (SetsReg d (BitVec.ofNat 64 (x.toNat * y.toNat / 2 ^ 64)) 4 s) ∧
    Gives (.and d a b) s (SetsReg d (BitVec.ofNat 64 (Nat.land x.toNat y.toNat)) 4 s) ∧
    Gives (.or d a b) s (SetsReg d (BitVec.ofNat 64 (Nat.lor x.toNat y.toNat)) 4 s) ∧
    Gives (.xor d a b) s (SetsReg d (BitVec.ofNat 64 (Nat.xor x.toNat y.toNat)) 4 s) ∧
    Gives (.sll d a b) s (SetsReg d (BitVec.ofNat 64 (x.toNat * 2 ^ k)) 4 s) ∧
    Gives (.srl d a b) s (SetsReg d (BitVec.ofNat 64 (x.toNat / 2 ^ k)) 4 s) ∧
    Gives (.sra d a b) s (SetsReg d (BitVec.ofInt 64 (x.toInt / 2 ^ k)) 4 s) ∧
    Gives (.slt d a b) s (SetsReg d (if x.toInt < y.toInt then 1 else 0) 4 s) ∧
    Gives (.sltn d a b) s (SetsReg d (if x.toNat < y.toNat then 1 else 0) 4 s) ∧
    Gives (.min d a b) s (SetsReg d (if x.toInt < y.toInt then x else y) 4 s) ∧
    Gives (.max d a b) s (SetsReg d (if x.toInt < y.toInt then y else x) 4 s) ∧
    Gives (.minn d a b) s (SetsReg d (if x.toNat < y.toNat then x else y) 4 s) ∧
    Gives (.maxn d a b) s (SetsReg d (if x.toNat < y.toNat then y else x) 4 s)

/-- The ALU register forms of one source (R120). -/
def Sys2Proof.Says.AluUnaryForms : Prop :=
  ∀ (s : State) (d a : Reg), let x := s.g a
    Gives (.clz d a) s (SetsReg d (if x = 0 then 64 else BitVec.ofNat 64 (63 - Nat.log2 x.toNat)) 4 s) ∧
    Gives (.popc d a) s (SetsReg d (BitVec.ofNat 64 ((List.range 64).filter (fun i => x.toNat.testBit i)).length) 4 s) ∧
    Gives (.sextB d a) s (SetsReg d (BitVec.ofInt 64 (signed 8 x.toNat)) 4 s) ∧
    Gives (.sextH d a) s (SetsReg d (BitVec.ofInt 64 (signed 16 x.toNat)) 4 s) ∧
    Gives (.sextW d a) s (SetsReg d (BitVec.ofInt 64 (signed 32 x.toNat)) 4 s) ∧
    Gives (.zextB d a) s (SetsReg d (BitVec.ofNat 64 (x.toNat % 2 ^ 8)) 4 s) ∧
    Gives (.zextH d a) s (SetsReg d (BitVec.ofNat 64 (x.toNat % 2 ^ 16)) 4 s) ∧
    Gives (.zextW d a) s (SetsReg d (BitVec.ofNat 64 (x.toNat % 2 ^ 32)) 4 s)

/-- Division never traps and saturates, with remainder 0 where it does (R121). -/
def Sys2Proof.Says.DivisionSaturates : Prop :=
  ∀ (s : State) (d a b : Reg), let x := s.g a; let y := s.g b
    Gives (.div d a b) s (SetsReg d
      (if y = 0 then (if x = 0 then 0 else if 0 < x.toInt then 0x7FFFFFFFFFFFFFFF else 0x8000000000000000)
       else if x = 0x8000000000000000 ∧ y = 0xFFFFFFFFFFFFFFFF then 0x7FFFFFFFFFFFFFFF
       else BitVec.ofInt 64 (x.toInt.tdiv y.toInt)) 4 s) ∧
    Gives (.divn d a b) s (SetsReg d
      (if y = 0 then (if x = 0 then 0 else 0xFFFFFFFFFFFFFFFF) else BitVec.ofNat 64 (x.toNat / y.toNat)) 4 s) ∧
    Gives (.rem d a b) s (SetsReg d
      (if y = 0 ∨ (x = 0x8000000000000000 ∧ y = 0xFFFFFFFFFFFFFFFF) then 0 else BitVec.ofInt 64 (x.toInt.tmod y.toInt)) 4 s) ∧
    Gives (.remn d a b) s (SetsReg d (if y = 0 then 0 else BitVec.ofNat 64 (x.toNat % y.toNat)) 4 s)

/-- The short and long immediate forms (R122, R123). -/
def Sys2Proof.Says.ImmediateForms : Prop :=
  ∀ (s : State) (d a : Reg) (imm : BitVec 16) (sh : BitVec 6) (w : BitVec 32), let x := s.g a
    Gives (.addi d a imm) s (SetsReg d (BitVec.ofInt 64 (x.toInt + imm.toInt)) 4 s) ∧
    Gives (.andi d a imm) s (SetsReg d (BitVec.ofNat 64 (Nat.land x.toNat imm.toNat)) 4 s) ∧
    Gives (.ori d a imm) s (SetsReg d (BitVec.ofNat 64 (Nat.lor x.toNat imm.toNat)) 4 s) ∧
    Gives (.xori d a imm) s (SetsReg d (BitVec.ofNat 64 (Nat.xor x.toNat imm.toNat)) 4 s) ∧
    Gives (.slti d a imm) s (SetsReg d (if x.toInt < imm.toInt then 1 else 0) 4 s) ∧
    Gives (.slli d a sh) s (SetsReg d (BitVec.ofNat 64 (x.toNat * 2 ^ sh.toNat)) 4 s) ∧
    Gives (.srli d a sh) s (SetsReg d (BitVec.ofNat 64 (x.toNat / 2 ^ sh.toNat)) 4 s) ∧
    Gives (.srai d a sh) s (SetsReg d (BitVec.ofInt 64 (x.toInt / 2 ^ sh.toNat)) 4 s) ∧
    Gives (.li d w) s (SetsReg d (BitVec.ofInt 64 w.toInt) 8 s) ∧
    Gives (.lih d w) s (SetsReg d (BitVec.ofNat 64 (w.toNat * 2 ^ 32 + (s.g d).toNat % 2 ^ 32)) 8 s) ∧
    Gives (.addiL d a w) s (SetsReg d (BitVec.ofInt 64 (x.toInt + w.toInt)) 8 s) ∧
    Gives (.andiL d a w) s (SetsReg d (BitVec.ofNat 64 (Nat.land x.toNat w.toNat)) 8 s) ∧
    Gives (.oriL d a w) s (SetsReg d (BitVec.ofNat 64 (Nat.lor x.toNat w.toNat)) 8 s) ∧
    Gives (.xoriL d a w) s (SetsReg d (BitVec.ofNat 64 (Nat.xor x.toNat w.toNat)) 8 s)

/-! ## Control cores: control flow and traps -/

/-- A conditional branch goes where R124 says: by the comparison, to PC + 4 times the signed offset, else to PC + 4. -/
def Sys2Proof.Says.ConditionalBranches : Prop :=
  ∀ (s : State) (a b : Reg) (off : BitVec 16), let x := s.g a; let y := s.g b
    let target := fun (c : Bool) => if c then BitVec.ofInt 64 (s.th.pc.toInt + 4 * off.toInt) else s.th.pc + 4
    Gives (.beq a b off) s (JumpsTo (target (decide (x.toNat = y.toNat))) s) ∧
    Gives (.bne a b off) s (JumpsTo (target (decide (x.toNat ≠ y.toNat))) s) ∧
    Gives (.blt a b off) s (JumpsTo (target (decide (x.toInt < y.toInt))) s) ∧
    Gives (.bge a b off) s (JumpsTo (target (decide (y.toInt ≤ x.toInt))) s) ∧
    Gives (.bltn a b off) s (JumpsTo (target (decide (x.toNat < y.toNat))) s) ∧
    Gives (.bgen a b off) s (JumpsTo (target (decide (y.toNat ≤ x.toNat))) s)

/-- JAL, JAL.L and JALR write the return address and transfer control; JALR reads its base first, and traps ALIGN with nothing
written where the target is not 4-aligned (R125). -/
def Sys2Proof.Says.JumpsAndLinks : Prop :=
  ∀ (s : State) (d a : Reg) (off imm : BitVec 16) (w : BitVec 32),
    Gives (.jal d off) s (fun t => RegsSet d (s.th.pc + 4) s t ∧ t.th.pc = BitVec.ofInt 64 (s.th.pc.toInt + 4 * off.toInt)
      ∧ MachineKept s t ∧ ThreadKept s t) ∧
    Gives (.jalL d w) s (fun t => RegsSet d (s.th.pc + 8) s t ∧ t.th.pc = BitVec.ofInt 64 (s.th.pc.toInt + 4 * w.toInt)
      ∧ MachineKept s t ∧ ThreadKept s t) ∧
    (let to_ : Word := BitVec.ofInt 64 ((s.g a).toInt + imm.toInt);
      (to_.toNat % 4 = 0 → Gives (.jalr d a imm) s (fun t => RegsSet d (s.th.pc + 4) s t ∧ t.th.pc = to_
        ∧ MachineKept s t ∧ ThreadKept s t)) ∧
      (to_.toNat % 4 ≠ 0 → Gives (.jalr d a imm) s (fun t => t = trap cALIGN to_ s)))

/-- REP (R126, R128): it traps ILLOP with word 0 on an empty body, inside a body and in a handler; a count of 0 skips the body; otherwise the loop
state is set. -/
def Sys2Proof.Says.RepStartsALoop : Prop :=
  ∀ (s : State) (a : Reg) (len : BitVec 16),
    let illegal := len = 0 ∨ s.th.loop.active = true ∨ s.th.inTrap = true
    let start := s.th.pc + 4
    let stop := BitVec.ofNat 64 (s.th.pc.toNat + 4 + 4 * len.toNat)
    (illegal → Gives (.rep a len) s (fun t => t = trap cILLOP (BitVec.ofNat 64 s.ir.toNat) s)) ∧
    (¬illegal → s.g a = 0 → Gives (.rep a len) s (JumpsTo stop s)) ∧
    (¬illegal → s.g a ≠ 0 → Gives (.rep a len) s (fun t =>
      t = { s with th := { s.th with loop := ⟨true, start, stop, a⟩, pc := start } }))

/-- The end-of-pass check after an instruction completes (R127): outside a loop, and inside its body, nothing changes; at END the loop register goes
down by one, and the loop ends at 0 or goes on at START, where a breakpoint check that RFT suppressed for END is due again (R145); elsewhere outside the
body the loop ends.  The core's buffers change only where a CINVAL waits for the end of the pass. -/
def Sys2Proof.Says.LoopEndOfPass : Prop :=
  ∀ (s : State), let lp := s.th.loop; let n := s.th.pc; let v := s.g lp.reg - 1
    ∃ t, retire (.next s) = .next t ∧ t = { s with th := t.th, cores := t.cores } ∧ ((s.coreAt s.core).stale = false → t.cores = s.cores) ∧
    (lp.active = false → t.th = s.th) ∧
    (lp.active = true → n = lp.stop → RegsSet lp.reg v s t
      ∧ t.th = { s.th with regs := t.th.regs, pc := t.th.pc, loop := t.th.loop, noBreak := t.th.noBreak }
      ∧ (v = 0 ∨ lp.reg = 0 → t.th.pc = n ∧ t.th.loop = { lp with active := false } ∧ t.th.noBreak = s.th.noBreak)
      ∧ (v ≠ 0 → lp.reg ≠ 0 → t.th.pc = lp.start ∧ t.th.loop = lp ∧ t.th.noBreak = false)) ∧
    (lp.active = true → n ≠ lp.stop → (n.toNat < lp.start.toNat ∨ lp.stop.toNat < n.toNat) →
      t.th = { s.th with loop := { lp with active := false } }) ∧
    (lp.active = true → n ≠ lp.stop → lp.start.toNat ≤ n.toNat → n.toNat ≤ lp.stop.toNat → t.th = s.th)

/-- Taking a trap whose cause is not MEMERR (R118): with a handler installed and outside one, the registers of R118 are saved, the loop is suspended, and
the handler goes on at KTRAPVEC, and a suppressed breakpoint check of RFT is forgotten; otherwise the launch halts, and management code stops (log 12). -/
def Sys2Proof.Says.TrapEntry : Prop :=
  ∀ (s : State) (cause exp : Nat) (val resume : Word), cause ≠ cMEMERR →
    (s.th.inTrap = false → s.th.trapVec ≠ 0 → trapAt cause val resume exp s = { s with th := { s.th with
      trapPc := resume, trapCause := BitVec.ofNat 64 cause, trapVal := val, expStep := BitVec.ofNat 64 exp, inTrap := true,
      heldLoop := s.th.loop, loop := { s.th.loop with active := false }, noBreak := false, pc := s.th.trapVec } }) ∧
    (s.th.inTrap = true ∨ s.th.trapVec = 0 → ∀ l, s.th.launch = some l → trapAt cause val resume exp s = haltByTrap l cause val s) ∧
    (s.th.inTrap = true ∨ s.th.trapVec = 0 → s.th.launch = none →
      (trapAt cause val resume exp s).th = { s.th with status := .stopped }
        ∧ ((trapAt cause val resume exp s).coreAt s.core).running = none)

/-- A trap record stands in the service area of its die, in the place that the count of records gives, and the count stands there risen by one; a fabric
trap records its unit, run, slot, tag, address and tokens, and asks its run to halt, and a halt records the trap registers that the core held (R323 to R326). -/
def Sys2Proof.Says.TrapsAreRecorded : Prop :=
  ∀ (s : State) (l : Nat) (v : Launch), s.Inv → Table.find l s.launches = some v →
    let word := fun (n : Nat) => BitVec.ofNat 64 n
    let recorded := fun (die : Nat) (ws : List Word) (t : State) => let ld := v.die die
      let at_ := svcPa ld (0xC00 + 64 * (ld.trcount % 64))
      let cnt := svcPa ld 0xA00
      ws.length = 8 → writeFails s at_ 64 = false → writeFails s cnt 8 = false → at_ + 64 ≤ cnt ∨ cnt + 8 ≤ at_ →
        (∀ a, t.mem.read a = if at_ ≤ a ∧ a < at_ + 64 then nth (wordBytes ws) (a - at_) 0
          else if cnt ≤ a ∧ a < cnt + 8 then nth (leBytes 8 (ld.trcount + 1)) (a - cnt) 0 else s.mem.read a) ∧
        ∃ w, Table.find l t.launches = some w ∧ (w.die die).trcount = ld.trcount + 1
    (∀ x agent slot tag cause addr toks rid r, s.runOf x = some (rid, r) → Table.find rid s.runs = some r → r.launch = l → v.trapHold = false →
      let t := fabricTrap x agent slot tag cause addr toks s
      recorded r.die [word (cause * 2 ^ 56 + min toks.length 2 * 2 ^ 54 + fabricUnit x agent),
        word (r.ticket * 2 ^ 48 + slot % 16 * 2 ^ 40 + ((s.stripe x).vs.getD 0) * 2 ^ 24 + tag), addr, word s.time,
        (toks[0]?.map (·.value)).getD 0, (toks[0]?.map (·.high)).getD 0, (toks[1]?.map (·.value)).getD 0, (toks[1]?.map (·.high)).getD 0] t ∧
      ∃ q, Table.find rid t.runs = some q ∧ (r.haltCause = none → q.haltCause = some cause) ∧
        q.status = if r.status = .running then .stopping else r.status) ∧
    (∀ cause val, ∃ u, haltByTrap l cause val s = haltLaunchAs l cause v.trapHold u ∧
      recorded s.th.die [word (cause * 2 ^ 56 + threadUnit s.th), 0, val, word s.time, s.th.pc, s.th.trapPc, s.th.trapCause, s.th.trapVal] u)

/-- TRAP and BRK take their traps, and RFT returns from one (R142, R143). -/
def Sys2Proof.Says.TrapAndReturn : Prop :=
  ∀ (s : State) (code : BitVec 10),
    Gives (.trap code) s (fun t => t = trapAt 0x20 (BitVec.ofNat 64 code.toNat) (s.th.pc + 4) 0 s) ∧
    Gives .brk s (fun t => t = trapAt 0x0E 0 s.th.pc 0 s) ∧
    (s.th.inTrap = false → Gives .rft s (fun t => t = trapAt 0x01 (BitVec.ofNat 64 s.ir.toNat) s.th.pc 0 s)) ∧
    (s.th.inTrap = true → s.th.trapPc.toNat % 4 = 0 → Gives .rft s (fun t =>
      t = { s with th := { s.th with inTrap := false, loop := s.th.heldLoop, pc := s.th.trapPc, noBreak := true } })) ∧
    (s.th.inTrap = true → s.th.trapPc.toNat % 4 ≠ 0 → ∀ l, s.th.launch = some l →
      Gives .rft s (fun t => t = haltByTrap l cALIGN s.th.trapPc s))

/-! ## Control cores: the special registers -/

/-- KRD reads each control register of R28, KSTAT with the fields of R29, and changes nothing else; a KNUM that R28 does not list traps ILLOP with word 0. -/
def Sys2Proof.Says.ControlRegisterReads : Prop :=
  ∀ (s : State) (d : Reg), let c := s.ctx; let m := decide (64 ≤ s.core)
    let shared := fun (v : Word) => if m then (0 : Word) else v
    let reads := fun (k : BitVec 10) (v : Word) => Gives (.krd d k) s (SetsReg d v 4 s)
    let named := fun (k : Nat) => k ≤ 6 ∨ (0x10 ≤ k ∧ k ≤ 0x12) ∨ k = 0x18 ∨ k = 0x19 ∨ k = 0x20 ∨ (0x30 ≤ k ∧ k ≤ 0x38) ∨ k = 0x40 ∨ k = 0x41 ∨
      (0x110 ≤ k ∧ k ≤ 0x122)
    reads 0x000 (BitVec.ofNat 64 ((if m then 0 else s.core / 8) * 2 ^ 29 + (if m then s.core - 64 else s.core % 8) * 2 ^ 26
      + (if m then 2 ^ 25 + 2 ^ 24 else 0) + (if s.th.prio then 2 ^ 16 else 0) + (if s.th.inTrap then 2 ^ 8 else 0))) ∧ reads 0x001 s.th.trapPc ∧ reads 0x002 s.th.trapCause ∧ reads 0x003 s.th.trapVal ∧
    reads 0x004 s.th.expStep ∧ reads 0x005 s.th.trapVec ∧ reads 0x006 s.th.scratch ∧
    reads 0x010 (shared c.stkBase) ∧ reads 0x011 (shared c.stkSize) ∧ reads 0x012 (shared c.stkOvf) ∧
    reads 0x018 (shared s.th.cont) ∧ reads 0x019 (shared s.th.contFp) ∧
    reads 0x020 (BitVec.ofNat 64 (eventsPresent s s.core)) ∧
    (∀ i : Fin 8, reads (BitVec.ofNat 10 (0x30 + i.val)) (Table.getD c.brkAddr i.val 0)) ∧
    reads 0x038 (BitVec.ofNat 64 c.brkCtl.toNat) ∧
    reads 0x040 (shared (match s.launch? with | some v => v.ident | none => 0)) ∧
    reads 0x041 (shared (match s.launch? with | some v => BitVec.ofNat 64 v.part | none => 0)) ∧
    (∀ k : BitVec 10, ¬named k.toNat → 64 ≤ s.core ∨ k.toNat < 0x100 →
      Gives (.krd d k) s (fun t => t = trap cILLOP (BitVec.ofNat 64 s.ir.toNat) s)) ∧
    (64 ≤ s.core → (∀ i : Fin 16, reads (BitVec.ofNat 10 (0x110 + i.val)) (Table.getD s.io.khmask i.val 0xFFFF80000)) ∧
      reads 0x120 (BitVec.ofNat 64 s.io.fwslot) ∧ reads 0x121 s.io.hbeat ∧ reads 0x122 s.io.handover)

/-- KWR writes the register it names and advances the program counter; KTRAPVEC and KHANDOVER trap ALIGN where their value is misaligned, KHMASK traps
PROT under a live mapping, and a KNUM that is read-only or not listed traps ILLOP with word 0 (R28, R144, R263). -/
def Sys2Proof.Says.ControlRegisterWrites : Prop :=
  ∀ (s : State) (a : Reg), let v := s.g a; let pc := s.th.pc + 4
    Gives (.kwr a 0x001) s (fun t => t = { s with th := { s.th with trapPc := v, pc := pc } }) ∧
    Gives (.kwr a 0x002) s (fun t => t = { s with th := { s.th with trapCause := v, pc := pc } }) ∧
    Gives (.kwr a 0x003) s (fun t => t = { s with th := { s.th with trapVal := v, pc := pc } }) ∧
    (v.toNat % 4 = 0 → Gives (.kwr a 0x005) s (fun t => t = { s with th := { s.th with trapVec := v, pc := pc } })) ∧
    (v.toNat % 4 ≠ 0 → Gives (.kwr a 0x005) s (fun t => t = trap cALIGN v s)) ∧
    Gives (.kwr a 0x006) s (fun t => t = { s with th := { s.th with scratch := v, pc := pc } }) ∧
    (∀ i : Fin 8, Gives (.kwr a (BitVec.ofNat 10 (0x30 + i.val))) s (fun t => t.th = { s.th with pc := pc } ∧
      t.ctx = { s.ctx with brkAddr := Table.set i.val v s.ctx.brkAddr })) ∧
    Gives (.kwr a 0x038) s (fun t => t.th = { s.th with pc := pc } ∧ t.ctx = { s.ctx with brkCtl := BitVec.ofNat 8 v.toNat }) ∧
    (64 ≤ s.core → ∀ i : Fin 16, liveMapping s i.val = true →
      Gives (.kwr a (BitVec.ofNat 10 (0x110 + i.val))) s (fun t => t = trap cPROT (BitVec.ofNat 64 (0x110 + i.val)) s)) ∧
    (64 ≤ s.core → ∀ i : Fin 16, liveMapping s i.val = false →
      Gives (.kwr a (BitVec.ofNat 10 (0x110 + i.val))) s (fun t => t.th = { s.th with pc := pc } ∧
        khmask t i.val = BitVec.ofNat 64 (Nat.land v.toNat 0xFFFFFE000) ∧ ∀ j, j ≠ i.val → khmask t j = khmask s j)) ∧
    (∀ k : BitVec 10, let n := k.toNat
      ¬((1 ≤ n ∧ n ≤ 3) ∨ n = 5 ∨ n = 6 ∨ (0x30 ≤ n ∧ n ≤ 0x38) ∨ (0x110 ≤ n ∧ n ≤ 0x11F) ∨ n = 0x122) → 64 ≤ s.core ∨ n < 0x100 →
      Gives (.kwr a k) s (fun t => t = trap cILLOP (BitVec.ofNat 64 s.ir.toNat) s)) ∧
    (64 ≤ s.core → v.toNat % 64 ≠ 0 → Gives (.kwr a 0x122) s (fun t => t = trap cALIGN v s)) ∧
    (64 ≤ s.core → v.toNat % 64 = 0 →
      Gives (.kwr a 0x122) s (fun t => t = { s with th := { s.th with pc := pc }, io := { s.io with handover := v } }))

/-- Every instruction of MAJ 0x2C, and every access to a privileged control register, traps PRIV with word 0 on a core that is not
privileged (R28, R36). -/
def Sys2Proof.Says.PrivilegedTrapsOnControlCores : Prop :=
  ∀ (s : State) (d a b : Reg) (k : BitVec 10), s.core < 64 →
    let refuses := fun (i : Instr) => exec i s = .next (trap cPRIV (BitVec.ofNat 64 s.ir.toNat) s)
    refuses (.preempt d a) ∧ refuses (.ctxsave d a b) ∧ refuses (.ctxrest d a) ∧ refuses (.qquiesce a) ∧ refuses (.qresume a) ∧
    refuses (.fwstage d a b) ∧ refuses (.fwverify d) ∧ refuses (.measure a b) ∧ refuses (.slotsw a) ∧ refuses .hbeat ∧
    refuses (.keyld d a b) ∧ (0x100 ≤ k.toNat → refuses (.krd d k) ∧ refuses (.kwr a k))

/-- The instructions that act for a launch trap ILLOP with word 0 on a management core (R383). -/
def Sys2Proof.Says.LaunchInstructionsTrapOnManagementCores : Prop :=
  ∀ (s : State) (d a b : Reg) (r : BitVec 4) (die : BitVec 3) (x y : Bool) (len : BitVec 32), 64 ≤ s.core →
    let refuses := fun (i : Instr) => exec i s = .next (trap cILLOP (BitVec.ofNat 64 s.ir.toNat) s)
    refuses (.phase d) ∧ refuses (.bar a b) ∧ refuses (.featrd d a) ∧ refuses (.featrdOffer d a) ∧ refuses (.segld d a) ∧
    refuses (.segrun d a b) ∧ refuses (.segstop a) ∧ refuses (.segwait d a b) ∧ refuses (.strbind d a) ∧ refuses (.strfree d a) ∧
    refuses (.cfginv a) ∧ refuses (.copy d a) ∧ refuses (.copyi d a len) ∧ refuses (.pbinv a) ∧ refuses (.cspawn a b die x y) ∧
    refuses (.cjoin a) ∧ refuses .cexit ∧ refuses .cyield ∧ refuses (.rgset a b r) ∧ refuses (.rgtake d r) ∧ refuses (.exreg a) ∧
    (∀ sel : BitVec 2, refuses (.exstat d a b sel)) ∧ refuses (.plrep d a b) ∧ refuses (.plret d a b) ∧ refuses (.plretUrgent d a b) ∧
    refuses (.plpol a) ∧ refuses (.plsync d)

/-- NOP, CINVAL, CYC, ENRD and FEATRD (R142, R146, R147, R184). -/
def Sys2Proof.Says.SystemReads : Prop :=
  ∀ (s : State) (d a : Reg) (sel : BitVec 2),
    Gives .nop s (JumpsTo (s.th.pc + 4) s) ∧
    (storesPending s s.th.id none = false → signalsPending s s.th.id = false → Gives .cinval s (fun t => t.th = { s.th with pc := s.th.pc + 4 }
      ∧ t.coreAt s.core = (if s.th.loop.active then { s.coreAt s.core with stale := true }
        else { s.coreAt s.core with fetched := [], body := [], stale := false })
      ∧ t = { s with th := t.th, cores := t.cores })) ∧
    Gives (.cyc d) s (SetsReg d (BitVec.ofNat 64 s.time) 4 s) ∧
    Gives (.cycCore d) s (SetsReg d (BitVec.ofNat 64 (s.th.cycles / 5)) 4 s) ∧
    (s.core < 64 → available s (s.core / 8) = true →
      Gives (.enrd d 0) s (SetsReg d (BitVec.ofNat 64 (ringEnergy s (s.core / 2))) 4 s) ∧
      Gives (.enrd d 1) s (SetsReg d (BitVec.ofNat 64 (ringBudget s (s.core / 2))) 4 s) ∧
      Gives (.enrd d 2) s (SetsReg d (BitVec.ofNat 64 (1000000 - s.time % 1000000)) 4 s)) ∧
    (64 ≤ s.core → (s.g a).toNat ≤ 31 → sel ≠ 3 → Gives (.enrdRing d a sel) s (SetsReg d (energyRead s (s.g a).toNat sel.toNat) 4 s)) ∧
    (s.core < 64 → Gives (.enrdRing d a sel) s (fun t => t = trap cILLOP (BitVec.ofNat 64 s.ir.toNat) s)) ∧
    (s.core < 64 → (s.g a).toNat ≤ 3 →
      Gives (.featrd d a) s (SetsReg d (nth (s.part s.partNow).accept (s.g a).toNat 0) 4 s) ∧
      Gives (.featrdOffer d a) s (SetsReg d (if s.g a = 0 then 0x3F else 0) 4 s))

/-! ## Control cores: memory -/

/-- A load, store, LDM, STM, AMO or RED of any size whose address is not a multiple of its size traps ALIGN with the address, before anything else
(R117, R130, R132, R134, R135, R138). -/
def Sys2Proof.Says.MisalignedAccessTraps : Prop :=
  ∀ (s : State) (d a b : Reg) (size : BitVec 2) (scope : BitVec 3) (off : BitVec 11) (n : BitVec 5), let va := s.g a + off.signExtend 64
    let traps := fun (i : Instr) => Gives i s (fun t => t = trap cALIGN va s)
    let trapsAtBase := fun (i : Instr) => Gives i s (fun t => t = trap cALIGN (s.g a) s)
    (va.toNat % 2 ^ size.toNat ≠ 0 → traps (.ld d a size off) ∧ traps (.st d a size off) ∧ (size ≠ 3 → traps (.ldn d a size off)) ∧
      (2 ≤ size.toNat → 2 ≤ scope.toNat → scope.toNat ≤ 5 → traps (.lda d a scope size off) ∧ traps (.stl d a scope size off))) ∧
    (va.toNat % 8 ≠ 0 → d.val + n.toNat ≤ 31 → featureOn s 5 = true → traps (.ldm d a n off) ∧ traps (.stm d a n off)) ∧
    (3 ≤ scope.toNat → scope.toNat ≤ 5 →
      (2 ≤ size.toNat → (s.g a).toNat % 2 ^ size.toNat ≠ 0 →
        ∀ i ∈ [.amoadd d a b size scope, .amomin d a b size scope, .amominn d a b size scope, .amomax d a b size scope,
          .amomaxn d a b size scope, .amoand d a b size scope, .amoor d a b size scope, .amoxor d a b size scope, .amoswp d a b size scope,
          .amocas d a b size scope, .redadd a b size scope, .redmin a b size scope, .redminn a b size scope, .redmax a b size scope,
          .redmaxn a b size scope, .redand a b size scope, .redor a b size scope, .redxor a b size scope], trapsAtBase i) ∧
      ((s.g a).toNat % 4 ≠ 0 → trapsAtBase (.amofaddF32 d a b scope) ∧ trapsAtBase (.redfaddF32 a b scope)) ∧
      ((s.g a).toNat % 2 ≠ 0 → trapsAtBase (.amofaddBf16 d a b scope) ∧ trapsAtBase (.redfaddBf16 a b scope)))

/-- LD, LDN and LDA return the bytes at the address, extended as R130 says, where no write races with the read; memory and everything else
but what the read fixes stay as they are. -/
def Sys2Proof.Says.LoadsReadMemory : Prop :=
  ∀ (s s1 : State) (d a : Reg) (size : BitVec 2) (scope : BitVec 3) (off : BitVec 11) (pa : Nat),
    Quiet s → Raceless s → s.releases = [] →
    Lands (s.g a + off.signExtend 64) (2 ^ size.toNat) .read s pa s1 → readFails s pa (2 ^ size.toNat) = false →
    let v := leNat (peek s pa (2 ^ size.toNat))
    let reads := fun (i : Instr) (x : Word) => Gives i s (fun t => RegsSet d x s t ∧ t.th.pc = s.th.pc + 4 ∧ MachineKept s t ∧ ThreadKept s t)
    reads (.ld d a size off) (BitVec.ofInt 64 (signed (8 * 2 ^ size.toNat) v)) ∧
    (size ≠ 3 → reads (.ldn d a size off) (BitVec.ofNat 64 v)) ∧
    (2 ≤ size.toNat → 2 ≤ scope.toNat → scope.toNat ≤ 5 →
      reads (.lda d a scope size off) (BitVec.ofInt 64 (signed (8 * 2 ^ size.toNat) v)))

/-- ST and STL to memory homed on the issuing core's die write the low bytes of g[GD] there and nowhere else (R130, R132). -/
def Sys2Proof.Says.StoresWriteMemory : Prop :=
  ∀ (s s1 : State) (d a : Reg) (size : BitVec 2) (scope : BitVec 3) (off : BitVec 11) (pa : Nat),
    s.Inv → Quiet s → NoReport s →
    Lands (s.g a + off.signExtend 64) (2 ^ size.toNat) .write s pa s1 → writeFails s pa (2 ^ size.toNat) = false →
    homeDie pa = coreDie s.core →
    let writes := fun (i : Instr) => Gives i s (fun t => Stores pa (leBytes (2 ^ size.toNat) (s.g d).toNat) s t ∧ RegsKept s t
      ∧ t.th.pc = s.th.pc + 4 ∧ ThreadKept s t ∧ StoreFrame s t)
    writes (.st d a size off) ∧ (2 ≤ size.toNat → 2 ≤ scope.toNat → scope.toNat ≤ 5 → writes (.stl d a scope size off))

/-- A store homed on another die is posted: it leaves the core and memory is as it was (R131); so is an STL, with its scope and die, once nothing
that it waits for is under way and no error is to be reported (R132, R138). -/
def Sys2Proof.Says.StoresElsewhereArePosted : Prop :=
  ∀ (s s1 : State) (d a : Reg) (size : BitVec 2) (scope : BitVec 3) (off : BitVec 11) (pa : Nat),
    Quiet s → Lands (s.g a + off.signExtend 64) (2 ^ size.toNat) .write s pa s1 → homeDie pa ≠ coreDie s.core →
    let posts := fun (i : Instr) (rel : Nat) => Gives i s (fun t => RegsKept s t ∧ t.th.pc = s.th.pc + 4 ∧ ThreadKept s t ∧
      t = { s with th := t.th, tlb := t.tlb, choices := t.choices, posted :=
        [⟨s.th.id, pa, s.g a + off.signExtend 64, leBytes (2 ^ size.toNat) (s.g d).toNat, rel, s.nextJob⟩] })
    posts (.st d a size off) 0 ∧
    (NoReport s → 2 ≤ size.toNat → 2 ≤ scope.toNat → scope.toNat ≤ 5 → posts (.stl d a scope size off) (16 * scope.toNat + coreDie s.core))

/-- The physical addresses at which the reads of an LDM land, one after another: that of its doubleword i is the translation of a + 8i. -/
def Sys2Proof.Says.ldmPlaces : List Nat → Word → State → Got (List Nat)
  | [], _, s => .ok [] s
  | i :: rest, a, s =>
    let va := a + BitVec.ofNat 64 (8 * i)
    (accessAt va 8 .read i s).bind (fun pa s1 => (loadPaAt pa 8 va i s1).bind (fun _ s2 =>
      (Says.ldmPlaces rest a s2).bind (fun pas s3 => .ok (pa :: pas) s3)))

/-- LDM writes to its registers the doublewords that stand where a, a + 8, ... are translated to, where no write races with the reads; STM writes
those of its registers there, at once where the home is the issuing die, else posted.  Both leave every other register and byte as it was (R131, R134). -/
def Sys2Proof.Says.LoadAndStoreMultiple : Prop :=
  ∀ (s s1 : State) (d a : Reg) (n : BitVec 5) (off : BitVec 11) (pas : List Nat), featureOn s 5 = true → d.val + n.toNat ≤ 31 → Quiet s →
    let va := s.g a + off.signExtend 64
    let data := fun (i : Nat) => leBytes 8 (s.g (regOf (d.val + i))).toNat
    let near := fun (pa : Nat) => homeDie pa == coreDie s.core
    (Raceless s → ldmPlaces (List.range (n.toNat + 1)) va s = .ok pas s1 → (∀ pa ∈ pas, onDevice pa = true ∧ touchHeap pa s = s) →
      Gives (.ldm d a n off) s (fun t => t.th.pc = s.th.pc + 4 ∧ MachineKept s t ∧ ThreadKept s t ∧
        ∀ r, t.g r = if r ≠ 0 ∧ d.val ≤ r.val ∧ r.val ≤ d.val + n.toNat
          then BitVec.ofNat 64 (leNat (peek s (nth pas (r.val - d.val) 0) 8)) else s.g r)) ∧
    (s.Inv → stmFrom (List.range (n.toNat + 1)) va s = .ok pas s1 → pas.Pairwise (fun p q => overlap p 8 q 8 = false) →
      (∀ pa ∈ pas, onDevice pa = true ∧ touchHeap pa s = s ∧ (near pa = true → writeFails s pa 8 = false)) →
      Gives (.stm d a n off) s (fun t => RegsKept s t ∧ t.th.pc = s.th.pc + 4 ∧ ThreadKept s t ∧
        (∀ x, t.mem.read x = match pas.findIdx? (fun pa => near pa && decide (pa ≤ x) && decide (x < pa + 8)) with
          | some i => guardByte s x (nth (data i) (x - nth pas i 0) 0)
          | none => s.mem.read x) ∧
        t = { s with
          th := t.th
          tlb := t.tlb
          choices := t.choices
          mem := t.mem
          writes := t.writes
          writeSeq := t.writeSeq
          errors := t.errors
          releases := t.releases
          posted := ((List.range (n.toNat + 1)).filter (fun i => !near (nth pas i 0))).map
            (fun i => ⟨s.th.id, nth pas i 0, va + BitVec.ofNat 64 (8 * i), data i, 0, s.nextJob⟩) }))

/-- An AMO does what R135 says: its value in g[GD], sign-extended or, for the floating forms, zero-extended, and the combination in memory. -/
def Sys2Proof.Says.AmoWorks (i : Instr) (n : Nat) (d a b : Reg) (ext : Nat → Word) (f : Nat → Nat → Nat → Nat) (s s1 : State) (pa : Nat) : Prop :=
  Lands (s.g a) n .rw s pa s1 → readFails s pa n = false →
    let old := leNat (peek s pa n)
    Gives i s (fun t => RegsSet d (ext old) s t ∧ t.th.pc = s.th.pc + 4 ∧ ThreadKept s t ∧ StoreFrame s t ∧
      Stores pa (leBytes n (f old ((s.g b).toNat % 2 ^ (8 * n)) ((s.g d).toNat % 2 ^ (8 * n)))) s t)

/-- The atomics are one read-modify-write at the address (R135, R136); none of the continuation's accesses is under way. -/
def Sys2Proof.Says.AtomicsReadModifyWrite : Prop :=
  ∀ (s s1 : State) (d a b : Reg) (size : BitVec 2) (scope : BitVec 3) (pa : Nat),
    s.Inv → Quiet s → 2 ≤ size.toNat → 3 ≤ scope.toNat → scope.toNat ≤ 5 →
    let n := 2 ^ size.toNat
    let w := 8 * n
    let amo := fun (i : Instr) (f : Nat → Nat → Nat → Nat) => AmoWorks i n d a b (fun old => BitVec.ofInt 64 (signed w old)) f s s1 pa
    amo (.amoadd d a b size scope) (fun old x _ => (old + x) % 2 ^ w) ∧
    amo (.amomin d a b size scope) (fun old x _ => if signed w x < signed w old then x else old) ∧
    amo (.amominn d a b size scope) (fun old x _ => min old x) ∧
    amo (.amomax d a b size scope) (fun old x _ => if signed w old < signed w x then x else old) ∧
    amo (.amomaxn d a b size scope) (fun old x _ => max old x) ∧
    amo (.amoand d a b size scope) (fun old x _ => Nat.land old x) ∧
    amo (.amoor d a b size scope) (fun old x _ => Nat.lor old x) ∧
    amo (.amoxor d a b size scope) (fun old x _ => Nat.xor old x) ∧
    amo (.amoswp d a b size scope) (fun _ x _ => x) ∧
    amo (.amocas d a b size scope) (fun old x c => if old = c then x else old) ∧
    AmoWorks (.amofaddF32 d a b scope) 4 d a b (fun old => BitVec.ofNat 64 old) (fun old x _ => aopApply 11 4 old x 0) s s1 pa ∧
    AmoWorks (.amofaddBf16 d a b scope) 2 d a b (fun old => BitVec.ofNat 64 old) (fun old x _ => aopApply 12 2 old x 0) s s1 pa

/-- A RED is posted: the core goes on and the reduction is on its way with its operation, operand and address (R138). -/
def Sys2Proof.Says.ReductionsArePosted : Prop :=
  ∀ (s s1 : State) (a b : Reg) (size : BitVec 2) (scope : BitVec 3) (pa : Nat),
    Quiet s → 2 ≤ size.toNat → 3 ≤ scope.toNat → scope.toNat ≤ 5 →
    let red := fun (i : Instr) (aop n : Nat) => Lands (s.g a) n .rw s pa s1 →
      Gives i s (fun t => RegsKept s t ∧ t.th.pc = s.th.pc + 4 ∧ ThreadKept s t ∧
        t = { s with th := t.th, tlb := t.tlb, choices := t.choices, reds := [⟨s.th.id, s.launchMark, aop, n, pa, s.g a, s.g b, s.nextJob⟩] })
    let n := 2 ^ size.toNat
    red (.redadd a b size scope) 1 n ∧ red (.redmin a b size scope) 2 n ∧ red (.redminn a b size scope) 3 n ∧
    red (.redmax a b size scope) 4 n ∧ red (.redmaxn a b size scope) 5 n ∧ red (.redand a b size scope) 6 n ∧
    red (.redor a b size scope) 7 n ∧ red (.redxor a b size scope) 8 n ∧
    red (.redfaddF32 a b scope) 11 4 ∧ red (.redfaddBf16 a b scope) 12 2

/-- With nothing of the continuation under way and no error to report, FENCE of a legal scope and classes completes, PHASE arrives and waits for the
boundary, and BAR on a readable word of the bank of its own die counts an arrival: the last goes on with the generation advanced, another blocks
(R139, R140, R141). -/
def Sys2Proof.Says.FencePhaseBar : Prop :=
  ∀ (s s1 : State) (d a b : Reg) (scope classes : BitVec 3) (pa die off : Nat), Quiet s → NoReport s → s.copies = [] →
    (2 ≤ scope.toNat → scope.toNat ≤ 5 → classes ≠ 0 → Gives (.fence scope classes) s (fun t => t = { s with th := t.th } ∧ RegsKept s t ∧
      t.th.pc = s.th.pc + 4 ∧ ThreadKept s t)) ∧
    (s.core < 64 → Gives (.phase d) s (fun t =>
      t.th = { s.th with
        arrived := true
        status := .blocked (.phase d s.th.phase)
        home := some s.core
        inst := s.ir
        fixed := t.th.fixed
        view := t.th.view } ∧
      (t.coreAt s.core).running = none ∧ t = { s with th := t.th, cores := t.cores })) ∧
    (s.Inv → s.core < 64 → 1 ≤ (s.g b).toNat → (s.g b).toNat ≤ 4096 → Lands (s.g a) 8 .rw s pa s1 → locOf pa = .dsm die off →
      die = s.core / 8 → readFails s pa 8 = false →
      let word := leNat (peek s pa 8)
      let arrived := (word % 2 ^ 32 + 1) % 2 ^ 32
      let gen := word / 2 ^ 32
      ((s.g b).toNat ≤ arrived → Gives (.bar a b) s (fun t => RegsKept s t ∧ t.th.pc = s.th.pc + 4 ∧ StoreFrame s t ∧
        Stores pa (leBytes 8 ((gen + 1) % 2 ^ 32 * 2 ^ 32)) s t)) ∧
      (arrived < (s.g b).toNat → Gives (.bar a b) s (fun t => RegsKept s t ∧ t.th.pc = s.th.pc ∧
        t.th.status = .blocked (.bar (s.g a) pa (BitVec.ofNat 32 gen)) ∧ Stores pa (leBytes 8 (gen * 2 ^ 32 + arrived)) s t)))

/-! ## Control cores: events, continuations, ranges -/

/-- EVPOP, EVPEEK and EVWAIT hand over the header of the continuation's oldest record, and only EVPEEK leaves it; with GA ≠ g0 its 32 bytes are stored
at g[GA] first, and nowhere else; with no record EVPOP and EVPEEK give 0, and EVWAIT blocks until its time is over (R152 to R154). -/
def Sys2Proof.Says.EventRecordsAreHandedOver : Prop :=
  ∀ (s s1 : State) (d a b : Reg) (pa : Nat),
    (∀ r, s.ctx.events.find? (fun r => r.owner == s.th.id) = some r →
      let header : Word := BitVec.ofNat 64 (r.seq.toNat * 2 ^ 32 + r.status.toNat * 2 ^ 24 + r.kind.toNat * 2 ^ 16 + r.id.toNat)
      let hands := fun (t : State) => RegsSet d header s t ∧ t.th.pc = s.th.pc + 4 ∧ ThreadKept s t
      let popped := fun (t : State) => t.ctx = { s.ctx with events := s.ctx.events.erase r }
      let pops := fun (i : Instr) => Gives i s (fun t => hands t ∧ popped t ∧ t = { s with th := t.th, ctxs := t.ctxs })
      (pops (.evpop d 0) ∧ pops (.evwait d 0 b) ∧ Gives (.evpeek d 0) s (fun t => hands t ∧ t = { s with th := t.th })) ∧
      (a ≠ 0 → s.Inv → Quiet s → Lands (s.g a) 32 .write s pa s1 → writeFails s pa 32 = false → homeDie pa = coreDie s.core →
        let stored := fun (i : Instr) (post : State → Prop) => Gives i s (fun t => hands t ∧ Stores pa (wordBytes [header, r.tag, r.arg1, r.arg2]) s t ∧ post t)
        stored (.evpop d a) popped ∧ stored (.evwait d a b) popped ∧ stored (.evpeek d a) (fun t => t.ctxs = s.ctxs))) ∧
    (s.ctx.events.find? (fun r => r.owner == s.th.id) = none →
      Gives (.evpop d a) s (SetsReg d 0 4 s) ∧ Gives (.evpeek d a) s (SetsReg d 0 4 s) ∧
      Gives (.evwait d a b) s (fun t => t.th = { s.th with home := some s.core, inst := s.ir, status := .blocked (.evwait d a
        (if s.g b = 0 then none else some (s.time + (s.g b).toNat))) } ∧ (t.coreAt s.core).running = none))

/-- A record waits in the queue of its core for the continuation that issued the instruction, behind those before it, in the entry
reserved for it (R150, R151). -/
def Sys2Proof.Says.RecordsAreDelivered : Prop :=
  ∀ (s : State) (core owner kind id status : Nat) (tag : BitVec 32) (x y : Word) (l : Option Nat),
    launchOfThread s owner = some l → let c := s.ctxAt l core
    (deliver core owner kind id status tag x y s).ctxAt l core = { c with
      events := c.events ++ [⟨owner, BitVec.ofNat 8 kind, BitVec.ofNat 8 status, BitVec.ofNat 16 id, c.seq, BitVec.ofNat 64 tag.toNat, x, y, View.zero⟩]
      reserved := c.reserved.erase owner, seq := c.seq + 1 }

/-- CSPAWN creates a continuation with the code address, the frame in g1, the creator's KCONT in g2 and the creator's phase, at the tail of the queue
of the issuing die, or of the die it names (R170). -/
def Sys2Proof.Says.SpawnCreatesAContinuation : Prop :=
  ∀ (s : State) (a b : Reg) (die : BitVec 3) (remote prio : Bool) (l : Nat) (v : Launch),
    Quiet s → s.core < 64 → s.th.launch = some l → Table.find l s.launches = some v → s.th.id < s.nextThread →
    (s.g a).toNat % 4 = 0 → let e := if remote then die.toNat else s.th.die
    let queue := fun (w : Launch) => if prio then (w.die e).high else (w.die e).low
    launchHasDie v e = true → queueLength s l e prio < 65536 →
    Gives (.cspawn a b die remote prio) s (fun t => t.th = { s.th with pc := s.th.pc + 4 } ∧ t.nextThread = s.nextThread + 1 ∧
      (∃ n, Table.find s.nextThread t.threads = some n ∧ n.launch = some l ∧ n.die = e ∧ n.prio = prio ∧ n.phase = s.th.phase ∧
        n.pc = s.g a ∧ n.regs = ((Vector.replicate 32 0).set 1 (s.g b)).set 2 s.th.cont ∧ n.loop.active = false ∧ n.status = .queued) ∧
      (∃ w, Table.find l t.launches = some w ∧ queue w = queue v ++ [s.nextThread]) ∧ t.mem = s.mem)

/-- CJOIN takes one from the count of the join object; the one that makes it 0 puts the continuation of the record at the tail of the queue of the
object's die, with g1, g2, its phase and its KCONT as R171 says. -/
def Sys2Proof.Says.JoinCountsDown : Prop :=
  ∀ (s s1 : State) (a : Reg) (pa l : Nat) (v : Launch),
    s.Inv → Quiet s → s.core < 64 → s.th.launch = some l → Table.find l s.launches = some v →
    Lands (s.g a) 16 .rw s pa s1 → launchHasDie v (homeDie pa) = true → readFails s pa 16 = false →
    let count := leNat (peek s pa 8)
    let r : Word := BitVec.ofNat 64 (leNat (peek s (pa + 8) 8))
    (1 < count → Gives (.cjoin a) s (fun t => RegsKept s t ∧ t.th.pc = s.th.pc + 4 ∧ Stores pa (leBytes 8 (count - 1)) s t ∧
      t.threads = s.threads ∧ t.launches = s.launches)) ∧
    (∀ bs s2, count = 1 → r.toNat % 8 = 0 → loadPages 2 r 32 s1 = .ok bs s2 →
      let ws := bytesWords 4 bs
      let prio := (nth ws 2 0).getLsbD 0
      let queue := fun (w : Launch) => if prio then (w.die (homeDie pa)).high else (w.die (homeDie pa)).low
      (nth ws 0 0).toNat % 4 = 0 → queueLength s2 l (homeDie pa) prio < 65536 → s2.th.id < s2.nextThread → Table.find l s2.launches = some v → s2.Inv →
      Gives (.cjoin a) s (fun t => RegsKept s2 t ∧ t.th.pc = s2.th.pc + 4 ∧ Stores pa (leBytes 8 0) s2 t ∧
        (∃ n, Table.find s2.nextThread t.threads = some n ∧ n.launch = some l ∧ n.die = homeDie pa ∧ n.prio = prio ∧ n.phase = s2.th.phase ∧
          n.pc = nth ws 0 0 ∧ n.regs = ((Vector.replicate 32 0).set 1 (nth ws 1 0)).set 2 s2.th.cont ∧ n.loop.active = false ∧ n.cont = r ∧
          n.status = .queued) ∧
        ∃ w, Table.find l t.launches = some w ∧ queue w = queue v ++ [s2.nextThread]))

/-- CEXIT ends the continuation and leaves its core free; CYIELD puts it at the tail of its queue, to go on at the next instruction (R172). -/
def Sys2Proof.Says.ExitAndYield : Prop :=
  ∀ (s : State) (l : Nat) (v : Launch), s.core < 64 → s.th.launch = some l → Table.find l s.launches = some v →
    let queue := fun (w : Launch) => if s.th.prio then (w.die s.th.die).high else (w.die s.th.die).low
    (Quiet s → Gives .cexit s (fun t => t.th = { s.th with status := .exited } ∧ (t.coreAt s.core).running = none ∧
      t.threads = s.threads ∧ t.mem = s.mem)) ∧
    Gives .cyield s (fun t => t.th = { s.th with pc := s.th.pc + 4, status := .queued } ∧ (t.coreAt s.core).running = none ∧
      (∃ w, Table.find l t.launches = some w ∧ queue w = queue v ++ [s.th.id]) ∧ t.mem = s.mem)

/-- RGSET lays down a range and RGTAKE takes the next chunk of it, of the size R173 gives: at least the minimum, at most what is left and
2^24 − 1, and else half a party's share. -/
def Sys2Proof.Says.RangesAreSharedOut : Prop :=
  ∀ (s : State) (d a b : Reg) (r : BitVec 4) (l : Nat) (v : Launch), s.core < 64 → s.th.launch = some l → Table.find l s.launches = some v →
    let range := fun (t : State) => (Table.find l t.launches).bind (fun w => Table.find r.toNat (w.die s.th.die).ranges)
    let n := (s.g a).toNat
    let parties := (s.g b).toNat % 2 ^ 16
    let least := (s.g b).toNat / 2 ^ 16 % 2 ^ 32
    (parties ≠ 0 → least ≠ 0 → n < 2 ^ 40 → Gives (.rgset a b r) s (fun t =>
      t.th = { s.th with pc := s.th.pc + 4 } ∧ range t = some ⟨n, n, parties, least⟩)) ∧
    (parties = 0 ∨ least = 0 ∨ 2 ^ 40 ≤ n → Gives (.rgset a b r) s (fun t => t = trap cILLOP (BitVec.ofNat 64 s.ir.toNat) s)) ∧
    (∀ x, range s = some x →
      let c := min x.remaining (min (2 ^ 24 - 1) (max x.minimum ((x.remaining + 2 * x.parties - 1) / (2 * x.parties))))
      Gives (.rgtake d r) s (fun t => RegsSet d (BitVec.ofNat 64 (c * 2 ^ 40 + (x.total - x.remaining))) s t ∧
        t.th.pc = s.th.pc + 4 ∧ range t = some { x with remaining := x.remaining - c }))

/-! ## Control cores: segments, FIFOs, copies -/

/-- SEGLD gives the handle at once and its record later; SEGRUN asks for a run and waits for its stripes; SEGSTOP asks a run to halt; SEGWAIT
of an ended run returns its status and retires it, and with GB ≠ g0 writes the header and the element records of its statistics, in blocks of 64 bytes
at the translations of g[GB] and on (R156 to R159). -/
def Sys2Proof.Says.SegmentInstructions : Prop :=
  ∀ (s s1 : State) (d a b : Reg) (l h id : Nat) (v : Launch) (x : Handle) (img : SegImage) (bs : List Byte) (r : Run),
    s.core < 64 → s.th.launch = some l → Table.find l s.launches = some v →
    ((imageAddr s v.part (s.g a).toNat).isSome = true → handleFor (v.die s.th.die) (s.g a).toNat = some h → eventCount s s.core < 256 →
      Gives (.segld d a) s (fun t => RegsSet d (BitVec.ofNat 64 h) s t ∧ t.th.pc = s.th.pc + 4 ∧
        (∃ c ∈ t.segLoads, c.launch = l ∧ c.owner = s.th.id ∧ c.ident = (s.g a).toNat ∧ c.handle = h) ∧
        s.th.id ∈ t.ctx.reserved)) ∧
    (Table.find (s.g a).toNat (v.die s.th.die).handles = some x → loadsBefore s l s.th.die (s.g a).toNat x = false → x.first = 0 →
      x.image = some img → loadAl (s.g b) 64 64 s = .ok bs s1 → descLegal (bytesWords 8 bs) = true →
      runLegal v (newRun l s.th.die s1.th.id x.ident s1.th.phase s1.th.floor img (bytesWords 8 bs)) = true → ticketLeft s1 l = true →
      Gives (.segrun d a b) s (fun t => t.th.status = .blocked (.segrun d s1.nextRun) ∧ t.th.pc = s1.th.pc ∧
        ∃ r', Table.find s1.nextRun t.runs = some r' ∧ r'.status = .waiting ∧ r'.launch = l ∧ r'.image = img)) ∧
    (runByTicket s l (s.g a) = some (id, r) →
      Gives (.segstop a) s (fun t => t.th = { s.th with pc := s.th.pc + 4 } ∧
        (Table.find id s.runs = some r → Table.find id t.runs = some (r.stop cSTOPPED))) ∧
      (r.status = .ended → Gives (.segwait d a 0) s (fun t => RegsSet d (BitVec.ofNat 64 r.result) s t ∧ t.th.pc = s.th.pc + 4 ∧
        t.runs = Table.erase id s.runs)) ∧
      (∀ pas, r.status = .ended → b ≠ 0 → (s.g b).toNat % 64 = 0 → blocksFor (6 * r.vcount + 1) (s.g b) s = .ok pas s1 → s.Inv → Quiet s →
        (∀ p ∈ pas, onDevice p = true ∧ touchHeap p s = s ∧ homeDie p = coreDie s.core ∧ writeFails s p 64 = false) →
        pas.Pairwise (fun p q => overlap p 64 q 64 = false) →
        let bytes := wordBytes ([r.vcount, r.steps, r.bursts, r.stretched, r.startTime, r.endTime, 0, 0].map (BitVec.ofNat 64)) ++
          (List.range (16 * r.vcount)).flatMap (fun i => let x := Table.getD r.records i Status.zero
            wordBytes [x.flags.setWidth 64, x.gissue.setWidth 64, x.ginst.setWidth 64])
        Gives (.segwait d a b) s (fun t => RegsSet d (BitVec.ofNat 64 r.result) s t ∧ t.th.pc = s.th.pc + 4 ∧ t.runs = Table.erase id s.runs ∧
          ∀ x, t.mem.read x = match pas.findIdx? (fun p => decide (p ≤ x) && decide (x < p + 64)) with
            | some i => guardByte s x (nth bytes (64 * i + (x - nth pas i 0)) 0)
            | none => s.mem.read x)) ∧
      (r.status ≠ .ended → Gives (.segwait d a 0) s (fun t => t.th.status = .blocked (.segwait d id none) ∧ t.th.pc = s.th.pc)))

/-- STRBIND binds the FIFO of its descriptor under the next number; STRFREE of a FIFO that no segment names unbinds it and returns the bytes
appended; CFGINV drops every cached configuration of an identifier (R160 to R162). -/
def Sys2Proof.Says.FifosAndConfigurations : Prop :=
  ∀ (s s1 : State) (d a : Reg) (l : Nat) (v : Launch) (bs : List Byte) (f : Fifo),
    s.core < 64 → s.th.launch = some l → Table.find l s.launches = some v →
    (loadAl (s.g a) 32 32 s = .ok bs s1 → Table.find l s1.launches = some v → fifoOf v s.th.die (bytesWords 4 bs) = some f →
      (v.die s.th.die).nextFifo < 256 →
      Gives (.strbind d a) s (fun t => RegsSet d (BitVec.ofNat 64 (v.die s.th.die).nextFifo) s1 t ∧ t.th.pc = s1.th.pc + 4 ∧
        (Table.find l t.launches).bind (fun w => Table.find (v.die s.th.die).nextFifo (w.die s.th.die).fifos) = some f)) ∧
    (Table.find (s.g a).toNat (v.die s.th.die).fifos = some f → f.bound = true → fifoNamed s l s.th.die (s.g a).toNat = false →
      Gives (.strfree d a) s (fun t => RegsSet d (BitVec.ofNat 64 (f.wpos - f.start)) s t ∧ t.th.pc = s.th.pc + 4 ∧
        (Table.find l t.launches).bind (fun w => Table.find (s.g a).toNat (w.die s.th.die).fifos) = some { f with bound := false })) ∧
    Gives (.cfginv a) s (fun t => t.th = { s.th with pc := s.th.pc + 4 } ∧
      (∀ c ∈ t.dieStore, ¬(c.2.1 = s.partNow ∧ c.2.2.1 = (s.g a).toNat)) ∧
      (∀ c ∈ t.ringCache, ¬(c.2.1 = s.partNow ∧ c.2.2.1 = (s.g a).toNat)) ∧ t.mem = s.mem)

/-- COPY and COPYI issue a copy with the next ticket and go on; PBINV empties the die's parameter-block cache, or drops one entry; FLSIG issues a
signal with the next ticket and FLSIG.W waits for it (R150, R163, R164, R168). -/
def Sys2Proof.Says.CopiesAndSignals : Prop :=
  ∀ (s s1 s2 : State) (d a b : Reg) (len : BitVec 32) (l pa : Nat) (ws : List Word),
    s.th.launch = some l →
    let issued := fun (u t : State) (ws : List Word) (k : Nat) => RegsSet d (BitVec.ofNat 64 u.ctx.ticket.toNat) u t ∧
      t.th.pc = u.th.pc + BitVec.ofNat 64 k ∧ t.ctx.ticket = u.ctx.ticket + 1 ∧
      ∃ c, t.copies = u.copies ++ [c] ∧ c.src = nth ws 0 0 ∧ c.dst = nth ws 1 0 ∧ c.len = (nth ws 2 0).toNat ∧ c.rows = (nth ws 3 0).toNat ∧
        c.owner = u.th.id ∧ c.done = 0 ∧ c.finished = none
    (s.core < 64 → readBlock (s.g a) s = .ok ws s1 → s1.th.launch = some l → blockLegal ws = true → sourceHomed (nth ws 0 0) s1 = .ok () s2 →
      eventCount s2 s2.core < 256 → Gives (.copy d a) s (fun t => issued s2 t ws 4)) ∧
    (s.core < 64 → len ≠ 0 → sourceHomed (s.g a) s = .ok () s2 → eventCount s2 s2.core < 256 →
      Gives (.copyi d a len) s (fun t => issued s2 t [s.g a, s.g d, BitVec.ofNat 64 len.toNat, 1, 0, 0, 4, 0] 8)) ∧
    (s.core < 64 → Gives (.pbinv 0) s (fun t => t.th = { s.th with pc := s.th.pc + 4 } ∧ ∀ e ∈ t.blockCache, e.1 ≠ s.core / 8)) ∧
    (s.core < 64 → Gives (.pbinv a) s (fun t => t.th = { s.th with pc := s.th.pc + 4 } ∧
      ∀ e ∈ t.blockCache, ¬(e.1 = s.core / 8 ∧ e.2.1 = s.partNow ∧ e.2.2.1 = (s.g a).toNat))) ∧
    (access (s.g a) 8 .write s = .ok pa s1 → windowClosed s1 pa = false →
      (eventCount s1 s1.core < 256 → Gives (.flsig d a b) s (fun t => RegsSet d (BitVec.ofNat 64 s1.ctx.ticket.toNat) s1 t ∧
        t.th.pc = s1.th.pc + 4 ∧ t.ctx.ticket = s1.ctx.ticket + 1 ∧
        ∃ j, t.flushes = s1.flushes ++ [j] ∧ j.addr = s.g a ∧ j.value = s1.g b ∧ j.pa = pa ∧ j.wait = false)) ∧
      Gives (.flsigW d a b) s (fun t => t.th.status = .blocked (.flsig d s1.nextJob) ∧ t.th.pc = s1.th.pc ∧
        ∃ j, t.flushes = s1.flushes ++ [j] ∧ j.addr = s.g a ∧ j.value = s1.g b ∧ j.pa = pa ∧ j.wait = true))

/-! ## Control cores: versions and placement -/

/-- VDECL declares the region of its descriptor under the lowest free number; VDROP removes it (R175, R178). -/
def Sys2Proof.Says.RegionsAreDeclaredAndDropped : Prop :=
  ∀ (s s1 : State) (d a : Reg) (bs : List Byte) (hb hs : Nat) (pages : List Nat) (r : Region),
    featureOn s 1 = true →
    ((s.g a).toNat % 8 = 0 → loadPages 2 (s.g a) 32 s = .ok bs s1 →
      let ws := bytesWords 4 bs
      let base := (nth ws 0 0).toNat
      let size := (nth ws 1 0).toNat
      let depth := (nth ws 2 0).toNat % 32
      let home := (nth ws 2 0).toNat / 256 % 8
      regionLegal s1 s1.partNow base size depth = true → available s1 home = true → homeOwned s1 s1.partNow home = true →
      s1.wqueue = [] → (s1.regionsOf s1.partNow).length < 1024 → reserveHeap s1 s1.partNow home size depth = some (hb, hs, pages) →
      let n := Table.firstFree (s1.regionsOf s1.partNow) 1024
      Gives (.vdecl d a) s (fun t => RegsSet d (BitVec.ofNat 64 n) s1 t ∧ t.th.pc = s1.th.pc + 4 ∧
        ∃ x, t.region? s1.partNow n = some x ∧ x.base = base ∧ x.size = size ∧ x.depth = depth ∧ x.home = home ∧
          x.granules = [] ∧ x.readers = [])) ∧
    (s.region? s.partNow (s.g a).toNat = some r → homeLost s r = false → isTable s s.partNow (s.g a).toNat = false → s.parked = [] →
      Gives (.vdrop a) s (fun t => t.th = { s.th with pc := s.th.pc + 4 } ∧
        t.regionsOf s.partNow = Table.erase (s.g a).toNat (s.regionsOf s.partNow)))

/-- VFLOOR registers a reader under a free number (R177 says an id from 0 to 63; that it is the lowest free one is the model's choice, log 58), raises a mark
without lowering it, and deregisters (R177); nothing is parked. -/
def Sys2Proof.Says.FloorsAreKept : Prop :=
  ∀ (s : State) (d a b : Reg) (r : Region) (x : Reader), let n := (s.g a).toNat
    featureOn s 1 = true → s.region? s.partNow n = some r → homeLost s r = false → s.parked = [] →
    let readers := fun (t : State) (f : Table Reader) => (t.region? s.partNow n).map (fun y => y.readers) = some f
    (isTable s s.partNow n = false → Table.firstFree r.readers 64 < 64 →
      Gives (.vfloorRegister d a b) s (fun t => RegsSet d (BitVec.ofNat 64 (Table.firstFree r.readers 64)) s t ∧ t.th.pc = s.th.pc + 4 ∧
        readers t (Table.set (Table.firstFree r.readers 64) ⟨(s.g b).toNat, s.th.id⟩ r.readers))) ∧
    (Table.find (s.g d).toNat r.readers = some x →
      Gives (.vfloorRaise d a b) s (fun t => RegsKept s t ∧ t.th.pc = s.th.pc + 4 ∧
        readers t (Table.set (s.g d).toNat ⟨max x.mark (s.g b).toNat, s.th.id⟩ r.readers)) ∧
      Gives (.vfloorDeregister d a b) s (fun t => RegsKept s t ∧ t.th.pc = s.th.pc + 4 ∧
        readers t (Table.erase (s.g d).toNat r.readers)))

/-- VST that may create its version makes it the latest of its granule (R176): a version that is one above the latest, with room above the
floor, the continuation having nothing under way. -/
def Sys2Proof.Says.VersionStoresCreate : Prop :=
  ∀ (s s1 : State) (d a b : Reg) (n : Nat) (r : Region) (bs : List Byte), let g := ((s.g a).toNat - r.base) / 64
    featureOn s 1 = true → (s.g a).toNat % 64 = 0 → regionAt (s.regionsOf s.partNow) (s.g a).toNat = some (n, r) →
    homeLost s r = false → isTable s s.partNow n = false → loadAl (s.g d) 64 64 s = .ok bs s1 → Quiet s1 → s1.parked = [] →
    s1.region? s1.partNow n = some r → homeLost s1 r = false → isTable s1 s1.partNow n = false → s1.partNow = s.partNow → (s.g b).toNat = (r.gran g).latest + 1 → r.canCreate g (s.g b).toNat = true →
    heapFails s1 r g (s.g b).toNat = false →
    Gives (.vst d a b) s (fun t => RegsKept s1 t ∧ t.th.pc = s1.th.pc + 4 ∧
      ∃ x, t.region? s.partNow n = some x ∧ (x.gran g).latest = (s.g b).toNat ∧ Table.find (s.g b).toNat (x.gran g).versions = some bs)

/-- VLD of a retained version, and VLDL of the latest, store its bytes at their destination (those of a version that an access to its heap made undefined
are free values, R401); VLDL gives the version; VSTAT reads the latest version, the oldest retained, the floor and how many are retained (R176, R178). -/
def Sys2Proof.Says.VersionLoadsAndStatus : Prop :=
  ∀ (s s0 s1 : State) (d a b : Reg) (n pa : Nat) (r : Region) (bs : List Byte),
    let g := ((s.g a).toNat - r.base) / 64
    let x := r.gran g
    let kept := s0.region? s0.partNow n = some r ∧ homeLost s0 r = false
    featureOn s 1 = true → (s.g a).toNat % 64 = 0 → regionAt (s.regionsOf s.partNow) (s.g a).toNat = some (n, r) →
    homeLost s r = false →
    (access (s.g d) 64 .write s = .ok pa s0 → kept → (s.g b).toNat ≤ x.latest → Table.find (s.g b).toNat x.versions = some bs →
      heapFails s0 r g (s.g b).toNat = false →
      let got := versionData bs s0
      storeAl (s.g d) got.1 64 got.2 = .ok () s1 →
      Gives (.vld d a b) s (fun t => RegsKept s1 t ∧ t.th.pc = s1.th.pc + 4 ∧ ThreadKept s1 t ∧ t = { s1 with th := t.th })) ∧
    (access (s.g b) 64 .write s = .ok pa s0 → kept → Table.find x.latest x.versions = some bs →
      heapFails s0 r g x.latest = false →
      let got := versionData bs s0
      storeAl (s.g b) got.1 64 got.2 = .ok () s1 →
      Gives (.vldl d a b) s (fun t => RegsSet d (BitVec.ofNat 64 x.latest) s1 t ∧ t.th.pc = s1.th.pc + 4 ∧ ThreadKept s1 t ∧ t = { s1 with th := t.th })) ∧
    (bs ≠ [] → versionData bs s0 = (bs, s0)) ∧
    Gives (.vstat d a 0) s (SetsReg d (BitVec.ofNat 64 x.latest) 4 s) ∧
    (∀ v, x.versions.head? = some v → Gives (.vstat d a 1) s (SetsReg d (BitVec.ofNat 64 v.1) 4 s)) ∧
    (isTable s s.partNow n = false → (r.readers = [] → Gives (.vstat d a 2) s (SetsReg d 0xFFFFFFFFFFFFFFFF 4 s)) ∧
      (∀ m, r.floor = some m → Gives (.vstat d a 2) s (SetsReg d (BitVec.ofNat 64 m) 4 s))) ∧
    Gives (.vstat d a 3) s (SetsReg d (BitVec.ofNat 64 x.versions.length) 4 s)

/-- PLPOL brings a policy in force and EXREG registers an expert, whose digest agrees, with its bytes' location (R180, R181, R340); EXSTAT reads the average
of the expert on a die, the number of its replicas under the latest table version, that version, and the number of replay-window entries of all ROUTEs that
are stamped for it on that die (R183, R342, R346, R347, R351), where the table's memory can be read.  That it reads 0 of an expert that is not registered
is the model's choice (log 61). -/
def Sys2Proof.Says.PlacementIsSetUp : Prop :=
  ∀ (s s1 s2 s3 : State) (d a b : Reg) (bs bytes : List Byte) (pol : Policy) (n pa : Nat) (v : Launch),
    featureOn s 2 = true → s.core < 64 →
    (s.launch? = some v → v.placeCtl = true → loadAl (s.g a) 64 64 s = .ok bs s1 → policyOf (bytesWords 8 bs) = some pol →
      tableRegion s1 s1.partNow pol.table = some n → (s1.part s1.partNow).place.policy = none → s1.parked = [] →
      Gives (.plpol a) s (fun t => t.th.pc = s1.th.pc + 4 ∧ RegsKept s1 t ∧
        (t.part s1.partNow).place.policy = some pol ∧ (t.part s1.partNow).place.region = n)) ∧
    ((s.g a).toNat % 8 = 0 → loadPages 2 (s.g a) 80 s = .ok bs s1 →
      let ws := bytesWords 10 bs
      let x := (nth ws 0 0).toNat % 4096
      let size := (nth ws 2 0).toNat
      let pl := (s1.part s1.partNow).place
      pl.policy.isSome = true → Table.find x pl.experts = none → tableVersion s1 s1.partNow = 0 → pl.wasRead = false →
      expertSizeOk size = true → translateAt (nth ws 1 0) .read 0 s1 = .ok pa s2 → homeDie pa < 8 →
      loadPages (size / 4096 + 2) (nth ws 1 0) size s2 = .ok bytes s3 → sha384 bytes = (bs.drop 24).take 48 →
      (∀ r, s3.table? s1.partNow = some r → homeLost s3 r = false ∧ heapFails s3 r (x + 1) 0 = false) →
      Gives (.exreg a) s (fun t => t.th.pc = s3.th.pc + 4 ∧ RegsKept s3 t ∧
        ∃ e, Table.find x (t.part s1.partNow).place.experts = some e ∧ e.addr = nth ws 1 0 ∧ e.size = size)) ∧
    ((s.g a).toNat ≤ 4095 → let x := (s.g a).toNat
      let die := (s.g b).toNat % 8
      let gives := fun (sel : BitVec 2) (n : Nat) => Gives (.exstat d a b sel) s (fun t => t.th.pc = s.th.pc + 4 ∧ RegsSet d (BitVec.ofNat 64 n) s t)
      (∀ e, Table.find x (s.part s.partNow).place.experts = some e → gives 0 (Table.getD e.avg die 0)) ∧
      (Table.find x (s.part s.partNow).place.experts = none → gives 0 0) ∧
      (s.table? s.partNow = none → gives 1 0 ∧ gives 2 0) ∧
      (∀ r, s.table? s.partNow = some r → homeLost s r = false → gives 2 (r.gran 0).latest ∧
        ∀ ws s4, entryWords r x (r.gran 0).latest s = (ws, s4) → (∀ u ∈ (r.gran (x + 1)).versions, heapFails s r (x + 1) u.1 = false) →
          gives 1 ((List.range ws.length).filter (fun k => k != 0 && (nth ws k 0).testBit 5)).length) ∧
      gives 3 ((partWindows s s.partNow).filter (fun w => w.expert == x && w.die == die)).length)

/-- PLREP, PLRET and PLRET.URGENT append an action to Equinox's queue and give its ticket; PLSYNC with no action left gives the table version
(R182, R335). -/
def Sys2Proof.Says.PlacementActionsAreQueued : Prop :=
  ∀ (s : State) (d a b : Reg) (v : Launch) (l : Nat) (pol : Policy),
    Quiet s → featureOn s 2 = true → s.core < 64 → s.th.launch = some l → Table.find l s.launches = some v → v.placeCtl = true →
    (s.part v.part).place.policy = some pol →
    let place := fun (t : State) => (t.part v.part).place
    (eventCount s s.core < 256 → (s.g a).toNat ≤ 4095 → (s.g b).toNat ≤ 7 →
      let queues := fun (i : Instr) (add urgent : Bool) => Gives i s (fun t => RegsSet d (BitVec.ofNat 64 s.ctx.ticket.toNat) s t ∧
        t.th.pc = s.th.pc + 4 ∧ ∃ old x, (place t).actions = old ++ [x] ∧ old.length = (place s).actions.length ∧ x.add = add ∧ x.urgent = urgent ∧
          x.expert = (s.g a).toNat ∧ x.die = (s.g b).toNat ∧ x.state = .queued ∧ x.issue = (place s).nextIssue)
      queues (.plrep d a b) true false ∧ queues (.plret d a b) false false ∧ queues (.plretUrgent d a b) false true) ∧
    ((place s).actions = [] → Gives (.plsync d) s (SetsReg d (BitVec.ofNat 64 (tableVersion s v.part)) 4 s))

/-! ## Management cores -/

/-- PREEMPT, CTXSAVE and CTXREST of management code give a ticket and start their work (R185, R327, R328, R331). -/
def Sys2Proof.Says.PreemptionInstructions : Prop :=
  ∀ (s : State) (d a b : Reg) (l : Nat) (v : Launch), 64 ≤ s.core → s.th.launch = none → eventCount s s.core < 256 →
    (∀ p ∈ s.threads, p.2.id ≠ s.th.id) →
    let ticket := fun (t : State) => RegsSet d (BitVec.ofNat 64 s.ctx.ticket.toNat) s t ∧ t.th.pc = s.th.pc + 4
    (placedLaunch s (s.g a) = some (l, v) → Table.find l s.launches = some v → v.status = .placed →
      Gives (.preempt d a) s (fun t => ticket t ∧ ∃ w, Table.find l t.launches = some w ∧ w.status = .halting ∧ w.preempt ≠ [])) ∧
    (placedLaunch s (s.g a) = some (l, v) → Table.find l s.launches = some v → v.status = .halted →
      (s.g b).toNat % 4096 = 0 →
      Gives (.ctxsave d a b) s (fun t => ticket t ∧ (s.g b ≠ 0 → ∃ w, Table.find l t.launches = some w ∧ w.status = .saving) ∧
        ∃ j ∈ t.ctxJobs, j.restore = false ∧ j.launch = l ∧ j.addr = s.g b)) ∧
    Gives (.ctxrest d a) s (fun t => ticket t ∧ ∃ j ∈ t.ctxJobs, j.restore = true ∧ j.addr = s.g a)

/-- QQUIESCE stops the fetch of an ACTIVE queue with nothing under way, and QRESUME starts it again (R185, R310). -/
def Sys2Proof.Says.QueuesAreQuiesced : Prop :=
  ∀ (s : State) (a : Reg), 64 ≤ s.core → (s.g a).toNat < 1024 →
    let p := (s.g a).toNat / 64
    let q := (s.g a).toNat % 64
    ((s.queue p q).state = qACTIVE → queueBusy s p q = false →
      Gives (.qquiesce a) s (fun t => t.th = { s.th with pc := s.th.pc + 4 } ∧ t.queue p q = { s.queue p q with state := qQUIESCED })) ∧
    ((s.queue p q).state = qQUIESCED →
      Gives (.qresume a) s (fun t => t.th = { s.th with pc := s.th.pc + 4 } ∧ t.queue p q = { s.queue p q with state := qACTIVE })) ∧
    ((s.queue p q).state = qOVERRUN ∨ (s.queue p q).state = qRESETTING ∨ (s.queue p q).state = qDISABLED →
      Gives (.qresume a) s (fun t => t.queue p q = s.queue p q))

/-- FWSTAGE fills the inactive slot and marks it unverified, FWVERIFY reports both signatures and verifies only on both, MEASURE extends a register
of 28 to 31, SLOTSW extends register 10 with the first 48 bytes of the verified package and starts its image on cores 1 to 3 at the entry that the package
holds, with g1 = KHANDOVER and no other register set, HBEAT counts (R185, R384 to R386). -/
def Sys2Proof.Says.FirmwareInstructions : Prop :=
  ∀ (s s1 : State) (d a b : Reg) (bs : List Byte), 64 ≤ s.core →
    let other := 1 - s.io.fwslot
    (2 ^ 24 < (s.g b).toNat → Gives (.fwstage d a b) s (SetsReg d 1 4 s)) ∧
    ((s.g b).toNat ≤ 2 ^ 24 → loadPages ((s.g b).toNat / 4096 + 2) (s.g a) (s.g b).toNat s = .ok bs s1 → s1.io = s.io →
      Gives (.fwstage d a b) s (fun t => RegsSet d 0 s1 t ∧ t.th.pc = s1.th.pc + 4 ∧ t.fw other = ⟨bs, (s.g b).toNat, false⟩)) ∧
    (let f := s.fw other
      let r := packageResults f.package f.count
      Gives (.fwverify d) s (fun t => RegsSet d (BitVec.ofNat 64 ((if r.1 then 1 else 0) + (if r.2 then 2 else 0))) s t ∧
        t.th.pc = s.th.pc + 4 ∧ t.fw other = { f with verified := r.1 && r.2 })) ∧
    (28 ≤ (s.g b).toNat → (s.g b).toNat ≤ 31 → loadPages 2 (s.g a) 48 s = .ok bs s1 → s1.io = s.io →
      Gives (.measure a b) s (fun t => RegsKept s1 t ∧ t.th.pc = s1.th.pc + 4 ∧
        measurement t (s.g b).toNat = sha384 (measurement s (s.g b).toNat ++ bs))) ∧
    ((s.g a).toNat ≤ 1 → (s.g a).toNat ≠ s.io.fwslot → (s.fw (s.g a).toNat).verified = true → allQuiet s = true → s.core = 64 → s.th.id = 0 →
      (∀ u ∈ s.allThreads, u.id < s.nextThread) → Gives (.slotsw a) s (fun t => t.th.pc = s.th.pc + 4 ∧ t.io.fwslot = (s.g a).toNat ∧ t.io.hbeat = 0 ∧
        t.io.watch = .first (s.time + 10000000) (some s.io.fwslot) ∧
        measurement t 10 = sha384 (measurement s 10 ++ (s.fw (s.g a).toNat).package.take 48) ∧
        ∀ m, 1 ≤ m → m ≤ 3 → ∃ n u, (t.coreAt (64 + m)).running = some n ∧ Table.find n t.threads = some u ∧ u.status = .running (64 + m) ∧
          u.launch = none ∧ u.pc = BitVec.ofNat 64 (leNat (((s.fw (s.g a).toNat).package.drop 4096).take 8)) ∧
          ∀ r : Reg, u.regs[r] = if r = 1 then s.io.handover else 0)) ∧
    (s.core ≠ 64 → deadlinePassed s = none → Gives .hbeat s (fun t => t.th = { s.th with pc := s.th.pc + 4 } ∧
      t.io.hbeat = s.io.hbeat + 1 ∧ t.io.watch = .beating (s.time + 10000000)))

/-- KEYLD installs a key whose blob unwraps, and answers 1 with nothing changed where it does not (R382). -/
def Sys2Proof.Says.KeysAreLoaded : Prop :=
  ∀ (s s1 : State) (d a b : Reg) (blob : List Byte), 64 ≤ s.core → (s.g b).toNat < 4096 →
    let part := (s.g b).toNat % 16
    let use := (s.g b).toNat / 16 % 4
    let stream := (s.g b).toNat / 64
    (use = 0 ∧ stream = 0) ∨ use = 1 → loadPages 2 (s.g a) 112 s = .ok blob s1 →
    Gives (.keyld d a b) s (fun t => match unwrapKey (s1.part part) part use stream blob with
      | none => SetsReg d 1 4 s1 t
      | some (c, k) => RegsSet d 0 s1 t ∧ t.th.pc = s1.th.pc + 4 ∧ (t.part part).keyCount = some c ∧
        (use = 0 → (t.part part).memKey = some k) ∧
        (use = 1 → (Table.find stream (t.part part).streams).bind (fun x => x.key) = some k))

/-! ## Events of the control cores -/

/-- BLOCKED_INSTRUCTION_COMPLETE: a continuation whose wait is over completes its instruction, takes the end-of-pass check and joins its queue again: FENCE,
BAR, EVWAIT with a record, SEGRUN, SEGWAIT, STRFREE, FLSIG.W, VST, PLSYNC; one that has to execute again does so; one whose version is gone or stale
takes its trap.  EVWAIT_TIMEOUT: an EVWAIT whose time is over, with no record, gives 0 (R149, R153). -/
def Sys2Proof.Says.WaitsEnd : Prop :=
  ∀ (s : State) (l : Nat) (v : Launch) (w : Wait) (d : Reg), s.th.launch = some l → Table.find l s.launches = some v →
    s.th.home = some s.core → s.th.status = .blocked w →
    let queue := fun (x : Launch) => if s.th.prio then (x.die s.th.die).high else (x.die s.th.die).low
    let queued := fun (t : State) => ∃ x, Table.find l t.launches = some x ∧ queue x = queue v ++ [s.th.id]
    let ends := fun (i : Instr) (u : Thread) => Gives i s (fun t => t.th = Thread.loopEnd { u with pc := s.th.pc + 4, status := .queued } ∧ queued t)
    let done := ends (.blockedInstructionComplete s.th.id)
    let gives := fun (x : Nat) => s.th.setG d (BitVec.ofNat 64 x)
    (∀ why arg, w = .again why arg → waitOver w s = true → Gives (.blockedInstructionComplete s.th.id) s (fun t =>
      t.th = { s.th with status := .queued, noBreak := why != 0 } ∧ queued t)) ∧
    (∀ scope classes, w = .fence scope classes → Quiet s → NoReport s → s.copies = [] → s.th.copied = View.zero → done s.th) ∧
    (∀ va pa gen, w = .bar va pa gen → leNat (peek s (pa + 4) 4) ≠ gen.toNat → done s.th) ∧
    (∀ deadline r, w = .evwait d 0 deadline → oldestRecord s = some r → r.view = View.zero →
      done (s.th.setG d r.header) ∧ Gives (.blockedInstructionComplete s.th.id) s (fun t => t.ctx.events = s.ctx.events.erase r)) ∧
    (∀ id r, w = .segrun d id → Table.find id s.runs = some r → r.ticket ≠ 0 → done (gives r.ticket)) ∧
    (∀ id r, w = .segwait d id none → Table.find id s.runs = some r → r.status = .ended → done (gives r.result) ∧
      Gives (.blockedInstructionComplete s.th.id) s (fun t => t.runs = Table.erase id s.runs)) ∧
    (∀ f x, w = .strfree d f → Table.find f (v.die s.th.die).fifos = some x → x.bound = true → fifoNamed s l s.th.die f = false →
      Gives (.blockedInstructionComplete s.th.id) s (fun t => t.th = Thread.loopEnd { gives (x.wpos - x.start) with pc := s.th.pc + 4, status := .queued } ∧
        ∃ y, Table.find l t.launches = some y ∧ Table.find f (y.die s.th.die).fifos = some { x with bound := false })) ∧
    (∀ job, w = .flsig d job → s.flushes.any (fun j => j.id == job && !j.done) = false →
      done (gives (if s.flushes.any (fun j => j.id == job && j.failed) then cMEMERR else 0))) ∧
    (w = .vstDone → done s.th) ∧
    (∀ part n, w = .plsync d part n → actionsBefore s part n = false → done (gives (tableVersion s part))) ∧
    (s.th.inTrap = false → s.th.trapVec ≠ 0 → ∀ x c, (w = .missver x ∧ c = cMISSVER) ∨ (w = .vstale x ∧ c = cVSTALE) →
      Gives (.blockedInstructionComplete s.th.id) s (fun t => t.th.pc = s.th.trapVec ∧ t.th.trapCause = BitVec.ofNat 64 c ∧ t.th.trapVal = x ∧
        t.th.trapPc = s.th.pc ∧ t.th.inTrap = true ∧ t.th.status = .queued ∧ queued t)) ∧
    (∀ a t, w = .evwait d a (some t) → oldestRecord s = none → t ≤ s.time → ends (.evwaitTimeout s.th.id) (gives 0))

/-- CONTINUATION_DISPATCH: an idle control core takes up the first continuation that may run on it of a launch of the highest PRIO that offers one, where it
is that launch's turn among those of equal PRIO; a root gets its stack pointer on its first dispatch (R219, R220, R320). -/
def Sys2Proof.Says.CoresTakeContinuations : Prop :=
  ∀ (s : State) (core l tid : Nat) (v : Launch) (th : Thread), core < 64 → (s.coreAt core).running = none → Table.find l s.launches = some v →
    offers s core v = true → (∀ w ∈ s.launches, offers s core w.2 = true → launchPrio s w.2 ≤ launchPrio s v) →
    let others := s.launches.filter (fun w => offers s core w.2)
    inTurn s core ((others.filter (fun w => launchPrio s w.2 == launchPrio s v)).map (·.1)) l = true →
    nextFor s core v = some tid → s.thread? tid = some th → th.id = tid →
    let c := s.ctxAt (some l) core
    Gives (.continuationDispatch core l) s (fun t => (t.coreAt core).running = some tid ∧ t.th = { th with
      status := .running core
      fresh := false
      regs := if th.root && th.fresh then th.regs.set 30 (c.stkBase + c.stkSize) else th.regs })

/-- PHASE_BOUNDARY: once every live continuation has arrived, no segment runs and every access of the phase is complete, the launch's phase goes up; a
continuation that is the launch's only one goes on after its PHASE, with the new phase in g[GD] and nothing fixed (R140, R285). -/
def Sys2Proof.Says.PhaseBoundaryAdvances : Prop :=
  ∀ (s : State) (l : Nat) (v : Launch), Table.find l s.launches = some v → v.status = .placed → phaseReached s l = true →
    Gives (.phaseBoundary l) s (fun t => ∃ w, Table.find l t.launches = some w ∧ w.phase = v.phase + 1 ∧ w.frozenT = none) ∧
    (∀ p d, s.threads = [] → s.th.launch = some l → s.th.status = .blocked (.phase d p) → s.th.home = some s.core →
      Gives (.phaseBoundary l) s (fun t => t.th = Thread.loopEnd { s.th.setG d (BitVec.ofNat 64 (p + 1)) with
        pc := s.th.pc + 4
        status := .queued
        phase := s.th.phase + 1
        arrived := false
        fixed := []
        floor := s.th.floor.join (presentView s l) }))
/-! ## Elements -/

/-- The operands of a value instruction (R17, R22): ports 0 and 1, the immediate where IMMB says so, the two splatted halves of it for an
instruction of three operands; SWAP exchanges A and B. -/
def Sys2Proof.Says.ElementOperands : Prop :=
  ∀ (w : EWord) (width : Nat) (p q : Word),
    (w.arity = 2 → elemOperands .ab width w p q = if w.swap then (q, p, w.imm) else (p, q, w.imm)) ∧
    (w.arity = 1 → w.immb = true → elemOperands .ab width w p q = if w.swap then (w.imm, p, 0) else (p, w.imm, 0)) ∧
    (w.arity = 1 → w.immb = true → width ∣ 64 → width ≠ 0 → ∃ b c : Word,
      elemOperands .abc width w p q = (if w.swap then (b, p, c) else (p, b, c)) ∧
      ∀ k, k < 64 / width → laneOf width k b = w.imm.toNat % 2 ^ 32 % 2 ^ width ∧ laneOf width k c = w.imm.toNat / 2 ^ 32 % 2 ^ width) ∧
    (w.arity = 1 → w.immb = false → elemOperands .a width w p q = if w.swap then (0, p, w.imm) else (p, 0, w.imm))

/-- The integer instructions compute each lane exactly and keep its low bits (R46, R48, R49). -/
def Sys2Proof.Says.ElementIntegerLanes : Prop :=
  ∀ (s : State) (w : EWord) (inst : Inst), s.issue.insts = [inst] → handleOperand inst = none →
    let code := w.rt.toNat
    let width := laneWidth code
    let gives := fun (i : Instr) (c : OpClass) (f : Int → Int → Int → Int) =>
      let o := elemOperands c width w inst.a.value inst.bval
      GivesLanes i w s inst width (fun k => wrapInt width (f (laneVal code k o.1) (laneVal code k o.2.1) (laneVal code k o.2.2))) 0
    gives (.elemAdd w) .ab (fun a b _ => a + b) ∧ gives (.elemSub w) .ab (fun a b _ => a - b) ∧
    gives (.elemMul w) .ab (fun a b _ => a * b) ∧ gives (.elemMulh w) .ab (fun a b _ => a * b / 2 ^ width) ∧
    gives (.neg w) .a (fun a _ _ => -a) ∧ gives (.abs w) .a (fun a _ _ => if a < 0 then -a else a) ∧
    gives (.elemMin w) .ab (fun a b _ => min a b) ∧ gives (.elemMax w) .ab (fun a b _ => max a b) ∧
    gives (.avg w) .ab (fun a b _ => (a + b + 1) / 2) ∧ gives (.clamp w) .abc (fun a b c => min (max a b) c)

/-- ADDS, SUBS and NARROW saturate each lane and set SAT exactly where one did (R48, R56). -/
def Sys2Proof.Says.ElementSaturation : Prop :=
  ∀ (s : State) (w : EWord) (inst : Inst), s.issue.insts = [inst] → handleOperand inst = none → w.rt.toNat < 8 →
    let code := w.rt.toNat
    let width := laneWidth code
    let o := elemOperands .ab width w inst.a.value inst.bval
    let clip := fun (c : Nat) (v : Int) => max (intMin c) (min (intMax c) v)
    let gives := fun (i : Instr) (c n : Nat) (f : Nat → Int) =>
      GivesLanes i w s inst (laneWidth c) (fun k => wrapInt (laneWidth c) (clip c (f k)))
        (if (List.range n).any (fun k => decide (clip c (f k) ≠ f k)) then fSAT else 0)
    gives (.adds w) code (64 / width) (fun k => laneVal code k o.1 + laneVal code k o.2.1) ∧
    gives (.subs w) code (64 / width) (fun k => laneVal code k o.1 - laneVal code k o.2.1) ∧
    (code ≠ 0 → code ≠ 4 → gives (.narrow w) (code - 1) (2 * (64 / width))
      (fun k => if k < 64 / width then laneVal code k o.1 else laneVal code (k - 64 / width) o.2.1))

/-- Logic, shifts, bit counts, compares and select (R50 to R54, R66). -/
def Sys2Proof.Says.ElementBitLanes : Prop :=
  ∀ (s : State) (w : EWord) (inst : Inst), s.issue.insts = [inst] → handleOperand inst = none →
    let code := w.rt.toNat
    let width := laneWidth code
    let o := elemOperands .ab width w inst.a.value inst.bval
    let x := elemOperands .ab 64 w inst.a.value inst.bval
    let y := elemOperands .abc 64 w inst.a.value inst.bval
    let u := elemOperands .a width w inst.a.value inst.bval
    let value := fun (i : Instr) (r : Word) => GivesValue i w s inst r
    let bits_ := fun (i : Instr) (f : Nat → Nat → Nat) => GivesLanes i w s inst width (fun k => f (laneOf width k o.1) (laneOf width k o.2.1) % 2 ^ width) 0
    let one := fun (i : Instr) (f : Nat → Nat) => GivesLanes i w s inst width (fun k => f (laneOf width k u.1) % 2 ^ width) 0
    let cmp := fun (i : Instr) (f : Int → Int → Bool) => GivesLanes i w s inst width (fun k =>
      if f (laneVal code k o.1) (laneVal code k o.2.1) then 2 ^ width - 1 else 0) 0
    value (.elemAnd w) (x.1 &&& x.2.1) ∧ value (.elemOr w) (x.1 ||| x.2.1) ∧ value (.elemXor w) (x.1 ^^^ x.2.1) ∧
    value (.sel w) ((y.1 &&& y.2.1) ||| (~~~y.1 &&& y.2.2)) ∧
    bits_ (.shl w) (fun a b => a * 2 ^ (b % width)) ∧ bits_ (.shr w) (fun a b => a / 2 ^ (b % width)) ∧
    bits_ (.sar w) (fun a b => (signed width a / 2 ^ (b % width) % 2 ^ width).toNat) ∧
    bits_ (.rot w) (fun a b => Nat.lor (a * 2 ^ (b % width) % 2 ^ width) (a / 2 ^ (width - b % width))) ∧
    one (.elemClz w) (fun a => if a = 0 then width else width - 1 - Nat.log2 a) ∧
    one (.elemPopc w) (fun a => ((List.range width).filter (fun j => a.testBit j)).length) ∧
    one (.fabs w) (fun a => a % 2 ^ (width - 1)) ∧ one (.fneg w) (fun a => Nat.xor a (2 ^ (width - 1))) ∧
    cmp (.cmpEq w) (fun a b => a == b) ∧ cmp (.cmpNe w) (fun a b => a != b) ∧ cmp (.cmpLt w) (fun a b => decide (a < b)) ∧
    cmp (.cmpLe w) (fun a b => decide (a ≤ b)) ∧ cmp (.cmpGt w) (fun a b => decide (a > b)) ∧ cmp (.cmpGe w) (fun a b => decide (a ≥ b))

/-- Lanes are moved as R55 and R57 to R59 say; CONST gives its immediate (R73). -/
def Sys2Proof.Says.ElementLaneMovement : Prop :=
  ∀ (s : State) (w : EWord) (inst : Inst), s.issue.insts = [inst] → handleOperand inst = none →
    let code := w.rt.toNat
    let width := laneWidth code
    let n := 64 / width
    let u := (elemOperands .a width w inst.a.value inst.bval).1
    let p := (elemOperands .ap width w inst.a.value inst.bval).1
    let y := elemOperands .abc width w inst.a.value inst.bval
    (width ≤ 32 → GivesLanes (.widenL w) w s inst (2 * width) (fun k => wrapInt (2 * width) (laneVal code k u)) 0 ∧
      GivesLanes (.widenH w) w s inst (2 * width) (fun k => wrapInt (2 * width) (laneVal code (n / 2 + k) u)) 0) ∧
    GivesLanes (.shuf w) w s inst width (fun k =>
      let sel := w.imm.toNat / 2 ^ (4 * k) % 16
      if sel = 15 then 0 else laneOf width sel p) 0 ∧
    GivesLanes (.bcast w) w s inst width (fun _ => laneOf width w.imm.toNat p) 0 ∧
    GivesValue (.extr w) w s inst (BitVec.ofInt 64 (laneVal code w.imm.toNat p)) ∧
    GivesLanes (.ins w) w s inst width (fun k => if k = y.2.2.toNat % 8 % n then laneOf width 0 y.2.1 else laneOf width k y.1) 0 ∧
    GivesValue (.const w) w s inst w.imm

/-- The floating instructions work lane by lane in ascending order, each lane's flags and draws following the one before (R60 to R67). -/
def Sys2Proof.Says.ElementFloatLanes : Prop :=
  ∀ (s : State) (w : EWord) (f : Fmt) (inst : Inst) (v : Elem), s.issue.insts = [inst] → handleOperand inst = none →
    s.elem? s.issue.x s.issue.e = some v →
    let keys := elemKeys s s.issue.x s.issue.e
    let lanes := fun (i : Instr) (width : Nat) (one : Nat → Nat → FRes) =>
      let r := lanesOf (64 / width) v.lfsr.toNat one
      Issues i s (wordOut w { inst.base with value := BitVec.ofNat 64 (joinLanes width r.1) }) r.2.1 (BitVec.ofNat 32 r.2.2)
    let ff := ffFmt f
    let gf := ffOf w.rt.toNat
    let arith := fun (i : Instr) (c : OpClass) (op : FOp) =>
      let o := elemOperands c ff.w w inst.a.value inst.bval
      lanes i ff.w (fun l k => fArith ff op w.rt.toNat keys (laneOf ff.w k o.1) (laneOf ff.w k o.2.1) (laneOf ff.w k o.2.2) l)
    let g := elemOperands .ab gf.w w inst.a.value inst.bval
    let pick := fun (i : Instr) (m : Bool) => lanes i gf.w (fun l k => { fMinMax gf m keys (laneOf gf.w k g.1) (laneOf gf.w k g.2.1) with lf := l })
    let cmp := fun (i : Instr) (cc : Nat) => lanes i gf.w (fun l k =>
      let r := fCompare gf cc keys (laneOf gf.w k g.1) (laneOf gf.w k g.2.1)
      ⟨if r.1 then 2 ^ gf.w - 1 else 0, r.2, l⟩)
    arith (.fadd f w) .ab .add ∧ arith (.fsub f w) .ab .sub ∧ arith (.fmul f w) .ab .mul ∧ arith (.ffma f w) .abc .fma ∧
    pick (.fmin w) false ∧ pick (.fmax w) true ∧
    cmp (.fcmpEq w) 0 ∧ cmp (.fcmpNe w) 1 ∧ cmp (.fcmpLt w) 2 ∧ cmp (.fcmpLe w) 3 ∧ cmp (.fcmpGt w) 4 ∧ cmp (.fcmpGe w) 5

/-- Conversions and the special functions work on each lane as given; the reductions combine the lanes in pairs, level by level, by the wrapped sum, the
maximum or minimum of the type, or FADD under RN, FMAX or FMIN (R68, R70, R72); none draws but a conversion. -/
def Sys2Proof.Says.ElementConversionsAndFunctions : Prop :=
  ∀ (s : State) (w : EWord) (inst : Inst) (v : Elem), s.issue.insts = [inst] → handleOperand inst = none →
    s.elem? s.issue.x s.issue.e = some v →
    let keys := elemKeys s s.issue.x s.issue.e
    let code := w.rt.toNat
    let lanes := fun (i : Instr) (width n : Nat) (one : Nat → Nat → FRes) =>
      let r := lanesOf n v.lfsr.toNat one
      Issues i s (wordOut w { inst.base with value := BitVec.ofNat 64 (joinLanes width r.1) }) r.2.1 (BitVec.ofNat 32 r.2.2)
    let dst := w.imm.toNat / 16 % 16
    let src := w.imm.toNat % 16
    let c := (elemOperands .ap 64 w inst.a.value inst.bval).1
    let gf := ffOf code
    let u := (elemOperands .a gf.w w inst.a.value inst.bval).1
    let z := (elemOperands .a (laneWidth code) w inst.a.value inst.bval).1
    let sfu := fun (i : Instr) (fn : Nat) => lanes i gf.w (64 / gf.w) (fun l k => { sfuLane gf fn keys (laneOf gf.w k u) with lf := l })
    let width := laneWidth code
    let int := fun (x : Nat) => laneVal code 0 (BitVec.ofNat 64 x)
    let fold := fun (i : Instr) (two : Int → Int → Int) (float : Nat → Nat → FRes) =>
      let pair := fun (x y : Nat × Nat) => if code < 8 then (wrapInt width (two (int x.1) (int y.1)), 0)
        else ((float x.1 y.1).v, Nat.lor (Nat.lor x.2 y.2) (float x.1 y.1).fl)
      let level0 := fun (k : Nat) => (laneOf width k z, 0)
      let level1 := fun (k : Nat) => pair (level0 (2 * k)) (level0 (2 * k + 1))
      let level2 := fun (k : Nat) => pair (level1 (2 * k)) (level1 (2 * k + 1))
      let r := if width = 64 then level0 0 else if width = 32 then level1 0 else if width = 16 then level2 0 else pair (level2 0) (level2 1)
      code ≤ 10 → Issues i s (wordOut w { inst.base with value := BitVec.ofNat 64 r.1 }) r.2 v.lfsr
    lanes (.cvt w) (laneWidth dst) (min (64 / laneWidth src) (64 / laneWidth dst)) (fun l k => cvtLane code keys dst src (laneOf (laneWidth src) k c) l) ∧
    sfu (.rcp w) 0 ∧ sfu (.rsq w) 1 ∧ sfu (.sqrt w) 2 ∧ sfu (.exp2 w) 3 ∧ sfu (.log2 w) 4 ∧ sfu (.tanh w) 5 ∧ sfu (.sigm w) 6 ∧ sfu (.erf w) 7 ∧
    fold (.rsum w) (fun x y => x + y) (fun x y => fArith gf .add 0 keys x y 0 0) ∧ fold (.rmax w) (fun x y => max x y) (fMinMax gf true keys) ∧
    fold (.rmin w) (fun x y => min x y) (fMinMax gf false keys)

/-- FADD, FSUB, FMUL and FFMA give the exact result of their operands rounded once, zero with the sign of IEEE 754, an infinity, or the canonical NaN
with NV where the operation is invalid (R60 to R63, R238 to R240). -/
def Sys2Proof.Says.ArithmeticRoundsOnce : Prop :=
  ∀ (fm : Fmt) (op : FOp) (rm a b c lf : Nat) (k : Keys), rm ≤ 4 → let f := ffFmt fm
    let va := f.val (f.flushIn k.fsi a)
    let vb := f.val (f.flushIn k.fsi b)
    let vc := f.val (f.flushIn k.fsi c)
    let sign := fun (v : FVal) => match v with | .fin n _ _ => n | .inf n => n | .nan _ => false
    let ovf := fun (neg : Bool) =>
      if rm = 0 ∨ (rm = 2 ∧ neg = false) ∨ (rm = 3 ∧ neg = true) then f.inf.getD 0 else f.max
    let gives := fun (x : ℚ) (zero : Bool) => let res := fArith f op rm k a b c lf
      if x = 0 then res = ⟨f.sign zero 0, 0, lf⟩ else RoundsTo f rm k.fso (ovf (decide (x < 0))) x lf res
    let sum := fun (n1 n2 : Bool) (x y : ℚ) => if x = 0 ∧ y = 0 ∧ n1 = n2 then n1 else decide (rm = 3)
    let x := FVal.number va
    let y := FVal.number vb
    let z := FVal.number vc
    (FVal.finite va = true → FVal.finite vb = true →
      (op = .add → gives (x + y) (sum (sign va) (sign vb) x y)) ∧
      (op = .sub → gives (x - y) (sum (sign va) (!sign vb) x y)) ∧
      (op = .mul → gives (x * y) (sign va != sign vb)) ∧
      (op = .fma → FVal.finite vc = true → gives (x * y + z) (sum (sign va != sign vb) (sign vc) (x * y) z))) ∧
    (va.isInf = true → let n := sign va
      let inf := fun (n : Bool) => fArith f op rm k a b c lf = ⟨f.sign n (f.inf.getD 0), 0, lf⟩
      let invalid := fArith f op rm k a b c lf = ⟨f.nan.getD 0, fNV, lf⟩
      (op = .add → (FVal.finite vb = true ∨ vb = va → inf n) ∧ (vb = va.neg → invalid)) ∧
      (op = .sub → (FVal.finite vb = true ∨ vb = va.neg → inf n) ∧ (vb = va → invalid)) ∧
      (op = .mul → (vb.isNan = false → vb.isZero = false → inf (n != sign vb)) ∧ (vb.isZero = true → invalid)) ∧
      (op = .fma → vb.isNan = false → vb.isZero = false → let p := FVal.inf (n != sign vb)
        (FVal.finite vc = true ∨ vc = p → inf (n != sign vb)) ∧ (vc = p.neg → invalid)))

/-- FCMP compares the numbers, an infinity beyond all of them; with a NaN only NE holds, and NV is raised by the orderings and by a signalling NaN
(R67). -/
def Sys2Proof.Says.ComparisonsOrderNumbers : Prop :=
  ∀ (g cc a b : Nat) (k : Keys), g ∈ [8, 9, 10] → cc < 6 → let f := ffOf g
    let va := f.val (f.flushIn k.fsi a)
    let vb := f.val (f.flushIn k.fsi b)
    let x := FVal.number va
    let y := FVal.number vb
    let is := fun (eq lt gt : Bool) => fCompare f cc k a b =
      (nth [eq, !eq, lt, lt || eq, gt, gt || eq] cc false, 0)
    (FVal.finite va = true → FVal.finite vb = true → is (decide (x = y)) (decide (x < y)) (decide (y < x))) ∧
    (∀ n, va = .inf n → FVal.finite vb = true → is false n (!n)) ∧ (∀ n, FVal.finite va = true → vb = .inf n → is false (!n) n) ∧
    (∀ m n, va = .inf m → vb = .inf n → is (m == n) (m && !n) (!m && n)) ∧
    (va.isNan = true ∨ vb.isNan = true → fCompare f cc k a b =
      (decide (cc = 1), if cc < 2 ∧ va.isSnan = false ∧ vb.isSnan = false then 0 else fNV))

/-- One lane of CVT (R68): an integer to an integer, exactly, or saturated or cut to its low bits; a number to a floating type, rounded once; a floating
value to an integer, rounded to an integer and saturated; a value to ternary, rounded to an integer and clamped. -/
def Sys2Proof.Says.ConversionsRoundOnce : Prop :=
  ∀ (rm dst src v lf : Nat) (k : Keys), rm ≤ 4 → v < 2 ^ laneWidth src →
    let r := cvtLane rm k dst src v lf
    let i : Int := laneVal src 0 (BitVec.ofNat 64 v)
    let vs := (ffOf src).val ((ffOf src).flushIn k.fsi v)
    let clip := max (intMin dst) (min (intMax dst) i)
    let float := 8 ≤ src ∧ src ≤ 13
    let number := fun (x : ℚ) => (src < 8 ∧ x = i) ∨ (float ∧ FVal.finite vs = true ∧ x = FVal.number vs)
    let g := ffOf dst
    let canon := fun (p : Nat) => if dst = 13 ∧ p = 8 then 0 else if dst = 11 ∧ p = 0xFF then 0x7F else p
    (src < 8 → dst < 8 →
      r = if clip = i then ⟨wrapInt (laneWidth dst) i, 0, lf⟩ else if k.nsat then ⟨wrapInt (laneWidth dst) clip, fSAT, lf⟩ else ⟨wrapInt (laneWidth dst) i, 0, lf⟩) ∧
    (8 ≤ dst → dst ≤ 13 → (∀ x, number x → x ≠ 0 → ∃ res, r = { res with v := canon res.v } ∧
        RoundsTo g rm (k.fso && dst != 13) (if k.nsat || dst == 13 then g.max else if dst = 11 then 0x7F else g.inf.getD 0) x lf res) ∧
      (src < 8 → i = 0 → r = ⟨0, 0, lf⟩) ∧
      (float → vs.isZero = true → r = ⟨if dst = 13 then 0 else g.sign (bit v (laneWidth src - 1)) 0, 0, lf⟩) ∧
      (float → vs.isNan = true → r = if dst = 13 then ⟨0, fNV, lf⟩ else ⟨g.nan.getD 0, if vs.isSnan then fNV else 0, lf⟩) ∧
      (∀ n, float → vs = .inf n → r = ⟨canon (g.sign n (if dst = 13 ∨ (dst = 11 ∧ k.nsat = true) then g.max else if dst = 11 then 0x7F else g.inf.getD 0)),
        0, lf⟩)) ∧
    (dst < 8 → float →
      (vs.isNan = true → r = ⟨0, fNV, lf⟩) ∧ (∀ n, vs = .inf n → r = ⟨wrapInt (laneWidth dst) (if n then intMin dst else intMax dst), fNV, lf⟩) ∧
      (FVal.finite vs = true → ∃ j : Int, Rounded 512 0 rm lf (FVal.number vs) j r.lf ∧ let c := max (intMin dst) (min (intMax dst) j)
        r.v = wrapInt (laneWidth dst) c ∧ r.fl = if c ≠ j then fNV else if (j : ℚ) ≠ FVal.number vs then fNX else 0)) ∧
    (dst = 14 → (float → vs.isNan = true → r = ⟨0, fNV, lf⟩) ∧ (∀ n, float → vs = .inf n → r = ⟨if n then 3 else 1, fSAT, lf⟩) ∧
      ∀ x, number x → ∃ j : Int, Rounded 512 0 rm lf x j r.lf ∧
        r.v = (if 0 < j then 1 else if j < 0 then 3 else 0) ∧ r.fl = if j < -1 ∨ 1 < j then fSAT else 0) ∧
    (src = 14 → let fl := if v = 2 then fTERNBAD else 0
      (dst < 8 → v ≠ 3 ∨ intMin dst < 0 → r = ⟨if v = 1 then 1 else if v = 3 then 2 ^ laneWidth dst - 1 else 0, fl, lf⟩) ∧
      (8 ≤ dst → dst ≤ 13 → FVal.number (g.val r.v) = (if v = 1 then 1 else if v = 3 then -1 else 0) ∧ FVal.finite (g.val r.v) = true ∧
        r.v < 2 ^ g.w ∧ r.fl = fl ∧ r.lf = lf) ∧
      (dst = 14 → r = ⟨if v = 2 then 0 else v, fl, lf⟩))

/-- The floating sums of memory round once, to nearest, with no key set (R137, R237). -/
def Sys2Proof.Says.MemorySumsRoundOnce : Prop :=
  ∀ (old b c : Nat), let one := fun (f : FFmt) (aop n : Nat) =>
    let va := f.val old
    let vb := f.val b
    let x := FVal.number va + FVal.number vb
    (FVal.finite va = true → FVal.finite vb = true → x ≠ 0 → ∃ fl, RoundsTo f 0 false (f.inf.getD 0) x 0 ⟨aopApply aop n old b c, fl, 0⟩) ∧
    (FVal.finite va = true → FVal.finite vb = true → x = 0 →
      aopApply aop n old b c = f.sign (va.isZero && bit old (f.w - 1) && bit b (f.w - 1)) 0) ∧
    (va.isNan = true ∨ vb.isNan = true → aopApply aop n old b c = f.nan.getD 0) ∧
    (va.isInf = true → FVal.finite vb = true ∨ vb = va → aopApply aop n old b c = f.sign (bit old (f.w - 1)) (f.inf.getD 0)) ∧
    (va.isInf = true → vb = va.neg → aopApply aop n old b c = f.nan.getD 0)
  one ffF32 11 4 ∧ one ffBF16 12 2

/-- A lane that combines a NaN, whichever operand it is, gives the canonical NaN of its format, in every rounding mode and under every policy, with NV
where one signals or 0 × infinity stands beside it (R60, R63); FMIN and FMAX give the other operand where exactly one is a NaN (R65), a subnormal flushed where
its key says so (R62: log 42). -/
def Sys2Proof.Says.NansAreCanonical : Prop :=
  ∀ (f : Fmt) (op : FOp) (rm a b c lf : Nat) (k : Keys) (m : Bool), let ff := ffFmt f
    let va := ff.val (ff.flushIn k.fsi a)
    let vb := ff.val (ff.flushIn k.fsi b)
    let vc := ff.val (ff.flushIn k.fsi c)
    let nan := va.isNan = true ∨ vb.isNan = true ∨ (op = .fma ∧ vc.isNan = true)
    let snan := va.isSnan = true ∨ vb.isSnan = true ∨ (op = .fma ∧ vc.isSnan = true)
    let beside := (va.isInf = true ∧ vb.isZero = true) ∨ (va.isZero = true ∧ vb.isInf = true)
    let other := fun (x : Nat) => let y := ff.flushIn k.fsi x
      if k.fso && ff.subnormal y then ff.sign (bit y (ff.w - 1)) 0 else y
    (nan → (snan ∨ (op = .fma ∧ beside) → fArith ff op rm k a b c lf = ⟨ff.nan.getD 0, fNV, lf⟩) ∧
      (¬ (snan ∨ (op = .fma ∧ beside)) → fArith ff op rm k a b c lf = ⟨ff.nan.getD 0, 0, lf⟩)) ∧
    (va.isNan = true → vb.isNan = true → (fMinMax ff m k a b).v = ff.nan.getD 0) ∧
    (va.isNan = true → vb.isNan = false → (fMinMax ff m k a b).v = other b) ∧
    (va.isNan = false → vb.isNan = true → (fMinMax ff m k a b).v = other a) ∧
    (va.isSnan = true ∨ vb.isSnan = true → bit (fMinMax ff m k a b).fl 0 = true)

/-- FMIN and FMAX of two operands that are no NaN give the lesser and the greater, minus zero below plus zero and an infinity beyond all numbers, with no
flag but that of a result that is flushed (R62, R65: log 42). -/
def Sys2Proof.Says.MinimumAndMaximum : Prop :=
  ∀ (f : Fmt) (a b : Nat) (k : Keys), let ff := ffFmt f
    let va := ff.val (ff.flushIn k.fsi a)
    let vb := ff.val (ff.flushIn k.fsi b)
    let sign := fun (v : FVal) => match v with | .fin n _ _ => n | .inf n => n | .nan _ => false
    let is := fun (m : Bool) (x : Nat) => let y := ff.flushIn k.fsi x
      fMinMax ff m k a b = if k.fso && ff.subnormal y then ⟨ff.sign (bit y (ff.w - 1)) 0, fUF + fNX, 0⟩ else ⟨y, 0, 0⟩
    let ordered := fun (least greatest : Nat) => is false least ∧ is true greatest
    let zeros := va.isZero = true ∧ vb.isZero = true
    (FVal.finite va = true → FVal.finite vb = true →
      (FVal.number va < FVal.number vb → ordered a b) ∧ (FVal.number vb < FVal.number va → ordered b a) ∧
      (zeros → sign va = true → sign vb = false → ordered a b) ∧ (zeros → sign va = false → sign vb = true → ordered b a)) ∧
    (va.isNan = false → vb.isNan = false → va ≠ vb → (va = .inf true ∨ vb = .inf false → ordered a b) ∧ (va = .inf false ∨ vb = .inf true → ordered b a)) ∧
    (va.isNan = false → va = vb → ∀ m, is m a ∨ is m b)

/-- The special functions within R70's bounds and with the flags of R71's rows of overflow and tiny results: RCP in every format, with a result beyond the
range, a normal one and a tiny one; RSQ and SQRT of F32; EXP2 of integers, of what overflows and of what vanishes; LOG2 of powers of two.  (The other
results are what the model delivers within R70's bounds, log 8.) -/
def Sys2Proof.Says.SpecialFunctionBounds : Prop :=
  ∀ (g a : Nat) (k : Keys) (e : Int), g ∈ [8, 9, 10] → let f := ffOf g
    let v := f.val (f.flushIn k.fsi a)
    let x := FVal.number v
    let res := fun (fn : Nat) => sfuLane f fn k a
    let value := fun (fn : Nat) => FVal.number (f.val (res fn).v)
    let gives := fun (fn : Nat) (y : ℚ) (fl : Nat) => value fn = y ∧ FVal.finite (f.val (res fn).v) = true ∧ (res fn).fl = fl
    let normal : ℚ := 2 ^ (f.qmin + f.m)
    let power := ∃ n : Nat, n < 300 ∧ |x| = (2 : ℚ) ^ ((n : Int) - 150)
    FVal.finite v = true →
    (x ≠ 0 → let y := x⁻¹
      ((2 : ℚ) ^ (f.bias + 1) ≤ |y| → res 0 = ⟨f.sign (decide (x < 0)) (f.inf.getD 0), fOF, 0⟩) ∧
      (normal ≤ |y| → |y| < (2 : ℚ) ^ f.bias → (2 : ℚ) ^ e ≤ |y| → |y| < (2 : ℚ) ^ (e + 1) →
        FVal.finite (f.val (res 0).v) = true ∧ (res 0).fl = 0 ∧ |value 0 - y| ≤ (2 : ℚ) ^ (e - f.m) ∧ (power → value 0 = y)) ∧
      (|y| < normal → ¬power → (res 0).fl = fUF ∧ (k.fso = false → |value 0 - y| ≤ (2 : ℚ) ^ f.qmin ∧ bit (res 0).v (f.w - 1) = decide (x < 0))) ∧
      (|y| < normal → k.fso = true → f.subnormal (res 0).v = false)) ∧
    (0 < x → g = 10 → (2 : ℚ) ^ (2 * e) ≤ x → x < (2 : ℚ) ^ (2 * e + 2) → let u : ℚ := 2 ^ (e - 23)
      FVal.finite (f.val (res 2).v) = true ∧ (res 2).fl = 0 ∧ (value 2 - u / 2) ^ 2 ≤ x ∧ x ≤ (value 2 + u / 2) ^ 2) ∧
    (0 < x → g = 10 → (2 : ℚ) ^ (2 * e) ≤ x⁻¹ → x⁻¹ < (2 : ℚ) ^ (2 * e + 2) → let u : ℚ := 2 ^ (e - 23)
      FVal.finite (f.val (res 1).v) = true ∧ (res 1).fl = 0 ∧ (value 1 - u) ^ 2 ≤ x⁻¹ ∧ x⁻¹ ≤ (value 1 + u) ^ 2) ∧
    (x = e → normal ≤ (2 : ℚ) ^ e → e ≤ f.bias → gives 3 ((2 : ℚ) ^ e) 0) ∧
    ((f.bias : ℚ) + 2 ≤ x ∨ x = f.bias + 1 → res 3 = ⟨f.inf.getD 0, fOF, 0⟩) ∧
    (x ≤ f.qmin - 2 → res 3 = ⟨0, fUF, 0⟩) ∧
    (x = (2 : ℚ) ^ e → gives 4 e 0)

/-- The special functions at every operand for which R71 fixes the result, in each format: NaNs, zeros, infinities and negative operands. -/
def Sys2Proof.Says.SpecialFunctionValues : Prop :=
  ∀ (g x : Nat) (k : Keys), g ∈ [8, 9, 10] → let f := ffOf g
    let v := f.val (f.flushIn k.fsi x)
    let gives := fun (fn r fl : Nat) => sfuLane f fn k x = ⟨r, fl, 0⟩
    let inf := f.inf.getD 0
    let nan := f.nan.getD 0
    let one := f.bias * 2 ^ f.m
    (∀ fn sig, fn < 8 → v = .nan sig → gives fn nan (if sig then fNV else 0)) ∧
    (∀ n e, v = .fin n 0 e → gives 0 (f.sign n inf) fDZ ∧ gives 1 (f.sign n inf) fDZ ∧ gives 2 (f.sign n 0) 0 ∧ gives 4 (f.sign true inf) fDZ) ∧
    (v = .inf false → gives 0 0 0 ∧ gives 1 0 0 ∧ gives 2 inf 0 ∧ gives 3 inf 0 ∧ gives 4 inf 0 ∧ gives 5 one 0 ∧ gives 6 one 0 ∧ gives 7 one 0) ∧
    (v = .inf true → gives 0 (f.sign true 0) 0 ∧ gives 1 nan fNV ∧ gives 2 nan fNV ∧ gives 3 0 0 ∧ gives 4 nan fNV ∧ gives 5 (f.sign true one) 0 ∧
      gives 6 0 0 ∧ gives 7 (f.sign true one) 0) ∧
    (∀ m e, v = .fin true m e → m ≠ 0 → gives 1 nan fNV ∧ gives 2 nan fNV ∧ gives 4 nan fNV)

/-- The tag and flow instructions (R73 to R76): they accept tile handles, their results have the KIND of operand A, and each changes the field or
chooses the destination that its rule gives. -/
def Sys2Proof.Says.TagAndFlowInstructions : Prop :=
  ∀ (s : State) (w : EWord) (inst : Inst) (v : Elem), s.issue.insts = [inst] → s.elem? s.issue.x s.issue.e = some v →
    let sends := fun (i : Instr) (toks : List Token) => Issues i s toks 0 v.lfsr
    let tok := fun (x : Word) => { inst.base with value := x, kind := kindOfA w inst }
    let p : Token := tok (elemOperands .ap 64 w inst.a.value inst.bval).1
    let u : Token := tok (elemOperands .a 64 w inst.a.value inst.bval).1
    let o := elemOperands .ab 64 w inst.a.value inst.bval
    let t : Token := tok o.1
    let b := o.2.1
    let next : Nat := p.iter.toNat + w.imm.toNat % 2 ^ 10
    let limit : Nat := w.imm.toNat / 2 ^ 10 % 2 ^ 10
    sends (.tagi w) (wordOut w { p with iter := BitVec.ofNat 10 (p.value.toNat / 2 ^ (w.imm.toNat % 64)) }) ∧
    sends (.tagf w) (wordOut w { t with frame := BitVec.ofNat 11 b.toNat }) ∧
    sends (.tagr w) (wordOut w { t with route := BitVec.ofNat 3 b.toNat }) ∧
    sends (.tinc w) (if decide (next < limit) then wordOut1 w { p with iter := BitVec.ofNat 10 next }
      else wordOut2 w { p with iter := BitVec.ofNat 10 (next - limit) }) ∧
    sends (.tget w) (wordOut w { u with value := BitVec.ofNat 64 u.tag }) ∧
    sends (.steer w) (if b = 0 then wordOut2 w t else wordOut1 w t) ∧
    sends (.gate w) (if b = 0 then [] else wordOut w t) ∧
    sends (.sink w) []

/-- An operand that is a tile handle makes each of the instructions that compute with values trap ILLOP with its token, and nothing executes (R39). -/
def Sys2Proof.Says.HandlesAreRefused : Prop :=
  ∀ (s : State) (w : EWord) (inst : Inst) (t : Token) (v : Elem), s.issue.insts = [inst] → handleOperand inst = some t →
    s.elem? s.issue.x s.issue.e = some v →
    let traps := fun (i : Instr) => exec i s = .next (flushOut s.issue.x s.issue.e (fabricTrap s.issue.x s.issue.e inst.slot inst.a.tag cILLOP 0 [t]
      (s.setElem s.issue.x s.issue.e { v with ready := inst :: v.ready })))
    (∀ i ∈ [Instr.elemAdd w, .elemSub w, .elemMul w, .elemMulh w, .neg w, .abs w, .elemMin w, .elemMax w, .avg w, .clamp w, .adds w, .subs w, .narrow w,
      .elemAnd w, .elemOr w, .elemXor w, .sel w, .shl w, .shr w, .sar w, .rot w, .elemClz w, .elemPopc w, .fabs w, .fneg w, .cmpEq w, .cmpNe w, .cmpLt w,
      .cmpLe w, .cmpGt w, .cmpGe w, .widenL w, .widenH w, .shuf w, .bcast w, .extr w, .ins w, .const w, .fmin w, .fmax w, .fcmpEq w, .fcmpNe w,
      .fcmpLt w, .fcmpLe w, .fcmpGt w, .fcmpGe w, .cvt w, .rcp w, .rsq w, .sqrt w, .exp2 w, .log2 w, .tanh w, .sigm w, .erf w, .rsum w, .rmax w, .rmin w],
      traps i) ∧
    ∀ f : Fmt, traps (.fadd f w) ∧ traps (.fsub f w) ∧ traps (.fmul f w) ∧ traps (.ffma f w)

/-- The tile instructions on a legal register (R85 to R89): what each leaves in the element and which token follows. -/
def Sys2Proof.Says.TileInstructions : Prop :=
  ∀ (s : State) (w : EWord) (inst : Inst) (v : Elem) (j : Nat), s.issue.insts = [inst] → s.elem? s.issue.x s.issue.e = some v →
    let e := s.issue.e
    let m := w.imm.toNat
    let k := m % 8
    let src := m / 16 % 8
    let n := inst.a.value.toNat
    let grown := (List.range (m % 16 - v.allot)).foldl (fun t i => Table.set (v.allot + i) ⟨7, 512, 1, []⟩ t) v.tiles
    let shrunk := v.tiles.filter (fun t => decide (t.1 < m % 16) || decide (8 ≤ t.1))
    let data := fun (x : Nat) => wordOut w { inst.base with value := BitVec.ofNat 64 x }
    let handle := fun (x : Word) => wordOut w { inst.base with value := x, kind := kTile }
    (handleOperand inst = none →
      (v.allot ≤ m % 16 → LeavesElem (.talloc w) s { v with allot := m % 16, tiles := grown } (data (m % 16))) ∧
      (m % 16 ≤ v.allot → LeavesElem (.tshrink w) s { v with allot := m % 16, tiles := shrunk } (data (m % 16))) ∧
      (k < v.allot →
        (let t : Tile := { v.tile k with type := w.rt.toNat, rows := m / 2 ^ 8 % 2 ^ 10, cols := m / 2 ^ 18 % 2 ^ 10 };
          LeavesElem (.tcfg w) s (v.setTile k t) (handle (tileHandle e k t))) ∧
        LeavesElem (.tzero w) s (v.setTile k { v.tile k with bytes := [] }) (handle (tileHandle e k { v.tile k with bytes := [] })) ∧
        (src < v.allot → LeavesElem (.tmov w) s (v.setTile k (v.tile src)) (handle (tileHandle e k (v.tile src)))) ∧
        (n ≤ 511 → LeavesElem (.text w) s v (data (leNat ((List.range 8).map (fun i => (v.tile k).byte (8 * n + i)))))) ∧
        (n ≤ 511 → let t := (v.tile k).put (8 * n) (leBytes 8 inst.bval.toNat);
          LeavesElem (.tins w) s (v.setTile k t)
            (if n = (t.rows * t.cols * laneWidth t.type + 63) / 64 - 1 then handle (tileHandle e k t) else []))) ∧
      LeavesElem (.afmt w) s { v with afmt := w.rt.toNat } (data w.rt.toNat)) ∧
    (inst.b = none → validHandle e v inst.a = some j → LeavesElem (.wlatch w) s { v with
      wfmt := w.rt.toNat, esc := bit m 0, xval := BitVec.ofNat 16 (m / 2 ^ 16), slice := (List.range 2752).map (v.tile j).byte } (handle inst.a.value))

/-- A tile register at or above the allotment traps ILLTILE, and so does a shrink above it (R85). -/
def Sys2Proof.Says.TileRegistersAreChecked : Prop :=
  ∀ (s : State) (w : EWord) (inst : Inst) (v : Elem), s.issue.insts = [inst] → s.elem? s.issue.x s.issue.e = some v → handleOperand inst = none →
    let traps := fun (i : Instr) => exec i s = .next (fabricTrap s.issue.x s.issue.e s.issue.slot inst.a.tag cILLTILE 0 [inst.a]
      (s.setElem s.issue.x s.issue.e { v with ready := inst :: v.ready }))
    (v.allot ≤ w.imm.toNat % 8 → traps (.tcfg w) ∧ traps (.tzero w) ∧ traps (.tmov w) ∧ traps (.text w) ∧ traps (.tins w)) ∧
    (w.imm.toNat % 16 < v.allot → traps (.talloc w)) ∧ (v.allot < w.imm.toNat % 16 → traps (.tshrink w))

/-- ACFG configures an empty node, and each MMA of one legal contribution adds it to its node and counts it: the node is released once it is full, and
its handles and the tokens of its rows and of its done destination follow.  An MMG of a member executes so too, and one of an origin without participants; with participants the origin, once its results find room (R202), takes
up its operand tiles and owes them a copy (R44, R90 to R98). -/
def Sys2Proof.Says.MatrixInstructions : Prop :=
  ∀ (s : State) (w : EWord) (inst : Inst) (v : Elem) (nd : Node) (ka : Nat) (kb : Option Nat), s.issue.insts = [inst] →
    s.elem? s.issue.x s.issue.e = some v →
    let m := w.imm.toNat
    let j := m % 4
    let keys := elemKeys s s.issue.x s.issue.e
    let release := fun (n : Node) (base : Token) =>
      let tagged := fun (t : Token) => match n.topc.toNat with
        | 1 => { t with iter := t.iter + BitVec.ofNat 10 n.targ.toNat }
        | 2 => { t with iter := BitVec.ofNat 10 n.targ.toNat }
        | 3 => { t with frame := n.targ }
        | 4 => { t with frame := t.frame + n.targ }
        | _ => t
      let toward := fun (d : BitVec 16) (t : Token) => { t with
        route := t.route ^^^ BitVec.ofNat 3 (dstRoute d), soff := BitVec.ofNat 2 (dstSoff d), target := BitVec.ofNat 5 (dstTarget d)
        slot := BitVec.ofNat 4 (dstSlot d), port := BitVec.ofNat 1 (dstPort d), hops := 0 }
      let at_ := fun (r : Nat) (x : Nat) => { base with iter := BitVec.ofNat 10 r, value := BitVec.ofNat 64 x }
      (List.range (10 * n.rows)).map (fun i =>
          let t := at_ (i / 10) (n.at (i / 10) (2 * (i % 10)) + 2 ^ 32 * n.at (i / 10) (2 * (i % 10) + 1))
          toward n.releaseDst (if n.tsel then t else tagged t))
        ++ if dstValid n.doneDst then [toward n.doneDst (tagged (at_ n.rows (10 * n.rows)))] else []
    (handleOperand inst = none → (∀ x, Table.find j v.nodes = some x → x.count = 0) →
      let fresh : Node := { int := bit m 2, rows := m / 2 ^ 8 % 2 ^ 9, brows := m / 2 ^ 17 % 2 ^ 9, kblk := m / 2 ^ 32 % 2 ^ 11, acc := [], next := [], count := 0, releaseDst := w.dst1, doneDst := w.dst2, topc := w.topc, targ := w.targ, tsel := w.tsel }
      LeavesElem (.acfg w) s { v with nodes := Table.set j fresh v.nodes } []) ∧
    (let mma := fun (i : Instr) (kind : Nat) (v : Elem) => mmaCheck kind w s.issue.e v inst = .ok (nd, ka, kb) →
        let c : Node × Nat × Nat := contribute kind w.rt.toNat keys v nd (v.tile ka) (kb.map v.tile) inst.a.iter.toNat
        let full := nd.count + 1 == nd.total
        let own := wordOut1 w { inst.base with value := inst.a.value, kind := kTile }
          ++ (match inst.b with | some t => wordOut2 w { inst.base with value := t.value, kind := kTile } | none => [])
        c.1.count = nd.count + 1 ∧ LeavesElem i s { v with
          nodes := Table.set j (if full then { c.1 with acc := [], next := [], count := 0 } else c.1) v.nodes
          status := v.status.raise c.2.1, lfsr := BitVec.ofNat 32 c.2.2 }
          (own ++ (if full then release c.1 inst.base else []));
      mma (.mmaT2 w) 0 v ∧ mma (.mmaF4 w) 1 v ∧ mma (.mmaF8 w) 2 v ∧ mma (.mmaBf16 w) 3 v ∧
      (let p := mmgOf w
        let others := mmgOthers s.issue.e p
        (p.member = true → mma (.mmg w) p.wkind { v with mmgSent := Table.erase inst.slot v.mmgSent }) ∧
        (p.member = false → others = [] → mma (.mmg w) p.wkind v) ∧
        (p.member = false → others ≠ [] → mmaCheck p.wkind w s.issue.e v inst = .ok (nd, ka, kb) →
          crowdedOut s.issue.x (fabricUnit s.issue.x s.issue.e) (mmaRun p.wkind w keys v nd (v.tile ka) (kb.map v.tile) inst).2 s = [] →
          let u := v.setTile 16 (v.tile ka)
          LeavesElem (.mmg w) s { (match kb with | some b => u.setTile 17 (v.tile b) | none => u) with
            mmgOwed := others.map (fun o => (o.1, o.2, inst.a, inst.b)) } [])))

/-- The ternary path is exact: a contribution adds to each position of its band in its node the sum of products of activations and weights, clipped to
32 bits, and every other position stays; SAT is raised exactly where a sum was clipped, TERNBAD where a weight of the slice is the code 0b10, and no
draw is made (R94 to R96). -/
def Sys2Proof.Says.TernarySumsAreExact : Prop :=
  ∀ (keys : Keys) (v : Elem) (nd : Node) (a : Tile) (b : Option Tile) (rm ci : Nat), v.wfmt = 14 → v.afmt = 0 → b = none → 0 < nd.kblk →
    let band := ci / nd.kblk
    let row0 := band * nd.brows
    let m := min nd.brows (nd.rows - row0)
    let weight := fun (p : Nat) => match sliceCode v.slice 2 p with | 1 => (1 : Int) | 3 => -1 | _ => 0
    let sum := fun (r n : Nat) => ((List.range 64).map (fun k => signed 8 (a.elem r k) * weight (20 * k + n))).sum
    let clip := fun (x : Int) => max (-2 ^ 31) (min (2 ^ 31 - 1) x)
    let wide := fun (r n : Nat) => signed 32 (nd.at (row0 + r) n) + sum r n
    let c : Node × Nat × Nat := contribute 0 rm keys v nd a b ci
    (∀ r n, r < m → n < 20 → signed 32 (c.1.at (row0 + r) n) = clip (wide r n)) ∧
    (∀ r n, n < 20 → (∀ i, i < m → r ≠ row0 + i) → c.1.at r n = nd.at r n) ∧
    (bit c.2.1 5 = true ↔ ∃ r n, r < m ∧ n < 20 ∧ clip (wide r n) ≠ wide r n) ∧
    (bit c.2.1 6 = true ↔ 0 < m ∧ ∃ p, p < 1280 ∧ sliceCode v.slice 2 p = 2) ∧
    c.2.2 = v.lfsr.toNat ∧ Table.find band c.1.next = some (ci % nd.kblk + 1) ∧
    (∀ i, i ≠ band → Table.find i c.1.next = Table.find i nd.next) ∧ c.1.count = nd.count + 1

/-- The scaled path forms each sum exactly, a NaN or a scale of 255 apart, and adds it to its position with one rounding of binary32: a sum below 2^-126
counts as zero and raises SCUNF, a result above the largest finite value is that value or an infinity by the policy; every other position stays
(R94 to R96). -/
def Sys2Proof.Says.MatrixSumsRoundOnce : Prop :=
  ∀ (k : Keys) (v : Elem) (nd : Node) (a : Tile) (b : Option Tile) (kind rm ci : Nat), kind ≠ 0 → v.wfmt ≠ 14 → v.afmt ≠ 0 → 0 < nd.kblk →
    let row0 := ci / nd.kblk * nd.brows
    let m := min nd.brows (nd.rows - row0)
    let num := fun (f : FFmt) (code : Nat) => f.val (f.flushIn k.fsi code)
    let act := fun (r i : Nat) => num (ffOf v.afmt) (a.elem r i)
    let entry := fun (p : Nat) => (List.range 32).find? (fun j => leNat ((v.slice.drop (2624 + 4 * j)).take 2) % 2048 == p)
    let code := fun (p : Nat) => sliceCode v.slice (ffOf v.wfmt).w p
    let weight := fun (p : Nat) => if v.wfmt = 13 ∧ code p = 8 then
        (if v.esc then num ffBF16 v.xval.toNat else match entry p with
          | some j => num ffBF16 (leNat ((v.slice.drop (2626 + 4 * j)).take 2))
          | none => .fin false 0 0)
      else num (ffOf v.wfmt) (code p)
    let sa := fun (r h : Nat) => match b with | some t => (t.byte (2 * r + h)).toNat | none => 127
    let sw := fun (h n : Nat) => match b with | some _ => (nth v.slice (2560 + 20 * h + n) 0).toNat | none => 127
    let bad := fun (r n i : Nat) => (act r i).isNan = true ∨ (weight (20 * i + n)).isNan = true ∨ sa r (i / 32) = 255 ∨ sw (i / 32) n = 255
    let good := fun (r n : Nat) => (∀ i, i < 64 → FVal.finite (act r i) = true ∧ FVal.finite (weight (20 * i + n)) = true ∧
      sa r (i / 32) ≠ 255 ∧ sw (i / 32) n ≠ 255) ∧ FVal.finite (ffF32.val (nd.at (row0 + r) n)) = true
    let sum := fun (r n : Nat) => ((List.range 64).map (fun i =>
      FVal.number (act r i) * FVal.number (weight (20 * i + n)) * (2 : ℚ) ^ ((sa r (i / 32) + sw (i / 32) n : Nat) - 254 : Int))).sum
    let small := fun (r n : Nat) => sum r n ≠ 0 ∧ |sum r n| < (2 : ℚ) ^ (-126 : Int)
    let c : Node × Nat × Nat := contribute kind rm k v nd a b ci
    (∀ r n, rm ≤ 3 → r < m → n < 20 → good r n →
      let x := FVal.number (ffF32.val (nd.at (row0 + r) n)) + if |sum r n| < (2 : ℚ) ^ (-126 : Int) then 0 else sum r n
      let y := c.1.at (row0 + r) n
      (x = 0 → y = if rm = 3 then 2 ^ 31 else 0) ∧
      (x ≠ 0 → ∃ q, Rounded 24 (-149) rm 0 x q 0 ∧
        if FVal.number (ffF32.val 0x7F7FFFFF) < |q| then y = ffF32.sign (decide (x < 0)) (if k.sovf then 0x7F800000 else 0x7F7FFFFF) ∧ bit c.2.1 8 = true
        else FVal.number (ffF32.val y) = q ∧ FVal.finite (ffF32.val y) = true ∧ bit y 31 = decide (x < 0))) ∧
    (∀ r n i, r < m → n < 20 → i < 64 → bad r n i → c.1.at (row0 + r) n = 0x7FC00000 ∧ bit c.2.1 0 = true) ∧
    ((∀ r n, r < m → n < 20 → good r n) → (bit c.2.1 9 = true ↔ ∃ r n, r < m ∧ n < 20 ∧ small r n) ∧ bit c.2.1 0 = false ∧
      (bit c.2.1 7 = true ↔ 0 < m ∧ v.wfmt = 13 ∧ v.esc = false ∧ ∃ p, p < 1280 ∧ code p = 8 ∧ entry p = none)) ∧
    (∀ r n, n < 20 → (∀ i, i < m → r ≠ row0 + i) → c.1.at r n = nd.at r n) ∧
    (rm ≠ 4 → c.2.2 = v.lfsr.toNat) ∧ c.1.count = nd.count + 1

/-- One addition of the scaled path under the stochastic mode draws once where it is inexact (R96, R240). -/
def Sys2Proof.Says.StochasticSumsDrawOnce : Prop :=
  ∀ (a lf : Nat) (s : FVal) (sat : Bool), FVal.finite (ffF32.val a) = true → FVal.finite s = true → (2 : ℚ) ^ (-126 : Int) ≤ |FVal.number s| →
    let x := FVal.number (ffF32.val a) + FVal.number s
    let res := addBlock 4 sat a s lf
    x ≠ 0 → ∃ q, Rounded 24 (-149) 4 lf x q res.lf ∧
      if FVal.number (ffF32.val 0x7F7FFFFF) < |q| then res.v = ffF32.sign (decide (x < 0)) (if sat then 0x7F7FFFFF else 0x7F800000) ∧ res.fl = fSCOVF
      else FVal.number (ffF32.val res.v) = q ∧ bit res.v 31 = decide (x < 0) ∧ res.fl = 0

/-! ## The fabric: tokens and operators -/

/-- A token that may arrive leaves the stripe's inbox.  A data token becomes a ready instance at a slot of one operand; at a slot of two it joins the
token of the other port, resident or spilled, or waits in the line of its frame, whose entries of another frame it spills first; at an operator it
waits at its input, in the order of arrival over both inputs of a MERGE.  A duplicate, and a spill without a place, trap.  End-of-stream is recorded at its input
(R38, R101, R112, R204, R214 to R217, R305). -/
def Sys2Proof.Says.TokensArrive : Prop :=
  ∀ (s : State) (x k rid kv : Nat) (r : Run) (f : InFlight), s.runOf x = some (rid, r) → (s.stripe x).inbox[k]? = some f → (s.stripe x).vs = some kv →
    stripeLive s x = true → behind ((s.stripe x).inbox.take k) f = false → canTake s x f.tok = true →
    let e := f.tok.target.toNat
    let slot := f.tok.slot.toNat
    let arrives := fun (P : State → Prop) => Gives (.tokenArrival x k) s (fun t => (t.stripe x).inbox = (s.stripe x).inbox.erase f ∧ P t)
    let taken := fun (u : State) => u.mapStripe x (fun v => { v with inbox := v.inbox.erase f })
    let same := fun (h : FrameEntry) => h.tok.frameOf == f.tok.frameOf && h.slot == slot && h.tok.iter == f.tok.iter
    (∀ i el, e < 16 → s.slotAt x e slot = some i → s.elem? x e = some el → initialForm i = false → f.tok.kind = kData →
      (arityOf i ≠ 2 → f.tok.port = 0 → arrives (fun t => t.elem? x e = some { el with ready := el.ready ++ [⟨slot, f.tok, none⟩] })) ∧
      (arityOf i = 2 →
        let kept := fun (w : Elem) => { w with frame := w.frame ++ [⟨f.tok, slot, f.tok.port, w.seq, .resident⟩], seq := w.seq + 1 }
        let lines := Table.set f.tok.line (BitVec.ofNat 14 f.tok.frameOf) el.lines
        (∀ g, el.frame.find? (fun h => same h && h.port == f.tok.port) = some g →
          Gives (.tokenArrival x k) s (fun t => t = taken (fabricTrap x e slot f.tok.tag cMATCHDUP 0 [g.tok, f.tok] (s.setElem x e (kept el))))) ∧
        (el.frame.find? (fun h => same h && h.port == f.tok.port) = none →
          (∀ g, el.frame.find? (fun h => same h && h.port != f.tok.port) = some g →
            (g.place = .resident ∨ ∃ i, g.place = .carveOut i ∧ bufferFails s 1 (carveOffset r x i) 32 false = false) →
            arrives (fun t => t.elem? x e = some { el with
              frame := el.frame.filter (fun h => h.seq != g.seq)
              ready := el.ready ++ [if f.tok.port = 0 then ⟨slot, f.tok, some g.tok⟩ else ⟨slot, g.tok, some f.tok⟩] })) ∧
          (el.frame.find? (fun h => same h && h.port != f.tok.port) = none → el.frame.find? (fun h => h.tok.frameOf == f.tok.frameOf && h.place != .resident) = none →
            (el.frame.filter (fun h => h.tok.frameOf == f.tok.frameOf)).length < 16 →
            ((Table.find f.tok.line el.lines).all (fun v => v.toNat == f.tok.frameOf) = true → arrives (fun t => t.elem? x e = some { kept el with lines := lines })) ∧
            (∀ g old, Table.find f.tok.line el.lines = some old → old.toNat ≠ f.tok.frameOf →
              el.frame.filter (fun h => h.tok.frameOf == old.toNat && h.place == .resident) = [g] →
              let moved := fun (p : EntryPlace) => { kept { el with frame := el.frame.map (fun h => if h.seq = g.seq then { g with place := p } else h) } with
                lines := lines }
              let bytes := g.tok.bytes ++ leBytes 8 (e + 16 * g.slot + 256 * g.port.toNat) ++ leBytes 8 g.seq
              (∀ i, freePlace s x r = some (.carveOut i) → cellsWf (fun _ => 0) s.stripeBuf = true → arrives (fun t => t.elem? x e = some (moved (.carveOut i)) ∧
                bufferRead t 1 (x * 262144 + 262144 - 4096 * r.spill + 32 * i) 32 = bytes)) ∧
              (∀ i pa s1, freePlace s x r = some (.overflow i) →
                fabricTranslate x e g.slot g.tok (BitVec.ofNat 64 (r.overflow + (x - r.xorig) * 2 ^ 20 + 32 * i)) 32 .write s = .ok pa s1 →
                s1.stripes = s.stripes → s1.Inv → onDevice pa = true → s1.wqueue = [] → writeFails s1 pa 32 = false →
                arrives (fun t => t.elem? x e = some (moved (.overflow i)) ∧ Stores pa bytes s1 t)) ∧
              (freePlace s x r = none → Gives (.tokenArrival x k) s (fun t => t = fabricTrap x e g.slot g.tok.tag cTAGEXHAUST 0 [g.tok] s))))))) ∧
    (∀ i el, e < 16 → s.slotAt x e slot = some i → s.elem? x e = some el → initialForm i = false → f.tok.kind = kEos → f.tok.port = 0 ∨ arityOf i = 2 →
      inBody r.image ⟨kv, e, slot, f.tok.port.toNat⟩ = false →
      arrives (fun t => t.elem? x e = some { el with ended := el.ended ++ [2 * slot + f.tok.port.toNat] })) ∧
    (∀ im v, 16 ≤ e → s.opImage x (e - 16) = some im → slot < opInputs im.kind → s.oper? x (e - 16) = some v →
      (f.tok.kind = kData → arrives (fun t => t.oper? x (e - 16) = some { v with
        inputs := Table.set slot (Table.getD v.inputs slot [] ++ [f.tok]) v.inputs
        accesses := if im.kind = 10 then v.accesses ++ [(f.tok, slot == 1)] else v.accesses })) ∧
      (f.tok.kind = kEos → inBody r.image ⟨kv, e, slot, 0⟩ = false → ¬(im.kind = 9 ∧ slot = 1) →
        arrives (fun t => t.oper? x (e - 16) = some { v with ended := v.ended ++ [2 * slot] })))

/-- An element whose inputs have all ended, with nothing left to issue or to match, sends end-of-stream once to each input that a valid destination of
it names; an MMG origin's slot first ends both ports of its participants, as soon as its own have ended and its last copy is made (R208, R217,
R225).  Here: an element that cannot reach itself outside LOOP bodies. -/
def Sys2Proof.Says.ElementsEndTheirStream : Prop :=
  ∀ (s : State) (x e rid k : Nat) (r : Run) (el : Elem) (im : ElemImage), s.runOf x = some (rid, r) → s.elem? x e = some el →
    s.elemImage x e = some im → (s.stripe x).vs = some k →
    let eos := fun (d : BitVec 16) => ({ Token.blank with kind := kEos } : Token).toward d
    let had := fun (d : BitVec 16) => destKey d ∈ el.eosTo
    (el.eosSent = true → exec (.elementEos x e) s = .next s) ∧
    (el.eosSent = false → el.faulted = none → stripeLive s x = true → fabricStalled s (.elem x e) = false → eosBySlot r.image k e = false →
      portsEnded r.image (elemInputs r.image k e) el.ended (startsEnded r (s.stripe x)) = true →
      endingOrigin r im el e k (startsEnded r (s.stripe x)) = none → slotsIdle el (im.slots.map (·.1)) = true →
      (∀ f, el.frame.find? (fun f => (im.slots.map (·.1)).contains f.slot) = some f →
        Gives (.elementEos x e) s (fun t => t = fabricTrap x e f.slot f.tok.tag cILLOP 0 [f.tok] s)) ∧
      (el.frame.find? (fun f => (im.slots.map (·.1)).contains f.slot) = none →
        ∃ ds : List (BitVec 16), (ds.map destKey).Nodup ∧ (∀ d ∈ ds, ¬ had d) ∧
          (∀ z ∈ im.slots, ∀ d ∈ slotDests im z.1, dstValid d = true → had d ∨ destKey d ∈ ds.map destKey) ∧
          Gives (.elementEos x e) s (fun t => t = flushOut x e (s.setElem x e
            { el with eosSent := true, eosTo := el.eosTo ++ ds.map destKey, out := ds.map eos })))) ∧
    (∀ m p, el.eosSent = false → el.faulted = none → stripeLive s x = true → fabricStalled s (.elem x e) = false →
      endingOrigin r im el e k (startsEnded r (s.stripe x)) = some m → (slotInstr im m.1).bind mmgParams = some p → p.member = false →
      (∀ q ∈ mmgOthers e p, ∀ port, port < 2 → let d := BitVec.ofNat 16 (2 ^ 15 + q.1 * 2 ^ 13 + q.2 * 2 ^ 8 + m.1 * 16 + 8 * port)
        had d ∨ d ∈ m.2) ∧
      Gives (.elementEos x e) s (fun t => t.elem? x e = some { el with eosTo := el.eosTo ++ m.2.map destKey } ∧
        ∀ y, (∀ d ∈ m.2, memberStripe s x (dstSoff d) = some y ∧ memberDirect s x (dstSoff d) = true) →
          (t.stripe y).inbox = (s.stripe y).inbox ++ m.2.map (fun d => ⟨fabricUnit x e, { eos d with soff := 0 }, (eos d).soff.toNat != 0⟩)))

/-- An MMG origin copies its operand tiles into one participant at a time, which is marked, and delivers the handles of the copies to its ports; it owes the
others still, and after its last copy it executes as an MMA on the tiles it read (R98, R224). -/
def Sys2Proof.Says.MmgCopiesOperands : Prop :=
  ∀ (s : State) (x e y : Nat) (v m : Elem) (so el : Nat) (a : Token) (b : Option Token), s.elem? x e = some v → v.faulted = none →
    let o := (so, el, a, b)
    stripeLive s x = true → v.mmgOwed.find? (memberReady s x e) = some o → memberStripe s x so = some y → s.elem? y el = some m → ¬(y = x ∧ el = e) →
    (∀ t ∈ a :: b.toList, t.value.toNat % 8 < m.allot) → so < 4 →
    let slot := a.slot.toNat
    let key := fun (t : Token) (z : Nat) => if memberDirect s x so then t.value.toNat % 8 else 32 + 8 * z + t.value.toNat % 8
    let handle := fun (t : Token) (port z : Nat) (tile : Tile) => ({ t with
      value := tileHandle el (t.value.toNat % 8) tile, kind := kTile, soff := BitVec.ofNat 2 so, target := BitVec.ofNat 5 el
      slot := BitVec.ofNat 4 z, port := BitVec.ofNat 1 port, hops := 0, eod := 0 } : Token)
    let handles := handle a 0 slot (v.tile 16) :: b.toList.map (fun t => handle t 1 t.slot.toNat (v.tile 17))
    (v.mmgOwed.erase o ≠ [] → Gives (.mmgCopy x e) s (fun t => (∃ u, t.elem? x e = some u ∧ u.mmgOwed = v.mmgOwed.erase o ∧ u.tiles = v.tiles) ∧
      (∃ n, t.elem? y el = some n ∧ Table.find slot n.mmgSent = some (16 * so + e) ∧
        ∀ j, n.tile j = match b with
          | some c => if j = key c c.slot.toNat then v.tile 17 else if j = key a slot then v.tile 16 else m.tile j
          | none => if j = key a slot then v.tile 16 else m.tile j) ∧
      (memberDirect s x so = true → (t.stripe y).inbox = (s.stripe y).inbox ++
        handles.map (fun h => ⟨fabricUnit x e, { h with soff := 0 }, (BitVec.ofNat 2 so).toNat != 0⟩)) ∧
      (memberDirect s x so = false → el < 32 → Table.getD (t.stripe x).pass (64 + el) [] = Table.getD (s.stripe x).pass (64 + el) [] ++
        handles.map (fun h => ⟨fabricUnit x e, h, false⟩)))) ∧
    (∀ w nd, v.mmgOwed.erase o = [] → s.slotAt x e slot = some (.mmg w) → Table.find (w.imm.toNat % 4) v.nodes = some nd →
      let s1 := copyOperand x e y o 16 0 a s
      let s2 := match b with | some c => copyOperand x e y o 17 1 c s1 | none => s1
      let s3 := (s2.mapElem y el (fun n => { n with mmgSent := Table.set slot (16 * so + e) n.mmgSent })).mapElem x e (fun u => { u with mmgOwed := [], stuck := [] })
      leftOver x e (mmgFinish x e a b s3) = [] →
      let c : Node × Nat × Nat := contribute (mmgOf w).wkind w.rt.toNat (elemKeys s x e) v nd (v.tile 16) (b.map (fun _ => v.tile 17)) a.iter.toNat
      Gives (.mmgCopy x e) s (fun t => ∃ u, t.elem? x e = some u ∧ u.mmgOwed = [] ∧ u.tiles = Table.erase 16 (Table.erase 17 v.tiles) ∧
        u.nodes = Table.set (w.imm.toNat % 4) (if nd.count + 1 == nd.total then { c.1 with acc := [], next := [], count := 0 } else c.1) v.nodes))

/-- AGEN emits P0 + position · P1 above its base, which is the one in hand or else its next token, with the tag of the base token, and goes on to
the next position or ends the base (R103). -/
def Sys2Proof.Says.AgenEmitsAddresses : Prop :=
  ∀ (s : State) (x o : Nat) (im : OpImage) (v : Oper) (b : Token), operOn x o 0 s = some (im, v) → (if v.base.isSome then v.base else v.head 0) = some b →
    let w := if v.base.isSome then v else v.take 0
    let last := v.pos + 1 == im.p2.toNat % 2 ^ 32
    let tok : Token := { b with
      kind := kData
      value := b.value + im.p0 + BitVec.ofNat 64 v.pos * im.p1
      iter := if bit im.p2.toNat 32 then BitVec.ofNat 10 v.pos else b.iter
      eod := if last then b.eod + 1 else 0 }
    roomForAll x (operOut im.out0 tok) s = true →
    Gives (.agenEmit x o) s (fun t => t = operSend x o (operOut im.out0 tok) (s.setOper x o
      (if last then { w with base := none, pos := 0 } else { w with base := some b, pos := v.pos + 1 })))

/-- A LOAD takes its address token, reads, and sends the value, sign-extended where it says so, with the tag of the address (that of a FIFO is
ordered after what the appended tokens were, R291); a tile fill writes the bytes of
its rows into the tile of the credit in whole 8-byte words, and its handle follows the last row (R86, R104). -/
def Sys2Proof.Says.LoadOperators : Prop :=
  ∀ (s s1 : State) (x o : Nat) (im : OpImage) (v : Oper) (a : Token) (bs : List Byte), operOn x o 1 s = some (im, v) →
    (v.head 0).map (fedBy s x im) = some a → loadFetch x o im a s = .got (.ok bs s1) →
    (im.field 0 6 6 = 0 → roomForAll x (operOut im.out0 a) s = true →
      let n := 2 ^ im.field 0 5 4
      let val : Word := if im.field 0 7 7 = 1 then BitVec.ofInt 64 (signed (8 * n) (leNat bs)) else BitVec.ofNat 64 (leNat bs)
      Gives (.loadAccess x o) s (fun t => t = operSend x o (operOut im.out0 { a with kind := kData, value := val })
        (s1.mapOper x o (fun u => (u.take 0).record im a none)))) ∧
    (∀ c e k tile, im.field 0 6 6 = 1 → v.head 1 = some c → creditTile s x im c = some (e, k, tile) →
      let data := v.fillTail ++ bs
      let at_ := v.fillRow * im.field 1 12 0 - v.fillTail.length
      let view := (v.fillView.join a.after).join c.after
      let handle := operOut im.out0 { a with kind := kTile, value := c.value, eod := 0, after := view }
      (v.fillRow + 1 ≠ tile.rows → Gives (.loadTileFill x o) s (fun t => ∀ el w, s1.elem? x e = some el → s1.oper? x o = some w →
        t.elem? x e = some (el.setTile k (tile.put at_ (data.take (data.length / 8 * 8)))) ∧
        t.oper? x o = some { (w.take 0).record im a none with
          fillRow := v.fillRow + 1, fillTail := data.drop (data.length / 8 * 8), fillView := view })) ∧
      (v.fillRow + 1 = tile.rows → roomForAll x handle s = true →
        Gives (.loadTileFill x o) s (fun t => ∃ u, t = operSend x o handle u ∧ ∀ el w, s1.elem? x e = some el → s1.oper? x o = some w →
          u.elem? x e = some (el.setTile k (tile.put at_ data)) ∧
          u.oper? x o = some { ((w.take 0).take 1).record im a none with fillRow := 0, fillTail := [], fillView := View.zero })))

/-- A LOAD of SPACE 0 or 1 reads the bytes of its buffer at P2 plus the address token (R104, R254). -/
def Sys2Proof.Says.BufferLoads : Prop :=
  ∀ (s : State) (x o : Nat) (im : OpImage) (a : Token) (b at_ : Nat), let addr := im.p2 + a.value
    im.field 0 2 0 < 2 → addr.toNat % im.alignment = 0 → bufferAt s x (im.field 0 2 0) addr.toNat im.accessBytes = some (b, at_) →
    bufferFails s b at_ im.accessBytes false = false →
    ∃ bs, loadFetch x o im a s = .got (.ok bs s) ∧ bs = bufferRead s b at_ im.accessBytes

/-- A LOAD of SPACE 2 reads the bytes at the translation of P2 plus the address token, and traps ALIGN where that is not aligned; one of SPACE 3 takes the next
bytes of its FIFO, which goes round its backing, waits while there are too few, and finds the end of a stream that is marked (R102, R104, R256; the two bursts
ends apart, R187). -/
def Sys2Proof.Says.MemoryAndFifoLoads : Prop :=
  ∀ (s s1 : State) (x o l pa : Nat) (im : OpImage) (a : Token) (r : Run) (v : Launch) (f : Fifo), let addr := im.p2 + a.value
    let n := im.accessBytes
    (im.field 0 2 0 = 2 → addr.toNat % im.alignment ≠ 0 → loadFetch x o im a s = .got (.stop (memTrap x (16 + o) 0 a cALIGN addr s))) ∧
    (im.field 0 2 0 = 2 → addr.toNat % im.alignment = 0 → 0 < n → addr.toNat % 4096 + n ≤ 4096 →
      fabricTranslate x (16 + o) 0 a addr n .read s = .ok pa s1 → onDevice pa = true → s1.wqueue = [] → s1.writes = [] →
      (∀ u, s1.oper? x o = some u → u.fixed = []) → readFails s1 pa n = false →
      ∃ t, loadFetch x o im a s = .got (.ok (peek s1 pa n) t) ∧ t.mem = s1.mem) ∧
    (im.field 0 2 0 = 3 → stripeLaunch s x = some (r, l, v) → isBurstSource s x im = false → isBurstSink s x r im = false →
      let k := im.field 0 23 16
      fifoOfRun s r k = some f →
      (f.wpos - f.rpos < n → f.eos = false → loadFetch x o im a s = .wait) ∧
      (f.wpos - f.rpos < n → f.eos = true → loadFetch x o im a s = .ended) ∧
      (n ≤ f.wpos - f.rpos → f.virt = false → f.base % f.size = 0 → (∃ j, j < 25 ∧ f.size = 2 ^ (j + 8)) → (∀ e ∈ s.errors, e.1 ≠ 2) →
        loadFetch x o im a s = .got (.ok ((List.range n).map (fun i =>
          cellGet 0 (f.ring * 4194304 + (ringWindow v f.ring).1 + f.base + (f.rpos + i) % f.size) s.ringBuf)) (setFifo r k { f with rpos := f.rpos + n } s))))

/-- A STORE of SPACE 3 appends its bytes to its FIFO, which goes round its backing, waits while they do not fit, and traps ILLOP, naming its operator and
holding its data token, where the end of the stream is marked (R105, R256). -/
def Sys2Proof.Says.FifoAppends : Prop :=
  ∀ (s : State) (x o l : Nat) (im : OpImage) (a d : Token) (data : List Byte) (r : Run) (v : Launch) (f : Fifo),
    stripeLaunch s x = some (r, l, v) → isBurstSource s x im = false → isBurstSink s x r im = false →
    let k := im.field 0 23 16
    fifoOfRun s r k = some f → let used := f.wpos - f.rpos
    (f.eos = true → appendFifo x o im a d data s = some (.stop (fabricTrap x (16 + o) 1 d.tag cILLOP 0 [d] s))) ∧
    (f.eos = false → f.size < used + data.length → appendFifo x o im a d data s = none) ∧
    (f.eos = false → used + data.length ≤ f.size → f.virt = false → f.base % f.size = 0 → (∃ j, j < 25 ∧ f.size = 2 ^ (j + 8)) → (∀ e ∈ s.errors, e.1 ≠ 2) →
      cellsWf (fun _ => 0) s.ringBuf = true → r.launch = l → Table.find l s.launches = some v →
      ∃ t g, appendFifo x o im a d data s = some (.ok () t) ∧ fifoOfRun t r k = some { f with wpos := f.wpos + data.length, appended := g } ∧ t.mem = s.mem ∧
        let at_ := fun (i : Nat) => f.ring * 4194304 + (ringWindow v f.ring).1 + f.base + (f.wpos + i) % f.size
        (∀ i, i < data.length → cellGet 0 (at_ i) t.ringBuf = nth data i 0) ∧
        ∀ b, (∀ i, i < data.length → b ≠ at_ i) → cellGet 0 b t.ringBuf = cellGet 0 b s.ringBuf)

/-- A STORE takes an address and a data token and writes the low bytes of the data: to a buffer at once, to a FIFO, or to memory (R105, R256). A SPACE 3 STORE with no append
left marks the end of its FIFO (R201). -/
def Sys2Proof.Says.StoreOperators : Prop :=
  ∀ (s s1 : State) (x o : Nat) (im : OpImage) (v : Oper) (a d : Token), operOn x o 2 s = some (im, v) →
    let n := im.accessBytes
    let addr := im.p2 + a.value
    let tok := { a with after := a.after.join d.after }
    let done := fun (u : State) (posted : Bool) =>
      let u1 := u.mapOper x o (fun w => ((w.take 0).take 1).record im (afterOwn x o tok s u) (if posted then some s.nextJob else none))
      if posted then { u1 with nextJob := u1.nextJob + 1 } else u1
    (v.head 0 = some a → v.head 1 = some d →
      (∀ b at_, im.field 0 2 0 < 2 → addr.toNat % n = 0 → bufferAt s x (im.field 0 2 0) addr.toNat n = some (b, at_) →
        bufferFails s b at_ n true = false →
        Gives (.storeAccess x o) s (fun t => t = done (bufferWrite b at_ (leBytes n d.value.toNat) s) false)) ∧
      (im.field 0 2 0 = 2 → addr.toNat % n = 0 → virtWrite x o 0 tok [(addr, n)] (leBytes n d.value.toNat) s = .ok () s1 →
        Gives (.storeAccess x o) s (fun t => t = done s1 (s1.outbound.length != s.outbound.length)) ∧
        ∀ pa s0, fabricTranslate x (16 + o) 0 tok addr n .write s = .ok pa s0 → onDevice pa = true → s0.Inv → s0.wqueue = [] →
          Stores pa (leBytes n d.value.toNat) s0 s1) ∧
      (im.field 0 2 0 = 3 → appendFifo x o im tok d (leBytes n d.value.toNat) s = some (.ok () s1) →
        Gives (.storeAccess x o) s (fun t => t = done s1 false))) ∧
    (∀ r l w f, stripeLaunch s x = some (r, l, w) → im.field 0 2 0 = 3 → appendsDone r.image ((s.stripe x).vs.getD 0) o v = true →
      fifoOfRun s r (fifoNumber s x r im) = some f →
      Gives (.storeEos x o) s (fun t => t = setFifo r (fifoNumber s x r im) { f with eos := true } s))

/-- An ATOMIC operator performs its operation at the translated address and, where it returns, sends the old value, which it sign-extends for the
integer operations (the choice of log 28); one to HBM that does not return enters the write queue of its stack (R106, R257, R258). -/
def Sys2Proof.Says.AtomicOperators : Prop :=
  ∀ (s s1 s2 : State) (x o pa old : Nat) (posted : Bool) (im : OpImage) (v : Oper) (a b : Token), operOn x o 3 s = some (im, v) →
    v.head 0 = some a → v.head 1 = some b →
    let n := 2 ^ im.field 0 10 9
    let tok := { a with after := a.after.join b.after }
    let out := fun (w : Word) => if im.field 0 14 14 = 1 then operOut im.out0 { b with kind := kData, value := w, eod := 0, after := tok.after } else []
    let aop := im.field 0 8 5
    let done := fun (u : State) =>
      let u1 := u.mapOper x o (fun w => ((w.take 0).take 1).record im (afterOwn x o tok s u) (if posted then some s.nextJob else none))
      if posted then { u1 with nextJob := u1.nextJob + 1 } else u1
    roomForAll x (out 0) s = true → operTranslate x o 0 tok (im.p1 + a.value) n .rw s = .ok pa s1 →
    atomicAt x o im tok b.value n pa (im.p1 + a.value) s1 = .ok (old, posted) s2 →
    Gives (.atomicAccess x o) s (fun t => t = operSend x o
      (out (if aop < 11 then BitVec.ofInt 64 (signed (8 * n) old) else BitVec.ofNat 64 old)) (done s2)) ∧
    (onDevice pa = true → s1.Inv → s1.wqueue = [] →
      (im.field 0 14 14 = 1 ∨ 16 ≤ stackOf pa → posted = false ∧ old = leNat (peek s1 pa n) ∧
        Stores pa (leBytes n (aopApply aop n old (b.value.toNat % 2 ^ (8 * n)) 0)) s1 s2) ∧
      (im.field 0 14 14 = 0 → stackOf pa < 16 → posted = true ∧ s2.mem = s1.mem ∧ ∃ r : PostedRed, r.pa = pa ∧ r.aop = aop ∧ r.bytes = n ∧
        r.value = b.value ∧ s2.wqueue = [(stackOf pa, [⟨pa / 64 * 64, aop, n, [r]⟩])]))

/-- SEND starts a transfer of the bytes its token names, at P1 + FRAME · P3 + ITER · P2, with a token on OUT0; moves the bytes into a stripe buffer or,
with DKIND 1, piece by piece into memory; and once they are written completes with a token on OUT1, whose VALUE is the destination and whose tag is
the input token's, sent as the destination stripe (with DKIND 1 its own) would send it; a token to a stripe that no run holds traps ILLOP in the sender's run
(R107, R204; log 55). -/
def Sys2Proof.Says.SendOperators : Prop :=
  ∀ (s : State) (x o : Nat) (im : OpImage) (v : Oper), operOn x o 4 s = some (im, v) →
    let n := im.field 0 15 0 + 1
    let dest := fun (a : Token) => im.p1 + BitVec.ofNat 64 a.frame.toNat * im.p3 + BitVec.ofNat 64 a.iter.toNat * im.p2
    let left := fun (t : State) (j : SendJob) (k : Nat) => (t.oper? x o).map (fun w => w.sends.map (fun q => (q.dest, q.data))) =
      some (v.sends.map (fun q => (q.dest, if q = j then j.data.drop k else q.data)))
    (∀ a r l w b at_, v.sends.find? (fun j => !j.data.isEmpty) = none → v.head 0 = some a → stripeLaunch s x = some (r, l, w) →
      a.value.toNat % 8 = 0 → (dest a).toNat % 8 = 0 →
      (im.field 0 16 16 = 1 ∨ ∃ y, sendStripe im w x = some y ∧ (dest a).toNat + n ≤ sendLimit s y) →
      bufferAt s x 0 a.value.toNat n = some (b, at_) → bufferFails s b at_ n false = false → roomForAll x (operOut im.out0 a) s = true →
      Gives (.sendTransfer x o) s (fun t => t = operSend x o (operOut im.out0 { a with kind := kData, value := a.value, eod := 0 })
        (s.setOper x o { v.take 0 with sends := v.sends ++ [⟨a, (dest a).toNat, bufferRead s b at_ n⟩] }))) ∧
    (∀ j r l w y, v.sends.find? (fun j => !j.data.isEmpty) = some j → j.data.length = n → im.field 0 16 16 = 0 →
      stripeLaunch s x = some (r, l, w) → sendStripe im w x = some y →
      bufferFails s 1 (y * 262144 + j.dest) n true = false →
      Gives (.sendTransfer x o) s (fun t => t.stripeBuf = (bufferWrite 1 (y * 262144 + j.dest) j.data s).stripeBuf ∧ t.mem = s.mem ∧
        left t j n)) ∧
    (∀ j pa s1, v.sends.find? (fun j => !j.data.isEmpty) = some j → im.field 0 16 16 = 1 →
      let at_ := j.dest + (n - j.data.length)
      let k := min j.data.length (4096 - at_ % 4096)
      fabricTranslate x (16 + o) 0 j.tok (BitVec.ofNat 64 at_) k .write s = .ok pa s1 → onDevice pa = true → s1.Inv → s1.wqueue = [] →
      writeFails s1 pa k = false →
      Gives (.sendTransfer x o) s (fun t => Stores pa (j.data.take k) s1 t ∧ left t j k)) ∧
    (∀ j rest r l w, operError s x o v = none → v.sends = j :: rest → j.data = [] → operPosted s x o = false → stripeLaunch s x = some (r, l, w) →
      let ts := operOut im.out1 { j.tok with kind := kData, value := BitVec.ofNat 64 j.dest, eod := 0 }
      let ends := fun (y : Nat) => roomForAll y ts s = true → Gives (.sendCompletion x o) s (fun t =>
        t = ts.foldl (fun u k => emit y (fabricUnit x (16 + o)) k u) (s.setOper x o { v with sends := rest }))
      (im.field 0 16 16 = 1 → ends x) ∧ (∀ y, im.field 0 16 16 = 0 → sendStripe im w x = some y → (s.runOf y).isSome = true → ends y) ∧
      (∀ y rid q, im.field 0 16 16 = 0 → sendStripe im w x = some y → s.runOf y = none → s.runOf x = some (rid, q) → dstValid im.out1 = true →
        Gives (.sendCompletion x o) s (fun t => ∃ p, Table.find rid t.runs = some p ∧ (q.haltCause = none → q.status = .running →
          p.haltCause = some cILLOP ∧ p.status = .stopping))))

/-- A LOAD, STORE or ATOMIC sends one completion token for the accesses up to the first whose address token has EOD ≥ CDIM, once all of them are complete, with
their number (R102, R106). -/
def Sys2Proof.Says.CompletionTokens : Prop :=
  ∀ (s : State) (x o k : Nat) (im : OpImage) (v : Oper) (first rest : List (Token × Bool)) (a : Token), 1 ≤ k → k ≤ 3 → im.kind = k →
    operOn x o k s = some (im, v) → operError s x o v = none →
    let cdim := if k = 3 then im.field 0 23 20 else im.field 0 11 8
    let g := first ++ [(a, true)]
    v.accesses = g ++ rest → (∀ p ∈ first, p.1.eod.toNat < cdim ∧ p.2 = true) → cdim ≤ a.eod.toNat →
    let ts := operOut im.out1 { a with kind := kData, value := BitVec.ofNat 64 g.length, eod := 0, after := groupView g }
    roomForAll x ts s = true →
    Gives (.operatorCompletion x o) s (fun t => t = operSend x o ts (s.setOper x o { v with accesses := v.accesses.drop g.length }))

/-- VLOAD sends the eight doublewords of its version, in latest mode the number first; VSTORE creates its version from eight data tokens, and then
completes with a token of VALUE 1 (the choice of log 28; R108, R295). -/
def Sys2Proof.Says.VersionOperators : Prop :=
  ∀ (s s1 s2 : State) (x o part l n g : Nat) (r : Region) (im : OpImage) (v : Oper) (a w : Token), stripePart s x = some (part, l) → v.parked = false →
    v.head 0 = some a →
    (operOn x o 5 s = some (im, v) →
      let lat := im.field 0 0 0 == 1
      let second := if lat then Token.blank else w
      let tok := { a with after := a.after.join second.after }
      let words := fun (bs : List Word) (rel : View) => bs.flatMap (fun y => operOut im.out0
        { a with kind := kData, value := y, eod := 0, after := tok.after.join rel })
      let number := fun (u : Nat) (rel : View) => if lat then operOut im.out1
        { a with kind := kData, value := BitVec.ofNat 64 u, eod := 0, after := tok.after.join rel } else []
      let ends := fun (u : State) => u.mapOper x o (fun q =>
        { (if lat then q.take 0 else (q.take 0).take 1) with vdata := [], vview := View.zero, version := none, vstamp := none })
      (lat = false → v.head 1 = some w) →
      (∀ bs rel, v.vdata = [] → operGranule x o tok (im.p1 + a.value) part s = .ok (n, r, g) s1 →
        let want := if lat then (r.gran g).latest else w.value.toNat
        homeLoad part n g want s1 = some (.ok (bs, rel), s2) →
        let ts := number want rel ++ words (bytesWords 8 bs) rel
        roomForAll x ts s2 = true → Gives (.vloadAccess x o) s (fun t => t = operSend x o ts (ends s2))) ∧
      (v.vdata ≠ [] → roomForAll x (words v.vdata v.vview) s = true →
        Gives (.vloadAccess x o) s (fun t => t = operSend x o (words v.vdata v.vview) (ends s)))) ∧
    (operOn x o 6 s = some (im, v) → v.head 1 = some w → 8 ≤ (Table.getD v.inputs 2 []).length →
      let data := (Table.getD v.inputs 2 []).take 8
      let tok := { a with after := data.foldl (fun m d => m.join d.after) (a.after.join w.after) }
      (v.version = none → operGranule x o tok (im.p1 + a.value) part s = .ok (n, r, g) s1 →
        let view := (s1.stripe x).drained.join tok.after
        let u := s1.mapOper x o (fun q => { q with vview := view })
        homeStore part n g w.value.toNat (u.ownerOf x o) view (wordBytes (data.map (·.value))) u = some (.ok s2) →
        Gives (.vstoreAccess x o) s (fun t => t = s2.mapOper x o (fun q => { q with version := some w.value.toNat }))) ∧
      (v.version.isSome = true → let ts := operOut im.out1 { tok with kind := kData, value := 1, eod := 0 }
        roomForAll x ts s = true →
        Gives (.vstoreAccess x o) s (fun t => t = operSend x o ts (s.mapOper x o (fun u => { (u.take 0).take 1 with
          version := none, vstamp := none, vview := View.zero
          inputs := Table.set 2 ((Table.getD u.inputs 2 []).drop 8) ((u.take 0).take 1).inputs })))))

/-! ## The fabric: streams, routing, the end of streams -/

/-- JOIN forwards the token of its lowest input and takes one from each; ACCUM combines a value into its route's partial and, at the count, releases it
and starts again from the identity (with COUNT = 0 the count of the first release token of the route that waits, and 0 releases the identity: log 29); LOOP
allocates a number on entry and frees it on exit, where the token has EOD 0 (log 57); MERGE forwards tokens in the order of their arrival, or in ascending
key, input 0 first on equal keys, while the other input holds one or has ended (R109 to R112; an input that no sender names counts as ended, log 29). -/
def Sys2Proof.Says.StreamOperators : Prop :=
  ∀ (s : State) (x o k : Nat) (im : OpImage) (v : Oper) (t : Token),
    (operOn x o 7 s = some (im, v) → (∀ i ∈ joinInputs im, (v.head i).isSome = true) → ((joinInputs im).filterMap v.head).head? = some t →
      let ts := operOut im.out0 { t with after := ((joinInputs im).filterMap v.head).foldl (fun m h => m.join h.after) View.zero }
      roomForAll x ts s = true →
      Gives (.joinFire x o) s (fun u => u = operSend x o ts (s.setOper x o ((joinInputs im).foldl (fun w i => w.take i) v)))) ∧
    (operOn x o 8 s = some (im, v) → firstOfRoute v 0 0 = some t → im.field 0 31 16 ≠ 0 →
      let p := accumPartial im v t.route.toNat
      let r := accumWord (im.field 0 5 4) (im.field 0 3 0) (im.field 0 6 6 == 1) p.1 t.value
      let s1 := s.mapElem x 0 (fun e => { e with status := e.status.raise r.2 })
      let v1 := v.takeAt 0 0
      (p.2.1 + 1 ≠ im.field 0 31 16 → Gives (.accumCombine x o 0) s (fun u => u =
        s1.setOper x o { v1 with partials := Table.set t.route.toNat (r.1, p.2.1 + 1, p.2.2.join t.after) v.partials })) ∧
      (p.2.1 + 1 = im.field 0 31 16 → roomForAll x (operOut im.out0 t) s = true → Gives (.accumCombine x o 0) s (fun u => u =
        operSend x o (operOut im.out0 { t with kind := kData, value := r.1, eod := 0, after := p.2.2.join t.after })
          (s1.setOper x o { v1 with partials := Table.erase t.route.toNat v.partials })))) ∧
    (operOn x o 8 s = some (im, v) → firstOfRoute v 0 k = some t → im.field 0 31 16 = 0 → ∀ j c, releaseCount v t.route = some (j, c) → c.value ≠ 0 →
      let p := accumPartial im v t.route.toNat
      let sum := (accumWord (im.field 0 5 4) (im.field 0 3 0) (im.field 0 6 6 == 1) p.1 t.value).1
      (p.2.1 + 1 ≠ c.value.toNat → Gives (.accumCombine x o k) s (fun u => ∃ w, u.oper? x o = some w ∧
        Table.find t.route.toNat w.partials = some (sum, p.2.1 + 1, p.2.2.join t.after) ∧
        Table.getD w.inputs 0 [] = dropAt (Table.getD v.inputs 0 []) k)) ∧
      (p.2.1 + 1 = c.value.toNat → roomForAll x (operOut im.out0 t) s = true → Gives (.accumCombine x o k) s (fun u => ∃ z, u = operSend x o
          (operOut im.out0 { t with kind := kData, value := sum, eod := 0, after := (p.2.2.join t.after).join c.after }) z ∧
        ∃ w, z.oper? x o = some w ∧ w.partials = Table.erase t.route.toNat v.partials ∧ Table.getD w.inputs 0 [] = dropAt (Table.getD v.inputs 0 []) k ∧
          Table.getD w.inputs 1 [] = dropAt (Table.getD v.inputs 1 []) j))) ∧
    (operOn x o 8 s = some (im, v) → firstOfRoute v 1 k = some t → im.field 0 31 16 = 0 → t.value = 0 →
      (accumPartial im v t.route.toNat).2.1 = 0 → roomForAll x (operOut im.out0 t) s = true →
      Gives (.accumCombine x o ((Table.getD v.inputs 0 []).length + k)) s (fun u => u = operSend x o
        (operOut im.out0 { t with kind := kData, value := accumIdentity (im.field 0 5 4) (im.field 0 3 0), eod := 0 })
        (s.setOper x o { v.takeAt 1 k with partials := Table.erase t.route.toNat v.partials }))) ∧
    (∀ a b code j, code < 8 → j < 64 / laneWidth code → laneOf (laneWidth code) j (accumWord 0 code false a b).1 =
      wrapInt (laneWidth code) (laneVal code j a + laneVal code j b)) ∧
    (operOn x o 9 s = some (im, v) → v.head 0 = some t →
      ∀ n, ((List.range (im.field 0 27 16)).map (fun i => i + im.field 0 15 4)).find? (fun m => (Table.find m v.pool).isNone) = some n →
      let u : Token := if im.field 0 0 0 = 0 then { t with frame := BitVec.ofNat 11 n } else { t with iter := BitVec.ofNat 10 n }
      roomForAll x (operOut im.out0 u) s = true →
      Gives (.loopEntry x o) s (fun w => w = operSend x o (operOut im.out0 u) (s.setOper x o { v.take 0 with pool := Table.set n t v.pool }))) ∧
    (operOn x o 9 s = some (im, v) → v.head 1 = some t →
      let n := if im.field 0 0 0 = 0 then t.frame.toNat else t.iter.toNat
      ∀ old, Table.find n v.pool = some old →
      let u : Token := { old with kind := kData, value := t.value, eod := 0, after := old.after.join t.after }
      roomForAll x (operOut im.out1 u) s = true →
      Gives (.loopExit x o) s (fun w => w = operSend x o (operOut im.out1 u) (s.setOper x o { v.take 1 with pool := Table.erase n v.pool }))) ∧
    (∀ rid r i, operOn x o 10 s = some (im, v) → s.runOf x = some (rid, r) → v.head i = some t →
      let key := fun (u : Token) => u.frame.toNat * 1024 + u.iter.toNat
      (if im.field 0 0 0 = 0 then v.accesses.head?.map (fun a => if a.2 then 1 else 0) = some i
        else i < 2 ∧ (∀ u, v.head (1 - i) = some u → key t < key u ∨ (key t = key u ∧ i = 0)) ∧
          (v.head (1 - i) = none → inputOver r.image ((s.stripe x).vs.getD 0) o (1 - i) v = true)) → roomForAll x (operOut im.out0 t) s = true →
      Gives (.mergeForward x o) s (fun w => w = operSend x o (operOut im.out0 t)
        (s.setOper x o { v.take i with accesses := v.accesses.erase (t, i == 1) })))

/-- The selection of R349 among location words with a valid one: every valid location's selector is raised by its weight, the valid location of the greatest
raised selector is taken, the lowest of equal ones, and its selector is lowered by the sum of the weights. -/
def Sys2Proof.Says.LocationsAreSelected : Prop :=
  ∀ (ws : List Nat) (cur after : List Int) (loc : Nat), selectLocation ws cur = (after, loc) → (∃ k, k < 8 ∧ (nth ws k 0).testBit 5 = true) →
    let valid := fun (k : Nat) => (nth ws k 0).testBit 5
    let weight : Nat → Nat := fun k => if valid k then nth ws k 0 / 2 ^ 57 % 16 else 0
    let raised := fun (k : Nat) => nth cur k 0 + (weight k : Int)
    let total := ((List.range 8).map weight).sum
    loc < 8 ∧ valid loc = true ∧ (∀ k, k < 8 → valid k = true → raised k ≤ raised loc ∧ (k < loc → raised k < raised loc)) ∧
    after.length = 8 ∧ ∀ k, k < 8 → nth after k 0 = raised k - if k = loc then (total : Int) else 0

/-- ROUTE stamps a token with the location that its selectors choose under the version it holds, keeps it in its window until its acknowledgement, and
reads at a burst boundary the latest version, or with TRAIN = 1 the frozen version of its launch's phase, which the first such read fixes (R113, R349, R357). -/
def Sys2Proof.Says.RouteOperators : Prop :=
  ∀ (s s1 : State) (x o part l : Nat) (im : OpImage) (v : Oper) (t : Token) (r : Region) (held : Nat) (ws : List Nat) (cur : List Int) (loc : Nat),
    operOn x o 11 s = some (im, v) → stripePart s x = some (part, l) → routeTable s part im = some r →
    (v.head 0 = some t → routeOwes v = false → v.window.length < im.field 1 15 0 → v.version = some held →
      let expert := t.value.toNat % 4096
      let under := match entryUnder r expert held with | some e => e.1 | none => 0
      let before := match Table.find expert v.select with | some c => if c.1 = under then c.2 else List.replicate 8 0 | none => List.replicate 8 0
      entryWords r expert held s = (ws, s1) → heapFails s r (expert + 1) under = false → locValid (nth ws 0 0) = true → selectLocation ws before = (cur, loc) →
      let die := locDie (nth ws loc 0)
      let tok := { t with after := t.after.join (r.released 0 held) }
      let value : Word := BitVec.ofNat 64 (t.value.toNat / 2 ^ 32 % 2 ^ 32 * 2 ^ 32 + held % 2 ^ 14 * 2 ^ 18 + die * 2 ^ 15 + loc * 2 ^ 12 + expert)
      let ts := operOut im.out0 { tok with kind := kData, value := value, eod := 0 }
      roomForAll x ts s = true →
      Gives (.routeRequest x o) s (fun u => u = operSend x o ts (countLoad part expert die (s1.setOper x o { v.take 0 with
        select := Table.set expert (under, cur) v.select
        window := v.window ++ [⟨tok, expert, die, loc, held % 2 ^ 14⟩] })))) ∧
    (∀ i, v.head 1 = some t → v.window.findIdx? (fun w => w.tok.tag == t.tag) = some i →
      Gives (.routeAcknowledgement x o) s (fun u => u = s.setOper x o { v.take 1 with window := dropAt v.window i })) ∧
    (v.head 1 = some t → v.window.findIdx? (fun w => w.tok.tag == t.tag) = none →
      Gives (.routeAcknowledgement x o) s (fun u => u = s.setOper x o (v.take 1))) ∧
    (∀ w, Table.find l s.launches = some w → homeLost s r = false → heapFails s r 0 (r.gran 0).latest = false → v.due = true → v.redirect = [] →
      s.parked = [] → let train := im.field 1 16 16 = 1
      let read := if train then w.frozenT.getD (r.gran 0).latest else (r.gran 0).latest
      Gives (.routeTableRead x o) s (fun u => u.oper? x o = some { v with
          due := false
          version := some read
          view := v.view.join (r.released 0 read) } ∧
        ∃ q, Table.find l u.launches = some q ∧ q.frozenT = if train then some read else w.frozenT))

/-- An operator whose inputs have all ended, with no work left, sends end-of-stream once on its outputs, those of OUT1 as the stripe that they
count from sends them; a LOOP sends it on OUT1 only, and marks the inputs of its body as ended (R101, R107, R305). -/
def Sys2Proof.Says.OperatorsEndTheirStream : Prop :=
  ∀ (s : State) (x o rid : Nat) (r : Run) (im : OpImage) (v : Oper), s.runOf x = some (rid, r) → operOn x o im.kind s = some (im, v) →
    (v.eosSent = true → exec (.operatorEosForward x o) s = .next s) ∧
    (v.eosSent = false → operEnded s x o r im v = true → operIdle s x o im v = true → streamMarked s x o r im v = true →
      let ts := if im.kind = 9 then [] else operOut im.out0 eosToken
      let y := (out1Stripe s x im).getD x
      let us := if (out1Stripe s x im).isSome then operOut im.out1 eosToken else []
      let s0 := operSend x o ts (s.setOper x o { v with eosSent := true })
      roomForAll x ts s = true → roomForAll y us s0 = true →
      let s1 := us.foldl (fun u t => emit y (fabricUnit x (16 + o)) t u) s0
      Gives (.operatorEosForward x o) s (fun t => t =
        if im.kind = 9 then (loopBody r.image ((s.stripe x).vs.getD 0) o).foldl (fun u p => markBody rid p u) s1 else s1))

/-! ## The scroll controller -/

/-- No slot of a configuration holds an initial form (R80). -/
def Sys2Proof.Says.plain (im : StripeImage) : Prop := ∀ e ∈ im.elems, ∀ z ∈ e.2.slots, (slotInstr e.2 z.1).all (fun i => !initialForm i) = true

/-- A waiting run takes its stripes and its ticket and begins step 0 with vs0 loaded on its first stripe (R157, R197, R204, R210). -/
def Sys2Proof.Says.RunsStart : Prop :=
  ∀ (s : State) (run : Nat) (r : Run) (v : Launch) (c : Nat × Nat × Nat × Nat × StripeImage),
    Table.find run s.runs = some r → Table.find r.launch s.launches = some v → canStart s r = true → ticketLeft s r.launch = true →
    s.ringCache.find? (fun d => d.1 == stripeRing r.xorig && d.2.1 == v.part && d.2.2.1 == r.ident && d.2.2.2.1 == 0) = some c →
    Says.plain c.2.2.2.2 → Table.find 0 r.saved = none →
    Gives (.runStart run) s (fun t =>
      (∃ q, Table.find run t.runs = some q ∧ q.ticket = freeTicket s r.launch v.nextTicket ∧ q.startTime = s.time ∧ q.step = r.step ∧ q.stepOpen = true ∧
        q.status = .running) ∧
      (∃ w, Table.find r.launch t.launches = some w ∧ w.nextTicket = freeTicket s r.launch v.nextTicket % 65535 + 1) ∧
      (∀ x, x < r.width → (t.stripe (r.xorig + x)).run = some run ∧ (t.stripe (r.xorig + x)).inbox = [] ∧ (t.stripe (r.xorig + x)).pass = [] ∧
        (x ≠ 0 → (t.stripe (r.xorig + x)).vs = none ∧ (t.stripe (r.xorig + x)).elems = [])) ∧
      (t.stripe r.xorig).vs = some 0 ∧ (t.stripe r.xorig).loadedAt = 0 ∧ (t.stripe r.xorig).image = c.2.2.2.2 ∧
      (t.stripe r.xorig).elems = loadedElems c.2.2.2.2 ∧
      (∀ y, y < r.xorig ∨ r.xorig + r.width ≤ y → y ≠ r.xorig → t.stripe y = s.stripe y))

/-- A boundary goes on to the next step: the tokens that wait in pass registers reach the next stripe, or its pass registers where they cross once
more; the stripe whose turn it is loses its virtual stripe, whose state is saved where it is stateful, and holds the next one, with the state that
was saved of it (R197, R202, R206, R207, R209). -/
def Sys2Proof.Says.StepsCross : Prop :=
  ∀ (s : State) (run : Nat) (r : Run) (v : Launch), Table.find run s.runs = some r → Table.find r.launch s.launches = some v →
    boundaryReady s r = true → scrollEnded s r = false → boundaryTrap r s = none → r.image.pinned = false →
    meterAdmits s (stepCharge s r.following) = true → firstInLine s r = true → s.parked = [] →
    let n := r.step + 1
    let stays := fun (load : Option Nat) (x reg : Nat) => load == some x && ((s.stripe x).image.stateful.getD []).contains reg
    let leaving := fun (load : Option Nat) (z : Nat) => ((List.range r.width).map (r.xorig + ·)).flatMap (fun x =>
      if nextStripe r x = z then ((s.stripe x).pass.filter (fun p => !stays load x p.1)).flatMap (·.2) else [])
    let onward := fun (f : InFlight) => { f with tok := { f.tok with soff := f.tok.soff - 1 }, crossed := true }
    let delivered := fun (load : Option Nat) (t : State) (z : Nat) =>
      (t.stripe z).inbox = (s.stripe z).inbox ++ ((leaving load z).filter (fun f => f.tok.soff == 1)).map onward
    let handedOn := fun (load : Option Nat) (t : State) (z : Nat) => ∀ key, Table.getD (t.stripe z).pass key [] =
      (((leaving load z).filter (fun f => f.tok.soff != 1)).map onward).filter (fun f => passKey (s.stripe z).image f.tok.dest == key)
    let goesOn := fun (t : State) (q : Run) => Table.find run t.runs = some q ∧ q.step = n ∧ q.steps = r.steps + 1 ∧ q.stepOpen = true
    (r.resident = true → r.vcount ≤ n → Gives (.scrollStepBoundary run) s (fun t => (∃ q, goesOn t q) ∧
      ∀ x, x < r.width → (t.stripe (r.xorig + x)).vs = (s.stripe (r.xorig + x)).vs ∧ (t.stripe (r.xorig + x)).elems = (s.stripe (r.xorig + x)).elems ∧
        delivered none t (r.xorig + x) ∧ handedOn none t (r.xorig + x))) ∧
    (∀ (y k : Nat) (c : Nat × Nat × Nat × Nat × StripeImage),
      (r.resident = true ∧ n < r.vcount ∧ y = r.xorig + n ∧ k = n) ∨
        (r.resident = false ∧ r.lastBurst = none ∧ y = r.xorig + n % r.width ∧ k = n % r.vcount) →
      s.ringCache.find? (fun d => d.1 == stripeRing y && d.2.1 == v.part && d.2.2.1 == r.ident && d.2.2.2.1 == k) = some c →
      Says.plain c.2.2.2.2 → (s.stripe y).vs ≠ some k → 0 < r.width → n < r.width ∨ r.resident = false →
      Gives (.scrollStepBoundary run) s (fun t => ∃ q, goesOn t q ∧
        (t.stripe y).run = some run ∧ (t.stripe y).vs = some k ∧ (t.stripe y).loadedAt = n ∧ (t.stripe y).image = c.2.2.2.2 ∧
        (∀ x, x < r.width → delivered (some y) t (r.xorig + x) ∧ (r.xorig + x ≠ y → handedOn (some y) t (r.xorig + x) ∧
          (t.stripe (r.xorig + x)).vs = (s.stripe (r.xorig + x)).vs ∧ (t.stripe (r.xorig + x)).elems = (s.stripe (r.xorig + x)).elems)) ∧
        (∀ j live, (s.stripe y).vs = some j → (s.stripe y).image.stateful = some live → Table.find j q.saved = some
          ⟨Table.mapVals (fun _ (e : Elem) => e.nodes) (s.stripe y).elems, (s.stripe y).ops, (s.stripe y).pass.filter (fun p => live.contains p.1)⟩) ∧
        (Table.find k r.saved = none → (t.stripe y).elems = loadedElems c.2.2.2.2) ∧
        (∀ old, Table.find k r.saved = some old → ∀ e nodes w, Table.find e old.nodes = some nodes →
          Table.find e (loadedElems c.2.2.2.2) = some w → t.elem? y e = some { w with nodes := nodes })))

/-- A wave reaches the burst source; the load steps of a pinned segment end; a stopping run ends with its cause, a blocked one without waiting for a
boundary, or is kept for the context image; a run that is over ends with 0 and frees its stripes (R188, R206, R212, R218, R302, R323, R326, R327; log 27). -/
def Sys2Proof.Says.RunsScroll : Prop :=
  ∀ (s : State) (run : Nat) (r : Run) (v : Launch), Table.find run s.runs = some r → Table.find r.launch s.launches = some v →
    (boundaryReady s r = true → r.image.pinned = true → r.vcount ≤ r.step + 1 → firstInLine s r = true →
      Gives (.scrollStepBoundary run) s (fun t => ∃ q, Table.find run t.runs = some q ∧ q.step = r.vcount ∧ q.stepOpen = false)) ∧
    (∀ x o b im f u, stripeOfVs s run 0 = some x → r.status = .running → r.eosGiven = false → sourceOf (s.stripe x).image = some (o, im) →
      r.image.pinned = false → burstAt r (s.stripe x) = some b → fifoOfRun s r r.inFifo = some f → s.oper? x o = some u → r.lastBurst ≠ some b →
      r.wavesOf b ≠ r.waves → let n := im.accessBytes
      let held := sourceHeld s x o
      waveReady r f n b held = true →
      let last := (f.eos && decide (f.wpos - f.rpos < (held + 2) * n)) || r.wavesOf b + 1 == r.waves
      Gives (.waveDelivery run) s (fun t => (∃ q, Table.find run t.runs = some q ∧ q.waveNext = r.waveNext + 1) ∧
        ∃ w, t.oper? x o = some w ∧ Table.getD w.inputs 0 [] = Table.getD u.inputs 0 []
          ++ [{ Token.blank with iter := BitVec.ofNat 10 r.waveNext, eod := if last then 1 else 0 }])) ∧
    (r.status = .stopping → ((r.image.pinned = true ∨ r.stepOpen = false ∨ r.stepDue ≤ s.time) ∧ atBoundary s r = true ∨
        r.haltCause = some cDEADLOCK ∧ accessesDone s r = true) →
      (haltKeeps v r = true → Gives (.runHalt run) s (fun t => Table.find run t.runs = some { r with status := .halted })) ∧
      (haltKeeps v r = false → Gives (.runHalt run) s (fun t => (∃ q, Table.find run t.runs = some q ∧ q.status = .ended ∧
        q.result = r.haltCause.getD cSTOPPED ∧ q.endTime = s.time) ∧ ∀ p ∈ t.stripes, p.2.run ≠ some run))) ∧
    (r.status = .running → pinnedEnded s r = true ∨ (pinnedEnded s r = false ∧ scrollEnded s r = true ∧ ∀ x ∈ r.stripes, leftover (s.stripe x) = none) →
      Gives (.runEnd run) s (fun t => (∃ q, Table.find run t.runs = some q ∧ q.status = .ended ∧ q.result = 0 ∧ q.endTime = s.time) ∧
        ∀ p ∈ t.stripes, p.2.run ≠ some run))

/-! ## Traffic under way, faults, engines -/

/-- A posted store is performed at its home after the earlier ones of its continuation to the same bytes; a reduction of die shared memory is performed
there, one of HBM enters its stack's write queue, and the queue applies it later (R131, R138, R258, R293). -/
def Sys2Proof.Says.PostedAccessesArePerformed : Prop :=
  ∀ (s : State) (k stack : Nat) (p : PostedStore) (r : PostedRed), s.Inv →
    let frame := fun (t : State) =>
      t = { s with
        posted := t.posted
        reds := t.reds
        wqueue := t.wqueue
        mem := t.mem
        writes := t.writes
        writeSeq := t.writeSeq
        errors := t.errors
        releases := t.releases }
    let result := fun (q : PostedRed) => leBytes q.bytes (aopApply q.aop q.bytes (leNat (peek s q.pa q.bytes)) (q.value.toNat % 2 ^ (8 * q.bytes)) 0)
    (s.posted[k]? = some p → (∀ q ∈ s.posted.take k, ¬(q.owner = p.owner ∧ overlap q.pa q.data.length p.pa p.data.length = true)) →
      onDevice p.pa = true → touchHeap p.pa s = s → s.wqueue = [] → writeFails s p.pa p.data.length = false →
      Gives (.postedStorePerform k) s (fun t => t.posted = dropAt s.posted k ∧ Stores p.pa p.data s t ∧ frame t)) ∧
    (s.reds[k]? = some r → (∀ q ∈ s.reds.take k, ¬(q.owner = r.owner ∧ overlap q.pa q.bytes r.pa r.bytes = true)) →
      (∀ die off, locOf r.pa = .dsm die off → readFails s r.pa r.bytes = false →
        Gives (.postedReductionPerform k) s (fun t => t.reds = dropAt s.reds k ∧ Stores r.pa (result r) s t ∧ frame t)) ∧
      (∀ j off, locOf r.pa = .hbm j off → Table.getD s.wqueue j [] = [] →
        Gives (.postedReductionPerform k) s (fun t => t.reds = dropAt s.reds k ∧ Table.getD t.wqueue j [] = [⟨r.pa / 64 * 64, r.aop, r.bytes, [r]⟩] ∧
          t.mem = s.mem ∧ frame t))) ∧
    (Table.getD s.wqueue stack [] = [⟨r.pa / 64 * 64, r.aop, r.bytes, [r]⟩] → readFails s r.pa r.bytes = false →
      Gives (.writeQueueApply stack) s (fun t => Table.getD t.wqueue stack [] = [] ∧ Stores r.pa (result r) s t ∧ frame t))

/-- A replayable fault of a core or of a fabric unit names its unit, its reason, the level of the walk and its class.  It gets a record with these, laid out as
R272 says, in a free slot of its launch while the launch is placed: in mode 1 a continuation of priority 1 begins at the launch's fault handler with the record's
address in g1, in mode 2 the host is told in the next notice of its fault ring; a response of 1 lets the access replay and frees the slot.  An uncorrectable error stays while writes cover its
unit in part, which change nothing, and ends with a write that covers it whole (R272 to R274, R277, R372). -/
def Sys2Proof.Says.FaultsAreServed : Prop :=
  ∀ (s : State) (k launch die slot : Nat) (f : PendingFault) (v : Launch),
    (s.faults[k]? = some f → f.slot = none → f.launch = launch → Table.find launch s.launches = some v → sameRecord s v.part f = none →
      v.status = .placed → Table.firstFree (v.die f.die).slots 64 = slot → slot < 64 → reportRoom s f v = true →
      let written := fun (t : State) => (∃ w, Table.find launch t.launches = some w ∧ Table.find slot (w.die f.die).slots = some [f.va / 4096, f.cls, 0])
        ∧ t.faults = s.faults.mapIdx (fun i g => if i = k then { g with slot := some (64 * launch + slot) } else g)
      let pa := svcPa (v.die f.die) (32 * slot)
      (v.fmode = 1 → s.th.id ≠ s.nextThread → Gives (.faultRecordWrite k) s (fun t => written t ∧ t.nextThread = s.nextThread + 1 ∧
        ∃ h, Table.find s.nextThread t.threads = some h ∧ h.pc = v.faultH ∧ h.launch = some launch ∧ h.die = f.die ∧ h.prio = true ∧
          h.phase = v.phase ∧ h.status = .queued ∧ h.cont = 0 ∧
          ∀ r : Reg, h.regs[r] = if r = 1 then v.svcBase + BitVec.ofNat 64 (65536 * f.die + 32 * slot) else 0)) ∧
      (v.fmode = 2 → Gives (.faultRecordWrite k) s (fun t => written t ∧ (t.part v.part).frWr = (s.part v.part).frWr + 1 ∧
        ∃ a, (4 ≤ (s.part v.part).frLog → (s.part v.part).frLog ≤ 16 →
            a = (s.part v.part).frBase.toNat + 32 * ((s.part v.part).frWr.toNat % 2 ^ (s.part v.part).frLog)) ∧
          t.hostOut = .msix v.part 64 :: .write v.part a (wordBytes [v.svcBase + BitVec.ofNat 64 (65536 * f.die + 32 * slot), BitVec.ofNat 64 f.va, 1, 0])
          :: s.hostOut)) ∧
      (v.fmode = 1 ∨ v.fmode = 2 → s.Inv → writeFails s pa 32 = false → Gives (.faultRecordWrite k) s (fun t =>
        ∀ a, t.mem.read a = if pa ≤ a ∧ a < pa + 32 then nth (wordBytes [BitVec.ofNat 64 f.va,
          BitVec.ofNat 64 (f.unit + f.reason * 2 ^ 8 + f.level * 2 ^ 4 + f.cls), 0, 0]) (a - pa) 0 else s.mem.read a))) ∧
    (∀ va c reason level ex l, faultMode s l ≠ 0 → s.th.launch = some l → s.core < 64 →
      (pageFault va c reason level ex s).faults = s.faults ++ [⟨l, s.th.die, .thread s.th.id, va.toNat, reason, level, c.code,
        s.th.die * 2 ^ 29 + s.core / 2 % 4 * 2 ^ 27 + 28 * 2 ^ 18 + s.core % 8 * 2 ^ 15, none⟩]) ∧
    (∀ x agent part l, stripePart s x = some (part, l) → x < 512 → agent < 28 → faultMode s l ≠ 0 → ∀ n t va c reason level s1,
      translateSpan s part va n c = (.fault reason level, s1) → s1.launches = s.launches → s1.runs = s.runs → s1.stripes = s.stripes → s1.faults = s.faults →
      fabricTranslate x agent slot t va n c s = .stop { s1 with faults := s.faults ++ [⟨l, x / 64, if agent < 16 then .elem x agent else .oper x (agent - 16),
        va.toNat, reason, level, c.code, x / 64 * 2 ^ 29 + x / 16 % 4 * 2 ^ 27 + x % 16 * 2 ^ 23 + agent * 2 ^ 18, none⟩] }) ∧
    (Table.find launch s.launches = some v → (Table.find slot (v.die die).slots).isSome = true →
      leNat (peek s (svcPa (v.die die) (32 * slot + 24)) 1) % 4 = 1 →
      Gives (.faultResolve launch die slot) s (fun t =>
        t.faults = s.faults.filter (fun g => !(g.die == die && g.slot == some (64 * launch + slot))) ∧
        (∃ w, Table.find launch t.launches = some w ∧ (w.die die).slots = Table.erase slot (v.die die).slots) ∧ t.mem = s.mem)) ∧
    (∀ addr, onDevice addr = true → Gives (.uncorrectableError 0 addr) s (fun t =>
      (0, (unitOf addr).1) ∈ t.errors ∧ t = { s with errors := t.errors })) ∧
    (∀ addr, addr < 2 ^ 27 → Gives (.uncorrectableError 1 addr) s (fun t => (1, addr / 8 * 8) ∈ t.errors ∧ t = { s with errors := t.errors }) ∧
      Gives (.uncorrectableError 2 addr) s (fun t => (2, addr / 8 * 8) ∈ t.errors ∧ t = { s with errors := t.errors })) ∧
    (∀ w u, s.inbound[k]? = some w → w.sent = true → (∀ e ∈ s.inbound.take k, ¬(e.req % 2 ^ 16 = w.req % 2 ^ 16 ∧ e.route = w.route)) → s.wqueue = [] →
      (0, u) ∈ s.errors → (unitOf u).1 = u →
      (writeFails s w.pa w.data.length = false → w.pa ≤ u → u + (unitOf u).2 ≤ w.pa + w.data.length →
        Gives (.inboundWritePerform k) s (fun t => (0, u) ∉ t.errors)) ∧
      (writeFails s w.pa w.data.length = true → Gives (.inboundWritePerform k) s (fun t => t.errors = s.errors ∧ t.mem = s.mem)))

/-- A copy moves its next chunk of at most 4 KiB: where nothing races with it and it keeps nothing back for the next chunk, the bytes of each piece's
source then stand at its destination, and all other memory is as before.  Its record follows the last chunk; a SEGLD delivers its record; a signal is stored once what was issued
before it is visible (R152, R156, R165, R168). -/
def Sys2Proof.Says.EnginesEnd : Prop :=
  ∀ (s s1 : State) (job l : Nat) (c : CopyJob) (ps : List CopyPiece) (g : SegLoad) (h : Handle) (v : Launch) (j : FlushJob),
    (s.copies.find? (fun d => d.id == job) = some c → copyEnabled s c = true → let m := min 4096 (c.total - c.done)
      let c1 := c.begin s
      translateChunk c1 (copyPieces c1 m c1.done m) (mapCopy job (fun _ => c1) s) = (.ok ps, s1) → chunkError s1 c1 ps = none →
      Gives (.copyChunk job) s (fun t => (∃ d, t.copies.find? (fun d => d.id == job) = some d ∧ d.started = true ∧ d.done = c.done + m ∧ d.chunk = c.chunk + 1) ∧
        (s1.Inv → s1.wqueue = [] → s1.writes = [] → c.fixed = [] → c.tail = none → (∀ p ∈ ps, onDevice p.dst = true) →
          ps.Pairwise (fun p q => p.dst + p.len ≤ q.dst ∨ q.dst + q.len ≤ p.dst) →
          ((c.done + m) % c.len = 0 ∨ ∀ p, ps.getLast? = some p → (p.dst + p.len) % 8 = 0) →
          ∀ a, t.mem.read a = match ps.find? (fun p => decide (p.dst ≤ a) && decide (a < p.dst + p.len)) with
            | some p => guardByte s1 a (s1.mem.read (p.src + (a - p.dst)))
            | none => s1.mem.read a))) ∧
    (s.copies.find? (fun d => d.id == job) = some c → c.frozen = false → c.placement = none → c.finished = none → c.verify = false → c.total ≤ c.done →
      (∀ e ∈ s.copies, ¬(e.id < c.id ∧ e.die = c.die ∧ e.queue = c.queue ∧ e.core = c.core ∧ e.launch = c.launch ∧ e.ordered = true ∧ c.ordered = true)) →
      let rest := { s with copies := s.copies.filter (fun d => d.id != job) }
      (c.norec = true → Gives (.copyComplete job) s (fun t => t = rest)) ∧
      (c.norec = false → Gives (.copyComplete job) s (fun t => t = deliverWith c.core c.owner 1 c.ticket.toNat 0 c.tag (BitVec.ofNat 64 c.done) 0
        (c.after.add (copyOwner c.id + 1) s.writeSeq) rest))) ∧
    (s.segLoads.find? (fun d => d.id == job) = some g → Table.find g.launch s.launches = some v → Table.find g.handle (v.die g.die).handles = some h →
      h.checked = true → launchOfThread s g.owner = some (some l) →
      Gives (.segldComplete job) s (fun t => t.segLoads = s.segLoads.filter (fun d => d.id != job) ∧
        (t.ctxAt (some l) g.core).events = (s.ctxAt (some l) g.core).events
          ++ [⟨g.owner, 2, BitVec.ofNat 8 h.status, BitVec.ofNat 16 g.handle, (s.ctxAt (some l) g.core).seq, 0, h.arg1, 0, View.zero⟩])) ∧
    (s.Inv → s.flushes.find? (fun d => d.id == job && !d.done) = some j →
      s.posted = [] → s.reds = [] → s.wqueue = [] → s.outbound = [] →
      (∀ th, s.thread? j.owner = some th → th.redErr = [] ∧ th.stErr = []) → onDevice j.pa = true →
      writeFails s j.pa 8 = false →
      Gives (.flsigComplete job) s (fun t => Stores j.pa (leBytes 8 j.value.toNat) s t ∧
        (j.wait = true → t.flushes = s.flushes.map (fun d => if d.id = job then { d with done := true, failed := false } else d)) ∧
        (j.wait = false → t.flushes = s.flushes.filter (fun d => d.id != job) ∧ (∀ m, launchOfThread s j.owner = some m →
          (t.ctxAt m j.core).events = (s.ctxAt m j.core).events ++ [⟨j.owner, 3, 0, j.ticket, (s.ctxAt m j.core).seq, 0, j.addr, j.value, View.zero⟩]))))

/-! ## Pre-emption and probes -/

/-- A launch whose parties have all halted is halted, and the KIND 5 record of each PREEMPT follows it to its issuer; CTXSAVE writes the image and frees
the stripes, or only gives its size; CTXREST places the launch again (R327 to R331; the sections of the image are the choice of log 13). -/
def Sys2Proof.Says.ContextsAreSavedAndRestored : Prop :=
  ∀ (s s1 : State) (l : Nat) (v : Launch) (j : CtxJob) (ctx : SavedContext) (k size c o m : Nat) (tk : BitVec 16),
    (Table.find l s.launches = some v → v.status = .halting → haltOver s l = true → v.held = false → v.result = 0 →
      Gives (.preemptHalted l) s (fun t => (∃ w, Table.find l t.launches = some w ∧ w.status = .halted ∧ w.preempt = []) ∧
        (v.preempt = [(c, o, tk)] → launchOfThread s o = some m → (t.ctxAt m c).events = (s.ctxAt m c).events ++
          [⟨o, 5, 0, BitVec.ofNat 16 tk.toNat, (s.ctxAt m c).seq, 0, v.ident, 0, View.zero⟩]))) ∧
    (Table.find l s.launches = some v → s.ctxJobs.find? (fun i => !i.restore && i.launch == l) = some j →
      let bytes := imageSize (sectionSizes s l v)
      (j.addr = 0 → Gives (.ctxsaveComplete l) s (fun t => t = endCtx j v.ident 0 bytes { s with draws := s.draws + 1 })) ∧
      (j.addr ≠ 0 → v.status = .saving → rectError s v = false → Gives (.ctxsaveComplete l) s (fun t =>
        match writeVirtual v.part (bytes / 4096 + 2) j.addr (contextImage s l v s.draws).1 { s with draws := s.draws + 1 } with
        | (none, s2) => Table.find l s2.launches = some v →
          (∃ w, Table.find l t.launches = some w ∧ w.status = .saved ∧ w.digest = some (contextImage s l v s.draws).2) ∧
          (∃ c, Table.find l t.saved = some c ∧ c.stripes = launchStripes s2 l) ∧
          t.stripes = s2.stripes.filter (fun p => (Table.find p.1 (launchStripes s2 l)).isNone)
        | (some cause, s2) => t = endCtx j v.ident cause bytes (s2.mapLaunch l (fun x => { x with status := .halted }))))) ∧
    (s.ctxJobs.find? (fun i => i.restore && i.launch == k) = some j → findImage j.addr s.launches s = (.saved l v 0 size, s1) →
      rectFree s1 v.xbase v.xext = true → Table.find l s1.saved = some ctx →
      Gives (.ctxrestComplete k) s (fun t => t = endCtx j v.ident 0 size (restoreContext l v ctx s1)))

/-- A unit blocked for another 20 us sends a probe along each edge; a blocked unit that has not seen a probe sends it on with its own identifier and wait
code, one hop further (R300, R301). -/
def Sys2Proof.Says.ProbesTravel : Prop :=
  ∀ (s : State) (unit code k : Nat) (p : Party) (e : Epoch) (edges : List Party) (b : Probe),
    (partyOfKey s unit = some p → Table.find unit s.epochs = some e → waitOf s p = some (code, edges) → e.active = true →
      e.since + 20000 * (e.round + 1) ≤ s.time →
      Gives (.probeRound unit) s (fun t => t.probes = s.probes ++ edges.map (fun q =>
          ⟨unit, e.number, e.round % 256, 1, partyKey s q, [(unit, code)], unit / 2 ^ 48 - 1⟩) ∧
        Table.find unit t.epochs = some { e with round := e.round + 1 })) ∧
    (s.probes[k]? = some b → let s1 := { s with probes := dropAt s.probes k }
      partyOfKey s1 b.target = some p → waitOf s1 p = some (code, edges) → b.target ≠ b.origin → b.target % 2 ^ 48 ≤ b.origin % 2 ^ 48 →
      let seen := Table.getD s.epochs b.target Epoch.none
      (b.origin, b.epoch, b.round) ∉ seen.seen → b.hops ≠ 1023 →
      Gives (.probeReceive k) s (fun t => t.probes = dropAt s.probes k ++ edges.map (fun q =>
          ⟨b.origin, b.epoch, b.round, b.hops + 1, partyKey s q, b.path ++ [(b.target, code)], b.launch⟩) ∧
        Table.find b.target t.epochs = some { seen with seen := (b.origin, b.epoch, b.round) :: seen.seen })) ∧
    (s.probes[k]? = some b → let s1 := { s with probes := dropAt s.probes k }
      partyOfKey s1 b.target = some p → waitOf s1 p = some (code, edges) → b.target = b.origin → b.hops ≠ 1023 →
      b.epoch = (Table.getD s.epochs b.target Epoch.none).number → (Table.getD s.epochs b.target Epoch.none).active = true →
      Gives (.probeReceive k) s (fun t => t = detect p (b.target / 2 ^ 48 - 1) b s1))

/-! ## Placement -/

/-- A window boundary moves the averages on and clears the counters; an addition leaves QUEUED with a slot and a copy, a retirement for PUBLISH; a good copy goes on to PUBLISH;
publication creates the next version of the expert's entry, which adds the location under the lowest LOC that is not valid or clears the retired one, and the
header of that version; a drained retirement is done (R182, R342, R346, R347, R352 to R354). -/
def Sys2Proof.Says.PlacementActionsRun : Prop :=
  ∀ (s : State) (part act : Nat) (pol : Policy) (a : Action) (r : Region) (c : CopyJob), let pl := (s.part part).place
    (pl.policy = some pol → pl.nextAt ≤ s.time → pl.pending = none → pol.enable = false →
      Gives (.placementWindowBoundary part) s (fun t => ∀ x e, Table.find x pl.experts = some e →
        ∃ e', Table.find x (t.part part).place.experts = some e' ∧ e'.count = [] ∧ ∀ d, d < 8 →
          Table.getD e'.avg d 0 = (Table.getD e.avg d 0 - Table.getD e.avg d 0 / 8 + 32 * Table.getD e.count d 0) % 2 ^ 64)) ∧
    (action? s part act = some a → pl.policy = some pol → s.table? part = some r → a.state = .queued → a.issue = act → s.wqueue = [] →
      (pl.actions.filter (fun b => b.state != .queued)).length < pol.maxAct →
      (∀ b ∈ pl.actions.takeWhile (fun b => b.issue != act), b.expert ≠ a.expert ∧
        (b.state = .queued → ∃ e ∈ pl.actions.takeWhile (fun e => e.issue != b.issue), e.expert = b.expert)) →
      homeLost s r = false → (∀ u ∈ (r.gran (a.expert + 1)).versions, heapFails s r (a.expert + 1) u.1 = false) →
      ∀ ws s1, entryWords r a.expert (r.gran 0).latest s = (ws, s1) → s1.parts = s.parts →
      (∀ k w, a.add = false → (locations ws).find? (fun m => m.2 == a.die) = some (k, w) → k ≠ 0 → Gives (.placementCheck part act) s (fun t =>
        action? t part act = some { a with state := .publish, loc := k, slot := locAddr (nth ws k 0) })) ∧
      ∀ e slot, a.add = true → Table.find a.expert pl.experts = some e → (∀ w ∈ locations ws, w.2 ≠ a.die) → replicaCount ws < pol.maxRep → freeSlot s1 part a.die ((e.size + 4095) / 4096 * 4096) = some slot →
      Gives (.placementCheck part act) s (fun t => action? t part act = some { a with state := .copy, slot := slot } ∧
        ∃ d, t.copies = s1.copies ++ [d] ∧ d.src = e.addr ∧ d.dst = BitVec.ofNat 64 slot ∧ d.len = e.size ∧ d.placement = some act ∧
          d.die = locDie (nth ws 0 0) ∧ d.expected = e.digest)) ∧
    (∀ s1, action? s part act = some a → a.issue = act → s.copies.find? (fun d => d.part == part && d.placement == some act) = some c → c.finished = none →
      c.total ≤ c.done → placementOutcome c s = ((0, 0), s1) → s1.parts = s.parts →
      Gives (.placementCopyEnd part act) s (fun t => action? t part act = some { a with state := .publish, view := a.view.add (copyOwner c.id + 1) s1.writeSeq } ∧
        t.copies = s1.copies.filter (fun d => d.id != c.id))) ∧
    (action? s part act = some a → s.table? part = some r → a.state = .publish → s.parked = [] → part ≠ 16 →
      (∀ b ∈ pl.actions.takeWhile (fun b => b.issue != act), b.state = .drain) → publicationFrozen s part = false →
      depthFree r (tableFloor s part r) 0 = true → depthFree r (tableFloor s part r) (a.expert + 1) = true →
      let next := (r.gran 0).latest + 1
      (∀ u ∈ (r.gran 0).versions ++ (r.gran (a.expert + 1)).versions, u.1 < next) → homeLost s r = false → (∀ u ∈ (r.gran (a.expert + 1)).versions, heapFails s r (a.expert + 1) u.1 = false) →
      heapFails s r (a.expert + 1) next = false → heapFails s r 0 next = false →
      ∀ ws s1 loc, entryWords r a.expert (r.gran 0).latest s = (ws, s1) →
      (if a.add then loc < 8 ∧ (nth ws loc 0).testBit 5 = false ∧ ∀ k, k < loc → (nth ws k 0).testBit 5 = true else loc = a.loc) →
      let word := if a.add then a.die * 2 ^ 61 + 8 * 2 ^ 57 + a.slot % 2 ^ 57 / 64 * 64 + 2 ^ 5 else 0
      let kind := if a.add then 1 else if a.urgent then 3 else 2
      let header := [loc * 2 ^ 21 + a.die * 2 ^ 18 + kind * 2 ^ 16 + a.expert, s.time, 0, 0, 0, 0, 0, 0]
      let bytes := fun (xs : List Nat) => wordBytes (xs.map (BitVec.ofNat 64))
      Gives (.placementPublish part act) s (fun t => tableVersion t part = next ∧ (∃ y, t.table? part = some y ∧
          Table.find next (y.gran (a.expert + 1)).versions = some (bytes (ws.set loc word)) ∧ Table.find next (y.gran 0).versions = some (bytes header)) ∧
        (a.add = false → action? t part act = some { a with state := .drain, loc := loc, arg2 := BitVec.ofNat 64 next }))) ∧
    (action? s part act = some a → s.table? part = some r → a.state = .drain →
      (∀ w ∈ partWindows s part, ¬(w.expert = a.expert ∧ w.loc = a.loc)) → routesReached s part a.arg2.toNat r = true →
      Gives (.placementDrainEnd part act) s (fun t => t = endAction part a 0 a.arg2 (s.mapPlace part (fun p =>
        { p with slots := p.slots.filter (fun z => !(z.1 == a.die && z.2.1 == a.slot)) }))))

/-! ## Queues and launches -/

/-- Writes of a queue's registers, the fetch of a packet in order, the code objects, and the completion of packets with their entry (R308 to
R314).  That ring sizes are clamped, that a queue fetches only with ENABLE 1 and that CQWR rises where the entry cannot be written are the choice of log 19. -/
def Sys2Proof.Says.QueuesAreServed : Prop :=
  ∀ (s : State) (part req q obj i : Nat) (v : Word) (ws : List Word), part < 16 → q < 64 → let x := s.queue part q
    let p := s.part part
    let packetDone := fun (t : State) => (t.queue part q).live = x.live.filter (fun y => y.1 != i) ∧ (t.queue part q).cqwr = x.cqwr + 1
    (vfOn s part = true → p.tdi = 2 → req < 2 ^ 16 → s.inbound = [] →
      Gives (.sqwrWrite part req q v) s (fun t => t.queue part q = { x with sqwr := v } ∧ t = { s with parts := t.parts }) ∧
      (x.state = qDISABLED → Gives (.queueEnable part req q) s (fun t => t.queue part q = { x with enable := true, state := qACTIVE })) ∧
      (x.live = [] → x.state = qACTIVE ∨ x.state = qQUIESCED ∨ x.state = qOVERRUN →
        Gives (.queueDisable part req q) s (fun t => t.queue part q = { x with enable := false, state := qDISABLED })) ∧
      Gives (.queueReset part req q) s (fun t => t.queue part q = { x with state := qRESETTING })) ∧
    (x.state = qRESETTING → x.live = [] → Gives (.queueResetComplete part q) s (fun t => t.queue part q =
      { x with sqrd := x.sqwr, state := if x.enable then qACTIVE else qDISABLED })) ∧
    (p.tdi = 2 → fetchOn s = true → x.state = qACTIVE → x.enable = true → x.sqwr ≠ x.sqrd → (x.sqwr - x.sqrd).toNat ≤ ringEntries x.sqlog →
      x.live.length + (x.cqwr - x.cqrd).toNat < ringEntries x.cqlog →
      Gives (.packetFetch part q) s (fun t => (t.queue part q).sqrd = x.sqrd + 1 ∧ t.nextLaunch = s.nextLaunch + 1 ∧
        ∃ ws l, (t.queue part q).live = x.live ++ [(x.sqrd.toNat, ws, l)])) ∧
    (headPacket s part q = some (i, ws) →
      (pktType ws ≠ 2 → pktType ws ≠ 3 → Gives (.nopPacket part q) s packetDone) ∧
      (∀ pa s1, pktType ws = 4 → s.Inv → let status := if pktReserved ws then 0 else cILLOP
        let entry := wordBytes [nth ws 1 0, 0, BitVec.ofNat 64 (status * 2 ^ 16 + 4 * 2 ^ 8), BitVec.ofNat 64 i]
        let va := x.cqbase + BitVec.ofNat 64 (32 * (x.cqwr.toNat % ringEntries x.cqlog))
        translateRaw s part va .write = (.ok pa, s1) → va.toNat % 4096 + 32 ≤ 4096 → s1.Inv → s1.parts = s.parts →
        (onDevice pa = true → s1.wqueue = [] → writeFails s1 pa 32 = false → Gives (.nopPacket part q) s (fun t => packetDone t ∧
          t.hostOut = .msix part q :: s1.hostOut ∧ ∀ a, t.mem.read a = if pa ≤ a ∧ a < pa + 32 then nth entry (a - pa) 0 else s1.mem.read a)) ∧
        (∀ h, locOf pa = .host h → Gives (.nopPacket part q) s (fun t => packetDone t ∧ t.mem = s1.mem ∧
          t.hostOut = .msix part q :: .write part (pa % 2 ^ 51) entry :: s1.hostOut))) ∧
      (∀ r s1 n t, pktType ws = 2 → pktReserved ws = true → (nth ws 3 0).toNat % 4096 = n → n ≠ 0 →
        readVirtual part .read [] (16 * n / 4096 + 2) (nth ws 2 0) (16 * n) s = ((r, none), s1) → objectTable (bytesWords (2 * n) r) = some t →
        s1.parts = s.parts → Table.find (pktObj ws) p.objects = none →
        (∀ e ∈ t, ∀ o ∈ p.objects, Table.find e.1 o.2.table = none) →
        Gives (.loadobj part q) s (fun u => packetDone u ∧ Table.find (pktObj ws) (u.part part).objects = some ⟨t, ws.drop 4, false⟩ ∧
          pktObj ws ∈ (u.queue part q).refs)) ∧
      (pktType ws = 3 → pktReserved ws = true → pktObj ws ∈ x.refs →
        Gives (.unloadobj part q) s (fun u => packetDone u ∧ pktObj ws ∉ (u.queue part q).refs))) ∧
    (∀ o, Table.find obj p.objects = some o → o.removing = true → referenced s part obj = false → handleHeld s part (o.table.map (·.1)) = false →
      Gives (.objectRemove part obj) s (fun t => (t.part part).objects = Table.erase obj p.objects ∧ t.mem = s.mem))

/-- A launch packet that passes its checks waits for its rectangle, and completes with the status of the check that it fails; a placed launch runs its root
continuation at its entry; a launch that has ended completes; a launch that exceeds its limit halts with TIMEOUT (R315 to R317, R394). -/
def Sys2Proof.Says.LaunchesRun : Prop :=
  ∀ (s : State) (part q i l x : Nat) (v : Launch) (ws : List Word) (before : List (Nat × List Word × Option Nat)) (svc : Table (List Nat)),
    (nextLaunchPacket s part q = some (before, i, ws, l) → mayStart s before i (bit (nth ws 0 0).toNat 48) = true → (s.part part).tdi = 2 →
      (launchStatus s part q ws = 0 → Gives (.launch part q) s (fun t => t = s.setLaunch l (launchOf part q i ws))) ∧
      (launchStatus s part q ws ≠ 0 → Gives (.launch part q) s (fun t => t =
        completePacket part q i (nth ws 1 0) 0 (pktType ws) (launchStatus s part q ws) false s))) ∧
    (Table.find l s.launches = some v → v.status = .checked → (s.part v.part).tdi = 2 → startsNow s v = true → rectangleFor s v = some x →
      (∀ w ∈ startable s, placedFirst s w (l, v) = true → rectangleFor s w.2 = none) →
      launchHasDie { v with xbase := x } v.rootDie = true → launchWindows s { v with xbase := x } = some svc →
      s.th.id ≠ s.nextThread →
      Gives (.launchPlacement l) s (fun t => (∃ w, Table.find l t.launches = some w ∧ w.status = .placed ∧ w.xbase = x ∧ w.placedAt = s.time ∧
          w.ident = BitVec.ofNat 64 (v.part * 2 ^ 32 + (s.part v.part).placedCnt % 2 ^ 32)) ∧
        ∃ n, Table.find s.nextThread t.threads = some n ∧ n.launch = some l ∧ n.pc = v.entry ∧ n.die = v.rootDie ∧ n.root = true ∧
          n.regs[(1 : Fin 32)] = v.arg ∧ n.phase = 0 ∧ n.status = .queued)) ∧
    (Table.find l s.launches = some v → v.heldOwed = false → v.status = .placed ∨ (v.status = .halting ∧ v.held = false ∧ v.result ≠ 0) →
      launchDone s l v = true → Gives (.launchComplete l) s (fun t => t = endPacket v v.result false (eraseLaunch l s))) ∧
    (Table.find l s.launches = some v → v.heldOwed = true → v.status ≠ .halting →
      Gives (.launchComplete l) s (fun t => t = endPacket v v.result true (s.setLaunch l { v with heldOwed := false }))) ∧
    (Table.find l s.launches = some v → v.status = .placed → (s.part v.part).limit ≠ 0 →
      v.placedAt + (s.part v.part).limit * 1000000 ≤ s.time →
      Gives (.launchWatchdogExpiry l) s (fun t => ∃ w, Table.find l t.launches = some w ∧ w.status = .halting ∧ w.result = cTIMEOUT ∧ w.held = false))

/-! ## The host, TDISP and Umeno -/

/-- The partition registers, invalidations, the accepted set, the assignment block and the device identifier, whose measured
bytes are the choice of log 21; that the registers take writes in any state of the TDI but where a rule names one is that of log 22 (R365, R369, R371, R375,
R376, R391, R395, R399). -/
def Sys2Proof.Says.RegistersAreWritten : Prop :=
  ∀ (s : State) (part req i k : Nat) (v : Word), vfOn s part = true → req < 2 ^ 16 → s.inbound = [] → let p := s.part part
    Gives (.invalidationStart part req v) s (fun t => t = s.setPart part { p with
      invals := p.invals ++ [⟨v, p.invVa.toNat / 4096, p.invPages.toNat⟩] }) ∧
    (∀ n rest, p.invals = n :: rest → accessUnderWay s part n = false → Gives (.invalidationComplete part) s (fun t =>
      (t.part part).invals = rest ∧ (t.part part).invDone = n.seq ∧ t.tlb = s.tlb.filter (fun e => !n.drops part e) ∧ t.mem = s.mem)) ∧
    (p.tdi = 0 → p.accept.length = 4 → k < 4 → Gives (.featacceptWrite part req k v) s (fun t =>
      nth (t.part part).accept k 0 = (if k = 0 then (v &&& 0x3F) ||| 1 else 0))) ∧
    (p.tdi ≠ 0 → k < 4 → Gives (.featacceptWrite part req k v) s (fun t => t = s)) ∧
    (i < 64 → Gives (.streamEntryWrite part req i v) s (fun t => Table.find i (t.part part).streams =
      some ⟨0, v.toNat / 2 ^ 26 % 16, v.toNat % 2 ^ 22, 0, 0, none⟩)) ∧
    (partPlaced s part = false → Gives (.registerWrite (some part) req 0x1080 v) s (fun t => t = s.setPart part { p with
      ptroot := BitVec.ofNat 64 (v.toNat / 4096 % 2 ^ 40 * 4096) })) ∧
    (k < 32 → Gives (.registerWrite none req (0x100 + 8 * k) v) s (fun t =>
      Table.find k t.io.budgetIn = some (max 1 (v.toNat % 2 ^ 40)) ∧ t.io.budget = s.io.budget)) ∧
    (let a := p.assign.write k v;
      p.tdi = 0 → a.aligned = true → (∀ z ∈ s.parts, z.1 ≠ part → a.overlaps z.2.assign = false) →
      (∀ d, d < 8 → available s d = true ∨ p.assign.names a k d = false) →
      Gives (.assignmentBlockWrite part k v) s (fun t => (t.part part).assign = a)) ∧
    ((∀ z ∈ s.parts, z.2.tdi ≠ 1 ∧ z.2.tdi ≠ 2) → Gives (.devidWrite v) s (fun t => t.io.devid = v.setWidth 22 ∧
      measurement t 11 = sha384 (measurement s 11 ++ leBytes 48 (v.toNat % 2 ^ 22))))

/-- The states of a TDI: LOCK measures the interface and derives the wrapping key, which is computed after the standards that R382 names (log 10), START lets it
run, ERROR erases its keys, STOP clears it and unlocks it in one step (the choice of log 20; R370, R380, R382).  GET_VERSION and GET_MEASUREMENTS are answered
with the measurement registers of R381, in messages whose codes and layouts the spec does not print and the model takes from DSP0274 (log 9; R380, R381). -/
def Sys2Proof.Says.InterfacesChangeState : Prop :=
  ∀ (s : State) (part : Nat) (secret request : List Byte), let p := s.part part
    (vfOn s part = true → p.tdi = 0 → Gives (.lockInterface part secret) s (fun t => (t.part part).tdi = 1 ∧ (t.part part).wrapKey = some (wrappingKey s.io.spdm.version secret part) ∧
      measurement t (12 + part) = sha384 (measurement s (12 + part) ++ sha384 (Config.interfaceReport part p.assign s.io.devid p.accept)))) ∧
    (vfOn s part = true → p.tdi = 1 → Gives (.startInterface part) s (fun t => t = s.setPart part { p with tdi := 2 })) ∧
    (vfOn s part = true → p.tdi = 1 ∨ p.tdi = 2 → Gives (.tdiError part) s (fun t => (t.part part).tdi = 3 ∧ (t.part part).memKey = none ∧ (t.part part).wrapKey = none ∧
      ∀ z ∈ (t.part part).streams, z.2.key = none)) ∧
    (vfOn s part = true → p.tdi ≠ 0 → Gives (.stopInterface part) s (fun t => (t.part part).tdi = 0 ∧ (t.part part).memKey = none ∧ (t.part part).wrapKey = none ∧
      (t.part part).objects = [] ∧ ∀ j off, j < 16 → off < 2 ^ 36 → bit (Table.getD p.assign.hbm j 0).toNat (off / 2 ^ 30) = true →
        t.mem.read (j * 2 ^ 36 + off) = 0)) ∧
    (nth request 1 0 = 0x84 → Gives (.spdmRequest request) s (fun t => t.spdmOut = [0x10, 0x04, 0, 0, 0, 2, 0x00, 0x12, 0x00, 0x13] :: s.spdmOut ∧
      t.io.measure = s.io.measure ∧ t.parts = s.parts ∧ t.mem = s.mem)) ∧
    (s.io.stopped = true → nth request 1 0 ≠ 0x84 → Gives (.spdmRequest request) s (fun t => t = s)) ∧
    (∀ k, k < 32 → s.io.stopped = false → nth request 0 0 = 0x12 ∨ nth request 0 0 = 0x13 → nth request 1 0 = 0xE0 → bit (nth request 2 0).toNat 0 = false →
      nth request 3 0 = BitVec.ofNat 8 (k + 1) → let r := measurement s k
      Gives (.spdmRequest request) s (fun t => t.io.measure = s.io.measure ∧ ∃ rest, t.spdmOut = ([s.io.spdm.version, 0x60, 0, 0, 1] ++
        leBytes 3 (r.length + 7) ++ [BitVec.ofNat 8 (k + 1), 1] ++ leBytes 2 51 ++ [if k = 0 then 0 else 1] ++ leBytes 2 48 ++ r ++ rest) :: s.spdmOut))

/-- Inbound writes are translated at the I/O die and performed at their home in the order of their requester; reads and AtomicOps are performed after its
earlier writes (R359 to R361, R364, R367). -/
def Sys2Proof.Says.InboundAccesses : Prop :=
  ∀ (s s1 : State) (part req off n k pa : Nat) (va operand compare : Word) (data : List Byte) (w : Inbound),
    (windowTlp s part off data.length = true → windowTakes s part req = true → data.length ≤ 512 → windowVa s part off = some va →
      windowPa s part va data.length .write = (.ok pa, s1) → s1.inbound = [] → Gives (.inboundWrite part req off data) s (fun t => t = { s1 with
        inbound := [⟨part, req, some (homeDie pa), pa, va.toNat, data, none, true, false⟩] })) ∧
    (s.inbound[k]? = some w → w.sent = false → w.reg = none → (∀ e ∈ s.inbound.take k, e.req % 2 ^ 16 ≠ w.req % 2 ^ 16) →
      Gives (.inboundWriteRelease k) s (fun t => t = { s with inbound := s.inbound.set k { w with sent := true, held := false } })) ∧
    (s.Inv → s.inbound[k]? = some w → w.sent = true → (∀ e ∈ s.inbound.take k, ¬(e.req % 2 ^ 16 = w.req % 2 ^ 16 ∧ e.route = w.route)) → s.wqueue = [] →
      onDevice w.pa = true → writeFails s w.pa w.data.length = false →
      Gives (.inboundWritePerform k) s (fun t => Stores w.pa w.data s t ∧ t.inbound = dropAt s.inbound k ∧
        Table.getD (t.part w.part).acks (w.route.getD 0) 0 = Table.getD (s.part w.part).acks (w.route.getD 0) 0 + 1)) ∧
    (windowTlp s part off n = true → windowTakes s part req = true → (∀ e ∈ s.inbound, e.req % 2 ^ 16 ≠ req % 2 ^ 16) → windowVa s part off = some va →
      (windowPa s part va n .read = (.ok pa, s1) → touchHeap pa s1 = s1 → s1.wqueue = [] → readFails s1 pa n = false →
        Gives (.inboundRead part req off n) s (fun t => t = { s1 with hostIn := peek s1 pa n :: s1.hostIn })) ∧
      (s1.Inv → windowPa s part va n .rw = (.ok pa, s1) → s1.wqueue = [] → readFails s1 pa n = false → n = 4 ∨ n = 8 → off % n = 0 →
        let old := leNat (peek s1 pa n)
        let low := fun (u : Word) => u.toNat % 2 ^ (8 * n)
        let does := fun (op new : Nat) => Gives (.inboundAtomic part req off n op operand compare) s (fun t =>
          Stores pa (leBytes n new) s1 t ∧ t.hostIn = peek s1 pa n :: s1.hostIn)
        does 0 ((old + low operand) % 2 ^ (8 * n)) ∧ does 1 (low operand) ∧ does 2 (if old = low compare then low operand else old)))

/-- A flit that its peer seals under the key of an OPEN stream, of the expected sequence number, is performed at its address and acknowledged with no
cause, or refused and acknowledged with the cause; a flit that does not verify, or is not the next, makes its stream fail; one that names no stream, or a partition
that has no such stream, is discarded; an acknowledgement ends its window writes, or makes them fail with its cause; a lost one makes the stream fail (R377 to R379).  The layout of
the payload is the model's choice (log 15). -/
def Sys2Proof.Says.UmenoFlits : Prop :=
  ∀ (s s1 : State) (part stream pa : Nat) (x : Stream) (key flit : List Byte) (h : FlitHead) (f : FlitBody) (cause : Nat) (va : Word),
    s.stream? part stream = some x → x.key = some key → key.length = 32 → x.state = 1 → h.dest = s.io.devid →
    h.src.toNat = x.peer → h.stream.toNat = stream → flitStreams s h = [(part, x)] → x.txseq + 1 < 2 ^ 64 - 1 →
    let comes := fun (bs : List Byte) (post : State → Prop) => ∀ header payload tag, header ++ payload ++ tag = bs →
      Gives (.umenoFlitReceive header payload tag) s post
    let answers := fun (bs : List Byte) (post : State → Prop) => ∀ seq ident payload tag, seq ++ ident ++ payload ++ tag = bs →
      Gives (.umenoAckReceive seq ident payload tag) s post
    let sealed := sealFlit key h f.bytes
    let fails := fun (t : State) => t = s.setStream part stream { x with state := 2 }
    let u := s.setStream part stream { x with rxseq := x.rxseq + 1 }
    let ack := fun (c : Nat) => sealFlit key ⟨h.src, s.io.devid, h.stream, 2, BitVec.ofNat 64 x.txseq⟩
      (FlitBody.bytes ⟨BitVec.ofNat 8 x.ppart, BitVec.ofNat 8 c, h.seq, []⟩)
    (FlitHead.read (flit.take 16) = h → openFlit key flit = none →
      (h.type ≠ 2 → comes flit fails) ∧ (h.type = 2 → answers flit fails)) ∧
    (f.part.toNat = part → f.data.length ≤ 208 →
      (h.seq.toNat ≠ x.rxseq → (h.type ≠ 2 → comes sealed fails) ∧ (h.type = 2 → answers sealed fails)) ∧
      (h.seq.toNat = x.rxseq →
        (h.type = 0 → f.code = 0 → f.data ≠ [] → windowPa u part f.addr f.data.length .write = (.ok pa, s1) → s1.Inv → touchHeap pa s1 = s1 →
          s1.wqueue = [] → s1.parts = u.parts → s1.umenoOut = s.umenoOut → s1.io = s.io → writeFails s1 pa f.data.length = false →
          comes sealed (fun t => Stores pa f.data s1 t ∧ t.umenoOut = ack 0 :: s.umenoOut ∧
            t.stream? part stream = some { x with rxseq := x.rxseq + 1, txseq := x.txseq + 1 })) ∧
        (h.type = 0 → f.data ≠ [] → windowPa u part f.addr f.data.length .write = (.error (cause, va), s1) → s1 = u → noticeRoom u part = false →
          comes sealed (fun t => t.mem = s.mem ∧ t.umenoOut = ack cause :: s.umenoOut ∧ (t.part part).drop = (s.part part).drop + 1 ∧
            t.stream? part stream = some { x with rxseq := x.rxseq + 1, txseq := x.txseq + 1 })) ∧
        (h.type = 2 →
          let mine := fun (w : WindowWrite) => w.part == part && w.stream == stream && w.seq == f.addr.toNat
          (f.code = 0 → answers sealed (fun t => t.outbound = s.outbound.filter (fun w => !mine w) ∧ t.mem = s.mem ∧
            t.stream? part stream = some { x with rxseq := x.rxseq + 1 })) ∧
          (f.code ≠ 0 → answers sealed (fun t =>
            t = { u with outbound := s.outbound.map (fun (w : WindowWrite) => if mine w then { w with failed := true } else w) }))))) ∧
    (f.part.toNat ≠ part → f.data.length ≤ 208 → (h.type ≠ 2 → comes sealed (fun t => t = s)) ∧ (h.type = 2 → answers sealed (fun t => t = s))) ∧
    (∀ g : FlitHead, FlitHead.read (flit.take 16) = g → g.dest = s.io.devid → flitStreams s g = [] →
      (g.type ≠ 2 → comes flit (fun t => t = s)) ∧ (g.type = 2 → answers flit (fun t => t = s))) ∧
    (∀ w ∈ s.outbound, w.part = part → w.stream = stream → w.failed = false → Gives (.umenoAckTimeout part stream) s (fun t =>
      t.stream? part stream = some { x with state := 2 } ∧ ∀ y ∈ t.outbound, y.part = part → y.stream = stream → y.failed = true))

/-! ## The device -/

/-- A device reset runs the boot ROM's steps, on memory that reads zero (log 6); the sixteenth failure on end of the tag of a star link, or of a bridge, makes its die LOST, and so
does a failure of its firmware; after a missed first heartbeat boot tries the other slot and then runs without a scheduler, a slot switch is rolled
back, with no deadline after it (log 25), and any other image is started again; a deadline that is reached has passed (log 25); an energy window gives
every ring its budget (R374, R387, R389, R392, R393, R395). -/
def Sys2Proof.Says.DeviceEvents : Prop :=
  ∀ (s : State) (die t0 : Nat) (flits : List (List Byte)),
    Gives .deviceReset s (fun t => t.io.booted = true ∧ t.launches = [] ∧ t.parts = [] ∧ t.mem = ⟨[], [], []⟩ ∧
      (t.io.stopped = true ∨ t.io.stage = 6 ∨ t.io.nosched = true)) ∧
    (available s die = true → s.parts = [] → s.parked = [] → s.launches = [] →
      let lost := fun (t : State) => t = { s with io := { s.io with dieState := Table.set die 4 s.io.dieState } }
      Gives (.dieFirmwareFault die) s lost) ∧
    (available s die = true → Gives (.dieFirmwareFault die) s (fun t => available t die = false)) ∧
    (∀ bridge : Bool, die < 8 → (bridge = true → die ≠ 0) → let link := if bridge then 8 + die else die
      (∀ f ∈ flits, linkFlitGood (Table.getD s.io.linkKeys link []) f = false) → let n := Table.getD s.io.linkFails link 0 + flits.length
      let failed := if flits = [] then s else { s with io := { s.io with linkFails := Table.set link n s.io.linkFails } }
      (n < 16 → Gives (.dieLinkDown ⟨die, bridge, flits⟩) s (fun t => t = failed)) ∧
      (n = 16 → flits ≠ [] → Gives (.dieLinkDown ⟨die, bridge, flits⟩) s (fun t => available t die = false))) ∧
    (∀ other, s.io.watch = .boot t0 (some other) → t0 ≤ s.time → Gives .firstHeartbeatDeadline s (fun t => t.io.fwslot = other ∧
      t.io.hbeat = 0 ∧ t.io.watch = .boot (s.time + 10000000) none)) ∧
    (s.io.watch = .boot t0 none → t0 ≤ s.time → Gives .firstHeartbeatDeadline s (fun t => t.io.nosched = true)) ∧
    (∀ old, s.io.watch = .first t0 (some old) → t0 ≤ s.time → Gives .firstHeartbeatDeadline s (fun t => t.io.fwslot = old ∧ t.io.watch = .off)) ∧
    (∀ fallback, s.io.watch = .first t0 fallback ∨ s.io.watch = .boot t0 fallback → s.time < t0 → Gives .firstHeartbeatDeadline s (fun t => t = s)) ∧
    (s.io.watch = .beating t0 → t0 ≤ s.time → Gives .heartbeatDeadline s (fun t => t.io.fwslot = s.io.fwslot ∧ t.io.hbeat = 0)) ∧
    (s.io.energyAt < s.time / 1000000 → Gives .energyWindowBoundary s (fun t => t.io.energy = [] ∧ t.io.budgetIn = [] ∧
      t.io.energyAt = s.time / 1000000 ∧ ∀ r, ringEnergy t r = ringBudget t r))
/-! ## The machine as a whole -/

/-- The machine right after reset: management core 0 runs and no other core does, BOOTSTAT reads 0, every TDI is unlocked, every queue is DISABLED, the
accepted set is the base feature, the masks are those of R28, memory reads zero (the choice of log 6) and is in its canonical form (R28, R253,
R308, R370, R389, R390, R399). -/
def Sys2Proof.Says.ResetState : Prop :=
  let s := State.reset
  s.Inv ∧ s.core = 64 ∧ s.th.status = .running 64 ∧ (∀ c, (s.coreAt c).running = if c = 64 then some 0 else none) ∧
  bootstat s.io = 0 ∧ (∀ p, (s.part p).tdi = 0 ∧ (s.part p).accept = [1, 0, 0, 0] ∧ (s.part p).memKey = none) ∧
  (∀ p q, (s.queue p q).state = qDISABLED ∧ (s.queue p q).enable = false) ∧ (∀ j, khmask s j = 0xFFFF80000) ∧ (∀ a, s.mem.read a = 0) ∧
  s.launches = [] ∧ s.io.booted = false

/-- A step runs the decoded instruction.  A core that runs a continuation fetches the word at its PC and executes the instruction that the word decodes
to, and the end-of-pass check follows; a word that decodes to none traps, with ILLOP but for VFLOOR of op 3; a breakpoint traps first; a fetch that fails
traps; after any of them what has come to block opens its epoch. -/
def Sys2Proof.Says.StepRunsDecodedInstruction : Prop :=
  ∀ (s : State) (rest : List Pick) (c tid : Nat), c < 68 →
    let s0 := { s with agenda := rest, core := c, ir := 0 }
    let s1 := s0.focus tid
    (s.agenda = .core c :: rest ∨ (s.agenda = [] ∧ rest = [] ∧ s.core = c ∧ s.io.booted = true)) →
    (s0.coreAt c).running = some tid → s1.th.id = tid → s1.th.status = .running c →
    (∀ w0 w1 s2 i, breakpointHit s1 = none → fetchInstr s1 = .ok (w0, w1) s2 → decodeWord w0 w1 = some i →
      step s = withEpochs (retire (exec i (s2.issueWord w0)))) ∧
    (∀ w0 w1 s2, breakpointHit s1 = none → fetchInstr s1 = .ok (w0, w1) s2 → decodeWord w0 w1 = none →
      step s = withEpochs (.next (undefinedTrap w0 s2)) ∧
      (vfloorOp3 w0 = false → undefinedTrap w0 s2 = trap cILLOP (BitVec.ofNat 64 (BitVec.ofNat 32 w0).toNat) (s2.issueWord w0))) ∧
    (∀ s2, breakpointHit s1 = none → fetchInstr s1 = .stop s2 → step s = withEpochs (.next s2)) ∧
    (∀ b, breakpointHit s1 = some b → step s = withEpochs (.next (trap cBRKPT (BitVec.ofNat 64 (0x100 + b)) s1)))

/-- A step lets an element issue or an event take place, as the agenda says (log 2): an element's instruction executes on its instances, eight at
most, and, where its results find room, that is the step. -/
def Sys2Proof.Says.StepRunsIssuesAndEvents : Prop :=
  ∀ (s : State) (rest : List Pick), let s0 := { s with agenda := rest }
    (∀ x e i s1 s2, s.agenda = .issue x e :: rest → gather 8 x e s0 = (some i, s1) → exec i s1 = .next s2 → leftOver x e s2 = [] →
      step s = withEpochs (.next (s2.mapElem x e (fun v => { v with stuck := [] })))) ∧
    (∀ x e s1, s.agenda = .issue x e :: rest → gather 8 x e s0 = (none, s1) → step s = withEpochs (.next s1)) ∧
    (∀ i, s.agenda = .event i :: rest → step s = withEpochs (exec i s0)) ∧
    (∀ ns, s.agenda = .tick ns :: rest → step s = withEpochs (.next (tick ns s0))) ∧
    (s.agenda = [] → s.io.booted = false → step s = withEpochs (exec .deviceReset s))

/-- The word that a core fetches at an address, where its buffers hold none, is the four bytes that stand there, lowest byte first; an instruction is
the word at PC, with the next word for a long form (R5, R31, R119). -/
def Sys2Proof.Says.FetchReadsTheWord : Prop :=
  ∀ (s s1 : State) (va : Word) (pa : Nat),
    (Table.find (fetchKey s va) (s.coreAt s.core).fetched = none →
      (inLoopBuffer s va = true → Table.find va.toNat (s.coreAt s.core).body = none) → translateAt va .fetch 0 s = .ok pa s1 →
      onDevice pa = true → s1.wqueue = [] → readFails s1 pa 4 = false →
      ∃ t, fetchWord va s = .ok (BitVec.ofNat 32 (leNat (peek s1 pa 4))) t ∧ t.th = s1.th ∧ t.mem = s1.mem) ∧
    (∀ w0, fetchWord s.th.pc s = .ok w0 s1 →
      (w0.toNat / 2 ^ 26 ≠ 0x3F → fetchInstr s = .ok (w0.toNat, 0) s1) ∧
      (w0.toNat / 2 ^ 26 = 0x3F → ∀ w1 s2, fetchWord (s.th.pc + 4) s1 = .ok w1 s2 → fetchInstr s = .ok (w0.toNat, w1.toNat) s2))

/-- Words of the spec's worked encodings decode to the instructions that they stand for (R16 to R25, R30 to R34), and a word of no encoding to
none. -/
def Sys2Proof.Says.WordsDecode : Prop :=
  decodeWord 0x00221801 0 = some (.add 1 2 3) ∧ decodeWord 0x04A6FFFE 0 = some (.addi 5 6 0xFFFE) ∧ decodeWord 0x84000000 0 = some .nop ∧
  decodeWord 0xFCE00000 0x12345678 = some (.li 7 0x12345678) ∧ decodeWord 0xFCA60800 0x00010000 = some (.addiL 5 6 0x10000) ∧
  decodeWord 0x5420FFFD 0 = some (.bne 1 0 0xFFFD) ∧ decodeWord 0x6C1F0000 0 = some (.jalr 0 31 0) ∧
  decodeWord 0x24C227FF 0 = some (.ldn 6 2 0 0x7FF) ∧ decodeWord 0x30E8B800 0 = some (.stl 7 8 5 3 0) ∧
  decodeWord 0x4085362C 0 = some (.amoadd 4 5 6 3 3) ∧ decodeWord 0x44095570 0 = some (.redfaddF32 9 10 4) ∧
  decodeWord 0x800000A3 0 = some (.fence 5 3) ∧ decodeWord 0x84000412 0 = some (.trap 0x12) ∧ decodeWord 0x84601002 0 = some (.krd 3 2) ∧
  decodeWord 0x90A604E0 0 = some (.segrun 5 6 7) ∧ decodeWord 0x98220460 0 = some (.evwait 1 2 3) ∧
  decodeWord 0xFC852000 0x00001000 = some (.copyi 4 5 0x1000) ∧ decodeWord 0xA0820460 0 = some (.vst 4 2 3) ∧
  decodeWord 0xB0A60400 0 = some (.ctxrest 5 6) ∧ decodeWord 0x84A02001 0 = some (.enrd 5 1) ∧ decodeWord 0x84000001 0 = none ∧
  decodeElem 0x01600000833000000505050505050505 = some (.elemAdd ⟨1, true, false, 0, 0, 0, false, 0x8330, 0, 0x0505050505050505⟩) ∧
  decodeElem 0x0C600000A000000000000014FFFFFFEC = some (.clamp ⟨1, true, false, 0, 0, 0, false, 0xA000, 0, 0x00000014FFFFFFEC⟩) ∧
  decodeElem 0x4E600000852800003F80000040000000 = some (.ffma .f32 ⟨1, true, false, 0, 0, 0, false, 0x8528, 0, 0x3F80000040000000⟩) ∧
  decodeElem 0x834000008040A0000000000000000C01 = some (.tinc ⟨1, false, false, 0, 0, 0, false, 0x8040, 0xA000, 0xC01⟩) ∧
  decodeElem 0x924B0000941000008000000001004000 = some (.tcfg ⟨1, false, false, 11, 0, 0, false, 0x9410, 0, 0x8000000001004000⟩) ∧
  decodeElem 0xA8800000941095100000000000000810 = some (.mmg ⟨2, false, false, 0, 0, 0, false, 0x9410, 0x9510, 0x810⟩) ∧
  decodeElem 0x01671002811000000000000100000000 = some (.elemAdd ⟨1, true, false, 7, 1, 1, false, 0x8110, 0, 0x100000000⟩)

/-- Decoding the encoded words of a well-formed control-core instruction gives it back, whatever follows it (R30 to R35). -/
def Sys2Proof.Says.ControlWordsRoundTrip : Prop :=
  ∀ (i : Instr) (w : Nat) (rest : List Byte), i.wf = true → encode i = some w → encodedBytes i ≤ 8 →
    decodeAny 8 w = some i ∧ (encodedBytes i = 8 ∨ 4 ≤ rest.length → decodeBytes (encodeBytes i ++ rest) = some (i, rest))

/-- Decoding the encoded word of a well-formed element instruction gives it back, with every field of its word (R16 to R25). -/
def Sys2Proof.Says.ElementWordsRoundTrip : Prop :=
  ∀ (i : Instr) (w : Nat), i.wf = true → encode i = some w → encodedBytes i = 16 → w < 2 ^ 128 ∧ decodeElem w = some i

/-- Every step keeps memory in its canonical form. -/
def Sys2Proof.Says.MemoryStaysCanonical : Prop :=
  ∀ (s t : State), s.Inv → step s = .next t → t.Inv

/-- What the fabric's sending leaves alone: everything but the stripe that sends. -/
def Sys2Proof.Says.SendingKeepsTheRest : Prop :=
  ∀ (s : State) (x e o : Nat) (v : Elem) (w : Oper) (ts : List Token),
    (let t := flushOut x e (s.setElem x e v); t = { s with stripes := t.stripes } ∧ ∀ y, y ≠ x → t.stripe y = s.stripe y) ∧
    (let t := operSend x o ts (s.setOper x o w); t = { s with stripes := t.stripes } ∧ ∀ y, y ≠ x → t.stripe y = s.stripe y)

/-- Events that store nothing leave all of memory and every continuation, with its registers, as they were. -/
def Sys2Proof.Says.EventsKeepMemoryAndThreads : Prop :=
  ∀ (s t : State) (i : Instr) (x o k part req q : Nat) (v : Word) (bs bs1 bs2 bs3 : List Byte),
    i ∈ [.joinFire x o, .accumCombine x o k, .loopEntry x o, .mergeForward x o, .routeAcknowledgement x o, .agenEmit x o, .operatorEosForward x o,
      .waveDelivery k, .uncorrectableError k o, .probeRound k, .sqwrWrite part req q v, .queueEnable part req q, .queueDisable part req q,
      .queueReset part req q, .queueResetComplete part q, .objectRemove part k, .invalidationStart part req v, .invalidationComplete part,
      .featacceptWrite part req k v, .streamEntryWrite part req k v, .registerWrite (some part) req k v, .registerWrite none req k v, .devidWrite v,
      .lockInterface part bs, .startInterface part, .spdmRequest bs, .inboundWriteRelease k, .umenoAckReceive bs bs1 bs2 bs3, .umenoAckTimeout part q,
      .energyWindowBoundary] →
    exec i s = .next t → t.mem = s.mem ∧ t.th = s.th ∧ t.threads = s.threads

/-- Control-core instructions that store nothing, with nothing under way and a handler installed, leave all of memory and every general register but
their destination as they were, whether they complete, block or trap. -/
def Sys2Proof.Says.NonStoringInstructionsKeepTheRest : Prop :=
  ∀ (s t : State) (d a b : Reg) (l : Nat) (r : BitVec 4) (die scope classes : BitVec 3) (size sel : BitVec 2) (off : BitVec 11) (k : BitVec 10)
    (x y : Bool) (len : BitVec 32) (i : Instr),
    Quiet s → s.parked = [] → s.core < 64 → s.th.launch = some l → s.th.inTrap = false → s.th.trapVec ≠ 0 → exec i s = .next t →
    (i ∈ [.nop, .kwr a k, .cspawn a b die x y, .cyield, .rgset a b r, .segstop a, .cfginv a, .pbinv a, .plpol a, .vdrop a, .vfloorRaise d a b,
        .vfloorDeregister d a b, .fence scope classes] → t.mem = s.mem ∧ RegsKept s t) ∧
    (i ∈ [.ld d a size off, .ldn d a size off, .lda d a scope size off, .krd d k, .cyc d, .cycCore d, .enrd d sel, .featrd d a, .featrdOffer d a,
        .evpop d 0, .evpeek d 0, .evwait d 0 b, .rgtake d r, .segld d a, .segrun d a b, .segwait d a 0, .strbind d a, .strfree d a, .copy d a,
        .copyi d a len, .flsig d a b, .flsigW d a b, .exstat d a b sel, .plrep d a b, .plret d a b, .plretUrgent d a b, .plsync d, .vstat d a sel,
        .vfloorRegister d a b, .phase d] → t.mem = s.mem ∧ ∀ q, q ≠ d → t.g q = s.g q)
/-! ## The obligations -/

/-- The ALU register forms of two sources and of one write what R120 gives, and nothing else changes. -/
def Obligations.AluRegisterForms : Prop :=
  Says.AluRegisterForms ∧ Says.AluUnaryForms

/-- Division never traps: it saturates, with remainder 0 where it does (R121). -/
def Obligations.DivisionSaturates : Prop :=
  Says.DivisionSaturates

/-- The short and long immediate forms (R122, R123). -/
def Obligations.ImmediateForms : Prop :=
  Says.ImmediateForms

/-- Conditional branches, JAL, JAL.L and JALR (R124, R125). -/
def Obligations.BranchesAndJumps : Prop :=
  Says.ConditionalBranches ∧ Says.JumpsAndLinks

/-- REP starts a loop, skips an empty one, or traps ILLOP (R126, R128). -/
def Obligations.RepStartsALoop : Prop :=
  Says.RepStartsALoop

/-- The check at the end of a pass (R127). -/
def Obligations.LoopEndOfPass : Prop :=
  Says.LoopEndOfPass

/-- Taking a trap, on a core and in the fabric, and its record (R118, R323 to R326).  What happens to management code without a handler is the model's
choice (log 12). -/
def Obligations.TrapEntry : Prop :=
  Says.TrapEntry ∧ Says.TrapsAreRecorded

/-- TRAP, BRK and RFT (R142, R143). -/
def Obligations.TrapAndReturn : Prop :=
  Says.TrapAndReturn

/-- KRD and KWR, register by register (R28, R29, R144, R263, R264). -/
def Obligations.ControlRegisters : Prop :=
  Says.ControlRegisterReads ∧ Says.ControlRegisterWrites

/-- Where instructions trap PRIV, ILLOP or ALIGN with nothing done (R28, R36, R117, R383). -/
def Obligations.RefusedInstructions : Prop :=
  Says.PrivilegedTrapsOnControlCores ∧ Says.LaunchInstructionsTrapOnManagementCores ∧ Says.MisalignedAccessTraps

/-- NOP, CINVAL, CYC, ENRD and FEATRD (R142, R146, R147, R184). -/
def Obligations.SystemReads : Prop :=
  Says.SystemReads

/-- LD, LDN and LDA (R130, R133). -/
def Obligations.LoadsReadMemory : Prop :=
  Says.LoadsReadMemory

/-- ST and STL at home and away (R130 to R132). -/
def Obligations.StoresWriteMemory : Prop :=
  Says.StoresWriteMemory ∧ Says.StoresElsewhereArePosted

/-- LDM and STM (R134). -/
def Obligations.LoadAndStoreMultiple : Prop :=
  Says.LoadAndStoreMultiple

/-- The AMOs (R135, R136). -/
def Obligations.AtomicsReadModifyWrite : Prop :=
  Says.AtomicsReadModifyWrite

/-- The REDs (R138). -/
def Obligations.ReductionsArePosted : Prop :=
  Says.ReductionsArePosted

/-- FENCE, PHASE and BAR (R139 to R141). -/
def Obligations.FencePhaseBar : Prop :=
  Says.FencePhaseBar

/-- EVPOP, EVPEEK and EVWAIT, and the delivery of records (R150 to R154). -/
def Obligations.EventRecords : Prop :=
  Says.EventRecordsAreHandedOver ∧ Says.RecordsAreDelivered

/-- CSPAWN, CJOIN, CEXIT and CYIELD (R170 to R172). -/
def Obligations.Continuations : Prop :=
  Says.SpawnCreatesAContinuation ∧ Says.JoinCountsDown ∧ Says.ExitAndYield

/-- RGSET and RGTAKE (R173). -/
def Obligations.RangesAreSharedOut : Prop :=
  Says.RangesAreSharedOut

/-- SEGLD, SEGRUN, SEGSTOP, SEGWAIT, CFGINV, STRBIND and STRFREE (R156 to R162). -/
def Obligations.SegmentInstructions : Prop :=
  Says.SegmentInstructions ∧ Says.FifosAndConfigurations

/-- COPY, COPYI, PBINV and FLSIG (R163, R164, R168). -/
def Obligations.CopiesAndSignals : Prop :=
  Says.CopiesAndSignals

/-- VDECL, VDROP and VFLOOR, which registers a reader under the lowest free number, the choice of log 58 (R175, R177, R178). -/
def Obligations.RegionsAndFloors : Prop :=
  Says.RegionsAreDeclaredAndDropped ∧ Says.FloorsAreKept

/-- VST, VLD, VLDL and VSTAT (R176, R178). -/
def Obligations.VersionInstructions : Prop :=
  Says.VersionStoresCreate ∧ Says.VersionLoadsAndStatus

/-- PLPOL, EXREG, EXSTAT, PLREP, PLRET and PLSYNC; that EXSTAT reads 0 of an expert that is not registered is the choice of log 61 (R180 to R183, R342,
R351). -/
def Obligations.PlacementInstructions : Prop :=
  Says.PlacementIsSetUp ∧ Says.PlacementActionsAreQueued

/-- PREEMPT, CTXSAVE, CTXREST, QQUIESCE and QRESUME (R185, R310, R327 to R331). -/
def Obligations.ManagementInstructions : Prop :=
  Says.PreemptionInstructions ∧ Says.QueuesAreQuiesced

/-- FWSTAGE, FWVERIFY, MEASURE, SLOTSW, HBEAT and KEYLD (R185, R382, R384 to R386). -/
def Obligations.FirmwareAndKeys : Prop :=
  Says.FirmwareInstructions ∧ Says.KeysAreLoaded

/-- The end of waits, the dispatch of continuations and the phase boundary (R140, R149, R153, R219, R285, R320). -/
def Obligations.WaitsAndDispatch : Prop :=
  Says.WaitsEnd ∧ Says.CoresTakeContinuations ∧ Says.PhaseBoundaryAdvances

/-- Operands of element instructions, and the integer and saturating lanes (R17, R22, R46 to R49, R56). -/
def Obligations.ElementIntegers : Prop :=
  Says.ElementOperands ∧ Says.ElementIntegerLanes ∧ Says.ElementSaturation

/-- Logic, shifts, counts, compares, select and lane movement (R50 to R59, R66, R73). -/
def Obligations.ElementBits : Prop :=
  Says.ElementBitLanes ∧ Says.ElementLaneMovement

/-- Floating lanes, conversions, folds and special functions (R60 to R68, R70, R72). -/
def Obligations.ElementFloats : Prop :=
  Says.ElementFloatLanes ∧ Says.ElementConversionsAndFunctions

/-- What floating lanes compute: NaNs, arithmetic rounded once, comparison, conversion, the sums of memory, minimum and maximum, and the special functions where
R71 fixes a value or R70 a bound (R60 to R63, R65, R67, R68, R70, R71, R137, R238, R240). -/
def Obligations.FloatCorners : Prop :=
  Says.NansAreCanonical ∧ Says.ArithmeticRoundsOnce ∧ Says.ComparisonsOrderNumbers ∧ Says.ConversionsRoundOnce ∧ Says.MemorySumsRoundOnce ∧
    Says.MinimumAndMaximum ∧ Says.SpecialFunctionValues ∧ Says.SpecialFunctionBounds

/-- The tag and flow instructions, and the refusal of tile handles (R39, R73 to R76). -/
def Obligations.TagAndFlow : Prop :=
  Says.TagAndFlowInstructions ∧ Says.HandlesAreRefused

/-- The tile instructions, AFMT and WLATCH, and the checks of their registers (R82 to R90). -/
def Obligations.TileInstructions : Prop :=
  Says.TileInstructions ∧ Says.TileRegistersAreChecked

/-- ACFG, the MMAs and MMG (R90 to R98). -/
def Obligations.MatrixInstructions : Prop :=
  Says.MatrixInstructions

/-- The sums of the matrix path: the ternary path is exact, the scaled path rounds once (R94 to R96, R240). -/
def Obligations.TernarySumsAreExact : Prop :=
  Says.TernarySumsAreExact ∧ Says.MatrixSumsRoundOnce ∧ Says.StochasticSumsDrawOnce

/-- Tokens arrive, MMG copies its operands, and streams end (R38, R98, R101, R112, R204, R208, R214 to R217, R224, R225, R305). -/
def Obligations.TokensArriveAndEnd : Prop :=
  Says.TokensArrive ∧ Says.MmgCopiesOperands ∧ Says.ElementsEndTheirStream ∧ Says.OperatorsEndTheirStream

/-- AGEN and LOAD of every space (R102 to R104, R254, R256). -/
def Obligations.LoadOperators : Prop :=
  Says.AgenEmitsAddresses ∧ Says.LoadOperators ∧ Says.BufferLoads ∧ Says.MemoryAndFifoLoads

/-- STORE and ATOMIC, whose returned value is sign-extended (log 28) (R105, R106, R201, R256). -/
def Obligations.StoreOperators : Prop :=
  Says.StoreOperators ∧ Says.FifoAppends ∧ Says.AtomicOperators

/-- SEND and completion tokens (R102, R106, R107). -/
def Obligations.SendOperators : Prop :=
  Says.SendOperators ∧ Says.CompletionTokens

/-- VLOAD and VSTORE, whose completion has VALUE 1 (log 28) (R108, R295). -/
def Obligations.VersionOperators : Prop :=
  Says.VersionOperators

/-- JOIN, ACCUM, LOOP and MERGE; which release count an ACCUM uses is the choice of log 29, EOD 0 of the exit token of a LOOP that of log 57 (R109 to
R112). -/
def Obligations.StreamOperators : Prop :=
  Says.StreamOperators

/-- ROUTE and its selection of a location (R113, R349, R357). -/
def Obligations.RouteOperators : Prop :=
  Says.LocationsAreSelected ∧ Says.RouteOperators

/-- The scroll controller: the start of a run, its steps, its waves, its halt and its end (R157, R188, R197, R202, R206, R207, R209, R212, R218, R302,
R326, R327; when a blocked or preempted run halts, log 27). -/
def Obligations.RunsScroll : Prop :=
  Says.RunsStart ∧ Says.StepsCross ∧ Says.RunsScroll

/-- Posted stores, reductions and the write queues (R131, R138, R258, R293). -/
def Obligations.PostedAccesses : Prop :=
  Says.PostedAccessesArePerformed

/-- The fault service and uncorrectable errors (R272 to R274, R277, R372). -/
def Obligations.FaultsAreServed : Prop :=
  Says.FaultsAreServed

/-- Copies, segment loads and signals end (R152, R156, R165, R168). -/
def Obligations.EnginesEnd : Prop :=
  Says.EnginesEnd

/-- Pre-emption, context images with the sections of log 13, and probes (R300, R301, R327 to R331). -/
def Obligations.ContextsAndProbes : Prop :=
  Says.ContextsAreSavedAndRestored ∧ Says.ProbesTravel

/-- Equinox's actions (R182, R342, R346, R347, R352 to R354). -/
def Obligations.PlacementActionsRun : Prop :=
  Says.PlacementActionsRun

/-- Submission queues and their packets, with the corners that log 19 settles (R308 to R314). -/
def Obligations.QueuesAreServed : Prop :=
  Says.QueuesAreServed

/-- Launches: their checks, placement, completion and watchdog (R315 to R319, R326, R394). -/
def Obligations.LaunchesRun : Prop :=
  Says.LaunchesRun

/-- The partition's registers, the states of a TDI and SPDM, with the choices of logs 9, 10, 20, 21 and 22: the SPDM codes and layouts, the key's computation, STOP
in one step, the measured bytes, the TDI state of register writes (R365, R369 to R371, R375, R376, R380 to R382, R395, R399). -/
def Obligations.HostRegisters : Prop :=
  Says.RegistersAreWritten ∧ Says.InterfacesChangeState

/-- Inbound accesses and Umeno flits, whose payload is laid out as log 15 chooses (R359 to R361, R364, R367, R377 to R379). -/
def Obligations.InboundAndUmeno : Prop :=
  Says.InboundAccesses ∧ Says.UmenoFlits

/-- Reset, lost dies, heartbeats, energy windows, with the choices of logs 6 and 25 (R374, R387, R389, R392, R393, R395). -/
def Obligations.DeviceEvents : Prop :=
  Says.DeviceEvents

/-- The machine right after reset; that memory then reads zero is the choice of log 6 (R28, R253, R308, R370, R389, R390, R399). -/
def Obligations.ResetState : Prop :=
  Says.ResetState

/-- A step runs the decoded instruction of a core, the issue of an element, or an event (R31, R36, R119, R127, R145; log 2). -/
def Obligations.StepRunsDecodedInstruction : Prop :=
  Says.StepRunsDecodedInstruction ∧ Says.StepRunsIssuesAndEvents ∧ Says.FetchReadsTheWord

/-- Words written out from the encodings decode to their instructions (R16, R24, R30 to R34). -/
def Obligations.WordsDecode : Prop :=
  Says.WordsDecode

/-- Decoding an encoded well-formed instruction gives it back (R16 to R25, R30 to R35). -/
def Obligations.WordsRoundTrip : Prop :=
  Says.ControlWordsRoundTrip ∧ Says.ElementWordsRoundTrip

/-- Every step keeps memory in its canonical form. -/
def Obligations.MemoryStaysCanonical : Prop :=
  Says.MemoryStaysCanonical

/-- What sending, the events that store nothing and the instructions that store nothing leave unchanged (R43, R117). -/
def Obligations.InstructionsKeepTheRest : Prop :=
  Says.SendingKeepsTheRest ∧ Says.EventsKeepMemoryAndThreads ∧ Says.NonStoringInstructionsKeepTheRest
end

