-- ==== Sys2Proof/Laws/Table.lean ====
section
/-!
SUPPORT. Laws of tables: reading after setting, erasing and mapping.
-/

namespace Sys2Proof

variable {α β : Type}

@[simp] theorem Table.find_nil (k : Nat) : Table.find k ([] : Table α) = none := rfl

@[simp] theorem Table.getD_nil (k : Nat) (d : α) : Table.getD ([] : Table α) k d = d := rfl

@[simp] theorem Table.find_set_self (k : Nat) (v : α) (t : Table α) : Table.find k (Table.set k v t) = some v := by
  induction t with
  | nil => simp [Table.set, Table.find]
  | cons p t ih =>
    obtain ⟨j, w⟩ := p
    simp only [Table.set]
    split
    · simp [Table.find]
    · split
      · simp [Table.find]
      · simp [Table.find, *]

theorem Table.find_set_ne {j k : Nat} (h : j ≠ k) (v : α) (t : Table α) : Table.find j (Table.set k v t) = Table.find j t := by
  induction t with
  | nil => simp [Table.set, Table.find, Ne.symm h]
  | cons p t ih =>
    obtain ⟨i, w⟩ := p
    simp only [Table.set]
    split
    · subst i; simp [Table.find, Ne.symm h]
    · split
      · simp [Table.find, Ne.symm h]
      · simp [Table.find, ih]

theorem Table.find_set (j k : Nat) (v : α) (t : Table α) : Table.find j (Table.set k v t) = if j = k then some v else Table.find j t := by
  split
  · subst j; exact Table.find_set_self ..
  · exact Table.find_set_ne ‹_› ..

@[simp] theorem Table.getD_set_self (k : Nat) (v d : α) (t : Table α) : Table.getD (Table.set k v t) k d = v := by
  simp [Table.getD]

theorem Table.getD_set_ne {j k : Nat} (h : j ≠ k) (v d : α) (t : Table α) : Table.getD (Table.set k v t) j d = Table.getD t j d := by
  simp [Table.getD, Table.find_set_ne h]

theorem Table.getD_set (j k : Nat) (v d : α) (t : Table α) : Table.getD (Table.set k v t) j d = if j = k then v else Table.getD t j d := by
  split
  · subst j; simp
  · exact Table.getD_set_ne ‹_› ..

theorem Table.find_erase_ne {j k : Nat} (h : j ≠ k) (t : Table α) : Table.find j (Table.erase k t) = Table.find j t := by
  induction t with
  | nil => rfl
  | cons p t ih =>
    obtain ⟨i, w⟩ := p
    simp only [Table.erase]
    split
    · subst i; simp [Table.find, Ne.symm h]
    · simp [Table.find, ih]

@[simp] theorem Table.find_mapVals (f : Nat → α → β) (k : Nat) (t : Table α) :
    Table.find k (Table.mapVals f t) = (Table.find k t).map (f k) := by
  induction t with
  | nil => rfl
  | cons p t ih =>
    obtain ⟨j, w⟩ := p
    simp only [Table.mapVals, List.map_cons, Table.find] at ih ⊢
    split
    · subst j; rfl
    · exact ih

theorem Table.getD_of_find {k : Nat} {v : α} {t : Table α} (h : Table.find k t = some v) (d : α) : Table.getD t k d = v := by
  simp [Table.getD, h]

/-! ## Bytes -/

@[simp] theorem leBytes_length (n v : Nat) : (leBytes n v).length = n := by
  induction n generalizing v with
  | zero => rfl
  | succ n ih => simp [leBytes, ih]

theorem leNat_leBytes (n v : Nat) : leNat (leBytes n v) = v % 256 ^ n := by
  induction n generalizing v with
  | zero => simp [leBytes, leNat, Nat.mod_one]
  | succ n ih =>
    simp only [leBytes, leNat, ih, BitVec.toNat_ofNat, Nat.reducePow]
    rw [Nat.pow_succ', Nat.mod_mul]

theorem leNat_lt (bs : List Byte) : leNat bs < 256 ^ bs.length := by
  induction bs with
  | nil => simp [leNat]
  | cons b t ih =>
    have h := b.isLt
    simp only [leNat, List.length_cons, Nat.pow_succ'] at *
    omega

end Sys2Proof
end

