-- ==== Sys2Proof/Laws/Memory.lean ====
section
/-!
SUPPORT. Laws of memory: reading after writing, and the canonical form, which every memory operation keeps.
-/

namespace Sys2Proof.Machine

open Sys2Proof

/-! ## Cells -/

/-- The addresses of a list rise strictly. -/
def Rising (m : List Host.Cell) : Prop := m.Pairwise (fun x y => x.1 < y.1)

theorem cellGet_put_ne (d d' : Byte) {a x : Nat} (h : x ≠ a) (b : Byte) (m : List Host.Cell) :
    cellGet d' x (cellPut d a b m) = cellGet d' x m := by
  induction m with
  | nil => simp only [cellPut]; split <;> simp [cellGet, Ne.symm h]
  | cons c t ih =>
    obtain ⟨i, v⟩ := c
    simp only [cellPut]
    split
    · subst i; split <;> simp [cellGet, Ne.symm h]
    · split
      · split <;> simp [cellGet, Ne.symm h]
      · simp [cellGet, ih]

theorem cellGet_absent (d : Byte) {a : Nat} {m : List Host.Cell} (h : ∀ c ∈ m, c.1 ≠ a) : cellGet d a m = d := by
  induction m with
  | nil => rfl
  | cons c t ih =>
    obtain ⟨i, v⟩ := c
    have hi : i ≠ a := h (i, v) (by simp)
    simp only [cellGet, if_neg hi]
    exact ih (fun c hc => h c (by simp [hc]))

theorem cellGet_put (d : Byte) (a : Nat) (b : Byte) {m : List Host.Cell} (hm : Rising m) :
    cellGet d a (cellPut d a b m) = b := by
  induction m with
  | nil => simp only [cellPut]; split <;> simp_all [cellGet]
  | cons c t ih =>
    obtain ⟨i, v⟩ := c
    obtain ⟨hlt, ht⟩ := List.pairwise_cons.mp hm
    simp only [cellPut]
    split
    · subst i
      split
      · subst b; exact cellGet_absent _ (fun c hc => Nat.ne_of_gt (hlt c hc))
      · simp [cellGet]
    · next hi =>
      split
      · next hai =>
        split
        · subst b
          simp only [cellGet, if_neg hi]
          exact cellGet_absent _ (fun c hc => Nat.ne_of_gt (Nat.lt_trans hai (hlt c hc)))
        · simp [cellGet]
      · simp only [cellGet, if_neg hi]; exact ih ht

theorem mem_cellPut {d : Byte} {a : Nat} {b : Byte} {m : List Host.Cell} {c : Host.Cell} (h : c ∈ cellPut d a b m) :
    c ∈ m ∨ (c = (a, b) ∧ b ≠ d) := by
  induction m with
  | nil => simp only [cellPut] at h; split at h <;> simp_all
  | cons x t ih =>
    obtain ⟨i, v⟩ := x
    simp only [cellPut] at h
    split at h
    · split at h
      · exact .inl (List.mem_cons_of_mem _ h)
      · rcases List.mem_cons.mp h with h | h
        · exact .inr ⟨h, ‹_›⟩
        · exact .inl (List.mem_cons_of_mem _ h)
    · split at h
      · split at h
        · exact .inl h
        · rcases List.mem_cons.mp h with h | h
          · exact .inr ⟨h, ‹_›⟩
          · exact .inl h
      · rcases List.mem_cons.mp h with h | h
        · exact .inl (by simp [h])
        · rcases ih h with h | h
          · exact .inl (List.mem_cons_of_mem _ h)
          · exact .inr h

theorem Rising.put {d : Byte} {a : Nat} {b : Byte} {m : List Host.Cell} (hm : Rising m) : Rising (cellPut d a b m) := by
  induction m with
  | nil => simp only [cellPut]; split <;> simp [Rising]
  | cons x t ih =>
    obtain ⟨i, v⟩ := x
    obtain ⟨hlt, ht⟩ := List.pairwise_cons.mp hm
    simp only [cellPut]
    split
    · subst i
      split
      · exact ht
      · exact List.pairwise_cons.mpr ⟨hlt, ht⟩
    · split
      · next hai =>
        split
        · exact hm
        · refine List.pairwise_cons.mpr ⟨fun c hc => ?_, hm⟩
          rcases List.mem_cons.mp hc with rfl | hc
          · exact hai
          · exact Nat.lt_trans hai (hlt c hc)
      · refine List.pairwise_cons.mpr ⟨fun c hc => ?_, ih ht⟩
        rcases mem_cellPut hc with hc | ⟨rfl, -⟩
        · exact hlt c hc
        · show i < a
          omega

/-! ## The canonical form -/

/-- The canonical form says: addresses rise, and nothing listed equals what its address reads unlisted. -/
theorem cellsWf_iff (d : Nat → Byte) (m : List Host.Cell) : cellsWf d m = true ↔ Rising m ∧ ∀ c ∈ m, c.2 ≠ d c.1 := by
  induction m with
  | nil => simp [cellsWf, Rising]
  | cons x t ih =>
    obtain ⟨a, b⟩ := x
    simp only [cellsWf, Bool.and_eq_true, bne_iff_ne, List.all_eq_true, decide_eq_true_eq, ih, Rising, List.pairwise_cons,
      List.mem_cons, forall_eq_or_imp]
    tauto

theorem Memory.wf_iff (m : Memory) : m.wf = true ↔ Rising m.cells ∧ ∀ c ∈ m.cells, c.2 ≠ m.dflt c.1 := cellsWf_iff ..

@[simp] theorem Memory.write_dflt (m : Memory) (a : Nat) (b : Byte) : (m.write a b).dflt = m.dflt := rfl

theorem Memory.wf_write {m : Memory} (h : m.wf = true) (a : Nat) (b : Byte) : (m.write a b).wf = true := by
  obtain ⟨hr, hd⟩ := (Memory.wf_iff m).mp h
  refine (Memory.wf_iff _).mpr ⟨hr.put, fun c hc => ?_⟩
  rcases mem_cellPut hc with hc | ⟨rfl, hb⟩
  · exact hd c hc
  · exact hb

theorem Memory.wf_writeAll {m : Memory} (h : m.wf = true) (a : Nat) (bs : List Byte) : (m.writeAll a bs).wf = true := by
  induction bs generalizing m a with
  | nil => exact h
  | cons b t ih => exact ih (Memory.wf_write h a b) (a + 1)

theorem Memory.wf_filter {m : Memory} (h : m.wf = true) (p : Host.Cell → Bool) :
    Memory.wf { m with cells := m.cells.filter p } = true := by
  obtain ⟨hr, hd⟩ := (Memory.wf_iff m).mp h
  exact (Memory.wf_iff _).mpr ⟨List.Pairwise.filter _ hr, fun c hc => hd c (List.mem_filter.mp hc).1⟩

/-- What an unlisted byte reads as depends on its unit alone. -/
theorem Memory.dflt_congr (m n : Memory) (a : Nat) (hk : Table.find (a / 2 ^ 30) m.keyed = Table.find (a / 2 ^ 30) n.keyed)
    (hr : Table.getD m.regimes (a / 2 ^ 30) 0 = Table.getD n.regimes (a / 2 ^ 30) 0) : m.dflt a = n.dflt a := by
  have hb : ∀ b, b / 2 ^ 30 = a / 2 ^ 30 → m.base b = n.base b := fun b e => by simp only [Memory.base, e, hr]
  simp only [Memory.dflt, hk]
  split
  · exact hb a rfl
  · refine congrArg (nth · _ _) (congrArg _ (List.map_congr_left fun i hi => hb _ ?_))
    have := List.mem_range.mp hi
    omega

theorem Memory.wf_forget {m : Memory} (h : m.wf = true) (u r : Nat) : (m.forget u r).wf = true := by
  obtain ⟨hr, hd⟩ := (Memory.wf_iff m).mp h
  refine (Memory.wf_iff _).mpr ⟨List.Pairwise.filter _ hr, fun c hc => ?_⟩
  obtain ⟨hc, hu⟩ := List.mem_filter.mp hc
  have hne : c.1 / 2 ^ 30 ≠ u := by simpa using hu
  rw [Memory.dflt_congr (m.forget u r) m c.1 (Table.find_erase_ne hne _) (Table.getD_set_ne hne _ _ _)]; exact hd c hc

theorem Memory.wf_rekey {m : Memory} (h : m.wf = true) (old new : List Byte) (u : Nat) : (m.rekey old new u).wf = true := by
  unfold Memory.rekey
  simp only
  refine List.foldlRecOn (motive := fun x : Memory => x.wf = true) _ _ ?_ (fun _ hx _ _ => Memory.wf_writeAll hx ..)
  obtain ⟨hr, hd⟩ := (Memory.wf_iff m).mp h
  refine (Memory.wf_iff _).mpr ⟨List.Pairwise.filter _ hr, fun c hc => ?_⟩
  obtain ⟨hc, hu⟩ := List.mem_filter.mp hc
  have hne : c.1 / 2 ^ 30 ≠ u := by simpa using hu
  rw [Memory.dflt_congr _ m c.1 ?_ ?_]
  · exact hd c hc
  · simp only
    split
    · exact Table.find_erase_ne hne _
    · exact Table.find_set_ne hne _ _
  · rfl

/-! ## Reading after writing -/

theorem Memory.read_write {m : Memory} (h : m.wf = true) (a x : Nat) (b : Byte) :
    (m.write a b).read x = if x = a then b else m.read x := by
  obtain ⟨hr, -⟩ := (Memory.wf_iff m).mp h
  split
  · subst x; exact cellGet_put _ _ _ hr
  · exact cellGet_put_ne _ _ ‹_› ..

theorem Memory.read_writeAll {m : Memory} (h : m.wf = true) (a x : Nat) (bs : List Byte) :
    (m.writeAll a bs).read x = if a ≤ x ∧ x < a + bs.length then nth bs (x - a) 0 else m.read x := by
  induction bs generalizing m a with
  | nil => rw [if_neg (by simp only [List.length_nil]; omega)]; rfl
  | cons b t ih =>
    have hw := ih (Memory.wf_write h a b) (a + 1)
    simp only [Memory.writeAll, hw, Memory.read_write h, List.length_cons]
    by_cases hx : x = a
    · subst x
      rw [if_neg (by omega), if_pos rfl, if_pos (by omega)]
      simp [nth]
    · by_cases hin : a + 1 ≤ x ∧ x < a + 1 + t.length
      · rw [if_pos hin, if_pos (by omega), show x - a = (x - (a + 1)) + 1 by omega]
        simp [nth]
      · rw [if_neg hin, if_neg hx, if_neg (by omega)]

/-! ## Writes of the machine -/

@[simp] theorem reset_inv : State.reset.mem.wf = true := rfl

theorem pokeWith_wf {s : State} (h : s.mem.wf = true) (l p : Nat) (v : View) (pa : Nat) (bs : List Byte) :
    (pokeWith l p v pa bs s).mem.wf = true := by
  unfold pokeWith
  simp only
  split
  · exact h
  · exact Memory.wf_writeAll h ..

theorem poke_wf {s : State} (h : s.mem.wf = true) (l p pa : Nat) (bs : List Byte) : (poke l p pa bs s).mem.wf = true := pokeWith_wf h ..

theorem loseUnit_wf {s : State} (h : s.mem.wf = true) (u r : Nat) : (loseUnit u r s).mem.wf = true := Memory.wf_forget h u r

theorem pokeOk_wf {s t : State} (h : s.mem.wf = true) {l p pa : Nat} {bs : List Byte} (e : pokeOk l p pa bs s = some t) :
    t.mem.wf = true := by
  unfold pokeOk at e
  split at e
  · cases e
  · cases e; exact poke_wf h ..

theorem devWrite_wf {s : State} (h : s.mem.wf = true) (pa : Nat) (bs : List Byte) : (devWrite pa bs s).mem.wf = true := by
  unfold devWrite
  split
  · exact pokeOk_wf h ‹_›
  · exact h

/-- All that a write of bytes may change. -/
theorem pokeWith_frame (l p : Nat) (v : View) (pa : Nat) (bs : List Byte) (s : State) :
    pokeWith l p v pa bs s = { s with
      mem := (pokeWith l p v pa bs s).mem
      writes := (pokeWith l p v pa bs s).writes
      writeSeq := (pokeWith l p v pa bs s).writeSeq
      errors := (pokeWith l p v pa bs s).errors
      releases := (pokeWith l p v pa bs s).releases } := by
  unfold pokeWith
  simp only
  split <;> rfl

theorem poke_frame (l p pa : Nat) (bs : List Byte) (s : State) :
    poke l p pa bs s = { s with
      mem := (poke l p pa bs s).mem
      writes := (poke l p pa bs s).writes
      writeSeq := (poke l p pa bs s).writeSeq
      errors := (poke l p pa bs s).errors
      releases := (poke l p pa bs s).releases } := pokeWith_frame ..

/-- A byte after a write of bytes that are not guarded. -/
theorem pokeWith_read {s : State} (h : s.mem.wf = true) (l p : Nat) (v : View) (pa x : Nat) (bs : List Byte) :
    (pokeWith l p v pa bs s).mem.read x =
      if pa ≤ x ∧ x < pa + (guardBytes s l p pa bs).length ∧ bs ≠ [] then nth (guardBytes s l p pa bs) (x - pa) 0 else s.mem.read x := by
  unfold pokeWith
  simp only [List.length_eq_zero_iff]
  split
  · simp [*]
  · rw [Memory.read_writeAll h]
    simp only [ne_eq, not_false_eq_true, and_true, *]

theorem poke_read {s : State} (h : s.mem.wf = true) (l p pa x : Nat) (bs : List Byte) :
    (poke l p pa bs s).mem.read x =
      if pa ≤ x ∧ x < pa + (guardBytes s l p pa bs).length ∧ bs ≠ [] then nth (guardBytes s l p pa bs) (x - pa) 0 else s.mem.read x :=
  pokeWith_read h ..

@[simp] theorem guardBytes_length (s : State) (l p pa : Nat) (bs : List Byte) : (guardBytes s l p pa bs).length = bs.length := by
  unfold guardBytes
  split <;> simp

end Sys2Proof.Machine
end

