-- ==== Sys2Proof/Laws/State.lean ====
section
/-!
SUPPORT. What each update of the state does to each field.
-/

namespace Sys2Proof.Machine

open Sys2Proof

variable (s : State)

/-! ## setPc -/

@[simp] theorem State.setPc_agenda (v : Word) : (s.setPc v).agenda = s.agenda := rfl
@[simp] theorem State.setPc_choices (v : Word) : (s.setPc v).choices = s.choices := rfl
@[simp] theorem State.setPc_draws (v : Word) : (s.setPc v).draws = s.draws := rfl
@[simp] theorem State.setPc_time (v : Word) : (s.setPc v).time = s.time := rfl
@[simp] theorem State.setPc_core (v : Word) : (s.setPc v).core = s.core := rfl
@[simp] theorem State.setPc_ir (v : Word) : (s.setPc v).ir = s.ir := rfl
@[simp] theorem State.setPc_th (v : Word) : (s.setPc v).th = { s.th with pc := v } := rfl
@[simp] theorem State.setPc_threads (v : Word) : (s.setPc v).threads = s.threads := rfl
@[simp] theorem State.setPc_nextThread (v : Word) : (s.setPc v).nextThread = s.nextThread := rfl
@[simp] theorem State.setPc_cores (v : Word) : (s.setPc v).cores = s.cores := rfl
@[simp] theorem State.setPc_ctxs (v : Word) : (s.setPc v).ctxs = s.ctxs := rfl
@[simp] theorem State.setPc_issue (v : Word) : (s.setPc v).issue = s.issue := rfl
@[simp] theorem State.setPc_mem (v : Word) : (s.setPc v).mem = s.mem := rfl
@[simp] theorem State.setPc_stripeBuf (v : Word) : (s.setPc v).stripeBuf = s.stripeBuf := rfl
@[simp] theorem State.setPc_ringBuf (v : Word) : (s.setPc v).ringBuf = s.ringBuf := rfl
@[simp] theorem State.setPc_errors (v : Word) : (s.setPc v).errors = s.errors := rfl
@[simp] theorem State.setPc_tlb (v : Word) : (s.setPc v).tlb = s.tlb := rfl
@[simp] theorem State.setPc_posted (v : Word) : (s.setPc v).posted = s.posted := rfl
@[simp] theorem State.setPc_reds (v : Word) : (s.setPc v).reds = s.reds := rfl
@[simp] theorem State.setPc_wqueue (v : Word) : (s.setPc v).wqueue = s.wqueue := rfl
@[simp] theorem State.setPc_writes (v : Word) : (s.setPc v).writes = s.writes := rfl
@[simp] theorem State.setPc_writeSeq (v : Word) : (s.setPc v).writeSeq = s.writeSeq := rfl
@[simp] theorem State.setPc_releases (v : Word) : (s.setPc v).releases = s.releases := rfl
@[simp] theorem State.setPc_faults (v : Word) : (s.setPc v).faults = s.faults := rfl
@[simp] theorem State.setPc_parts (v : Word) : (s.setPc v).parts = s.parts := rfl
@[simp] theorem State.setPc_launches (v : Word) : (s.setPc v).launches = s.launches := rfl
@[simp] theorem State.setPc_nextLaunch (v : Word) : (s.setPc v).nextLaunch = s.nextLaunch := rfl
@[simp] theorem State.setPc_runs (v : Word) : (s.setPc v).runs = s.runs := rfl
@[simp] theorem State.setPc_nextRun (v : Word) : (s.setPc v).nextRun = s.nextRun := rfl
@[simp] theorem State.setPc_stripes (v : Word) : (s.setPc v).stripes = s.stripes := rfl
@[simp] theorem State.setPc_dieStore (v : Word) : (s.setPc v).dieStore = s.dieStore := rfl
@[simp] theorem State.setPc_ringCache (v : Word) : (s.setPc v).ringCache = s.ringCache := rfl
@[simp] theorem State.setPc_turns (v : Word) : (s.setPc v).turns = s.turns := rfl
@[simp] theorem State.setPc_joins (v : Word) : (s.setPc v).joins = s.joins := rfl
@[simp] theorem State.setPc_blockCache (v : Word) : (s.setPc v).blockCache = s.blockCache := rfl
@[simp] theorem State.setPc_copies (v : Word) : (s.setPc v).copies = s.copies := rfl
@[simp] theorem State.setPc_segLoads (v : Word) : (s.setPc v).segLoads = s.segLoads := rfl
@[simp] theorem State.setPc_flushes (v : Word) : (s.setPc v).flushes = s.flushes := rfl
@[simp] theorem State.setPc_ctxJobs (v : Word) : (s.setPc v).ctxJobs = s.ctxJobs := rfl
@[simp] theorem State.setPc_nextJob (v : Word) : (s.setPc v).nextJob = s.nextJob := rfl
@[simp] theorem State.setPc_parked (v : Word) : (s.setPc v).parked = s.parked := rfl
@[simp] theorem State.setPc_epochs (v : Word) : (s.setPc v).epochs = s.epochs := rfl
@[simp] theorem State.setPc_probes (v : Word) : (s.setPc v).probes = s.probes := rfl
@[simp] theorem State.setPc_inbound (v : Word) : (s.setPc v).inbound = s.inbound := rfl
@[simp] theorem State.setPc_outbound (v : Word) : (s.setPc v).outbound = s.outbound := rfl
@[simp] theorem State.setPc_hostOut (v : Word) : (s.setPc v).hostOut = s.hostOut := rfl
@[simp] theorem State.setPc_umenoOut (v : Word) : (s.setPc v).umenoOut = s.umenoOut := rfl
@[simp] theorem State.setPc_spdmOut (v : Word) : (s.setPc v).spdmOut = s.spdmOut := rfl
@[simp] theorem State.setPc_hostIn (v : Word) : (s.setPc v).hostIn = s.hostIn := rfl
@[simp] theorem State.setPc_saved (v : Word) : (s.setPc v).saved = s.saved := rfl
@[simp] theorem State.setPc_io (v : Word) : (s.setPc v).io = s.io := rfl

/-! ## advance -/

@[simp] theorem State.advance_agenda (n : Nat) : (s.advance n).agenda = s.agenda := rfl
@[simp] theorem State.advance_choices (n : Nat) : (s.advance n).choices = s.choices := rfl
@[simp] theorem State.advance_draws (n : Nat) : (s.advance n).draws = s.draws := rfl
@[simp] theorem State.advance_time (n : Nat) : (s.advance n).time = s.time := rfl
@[simp] theorem State.advance_core (n : Nat) : (s.advance n).core = s.core := rfl
@[simp] theorem State.advance_ir (n : Nat) : (s.advance n).ir = s.ir := rfl
@[simp] theorem State.advance_th (n : Nat) : (s.advance n).th = { s.th with pc := s.th.pc + BitVec.ofNat 64 n } := rfl
@[simp] theorem State.advance_threads (n : Nat) : (s.advance n).threads = s.threads := rfl
@[simp] theorem State.advance_nextThread (n : Nat) : (s.advance n).nextThread = s.nextThread := rfl
@[simp] theorem State.advance_cores (n : Nat) : (s.advance n).cores = s.cores := rfl
@[simp] theorem State.advance_ctxs (n : Nat) : (s.advance n).ctxs = s.ctxs := rfl
@[simp] theorem State.advance_issue (n : Nat) : (s.advance n).issue = s.issue := rfl
@[simp] theorem State.advance_mem (n : Nat) : (s.advance n).mem = s.mem := rfl
@[simp] theorem State.advance_stripeBuf (n : Nat) : (s.advance n).stripeBuf = s.stripeBuf := rfl
@[simp] theorem State.advance_ringBuf (n : Nat) : (s.advance n).ringBuf = s.ringBuf := rfl
@[simp] theorem State.advance_errors (n : Nat) : (s.advance n).errors = s.errors := rfl
@[simp] theorem State.advance_tlb (n : Nat) : (s.advance n).tlb = s.tlb := rfl
@[simp] theorem State.advance_posted (n : Nat) : (s.advance n).posted = s.posted := rfl
@[simp] theorem State.advance_reds (n : Nat) : (s.advance n).reds = s.reds := rfl
@[simp] theorem State.advance_wqueue (n : Nat) : (s.advance n).wqueue = s.wqueue := rfl
@[simp] theorem State.advance_writes (n : Nat) : (s.advance n).writes = s.writes := rfl
@[simp] theorem State.advance_writeSeq (n : Nat) : (s.advance n).writeSeq = s.writeSeq := rfl
@[simp] theorem State.advance_releases (n : Nat) : (s.advance n).releases = s.releases := rfl
@[simp] theorem State.advance_faults (n : Nat) : (s.advance n).faults = s.faults := rfl
@[simp] theorem State.advance_parts (n : Nat) : (s.advance n).parts = s.parts := rfl
@[simp] theorem State.advance_launches (n : Nat) : (s.advance n).launches = s.launches := rfl
@[simp] theorem State.advance_nextLaunch (n : Nat) : (s.advance n).nextLaunch = s.nextLaunch := rfl
@[simp] theorem State.advance_runs (n : Nat) : (s.advance n).runs = s.runs := rfl
@[simp] theorem State.advance_nextRun (n : Nat) : (s.advance n).nextRun = s.nextRun := rfl
@[simp] theorem State.advance_stripes (n : Nat) : (s.advance n).stripes = s.stripes := rfl
@[simp] theorem State.advance_dieStore (n : Nat) : (s.advance n).dieStore = s.dieStore := rfl
@[simp] theorem State.advance_ringCache (n : Nat) : (s.advance n).ringCache = s.ringCache := rfl
@[simp] theorem State.advance_turns (n : Nat) : (s.advance n).turns = s.turns := rfl
@[simp] theorem State.advance_joins (n : Nat) : (s.advance n).joins = s.joins := rfl
@[simp] theorem State.advance_blockCache (n : Nat) : (s.advance n).blockCache = s.blockCache := rfl
@[simp] theorem State.advance_copies (n : Nat) : (s.advance n).copies = s.copies := rfl
@[simp] theorem State.advance_segLoads (n : Nat) : (s.advance n).segLoads = s.segLoads := rfl
@[simp] theorem State.advance_flushes (n : Nat) : (s.advance n).flushes = s.flushes := rfl
@[simp] theorem State.advance_ctxJobs (n : Nat) : (s.advance n).ctxJobs = s.ctxJobs := rfl
@[simp] theorem State.advance_nextJob (n : Nat) : (s.advance n).nextJob = s.nextJob := rfl
@[simp] theorem State.advance_parked (n : Nat) : (s.advance n).parked = s.parked := rfl
@[simp] theorem State.advance_epochs (n : Nat) : (s.advance n).epochs = s.epochs := rfl
@[simp] theorem State.advance_probes (n : Nat) : (s.advance n).probes = s.probes := rfl
@[simp] theorem State.advance_inbound (n : Nat) : (s.advance n).inbound = s.inbound := rfl
@[simp] theorem State.advance_outbound (n : Nat) : (s.advance n).outbound = s.outbound := rfl
@[simp] theorem State.advance_hostOut (n : Nat) : (s.advance n).hostOut = s.hostOut := rfl
@[simp] theorem State.advance_umenoOut (n : Nat) : (s.advance n).umenoOut = s.umenoOut := rfl
@[simp] theorem State.advance_spdmOut (n : Nat) : (s.advance n).spdmOut = s.spdmOut := rfl
@[simp] theorem State.advance_hostIn (n : Nat) : (s.advance n).hostIn = s.hostIn := rfl
@[simp] theorem State.advance_saved (n : Nat) : (s.advance n).saved = s.saved := rfl
@[simp] theorem State.advance_io (n : Nat) : (s.advance n).io = s.io := rfl

/-! ## setG -/

@[simp] theorem State.setG_agenda (r : Reg) (v : Word) : (s.setG r v).agenda = s.agenda := by unfold State.setG; split <;> rfl
@[simp] theorem State.setG_choices (r : Reg) (v : Word) : (s.setG r v).choices = s.choices := by unfold State.setG; split <;> rfl
@[simp] theorem State.setG_draws (r : Reg) (v : Word) : (s.setG r v).draws = s.draws := by unfold State.setG; split <;> rfl
@[simp] theorem State.setG_time (r : Reg) (v : Word) : (s.setG r v).time = s.time := by unfold State.setG; split <;> rfl
@[simp] theorem State.setG_core (r : Reg) (v : Word) : (s.setG r v).core = s.core := by unfold State.setG; split <;> rfl
@[simp] theorem State.setG_ir (r : Reg) (v : Word) : (s.setG r v).ir = s.ir := by unfold State.setG; split <;> rfl
@[simp] theorem State.setG_threads (r : Reg) (v : Word) : (s.setG r v).threads = s.threads := by unfold State.setG; split <;> rfl
@[simp] theorem State.setG_nextThread (r : Reg) (v : Word) : (s.setG r v).nextThread = s.nextThread := by unfold State.setG; split <;> rfl
@[simp] theorem State.setG_cores (r : Reg) (v : Word) : (s.setG r v).cores = s.cores := by unfold State.setG; split <;> rfl
@[simp] theorem State.setG_ctxs (r : Reg) (v : Word) : (s.setG r v).ctxs = s.ctxs := by unfold State.setG; split <;> rfl
@[simp] theorem State.setG_issue (r : Reg) (v : Word) : (s.setG r v).issue = s.issue := by unfold State.setG; split <;> rfl
@[simp] theorem State.setG_mem (r : Reg) (v : Word) : (s.setG r v).mem = s.mem := by unfold State.setG; split <;> rfl
@[simp] theorem State.setG_stripeBuf (r : Reg) (v : Word) : (s.setG r v).stripeBuf = s.stripeBuf := by unfold State.setG; split <;> rfl
@[simp] theorem State.setG_ringBuf (r : Reg) (v : Word) : (s.setG r v).ringBuf = s.ringBuf := by unfold State.setG; split <;> rfl
@[simp] theorem State.setG_errors (r : Reg) (v : Word) : (s.setG r v).errors = s.errors := by unfold State.setG; split <;> rfl
@[simp] theorem State.setG_tlb (r : Reg) (v : Word) : (s.setG r v).tlb = s.tlb := by unfold State.setG; split <;> rfl
@[simp] theorem State.setG_posted (r : Reg) (v : Word) : (s.setG r v).posted = s.posted := by unfold State.setG; split <;> rfl
@[simp] theorem State.setG_reds (r : Reg) (v : Word) : (s.setG r v).reds = s.reds := by unfold State.setG; split <;> rfl
@[simp] theorem State.setG_wqueue (r : Reg) (v : Word) : (s.setG r v).wqueue = s.wqueue := by unfold State.setG; split <;> rfl
@[simp] theorem State.setG_writes (r : Reg) (v : Word) : (s.setG r v).writes = s.writes := by unfold State.setG; split <;> rfl
@[simp] theorem State.setG_writeSeq (r : Reg) (v : Word) : (s.setG r v).writeSeq = s.writeSeq := by unfold State.setG; split <;> rfl
@[simp] theorem State.setG_releases (r : Reg) (v : Word) : (s.setG r v).releases = s.releases := by unfold State.setG; split <;> rfl
@[simp] theorem State.setG_faults (r : Reg) (v : Word) : (s.setG r v).faults = s.faults := by unfold State.setG; split <;> rfl
@[simp] theorem State.setG_parts (r : Reg) (v : Word) : (s.setG r v).parts = s.parts := by unfold State.setG; split <;> rfl
@[simp] theorem State.setG_launches (r : Reg) (v : Word) : (s.setG r v).launches = s.launches := by unfold State.setG; split <;> rfl
@[simp] theorem State.setG_nextLaunch (r : Reg) (v : Word) : (s.setG r v).nextLaunch = s.nextLaunch := by unfold State.setG; split <;> rfl
@[simp] theorem State.setG_runs (r : Reg) (v : Word) : (s.setG r v).runs = s.runs := by unfold State.setG; split <;> rfl
@[simp] theorem State.setG_nextRun (r : Reg) (v : Word) : (s.setG r v).nextRun = s.nextRun := by unfold State.setG; split <;> rfl
@[simp] theorem State.setG_stripes (r : Reg) (v : Word) : (s.setG r v).stripes = s.stripes := by unfold State.setG; split <;> rfl
@[simp] theorem State.setG_dieStore (r : Reg) (v : Word) : (s.setG r v).dieStore = s.dieStore := by unfold State.setG; split <;> rfl
@[simp] theorem State.setG_ringCache (r : Reg) (v : Word) : (s.setG r v).ringCache = s.ringCache := by unfold State.setG; split <;> rfl
@[simp] theorem State.setG_turns (r : Reg) (v : Word) : (s.setG r v).turns = s.turns := by unfold State.setG; split <;> rfl
@[simp] theorem State.setG_joins (r : Reg) (v : Word) : (s.setG r v).joins = s.joins := by unfold State.setG; split <;> rfl
@[simp] theorem State.setG_blockCache (r : Reg) (v : Word) : (s.setG r v).blockCache = s.blockCache := by unfold State.setG; split <;> rfl
@[simp] theorem State.setG_copies (r : Reg) (v : Word) : (s.setG r v).copies = s.copies := by unfold State.setG; split <;> rfl
@[simp] theorem State.setG_segLoads (r : Reg) (v : Word) : (s.setG r v).segLoads = s.segLoads := by unfold State.setG; split <;> rfl
@[simp] theorem State.setG_flushes (r : Reg) (v : Word) : (s.setG r v).flushes = s.flushes := by unfold State.setG; split <;> rfl
@[simp] theorem State.setG_ctxJobs (r : Reg) (v : Word) : (s.setG r v).ctxJobs = s.ctxJobs := by unfold State.setG; split <;> rfl
@[simp] theorem State.setG_nextJob (r : Reg) (v : Word) : (s.setG r v).nextJob = s.nextJob := by unfold State.setG; split <;> rfl
@[simp] theorem State.setG_parked (r : Reg) (v : Word) : (s.setG r v).parked = s.parked := by unfold State.setG; split <;> rfl
@[simp] theorem State.setG_epochs (r : Reg) (v : Word) : (s.setG r v).epochs = s.epochs := by unfold State.setG; split <;> rfl
@[simp] theorem State.setG_probes (r : Reg) (v : Word) : (s.setG r v).probes = s.probes := by unfold State.setG; split <;> rfl
@[simp] theorem State.setG_inbound (r : Reg) (v : Word) : (s.setG r v).inbound = s.inbound := by unfold State.setG; split <;> rfl
@[simp] theorem State.setG_outbound (r : Reg) (v : Word) : (s.setG r v).outbound = s.outbound := by unfold State.setG; split <;> rfl
@[simp] theorem State.setG_hostOut (r : Reg) (v : Word) : (s.setG r v).hostOut = s.hostOut := by unfold State.setG; split <;> rfl
@[simp] theorem State.setG_umenoOut (r : Reg) (v : Word) : (s.setG r v).umenoOut = s.umenoOut := by unfold State.setG; split <;> rfl
@[simp] theorem State.setG_spdmOut (r : Reg) (v : Word) : (s.setG r v).spdmOut = s.spdmOut := by unfold State.setG; split <;> rfl
@[simp] theorem State.setG_hostIn (r : Reg) (v : Word) : (s.setG r v).hostIn = s.hostIn := by unfold State.setG; split <;> rfl
@[simp] theorem State.setG_saved (r : Reg) (v : Word) : (s.setG r v).saved = s.saved := by unfold State.setG; split <;> rfl
@[simp] theorem State.setG_io (r : Reg) (v : Word) : (s.setG r v).io = s.io := by unfold State.setG; split <;> rfl

/-! ## write4 -/

@[simp] theorem State.write4_agenda (r : Reg) (v : Word) : (s.write4 r v).agenda = s.agenda := State.setG_agenda s r v
@[simp] theorem State.write4_choices (r : Reg) (v : Word) : (s.write4 r v).choices = s.choices := State.setG_choices s r v
@[simp] theorem State.write4_draws (r : Reg) (v : Word) : (s.write4 r v).draws = s.draws := State.setG_draws s r v
@[simp] theorem State.write4_time (r : Reg) (v : Word) : (s.write4 r v).time = s.time := State.setG_time s r v
@[simp] theorem State.write4_core (r : Reg) (v : Word) : (s.write4 r v).core = s.core := State.setG_core s r v
@[simp] theorem State.write4_ir (r : Reg) (v : Word) : (s.write4 r v).ir = s.ir := State.setG_ir s r v
@[simp] theorem State.write4_threads (r : Reg) (v : Word) : (s.write4 r v).threads = s.threads := State.setG_threads s r v
@[simp] theorem State.write4_nextThread (r : Reg) (v : Word) : (s.write4 r v).nextThread = s.nextThread := State.setG_nextThread s r v
@[simp] theorem State.write4_cores (r : Reg) (v : Word) : (s.write4 r v).cores = s.cores := State.setG_cores s r v
@[simp] theorem State.write4_ctxs (r : Reg) (v : Word) : (s.write4 r v).ctxs = s.ctxs := State.setG_ctxs s r v
@[simp] theorem State.write4_issue (r : Reg) (v : Word) : (s.write4 r v).issue = s.issue := State.setG_issue s r v
@[simp] theorem State.write4_mem (r : Reg) (v : Word) : (s.write4 r v).mem = s.mem := State.setG_mem s r v
@[simp] theorem State.write4_stripeBuf (r : Reg) (v : Word) : (s.write4 r v).stripeBuf = s.stripeBuf := State.setG_stripeBuf s r v
@[simp] theorem State.write4_ringBuf (r : Reg) (v : Word) : (s.write4 r v).ringBuf = s.ringBuf := State.setG_ringBuf s r v
@[simp] theorem State.write4_errors (r : Reg) (v : Word) : (s.write4 r v).errors = s.errors := State.setG_errors s r v
@[simp] theorem State.write4_tlb (r : Reg) (v : Word) : (s.write4 r v).tlb = s.tlb := State.setG_tlb s r v
@[simp] theorem State.write4_posted (r : Reg) (v : Word) : (s.write4 r v).posted = s.posted := State.setG_posted s r v
@[simp] theorem State.write4_reds (r : Reg) (v : Word) : (s.write4 r v).reds = s.reds := State.setG_reds s r v
@[simp] theorem State.write4_wqueue (r : Reg) (v : Word) : (s.write4 r v).wqueue = s.wqueue := State.setG_wqueue s r v
@[simp] theorem State.write4_writes (r : Reg) (v : Word) : (s.write4 r v).writes = s.writes := State.setG_writes s r v
@[simp] theorem State.write4_writeSeq (r : Reg) (v : Word) : (s.write4 r v).writeSeq = s.writeSeq := State.setG_writeSeq s r v
@[simp] theorem State.write4_releases (r : Reg) (v : Word) : (s.write4 r v).releases = s.releases := State.setG_releases s r v
@[simp] theorem State.write4_faults (r : Reg) (v : Word) : (s.write4 r v).faults = s.faults := State.setG_faults s r v
@[simp] theorem State.write4_parts (r : Reg) (v : Word) : (s.write4 r v).parts = s.parts := State.setG_parts s r v
@[simp] theorem State.write4_launches (r : Reg) (v : Word) : (s.write4 r v).launches = s.launches := State.setG_launches s r v
@[simp] theorem State.write4_nextLaunch (r : Reg) (v : Word) : (s.write4 r v).nextLaunch = s.nextLaunch := State.setG_nextLaunch s r v
@[simp] theorem State.write4_runs (r : Reg) (v : Word) : (s.write4 r v).runs = s.runs := State.setG_runs s r v
@[simp] theorem State.write4_nextRun (r : Reg) (v : Word) : (s.write4 r v).nextRun = s.nextRun := State.setG_nextRun s r v
@[simp] theorem State.write4_stripes (r : Reg) (v : Word) : (s.write4 r v).stripes = s.stripes := State.setG_stripes s r v
@[simp] theorem State.write4_dieStore (r : Reg) (v : Word) : (s.write4 r v).dieStore = s.dieStore := State.setG_dieStore s r v
@[simp] theorem State.write4_ringCache (r : Reg) (v : Word) : (s.write4 r v).ringCache = s.ringCache := State.setG_ringCache s r v
@[simp] theorem State.write4_turns (r : Reg) (v : Word) : (s.write4 r v).turns = s.turns := State.setG_turns s r v
@[simp] theorem State.write4_joins (r : Reg) (v : Word) : (s.write4 r v).joins = s.joins := State.setG_joins s r v
@[simp] theorem State.write4_blockCache (r : Reg) (v : Word) : (s.write4 r v).blockCache = s.blockCache := State.setG_blockCache s r v
@[simp] theorem State.write4_copies (r : Reg) (v : Word) : (s.write4 r v).copies = s.copies := State.setG_copies s r v
@[simp] theorem State.write4_segLoads (r : Reg) (v : Word) : (s.write4 r v).segLoads = s.segLoads := State.setG_segLoads s r v
@[simp] theorem State.write4_flushes (r : Reg) (v : Word) : (s.write4 r v).flushes = s.flushes := State.setG_flushes s r v
@[simp] theorem State.write4_ctxJobs (r : Reg) (v : Word) : (s.write4 r v).ctxJobs = s.ctxJobs := State.setG_ctxJobs s r v
@[simp] theorem State.write4_nextJob (r : Reg) (v : Word) : (s.write4 r v).nextJob = s.nextJob := State.setG_nextJob s r v
@[simp] theorem State.write4_parked (r : Reg) (v : Word) : (s.write4 r v).parked = s.parked := State.setG_parked s r v
@[simp] theorem State.write4_epochs (r : Reg) (v : Word) : (s.write4 r v).epochs = s.epochs := State.setG_epochs s r v
@[simp] theorem State.write4_probes (r : Reg) (v : Word) : (s.write4 r v).probes = s.probes := State.setG_probes s r v
@[simp] theorem State.write4_inbound (r : Reg) (v : Word) : (s.write4 r v).inbound = s.inbound := State.setG_inbound s r v
@[simp] theorem State.write4_outbound (r : Reg) (v : Word) : (s.write4 r v).outbound = s.outbound := State.setG_outbound s r v
@[simp] theorem State.write4_hostOut (r : Reg) (v : Word) : (s.write4 r v).hostOut = s.hostOut := State.setG_hostOut s r v
@[simp] theorem State.write4_umenoOut (r : Reg) (v : Word) : (s.write4 r v).umenoOut = s.umenoOut := State.setG_umenoOut s r v
@[simp] theorem State.write4_spdmOut (r : Reg) (v : Word) : (s.write4 r v).spdmOut = s.spdmOut := State.setG_spdmOut s r v
@[simp] theorem State.write4_hostIn (r : Reg) (v : Word) : (s.write4 r v).hostIn = s.hostIn := State.setG_hostIn s r v
@[simp] theorem State.write4_saved (r : Reg) (v : Word) : (s.write4 r v).saved = s.saved := State.setG_saved s r v
@[simp] theorem State.write4_io (r : Reg) (v : Word) : (s.write4 r v).io = s.io := State.setG_io s r v

/-! ## issueWord -/

@[simp] theorem State.issueWord_agenda (w : Nat) : (s.issueWord w).agenda = s.agenda := rfl
@[simp] theorem State.issueWord_choices (w : Nat) : (s.issueWord w).choices = s.choices := rfl
@[simp] theorem State.issueWord_draws (w : Nat) : (s.issueWord w).draws = s.draws := rfl
@[simp] theorem State.issueWord_time (w : Nat) : (s.issueWord w).time = s.time := rfl
@[simp] theorem State.issueWord_core (w : Nat) : (s.issueWord w).core = s.core := rfl
@[simp] theorem State.issueWord_ir (w : Nat) : (s.issueWord w).ir = BitVec.ofNat 32 w := rfl
@[simp] theorem State.issueWord_th (w : Nat) : (s.issueWord w).th = { s.th with noBreak := false } := rfl
@[simp] theorem State.issueWord_threads (w : Nat) : (s.issueWord w).threads = s.threads := rfl
@[simp] theorem State.issueWord_nextThread (w : Nat) : (s.issueWord w).nextThread = s.nextThread := rfl
@[simp] theorem State.issueWord_cores (w : Nat) : (s.issueWord w).cores = s.cores := rfl
@[simp] theorem State.issueWord_ctxs (w : Nat) : (s.issueWord w).ctxs = s.ctxs := rfl
@[simp] theorem State.issueWord_issue (w : Nat) : (s.issueWord w).issue = s.issue := rfl
@[simp] theorem State.issueWord_mem (w : Nat) : (s.issueWord w).mem = s.mem := rfl
@[simp] theorem State.issueWord_stripeBuf (w : Nat) : (s.issueWord w).stripeBuf = s.stripeBuf := rfl
@[simp] theorem State.issueWord_ringBuf (w : Nat) : (s.issueWord w).ringBuf = s.ringBuf := rfl
@[simp] theorem State.issueWord_errors (w : Nat) : (s.issueWord w).errors = s.errors := rfl
@[simp] theorem State.issueWord_tlb (w : Nat) : (s.issueWord w).tlb = s.tlb := rfl
@[simp] theorem State.issueWord_posted (w : Nat) : (s.issueWord w).posted = s.posted := rfl
@[simp] theorem State.issueWord_reds (w : Nat) : (s.issueWord w).reds = s.reds := rfl
@[simp] theorem State.issueWord_wqueue (w : Nat) : (s.issueWord w).wqueue = s.wqueue := rfl
@[simp] theorem State.issueWord_writes (w : Nat) : (s.issueWord w).writes = s.writes := rfl
@[simp] theorem State.issueWord_writeSeq (w : Nat) : (s.issueWord w).writeSeq = s.writeSeq := rfl
@[simp] theorem State.issueWord_releases (w : Nat) : (s.issueWord w).releases = s.releases := rfl
@[simp] theorem State.issueWord_faults (w : Nat) : (s.issueWord w).faults = s.faults := rfl
@[simp] theorem State.issueWord_parts (w : Nat) : (s.issueWord w).parts = s.parts := rfl
@[simp] theorem State.issueWord_launches (w : Nat) : (s.issueWord w).launches = s.launches := rfl
@[simp] theorem State.issueWord_nextLaunch (w : Nat) : (s.issueWord w).nextLaunch = s.nextLaunch := rfl
@[simp] theorem State.issueWord_runs (w : Nat) : (s.issueWord w).runs = s.runs := rfl
@[simp] theorem State.issueWord_nextRun (w : Nat) : (s.issueWord w).nextRun = s.nextRun := rfl
@[simp] theorem State.issueWord_stripes (w : Nat) : (s.issueWord w).stripes = s.stripes := rfl
@[simp] theorem State.issueWord_dieStore (w : Nat) : (s.issueWord w).dieStore = s.dieStore := rfl
@[simp] theorem State.issueWord_ringCache (w : Nat) : (s.issueWord w).ringCache = s.ringCache := rfl
@[simp] theorem State.issueWord_turns (w : Nat) : (s.issueWord w).turns = s.turns := rfl
@[simp] theorem State.issueWord_joins (w : Nat) : (s.issueWord w).joins = s.joins := rfl
@[simp] theorem State.issueWord_blockCache (w : Nat) : (s.issueWord w).blockCache = s.blockCache := rfl
@[simp] theorem State.issueWord_copies (w : Nat) : (s.issueWord w).copies = s.copies := rfl
@[simp] theorem State.issueWord_segLoads (w : Nat) : (s.issueWord w).segLoads = s.segLoads := rfl
@[simp] theorem State.issueWord_flushes (w : Nat) : (s.issueWord w).flushes = s.flushes := rfl
@[simp] theorem State.issueWord_ctxJobs (w : Nat) : (s.issueWord w).ctxJobs = s.ctxJobs := rfl
@[simp] theorem State.issueWord_nextJob (w : Nat) : (s.issueWord w).nextJob = s.nextJob := rfl
@[simp] theorem State.issueWord_parked (w : Nat) : (s.issueWord w).parked = s.parked := rfl
@[simp] theorem State.issueWord_epochs (w : Nat) : (s.issueWord w).epochs = s.epochs := rfl
@[simp] theorem State.issueWord_probes (w : Nat) : (s.issueWord w).probes = s.probes := rfl
@[simp] theorem State.issueWord_inbound (w : Nat) : (s.issueWord w).inbound = s.inbound := rfl
@[simp] theorem State.issueWord_outbound (w : Nat) : (s.issueWord w).outbound = s.outbound := rfl
@[simp] theorem State.issueWord_hostOut (w : Nat) : (s.issueWord w).hostOut = s.hostOut := rfl
@[simp] theorem State.issueWord_umenoOut (w : Nat) : (s.issueWord w).umenoOut = s.umenoOut := rfl
@[simp] theorem State.issueWord_spdmOut (w : Nat) : (s.issueWord w).spdmOut = s.spdmOut := rfl
@[simp] theorem State.issueWord_hostIn (w : Nat) : (s.issueWord w).hostIn = s.hostIn := rfl
@[simp] theorem State.issueWord_saved (w : Nat) : (s.issueWord w).saved = s.saved := rfl
@[simp] theorem State.issueWord_io (w : Nat) : (s.issueWord w).io = s.io := rfl

/-! ## setCtx -/

@[simp] theorem State.setCtx_agenda (l : Option Nat) (c : Nat) (v : CoreCtx) : (s.setCtx l c v).agenda = s.agenda := rfl
@[simp] theorem State.setCtx_choices (l : Option Nat) (c : Nat) (v : CoreCtx) : (s.setCtx l c v).choices = s.choices := rfl
@[simp] theorem State.setCtx_draws (l : Option Nat) (c : Nat) (v : CoreCtx) : (s.setCtx l c v).draws = s.draws := rfl
@[simp] theorem State.setCtx_time (l : Option Nat) (c : Nat) (v : CoreCtx) : (s.setCtx l c v).time = s.time := rfl
@[simp] theorem State.setCtx_core (l : Option Nat) (c : Nat) (v : CoreCtx) : (s.setCtx l c v).core = s.core := rfl
@[simp] theorem State.setCtx_ir (l : Option Nat) (c : Nat) (v : CoreCtx) : (s.setCtx l c v).ir = s.ir := rfl
@[simp] theorem State.setCtx_th (l : Option Nat) (c : Nat) (v : CoreCtx) : (s.setCtx l c v).th = s.th := rfl
@[simp] theorem State.setCtx_threads (l : Option Nat) (c : Nat) (v : CoreCtx) : (s.setCtx l c v).threads = s.threads := rfl
@[simp] theorem State.setCtx_nextThread (l : Option Nat) (c : Nat) (v : CoreCtx) : (s.setCtx l c v).nextThread = s.nextThread := rfl
@[simp] theorem State.setCtx_cores (l : Option Nat) (c : Nat) (v : CoreCtx) : (s.setCtx l c v).cores = s.cores := rfl
@[simp] theorem State.setCtx_ctxs (l : Option Nat) (c : Nat) (v : CoreCtx) : (s.setCtx l c v).ctxs = Table.set (ctxKey l c) v s.ctxs := rfl
@[simp] theorem State.setCtx_issue (l : Option Nat) (c : Nat) (v : CoreCtx) : (s.setCtx l c v).issue = s.issue := rfl
@[simp] theorem State.setCtx_mem (l : Option Nat) (c : Nat) (v : CoreCtx) : (s.setCtx l c v).mem = s.mem := rfl
@[simp] theorem State.setCtx_stripeBuf (l : Option Nat) (c : Nat) (v : CoreCtx) : (s.setCtx l c v).stripeBuf = s.stripeBuf := rfl
@[simp] theorem State.setCtx_ringBuf (l : Option Nat) (c : Nat) (v : CoreCtx) : (s.setCtx l c v).ringBuf = s.ringBuf := rfl
@[simp] theorem State.setCtx_errors (l : Option Nat) (c : Nat) (v : CoreCtx) : (s.setCtx l c v).errors = s.errors := rfl
@[simp] theorem State.setCtx_tlb (l : Option Nat) (c : Nat) (v : CoreCtx) : (s.setCtx l c v).tlb = s.tlb := rfl
@[simp] theorem State.setCtx_posted (l : Option Nat) (c : Nat) (v : CoreCtx) : (s.setCtx l c v).posted = s.posted := rfl
@[simp] theorem State.setCtx_reds (l : Option Nat) (c : Nat) (v : CoreCtx) : (s.setCtx l c v).reds = s.reds := rfl
@[simp] theorem State.setCtx_wqueue (l : Option Nat) (c : Nat) (v : CoreCtx) : (s.setCtx l c v).wqueue = s.wqueue := rfl
@[simp] theorem State.setCtx_writes (l : Option Nat) (c : Nat) (v : CoreCtx) : (s.setCtx l c v).writes = s.writes := rfl
@[simp] theorem State.setCtx_writeSeq (l : Option Nat) (c : Nat) (v : CoreCtx) : (s.setCtx l c v).writeSeq = s.writeSeq := rfl
@[simp] theorem State.setCtx_releases (l : Option Nat) (c : Nat) (v : CoreCtx) : (s.setCtx l c v).releases = s.releases := rfl
@[simp] theorem State.setCtx_faults (l : Option Nat) (c : Nat) (v : CoreCtx) : (s.setCtx l c v).faults = s.faults := rfl
@[simp] theorem State.setCtx_parts (l : Option Nat) (c : Nat) (v : CoreCtx) : (s.setCtx l c v).parts = s.parts := rfl
@[simp] theorem State.setCtx_launches (l : Option Nat) (c : Nat) (v : CoreCtx) : (s.setCtx l c v).launches = s.launches := rfl
@[simp] theorem State.setCtx_nextLaunch (l : Option Nat) (c : Nat) (v : CoreCtx) : (s.setCtx l c v).nextLaunch = s.nextLaunch := rfl
@[simp] theorem State.setCtx_runs (l : Option Nat) (c : Nat) (v : CoreCtx) : (s.setCtx l c v).runs = s.runs := rfl
@[simp] theorem State.setCtx_nextRun (l : Option Nat) (c : Nat) (v : CoreCtx) : (s.setCtx l c v).nextRun = s.nextRun := rfl
@[simp] theorem State.setCtx_stripes (l : Option Nat) (c : Nat) (v : CoreCtx) : (s.setCtx l c v).stripes = s.stripes := rfl
@[simp] theorem State.setCtx_dieStore (l : Option Nat) (c : Nat) (v : CoreCtx) : (s.setCtx l c v).dieStore = s.dieStore := rfl
@[simp] theorem State.setCtx_ringCache (l : Option Nat) (c : Nat) (v : CoreCtx) : (s.setCtx l c v).ringCache = s.ringCache := rfl
@[simp] theorem State.setCtx_turns (l : Option Nat) (c : Nat) (v : CoreCtx) : (s.setCtx l c v).turns = s.turns := rfl
@[simp] theorem State.setCtx_joins (l : Option Nat) (c : Nat) (v : CoreCtx) : (s.setCtx l c v).joins = s.joins := rfl
@[simp] theorem State.setCtx_blockCache (l : Option Nat) (c : Nat) (v : CoreCtx) : (s.setCtx l c v).blockCache = s.blockCache := rfl
@[simp] theorem State.setCtx_copies (l : Option Nat) (c : Nat) (v : CoreCtx) : (s.setCtx l c v).copies = s.copies := rfl
@[simp] theorem State.setCtx_segLoads (l : Option Nat) (c : Nat) (v : CoreCtx) : (s.setCtx l c v).segLoads = s.segLoads := rfl
@[simp] theorem State.setCtx_flushes (l : Option Nat) (c : Nat) (v : CoreCtx) : (s.setCtx l c v).flushes = s.flushes := rfl
@[simp] theorem State.setCtx_ctxJobs (l : Option Nat) (c : Nat) (v : CoreCtx) : (s.setCtx l c v).ctxJobs = s.ctxJobs := rfl
@[simp] theorem State.setCtx_nextJob (l : Option Nat) (c : Nat) (v : CoreCtx) : (s.setCtx l c v).nextJob = s.nextJob := rfl
@[simp] theorem State.setCtx_parked (l : Option Nat) (c : Nat) (v : CoreCtx) : (s.setCtx l c v).parked = s.parked := rfl
@[simp] theorem State.setCtx_epochs (l : Option Nat) (c : Nat) (v : CoreCtx) : (s.setCtx l c v).epochs = s.epochs := rfl
@[simp] theorem State.setCtx_probes (l : Option Nat) (c : Nat) (v : CoreCtx) : (s.setCtx l c v).probes = s.probes := rfl
@[simp] theorem State.setCtx_inbound (l : Option Nat) (c : Nat) (v : CoreCtx) : (s.setCtx l c v).inbound = s.inbound := rfl
@[simp] theorem State.setCtx_outbound (l : Option Nat) (c : Nat) (v : CoreCtx) : (s.setCtx l c v).outbound = s.outbound := rfl
@[simp] theorem State.setCtx_hostOut (l : Option Nat) (c : Nat) (v : CoreCtx) : (s.setCtx l c v).hostOut = s.hostOut := rfl
@[simp] theorem State.setCtx_umenoOut (l : Option Nat) (c : Nat) (v : CoreCtx) : (s.setCtx l c v).umenoOut = s.umenoOut := rfl
@[simp] theorem State.setCtx_spdmOut (l : Option Nat) (c : Nat) (v : CoreCtx) : (s.setCtx l c v).spdmOut = s.spdmOut := rfl
@[simp] theorem State.setCtx_hostIn (l : Option Nat) (c : Nat) (v : CoreCtx) : (s.setCtx l c v).hostIn = s.hostIn := rfl
@[simp] theorem State.setCtx_saved (l : Option Nat) (c : Nat) (v : CoreCtx) : (s.setCtx l c v).saved = s.saved := rfl
@[simp] theorem State.setCtx_io (l : Option Nat) (c : Nat) (v : CoreCtx) : (s.setCtx l c v).io = s.io := rfl

/-! ## putCtx -/

@[simp] theorem State.putCtx_agenda (v : CoreCtx) : (s.putCtx v).agenda = s.agenda := rfl
@[simp] theorem State.putCtx_choices (v : CoreCtx) : (s.putCtx v).choices = s.choices := rfl
@[simp] theorem State.putCtx_draws (v : CoreCtx) : (s.putCtx v).draws = s.draws := rfl
@[simp] theorem State.putCtx_time (v : CoreCtx) : (s.putCtx v).time = s.time := rfl
@[simp] theorem State.putCtx_core (v : CoreCtx) : (s.putCtx v).core = s.core := rfl
@[simp] theorem State.putCtx_ir (v : CoreCtx) : (s.putCtx v).ir = s.ir := rfl
@[simp] theorem State.putCtx_th (v : CoreCtx) : (s.putCtx v).th = s.th := rfl
@[simp] theorem State.putCtx_threads (v : CoreCtx) : (s.putCtx v).threads = s.threads := rfl
@[simp] theorem State.putCtx_nextThread (v : CoreCtx) : (s.putCtx v).nextThread = s.nextThread := rfl
@[simp] theorem State.putCtx_cores (v : CoreCtx) : (s.putCtx v).cores = s.cores := rfl
@[simp] theorem State.putCtx_ctxs (v : CoreCtx) : (s.putCtx v).ctxs = Table.set (ctxKey s.th.launch s.core) v s.ctxs := rfl
@[simp] theorem State.putCtx_issue (v : CoreCtx) : (s.putCtx v).issue = s.issue := rfl
@[simp] theorem State.putCtx_mem (v : CoreCtx) : (s.putCtx v).mem = s.mem := rfl
@[simp] theorem State.putCtx_stripeBuf (v : CoreCtx) : (s.putCtx v).stripeBuf = s.stripeBuf := rfl
@[simp] theorem State.putCtx_ringBuf (v : CoreCtx) : (s.putCtx v).ringBuf = s.ringBuf := rfl
@[simp] theorem State.putCtx_errors (v : CoreCtx) : (s.putCtx v).errors = s.errors := rfl
@[simp] theorem State.putCtx_tlb (v : CoreCtx) : (s.putCtx v).tlb = s.tlb := rfl
@[simp] theorem State.putCtx_posted (v : CoreCtx) : (s.putCtx v).posted = s.posted := rfl
@[simp] theorem State.putCtx_reds (v : CoreCtx) : (s.putCtx v).reds = s.reds := rfl
@[simp] theorem State.putCtx_wqueue (v : CoreCtx) : (s.putCtx v).wqueue = s.wqueue := rfl
@[simp] theorem State.putCtx_writes (v : CoreCtx) : (s.putCtx v).writes = s.writes := rfl
@[simp] theorem State.putCtx_writeSeq (v : CoreCtx) : (s.putCtx v).writeSeq = s.writeSeq := rfl
@[simp] theorem State.putCtx_releases (v : CoreCtx) : (s.putCtx v).releases = s.releases := rfl
@[simp] theorem State.putCtx_faults (v : CoreCtx) : (s.putCtx v).faults = s.faults := rfl
@[simp] theorem State.putCtx_parts (v : CoreCtx) : (s.putCtx v).parts = s.parts := rfl
@[simp] theorem State.putCtx_launches (v : CoreCtx) : (s.putCtx v).launches = s.launches := rfl
@[simp] theorem State.putCtx_nextLaunch (v : CoreCtx) : (s.putCtx v).nextLaunch = s.nextLaunch := rfl
@[simp] theorem State.putCtx_runs (v : CoreCtx) : (s.putCtx v).runs = s.runs := rfl
@[simp] theorem State.putCtx_nextRun (v : CoreCtx) : (s.putCtx v).nextRun = s.nextRun := rfl
@[simp] theorem State.putCtx_stripes (v : CoreCtx) : (s.putCtx v).stripes = s.stripes := rfl
@[simp] theorem State.putCtx_dieStore (v : CoreCtx) : (s.putCtx v).dieStore = s.dieStore := rfl
@[simp] theorem State.putCtx_ringCache (v : CoreCtx) : (s.putCtx v).ringCache = s.ringCache := rfl
@[simp] theorem State.putCtx_turns (v : CoreCtx) : (s.putCtx v).turns = s.turns := rfl
@[simp] theorem State.putCtx_joins (v : CoreCtx) : (s.putCtx v).joins = s.joins := rfl
@[simp] theorem State.putCtx_blockCache (v : CoreCtx) : (s.putCtx v).blockCache = s.blockCache := rfl
@[simp] theorem State.putCtx_copies (v : CoreCtx) : (s.putCtx v).copies = s.copies := rfl
@[simp] theorem State.putCtx_segLoads (v : CoreCtx) : (s.putCtx v).segLoads = s.segLoads := rfl
@[simp] theorem State.putCtx_flushes (v : CoreCtx) : (s.putCtx v).flushes = s.flushes := rfl
@[simp] theorem State.putCtx_ctxJobs (v : CoreCtx) : (s.putCtx v).ctxJobs = s.ctxJobs := rfl
@[simp] theorem State.putCtx_nextJob (v : CoreCtx) : (s.putCtx v).nextJob = s.nextJob := rfl
@[simp] theorem State.putCtx_parked (v : CoreCtx) : (s.putCtx v).parked = s.parked := rfl
@[simp] theorem State.putCtx_epochs (v : CoreCtx) : (s.putCtx v).epochs = s.epochs := rfl
@[simp] theorem State.putCtx_probes (v : CoreCtx) : (s.putCtx v).probes = s.probes := rfl
@[simp] theorem State.putCtx_inbound (v : CoreCtx) : (s.putCtx v).inbound = s.inbound := rfl
@[simp] theorem State.putCtx_outbound (v : CoreCtx) : (s.putCtx v).outbound = s.outbound := rfl
@[simp] theorem State.putCtx_hostOut (v : CoreCtx) : (s.putCtx v).hostOut = s.hostOut := rfl
@[simp] theorem State.putCtx_umenoOut (v : CoreCtx) : (s.putCtx v).umenoOut = s.umenoOut := rfl
@[simp] theorem State.putCtx_spdmOut (v : CoreCtx) : (s.putCtx v).spdmOut = s.spdmOut := rfl
@[simp] theorem State.putCtx_hostIn (v : CoreCtx) : (s.putCtx v).hostIn = s.hostIn := rfl
@[simp] theorem State.putCtx_saved (v : CoreCtx) : (s.putCtx v).saved = s.saved := rfl
@[simp] theorem State.putCtx_io (v : CoreCtx) : (s.putCtx v).io = s.io := rfl

/-! ## setRunning -/

@[simp] theorem State.setRunning_agenda (c : Nat) (r : Option Nat) : (s.setRunning c r).agenda = s.agenda := rfl
@[simp] theorem State.setRunning_choices (c : Nat) (r : Option Nat) : (s.setRunning c r).choices = s.choices := rfl
@[simp] theorem State.setRunning_draws (c : Nat) (r : Option Nat) : (s.setRunning c r).draws = s.draws := rfl
@[simp] theorem State.setRunning_time (c : Nat) (r : Option Nat) : (s.setRunning c r).time = s.time := rfl
@[simp] theorem State.setRunning_core (c : Nat) (r : Option Nat) : (s.setRunning c r).core = s.core := rfl
@[simp] theorem State.setRunning_ir (c : Nat) (r : Option Nat) : (s.setRunning c r).ir = s.ir := rfl
@[simp] theorem State.setRunning_th (c : Nat) (r : Option Nat) : (s.setRunning c r).th = s.th := rfl
@[simp] theorem State.setRunning_threads (c : Nat) (r : Option Nat) : (s.setRunning c r).threads = s.threads := rfl
@[simp] theorem State.setRunning_nextThread (c : Nat) (r : Option Nat) : (s.setRunning c r).nextThread = s.nextThread := rfl
@[simp] theorem State.setRunning_cores (c : Nat) (r : Option Nat) : (s.setRunning c r).cores = Table.set c { s.coreAt c with running := r } s.cores := rfl
@[simp] theorem State.setRunning_ctxs (c : Nat) (r : Option Nat) : (s.setRunning c r).ctxs = s.ctxs := rfl
@[simp] theorem State.setRunning_issue (c : Nat) (r : Option Nat) : (s.setRunning c r).issue = s.issue := rfl
@[simp] theorem State.setRunning_mem (c : Nat) (r : Option Nat) : (s.setRunning c r).mem = s.mem := rfl
@[simp] theorem State.setRunning_stripeBuf (c : Nat) (r : Option Nat) : (s.setRunning c r).stripeBuf = s.stripeBuf := rfl
@[simp] theorem State.setRunning_ringBuf (c : Nat) (r : Option Nat) : (s.setRunning c r).ringBuf = s.ringBuf := rfl
@[simp] theorem State.setRunning_errors (c : Nat) (r : Option Nat) : (s.setRunning c r).errors = s.errors := rfl
@[simp] theorem State.setRunning_tlb (c : Nat) (r : Option Nat) : (s.setRunning c r).tlb = s.tlb := rfl
@[simp] theorem State.setRunning_posted (c : Nat) (r : Option Nat) : (s.setRunning c r).posted = s.posted := rfl
@[simp] theorem State.setRunning_reds (c : Nat) (r : Option Nat) : (s.setRunning c r).reds = s.reds := rfl
@[simp] theorem State.setRunning_wqueue (c : Nat) (r : Option Nat) : (s.setRunning c r).wqueue = s.wqueue := rfl
@[simp] theorem State.setRunning_writes (c : Nat) (r : Option Nat) : (s.setRunning c r).writes = s.writes := rfl
@[simp] theorem State.setRunning_writeSeq (c : Nat) (r : Option Nat) : (s.setRunning c r).writeSeq = s.writeSeq := rfl
@[simp] theorem State.setRunning_releases (c : Nat) (r : Option Nat) : (s.setRunning c r).releases = s.releases := rfl
@[simp] theorem State.setRunning_faults (c : Nat) (r : Option Nat) : (s.setRunning c r).faults = s.faults := rfl
@[simp] theorem State.setRunning_parts (c : Nat) (r : Option Nat) : (s.setRunning c r).parts = s.parts := rfl
@[simp] theorem State.setRunning_launches (c : Nat) (r : Option Nat) : (s.setRunning c r).launches = s.launches := rfl
@[simp] theorem State.setRunning_nextLaunch (c : Nat) (r : Option Nat) : (s.setRunning c r).nextLaunch = s.nextLaunch := rfl
@[simp] theorem State.setRunning_runs (c : Nat) (r : Option Nat) : (s.setRunning c r).runs = s.runs := rfl
@[simp] theorem State.setRunning_nextRun (c : Nat) (r : Option Nat) : (s.setRunning c r).nextRun = s.nextRun := rfl
@[simp] theorem State.setRunning_stripes (c : Nat) (r : Option Nat) : (s.setRunning c r).stripes = s.stripes := rfl
@[simp] theorem State.setRunning_dieStore (c : Nat) (r : Option Nat) : (s.setRunning c r).dieStore = s.dieStore := rfl
@[simp] theorem State.setRunning_ringCache (c : Nat) (r : Option Nat) : (s.setRunning c r).ringCache = s.ringCache := rfl
@[simp] theorem State.setRunning_turns (c : Nat) (r : Option Nat) : (s.setRunning c r).turns = s.turns := rfl
@[simp] theorem State.setRunning_joins (c : Nat) (r : Option Nat) : (s.setRunning c r).joins = s.joins := rfl
@[simp] theorem State.setRunning_blockCache (c : Nat) (r : Option Nat) : (s.setRunning c r).blockCache = s.blockCache := rfl
@[simp] theorem State.setRunning_copies (c : Nat) (r : Option Nat) : (s.setRunning c r).copies = s.copies := rfl
@[simp] theorem State.setRunning_segLoads (c : Nat) (r : Option Nat) : (s.setRunning c r).segLoads = s.segLoads := rfl
@[simp] theorem State.setRunning_flushes (c : Nat) (r : Option Nat) : (s.setRunning c r).flushes = s.flushes := rfl
@[simp] theorem State.setRunning_ctxJobs (c : Nat) (r : Option Nat) : (s.setRunning c r).ctxJobs = s.ctxJobs := rfl
@[simp] theorem State.setRunning_nextJob (c : Nat) (r : Option Nat) : (s.setRunning c r).nextJob = s.nextJob := rfl
@[simp] theorem State.setRunning_parked (c : Nat) (r : Option Nat) : (s.setRunning c r).parked = s.parked := rfl
@[simp] theorem State.setRunning_epochs (c : Nat) (r : Option Nat) : (s.setRunning c r).epochs = s.epochs := rfl
@[simp] theorem State.setRunning_probes (c : Nat) (r : Option Nat) : (s.setRunning c r).probes = s.probes := rfl
@[simp] theorem State.setRunning_inbound (c : Nat) (r : Option Nat) : (s.setRunning c r).inbound = s.inbound := rfl
@[simp] theorem State.setRunning_outbound (c : Nat) (r : Option Nat) : (s.setRunning c r).outbound = s.outbound := rfl
@[simp] theorem State.setRunning_hostOut (c : Nat) (r : Option Nat) : (s.setRunning c r).hostOut = s.hostOut := rfl
@[simp] theorem State.setRunning_umenoOut (c : Nat) (r : Option Nat) : (s.setRunning c r).umenoOut = s.umenoOut := rfl
@[simp] theorem State.setRunning_spdmOut (c : Nat) (r : Option Nat) : (s.setRunning c r).spdmOut = s.spdmOut := rfl
@[simp] theorem State.setRunning_hostIn (c : Nat) (r : Option Nat) : (s.setRunning c r).hostIn = s.hostIn := rfl
@[simp] theorem State.setRunning_saved (c : Nat) (r : Option Nat) : (s.setRunning c r).saved = s.saved := rfl
@[simp] theorem State.setRunning_io (c : Nat) (r : Option Nat) : (s.setRunning c r).io = s.io := rfl

/-! ## setLaunch -/

@[simp] theorem State.setLaunch_agenda (l : Nat) (v : Launch) : (s.setLaunch l v).agenda = s.agenda := rfl
@[simp] theorem State.setLaunch_choices (l : Nat) (v : Launch) : (s.setLaunch l v).choices = s.choices := rfl
@[simp] theorem State.setLaunch_draws (l : Nat) (v : Launch) : (s.setLaunch l v).draws = s.draws := rfl
@[simp] theorem State.setLaunch_time (l : Nat) (v : Launch) : (s.setLaunch l v).time = s.time := rfl
@[simp] theorem State.setLaunch_core (l : Nat) (v : Launch) : (s.setLaunch l v).core = s.core := rfl
@[simp] theorem State.setLaunch_ir (l : Nat) (v : Launch) : (s.setLaunch l v).ir = s.ir := rfl
@[simp] theorem State.setLaunch_th (l : Nat) (v : Launch) : (s.setLaunch l v).th = s.th := rfl
@[simp] theorem State.setLaunch_threads (l : Nat) (v : Launch) : (s.setLaunch l v).threads = s.threads := rfl
@[simp] theorem State.setLaunch_nextThread (l : Nat) (v : Launch) : (s.setLaunch l v).nextThread = s.nextThread := rfl
@[simp] theorem State.setLaunch_cores (l : Nat) (v : Launch) : (s.setLaunch l v).cores = s.cores := rfl
@[simp] theorem State.setLaunch_ctxs (l : Nat) (v : Launch) : (s.setLaunch l v).ctxs = s.ctxs := rfl
@[simp] theorem State.setLaunch_issue (l : Nat) (v : Launch) : (s.setLaunch l v).issue = s.issue := rfl
@[simp] theorem State.setLaunch_mem (l : Nat) (v : Launch) : (s.setLaunch l v).mem = s.mem := rfl
@[simp] theorem State.setLaunch_stripeBuf (l : Nat) (v : Launch) : (s.setLaunch l v).stripeBuf = s.stripeBuf := rfl
@[simp] theorem State.setLaunch_ringBuf (l : Nat) (v : Launch) : (s.setLaunch l v).ringBuf = s.ringBuf := rfl
@[simp] theorem State.setLaunch_errors (l : Nat) (v : Launch) : (s.setLaunch l v).errors = s.errors := rfl
@[simp] theorem State.setLaunch_tlb (l : Nat) (v : Launch) : (s.setLaunch l v).tlb = s.tlb := rfl
@[simp] theorem State.setLaunch_posted (l : Nat) (v : Launch) : (s.setLaunch l v).posted = s.posted := rfl
@[simp] theorem State.setLaunch_reds (l : Nat) (v : Launch) : (s.setLaunch l v).reds = s.reds := rfl
@[simp] theorem State.setLaunch_wqueue (l : Nat) (v : Launch) : (s.setLaunch l v).wqueue = s.wqueue := rfl
@[simp] theorem State.setLaunch_writes (l : Nat) (v : Launch) : (s.setLaunch l v).writes = s.writes := rfl
@[simp] theorem State.setLaunch_writeSeq (l : Nat) (v : Launch) : (s.setLaunch l v).writeSeq = s.writeSeq := rfl
@[simp] theorem State.setLaunch_releases (l : Nat) (v : Launch) : (s.setLaunch l v).releases = s.releases := rfl
@[simp] theorem State.setLaunch_faults (l : Nat) (v : Launch) : (s.setLaunch l v).faults = s.faults := rfl
@[simp] theorem State.setLaunch_parts (l : Nat) (v : Launch) : (s.setLaunch l v).parts = s.parts := rfl
@[simp] theorem State.setLaunch_launches (l : Nat) (v : Launch) : (s.setLaunch l v).launches = Table.set l v s.launches := rfl
@[simp] theorem State.setLaunch_nextLaunch (l : Nat) (v : Launch) : (s.setLaunch l v).nextLaunch = s.nextLaunch := rfl
@[simp] theorem State.setLaunch_runs (l : Nat) (v : Launch) : (s.setLaunch l v).runs = s.runs := rfl
@[simp] theorem State.setLaunch_nextRun (l : Nat) (v : Launch) : (s.setLaunch l v).nextRun = s.nextRun := rfl
@[simp] theorem State.setLaunch_stripes (l : Nat) (v : Launch) : (s.setLaunch l v).stripes = s.stripes := rfl
@[simp] theorem State.setLaunch_dieStore (l : Nat) (v : Launch) : (s.setLaunch l v).dieStore = s.dieStore := rfl
@[simp] theorem State.setLaunch_ringCache (l : Nat) (v : Launch) : (s.setLaunch l v).ringCache = s.ringCache := rfl
@[simp] theorem State.setLaunch_turns (l : Nat) (v : Launch) : (s.setLaunch l v).turns = s.turns := rfl
@[simp] theorem State.setLaunch_joins (l : Nat) (v : Launch) : (s.setLaunch l v).joins = s.joins := rfl
@[simp] theorem State.setLaunch_blockCache (l : Nat) (v : Launch) : (s.setLaunch l v).blockCache = s.blockCache := rfl
@[simp] theorem State.setLaunch_copies (l : Nat) (v : Launch) : (s.setLaunch l v).copies = s.copies := rfl
@[simp] theorem State.setLaunch_segLoads (l : Nat) (v : Launch) : (s.setLaunch l v).segLoads = s.segLoads := rfl
@[simp] theorem State.setLaunch_flushes (l : Nat) (v : Launch) : (s.setLaunch l v).flushes = s.flushes := rfl
@[simp] theorem State.setLaunch_ctxJobs (l : Nat) (v : Launch) : (s.setLaunch l v).ctxJobs = s.ctxJobs := rfl
@[simp] theorem State.setLaunch_nextJob (l : Nat) (v : Launch) : (s.setLaunch l v).nextJob = s.nextJob := rfl
@[simp] theorem State.setLaunch_parked (l : Nat) (v : Launch) : (s.setLaunch l v).parked = s.parked := rfl
@[simp] theorem State.setLaunch_epochs (l : Nat) (v : Launch) : (s.setLaunch l v).epochs = s.epochs := rfl
@[simp] theorem State.setLaunch_probes (l : Nat) (v : Launch) : (s.setLaunch l v).probes = s.probes := rfl
@[simp] theorem State.setLaunch_inbound (l : Nat) (v : Launch) : (s.setLaunch l v).inbound = s.inbound := rfl
@[simp] theorem State.setLaunch_outbound (l : Nat) (v : Launch) : (s.setLaunch l v).outbound = s.outbound := rfl
@[simp] theorem State.setLaunch_hostOut (l : Nat) (v : Launch) : (s.setLaunch l v).hostOut = s.hostOut := rfl
@[simp] theorem State.setLaunch_umenoOut (l : Nat) (v : Launch) : (s.setLaunch l v).umenoOut = s.umenoOut := rfl
@[simp] theorem State.setLaunch_spdmOut (l : Nat) (v : Launch) : (s.setLaunch l v).spdmOut = s.spdmOut := rfl
@[simp] theorem State.setLaunch_hostIn (l : Nat) (v : Launch) : (s.setLaunch l v).hostIn = s.hostIn := rfl
@[simp] theorem State.setLaunch_saved (l : Nat) (v : Launch) : (s.setLaunch l v).saved = s.saved := rfl
@[simp] theorem State.setLaunch_io (l : Nat) (v : Launch) : (s.setLaunch l v).io = s.io := rfl

/-! ## setPart -/

@[simp] theorem State.setPart_agenda (p : Nat) (v : Partition) : (s.setPart p v).agenda = s.agenda := rfl
@[simp] theorem State.setPart_choices (p : Nat) (v : Partition) : (s.setPart p v).choices = s.choices := rfl
@[simp] theorem State.setPart_draws (p : Nat) (v : Partition) : (s.setPart p v).draws = s.draws := rfl
@[simp] theorem State.setPart_time (p : Nat) (v : Partition) : (s.setPart p v).time = s.time := rfl
@[simp] theorem State.setPart_core (p : Nat) (v : Partition) : (s.setPart p v).core = s.core := rfl
@[simp] theorem State.setPart_ir (p : Nat) (v : Partition) : (s.setPart p v).ir = s.ir := rfl
@[simp] theorem State.setPart_th (p : Nat) (v : Partition) : (s.setPart p v).th = s.th := rfl
@[simp] theorem State.setPart_threads (p : Nat) (v : Partition) : (s.setPart p v).threads = s.threads := rfl
@[simp] theorem State.setPart_nextThread (p : Nat) (v : Partition) : (s.setPart p v).nextThread = s.nextThread := rfl
@[simp] theorem State.setPart_cores (p : Nat) (v : Partition) : (s.setPart p v).cores = s.cores := rfl
@[simp] theorem State.setPart_ctxs (p : Nat) (v : Partition) : (s.setPart p v).ctxs = s.ctxs := rfl
@[simp] theorem State.setPart_issue (p : Nat) (v : Partition) : (s.setPart p v).issue = s.issue := rfl
@[simp] theorem State.setPart_mem (p : Nat) (v : Partition) : (s.setPart p v).mem = s.mem := rfl
@[simp] theorem State.setPart_stripeBuf (p : Nat) (v : Partition) : (s.setPart p v).stripeBuf = s.stripeBuf := rfl
@[simp] theorem State.setPart_ringBuf (p : Nat) (v : Partition) : (s.setPart p v).ringBuf = s.ringBuf := rfl
@[simp] theorem State.setPart_errors (p : Nat) (v : Partition) : (s.setPart p v).errors = s.errors := rfl
@[simp] theorem State.setPart_tlb (p : Nat) (v : Partition) : (s.setPart p v).tlb = s.tlb := rfl
@[simp] theorem State.setPart_posted (p : Nat) (v : Partition) : (s.setPart p v).posted = s.posted := rfl
@[simp] theorem State.setPart_reds (p : Nat) (v : Partition) : (s.setPart p v).reds = s.reds := rfl
@[simp] theorem State.setPart_wqueue (p : Nat) (v : Partition) : (s.setPart p v).wqueue = s.wqueue := rfl
@[simp] theorem State.setPart_writes (p : Nat) (v : Partition) : (s.setPart p v).writes = s.writes := rfl
@[simp] theorem State.setPart_writeSeq (p : Nat) (v : Partition) : (s.setPart p v).writeSeq = s.writeSeq := rfl
@[simp] theorem State.setPart_releases (p : Nat) (v : Partition) : (s.setPart p v).releases = s.releases := rfl
@[simp] theorem State.setPart_faults (p : Nat) (v : Partition) : (s.setPart p v).faults = s.faults := rfl
@[simp] theorem State.setPart_parts (p : Nat) (v : Partition) : (s.setPart p v).parts = Table.set p v s.parts := rfl
@[simp] theorem State.setPart_launches (p : Nat) (v : Partition) : (s.setPart p v).launches = s.launches := rfl
@[simp] theorem State.setPart_nextLaunch (p : Nat) (v : Partition) : (s.setPart p v).nextLaunch = s.nextLaunch := rfl
@[simp] theorem State.setPart_runs (p : Nat) (v : Partition) : (s.setPart p v).runs = s.runs := rfl
@[simp] theorem State.setPart_nextRun (p : Nat) (v : Partition) : (s.setPart p v).nextRun = s.nextRun := rfl
@[simp] theorem State.setPart_stripes (p : Nat) (v : Partition) : (s.setPart p v).stripes = s.stripes := rfl
@[simp] theorem State.setPart_dieStore (p : Nat) (v : Partition) : (s.setPart p v).dieStore = s.dieStore := rfl
@[simp] theorem State.setPart_ringCache (p : Nat) (v : Partition) : (s.setPart p v).ringCache = s.ringCache := rfl
@[simp] theorem State.setPart_turns (p : Nat) (v : Partition) : (s.setPart p v).turns = s.turns := rfl
@[simp] theorem State.setPart_joins (p : Nat) (v : Partition) : (s.setPart p v).joins = s.joins := rfl
@[simp] theorem State.setPart_blockCache (p : Nat) (v : Partition) : (s.setPart p v).blockCache = s.blockCache := rfl
@[simp] theorem State.setPart_copies (p : Nat) (v : Partition) : (s.setPart p v).copies = s.copies := rfl
@[simp] theorem State.setPart_segLoads (p : Nat) (v : Partition) : (s.setPart p v).segLoads = s.segLoads := rfl
@[simp] theorem State.setPart_flushes (p : Nat) (v : Partition) : (s.setPart p v).flushes = s.flushes := rfl
@[simp] theorem State.setPart_ctxJobs (p : Nat) (v : Partition) : (s.setPart p v).ctxJobs = s.ctxJobs := rfl
@[simp] theorem State.setPart_nextJob (p : Nat) (v : Partition) : (s.setPart p v).nextJob = s.nextJob := rfl
@[simp] theorem State.setPart_parked (p : Nat) (v : Partition) : (s.setPart p v).parked = s.parked := rfl
@[simp] theorem State.setPart_epochs (p : Nat) (v : Partition) : (s.setPart p v).epochs = s.epochs := rfl
@[simp] theorem State.setPart_probes (p : Nat) (v : Partition) : (s.setPart p v).probes = s.probes := rfl
@[simp] theorem State.setPart_inbound (p : Nat) (v : Partition) : (s.setPart p v).inbound = s.inbound := rfl
@[simp] theorem State.setPart_outbound (p : Nat) (v : Partition) : (s.setPart p v).outbound = s.outbound := rfl
@[simp] theorem State.setPart_hostOut (p : Nat) (v : Partition) : (s.setPart p v).hostOut = s.hostOut := rfl
@[simp] theorem State.setPart_umenoOut (p : Nat) (v : Partition) : (s.setPart p v).umenoOut = s.umenoOut := rfl
@[simp] theorem State.setPart_spdmOut (p : Nat) (v : Partition) : (s.setPart p v).spdmOut = s.spdmOut := rfl
@[simp] theorem State.setPart_hostIn (p : Nat) (v : Partition) : (s.setPart p v).hostIn = s.hostIn := rfl
@[simp] theorem State.setPart_saved (p : Nat) (v : Partition) : (s.setPart p v).saved = s.saved := rfl
@[simp] theorem State.setPart_io (p : Nat) (v : Partition) : (s.setPart p v).io = s.io := rfl

/-! ## setRun -/

@[simp] theorem State.setRun_agenda (r : Nat) (v : Run) : (s.setRun r v).agenda = s.agenda := rfl
@[simp] theorem State.setRun_choices (r : Nat) (v : Run) : (s.setRun r v).choices = s.choices := rfl
@[simp] theorem State.setRun_draws (r : Nat) (v : Run) : (s.setRun r v).draws = s.draws := rfl
@[simp] theorem State.setRun_time (r : Nat) (v : Run) : (s.setRun r v).time = s.time := rfl
@[simp] theorem State.setRun_core (r : Nat) (v : Run) : (s.setRun r v).core = s.core := rfl
@[simp] theorem State.setRun_ir (r : Nat) (v : Run) : (s.setRun r v).ir = s.ir := rfl
@[simp] theorem State.setRun_th (r : Nat) (v : Run) : (s.setRun r v).th = s.th := rfl
@[simp] theorem State.setRun_threads (r : Nat) (v : Run) : (s.setRun r v).threads = s.threads := rfl
@[simp] theorem State.setRun_nextThread (r : Nat) (v : Run) : (s.setRun r v).nextThread = s.nextThread := rfl
@[simp] theorem State.setRun_cores (r : Nat) (v : Run) : (s.setRun r v).cores = s.cores := rfl
@[simp] theorem State.setRun_ctxs (r : Nat) (v : Run) : (s.setRun r v).ctxs = s.ctxs := rfl
@[simp] theorem State.setRun_issue (r : Nat) (v : Run) : (s.setRun r v).issue = s.issue := rfl
@[simp] theorem State.setRun_mem (r : Nat) (v : Run) : (s.setRun r v).mem = s.mem := rfl
@[simp] theorem State.setRun_stripeBuf (r : Nat) (v : Run) : (s.setRun r v).stripeBuf = s.stripeBuf := rfl
@[simp] theorem State.setRun_ringBuf (r : Nat) (v : Run) : (s.setRun r v).ringBuf = s.ringBuf := rfl
@[simp] theorem State.setRun_errors (r : Nat) (v : Run) : (s.setRun r v).errors = s.errors := rfl
@[simp] theorem State.setRun_tlb (r : Nat) (v : Run) : (s.setRun r v).tlb = s.tlb := rfl
@[simp] theorem State.setRun_posted (r : Nat) (v : Run) : (s.setRun r v).posted = s.posted := rfl
@[simp] theorem State.setRun_reds (r : Nat) (v : Run) : (s.setRun r v).reds = s.reds := rfl
@[simp] theorem State.setRun_wqueue (r : Nat) (v : Run) : (s.setRun r v).wqueue = s.wqueue := rfl
@[simp] theorem State.setRun_writes (r : Nat) (v : Run) : (s.setRun r v).writes = s.writes := rfl
@[simp] theorem State.setRun_writeSeq (r : Nat) (v : Run) : (s.setRun r v).writeSeq = s.writeSeq := rfl
@[simp] theorem State.setRun_releases (r : Nat) (v : Run) : (s.setRun r v).releases = s.releases := rfl
@[simp] theorem State.setRun_faults (r : Nat) (v : Run) : (s.setRun r v).faults = s.faults := rfl
@[simp] theorem State.setRun_parts (r : Nat) (v : Run) : (s.setRun r v).parts = s.parts := rfl
@[simp] theorem State.setRun_launches (r : Nat) (v : Run) : (s.setRun r v).launches = s.launches := rfl
@[simp] theorem State.setRun_nextLaunch (r : Nat) (v : Run) : (s.setRun r v).nextLaunch = s.nextLaunch := rfl
@[simp] theorem State.setRun_runs (r : Nat) (v : Run) : (s.setRun r v).runs = Table.set r v s.runs := rfl
@[simp] theorem State.setRun_nextRun (r : Nat) (v : Run) : (s.setRun r v).nextRun = s.nextRun := rfl
@[simp] theorem State.setRun_stripes (r : Nat) (v : Run) : (s.setRun r v).stripes = s.stripes := rfl
@[simp] theorem State.setRun_dieStore (r : Nat) (v : Run) : (s.setRun r v).dieStore = s.dieStore := rfl
@[simp] theorem State.setRun_ringCache (r : Nat) (v : Run) : (s.setRun r v).ringCache = s.ringCache := rfl
@[simp] theorem State.setRun_turns (r : Nat) (v : Run) : (s.setRun r v).turns = s.turns := rfl
@[simp] theorem State.setRun_joins (r : Nat) (v : Run) : (s.setRun r v).joins = s.joins := rfl
@[simp] theorem State.setRun_blockCache (r : Nat) (v : Run) : (s.setRun r v).blockCache = s.blockCache := rfl
@[simp] theorem State.setRun_copies (r : Nat) (v : Run) : (s.setRun r v).copies = s.copies := rfl
@[simp] theorem State.setRun_segLoads (r : Nat) (v : Run) : (s.setRun r v).segLoads = s.segLoads := rfl
@[simp] theorem State.setRun_flushes (r : Nat) (v : Run) : (s.setRun r v).flushes = s.flushes := rfl
@[simp] theorem State.setRun_ctxJobs (r : Nat) (v : Run) : (s.setRun r v).ctxJobs = s.ctxJobs := rfl
@[simp] theorem State.setRun_nextJob (r : Nat) (v : Run) : (s.setRun r v).nextJob = s.nextJob := rfl
@[simp] theorem State.setRun_parked (r : Nat) (v : Run) : (s.setRun r v).parked = s.parked := rfl
@[simp] theorem State.setRun_epochs (r : Nat) (v : Run) : (s.setRun r v).epochs = s.epochs := rfl
@[simp] theorem State.setRun_probes (r : Nat) (v : Run) : (s.setRun r v).probes = s.probes := rfl
@[simp] theorem State.setRun_inbound (r : Nat) (v : Run) : (s.setRun r v).inbound = s.inbound := rfl
@[simp] theorem State.setRun_outbound (r : Nat) (v : Run) : (s.setRun r v).outbound = s.outbound := rfl
@[simp] theorem State.setRun_hostOut (r : Nat) (v : Run) : (s.setRun r v).hostOut = s.hostOut := rfl
@[simp] theorem State.setRun_umenoOut (r : Nat) (v : Run) : (s.setRun r v).umenoOut = s.umenoOut := rfl
@[simp] theorem State.setRun_spdmOut (r : Nat) (v : Run) : (s.setRun r v).spdmOut = s.spdmOut := rfl
@[simp] theorem State.setRun_hostIn (r : Nat) (v : Run) : (s.setRun r v).hostIn = s.hostIn := rfl
@[simp] theorem State.setRun_saved (r : Nat) (v : Run) : (s.setRun r v).saved = s.saved := rfl
@[simp] theorem State.setRun_io (r : Nat) (v : Run) : (s.setRun r v).io = s.io := rfl

/-! ## setStripe -/

@[simp] theorem State.setStripe_agenda (x : Nat) (v : Stripe) : (s.setStripe x v).agenda = s.agenda := rfl
@[simp] theorem State.setStripe_choices (x : Nat) (v : Stripe) : (s.setStripe x v).choices = s.choices := rfl
@[simp] theorem State.setStripe_draws (x : Nat) (v : Stripe) : (s.setStripe x v).draws = s.draws := rfl
@[simp] theorem State.setStripe_time (x : Nat) (v : Stripe) : (s.setStripe x v).time = s.time := rfl
@[simp] theorem State.setStripe_core (x : Nat) (v : Stripe) : (s.setStripe x v).core = s.core := rfl
@[simp] theorem State.setStripe_ir (x : Nat) (v : Stripe) : (s.setStripe x v).ir = s.ir := rfl
@[simp] theorem State.setStripe_th (x : Nat) (v : Stripe) : (s.setStripe x v).th = s.th := rfl
@[simp] theorem State.setStripe_threads (x : Nat) (v : Stripe) : (s.setStripe x v).threads = s.threads := rfl
@[simp] theorem State.setStripe_nextThread (x : Nat) (v : Stripe) : (s.setStripe x v).nextThread = s.nextThread := rfl
@[simp] theorem State.setStripe_cores (x : Nat) (v : Stripe) : (s.setStripe x v).cores = s.cores := rfl
@[simp] theorem State.setStripe_ctxs (x : Nat) (v : Stripe) : (s.setStripe x v).ctxs = s.ctxs := rfl
@[simp] theorem State.setStripe_issue (x : Nat) (v : Stripe) : (s.setStripe x v).issue = s.issue := rfl
@[simp] theorem State.setStripe_mem (x : Nat) (v : Stripe) : (s.setStripe x v).mem = s.mem := rfl
@[simp] theorem State.setStripe_stripeBuf (x : Nat) (v : Stripe) : (s.setStripe x v).stripeBuf = s.stripeBuf := rfl
@[simp] theorem State.setStripe_ringBuf (x : Nat) (v : Stripe) : (s.setStripe x v).ringBuf = s.ringBuf := rfl
@[simp] theorem State.setStripe_errors (x : Nat) (v : Stripe) : (s.setStripe x v).errors = s.errors := rfl
@[simp] theorem State.setStripe_tlb (x : Nat) (v : Stripe) : (s.setStripe x v).tlb = s.tlb := rfl
@[simp] theorem State.setStripe_posted (x : Nat) (v : Stripe) : (s.setStripe x v).posted = s.posted := rfl
@[simp] theorem State.setStripe_reds (x : Nat) (v : Stripe) : (s.setStripe x v).reds = s.reds := rfl
@[simp] theorem State.setStripe_wqueue (x : Nat) (v : Stripe) : (s.setStripe x v).wqueue = s.wqueue := rfl
@[simp] theorem State.setStripe_writes (x : Nat) (v : Stripe) : (s.setStripe x v).writes = s.writes := rfl
@[simp] theorem State.setStripe_writeSeq (x : Nat) (v : Stripe) : (s.setStripe x v).writeSeq = s.writeSeq := rfl
@[simp] theorem State.setStripe_releases (x : Nat) (v : Stripe) : (s.setStripe x v).releases = s.releases := rfl
@[simp] theorem State.setStripe_faults (x : Nat) (v : Stripe) : (s.setStripe x v).faults = s.faults := rfl
@[simp] theorem State.setStripe_parts (x : Nat) (v : Stripe) : (s.setStripe x v).parts = s.parts := rfl
@[simp] theorem State.setStripe_launches (x : Nat) (v : Stripe) : (s.setStripe x v).launches = s.launches := rfl
@[simp] theorem State.setStripe_nextLaunch (x : Nat) (v : Stripe) : (s.setStripe x v).nextLaunch = s.nextLaunch := rfl
@[simp] theorem State.setStripe_runs (x : Nat) (v : Stripe) : (s.setStripe x v).runs = s.runs := rfl
@[simp] theorem State.setStripe_nextRun (x : Nat) (v : Stripe) : (s.setStripe x v).nextRun = s.nextRun := rfl
@[simp] theorem State.setStripe_stripes (x : Nat) (v : Stripe) : (s.setStripe x v).stripes = Table.set x v s.stripes := rfl
@[simp] theorem State.setStripe_dieStore (x : Nat) (v : Stripe) : (s.setStripe x v).dieStore = s.dieStore := rfl
@[simp] theorem State.setStripe_ringCache (x : Nat) (v : Stripe) : (s.setStripe x v).ringCache = s.ringCache := rfl
@[simp] theorem State.setStripe_turns (x : Nat) (v : Stripe) : (s.setStripe x v).turns = s.turns := rfl
@[simp] theorem State.setStripe_joins (x : Nat) (v : Stripe) : (s.setStripe x v).joins = s.joins := rfl
@[simp] theorem State.setStripe_blockCache (x : Nat) (v : Stripe) : (s.setStripe x v).blockCache = s.blockCache := rfl
@[simp] theorem State.setStripe_copies (x : Nat) (v : Stripe) : (s.setStripe x v).copies = s.copies := rfl
@[simp] theorem State.setStripe_segLoads (x : Nat) (v : Stripe) : (s.setStripe x v).segLoads = s.segLoads := rfl
@[simp] theorem State.setStripe_flushes (x : Nat) (v : Stripe) : (s.setStripe x v).flushes = s.flushes := rfl
@[simp] theorem State.setStripe_ctxJobs (x : Nat) (v : Stripe) : (s.setStripe x v).ctxJobs = s.ctxJobs := rfl
@[simp] theorem State.setStripe_nextJob (x : Nat) (v : Stripe) : (s.setStripe x v).nextJob = s.nextJob := rfl
@[simp] theorem State.setStripe_parked (x : Nat) (v : Stripe) : (s.setStripe x v).parked = s.parked := rfl
@[simp] theorem State.setStripe_epochs (x : Nat) (v : Stripe) : (s.setStripe x v).epochs = s.epochs := rfl
@[simp] theorem State.setStripe_probes (x : Nat) (v : Stripe) : (s.setStripe x v).probes = s.probes := rfl
@[simp] theorem State.setStripe_inbound (x : Nat) (v : Stripe) : (s.setStripe x v).inbound = s.inbound := rfl
@[simp] theorem State.setStripe_outbound (x : Nat) (v : Stripe) : (s.setStripe x v).outbound = s.outbound := rfl
@[simp] theorem State.setStripe_hostOut (x : Nat) (v : Stripe) : (s.setStripe x v).hostOut = s.hostOut := rfl
@[simp] theorem State.setStripe_umenoOut (x : Nat) (v : Stripe) : (s.setStripe x v).umenoOut = s.umenoOut := rfl
@[simp] theorem State.setStripe_spdmOut (x : Nat) (v : Stripe) : (s.setStripe x v).spdmOut = s.spdmOut := rfl
@[simp] theorem State.setStripe_hostIn (x : Nat) (v : Stripe) : (s.setStripe x v).hostIn = s.hostIn := rfl
@[simp] theorem State.setStripe_saved (x : Nat) (v : Stripe) : (s.setStripe x v).saved = s.saved := rfl
@[simp] theorem State.setStripe_io (x : Nat) (v : Stripe) : (s.setStripe x v).io = s.io := rfl

/-! ## Reading back -/

@[simp] theorem State.g_zero : s.g 0 = 0 := rfl

theorem State.g_setG (r q : Reg) (v : Word) : (s.setG r v).g q = if q = r ∧ r ≠ 0 then v else s.g q := by
  unfold State.setG State.g
  by_cases hr : r = 0
  · subst hr; simp
  · simp only [hr, ne_eq, not_false_eq_true, and_true]
    by_cases hq : q = 0
    · subst hq; simp [Ne.symm hr]
    · simp only [if_neg hq]
      by_cases h : q = r
      · subst h; simp
      · have hv : r.val ≠ q.val := fun e => h (Fin.ext e.symm)
        simp only [if_neg h]
        show (s.th.regs.set r.val v)[q.val] = s.th.regs[q.val]
        rw [Vector.getElem_set]
        exact if_neg hv

theorem State.setG_th (r : Reg) (v : Word) : (s.setG r v).th = { s.th with regs := (s.setG r v).th.regs } := by
  unfold State.setG; split <;> rfl

@[simp] theorem State.setG_pc (r : Reg) (v : Word) : (s.setG r v).th.pc = s.th.pc := by unfold State.setG; split <;> rfl

@[simp] theorem State.g_setPc (v : Word) (q : Reg) : (s.setPc v).g q = s.g q := rfl

@[simp] theorem State.g_advance (n : Nat) (q : Reg) : (s.advance n).g q = s.g q := rfl

theorem State.g_write4 (r q : Reg) (v : Word) : (s.write4 r v).g q = if q = r ∧ r ≠ 0 then v else s.g q := State.g_setG s r q v

@[simp] theorem State.write4_pc (r : Reg) (v : Word) : (s.write4 r v).th.pc = s.th.pc + 4 := by
  show (s.setG r v).th.pc + BitVec.ofNat 64 4 = _
  rw [State.setG_pc]; rfl

/-- Writing one register and moving on changes nothing else. -/
theorem State.write4_frame (r : Reg) (v : Word) :
    s.write4 r v = { s with th := { s.th with regs := (s.write4 r v).th.regs, pc := (s.write4 r v).th.pc } } := by
  unfold State.write4 State.setG; split <;> rfl

@[simp] theorem State.coreAt_setRunning_self (c : Nat) (r : Option Nat) :
    (s.setRunning c r).coreAt c = { s.coreAt c with running := r } := by simp [State.coreAt]

@[simp] theorem State.ctxAt_setCtx_self (l : Option Nat) (c : Nat) (v : CoreCtx) : (s.setCtx l c v).ctxAt l c = v := by
  simp [State.ctxAt]

@[simp] theorem State.ctx_putCtx (v : CoreCtx) : (s.putCtx v).ctx = v := by simp [State.ctx, State.ctxAt]

@[simp] theorem State.part_setPart_self (p : Nat) (v : Partition) : (s.setPart p v).part p = v := by simp [State.part]

theorem State.part_setPart_ne {p q : Nat} (h : q ≠ p) (v : Partition) : (s.setPart p v).part q = s.part q := by
  simp [State.part, Table.getD_set_ne h]

@[simp] theorem State.stripe_setStripe_self (x : Nat) (v : Stripe) : (s.setStripe x v).stripe x = v := by simp [State.stripe]

theorem State.stripe_setStripe_ne {x y : Nat} (h : y ≠ x) (v : Stripe) : (s.setStripe x v).stripe y = s.stripe y := by
  simp [State.stripe, Table.getD_set_ne h]

@[simp] theorem State.elem_setElem_self (x e : Nat) (v : Elem) : (s.setElem x e v).elem? x e = some v := by
  simp [State.elem?, State.setElem, State.mapStripe]

@[simp] theorem State.oper_setOper_self (x o : Nat) (v : Oper) : (s.setOper x o v).oper? x o = some v := by
  simp [State.oper?, State.setOper, State.mapStripe]

theorem State.setElem_frame (x e : Nat) (v : Elem) : s.setElem x e v = { s with stripes := (s.setElem x e v).stripes } := rfl

theorem State.setOper_frame (x o : Nat) (v : Oper) : s.setOper x o v = { s with stripes := (s.setOper x o v).stripes } := rfl

end Sys2Proof.Machine
end

