-- ==== Sys2Proof/Laws/Ops.lean ====
section
/-!
SUPPORT. What the shared operations of the control cores do: one lemma for each, to be cited instead of unfolding it.
-/

namespace Sys2Proof.Machine

open Sys2Proof

/-! ## Answers -/

/-- An instruction that answers a state gives what holds of that state. -/
theorem Gives.of_eq {i : Instr} {s t : State} {P : State → Prop} (h : exec i s = .next t) (hp : P t) : Gives i s P := ⟨t, h, hp⟩

/-- An instruction that goes on after an access either goes on from its result or ends in the state of its stop. -/
theorem Got.andThen_next {α : Type} {x : Got α} {f : α → State → Out} {t : State} (h : x.andThen f = .next t) :
    (∃ v s, x = .ok v s ∧ f v s = .next t) ∨ x = .stop t := by
  cases x with
  | ok v s => exact .inl ⟨v, s, rfl, h⟩
  | stop s => cases h; exact .inr rfl

theorem Got.bind_ok {α β : Type} {x : Got α} {f : α → State → Got β} {v : β} {t : State} (h : x.bind f = .ok v t) :
    ∃ w s, x = .ok w s ∧ f w s = .ok v t := by
  cases x with
  | ok w s => exact ⟨w, s, rfl, h⟩
  | stop s => cases h

@[simp] theorem Got.andThen_ok {α : Type} (v : α) (s : State) (f : α → State → Out) : (Got.ok v s).andThen f = f v s := rfl
@[simp] theorem Got.andThen_stop {α : Type} (s : State) (f : α → State → Out) : (Got.stop s : Got α).andThen f = .next s := rfl
@[simp] theorem Got.bind_ok_eq {α β : Type} (v : α) (s : State) (f : α → State → Got β) : (Got.ok v s).bind f = f v s := rfl
@[simp] theorem Got.bind_stop {α β : Type} (s : State) (f : α → State → Got β) : (Got.stop s : Got α).bind f = .stop s := rfl

/-! ## Registers -/

/-- A 4-byte instruction that writes one register does just that. -/
theorem setsReg_write4 (s : State) (d : Reg) (v : Word) : SetsReg d v 4 s (s.write4 d v) :=
  ⟨fun r => s.g_write4 d r v, s.write4_pc d v, s.write4_frame d v⟩

/-- A long form that writes one register does just that. -/
theorem setsReg_advance8 (s : State) (d : Reg) (v : Word) : SetsReg d v 8 s ((s.setG d v).advance 8) := by
  refine ⟨fun r => s.g_setG d r v, ?_, ?_⟩
  · show (s.setG d v).th.pc + _ = _
    rw [s.setG_pc]
  · unfold State.advance State.setPc State.setG
    split <;> rfl

/-- A jump changes the program counter only. -/
theorem jumpsTo_setPc (s : State) (v : Word) : JumpsTo v s (s.setPc v) := rfl

/-! ## Choices and translation -/

/-- A choice takes one of the outcomes offered, and changes the choices still open only. -/
theorem choose_spec (n : Nat) (s : State) : ((choose n s).1 < n ∨ n = 0) ∧ (choose n s).2 = { s with choices := (choose n s).2.choices } := by
  unfold choose
  split
  · exact ⟨by omega, rfl⟩
  · split
    · exact ⟨by omega, rfl⟩
    · exact ⟨.inl (Nat.mod_lt _ (by omega)), rfl⟩

theorem choose_frame {n : Nat} {s : State} {r : Nat × State} (h : choose n s = r) : r.2 = { s with choices := r.2.choices } := by
  have := (choose_spec n s).2
  rwa [h] at this

theorem settleLines_id {s : State} (h : s.wqueue = []) (pa n : Nat) : settleLines pa n s = s := by
  unfold settleLines
  split
  · simp [h]
  · rfl

theorem settleWalk_id {s : State} (h : s.wqueue = []) (va k t : Nat) : settleWalk va k t s = s := by
  induction k generalizing t with
  | zero => rfl
  | succ k ih =>
    unfold settleWalk
    simp only [settleLines_id h, ih]
    split
    · rfl
    · split
      · split <;> rfl
      · rfl

/-- Marking heaps as reached changes the partitions only. -/
theorem touchHeap_frame (pa : Nat) (s : State) : touchHeap pa s = { s with parts := (touchHeap pa s).parts } := by
  unfold touchHeap spoilHeaps
  split <;> rfl

/-- Where no reduction waits in a write queue, a translation changes the TLB, the choices still open, and versions whose heap it reaches. -/
theorem translateRaw_frame {s : State} (hq : s.wqueue = []) (p : Nat) (va : Word) (c : Cls) :
    (translateRaw s p va c).2 = { s with
      tlb := (translateRaw s p va c).2.tlb
      choices := (translateRaw s p va c).2.choices
      parts := (translateRaw s p va c).2.parts } := by
  unfold translateRaw
  split
  · rfl
  · simp only
    generalize hch : choose _ s = r
    have hc := choose_frame hch
    obtain ⟨i, s1⟩ := r
    simp only at hc ⊢
    rw [hc, settleWalk_id (s := { s with choices := s1.choices }) hq]
    split
    · split
      · simp only; rw [touchHeap_frame]
      · rfl
    · split
      · split
        · simp only; rw [touchHeap_frame]; split <;> rfl
        · rfl
      · rfl
      · rfl
      · rfl

theorem translate_frame {s : State} (hq : s.wqueue = []) (p : Nat) (va : Word) (c : Cls) :
    (translate s p va c).2 = { s with
      tlb := (translate s p va c).2.tlb
      choices := (translate s p va c).2.choices
      parts := (translate s p va c).2.parts } := by
  unfold translate translateSpan
  split
  · rfl
  · exact translateRaw_frame hq ..

/-- An access that passes, where no reduction waits in a write queue, changes the TLB, the choices still open, and versions whose heap it
reaches; its address is aligned. -/
theorem access_ok {va : Word} {n : Nat} {c : Cls} {s t : State} {pa : Nat} (hq : s.wqueue = []) (h : access va n c s = .ok pa t) :
    va.toNat % n = 0 ∧ translate s s.partNow va c = (.ok pa, t) ∧ t = { s with tlb := t.tlb, choices := t.choices, parts := t.parts } := by
  unfold access accessAt at h
  split at h
  · cases h
  · next ha =>
    unfold translateAt translateSpanAt at h
    have hf := translate_frame hq s.partNow va c
    unfold translate at hf
    split at h <;> simp only [Got.bind, behindSignal] at h
    next pa' t' e =>
      split at h <;> cases h
      rw [e] at hf; exact ⟨by omega, e, hf⟩
    all_goals cases h

/-- A misaligned access ends its instruction in ALIGN. -/
theorem access_misaligned {va : Word} {n : Nat} (h : va.toNat % n ≠ 0) (c : Cls) (s : State) :
    access va n c s = .stop (trap cALIGN va s) := by
  unfold access accessAt
  rw [if_pos h]; rfl

/-! ## Traffic -/

theorem Quiet.settleStores {s : State} (h : Quiet s) (tid pa n : Nat) : settleStores tid pa n s = s := by
  unfold Machine.settleStores; simp [h.1, splitPosted]

theorem Quiet.settleReds {s : State} (h : Quiet s) (tid pa n : Nat) : settleReds tid pa n s = s := by
  unfold Machine.settleReds; simp [h.2.1, splitPosted]

theorem Quiet.settleLines {s : State} (h : Quiet s) (pa n : Nat) : settleLines pa n s = s := by
  exact settleLines_id h.2.2.1 pa n

theorem Quiet.settleOwn {s : State} (h : Quiet s) (tid pa n : Nat) : settleOwn tid pa n s = s := by
  unfold Machine.settleOwn
  rw [h.settleStores, h.settleReds, h.settleLines]

/-! ## Records and blocking -/

/-- A record changes what its core holds for its launch, and nothing else. -/
theorem deliver_frame (core owner kind id status : Nat) (tag : BitVec 32) (x y : Word) (s : State) :
    deliver core owner kind id status tag x y s = { s with ctxs := (deliver core owner kind id status tag x y s).ctxs } := by
  unfold deliver deliverWith
  split <;> rfl

/-- A block changes the status and home of the continuation and frees its core. -/
theorem blockOn_frame (w : Wait) (s : State) :
    blockOn w s = { s with
      th := { s.th with status := .blocked w, home := some s.core, inst := s.ir }
      cores := (blockOn w s).cores } := rfl

/-- Trap entry with a handler installed, outside one. -/
theorem trapEntry_handler {s : State} (h1 : s.th.inTrap = false) (h2 : s.th.trapVec ≠ 0) (cause : Nat) (val resume : Word) (exp : Nat) :
    (trapEntry cause val resume exp s).th.pc = s.th.trapVec ∧ (trapEntry cause val resume exp s).mem = s.mem
      ∧ (trapEntry cause val resume exp s).th.regs = s.th.regs := by
  unfold trapEntry
  rw [if_neg (fun h => h.elim (fun e => by rw [h1] at e; cases e) h2)]
  exact ⟨rfl, rfl, rfl⟩

end Sys2Proof.Machine
end

