-- ==== Sys2Proof/Tests/Slice0.lean ====
section
/-!
SUPPORT. Tests: words of the spec's encodings and what they decode to, ill-formed terms that are refused, single steps checked against the
spec's worked numbers, and for each statement a state and operands that meet its hypotheses.
-/

namespace Sys2Proof.Tests

open Sys2Proof Sys2Proof.Machine Sys2Proof.Says

/-! ## Decoding: words written out field by field (R30 to R34), and the spec's worked words -/

/-- MAJ 000000, GD 00001, GA 00010, GB 00011, FUNC 00000000001 (R33). -/
theorem test_decode_alu : decodeWord 0b000000_00001_00010_00011_00000000001 0 = some (.add 1 2 3) := by decide
/-- MAJ 000001, GD 00101, GA 00110, IMM16 (worked encodings after R35). -/
theorem test_decode_imm : decodeWord 0b000001_00101_00110_1111111111111110 0 = some (.addi 5 6 0xFFFE) := by decide
theorem test_decode_shift : decodeWord 0b000110_00101_00110_0000000000111111 0 = some (.slli 5 6 63) := by decide
theorem test_decode_long : decodeWord 0xFCA60800 0x00010000 = some (.addiL 5 6 0x10000) := by decide
theorem test_decode_load : decodeWord 0x24BE1810 0 = some (.ld 5 30 3 16) := by decide
theorem test_decode_store : decodeWord 0x30E8B800 0 = some (.stl 7 8 5 3 0) := by decide
theorem test_decode_amo : decodeWord 0x4085362C 0 = some (.amoadd 4 5 6 3 3) := by decide
theorem test_decode_red : decodeWord 0x44095570 0 = some (.redfaddF32 9 10 4) := by decide
theorem test_decode_branch : decodeWord 0x5420FFFD 0 = some (.bne 1 0 0xFFFD) := by decide
theorem test_decode_jump : decodeWord 0x6C1F0000 0 = some (.jalr 0 31 0) := by decide
/-- MAJ 011100, GA 00101, GB 00000, OFF16 (R30, R126). -/
theorem test_decode_rep : decodeWord 0b011100_00101_00000_0000000000000011 0 = some (.rep 5 3) := by decide
theorem test_decode_fence : decodeWord 0x800000A3 0 = some (.fence 5 3) := by decide
theorem test_decode_system : decodeWord 0x84601002 0 = some (.krd 3 2) ∧ decodeWord 0x84000412 0 = some (.trap 0x12) := by decide
theorem test_decode_segment : decodeWord 0x90A604E0 0 = some (.segrun 5 6 7) := by decide
theorem test_decode_copy : decodeWord 0xFC852000 0x00001000 = some (.copyi 4 5 0x1000) := by decide
theorem test_decode_event : decodeWord 0x98220460 0 = some (.evwait 1 2 3) := by decide
/-- MAJ 100111, GD 00000, GA 00101, MINOR 000000, GB 00110, FL 00000 (R32, R169). -/
theorem test_decode_continuation : decodeWord 0b100111_00000_00101_000000_00110_00000 0 = decodeWord 0x9C0500C0 0 := by decide
theorem test_decode_version : decodeWord 0xA0820460 0 = some (.vst 4 2 3) := by decide
theorem test_decode_privileged : decodeWord 0xB0A60400 0 = some (.ctxrest 5 6) := by decide
theorem test_decode_energy : decodeWord 0x84A02001 0 = some (.enrd 5 1) := by decide
/-- A reserved field that is not zero is no encoding (R36). -/
theorem test_decode_reserved : decodeWord 0x84000001 0 = none ∧ decodeWord 0x00221FFF 0 = none := by decide
theorem test_decode_bytes : decodeBytes [0x00, 0x00, 0xE0, 0xFC, 0x78, 0x56, 0x34, 0x12, 0xAA] = some (.li 7 0x12345678, [0xAA]) := by decide

/-- OPC 0x01, ARITY 01, IMMB 1, SWAP 0, RT 0, DST1 e3.3.a (R16, R21; worked encodings before R23). -/
theorem test_decode_elemAdd : decodeElem 0x01600000833000000505050505050505
    = some (.elemAdd ⟨1, true, false, 0, 0, 0, false, 0x8330, 0, 0x0505050505050505⟩) := by decide
theorem test_decode_clamp : decodeElem 0x0C600000A000000000000014FFFFFFEC
    = some (.clamp ⟨1, true, false, 0, 0, 0, false, 0xA000, 0, 0x00000014FFFFFFEC⟩) := by decide
theorem test_decode_ffma : decodeElem 0x4E600000852800003F80000040000000
    = some (.ffma .f32 ⟨1, true, false, 0, 0, 0, false, 0x8528, 0, 0x3F80000040000000⟩) := by decide
theorem test_decode_tagop : decodeElem 0x01671002811000000000000100000000
    = some (.elemAdd ⟨1, true, false, 7, 1, 1, false, 0x8110, 0, 0x100000000⟩) := by decide
theorem test_decode_tinc : decodeElem 0x834000008040A0000000000000000C01
    = some (.tinc ⟨1, false, false, 0, 0, 0, false, 0x8040, 0xA000, 0xC01⟩) := by decide
theorem test_decode_tcfg : decodeElem 0x924B0000941000008000000001004000
    = some (.tcfg ⟨1, false, false, 11, 0, 0, false, 0x9410, 0, 0x8000000001004000⟩) := by decide
theorem test_decode_mmg : decodeElem 0xA8800000941095100000000000000810
    = some (.mmg ⟨2, false, false, 0, 0, 0, false, 0x9410, 0x9510, 0x810⟩) := by decide

/-! ## Ill-formed terms, one for each check -/

/-- A word that adds its port to the immediate and sends on e3.3.a, well formed; each test below breaks one thing. -/
def goodWord : EWord := ⟨1, true, false, 0, 0, 0, false, 0x8330, 0, 5⟩

theorem test_wf_good : (Instr.elemAdd goodWord).wf = true := by decide
theorem test_wf_ldn : (Instr.ldn 1 2 3 0).wf = false := by decide
theorem test_wf_scope : (Instr.lda 1 2 6 3 0).wf = false ∧ (Instr.fence 7 1).wf = false := by decide
theorem test_wf_ldm : (Instr.ldm 31 2 1 0).wf = false := by decide
theorem test_wf_amoSize : (Instr.amoadd 1 2 3 1 3).wf = false ∧ (Instr.redadd 1 2 0 3).wf = false := by decide
theorem test_wf_amoScope : (Instr.amofaddF32 1 2 3 7).wf = false ∧ (Instr.redfaddF32 1 2 6).wf = false := by decide
theorem test_wf_ring : (Instr.enrdRing 1 0 0).wf = false := by decide
theorem test_wf_combo : (Instr.elemAdd { goodWord with arity := 2 }).wf = false := by decide
theorem test_wf_type : (Instr.elemAdd { goodWord with rt := 9 }).wf = false := by decide
theorem test_wf_tagop : (Instr.elemAdd { goodWord with topc := 7 }).wf = false ∧ (Instr.elemAdd { goodWord with targ := 1 }).wf = false := by decide
theorem test_wf_dest : (Instr.elemAdd { goodWord with dst1 := 0xE330 }).wf = false ∧ (Instr.elemAdd { goodWord with dst2 := 0x9C00 }).wf = false := by decide
theorem test_wf_noDest : (Instr.elemAdd { goodWord with dst1 := 0 }).wf = false := by decide
theorem test_wf_sinkDest : (Instr.sink { goodWord with immb := false, imm := 0 }).wf = false := by decide
theorem test_wf_shuf : (Instr.shuf { goodWord with immb := false, rt := 3, imm := 2 }).wf = false := by decide
theorem test_wf_lane : (Instr.bcast { goodWord with immb := false, rt := 3, imm := 1 }).wf = false := by decide
theorem test_wf_cvt : (Instr.cvt { goodWord with immb := false, imm := 0x33 }).wf = false := by decide
theorem test_wf_tcfg : (Instr.tcfg { goodWord with immb := false, imm := 0x4000000 }).wf = false := by decide
theorem test_wf_acfg : (Instr.acfg { goodWord with immb := false, imm := 0x100020000 }).wf = false := by decide
theorem test_wf_mma : (Instr.mmaT2 { goodWord with immb := false, imm := 4 }).wf = false := by decide


/-! ## States that the tests are made on -/

/-- A state with a word where management core 0 fetches next. -/
def mgState (w : Nat) : State := State.reset.withFetchWord 32 w

/-- Memory whose page tables map the first pages of the virtual space: page 0 to HBM stack 0, page 1 to die 0's shared memory, page 2 to HBM stack
2, whose home is die 1, pages 3 to 8 to HBM stack 0, its second 2 MiB to HBM stack 0 and its third to die 0's shared memory. -/
def pageMem : Memory :=
  let e := fun (n pa : Nat) (m : Memory) => m.writeAll (fetchTables + 16384 + 8 * n) (pageEntry pa)
  e 1 0x10000000000 (e 2 0x2000000000 (e 3 0x110000 (e 4 0x111000 (e 5 0x112000 (e 6 0x113000 (e 7 0x114000 (e 8 0x115000
    
    (((placeInstr [] State.reset).mem.writeAll (fetchTables + 12288 + 8) (pageEntry 0x200000)).writeAll (fetchTables + 12288 + 16) (pageEntry 0x10000200000)))))))))

/-- A partition of die 0 with one submission queue's registers at reset, in RUN, that offers every feature. -/
def part0 : Partition :=
  { Partition.blank with assign := ⟨0, 0, true, [(0, 1), (2, 1)], [(0, 0xFF)]⟩, tdi := 2, ptroot := 0x100000, accept := [0x3F, 0, 0, 0], memKey := some [] }

/-- A placed launch of partition 0, whose service area stands on page 3. -/
def launch0 : Launch :=
  { (default : Launch) with part := 0, xext := 4, status := .placed, placeCtl := true, dies := [(0, { LaunchDie.blank with svc := [0x110000, 0x111000, 0x112000, 0x113000] })] }

/-- A continuation of launch 0 that runs on core 0 with a trap handler installed. -/
def thread0 : Thread := { Thread.blank 0 with launch := some 0, status := .running 0, trapVec := 0x100 }

/-- Core 0 running it, with dies 0 and 1 AVAILABLE. -/
def core0 : State :=
  { State.reset with
    core := 0, th := thread0, threads := [], cores := [(0, ⟨some 0, [], [], false⟩)], nextThread := 1, mem := pageMem
    parts := [(0, part0)], launches := [(0, launch0)], nextLaunch := 1
    io := { IoDie.atReset with dieState := [(0, 1), (1, 1)], booted := true } }

/-- A state with values in some registers. -/
def withRegs (s : State) (rs : List (Reg × Word)) : State := rs.foldl (fun t r => t.setG r.1 r.2) s

/-- The state of an access that has passed its checks. -/
def landed {α : Type} (x : Got α) (z : State) : State :=
  match x with
  | .ok _ t => t
  | .stop _ => z

/-- The value of an access that has passed its checks. -/
def valueOf {α : Type} (x : Got α) (z : α) : α :=
  match x with
  | .ok a _ => a
  | .stop _ => z

theorem ok_of {α : Type} {x : Got α} (h : x.isOk = true) (v : α) (z : State) : x = .ok (valueOf x v) (landed x z) := by
  cases x with
  | ok a t => rfl
  | stop t => cases h

/-! ## States of the fabric -/

/-- A data token of value v with a tag of its own. -/
def tok (v : Word) : Token := { Token.blank with value := v, iter := 5, frame := 3, route := 2 }

/-- An element word whose only destination is slot 3, port 0 of element 3. -/
def word (ar : BitVec 2) (immb swap : Bool) (rt : BitVec 4) (imm : Word) : EWord := ⟨ar, immb, swap, rt, 0, 0, false, 0x8330, 0, imm⟩

/-- Stripe 0 of a run of launch 0 whose one virtual stripe is im, past its first step, with the elements and operators given. -/
def fabric (im : StripeImage) (es : Table Elem) (os : Table Oper) : State :=
  { core0 with
    runs := [(0, probeRun im)]
    stripes := [(0, { Stripe.blank with run := some 0, vs := some 0, image := im, elems := es, ops := os })] }

/-- Element 0 of stripe 0 issuing one instance of a slot that holds a word. -/
def issuing (inst : Inst) (e : Elem) : State :=
  { fabric { StripeImage.blank with elems := [(0, ⟨[(0, 0)], 0, none, 0⟩)] } [(0, e)] [] with issue := ⟨0, 0, 0, [inst], false⟩ }

/-- An instance of one operand, and of two. -/
def inst1 (a : Word) : Inst := ⟨0, tok a, none⟩
def inst2 (a b : Word) : Inst := ⟨0, tok a, some (tok b)⟩

/-- An operator's configuration: kind, P0 to P4, OUT0 toward element 3 and OUT1 toward element 4. -/
def opIm (kind : Nat) (p0 p1 p2 p3 p4 : Word) : OpImage := ⟨kind, p0, p1, p2, p3, p4, 0, 0, 0, 0x8310, 0x8420⟩

/-- Operator slot 0 of stripe 0 with tokens at its inputs. -/
def oper (im : OpImage) (ins : Table (List Token)) : State :=
  fabric { StripeImage.blank with ops := [(0, im)] } [] [(0, { Oper.blank with inputs := ins })]

/-- It, with another state of the slot. -/
def operWith (im : OpImage) (v : Oper) : State := fabric { StripeImage.blank with ops := [(0, im)] } [] [(0, v)]

set_option Elab.async false

/-! ## States and operands that meet the hypotheses of the statements, a theorem for each set of clauses -/

/-- The value of a read that has ended well. -/
def exOf {α β : Type} (x : Except α β) (d : β) : β :=
  match x with
  | .ok v => v
  | .error _ => d

/-- What a LOAD has fetched. -/
def gotOf (f : Fetched) : Got (List Byte) :=
  match f with
  | .got g => g
  | _ => .stop State.reset

def isOkEx {α β : Type} (x : Except α β) : Bool :=
  match x with
  | .ok _ => true
  | .error _ => false

def isGot (f : Fetched) : Bool :=
  match f with
  | .got g => g.isOk
  | _ => false

theorem exOk_of {α β : Type} {x : Except α β} (h : isOkEx x = true) (d : β) : x = .ok (exOf x d) := by
  cases x with
  | ok v => rfl
  | error e => cases h

theorem exPair_of {α β γ : Type} {x : Except α β × γ} (h : isOkEx x.1 = true) (d : β) : x = (.ok (exOf x.1 d), x.2) :=
  Prod.ext (exOk_of h d) rfl

theorem got_of {f : Fetched} (h : isGot f = true) (v : List Byte) (z : State) : f = .got (.ok (valueOf (gotOf f) v) (landed (gotOf f) z)) := by
  cases f with
  | got g => exact congrArg Fetched.got (ok_of h v z)
  | wait => cases h
  | ended => cases h

theorem exSome_of {α β γ : Type} {x : Option (Except α β × γ)} (d : β) (e : Except α β × γ) (hs : x.isSome = true) (h : isOkEx (x.getD e).1 = true) :
    x = some (.ok (exOf (x.getD e).1 d), (x.getD e).2) := by
  cases x with
  | some p => exact congrArg some (exPair_of h d)
  | none => cases hs

theorem exOpt_of {α β : Type} {x : Option (Except α β)} {e : α} (d : β) (h : isOkEx (x.getD (.error e)) = true) : x = some (.ok (exOf (x.getD (.error e)) d)) := by
  cases x with
  | some p => exact congrArg some (exOk_of h d)
  | none => cases h

theorem okSome_of {α : Type} {x : Option (Got α)} {z : State} (v : α) (h : (x.getD (.stop z)).isOk = true) :
    x = some (.ok (valueOf (x.getD (.stop z)) v) (landed (x.getD (.stop z)) State.reset)) := by
  cases x with
  | some p => exact congrArg some (ok_of h v State.reset)
  | none => cases h

theorem lands_of {va : Word} {n : Nat} {c : Cls} {s : State} (h : (access va n c s).isOk = true)
    (hd : onDevice (valueOf (access va n c s) 0) = true ∧ touchHeap (valueOf (access va n c s) 0) s = s) :
    Lands va n c s (valueOf (access va n c s) 0) (landed (access va n c s) State.reset) :=
  ⟨ok_of h _ _, hd⟩

/-- The address of a translation that has ended well. -/
def trOf (x : Tr) : Nat :=
  match x with
  | .ok a => a
  | _ => 0

def isTr (x : Tr) : Bool :=
  match x with
  | .ok _ => true
  | _ => false

theorem trPair_of {α : Type} {x : Tr × α} (h : isTr x.1 = true) : x = (.ok (trOf x.1), x.2) := by
  obtain ⟨t, a⟩ := x
  cases t with
  | ok p => rfl
  | prot => cases h
  | memerr => cases h
  | fault r l => cases h

/-- The pieces of a chunk that has been translated. -/
def chunkOf (x : ChunkTr) : List CopyPiece :=
  match x with
  | .ok ps => ps
  | _ => []

def isChunk (x : ChunkTr) : Bool :=
  match x with
  | .ok _ => true
  | _ => false

theorem chunkPair_of {α : Type} {x : ChunkTr × α} (h : isChunk x.1 = true) : x = (.ok (chunkOf x.1), x.2) := by
  obtain ⟨t, a⟩ := x
  cases t with
  | ok p => rfl
  | fail c v => cases h
  | fault a b c d => cases h

/-- The cause of a translation that fails. -/
def erOf {α β : Type} (x : Except α β) (d : α) : α :=
  match x with
  | .error v => v
  | .ok _ => d

theorem erPair_of {α β γ : Type} {x : Except α β × γ} (h : isOkEx x.1 = false) (d : α) : x = (.error (erOf x.1 d), x.2) := by
  obtain ⟨e, a⟩ := x
  cases e with
  | ok v => cases h
  | error v => rfl

namespace Case10

open Says

def cs := withRegs core0 [(1, 0x10), (2, 2), (3, 0x1008), (4, 0x2008), (5, 0x3000), (6, 0xFFFFFFFFFFFFFFFF), (7, 0x200C), (8, 0x3010)]
def blk (w : Wait) : State := { cs with th := { cs.th with status := .blocked w, home := some 0 }, cores := [], time := 50 }
def csQ : State := { cs with threads := [(3, { Thread.blank 3 with launch := some 0, pc := 0x44 })], cores := [], launches := [(0, launch0.setDie 0 { LaunchDie.blank with low := [3] })], th := Thread.management 0 }
def csB : State := let s := blk (.phase 9 7); { s with th := { s.th with arrived := true, phase := 7 } , launches := [(0, {launch0 with phase := 7})]}

theorem witness_WaitsEnd_1 :
    let t : ℕ := 50
    let a : Reg := 2
    let w : Wait := Wait.evwait 9 a (some t)
    let v : Launch := (Table.find 0 (blk w).launches).getD default
    (blk w).th.launch = some 0 ∧
      Table.find 0 (blk w).launches = some v ∧
      (blk w).th.home = some (blk w).core ∧
      (blk w).th.status = ThreadStatus.blocked w ∧
      oldestRecord (blk w) = none ∧
      t ≤ (blk w).time :=
  by decide +kernel

theorem witness_WaitsEnd_2 :
    let scope : ℕ := 2
    let classes : BitVec 5 := 7
    let w : Wait := Wait.fence scope classes
    let v : Launch := (Table.find 0 (blk w).launches).getD default
    Quiet (blk w) ∧
      NoReport (blk w) ∧
      (blk w).th.launch = some 0 ∧
      Table.find 0 (blk w).launches = some v ∧
      (blk w).th.home = some (blk w).core ∧
      (blk w).th.status = ThreadStatus.blocked w ∧
      (blk w).copies = [] ∧
      (blk w).th.copied = View.zero :=
  ⟨(by unfold Quiet; decide +kernel), (by unfold NoReport; decide +kernel), by decide +kernel⟩

theorem witness_CoresTakeContinuations_1 :
    let th : Thread := (csQ.thread? 3).getD default
    let v : Launch := (Table.find 0 csQ.launches).getD default
    0 < 64 ∧
      (csQ.coreAt 0).running = none ∧
      Table.find 0 csQ.launches = some v ∧
      offers csQ 0 v = true ∧
      (∀ w ∈ csQ.launches, offers csQ 0 w.2 = true → launchPrio csQ w.2 ≤ launchPrio csQ v) ∧
      inTurn csQ 0 (List.map (fun x => x.1) (List.filter (fun w => launchPrio csQ w.2 == launchPrio csQ v) (List.filter (fun w => offers csQ 0 w.2) csQ.launches))) 0 = true ∧
      nextFor csQ 0 v = some 3 ∧
      csQ.thread? 3 = some th ∧
      th.id = 3 :=
  by decide +kernel

theorem witness_PhaseBoundaryAdvances_1 :
    let p : ℕ := 7
    let d : Reg := 9
    let v : Launch := (Table.find 0 csB.launches).getD default
    Table.find 0 csB.launches = some v ∧
      v.status = LaunchStatus.placed ∧
      phaseReached csB 0 = true ∧
      csB.threads = [] ∧
      csB.th.launch = some 0 ∧
      csB.th.status = ThreadStatus.blocked (Wait.phase d p) ∧
      csB.th.home = some csB.core :=
  by decide +kernel

end Case10

namespace Case11

open Says

def tk (v : Word) : Token := { Token.blank with value := v, iter := 5, frame := 3, route := 2 }
def es (inst : Inst) (pol : Word) : State :=
  let im : StripeImage := { StripeImage.blank with elems := [(0, ⟨[(0, 0)], pol, none, 0⟩)] }
  let e : Elem := { Elem.blank with allot := 3, lfsr := 0x12345 }
  let st : Stripe := { Stripe.blank with run := some 0, vs := some 0, image := im, elems := [(0, e)] }
  { State.reset with runs := [(0, probeRun im)], stripes := [(0, st)], issue := ⟨0, 0, 0, [inst], false⟩ }
def ew (ar : BitVec 2) (immb swap : Bool) (rt : BitVec 4) (d1 d2 : BitVec 16) (imm : Word) : EWord := ⟨ar, immb, swap, rt, 0, 0, false, d1, d2, imm⟩
def i1 (a : Word) : Inst := ⟨0, tk a, none⟩

theorem witness_ElementIntegerLanes_1 :
    let inst : Inst := (es (i1 9223372036854775808) 0).issue.insts.headD default
    (es (i1 9223372036854775808) 0).issue.insts = [inst] ∧
      handleOperand inst = none :=
  by decide +kernel

theorem witness_ElementSaturation_1 :
    let inst : Inst := (es (i1 1065353216) 2).issue.insts.headD default
    (es (i1 1065353216) 2).issue.insts = [inst] ∧
      handleOperand inst = none ∧
      (ew 1 false true 1 33584 40960 11574100089835139896).rt.toNat < 8 ∧
      (ew 1 false true 1 33584 40960 11574100089835139896).rt.toNat ≠ 0 ∧
      (ew 1 false true 1 33584 40960 11574100089835139896).rt.toNat ≠ 4 :=
  by decide +kernel

theorem witness_ElementBitLanes_1 :
    let inst : Inst := (es (i1 9223372036854775808) 0).issue.insts.headD default
    (es (i1 9223372036854775808) 0).issue.insts = [inst] ∧
      handleOperand inst = none :=
  by decide +kernel

theorem witness_ElementLaneMovement_1 :
    let inst : Inst := (es (i1 9223372036854775808) 0).issue.insts.headD default
    (es (i1 9223372036854775808) 0).issue.insts = [inst] ∧
      handleOperand inst = none ∧
      laneWidth (ew 1 true true 12 33584 0 149).rt.toNat ≤ 32 :=
  by decide +kernel

theorem witness_TagAndFlowInstructions_1 :
    let inst : Inst := (es (i1 9223372036854775808) 0).issue.insts.headD default
    let v : Elem := ((es (i1 9223372036854775808) 0).elem? (es (i1 9223372036854775808) 0).issue.x (es (i1 9223372036854775808) 0).issue.e).getD default
    (es (i1 9223372036854775808) 0).issue.insts = [inst] ∧
      (es (i1 9223372036854775808) 0).elem? (es (i1 9223372036854775808) 0).issue.x (es (i1 9223372036854775808) 0).issue.e = some v :=
  by decide +kernel

theorem witness_ElementFloatLanes_1 :
    let inst : Inst := (es (i1 9223372036854775808) 0).issue.insts.headD default
    let v : Elem := ((es (i1 9223372036854775808) 0).elem? (es (i1 9223372036854775808) 0).issue.x (es (i1 9223372036854775808) 0).issue.e).getD default
    (es (i1 9223372036854775808) 0).issue.insts = [inst] ∧
      handleOperand inst = none ∧
      (es (i1 9223372036854775808) 0).elem? (es (i1 9223372036854775808) 0).issue.x (es (i1 9223372036854775808) 0).issue.e = some v :=
  by decide +kernel

theorem witness_ElementConversionsAndFunctions_1 :
    let inst : Inst := (es (i1 1065353216) 2).issue.insts.headD default
    let v : Elem := ((es (i1 1065353216) 2).elem? (es (i1 1065353216) 2).issue.x (es (i1 1065353216) 2).issue.e).getD default
    (es (i1 1065353216) 2).issue.insts = [inst] ∧
      handleOperand inst = none ∧
      (es (i1 1065353216) 2).elem? (es (i1 1065353216) 2).issue.x (es (i1 1065353216) 2).issue.e = some v ∧
      (ew 1 false true 1 33584 40960 11574100089835139896).rt.toNat ≤ 10 :=
  by decide +kernel

end Case11

namespace Case12b

open Says

def kI : Keys := ⟨true, false, true, false⟩
def kZ : Keys := ⟨false, false, false, false⟩
def tk (v : Word) : Token := { Token.blank with value := v, iter := 5, frame := 3, route := 2 }
def es (inst : Inst) (pol : Word) : State :=
  let im : StripeImage := { StripeImage.blank with elems := [(0, ⟨[(0, 0)], pol, none, 0⟩)] }
  let e : Elem := { Elem.blank with allot := 3, lfsr := 0x12345 }
  let st : Stripe := { Stripe.blank with run := some 0, vs := some 0, image := im, elems := [(0, e)] }
  { State.reset with runs := [(0, probeRun im)], stripes := [(0, st)], issue := ⟨0, 0, 0, [inst], false⟩ }
def ew (ar : BitVec 2) (immb swap : Bool) (rt : BitVec 4) (d1 d2 : BitVec 16) (imm : Word) : EWord := ⟨ar, immb, swap, rt, 0, 0, false, d1, d2, imm⟩
def i1 (a : Word) : Inst := ⟨0, tk a, none⟩
def i2 (a b : Word) : Inst := ⟨0, tk a, some (tk b)⟩
def hd : Inst := ⟨0, { tk 5 with kind := kTile }, none⟩
def esT (e : Elem) (i : Inst) : State := (es i 0).setElem 0 0 e
def eT : Elem := { Elem.blank with allot := 3, tiles := [(0, ⟨7, 512, 1, [(3,5),(8,1)]⟩),(1, ⟨2, 4, 4, [(3,5)]⟩),(2, ⟨3, 1, 16, []⟩)] }

theorem witness_NansAreCanonical_1 :
    (((ffFmt Fmt.f32).val ((ffFmt Fmt.f32).flushIn kI.fsi 2139095041)).isNan = true ∨ ((ffFmt Fmt.f32).val ((ffFmt Fmt.f32).flushIn kI.fsi 1)).isNan = true ∨ FOp.fma = FOp.fma ∧ ((ffFmt Fmt.f32).val ((ffFmt Fmt.f32).flushIn kI.fsi 65409)).isNan = true) ∧
      ((((ffFmt Fmt.f32).val ((ffFmt Fmt.f32).flushIn kI.fsi 2139095041)).isSnan = true ∨ ((ffFmt Fmt.f32).val ((ffFmt Fmt.f32).flushIn kI.fsi 1)).isSnan = true ∨ FOp.fma = FOp.fma ∧ ((ffFmt Fmt.f32).val ((ffFmt Fmt.f32).flushIn kI.fsi 65409)).isSnan = true) ∨ FOp.fma = FOp.fma ∧ (((ffFmt Fmt.f32).val ((ffFmt Fmt.f32).flushIn kI.fsi 2139095041)).isInf = true ∧ ((ffFmt Fmt.f32).val ((ffFmt Fmt.f32).flushIn kI.fsi 1)).isZero = true ∨ ((ffFmt Fmt.f32).val ((ffFmt Fmt.f32).flushIn kI.fsi 2139095041)).isZero = true ∧ ((ffFmt Fmt.f32).val ((ffFmt Fmt.f32).flushIn kI.fsi 1)).isInf = true)) ∧
      ((ffFmt Fmt.f32).val ((ffFmt Fmt.f32).flushIn kI.fsi 2139095041)).isNan = true ∧
      ((ffFmt Fmt.f32).val ((ffFmt Fmt.f32).flushIn kI.fsi 1)).isNan = false ∧
      (((ffFmt Fmt.f32).val ((ffFmt Fmt.f32).flushIn kI.fsi 2139095041)).isSnan = true ∨ ((ffFmt Fmt.f32).val ((ffFmt Fmt.f32).flushIn kI.fsi 1)).isSnan = true) :=
  by decide +kernel

theorem witness_NansAreCanonical_2 :
    (((ffFmt Fmt.f32).val ((ffFmt Fmt.f32).flushIn kI.fsi 65024)).isNan = true ∨ ((ffFmt Fmt.f32).val ((ffFmt Fmt.f32).flushIn kI.fsi 2143289344)).isNan = true ∨ FOp.fma = FOp.fma ∧ ((ffFmt Fmt.f32).val ((ffFmt Fmt.f32).flushIn kI.fsi 4294967295)).isNan = true) ∧
      (¬((((ffFmt Fmt.f32).val ((ffFmt Fmt.f32).flushIn kI.fsi 65024)).isSnan = true ∨ ((ffFmt Fmt.f32).val ((ffFmt Fmt.f32).flushIn kI.fsi 2143289344)).isSnan = true ∨ FOp.fma = FOp.fma ∧ ((ffFmt Fmt.f32).val ((ffFmt Fmt.f32).flushIn kI.fsi 4294967295)).isSnan = true) ∨ FOp.fma = FOp.fma ∧ (((ffFmt Fmt.f32).val ((ffFmt Fmt.f32).flushIn kI.fsi 65024)).isInf = true ∧ ((ffFmt Fmt.f32).val ((ffFmt Fmt.f32).flushIn kI.fsi 2143289344)).isZero = true ∨ ((ffFmt Fmt.f32).val ((ffFmt Fmt.f32).flushIn kI.fsi 65024)).isZero = true ∧ ((ffFmt Fmt.f32).val ((ffFmt Fmt.f32).flushIn kI.fsi 2143289344)).isInf = true))) ∧
      ((ffFmt Fmt.f32).val ((ffFmt Fmt.f32).flushIn kI.fsi 65024)).isNan = false ∧
      ((ffFmt Fmt.f32).val ((ffFmt Fmt.f32).flushIn kI.fsi 2143289344)).isNan = true :=
  by decide +kernel

theorem witness_NansAreCanonical_3 :
    ((ffFmt Fmt.f16).val ((ffFmt Fmt.f16).flushIn kZ.fsi 65024)).isNan = true ∧
      ((ffFmt Fmt.f16).val ((ffFmt Fmt.f16).flushIn kZ.fsi 4294967295)).isNan = true :=
  by decide +kernel

theorem witness_HandlesAreRefused_1 :
    let inst : Inst := (es hd 0).issue.insts.headD default
    let t : Token := (handleOperand inst).getD default
    let v : Elem := ((es hd 0).elem? (es hd 0).issue.x (es hd 0).issue.e).getD default
    let i : Instr := [Instr.elemAdd (ew 1 true false 3 33584 0 5), Instr.elemSub (ew 1 true false 3 33584 0 5), Instr.elemMul (ew 1 true false 3 33584 0 5), Instr.elemMulh (ew 1 true false 3 33584 0 5), Instr.neg (ew 1 true false 3 33584 0 5), Instr.abs (ew 1 true false 3 33584 0 5), Instr.elemMin (ew 1 true false 3 33584 0 5), Instr.elemMax (ew 1 true false 3 33584 0 5), Instr.avg (ew 1 true false 3 33584 0 5), Instr.clamp (ew 1 true false 3 33584 0 5), Instr.adds (ew 1 true false 3 33584 0 5), Instr.subs (ew 1 true false 3 33584 0 5), Instr.narrow (ew 1 true false 3 33584 0 5), Instr.elemAnd (ew 1 true false 3 33584 0 5), Instr.elemOr (ew 1 true false 3 33584 0 5), Instr.elemXor (ew 1 true false 3 33584 0 5), Instr.sel (ew 1 true false 3 33584 0 5), Instr.shl (ew 1 true false 3 33584 0 5), Instr.shr (ew 1 true false 3 33584 0 5), Instr.sar (ew 1 true false 3 33584 0 5), Instr.rot (ew 1 true false 3 33584 0 5), Instr.elemClz (ew 1 true false 3 33584 0 5), Instr.elemPopc (ew 1 true false 3 33584 0 5), Instr.fabs (ew 1 true false 3 33584 0 5), Instr.fneg (ew 1 true false 3 33584 0 5), Instr.cmpEq (ew 1 true false 3 33584 0 5), Instr.cmpNe (ew 1 true false 3 33584 0 5), Instr.cmpLt (ew 1 true false 3 33584 0 5), Instr.cmpLe (ew 1 true false 3 33584 0 5), Instr.cmpGt (ew 1 true false 3 33584 0 5), Instr.cmpGe (ew 1 true false 3 33584 0 5), Instr.widenL (ew 1 true false 3 33584 0 5), Instr.widenH (ew 1 true false 3 33584 0 5), Instr.shuf (ew 1 true false 3 33584 0 5), Instr.bcast (ew 1 true false 3 33584 0 5), Instr.extr (ew 1 true false 3 33584 0 5), Instr.ins (ew 1 true false 3 33584 0 5), Instr.const (ew 1 true false 3 33584 0 5), Instr.fmin (ew 1 true false 3 33584 0 5), Instr.fmax (ew 1 true false 3 33584 0 5), Instr.fcmpEq (ew 1 true false 3 33584 0 5), Instr.fcmpNe (ew 1 true false 3 33584 0 5), Instr.fcmpLt (ew 1 true false 3 33584 0 5), Instr.fcmpLe (ew 1 true false 3 33584 0 5), Instr.fcmpGt (ew 1 true false 3 33584 0 5), Instr.fcmpGe (ew 1 true false 3 33584 0 5), Instr.cvt (ew 1 true false 3 33584 0 5), Instr.rcp (ew 1 true false 3 33584 0 5), Instr.rsq (ew 1 true false 3 33584 0 5), Instr.sqrt (ew 1 true false 3 33584 0 5), Instr.exp2 (ew 1 true false 3 33584 0 5), Instr.log2 (ew 1 true false 3 33584 0 5), Instr.tanh (ew 1 true false 3 33584 0 5), Instr.sigm (ew 1 true false 3 33584 0 5), Instr.erf (ew 1 true false 3 33584 0 5), Instr.rsum (ew 1 true false 3 33584 0 5), Instr.rmax (ew 1 true false 3 33584 0 5), Instr.rmin (ew 1 true false 3 33584 0 5)].headD .nop
    (es hd 0).issue.insts = [inst] ∧
      handleOperand inst = some t ∧
      (es hd 0).elem? (es hd 0).issue.x (es hd 0).issue.e = some v ∧
      i ∈ [Instr.elemAdd (ew 1 true false 3 33584 0 5), Instr.elemSub (ew 1 true false 3 33584 0 5), Instr.elemMul (ew 1 true false 3 33584 0 5), Instr.elemMulh (ew 1 true false 3 33584 0 5), Instr.neg (ew 1 true false 3 33584 0 5), Instr.abs (ew 1 true false 3 33584 0 5), Instr.elemMin (ew 1 true false 3 33584 0 5), Instr.elemMax (ew 1 true false 3 33584 0 5), Instr.avg (ew 1 true false 3 33584 0 5), Instr.clamp (ew 1 true false 3 33584 0 5), Instr.adds (ew 1 true false 3 33584 0 5), Instr.subs (ew 1 true false 3 33584 0 5), Instr.narrow (ew 1 true false 3 33584 0 5), Instr.elemAnd (ew 1 true false 3 33584 0 5), Instr.elemOr (ew 1 true false 3 33584 0 5), Instr.elemXor (ew 1 true false 3 33584 0 5), Instr.sel (ew 1 true false 3 33584 0 5), Instr.shl (ew 1 true false 3 33584 0 5), Instr.shr (ew 1 true false 3 33584 0 5), Instr.sar (ew 1 true false 3 33584 0 5), Instr.rot (ew 1 true false 3 33584 0 5), Instr.elemClz (ew 1 true false 3 33584 0 5), Instr.elemPopc (ew 1 true false 3 33584 0 5), Instr.fabs (ew 1 true false 3 33584 0 5), Instr.fneg (ew 1 true false 3 33584 0 5), Instr.cmpEq (ew 1 true false 3 33584 0 5), Instr.cmpNe (ew 1 true false 3 33584 0 5), Instr.cmpLt (ew 1 true false 3 33584 0 5), Instr.cmpLe (ew 1 true false 3 33584 0 5), Instr.cmpGt (ew 1 true false 3 33584 0 5), Instr.cmpGe (ew 1 true false 3 33584 0 5), Instr.widenL (ew 1 true false 3 33584 0 5), Instr.widenH (ew 1 true false 3 33584 0 5), Instr.shuf (ew 1 true false 3 33584 0 5), Instr.bcast (ew 1 true false 3 33584 0 5), Instr.extr (ew 1 true false 3 33584 0 5), Instr.ins (ew 1 true false 3 33584 0 5), Instr.const (ew 1 true false 3 33584 0 5), Instr.fmin (ew 1 true false 3 33584 0 5), Instr.fmax (ew 1 true false 3 33584 0 5), Instr.fcmpEq (ew 1 true false 3 33584 0 5), Instr.fcmpNe (ew 1 true false 3 33584 0 5), Instr.fcmpLt (ew 1 true false 3 33584 0 5), Instr.fcmpLe (ew 1 true false 3 33584 0 5), Instr.fcmpGt (ew 1 true false 3 33584 0 5), Instr.fcmpGe (ew 1 true false 3 33584 0 5), Instr.cvt (ew 1 true false 3 33584 0 5), Instr.rcp (ew 1 true false 3 33584 0 5), Instr.rsq (ew 1 true false 3 33584 0 5), Instr.sqrt (ew 1 true false 3 33584 0 5), Instr.exp2 (ew 1 true false 3 33584 0 5), Instr.log2 (ew 1 true false 3 33584 0 5), Instr.tanh (ew 1 true false 3 33584 0 5), Instr.sigm (ew 1 true false 3 33584 0 5), Instr.erf (ew 1 true false 3 33584 0 5), Instr.rsum (ew 1 true false 3 33584 0 5), Instr.rmax (ew 1 true false 3 33584 0 5), Instr.rmin (ew 1 true false 3 33584 0 5)] :=
  by decide +kernel

theorem witness_TileInstructions_1 :
    let inst : Inst := (esT eT (i2 1 1234605616436508552)).issue.insts.headD default
    let v : Elem := ((esT eT (i2 1 1234605616436508552)).elem? (esT eT (i2 1 1234605616436508552)).issue.x (esT eT (i2 1 1234605616436508552)).issue.e).getD default
    (esT eT (i2 1 1234605616436508552)).issue.insts = [inst] ∧
      (esT eT (i2 1 1234605616436508552)).elem? (esT eT (i2 1 1234605616436508552)).issue.x (esT eT (i2 1 1234605616436508552)).issue.e = some v ∧
      handleOperand inst = none ∧
      v.allot ≤ BitVec.toNat (ew 2 false false 8 33584 40960 136).imm % 16 ∧
      BitVec.toNat (ew 2 false false 8 33584 40960 136).imm % 8 < v.allot ∧
      BitVec.toNat (ew 2 false false 8 33584 40960 136).imm / 16 % 8 < v.allot ∧
      BitVec.toNat inst.a.value ≤ 511 :=
  by decide +kernel

theorem witness_TileInstructions_2 :
    let inst : Inst := (esT eT (i1 1)).issue.insts.headD default
    let v : Elem := ((esT eT (i1 1)).elem? (esT eT (i1 1)).issue.x (esT eT (i1 1)).issue.e).getD default
    (esT eT (i1 1)).issue.insts = [inst] ∧
      (esT eT (i1 1)).elem? (esT eT (i1 1)).issue.x (esT eT (i1 1)).issue.e = some v ∧
      handleOperand inst = none ∧
      BitVec.toNat (ew 1 true false 1 33584 40960 226257927507).imm % 16 ≤ v.allot :=
  by decide +kernel

theorem witness_TileRegistersAreChecked_1 :
    let inst : Inst := (esT eT (i2 3 1234605616436508552)).issue.insts.headD default
    let v : Elem := ((esT eT (i2 3 1234605616436508552)).elem? (esT eT (i2 3 1234605616436508552)).issue.x (esT eT (i2 3 1234605616436508552)).issue.e).getD default
    (esT eT (i2 3 1234605616436508552)).issue.insts = [inst] ∧
      (esT eT (i2 3 1234605616436508552)).elem? (esT eT (i2 3 1234605616436508552)).issue.x (esT eT (i2 3 1234605616436508552)).issue.e = some v ∧
      handleOperand inst = none ∧
      v.allot ≤ BitVec.toNat (ew 2 false false 9 33584 40960 159708682255).imm % 8 ∧
      v.allot < BitVec.toNat (ew 2 false false 9 33584 40960 159708682255).imm % 16 :=
  by decide +kernel

theorem witness_TileRegistersAreChecked_2 :
    let inst : Inst := (esT eT (i1 0)).issue.insts.headD default
    let v : Elem := ((esT eT (i1 0)).elem? (esT eT (i1 0)).issue.x (esT eT (i1 0)).issue.e).getD default
    (esT eT (i1 0)).issue.insts = [inst] ∧
      (esT eT (i1 0)).elem? (esT eT (i1 0)).issue.x (esT eT (i1 0)).issue.e = some v ∧
      handleOperand inst = none ∧
      BitVec.toNat (ew 1 false false 1 33584 40960 177).imm % 16 < v.allot :=
  by decide +kernel

end Case12b

namespace Case13

open Says

def tk (v : Word) : Token := { Token.blank with value := v, iter := 5, frame := 3, route := 2 }
def es (inst : Inst) (pol : Word) : State :=
  let im : StripeImage := { StripeImage.blank with elems := [(0, ⟨[(0, 0)], pol, none, 0⟩)] }
  let e : Elem := { Elem.blank with allot := 3, lfsr := 0x12345 }
  let st : Stripe := { Stripe.blank with run := some 0, vs := some 0, image := im, elems := [(0, e)] }
  { State.reset with runs := [(0, probeRun im)], stripes := [(0, st)], issue := ⟨0, 0, 0, [inst], false⟩ }
def ew (ar : BitVec 2) (immb swap : Bool) (rt : BitVec 4) (d1 d2 : BitVec 16) (imm : Word) : EWord := ⟨ar, immb, swap, rt, 0, 0, false, d1, d2, imm⟩
def i1 (a : Word) : Inst := ⟨0, tk a, none⟩
def esT (e : Elem) (i : Inst) : State := (es i 0).setElem 0 0 e
def tA (af : Nat) : Tile := ⟨af, 2, 64, (List.range 256).map (fun i => (i, BitVec.ofNat 8 (i * 37 + 11)))⟩
def tB : Tile := ⟨4, 2, 2, [(0, 0x7F), (1, 0x80), (2, 0x7E), (3, 0x81)]⟩
def node (int : Bool) (rows br kb : Nat) : Node := ⟨int, rows, br, kb, [], [], 0, 0x8330, 0xA000, 0, 0, false⟩
def eM (wf af : Nat) (nd : Node) : Elem := { Elem.blank with allot := 3, lfsr := 77, tiles := [(0, tA af),(1, tB)], nodes := [(1, nd)], wfmt := wf, afmt := af, slice := (List.range 2752).map (fun i => BitVec.ofNat 8 (i * 91 + 7)) }
def hA (af : Nat) : Token := { Token.blank with kind := kTile, value := tileHandle 0 0 (tA af), frame := 4 }
def hB : Token := { Token.blank with kind := kTile, value := tileHandle 0 1 tB }
def m1 (af : Nat) : Inst := ⟨0, hA af, none⟩
def m2 (af : Nat) : Inst := ⟨0, hA af, some hB⟩
def nb : Node := { node true 4 2 2 with acc := [], next := [(0, 2)], count := 2 }

theorem witness_TileInstructions_3 :
    let inst : Inst := (esT (eM 14 0 (node true 4 2 2)) (m1 0)).issue.insts.headD default
    let v : Elem := ((esT (eM 14 0 (node true 4 2 2)) (m1 0)).elem? (esT (eM 14 0 (node true 4 2 2)) (m1 0)).issue.x (esT (eM 14 0 (node true 4 2 2)) (m1 0)).issue.e).getD default
    let j : ℕ := (validHandle (esT (eM 14 0 (node true 4 2 2)) (m1 0)).issue.e v inst.a).getD default
    (esT (eM 14 0 (node true 4 2 2)) (m1 0)).issue.insts = [inst] ∧
      (esT (eM 14 0 (node true 4 2 2)) (m1 0)).elem? (esT (eM 14 0 (node true 4 2 2)) (m1 0)).issue.x (esT (eM 14 0 (node true 4 2 2)) (m1 0)).issue.e = some v ∧
      inst.b = none ∧
      validHandle (esT (eM 14 0 (node true 4 2 2)) (m1 0)).issue.e v inst.a = some j :=
  by decide +kernel

theorem witness_MatrixInstructions_1 :
    let inst : Inst := (esT (eM 8 8 (node false 4 2 2)) (m1 8)).issue.insts.headD default
    let v : Elem := ((esT (eM 8 8 (node false 4 2 2)) (m1 8)).elem? (esT (eM 8 8 (node false 4 2 2)) (m1 8)).issue.x (esT (eM 8 8 (node false 4 2 2)) (m1 8)).issue.e).getD default
    let nd : Node := (exOf (mmaCheck 3 (ew 1 false false 5 33040 40960 49) (esT (eM 8 8 (node false 4 2 2)) (m1 8)).issue.e v inst) default).1
    let ka : ℕ := (exOf (mmaCheck 3 (ew 1 false false 5 33040 40960 49) (esT (eM 8 8 (node false 4 2 2)) (m1 8)).issue.e v inst) default).2.1
    let kb : Option ℕ := (exOf (mmaCheck 3 (ew 1 false false 5 33040 40960 49) (esT (eM 8 8 (node false 4 2 2)) (m1 8)).issue.e v inst) default).2.2
    let nd5 : Node := (exOf (mmaCheck (mmgOf (ew 1 false false 5 33040 40960 49)).wkind (ew 1 false false 5 33040 40960 49) (esT (eM 8 8 (node false 4 2 2)) (m1 8)).issue.e v inst) default).1
    let kb7 : Option ℕ := (exOf (mmaCheck (mmgOf (ew 1 false false 5 33040 40960 49)).wkind (ew 1 false false 5 33040 40960 49) (esT (eM 8 8 (node false 4 2 2)) (m1 8)).issue.e v inst) default).2.2
    let ka6 : ℕ := (exOf (mmaCheck (mmgOf (ew 1 false false 5 33040 40960 49)).wkind (ew 1 false false 5 33040 40960 49) (esT (eM 8 8 (node false 4 2 2)) (m1 8)).issue.e v inst) default).2.1
    mmaCheck 3 (ew 1 false false 5 33040 40960 49) (esT (eM 8 8 (node false 4 2 2)) (m1 8)).issue.e v inst = Except.ok (nd, ka, kb) ∧
      mmaCheck (mmgOf (ew 1 false false 5 33040 40960 49)).wkind (ew 1 false false 5 33040 40960 49) (esT (eM 8 8 (node false 4 2 2)) (m1 8)).issue.e v inst = Except.ok (nd5, ka6, kb7) ∧
      (esT (eM 8 8 (node false 4 2 2)) (m1 8)).issue.insts = [inst] ∧
      (esT (eM 8 8 (node false 4 2 2)) (m1 8)).elem? (esT (eM 8 8 (node false 4 2 2)) (m1 8)).issue.x (esT (eM 8 8 (node false 4 2 2)) (m1 8)).issue.e = some v ∧
      (mmgOf (ew 1 false false 5 33040 40960 49)).member = false ∧
      mmgOthers (esT (eM 8 8 (node false 4 2 2)) (m1 8)).issue.e (mmgOf (ew 1 false false 5 33040 40960 49)) = [] :=
  ⟨(exOk_of (by decide +kernel) default), (exOk_of (by decide +kernel) default), by decide +kernel⟩

theorem witness_MatrixInstructions_2 :
    let inst : Inst := (esT (eM 13 11 (node false 2 2 1)) (m2 11)).issue.insts.headD default
    let v : Elem := ((esT (eM 13 11 (node false 2 2 1)) (m2 11)).elem? (esT (eM 13 11 (node false 2 2 1)) (m2 11)).issue.x (esT (eM 13 11 (node false 2 2 1)) (m2 11)).issue.e).getD default
    let nd : Node := (exOf (mmaCheck 1 (ew 2 false false 0 33040 0 1) (esT (eM 13 11 (node false 2 2 1)) (m2 11)).issue.e v inst) default).1
    let kb : Option ℕ := (exOf (mmaCheck 1 (ew 2 false false 0 33040 0 1) (esT (eM 13 11 (node false 2 2 1)) (m2 11)).issue.e v inst) default).2.2
    let ka : ℕ := (exOf (mmaCheck 1 (ew 2 false false 0 33040 0 1) (esT (eM 13 11 (node false 2 2 1)) (m2 11)).issue.e v inst) default).2.1
    mmaCheck 1 (ew 2 false false 0 33040 0 1) (esT (eM 13 11 (node false 2 2 1)) (m2 11)).issue.e v inst = Except.ok (nd, ka, kb) ∧
      (esT (eM 13 11 (node false 2 2 1)) (m2 11)).issue.insts = [inst] ∧
      (esT (eM 13 11 (node false 2 2 1)) (m2 11)).elem? (esT (eM 13 11 (node false 2 2 1)) (m2 11)).issue.x (esT (eM 13 11 (node false 2 2 1)) (m2 11)).issue.e = some v :=
  ⟨(exOk_of (by decide +kernel) default), by decide +kernel⟩

theorem witness_MatrixInstructions_3 :
    let inst : Inst := (esT (eM 11 12 (node false 4 2 2)) (m2 12)).issue.insts.headD default
    let v : Elem := ((esT (eM 11 12 (node false 4 2 2)) (m2 12)).elem? (esT (eM 11 12 (node false 4 2 2)) (m2 12)).issue.x (esT (eM 11 12 (node false 4 2 2)) (m2 12)).issue.e).getD default
    let nd : Node := (exOf (mmaCheck 2 (ew 2 false false 5 33040 40960 1) (esT (eM 11 12 (node false 4 2 2)) (m2 12)).issue.e v inst) default).1
    let kb : Option ℕ := (exOf (mmaCheck 2 (ew 2 false false 5 33040 40960 1) (esT (eM 11 12 (node false 4 2 2)) (m2 12)).issue.e v inst) default).2.2
    let ka : ℕ := (exOf (mmaCheck 2 (ew 2 false false 5 33040 40960 1) (esT (eM 11 12 (node false 4 2 2)) (m2 12)).issue.e v inst) default).2.1
    mmaCheck 2 (ew 2 false false 5 33040 40960 1) (esT (eM 11 12 (node false 4 2 2)) (m2 12)).issue.e v inst = Except.ok (nd, ka, kb) ∧
      (esT (eM 11 12 (node false 4 2 2)) (m2 12)).issue.insts = [inst] ∧
      (esT (eM 11 12 (node false 4 2 2)) (m2 12)).elem? (esT (eM 11 12 (node false 4 2 2)) (m2 12)).issue.x (esT (eM 11 12 (node false 4 2 2)) (m2 12)).issue.e = some v :=
  ⟨(exOk_of (by decide +kernel) default), by decide +kernel⟩

theorem witness_MatrixInstructions_4 :
    let inst : Inst := (esT (eM 14 0 (node true 4 2 2)) (i1 5)).issue.insts.headD default
    let v : Elem := ((esT (eM 14 0 (node true 4 2 2)) (i1 5)).elem? (esT (eM 14 0 (node true 4 2 2)) (i1 5)).issue.x (esT (eM 14 0 (node true 4 2 2)) (i1 5)).issue.e).getD default
    (esT (eM 14 0 (node true 4 2 2)) (i1 5)).issue.insts = [inst] ∧
      (esT (eM 14 0 (node true 4 2 2)) (i1 5)).elem? (esT (eM 14 0 (node true 4 2 2)) (i1 5)).issue.x (esT (eM 14 0 (node true 4 2 2)) (i1 5)).issue.e = some v ∧
      handleOperand inst = none ∧
      (∀ (x : Node), Table.find (BitVec.toNat (ew 1 false false 5 33040 40960 4886718345).imm % 4) v.nodes = some x → x.count = 0) :=
  by decide +kernel

theorem witness_TernarySumsAreExact_1 :
    (eM 14 0 nb).wfmt = 14 ∧
      (eM 14 0 nb).afmt = 0 ∧
      0 < nb.kblk :=
  by decide +kernel

end Case13

namespace Case14

open Says

def z1 := { Oper.blank with base := some (tok 0x1000), pos := 1 }

theorem witness_AgenEmitsAddresses_1 :
    let v : Oper := ((operOn 0 0 0 (operWith (opIm 0 256 8 4294967299 0 0) z1)).getD default).2
    let im : OpImage := ((operOn 0 0 0 (operWith (opIm 0 256 8 4294967299 0 0) z1)).getD default).1
    let b : Token := (if v.base.isSome = true then v.base else v.head 0).getD default
    let tok : Token := { b with iter := if bit (BitVec.toNat im.p2) 32 = true then BitVec.ofNat 10 v.pos else b.iter, kind := kData, eod := if (v.pos + 1 == BitVec.toNat im.p2 % 2 ^ 32) = true then b.eod + 1 else 0, value := b.value + im.p0 + BitVec.ofNat 64 v.pos * im.p1 }
    operOn 0 0 0 (operWith (opIm 0 256 8 4294967299 0 0) z1) = some (im, v) ∧
      (if v.base.isSome = true then v.base else v.head 0) = some b ∧
      roomForAll 0 (operOut im.out0 tok) (operWith (opIm 0 256 8 4294967299 0 0) z1) = true :=
  by decide +kernel

theorem witness_LoadOperators_1 :
    let im : OpImage := ((operOn 0 0 1 (oper (opIm 1 176 0 64 0 0) [(0, [tok 16])])).getD default).1
    let v : Oper := ((operOn 0 0 1 (oper (opIm 1 176 0 64 0 0) [(0, [tok 16])])).getD default).2
    let a : Token := (Option.map (fedBy (oper (opIm 1 176 0 64 0 0) [(0, [tok 16])]) 0 im) (v.head 0)).getD default
    let s1 : State := landed (gotOf (loadFetch 0 0 im a (oper (opIm 1 176 0 64 0 0) [(0, [tok 16])]))) State.reset
    let bs : List Byte := valueOf (gotOf (loadFetch 0 0 im a (oper (opIm 1 176 0 64 0 0) [(0, [tok 16])]))) default
    loadFetch 0 0 im a (oper (opIm 1 176 0 64 0 0) [(0, [tok 16])]) = Fetched.got (Got.ok bs s1) ∧
      operOn 0 0 1 (oper (opIm 1 176 0 64 0 0) [(0, [tok 16])]) = some (im, v) ∧
      Option.map (fedBy (oper (opIm 1 176 0 64 0 0) [(0, [tok 16])]) 0 im) (v.head 0) = some a ∧
      im.field 0 6 6 = 0 ∧
      roomForAll 0 (operOut im.out0 a) (oper (opIm 1 176 0 64 0 0) [(0, [tok 16])]) = true :=
  ⟨(got_of (by decide +kernel) default State.reset), by decide +kernel⟩

theorem witness_BufferLoads_1 :
    let at_ : ℕ := ((bufferAt (oper (opIm 1 176 0 64 0 0) [(0, [tok 16])]) 0 ((opIm 1 176 0 64 0 0).field 0 2 0) (BitVec.toNat ((opIm 1 176 0 64 0 0).p2 + (tok 16).value)) (opIm 1 176 0 64 0 0).accessBytes).getD default).2
    let b : ℕ := ((bufferAt (oper (opIm 1 176 0 64 0 0) [(0, [tok 16])]) 0 ((opIm 1 176 0 64 0 0).field 0 2 0) (BitVec.toNat ((opIm 1 176 0 64 0 0).p2 + (tok 16).value)) (opIm 1 176 0 64 0 0).accessBytes).getD default).1
    (opIm 1 176 0 64 0 0).field 0 2 0 < 2 ∧
      BitVec.toNat ((opIm 1 176 0 64 0 0).p2 + (tok 16).value) % (opIm 1 176 0 64 0 0).alignment = 0 ∧
      bufferAt (oper (opIm 1 176 0 64 0 0) [(0, [tok 16])]) 0 ((opIm 1 176 0 64 0 0).field 0 2 0) (BitVec.toNat ((opIm 1 176 0 64 0 0).p2 + (tok 16).value)) (opIm 1 176 0 64 0 0).accessBytes = some (b, at_) ∧
      bufferFails (oper (opIm 1 176 0 64 0 0) [(0, [tok 16])]) b at_ (opIm 1 176 0 64 0 0).accessBytes false = false :=
  by decide +kernel

theorem witness_StoreOperators_1 :
    let im : OpImage := ((operOn 0 0 2 (oper (opIm 2 50 0 64 0 0) [(0, [Sys2Proof.Tests.tok 4096]), (1, [Sys2Proof.Tests.tok 1234605616436508552])])).getD default).1
    let v : Oper := ((operOn 0 0 2 (oper (opIm 2 50 0 64 0 0) [(0, [Sys2Proof.Tests.tok 4096]), (1, [Sys2Proof.Tests.tok 1234605616436508552])])).getD default).2
    let a : Token := (v.head 0).getD default
    let d : Token := (v.head 1).getD default
    let tok : Token := { a with after := a.after.join d.after }
    let s0 : State := landed (fabricTranslate 0 (16 + 0) 0 tok (im.p2 + a.value) im.accessBytes Cls.write (oper (opIm 2 50 0 64 0 0) [(0, [Sys2Proof.Tests.tok 4096]), (1, [Sys2Proof.Tests.tok 1234605616436508552])])) State.reset
    let pa : ℕ := valueOf (fabricTranslate 0 (16 + 0) 0 tok (im.p2 + a.value) im.accessBytes Cls.write (oper (opIm 2 50 0 64 0 0) [(0, [Sys2Proof.Tests.tok 4096]), (1, [Sys2Proof.Tests.tok 1234605616436508552])])) default
    let s1 : State := landed (virtWrite 0 0 0 tok [(im.p2 + a.value, im.accessBytes)] (leBytes im.accessBytes (BitVec.toNat d.value)) (oper (opIm 2 50 0 64 0 0) [(0, [Sys2Proof.Tests.tok 4096]), (1, [Sys2Proof.Tests.tok 1234605616436508552])])) State.reset
    virtWrite 0 0 0 tok [(im.p2 + a.value, im.accessBytes)] (leBytes im.accessBytes (BitVec.toNat d.value)) (oper (opIm 2 50 0 64 0 0) [(0, [Sys2Proof.Tests.tok 4096]), (1, [Sys2Proof.Tests.tok 1234605616436508552])]) = Got.ok () s1 ∧
      fabricTranslate 0 (16 + 0) 0 tok (im.p2 + a.value) im.accessBytes Cls.write (oper (opIm 2 50 0 64 0 0) [(0, [Sys2Proof.Tests.tok 4096]), (1, [Sys2Proof.Tests.tok 1234605616436508552])]) = Got.ok pa s0 ∧
      s0.Inv ∧
      operOn 0 0 2 (oper (opIm 2 50 0 64 0 0) [(0, [Sys2Proof.Tests.tok 4096]), (1, [Sys2Proof.Tests.tok 1234605616436508552])]) = some (im, v) ∧
      v.head 0 = some a ∧
      v.head 1 = some d ∧
      im.field 0 2 0 = 2 ∧
      BitVec.toNat (im.p2 + a.value) % im.accessBytes = 0 ∧
      onDevice pa = true ∧
      s0.wqueue = [] :=
  ⟨(ok_of (by decide +kernel) default State.reset), (ok_of (by decide +kernel) default State.reset), (by show (_ = true); decide +kernel), by decide +kernel⟩

theorem witness_StoreOperators_2 :
    let v : Oper := ((operOn 0 0 2 (oper (opIm 2 48 0 64 0 0) [(0, [tok 16]), (1, [tok 1234605616436508552])])).getD default).2
    let im : OpImage := ((operOn 0 0 2 (oper (opIm 2 48 0 64 0 0) [(0, [tok 16]), (1, [tok 1234605616436508552])])).getD default).1
    let d : Token := (v.head 1).getD default
    let a : Token := (v.head 0).getD default
    let at_ : ℕ := ((bufferAt (oper (opIm 2 48 0 64 0 0) [(0, [tok 16]), (1, [tok 1234605616436508552])]) 0 (im.field 0 2 0) (BitVec.toNat (im.p2 + a.value)) im.accessBytes).getD default).2
    let b : ℕ := ((bufferAt (oper (opIm 2 48 0 64 0 0) [(0, [tok 16]), (1, [tok 1234605616436508552])]) 0 (im.field 0 2 0) (BitVec.toNat (im.p2 + a.value)) im.accessBytes).getD default).1
    operOn 0 0 2 (oper (opIm 2 48 0 64 0 0) [(0, [tok 16]), (1, [tok 1234605616436508552])]) = some (im, v) ∧
      v.head 0 = some a ∧
      v.head 1 = some d ∧
      im.field 0 2 0 < 2 ∧
      BitVec.toNat (im.p2 + a.value) % im.accessBytes = 0 ∧
      bufferAt (oper (opIm 2 48 0 64 0 0) [(0, [tok 16]), (1, [tok 1234605616436508552])]) 0 (im.field 0 2 0) (BitVec.toNat (im.p2 + a.value)) im.accessBytes = some (b, at_) ∧
      bufferFails (oper (opIm 2 48 0 64 0 0) [(0, [tok 16]), (1, [tok 1234605616436508552])]) b at_ im.accessBytes true = false :=
  by decide +kernel

end Case14

namespace Case15

open Says

def tl : Tile := ⟨0, 4, 16, []⟩
def e3 : Elem := { Elem.blank with allot := 2, tiles := [(1, tl)] }
def hdl : Token := { Token.blank with kind := kTile, value := tileHandle 3 1 tl }
def tf : State := fabric { StripeImage.blank with ops := [(0, opIm 1 0x70 16 0x40 0 0)] } [(3, e3)] [(0, { Oper.blank with inputs := [(0, [tok 0x10]), (1, [hdl])], fillRow := 1 })]
def sj : State := operWith (opIm 4 (15 + 0x100000) 0x40 8 64 0) { Oper.blank with inputs := [(0, [tok 0x10])] }
def sj2 : State := operWith (opIm 4 (15 + 0x100000) 0x40 8 64 0) { Oper.blank with sends := [⟨tok 0x10, 0x40, List.replicate 16 7⟩] }
def ce : State := operWith (opIm 2 (0x30 + 0x100) 0 0x40 0 0) { Oper.blank with accesses := [(tok 3, true), ({tok 4 with eod := 1}, true), (tok 5, true)] }
def ceIm : OpImage := opIm 2 (0x30 + 0x100) 0 0x40 0 0
def ceL : Token := { tok 4 with eod := 1 }
def ceF : List (Token × Bool) := [(tok 3, true)]
def ceR : List (Token × Bool) := [(tok 5, true)]
def ceV : Oper := { Oper.blank with accesses := [(tok 3, true), (ceL, true), (tok 5, true)] }
def reg0 : Region := ⟨0x10000, 128, 2, 0, 0x200000, 0x10000, [0x200000], 0, 1, [(0, ⟨3, [(2, List.replicate 64 5), (3, List.replicate 64 6)]⟩)], [], [], [], false⟩
def vp : Table Partition := [(0, { part0 with regions := [(0, reg0)] })]
def vl : State := { oper (opIm 5 0 0x10000 0 0 0) [(0, [tok 0]), (1, [tok 3])] with parts := vp }
def vs : State := { oper (opIm 6 0 0x10000 0 0 0) [(0, [tok 0]), (1, [tok 4]), (2, List.replicate 9 (tok 7))] with parts := vp }
def vs2 : State := { operWith (opIm 6 0 0x10000 0 0 0) { Oper.blank with version := some 4, inputs :=  [(0, [tok 0]), (1, [tok 4]), (2, List.replicate 9 (tok 7))] } with parts := vp }

theorem witness_LoadOperators_2 :
    let im : OpImage := ((operOn 0 0 1 tf).getD default).1
    let v : Oper := ((operOn 0 0 1 tf).getD default).2
    let c : Token := (v.head 1).getD default
    let a : Token := (Option.map (fedBy tf 0 im) (v.head 0)).getD default
    let e : ℕ := ((creditTile tf 0 im c).getD default).1
    let tile : Tile := ((creditTile tf 0 im c).getD default).2.2
    let k : ℕ := ((creditTile tf 0 im c).getD default).2.1
    let s1 : State := landed (gotOf (loadFetch 0 0 im a tf)) State.reset
    let bs : List Byte := valueOf (gotOf (loadFetch 0 0 im a tf)) default
    loadFetch 0 0 im a tf = Fetched.got (Got.ok bs s1) ∧
      operOn 0 0 1 tf = some (im, v) ∧
      Option.map (fedBy tf 0 im) (v.head 0) = some a ∧
      im.field 0 6 6 = 1 ∧
      v.head 1 = some c ∧
      creditTile tf 0 im c = some (e, k, tile) ∧
      v.fillRow + 1 ≠ tile.rows :=
  ⟨(got_of (by decide +kernel) default State.reset), by decide +kernel⟩

theorem witness_AtomicOperators_1 :
    let im : OpImage := ((operOn 0 0 3 (oper (opIm 3 (32 + 1536 + 16384 + 6144) 4096 0 0 0) [(0, [Sys2Proof.Tests.tok 8]), (1, [Sys2Proof.Tests.tok 5])])).getD default).1
    let v : Oper := ((operOn 0 0 3 (oper (opIm 3 (32 + 1536 + 16384 + 6144) 4096 0 0 0) [(0, [Sys2Proof.Tests.tok 8]), (1, [Sys2Proof.Tests.tok 5])])).getD default).2
    let a : Token := (v.head 0).getD default
    let b : Token := (v.head 1).getD default
    let tok : Token := { a with after := a.after.join b.after }
    let s1 : State := landed (operTranslate 0 0 0 tok (im.p1 + a.value) (2 ^ im.field 0 10 9) Cls.rw (oper (opIm 3 (32 + 1536 + 16384 + 6144) 4096 0 0 0) [(0, [Sys2Proof.Tests.tok 8]), (1, [Sys2Proof.Tests.tok 5])])) State.reset
    let pa : ℕ := valueOf (operTranslate 0 0 0 tok (im.p1 + a.value) (2 ^ im.field 0 10 9) Cls.rw (oper (opIm 3 (32 + 1536 + 16384 + 6144) 4096 0 0 0) [(0, [Sys2Proof.Tests.tok 8]), (1, [Sys2Proof.Tests.tok 5])])) default
    let s2 : State := landed (atomicAt 0 0 im tok b.value (2 ^ im.field 0 10 9) pa (im.p1 + a.value) s1) State.reset
    let old : ℕ := (valueOf (atomicAt 0 0 im tok b.value (2 ^ im.field 0 10 9) pa (im.p1 + a.value) s1) default).1
    let posted : Bool := (valueOf (atomicAt 0 0 im tok b.value (2 ^ im.field 0 10 9) pa (im.p1 + a.value) s1) default).2
    operTranslate 0 0 0 tok (im.p1 + a.value) (2 ^ im.field 0 10 9) Cls.rw (oper (opIm 3 (32 + 1536 + 16384 + 6144) 4096 0 0 0) [(0, [Sys2Proof.Tests.tok 8]), (1, [Sys2Proof.Tests.tok 5])]) = Got.ok pa s1 ∧
      atomicAt 0 0 im tok b.value (2 ^ im.field 0 10 9) pa (im.p1 + a.value) s1 = Got.ok (old, posted) s2 ∧
      s1.Inv ∧
      operOn 0 0 3 (oper (opIm 3 (32 + 1536 + 16384 + 6144) 4096 0 0 0) [(0, [Sys2Proof.Tests.tok 8]), (1, [Sys2Proof.Tests.tok 5])]) = some (im, v) ∧
      v.head 0 = some a ∧
      v.head 1 = some b ∧
      roomForAll 0 (if im.field 0 14 14 = 1 then operOut im.out0 { b with kind := kData, eod := 0, value := 0, after := tok.after } else []) (oper (opIm 3 (32 + 1536 + 16384 + 6144) 4096 0 0 0) [(0, [Sys2Proof.Tests.tok 8]), (1, [Sys2Proof.Tests.tok 5])]) = true ∧
      onDevice pa = true ∧
      s1.wqueue = [] ∧
      (im.field 0 14 14 = 1 ∨ 16 ≤ stackOf pa) :=
  ⟨(ok_of (by decide +kernel) default State.reset), (ok_of (by decide +kernel) default State.reset), (by show (_ = true); decide +kernel), by decide +kernel⟩

theorem witness_AtomicOperators_2 :
    let im : OpImage := ((operOn 0 0 3 (oper (opIm 3 (32 + 1536 + 6144) 8192 0 0 0) [(0, [Sys2Proof.Tests.tok 8]), (1, [Sys2Proof.Tests.tok 5])])).getD default).1
    let v : Oper := ((operOn 0 0 3 (oper (opIm 3 (32 + 1536 + 6144) 8192 0 0 0) [(0, [Sys2Proof.Tests.tok 8]), (1, [Sys2Proof.Tests.tok 5])])).getD default).2
    let a : Token := (v.head 0).getD default
    let b : Token := (v.head 1).getD default
    let tok : Token := { a with after := a.after.join b.after }
    let s1 : State := landed (operTranslate 0 0 0 tok (im.p1 + a.value) (2 ^ im.field 0 10 9) Cls.rw (oper (opIm 3 (32 + 1536 + 6144) 8192 0 0 0) [(0, [Sys2Proof.Tests.tok 8]), (1, [Sys2Proof.Tests.tok 5])])) State.reset
    let pa : ℕ := valueOf (operTranslate 0 0 0 tok (im.p1 + a.value) (2 ^ im.field 0 10 9) Cls.rw (oper (opIm 3 (32 + 1536 + 6144) 8192 0 0 0) [(0, [Sys2Proof.Tests.tok 8]), (1, [Sys2Proof.Tests.tok 5])])) default
    let s2 : State := landed (atomicAt 0 0 im tok b.value (2 ^ im.field 0 10 9) pa (im.p1 + a.value) s1) State.reset
    let old : ℕ := (valueOf (atomicAt 0 0 im tok b.value (2 ^ im.field 0 10 9) pa (im.p1 + a.value) s1) default).1
    let posted : Bool := (valueOf (atomicAt 0 0 im tok b.value (2 ^ im.field 0 10 9) pa (im.p1 + a.value) s1) default).2
    operTranslate 0 0 0 tok (im.p1 + a.value) (2 ^ im.field 0 10 9) Cls.rw (oper (opIm 3 (32 + 1536 + 6144) 8192 0 0 0) [(0, [Sys2Proof.Tests.tok 8]), (1, [Sys2Proof.Tests.tok 5])]) = Got.ok pa s1 ∧
      atomicAt 0 0 im tok b.value (2 ^ im.field 0 10 9) pa (im.p1 + a.value) s1 = Got.ok (old, posted) s2 ∧
      s1.Inv ∧
      operOn 0 0 3 (oper (opIm 3 (32 + 1536 + 6144) 8192 0 0 0) [(0, [Sys2Proof.Tests.tok 8]), (1, [Sys2Proof.Tests.tok 5])]) = some (im, v) ∧
      v.head 0 = some a ∧
      v.head 1 = some b ∧
      roomForAll 0 (if im.field 0 14 14 = 1 then operOut im.out0 { b with kind := kData, eod := 0, value := 0, after := tok.after } else []) (oper (opIm 3 (32 + 1536 + 6144) 8192 0 0 0) [(0, [Sys2Proof.Tests.tok 8]), (1, [Sys2Proof.Tests.tok 5])]) = true ∧
      onDevice pa = true ∧
      s1.wqueue = [] ∧
      im.field 0 14 14 = 0 ∧
      stackOf pa < 16 :=
  ⟨(ok_of (by decide +kernel) default State.reset), (ok_of (by decide +kernel) default State.reset), (by show (_ = true); decide +kernel), by decide +kernel⟩

theorem witness_SendOperators_1 :
    let v : Oper := ((operOn 0 0 4 sj2).getD default).2
    let im : OpImage := ((operOn 0 0 4 sj2).getD default).1
    let r : Run := ((stripeLaunch sj2 0).getD default).1
    let w : Launch := ((stripeLaunch sj2 0).getD default).2.2
    let l : ℕ := ((stripeLaunch sj2 0).getD default).2.1
    let j : SendJob := (List.find? (fun j => !j.data.isEmpty) v.sends).getD default
    let y : ℕ := (sendStripe im w 0).getD default
    operOn 0 0 4 sj2 = some (im, v) ∧
      List.find? (fun j => !j.data.isEmpty) v.sends = some j ∧
      j.data.length = im.field 0 15 0 + 1 ∧
      im.field 0 16 16 = 0 ∧
      stripeLaunch sj2 0 = some (r, l, w) ∧
      sendStripe im w 0 = some y ∧
      bufferFails sj2 1 (y * 262144 + j.dest) (im.field 0 15 0 + 1) true = false :=
  by decide +kernel

theorem witness_SendOperators_2 :
    let v : Oper := ((operOn 0 0 4 sj).getD default).2
    let im : OpImage := ((operOn 0 0 4 sj).getD default).1
    let r : Run := ((stripeLaunch sj 0).getD default).1
    let l : ℕ := ((stripeLaunch sj 0).getD default).2.1
    let w : Launch := ((stripeLaunch sj 0).getD default).2.2
    let a : Token := (v.head 0).getD default
    let at_ : ℕ := ((bufferAt sj 0 0 (BitVec.toNat a.value) (im.field 0 15 0 + 1)).getD default).2
    let b : ℕ := ((bufferAt sj 0 0 (BitVec.toNat a.value) (im.field 0 15 0 + 1)).getD default).1
    operOn 0 0 4 sj = some (im, v) ∧
      List.find? (fun j => !j.data.isEmpty) v.sends = none ∧
      v.head 0 = some a ∧
      stripeLaunch sj 0 = some (r, l, w) ∧
      BitVec.toNat a.value % 8 = 0 ∧
      BitVec.toNat (im.p1 + BitVec.ofNat 64 a.frame.toNat * im.p3 + BitVec.ofNat 64 a.iter.toNat * im.p2) % 8 = 0 ∧
      (im.field 0 16 16 = 1 ∨ ∃ y, sendStripe im w 0 = some y ∧ BitVec.toNat (im.p1 + BitVec.ofNat 64 a.frame.toNat * im.p3 + BitVec.ofNat 64 a.iter.toNat * im.p2) + (im.field 0 15 0 + 1) ≤ sendLimit sj y) ∧
      bufferAt sj 0 0 (BitVec.toNat a.value) (im.field 0 15 0 + 1) = some (b, at_) ∧
      bufferFails sj b at_ (im.field 0 15 0 + 1) false = false ∧
      roomForAll 0 (operOut im.out0 a) sj = true :=
  by decide +kernel

theorem witness_CompletionTokens_1 :
    1 ≤ 2 ∧
      2 ≤ 3 ∧
      ceIm.kind = 2 ∧
      operOn 0 0 2 ce = some (ceIm, ceV) ∧
      operError ce 0 0 ceV = none ∧
      ceV.accesses = ceF ++ [(ceL, true)] ++ ceR ∧
      (∀ p ∈ ceF, (p.1.eod.toNat < if 2 = 3 then ceIm.field 0 23 20 else ceIm.field 0 11 8) ∧ p.2 = true) ∧
      (if 2 = 3 then ceIm.field 0 23 20 else ceIm.field 0 11 8) ≤ ceL.eod.toNat ∧
      roomForAll 0 (operOut ceIm.out1 { ceL with kind := kData, eod := 0, value := BitVec.ofNat 64 (ceF ++ [(ceL, true)]).length, after := groupView (ceF ++ [(ceL, true)]) }) ce = true :=
  by decide +kernel

theorem witness_VersionOperators_1 :
    let l : ℕ := ((stripePart vs2 0).getD default).2
    let part : ℕ := ((stripePart vs2 0).getD default).1
    let im : OpImage := ((operOn 0 0 6 vs2).getD default).1
    let tok : Token := { Sys2Proof.Tests.tok 0 with after := List.foldl (fun m d => m.join d.after) ((Sys2Proof.Tests.tok 0).after.join (Sys2Proof.Tests.tok 4).after) (List.take 8 (((vs2.stripe 0).ops.getD 0 default).inputs.getD 2 [])) }
    stripePart vs2 0 = some (part, l) ∧
      ((vs2.stripe 0).ops.getD 0 default).parked = false ∧
      ((vs2.stripe 0).ops.getD 0 default).head 0 = some (Sys2Proof.Tests.tok 0) ∧
      operOn 0 0 6 vs2 = some (im, (vs2.stripe 0).ops.getD 0 default) ∧
      ((vs2.stripe 0).ops.getD 0 default).head 1 = some (Sys2Proof.Tests.tok 4) ∧
      8 ≤ (((vs2.stripe 0).ops.getD 0 default).inputs.getD 2 []).length ∧
      ((vs2.stripe 0).ops.getD 0 default).version.isSome = true ∧
      roomForAll 0 (operOut im.out1 { tok with kind := kData, eod := 0, value := 1 }) vs2 = true :=
  by decide +kernel

theorem witness_VersionOperators_2 :
    let part : ℕ := ((stripePart vl 0).getD default).1
    let l : ℕ := ((stripePart vl 0).getD default).2
    let im : OpImage := ((operOn 0 0 5 vl).getD default).1
    let tok : Token := { Sys2Proof.Tests.tok 0 with after := (Sys2Proof.Tests.tok 0).after.join (if (im.field 0 0 0 == 1) = true then Token.blank else Sys2Proof.Tests.tok 3).after }
    let s1 : State := landed (operGranule 0 0 tok (im.p1 + (Sys2Proof.Tests.tok 0).value) part vl) State.reset
    let n : ℕ := (valueOf (operGranule 0 0 tok (im.p1 + (Sys2Proof.Tests.tok 0).value) part vl) default).1
    let g : ℕ := (valueOf (operGranule 0 0 tok (im.p1 + (Sys2Proof.Tests.tok 0).value) part vl) default).2.2
    let r : Region := (valueOf (operGranule 0 0 tok (im.p1 + (Sys2Proof.Tests.tok 0).value) part vl) default).2.1
    let s2 : State := ((homeLoad part n g (if (im.field 0 0 0 == 1) = true then (r.gran g).latest else BitVec.toNat (Sys2Proof.Tests.tok 3).value) s1).getD (.error 0, s1)).2
    let rel : View := (exOf ((homeLoad part n g (if (im.field 0 0 0 == 1) = true then (r.gran g).latest else BitVec.toNat (Sys2Proof.Tests.tok 3).value) s1).getD (.error 0, s1)).1 default).2
    let bs : List Byte := (exOf ((homeLoad part n g (if (im.field 0 0 0 == 1) = true then (r.gran g).latest else BitVec.toNat (Sys2Proof.Tests.tok 3).value) s1).getD (.error 0, s1)).1 default).1
    operGranule 0 0 tok (im.p1 + (Sys2Proof.Tests.tok 0).value) part vl = Got.ok (n, r, g) s1 ∧
      homeLoad part n g (if (im.field 0 0 0 == 1) = true then (r.gran g).latest else BitVec.toNat (Sys2Proof.Tests.tok 3).value) s1 = some (Except.ok (bs, rel), s2) ∧
      stripePart vl 0 = some (part, l) ∧
      ((vl.stripe 0).ops.getD 0 default).parked = false ∧
      ((vl.stripe 0).ops.getD 0 default).head 0 = some (Sys2Proof.Tests.tok 0) ∧
      operOn 0 0 5 vl = some (im, (vl.stripe 0).ops.getD 0 default) ∧
      ((im.field 0 0 0 == 1) = false → ((vl.stripe 0).ops.getD 0 default).head 1 = some (Sys2Proof.Tests.tok 3)) ∧
      ((vl.stripe 0).ops.getD 0 default).vdata = [] ∧
      roomForAll 0 ((if (im.field 0 0 0 == 1) = true then operOut im.out1 { Sys2Proof.Tests.tok 0 with kind := kData, eod := 0, value := BitVec.ofNat 64 (if (im.field 0 0 0 == 1) = true then (r.gran g).latest else BitVec.toNat (Sys2Proof.Tests.tok 3).value), after := tok.after.join rel } else []) ++ List.flatMap (fun y => operOut im.out0 { Sys2Proof.Tests.tok 0 with kind := kData, eod := 0, value := y, after := tok.after.join rel }) (bytesWords 8 bs)) s2 = true :=
  ⟨(ok_of (by decide +kernel) default State.reset), (exSome_of default (.error 0, _) (by decide +kernel) (by decide +kernel)), by decide +kernel⟩

theorem witness_VersionOperators_3 :
    let part : ℕ := ((stripePart vs 0).getD default).1
    let l : ℕ := ((stripePart vs 0).getD default).2
    let im : OpImage := ((operOn 0 0 6 vs).getD default).1
    let tok : Token := { Sys2Proof.Tests.tok 0 with after := List.foldl (fun m d => m.join d.after) ((Sys2Proof.Tests.tok 0).after.join (Sys2Proof.Tests.tok 4).after) (List.take 8 (((vs.stripe 0).ops.getD 0 default).inputs.getD 2 [])) }
    let s1 : State := landed (operGranule 0 0 tok (im.p1 + (Sys2Proof.Tests.tok 0).value) part vs) State.reset
    let n : ℕ := (valueOf (operGranule 0 0 tok (im.p1 + (Sys2Proof.Tests.tok 0).value) part vs) default).1
    let g : ℕ := (valueOf (operGranule 0 0 tok (im.p1 + (Sys2Proof.Tests.tok 0).value) part vs) default).2.2
    let r : Region := (valueOf (operGranule 0 0 tok (im.p1 + (Sys2Proof.Tests.tok 0).value) part vs) default).2.1
    let s2 : State := exOf ((homeStore part n g (BitVec.toNat (Sys2Proof.Tests.tok 4).value) ((s1.mapOper 0 0 fun q => { q with vview := (s1.stripe 0).drained.join tok.after }).ownerOf 0 0) ((s1.stripe 0).drained.join tok.after) (wordBytes (List.map (fun x => x.value) (List.take 8 (((vs.stripe 0).ops.getD 0 default).inputs.getD 2 [])))) (s1.mapOper 0 0 fun q => { q with vview := (s1.stripe 0).drained.join tok.after })).getD (.error 0)) s1
    operGranule 0 0 tok (im.p1 + (Sys2Proof.Tests.tok 0).value) part vs = Got.ok (n, r, g) s1 ∧
      homeStore part n g (BitVec.toNat (Sys2Proof.Tests.tok 4).value) ((s1.mapOper 0 0 fun q => { q with vview := (s1.stripe 0).drained.join tok.after }).ownerOf 0 0) ((s1.stripe 0).drained.join tok.after) (wordBytes (List.map (fun x => x.value) (List.take 8 (((vs.stripe 0).ops.getD 0 default).inputs.getD 2 [])))) (s1.mapOper 0 0 fun q => { q with vview := (s1.stripe 0).drained.join tok.after }) = some (Except.ok s2) ∧
      stripePart vs 0 = some (part, l) ∧
      ((vs.stripe 0).ops.getD 0 default).parked = false ∧
      ((vs.stripe 0).ops.getD 0 default).head 0 = some (Sys2Proof.Tests.tok 0) ∧
      operOn 0 0 6 vs = some (im, (vs.stripe 0).ops.getD 0 default) ∧
      ((vs.stripe 0).ops.getD 0 default).head 1 = some (Sys2Proof.Tests.tok 4) ∧
      8 ≤ (((vs.stripe 0).ops.getD 0 default).inputs.getD 2 []).length ∧
      ((vs.stripe 0).ops.getD 0 default).version = none :=
  ⟨(ok_of (by decide +kernel) default State.reset), (exOpt_of _ (by decide +kernel)), by decide +kernel⟩

end Case15

namespace Case16

open Says

def se : State := { operWith (opIm 2 0x10033 0 0 0 0) { Oper.blank with ended := [bodyMark + inputCode 0 0, bodyMark + inputCode 1 0] } with launches := [(0, launch0.setDie 0 { LaunchDie.blank with fifos := [(1, ⟨false, 0, 0, 256, 0, 40, 8, false, true, View.zero⟩)] })] }
def jn := oper (opIm 7 0x7 0 0 0 0) [(0, [tok 1, tok 2]), (1, [{ tok 3 with after := ⟨9, [], []⟩ }]), (2, [tok 4])]
def ac (p0 : Word) := { fabric { StripeImage.blank with ops := [(0, opIm 8 p0 0 0 0 0)], elems := [(0, ⟨[], 0, none, 0⟩)] } [(0, Elem.blank)] [(0, { Oper.blank with inputs := [(0, [tok 5, tok 9]), (1, [tok 7])], partials := [(2, (10, 1, View.zero))] })] with time := 0 }
def lo := operWith (opIm 9 0x40020 0 0 0 0) { Oper.blank with inputs := [(0, [tok 5]), (1, [tok 7])], pool := [(2, tok 1), (3, tok 44)] }

theorem witness_StoreOperators_3 :
    let v : Oper := ((operOn 0 0 2 se).getD default).2
    let im : OpImage := ((operOn 0 0 2 se).getD default).1
    let r : Run := ((stripeLaunch se 0).getD default).1
    let w : Launch := ((stripeLaunch se 0).getD default).2.2
    let l : ℕ := ((stripeLaunch se 0).getD default).2.1
    let f : Fifo := (fifoOfRun se r (fifoNumber se 0 r im)).getD default
    operOn 0 0 2 se = some (im, v) ∧
      stripeLaunch se 0 = some (r, l, w) ∧
      im.field 0 2 0 = 3 ∧
      appendsDone r.image ((se.stripe 0).vs.getD 0) 0 v = true ∧
      fifoOfRun se r (fifoNumber se 0 r im) = some f :=
  by decide +kernel

theorem witness_StreamOperators_1 :
    let v : Oper := ((operOn 0 0 9 lo).getD default).2
    let im : OpImage := ((operOn 0 0 9 lo).getD default).1
    let t : Token := (v.head 0).getD default
    let t4 : Token := (v.head 1).getD default
    let n : ℕ := (List.find? (fun m => (Table.find m v.pool).isNone) (List.map (fun i => i + im.field 0 15 4) (List.range (im.field 0 27 16)))).getD default
    let old : Token := (Table.find (if im.field 0 0 0 = 0 then t4.frame.toNat else t4.iter.toNat) v.pool).getD default
    operOn 0 0 9 lo = some (im, v) ∧
      v.head 0 = some t ∧
      List.find? (fun m => (Table.find m v.pool).isNone) (List.map (fun i => i + im.field 0 15 4) (List.range (im.field 0 27 16))) = some n ∧
      roomForAll 0 (operOut im.out0 (if im.field 0 0 0 = 0 then { t with frame := BitVec.ofNat 11 n } else { t with iter := BitVec.ofNat 10 n })) lo = true ∧
      v.head 1 = some t4 ∧
      Table.find (if im.field 0 0 0 = 0 then t4.frame.toNat else t4.iter.toNat) v.pool = some old ∧
      roomForAll 0 (operOut im.out1 { old with kind := kData, eod := 0, value := t4.value, after := old.after.join t4.after }) lo = true :=
  by decide +kernel

theorem witness_StreamOperators_2 :
    let im : OpImage := ((operOn 0 0 7 jn).getD default).1
    let v : Oper := ((operOn 0 0 7 jn).getD default).2
    let t : Token := (List.filterMap v.head (joinInputs im)).head?.getD default
    operOn 0 0 7 jn = some (im, v) ∧
      (∀ i ∈ joinInputs im, (v.head i).isSome = true) ∧
      (List.filterMap v.head (joinInputs im)).head? = some t ∧
      roomForAll 0 (operOut im.out0 { t with after := List.foldl (fun m h => m.join h.after) View.zero (List.filterMap v.head (joinInputs im)) }) jn = true :=
  by decide +kernel

theorem witness_StreamOperators_3 :
    let v : Oper := ((operOn 0 0 8 (ac 196611)).getD default).2
    let im : OpImage := ((operOn 0 0 8 (ac 196611)).getD default).1
    let t : Token := (firstOfRoute v 0 0).getD default
    operOn 0 0 8 (ac 196611) = some (im, v) ∧
      firstOfRoute v 0 0 = some t ∧
      im.field 0 31 16 ≠ 0 ∧
      (accumPartial im v t.route.toNat).2.1 + 1 ≠ im.field 0 31 16 :=
  by decide +kernel

theorem witness_StreamOperators_4 :
    let v : Oper := ((operOn 0 0 8 (ac 131075)).getD default).2
    let im : OpImage := ((operOn 0 0 8 (ac 131075)).getD default).1
    let t : Token := (firstOfRoute v 0 0).getD default
    operOn 0 0 8 (ac 131075) = some (im, v) ∧
      firstOfRoute v 0 0 = some t ∧
      im.field 0 31 16 ≠ 0 ∧
      (accumPartial im v t.route.toNat).2.1 + 1 = im.field 0 31 16 ∧
      roomForAll 0 (operOut im.out0 t) (ac 131075) = true :=
  by decide +kernel

theorem witness_StreamOperators_5 :
    let v : Oper := ((operOn 0 0 8 (ac 106)).getD default).2
    let im : OpImage := ((operOn 0 0 8 (ac 106)).getD default).1
    let t : Token := (firstOfRoute v 0 0).getD default
    let c : Token := ((releaseCount v t.route).getD default).2
    let j : ℕ := ((releaseCount v t.route).getD default).1
    operOn 0 0 8 (ac 106) = some (im, v) ∧
      firstOfRoute v 0 0 = some t ∧
      im.field 0 31 16 = 0 ∧
      releaseCount v t.route = some (j, c) ∧
      c.value ≠ 0 ∧
      (accumPartial im v t.route.toNat).2.1 + 1 ≠ BitVec.toNat c.value :=
  by decide +kernel

end Case16

namespace Case17

open Says

def wAdd1 : BitVec 128 := 0x01600000843000000505050505050505
def wAdd2 : BitVec 128 := 0x01800000843000000000000000000000
def at3 (w : BitVec 128) (e : Elem) (f : List InFlight) (im : Table OpImage) (os : Table Oper) : State :=
  let s := fabric { StripeImage.blank with elems := [(3, ⟨[(3, w)], 0, none, 0⟩)], ops := im } [(3, e)] os
  s.setStripe 0 { s.stripe 0 with inbox := f }
def t33 : Token := { tok 9 with target := 3, slot := 3 }
def z1 := { t33 with slot := 4 }
def fe : FrameEntry := ⟨{ t33 with port := 1, value := 4 }, 3, 1, 5, .resident⟩
def z2 := { Elem.blank with frame := [fe] }
def z5 := { t33 with target := 16, slot := 1 }
def z6 := { Oper.blank with inputs := [(1, [tok 1])] }
def atR (e : Elem) (f : List InFlight) (spill ovf : Nat) : State :=
  let im : StripeImage := { StripeImage.blank with elems := [(3, ⟨[(3, wAdd2)], 0, none, 0⟩)] }
  let s := fabric im [(3, e)] []
  { s.setStripe 0 { s.stripe 0 with inbox := f } with runs := [(0, { probeRun im with spill := spill, overflow := ovf })] }
def oldE : FrameEntry := ⟨{ t33 with frame := 8, value := 4 }, 3, 1, 5, .resident⟩
def eL : Elem := { Elem.blank with frame := [oldE], lines := [(t33.line, BitVec.ofNat 14 oldE.tok.frameOf)], seq := 6 }
def inb : List InFlight := [⟨0, t33, false⟩]
def ov (z : State) : Got Nat := fabricTranslate 0 3 3 oldE.tok 0x3000 32 .write z
def aR0 := atR eL inb 1 0x3000
def aR1 := atR eL inb 0 0x3000
def aR2 := atR eL inb 0 0
def aR3 := atR Elem.blank inb 0 0
def dpE : Elem := { Elem.blank with frame := [⟨{ t33 with value := 4 }, 3, 0, 5, .resident⟩], seq := 6 }
def aR5 := atR dpE inb 1 0
def eosT : Token := { t33 with kind := kEos, port := 1 }
def aR6 := atR Elem.blank [⟨0, eosT, false⟩] 1 0
def mg6 : Token := { t33 with target := 16, slot := 1 }
def mgE : Token := { mg6 with kind := kEos }
def aM1 := at3 wAdd1 Elem.blank [⟨0, mgE, false⟩] [(0, opIm 10 1 0 0 0 0)] [(0, z6)]
def ee : State := at3 wAdd1 { Elem.blank with ended := [bodyMark + inputCode 3 0] } [] [] []
def eeF : State := at3 wAdd2 { Elem.blank with ended := [bodyMark + inputCode 3 0, bodyMark + inputCode 3 1], frame := [fe] } [] [] []
def z7 := { Elem.blank with eosSent := true }
def wMmg : BitVec 128 := 0xA8800000941095100000000000000110
def eoE : Elem := { Elem.blank with ended := [6, 7] }
def eoS : State := let im : StripeImage := { StripeImage.blank with elems := [(0, ⟨[(3, wMmg)], 0, none, 0⟩), (1, ⟨[(3, wMmg)], 0, none, 0⟩)] }
  fabric im [(0, eoE), (1, Elem.blank)] []
def tl : Tile := ⟨0, 2, 64, []⟩
def mtk : Token := { Token.blank with kind := kTile, value := tileHandle 0 0 tl, slot := 2 }
def eo : Elem := { Elem.blank with allot := 2, tiles := [(0, tl), (16, tl)], mmgOwed := [(0, 1, mtk, none), (0, 2, mtk, none)] }
def mm : State := fabric { StripeImage.blank with elems := [(0, ⟨[], 0, none, 0⟩), (1, ⟨[], 0, none, 0⟩)] } [(0, eo), (1, { Elem.blank with allot := 2 })] []
def mtkB : Token := { mtk with port := 1 }
def nd1 : Node := ⟨true, 2, 2, 1, [], [], 0, 0, 0, 0, 0, false⟩
def eo1 : Elem := { eo with wfmt := 14, nodes := [(0, nd1)], mmgOwed := [(0, 1, mtk, none)] }
def mm1 : State := fabric { StripeImage.blank with elems := [(0, ⟨[(2, 0xA8600000941000000000000000000110)], 0, none, 0⟩), (1, ⟨[], 0, none, 0⟩)] } [(0, eo1), (1, { Elem.blank with allot := 2 })] []
def wOf : EWord := match decodeElem 0xA8600000941000000000000000000110 with | some (.mmg w) => w | _ => word 1 false false 0 0
def eoX : Elem := { Elem.blank with allot := 8, tiles := [(0, tl), (16, { tl with bytes := [(511, 9)] }), (17, tl)], mmgOwed := [(3, 1, { mtk with value := tileHandle 0 7 tl }, some mtkB), (0, 2, mtk, none)] }
def mmX : State :=
  let im : StripeImage := { StripeImage.blank with elems := [(0, ⟨[], 0, none, 0⟩), (1, ⟨[], 0, none, 0⟩)] }
  let r : Run := { (default : Run) with image := ⟨false, [im, im, im, im]⟩, status := .running, width := 4, waves := 1, step := 5, stepOpen := true }
  let st := fun (k : Nat) (e : Elem) => { Stripe.blank with run := some 0, vs := some k, loadedAt := k, image := im, elems := [(0, e), (1, { Elem.blank with allot := 8 })] }
  { core0 with runs := [(0, r)], stripes := [(0, st 0 eoX), (1, st 1 Elem.blank), (2, st 2 Elem.blank), (3, st 3 Elem.blank)] }
def z8 := { Oper.blank with ended := [bodyMark + inputCode 0 0, bodyMark + inputCode 1 0] }
def z9 := { Oper.blank with eosSent := true }

theorem witness_TokensArrive_1 :
    let kv : ℕ := ((at3 wAdd1 Elem.blank [{ src := 0, tok := z5, crossed := false }] [(0, opIm 2 0 0 0 0 0)] [(0, z6)]).stripe 0).vs.getD default
    let r : Run := (((at3 wAdd1 Elem.blank [{ src := 0, tok := z5, crossed := false }] [(0, opIm 2 0 0 0 0 0)] [(0, z6)]).runOf 0).getD default).2
    let rid : ℕ := (((at3 wAdd1 Elem.blank [{ src := 0, tok := z5, crossed := false }] [(0, opIm 2 0 0 0 0 0)] [(0, z6)]).runOf 0).getD default).1
    let f : InFlight := ((at3 wAdd1 Elem.blank [{ src := 0, tok := z5, crossed := false }] [(0, opIm 2 0 0 0 0 0)] [(0, z6)]).stripe 0).inbox[0]?.getD default
    let v : Oper := ((at3 wAdd1 Elem.blank [{ src := 0, tok := z5, crossed := false }] [(0, opIm 2 0 0 0 0 0)] [(0, z6)]).oper? 0 (f.tok.target.toNat - 16)).getD default
    let im : OpImage := ((at3 wAdd1 Elem.blank [{ src := 0, tok := z5, crossed := false }] [(0, opIm 2 0 0 0 0 0)] [(0, z6)]).opImage 0 (f.tok.target.toNat - 16)).getD default
    (at3 wAdd1 Elem.blank [{ src := 0, tok := z5, crossed := false }] [(0, opIm 2 0 0 0 0 0)] [(0, z6)]).runOf 0 = some (rid, r) ∧
      ((at3 wAdd1 Elem.blank [{ src := 0, tok := z5, crossed := false }] [(0, opIm 2 0 0 0 0 0)] [(0, z6)]).stripe 0).inbox[0]? = some f ∧
      ((at3 wAdd1 Elem.blank [{ src := 0, tok := z5, crossed := false }] [(0, opIm 2 0 0 0 0 0)] [(0, z6)]).stripe 0).vs = some kv ∧
      stripeLive (at3 wAdd1 Elem.blank [{ src := 0, tok := z5, crossed := false }] [(0, opIm 2 0 0 0 0 0)] [(0, z6)]) 0 = true ∧
      behind (List.take 0 ((at3 wAdd1 Elem.blank [{ src := 0, tok := z5, crossed := false }] [(0, opIm 2 0 0 0 0 0)] [(0, z6)]).stripe 0).inbox) f = false ∧
      canTake (at3 wAdd1 Elem.blank [{ src := 0, tok := z5, crossed := false }] [(0, opIm 2 0 0 0 0 0)] [(0, z6)]) 0 f.tok = true ∧
      16 ≤ f.tok.target.toNat ∧
      (at3 wAdd1 Elem.blank [{ src := 0, tok := z5, crossed := false }] [(0, opIm 2 0 0 0 0 0)] [(0, z6)]).opImage 0 (f.tok.target.toNat - 16) = some im ∧
      f.tok.slot.toNat < opInputs im.kind ∧
      (at3 wAdd1 Elem.blank [{ src := 0, tok := z5, crossed := false }] [(0, opIm 2 0 0 0 0 0)] [(0, z6)]).oper? 0 (f.tok.target.toNat - 16) = some v ∧
      f.tok.kind = kData :=
  by decide +kernel

theorem witness_TokensArrive_2 :
    let kv : ℕ := ((at3 wAdd1 Elem.blank [{ src := 1, tok := z1, crossed := false }, { src := 0, tok := t33, crossed := false }] [] []).stripe 0).vs.getD default
    let r : Run := (((at3 wAdd1 Elem.blank [{ src := 1, tok := z1, crossed := false }, { src := 0, tok := t33, crossed := false }] [] []).runOf 0).getD default).2
    let rid : ℕ := (((at3 wAdd1 Elem.blank [{ src := 1, tok := z1, crossed := false }, { src := 0, tok := t33, crossed := false }] [] []).runOf 0).getD default).1
    let f : InFlight := ((at3 wAdd1 Elem.blank [{ src := 1, tok := z1, crossed := false }, { src := 0, tok := t33, crossed := false }] [] []).stripe 0).inbox[1]?.getD default
    let el : Elem := ((at3 wAdd1 Elem.blank [{ src := 1, tok := z1, crossed := false }, { src := 0, tok := t33, crossed := false }] [] []).elem? 0 f.tok.target.toNat).getD default
    let i : Instr := ((at3 wAdd1 Elem.blank [{ src := 1, tok := z1, crossed := false }, { src := 0, tok := t33, crossed := false }] [] []).slotAt 0 f.tok.target.toNat f.tok.slot.toNat).getD .cyield
    (at3 wAdd1 Elem.blank [{ src := 1, tok := z1, crossed := false }, { src := 0, tok := t33, crossed := false }] [] []).runOf 0 = some (rid, r) ∧
      ((at3 wAdd1 Elem.blank [{ src := 1, tok := z1, crossed := false }, { src := 0, tok := t33, crossed := false }] [] []).stripe 0).inbox[1]? = some f ∧
      ((at3 wAdd1 Elem.blank [{ src := 1, tok := z1, crossed := false }, { src := 0, tok := t33, crossed := false }] [] []).stripe 0).vs = some kv ∧
      stripeLive (at3 wAdd1 Elem.blank [{ src := 1, tok := z1, crossed := false }, { src := 0, tok := t33, crossed := false }] [] []) 0 = true ∧
      behind (List.take 1 ((at3 wAdd1 Elem.blank [{ src := 1, tok := z1, crossed := false }, { src := 0, tok := t33, crossed := false }] [] []).stripe 0).inbox) f = false ∧
      canTake (at3 wAdd1 Elem.blank [{ src := 1, tok := z1, crossed := false }, { src := 0, tok := t33, crossed := false }] [] []) 0 f.tok = true ∧
      f.tok.target.toNat < 16 ∧
      (at3 wAdd1 Elem.blank [{ src := 1, tok := z1, crossed := false }, { src := 0, tok := t33, crossed := false }] [] []).slotAt 0 f.tok.target.toNat f.tok.slot.toNat = some i ∧
      (at3 wAdd1 Elem.blank [{ src := 1, tok := z1, crossed := false }, { src := 0, tok := t33, crossed := false }] [] []).elem? 0 f.tok.target.toNat = some el ∧
      initialForm i = false ∧
      f.tok.kind = kData ∧
      arityOf i ≠ 2 ∧
      f.tok.port = 0 :=
  by decide +kernel

theorem witness_TokensArrive_3 :
    let kv : ℕ := (aR5.stripe 0).vs.getD default
    let rid : ℕ := ((aR5.runOf 0).getD default).1
    let r : Run := ((aR5.runOf 0).getD default).2
    let f : InFlight := (aR5.stripe 0).inbox[0]?.getD default
    let el : Elem := (aR5.elem? 0 f.tok.target.toNat).getD default
    let i : Instr := (aR5.slotAt 0 f.tok.target.toNat f.tok.slot.toNat).getD .cyield
    let g : FrameEntry := (List.find? (fun h => h.tok.frameOf == f.tok.frameOf && h.slot == f.tok.slot.toNat && h.tok.iter == f.tok.iter && h.port == f.tok.port) el.frame).getD default
    aR5.runOf 0 = some (rid, r) ∧
      (aR5.stripe 0).inbox[0]? = some f ∧
      (aR5.stripe 0).vs = some kv ∧
      stripeLive aR5 0 = true ∧
      behind (List.take 0 (aR5.stripe 0).inbox) f = false ∧
      canTake aR5 0 f.tok = true ∧
      f.tok.target.toNat < 16 ∧
      aR5.slotAt 0 f.tok.target.toNat f.tok.slot.toNat = some i ∧
      aR5.elem? 0 f.tok.target.toNat = some el ∧
      initialForm i = false ∧
      f.tok.kind = kData ∧
      arityOf i = 2 ∧
      List.find? (fun h => h.tok.frameOf == f.tok.frameOf && h.slot == f.tok.slot.toNat && h.tok.iter == f.tok.iter && h.port == f.tok.port) el.frame = some g :=
  by decide +kernel

theorem witness_TokensArrive_4 :
    let kv : ℕ := (aR6.stripe 0).vs.getD default
    let r : Run := ((aR6.runOf 0).getD default).2
    let rid : ℕ := ((aR6.runOf 0).getD default).1
    let f : InFlight := (aR6.stripe 0).inbox[0]?.getD default
    let el : Elem := (aR6.elem? 0 f.tok.target.toNat).getD default
    let i : Instr := (aR6.slotAt 0 f.tok.target.toNat f.tok.slot.toNat).getD .cyield
    aR6.runOf 0 = some (rid, r) ∧
      (aR6.stripe 0).inbox[0]? = some f ∧
      (aR6.stripe 0).vs = some kv ∧
      stripeLive aR6 0 = true ∧
      behind (List.take 0 (aR6.stripe 0).inbox) f = false ∧
      canTake aR6 0 f.tok = true ∧
      f.tok.target.toNat < 16 ∧
      aR6.slotAt 0 f.tok.target.toNat f.tok.slot.toNat = some i ∧
      aR6.elem? 0 f.tok.target.toNat = some el ∧
      initialForm i = false ∧
      f.tok.kind = kEos ∧
      (f.tok.port = 0 ∨ arityOf i = 2) ∧
      inBody r.image { vs := kv, tgt := f.tok.target.toNat, slot := f.tok.slot.toNat, port := f.tok.port.toNat } = false :=
  by decide +kernel

theorem witness_TokensArrive_5 :
    let kv : ℕ := (aM1.stripe 0).vs.getD default
    let r : Run := ((aM1.runOf 0).getD default).2
    let rid : ℕ := ((aM1.runOf 0).getD default).1
    let f : InFlight := (aM1.stripe 0).inbox[0]?.getD default
    let v : Oper := (aM1.oper? 0 (f.tok.target.toNat - 16)).getD default
    let im : OpImage := (aM1.opImage 0 (f.tok.target.toNat - 16)).getD default
    aM1.runOf 0 = some (rid, r) ∧
      (aM1.stripe 0).inbox[0]? = some f ∧
      (aM1.stripe 0).vs = some kv ∧
      stripeLive aM1 0 = true ∧
      behind (List.take 0 (aM1.stripe 0).inbox) f = false ∧
      canTake aM1 0 f.tok = true ∧
      16 ≤ f.tok.target.toNat ∧
      aM1.opImage 0 (f.tok.target.toNat - 16) = some im ∧
      f.tok.slot.toNat < opInputs im.kind ∧
      aM1.oper? 0 (f.tok.target.toNat - 16) = some v ∧
      f.tok.kind = kEos ∧
      inBody r.image { vs := kv, tgt := f.tok.target.toNat, slot := f.tok.slot.toNat, port := 0 } = false ∧
      (¬(im.kind = 9 ∧ f.tok.slot.toNat = 1)) :=
  by decide +kernel

theorem witness_TokensArrive_6 :
    let kv : ℕ := ((at3 wAdd2 z2 [{ src := 0, tok := t33, crossed := false }] [] []).stripe 0).vs.getD default
    let rid : ℕ := (((at3 wAdd2 z2 [{ src := 0, tok := t33, crossed := false }] [] []).runOf 0).getD default).1
    let r : Run := (((at3 wAdd2 z2 [{ src := 0, tok := t33, crossed := false }] [] []).runOf 0).getD default).2
    let f : InFlight := ((at3 wAdd2 z2 [{ src := 0, tok := t33, crossed := false }] [] []).stripe 0).inbox[0]?.getD default
    let el : Elem := ((at3 wAdd2 z2 [{ src := 0, tok := t33, crossed := false }] [] []).elem? 0 f.tok.target.toNat).getD default
    let i : Instr := ((at3 wAdd2 z2 [{ src := 0, tok := t33, crossed := false }] [] []).slotAt 0 f.tok.target.toNat f.tok.slot.toNat).getD .cyield
    let g : FrameEntry := (List.find? (fun h => h.tok.frameOf == f.tok.frameOf && h.slot == f.tok.slot.toNat && h.tok.iter == f.tok.iter && h.port != f.tok.port) el.frame).getD default
    (g.place = EntryPlace.resident ∨ ∃ i, g.place = EntryPlace.carveOut i ∧ bufferFails (at3 wAdd2 z2 [{ src := 0, tok := t33, crossed := false }] [] []) 1 (carveOffset r 0 i) 32 false = false) ∧
      (at3 wAdd2 z2 [{ src := 0, tok := t33, crossed := false }] [] []).runOf 0 = some (rid, r) ∧
      ((at3 wAdd2 z2 [{ src := 0, tok := t33, crossed := false }] [] []).stripe 0).inbox[0]? = some f ∧
      ((at3 wAdd2 z2 [{ src := 0, tok := t33, crossed := false }] [] []).stripe 0).vs = some kv ∧
      stripeLive (at3 wAdd2 z2 [{ src := 0, tok := t33, crossed := false }] [] []) 0 = true ∧
      behind (List.take 0 ((at3 wAdd2 z2 [{ src := 0, tok := t33, crossed := false }] [] []).stripe 0).inbox) f = false ∧
      canTake (at3 wAdd2 z2 [{ src := 0, tok := t33, crossed := false }] [] []) 0 f.tok = true ∧
      f.tok.target.toNat < 16 ∧
      (at3 wAdd2 z2 [{ src := 0, tok := t33, crossed := false }] [] []).slotAt 0 f.tok.target.toNat f.tok.slot.toNat = some i ∧
      (at3 wAdd2 z2 [{ src := 0, tok := t33, crossed := false }] [] []).elem? 0 f.tok.target.toNat = some el ∧
      initialForm i = false ∧
      f.tok.kind = kData ∧
      arityOf i = 2 ∧
      List.find? (fun h => h.tok.frameOf == f.tok.frameOf && h.slot == f.tok.slot.toNat && h.tok.iter == f.tok.iter && h.port == f.tok.port) el.frame = none ∧
      List.find? (fun h => h.tok.frameOf == f.tok.frameOf && h.slot == f.tok.slot.toNat && h.tok.iter == f.tok.iter && h.port != f.tok.port) el.frame = some g :=
  ⟨(by first | exact Or.inl (by decide +kernel) | exact Or.inr ⟨0, by decide +kernel⟩), by decide +kernel⟩

theorem witness_TokensArrive_7 :
    let kv : ℕ := (aR3.stripe 0).vs.getD default
    let rid : ℕ := ((aR3.runOf 0).getD default).1
    let r : Run := ((aR3.runOf 0).getD default).2
    let f : InFlight := (aR3.stripe 0).inbox[0]?.getD default
    let el : Elem := (aR3.elem? 0 f.tok.target.toNat).getD default
    let i : Instr := (aR3.slotAt 0 f.tok.target.toNat f.tok.slot.toNat).getD .cyield
    aR3.runOf 0 = some (rid, r) ∧
      (aR3.stripe 0).inbox[0]? = some f ∧
      (aR3.stripe 0).vs = some kv ∧
      stripeLive aR3 0 = true ∧
      behind (List.take 0 (aR3.stripe 0).inbox) f = false ∧
      canTake aR3 0 f.tok = true ∧
      f.tok.target.toNat < 16 ∧
      aR3.slotAt 0 f.tok.target.toNat f.tok.slot.toNat = some i ∧
      aR3.elem? 0 f.tok.target.toNat = some el ∧
      initialForm i = false ∧
      f.tok.kind = kData ∧
      arityOf i = 2 ∧
      List.find? (fun h => h.tok.frameOf == f.tok.frameOf && h.slot == f.tok.slot.toNat && h.tok.iter == f.tok.iter && h.port == f.tok.port) el.frame = none ∧
      List.find? (fun h => h.tok.frameOf == f.tok.frameOf && h.slot == f.tok.slot.toNat && h.tok.iter == f.tok.iter && h.port != f.tok.port) el.frame = none ∧
      List.find? (fun h => h.tok.frameOf == f.tok.frameOf && h.place != EntryPlace.resident) el.frame = none ∧
      (List.filter (fun h => h.tok.frameOf == f.tok.frameOf) el.frame).length < 16 ∧
      Option.all (fun v => v.toNat == f.tok.frameOf) (Table.find f.tok.line el.lines) = true :=
  by decide +kernel

theorem witness_TokensArrive_8 :
    let g : FrameEntry := oldE
    let i8 : ℕ := 0
    let old : BitVec 14 := BitVec.ofNat 14 g.tok.frameOf
    let kv : ℕ := (aR2.stripe i8).vs.getD default
    let rid : ℕ := ((aR2.runOf i8).getD default).1
    let r : Run := ((aR2.runOf i8).getD default).2
    let f : InFlight := (aR2.stripe i8).inbox[i8]?.getD default
    let el : Elem := (aR2.elem? i8 f.tok.target.toNat).getD default
    let i : Instr := (aR2.slotAt i8 f.tok.target.toNat f.tok.slot.toNat).getD .cyield
    aR2.runOf i8 = some (rid, r) ∧
      (aR2.stripe i8).inbox[i8]? = some f ∧
      (aR2.stripe i8).vs = some kv ∧
      stripeLive aR2 i8 = true ∧
      behind (List.take i8 (aR2.stripe i8).inbox) f = false ∧
      canTake aR2 i8 f.tok = true ∧
      f.tok.target.toNat < 16 ∧
      aR2.slotAt i8 f.tok.target.toNat f.tok.slot.toNat = some i ∧
      aR2.elem? i8 f.tok.target.toNat = some el ∧
      initialForm i = false ∧
      f.tok.kind = kData ∧
      arityOf i = 2 ∧
      List.find? (fun h => h.tok.frameOf == f.tok.frameOf && h.slot == f.tok.slot.toNat && h.tok.iter == f.tok.iter && h.port == f.tok.port) el.frame = none ∧
      List.find? (fun h => h.tok.frameOf == f.tok.frameOf && h.slot == f.tok.slot.toNat && h.tok.iter == f.tok.iter && h.port != f.tok.port) el.frame = none ∧
      List.find? (fun h => h.tok.frameOf == f.tok.frameOf && h.place != EntryPlace.resident) el.frame = none ∧
      (List.filter (fun h => h.tok.frameOf == f.tok.frameOf) el.frame).length < 16 ∧
      Table.find f.tok.line el.lines = some old ∧
      old.toNat ≠ f.tok.frameOf ∧
      List.filter (fun h => h.tok.frameOf == old.toNat && h.place == EntryPlace.resident) el.frame = [g] ∧
      freePlace aR2 i8 r = none :=
  by decide +kernel

theorem witness_TokensArrive_9 :
    let g : FrameEntry := oldE
    let i8 : ℕ := 0
    let old : BitVec 14 := BitVec.ofNat 14 g.tok.frameOf
    let kv : ℕ := (aR0.stripe i8).vs.getD default
    let rid : ℕ := ((aR0.runOf i8).getD default).1
    let r : Run := ((aR0.runOf i8).getD default).2
    let f : InFlight := (aR0.stripe i8).inbox[i8]?.getD default
    let el : Elem := (aR0.elem? i8 f.tok.target.toNat).getD default
    let i : Instr := (aR0.slotAt i8 f.tok.target.toNat f.tok.slot.toNat).getD .cyield
    aR0.runOf i8 = some (rid, r) ∧
      (aR0.stripe i8).inbox[i8]? = some f ∧
      (aR0.stripe i8).vs = some kv ∧
      stripeLive aR0 i8 = true ∧
      behind (List.take i8 (aR0.stripe i8).inbox) f = false ∧
      canTake aR0 i8 f.tok = true ∧
      f.tok.target.toNat < 16 ∧
      aR0.slotAt i8 f.tok.target.toNat f.tok.slot.toNat = some i ∧
      aR0.elem? i8 f.tok.target.toNat = some el ∧
      initialForm i = false ∧
      f.tok.kind = kData ∧
      arityOf i = 2 ∧
      List.find? (fun h => h.tok.frameOf == f.tok.frameOf && h.slot == f.tok.slot.toNat && h.tok.iter == f.tok.iter && h.port == f.tok.port) el.frame = none ∧
      List.find? (fun h => h.tok.frameOf == f.tok.frameOf && h.slot == f.tok.slot.toNat && h.tok.iter == f.tok.iter && h.port != f.tok.port) el.frame = none ∧
      List.find? (fun h => h.tok.frameOf == f.tok.frameOf && h.place != EntryPlace.resident) el.frame = none ∧
      (List.filter (fun h => h.tok.frameOf == f.tok.frameOf) el.frame).length < 16 ∧
      Table.find f.tok.line el.lines = some old ∧
      old.toNat ≠ f.tok.frameOf ∧
      List.filter (fun h => h.tok.frameOf == old.toNat && h.place == EntryPlace.resident) el.frame = [g] ∧
      freePlace aR0 i8 r = some (EntryPlace.carveOut i8) ∧
      cellsWf (fun x => 0) aR0.stripeBuf = true :=
  by decide +kernel

theorem witness_TokensArrive_10 :
    let g : FrameEntry := oldE
    let s1 : State := landed (ov aR1) State.reset
    let i8 : ℕ := 0
    let old : BitVec 14 := BitVec.ofNat 14 g.tok.frameOf
    let pa : ℕ := valueOf (ov aR1) i8
    let kv : ℕ := (aR1.stripe i8).vs.getD default
    let rid : ℕ := ((aR1.runOf i8).getD default).1
    let r : Run := ((aR1.runOf i8).getD default).2
    let f : InFlight := (aR1.stripe i8).inbox[i8]?.getD default
    let el : Elem := (aR1.elem? i8 f.tok.target.toNat).getD default
    let i : Instr := (aR1.slotAt i8 f.tok.target.toNat f.tok.slot.toNat).getD .cyield
    fabricTranslate i8 f.tok.target.toNat g.slot g.tok (BitVec.ofNat 64 (r.overflow + (i8 - r.xorig) * 2 ^ 20 + 32 * i8)) 32 Cls.write aR1 = Got.ok pa s1 ∧
      s1.Inv ∧
      aR1.runOf i8 = some (rid, r) ∧
      (aR1.stripe i8).inbox[i8]? = some f ∧
      (aR1.stripe i8).vs = some kv ∧
      stripeLive aR1 i8 = true ∧
      behind (List.take i8 (aR1.stripe i8).inbox) f = false ∧
      canTake aR1 i8 f.tok = true ∧
      f.tok.target.toNat < 16 ∧
      aR1.slotAt i8 f.tok.target.toNat f.tok.slot.toNat = some i ∧
      aR1.elem? i8 f.tok.target.toNat = some el ∧
      initialForm i = false ∧
      f.tok.kind = kData ∧
      arityOf i = 2 ∧
      List.find? (fun h => h.tok.frameOf == f.tok.frameOf && h.slot == f.tok.slot.toNat && h.tok.iter == f.tok.iter && h.port == f.tok.port) el.frame = none ∧
      List.find? (fun h => h.tok.frameOf == f.tok.frameOf && h.slot == f.tok.slot.toNat && h.tok.iter == f.tok.iter && h.port != f.tok.port) el.frame = none ∧
      List.find? (fun h => h.tok.frameOf == f.tok.frameOf && h.place != EntryPlace.resident) el.frame = none ∧
      (List.filter (fun h => h.tok.frameOf == f.tok.frameOf) el.frame).length < 16 ∧
      Table.find f.tok.line el.lines = some old ∧
      old.toNat ≠ f.tok.frameOf ∧
      List.filter (fun h => h.tok.frameOf == old.toNat && h.place == EntryPlace.resident) el.frame = [g] ∧
      freePlace aR1 i8 r = some (EntryPlace.overflow i8) ∧
      s1.stripes = aR1.stripes ∧
      onDevice pa = true ∧
      s1.wqueue = [] ∧
      writeFails s1 pa 32 = false :=
  ⟨(ok_of (by decide +kernel) default State.reset), (by show (_ = true); decide +kernel), by decide +kernel⟩

theorem witness_ElementsEndTheirStream_1 :
    let k : ℕ := (eoS.stripe 0).vs.getD default
    let el : Elem := (eoS.elem? 0 0).getD default
    let im : ElemImage := (eoS.elemImage 0 0).getD default
    let rid : ℕ := ((eoS.runOf 0).getD default).1
    let r : Run := ((eoS.runOf 0).getD default).2
    let m : ℕ × List (BitVec 16) := (endingOrigin r im eoE 0 0 (startsEnded r (eoS.stripe 0))).getD default
    let p : MmgParams := ((slotInstr im m.1).bind mmgParams).getD ⟨0, 0, 1, false, false⟩
    let q : ℕ × ℕ := (mmgOthers 0 p).headD default
    eoS.runOf 0 = some (rid, r) ∧
      eoS.elem? 0 0 = some el ∧
      eoS.elemImage 0 0 = some im ∧
      (eoS.stripe 0).vs = some k ∧
      el.eosSent = false ∧
      el.faulted = none ∧
      stripeLive eoS 0 = true ∧
      fabricStalled eoS (FaultAgent.elem 0 0) = false ∧
      endingOrigin r im el 0 k (startsEnded r (eoS.stripe 0)) = some m ∧
      (slotInstr im m.1).bind mmgParams = some p ∧
      p.member = false ∧
      q ∈ mmgOthers 0 p :=
  by decide +kernel

theorem witness_ElementsEndTheirStream_2 :
    let k : ℕ := ((at3 wAdd1 z7 [] [] []).stripe 0).vs.getD default
    let im : ElemImage := ((at3 wAdd1 z7 [] [] []).elemImage 0 3).getD default
    let el : Elem := ((at3 wAdd1 z7 [] [] []).elem? 0 3).getD default
    let rid : ℕ := (((at3 wAdd1 z7 [] [] []).runOf 0).getD default).1
    let r : Run := (((at3 wAdd1 z7 [] [] []).runOf 0).getD default).2
    (at3 wAdd1 z7 [] [] []).runOf 0 = some (rid, r) ∧
      (at3 wAdd1 z7 [] [] []).elem? 0 3 = some el ∧
      (at3 wAdd1 z7 [] [] []).elemImage 0 3 = some im ∧
      ((at3 wAdd1 z7 [] [] []).stripe 0).vs = some k ∧
      el.eosSent = true :=
  by decide +kernel

theorem witness_ElementsEndTheirStream_3 :
    let k : ℕ := (ee.stripe 0).vs.getD default
    let im : ElemImage := (ee.elemImage 0 3).getD default
    let el : Elem := (ee.elem? 0 3).getD default
    let rid : ℕ := ((ee.runOf 0).getD default).1
    let r : Run := ((ee.runOf 0).getD default).2
    ee.runOf 0 = some (rid, r) ∧
      ee.elem? 0 3 = some el ∧
      ee.elemImage 0 3 = some im ∧
      (ee.stripe 0).vs = some k ∧
      el.eosSent = false ∧
      el.faulted = none ∧
      stripeLive ee 0 = true ∧
      fabricStalled ee (FaultAgent.elem 0 3) = false ∧
      eosBySlot r.image k 3 = false ∧
      portsEnded r.image (elemInputs r.image k 3) el.ended (startsEnded r (ee.stripe 0)) = true ∧
      endingOrigin r im el 3 k (startsEnded r (ee.stripe 0)) = none ∧
      slotsIdle el (List.map (fun x => x.1) im.slots) = true ∧
      List.find? (fun f => (List.map (fun x => x.1) im.slots).contains f.slot) el.frame = none :=
  by decide +kernel

theorem witness_ElementsEndTheirStream_4 :
    let k : ℕ := (eeF.stripe 0).vs.getD default
    let el : Elem := (eeF.elem? 0 3).getD default
    let im : ElemImage := (eeF.elemImage 0 3).getD default
    let r : Run := ((eeF.runOf 0).getD default).2
    let rid : ℕ := ((eeF.runOf 0).getD default).1
    let f : FrameEntry := (List.find? (fun f => (List.map (fun x => x.1) im.slots).contains f.slot) el.frame).getD default
    eeF.runOf 0 = some (rid, r) ∧
      eeF.elem? 0 3 = some el ∧
      eeF.elemImage 0 3 = some im ∧
      (eeF.stripe 0).vs = some k ∧
      el.eosSent = false ∧
      el.faulted = none ∧
      stripeLive eeF 0 = true ∧
      fabricStalled eeF (FaultAgent.elem 0 3) = false ∧
      eosBySlot r.image k 3 = false ∧
      portsEnded r.image (elemInputs r.image k 3) el.ended (startsEnded r (eeF.stripe 0)) = true ∧
      endingOrigin r im el 3 k (startsEnded r (eeF.stripe 0)) = none ∧
      slotsIdle el (List.map (fun x => x.1) im.slots) = true ∧
      List.find? (fun f => (List.map (fun x => x.1) im.slots).contains f.slot) el.frame = some f :=
  by decide +kernel

theorem witness_MmgCopiesOperands_1 :
    let v : Elem := (mm.elem? 0 0).getD default
    let so : ℕ := ((List.find? (memberReady mm 0 0) v.mmgOwed).getD default).1
    let el : ℕ := ((List.find? (memberReady mm 0 0) v.mmgOwed).getD default).2.1
    let b : Option Token := ((List.find? (memberReady mm 0 0) v.mmgOwed).getD default).2.2.2
    let a : Token := ((List.find? (memberReady mm 0 0) v.mmgOwed).getD default).2.2.1
    let m : Elem := (mm.elem? 0 el).getD default
    mm.elem? 0 0 = some v ∧
      v.faulted = none ∧
      stripeLive mm 0 = true ∧
      List.find? (memberReady mm 0 0) v.mmgOwed = some (so, el, a, b) ∧
      memberStripe mm 0 so = some 0 ∧
      mm.elem? 0 el = some m ∧
      (¬(0 = 0 ∧ el = 0)) ∧
      (∀ t ∈ a :: b.toList, BitVec.toNat t.value % 8 < m.allot) ∧
      so < 4 ∧
      v.mmgOwed.erase (so, el, a, b) ≠ [] ∧
      memberDirect mm 0 so = true :=
  by decide +kernel

theorem witness_MmgCopiesOperands_2 :
    let v : Elem := (mmX.elem? 0 0).getD default
    let so : ℕ := ((List.find? (memberReady mmX 0 0) v.mmgOwed).getD default).1
    let el : ℕ := ((List.find? (memberReady mmX 0 0) v.mmgOwed).getD default).2.1
    let b : Option Token := ((List.find? (memberReady mmX 0 0) v.mmgOwed).getD default).2.2.2
    let a : Token := ((List.find? (memberReady mmX 0 0) v.mmgOwed).getD default).2.2.1
    let m : Elem := (mmX.elem? 3 el).getD default
    mmX.elem? 0 0 = some v ∧
      v.faulted = none ∧
      stripeLive mmX 0 = true ∧
      List.find? (memberReady mmX 0 0) v.mmgOwed = some (so, el, a, b) ∧
      memberStripe mmX 0 so = some 3 ∧
      mmX.elem? 3 el = some m ∧
      (¬(3 = 0 ∧ el = 0)) ∧
      (∀ t ∈ a :: b.toList, BitVec.toNat t.value % 8 < m.allot) ∧
      so < 4 ∧
      v.mmgOwed.erase (so, el, a, b) ≠ [] ∧
      memberDirect mmX 0 so = false ∧
      el < 32 :=
  by decide +kernel

theorem witness_MmgCopiesOperands_3 :
    let w : EWord := wOf
    let v : Elem := (mm1.elem? 0 0).getD default
    let nd : Node := (Table.find (BitVec.toNat w.imm % 4) v.nodes).getD default
    let so : ℕ := ((List.find? (memberReady mm1 0 0) v.mmgOwed).getD default).1
    let el : ℕ := ((List.find? (memberReady mm1 0 0) v.mmgOwed).getD default).2.1
    let a : Token := ((List.find? (memberReady mm1 0 0) v.mmgOwed).getD default).2.2.1
    let b : Option Token := ((List.find? (memberReady mm1 0 0) v.mmgOwed).getD default).2.2.2
    let m : Elem := (mm1.elem? 0 el).getD default
    mm1.elem? 0 0 = some v ∧
      v.faulted = none ∧
      stripeLive mm1 0 = true ∧
      List.find? (memberReady mm1 0 0) v.mmgOwed = some (so, el, a, b) ∧
      memberStripe mm1 0 so = some 0 ∧
      mm1.elem? 0 el = some m ∧
      (¬(0 = 0 ∧ el = 0)) ∧
      (∀ t ∈ a :: b.toList, BitVec.toNat t.value % 8 < m.allot) ∧
      so < 4 ∧
      v.mmgOwed.erase (so, el, a, b) = [] ∧
      mm1.slotAt 0 0 a.slot.toNat = some (Instr.mmg w) ∧
      Table.find (BitVec.toNat w.imm % 4) v.nodes = some nd ∧
      leftOver (0 : ℕ) (0 : ℕ)     (mmgFinish (0 : ℕ) (0 : ℕ) a b       (((match b with               | some c => copyOperand (0 : ℕ) (0 : ℕ) (0 : ℕ) (so, el, a, b) (17 : ℕ) (1 : ℕ) c (copyOperand (0 : ℕ) (0 : ℕ) (0 : ℕ) (so, el, a, b) (16 : ℕ) (0 : ℕ) a mm1)               | none => copyOperand (0 : ℕ) (0 : ℕ) (0 : ℕ) (so, el, a, b) (16 : ℕ) (0 : ℕ) a mm1).mapElem             (0 : ℕ) el fun (n : Elem) => { n with mmgSent := Table.set a.slot.toNat ((16 : ℕ) * so + (0 : ℕ)) n.mmgSent }).mapElem         (0 : ℕ) (0 : ℕ) fun (u : Elem) => { u with mmgOwed := [], stuck := [] })) =   [] :=
  by decide +kernel

theorem witness_OperatorsEndTheirStream_1 :
    let r : Run := (((operWith (opIm 7 3 0 0 0 0) z9).runOf 0).getD default).2
    let rid : ℕ := (((operWith (opIm 7 3 0 0 0 0) z9).runOf 0).getD default).1
    let v : Oper := ((operOn 0 0 (opIm 7 3 0 0 0 0).kind (operWith (opIm 7 3 0 0 0 0) z9)).getD default).2
    (operWith (opIm 7 3 0 0 0 0) z9).runOf 0 = some (rid, r) ∧
      operOn 0 0 (opIm 7 3 0 0 0 0).kind (operWith (opIm 7 3 0 0 0 0) z9) = some (opIm 7 3 0 0 0 0, v) ∧
      v.eosSent = true :=
  by decide +kernel

theorem witness_OperatorsEndTheirStream_2 :
    let r : Run := (((operWith (opIm 7 3 0 0 0 0) z8).runOf 0).getD default).2
    let rid : ℕ := (((operWith (opIm 7 3 0 0 0 0) z8).runOf 0).getD default).1
    let v : Oper := ((operOn 0 0 (opIm 7 3 0 0 0 0).kind (operWith (opIm 7 3 0 0 0 0) z8)).getD default).2
    (operWith (opIm 7 3 0 0 0 0) z8).runOf 0 = some (rid, r) ∧
      operOn 0 0 (opIm 7 3 0 0 0 0).kind (operWith (opIm 7 3 0 0 0 0) z8) = some (opIm 7 3 0 0 0 0, v) ∧
      v.eosSent = false ∧
      operEnded (operWith (opIm 7 3 0 0 0 0) z8) 0 0 r (opIm 7 3 0 0 0 0) v = true ∧
      operIdle (operWith (opIm 7 3 0 0 0 0) z8) 0 0 (opIm 7 3 0 0 0 0) v = true ∧
      streamMarked (operWith (opIm 7 3 0 0 0 0) z8) 0 0 r (opIm 7 3 0 0 0 0) v = true ∧
      roomForAll 0 (if (opIm 7 3 0 0 0 0).kind = 9 then [] else operOut (opIm 7 3 0 0 0 0).out0 eosToken) (operWith (opIm 7 3 0 0 0 0) z8) = true ∧
      roomForAll ((out1Stripe (operWith (opIm 7 3 0 0 0 0) z8) 0 (opIm 7 3 0 0 0 0)).getD 0) (if (out1Stripe (operWith (opIm 7 3 0 0 0 0) z8) 0 (opIm 7 3 0 0 0 0)).isSome = true then operOut (opIm 7 3 0 0 0 0).out1 eosToken else []) (operSend 0 0 (if (opIm 7 3 0 0 0 0).kind = 9 then [] else operOut (opIm 7 3 0 0 0 0).out0 eosToken) ((operWith (opIm 7 3 0 0 0 0) z8).setOper 0 0 { v with eosSent := true })) = true :=
  by decide +kernel

end Case17

namespace Case18

open Says

def entry : List Byte := wordBytes ([locWord0 0 0x40, locWord0 1 0x80] ++ List.replicate 6 0)
where locWord0 (die addr : Nat) : Word := BitVec.ofNat 64 (die * 2^61 + 8 * 2^57 + addr + 32)
def regT : Region := ⟨0x20000000, 4098*64, 2, 0, 0x200000, 0x90000, [0x200000], 0, 1, [(0, ⟨3, [(3, List.replicate 64 0)]⟩), (8, ⟨2, [(2, entry)]⟩)], [], [], [], false⟩
def pol0 : Policy := ⟨0x20000000, true, 1000000, 10, 5, 4, 3⟩
def plc : Place := { Place.blank with policy := some pol0, region := 3, experts := [(7, ⟨0x4000, 4096, [], [(0, 5)], [(0, 7)]⟩)] }
def pR : Partition := { part0 with regions := [(3, regT)], place := plc }
def ro : State := { operWith (opIm 11 0x20000000 4 0 0 0) { Oper.blank with inputs := [(0, [tok 0x5500000007]), (1, [tok 1])], version := some 3, due := false } with parts := [(0, pR)] }
def ro2 : State := { operWith (opIm 11 0x20000000 4 0 0 0) { Oper.blank with inputs := [(1, [tok 1])], version := some 3, window := [⟨{ tok 4 with iter := 9 }, 7, 0, 0, 3⟩, ⟨tok 4, 7, 0, 0, 3⟩] } with parts := [(0, pR)] }
def im2 : SegImage := ⟨false, [StripeImage.blank]⟩
def fif : Fifo := ⟨false, 0, 0, 256, 0, 40, 8, false, true, View.zero⟩
def L2 : Launch := launch0.setDie 0 { LaunchDie.blank with fifos := [(0, fif)] }
def rw : Run := { (default : Run) with image := im2, status := .waiting, width := 4, waves := 4 }
def s1 : State := { core0 with runs := [(5, rw)], launches := [(0, { L2 with nextTicket := 1 })] }
def srcIm : OpImage := opIm 1 0x33 0 0 0 0
def sim : StripeImage := { StripeImage.blank with ops := [(0, srcIm)] }
def rr : Run := { rw with image := ⟨false, [sim]⟩, status := .running, step := 1, stepOpen := true, burstOf := [] }
def st0 : Stripe := { Stripe.blank with run := some 5, vs := some 0, image := sim, ops := [(0, Oper.blank)] }
def s2 : State := { s1 with runs := [(5, rr)], stripes := [(0, st0)] }
def s3 : State := { s2 with runs := [(5, { rr with status := .stopping, stepOpen := false })] }
def rq : Run := { rr with image := ⟨false, [StripeImage.blank]⟩, burstOf := [4] }
def z2 := { s2 with runs := [(5, { rq with lastBurst := some 0 })], stripes := [(0, { st0 with image := StripeImage.blank, ops := [] })] }
def z3 := { s2 with runs := [(5, { rq with status := .stopping, haltCause := none, stepOpen := false })], launches := [(0, { L2 with status := .halting, held := true })] }
def z4 := { s2 with runs := [(5, { rr with waves := 1 })] }
def z6 : State := { operWith (opIm 11 0x20000000 4 0 0 0) { Oper.blank with inputs := [(1, [{ tok 1 with iter := 77 }])], version := some 3, window := [⟨{ tok 4 with iter := 9 }, 7, 0, 0, 3⟩] } with parts := [(0, pR)] }

theorem witness_RouteOperators_1 :
    let l : ℕ := ((stripePart ro2 0).getD default).2
    let part : ℕ := ((stripePart ro2 0).getD default).1
    let w : Launch := (Table.find l ro2.launches).getD default
    let im : OpImage := ((operOn 0 0 11 ro2).getD default).1
    let v : Oper := ((operOn 0 0 11 ro2).getD default).2
    let i : ℕ := (List.findIdx? (fun w => w.tok.tag == (tok 1).tag) v.window).getD default
    let r : Region := (routeTable ro2 part im).getD default
    operOn 0 0 11 ro2 = some (im, v) ∧
      stripePart ro2 0 = some (part, l) ∧
      routeTable ro2 part im = some r ∧
      v.head 1 = some (tok 1) ∧
      List.findIdx? (fun w => w.tok.tag == (tok 1).tag) v.window = some i ∧
      Table.find l ro2.launches = some w ∧
      homeLost ro2 r = false ∧
      heapFails ro2 r 0 (r.gran 0).latest = false ∧
      v.due = true ∧
      v.redirect = [] ∧
      ro2.parked = [] :=
  by decide +kernel

theorem witness_RouteOperators_2 :
    let l : ℕ := ((stripePart z6 0).getD default).2
    let part : ℕ := ((stripePart z6 0).getD default).1
    let w : Launch := (Table.find l z6.launches).getD default
    let im : OpImage := ((operOn 0 0 11 z6).getD default).1
    let v : Oper := ((operOn 0 0 11 z6).getD default).2
    let r : Region := (routeTable z6 part im).getD default
    operOn 0 0 11 z6 = some (im, v) ∧
      stripePart z6 0 = some (part, l) ∧
      routeTable z6 part im = some r ∧
      v.head 1 = some { tok 1 with iter := 77 } ∧
      List.findIdx? (fun (w : WinEntry) => w.tok.tag == { tok 1 with iter := 77 }.tag) v.window = none :=
  by decide +kernel

theorem witness_RouteOperators_3 :
    let part : ℕ := ((stripePart ro 0).getD default).1
    let l : ℕ := ((stripePart ro 0).getD default).2
    let im : OpImage := ((operOn 0 0 11 ro).getD default).1
    let v : Oper := ((operOn 0 0 11 ro).getD default).2
    let held : ℕ := v.version.getD default
    let r : Region := (routeTable ro part im).getD default
    let s1 : State := (entryWords r (BitVec.toNat (Sys2Proof.Tests.tok 365072220167).value % 4096) held ro).2
    let ws : List ℕ := (entryWords r (BitVec.toNat (Sys2Proof.Tests.tok 365072220167).value % 4096) held ro).1
    let tok : Token := { Sys2Proof.Tests.tok 365072220167 with after := (Sys2Proof.Tests.tok 365072220167).after.join (r.released 0 held) }
    let cur : List ℤ := (selectLocation ws (match Table.find (BitVec.toNat (Sys2Proof.Tests.tok 365072220167).value % 4096) v.select with | some c =>       if c.1 = (match entryUnder r (BitVec.toNat (Sys2Proof.Tests.tok 365072220167).value % 4096) held with | some e => e.1 | none => 0) then c.2 else List.replicate 8 0 | none => List.replicate 8 0)).1
    let loc : ℕ := (selectLocation ws (match Table.find (BitVec.toNat (Sys2Proof.Tests.tok 365072220167).value % 4096) v.select with | some c =>       if c.1 = (match entryUnder r (BitVec.toNat (Sys2Proof.Tests.tok 365072220167).value % 4096) held with | some e => e.1 | none => 0) then c.2 else List.replicate 8 0 | none => List.replicate 8 0)).2
    operOn 0 0 11 ro = some (im, v) ∧
      stripePart ro 0 = some (part, l) ∧
      routeTable ro part im = some r ∧
      v.head 0 = some (Sys2Proof.Tests.tok 365072220167) ∧
      routeOwes v = false ∧
      v.window.length < im.field 1 15 0 ∧
      v.version = some held ∧
      entryWords r (BitVec.toNat (Sys2Proof.Tests.tok 365072220167).value % 4096) held ro = (ws, s1) ∧
      heapFails ro r (BitVec.toNat (Sys2Proof.Tests.tok 365072220167).value % 4096 + 1)     (match entryUnder r (BitVec.toNat (Sys2Proof.Tests.tok 365072220167).value % 4096) held with | some e => e.1 | none => 0) =   false ∧
      locValid (nth ws 0 0) = true ∧
      selectLocation ws (match Table.find (BitVec.toNat (Sys2Proof.Tests.tok 365072220167).value % 4096) v.select with | some c =>       if c.1 = (match entryUnder r (BitVec.toNat (Sys2Proof.Tests.tok 365072220167).value % 4096) held with | some e => e.1 | none => 0) then c.2 else List.replicate 8 0 | none => List.replicate 8 0) =   (cur, loc) ∧
      roomForAll 0 (operOut im.out0 { tok with kind := kData, eod := 0, value := BitVec.ofNat 64 (BitVec.toNat (Sys2Proof.Tests.tok 365072220167).value / 2 ^ 32 % 2 ^ 32 * 2 ^ 32 + held % 2 ^ 14 * 2 ^ 18 + locDie (nth ws loc 0) * 2 ^ 15 + loc * 2 ^ 12 + BitVec.toNat (Sys2Proof.Tests.tok 365072220167).value % 4096) }) ro = true :=
  by decide +kernel

theorem witness_RunsScroll_1 :
    let r : Run := (Table.find 5 z2.runs).getD default
    let v : Launch := (Table.find r.launch z2.launches).getD default
    Table.find 5 z2.runs = some r ∧
      Table.find r.launch z2.launches = some v ∧
      r.status = RunStatus.running ∧
      (pinnedEnded z2 r = true ∨ pinnedEnded z2 r = false ∧ scrollEnded z2 r = true ∧ ∀ x ∈ r.stripes, leftover (z2.stripe x) = none) :=
  by decide +kernel

theorem witness_RunsScroll_2 :
    let r : Run := (Table.find 5 z3.runs).getD default
    let v : Launch := (Table.find r.launch z3.launches).getD default
    Table.find 5 z3.runs = some r ∧
      Table.find r.launch z3.launches = some v ∧
      r.status = RunStatus.stopping ∧
      ((r.image.pinned = true ∨ r.stepOpen = false ∨ r.stepDue ≤ z3.time) ∧ atBoundary z3 r = true ∨ r.haltCause = some cDEADLOCK ∧ accessesDone z3 r = true) ∧
      haltKeeps v r = true :=
  by decide +kernel

theorem witness_RunsScroll_3 :
    let r : Run := (Table.find 5 s3.runs).getD default
    let v : Launch := (Table.find r.launch s3.launches).getD default
    Table.find 5 s3.runs = some r ∧
      Table.find r.launch s3.launches = some v ∧
      r.status = RunStatus.stopping ∧
      ((r.image.pinned = true ∨ r.stepOpen = false ∨ r.stepDue ≤ s3.time) ∧ atBoundary s3 r = true ∨ r.haltCause = some cDEADLOCK ∧ accessesDone s3 r = true) ∧
      haltKeeps v r = false :=
  by decide +kernel

theorem witness_RunsScroll_4 :
    let r : Run := (Table.find 5 z4.runs).getD default
    let x : ℕ := (stripeOfVs z4 5 0).getD default
    let v : Launch := (Table.find r.launch z4.launches).getD default
    let f : Fifo := (fifoOfRun z4 r r.inFifo).getD default
    let o : ℕ := ((sourceOf (z4.stripe x).image).getD default).1
    let im : OpImage := ((sourceOf (z4.stripe x).image).getD default).2
    let b : ℕ := (burstAt r (z4.stripe x)).getD default
    let u : Oper := (z4.oper? x o).getD default
    Table.find 5 z4.runs = some r ∧
      Table.find r.launch z4.launches = some v ∧
      stripeOfVs z4 5 0 = some x ∧
      r.status = RunStatus.running ∧
      r.eosGiven = false ∧
      sourceOf (z4.stripe x).image = some (o, im) ∧
      r.image.pinned = false ∧
      burstAt r (z4.stripe x) = some b ∧
      fifoOfRun z4 r r.inFifo = some f ∧
      z4.oper? x o = some u ∧
      r.lastBurst ≠ some b ∧
      r.wavesOf b ≠ r.waves ∧
      waveReady r f im.accessBytes b (sourceHeld z4 x o) = true :=
  by decide +kernel

end Case18

namespace Case19

open Says

def pf : PendingFault := ⟨0, 0, .thread 0, 0x5123, 1, 4, 2, 0x1C0000, none⟩
def sf : State := { core0 with faults := [pf] }
def z1 := { sf with launches := [(0, { launch0 with fmode := 1, faultH := 0x40 })] }
def z2 := { sf with launches := [(0, { launch0 with fmode := 2 })], parts := [(0, { part0 with frBase := 0x3000, frLog := 6 })] }
def fr : State := { core0 with mem := core0.mem.writeAll (0x110000 + 56) [1], faults := [{ pf with slot := some 1 }], launches := [(0, launch0.setDie 0 { launch0.die 0 with slots := [(1, [5, 2, 0])] })] }

theorem witness_FaultsAreServed_1 :
    let v : Launch := (Table.find 0 z2.launches).getD default
    let f : PendingFault := z2.faults[0]?.getD default
    z2.Inv ∧
      z2.faults[0]? = some f ∧
      f.slot = none ∧
      f.launch = 0 ∧
      Table.find 0 z2.launches = some v ∧
      sameRecord z2 v.part f = none ∧
      v.status = LaunchStatus.placed ∧
      (v.die f.die).slots.firstFree 64 = 0 ∧
      0 < 64 ∧
      reportRoom z2 f v = true ∧
      v.fmode = 2 ∧
      (v.fmode = 1 ∨ v.fmode = 2) ∧
      writeFails z2 (svcPa (v.die f.die) (32 * 0)) 32 = false :=
  ⟨(by show (_ = true); decide +kernel), by decide +kernel⟩

theorem witness_FaultsAreServed_2 :
    let v : Launch := (Table.find 0 fr.launches).getD default
    Table.find 0 fr.launches = some v ∧
      (Table.find 1 (v.die 0).slots).isSome = true ∧
      leNat (peek fr (svcPa (v.die 0) (32 * 1 + 24)) 1) % 4 = 1 :=
  by decide +kernel

theorem witness_FaultsAreServed_3 :
    let v : Launch := (Table.find 0 z1.launches).getD default
    let f : PendingFault := z1.faults[0]?.getD default
    z1.faults[0]? = some f ∧
      f.slot = none ∧
      f.launch = 0 ∧
      Table.find 0 z1.launches = some v ∧
      sameRecord z1 v.part f = none ∧
      v.status = LaunchStatus.placed ∧
      (v.die f.die).slots.firstFree 64 = 0 ∧
      0 < 64 ∧
      reportRoom z1 f v = true ∧
      v.fmode = 1 ∧
      z1.th.id ≠ z1.nextThread :=
  by decide +kernel

end Case19

namespace Case2

open Says

def cs := withRegs core0 [(1, 0x10), (2, 2), (3, 0x1008), (4, 0x2008), (5, 0x3), (6, 0xFFFFFFFFFFFFFFFF)]
def csT : State := { cs with th := { cs.th with inTrap := true, trapPc := 0x40, heldLoop := ⟨true, 4, 8, 1⟩ } }
def csM : State := { cs with th := { cs.th with inTrap := true, trapPc := 0x41 } }
def mg : State := withRegs (mgState 0) [(1, 0x40), (2, 2), (3,3)]
def lpS (pc : Word) (n : Word) : State := withRegs { cs with th := { cs.th with pc := pc, loop := ⟨true, 4, 12, 7⟩ } } [(7, n)]

theorem witness_JumpsAndLinks_1 :
    (BitVec.ofInt (64 : ℕ) (BitVec.toInt (cs.g (1 : Reg)) + BitVec.toInt (4 : BitVec (16 : ℕ)))).toNat % (4 : ℕ) = (0 : ℕ) :=
  by decide +kernel

theorem witness_JumpsAndLinks_2 :
    (BitVec.ofInt (64 : ℕ) (BitVec.toInt (cs.g (5 : Reg)) + BitVec.toInt (4 : BitVec (16 : ℕ)))).toNat % (4 : ℕ) ≠ (0 : ℕ) :=
  by decide +kernel

theorem witness_RepStartsALoop_1 :
    ((0 : BitVec (16 : ℕ)) = (0 : BitVec (16 : ℕ)) ∨ cs.th.loop.active = true ∨ cs.th.inTrap = true) :=
  by decide +kernel

theorem witness_RepStartsALoop_2 :
    (¬((3 : BitVec (16 : ℕ)) = (0 : BitVec (16 : ℕ)) ∨ cs.th.loop.active = true ∨ cs.th.inTrap = true)) ∧
      cs.g 5 ≠ 0 :=
  by decide +kernel

theorem witness_RepStartsALoop_3 :
    (¬((3 : BitVec (16 : ℕ)) = (0 : BitVec (16 : ℕ)) ∨ cs.th.loop.active = true ∨ cs.th.inTrap = true)) ∧
      cs.g 0 = 0 :=
  by decide +kernel

theorem witness_LoopEndOfPass_1 :
    ((lpS 12 1).coreAt (lpS 12 1).core).stale = false ∧
      (lpS 12 1).th.loop.active = true ∧
      (lpS 12 1).th.pc = (lpS 12 1).th.loop.stop ∧
      ((lpS 12 1).g (lpS 12 1).th.loop.reg - 1 = 0 ∨ (lpS 12 1).th.loop.reg = 0) :=
  by decide +kernel

theorem witness_LoopEndOfPass_2 :
    (lpS 12 5).th.loop.active = true ∧
      (lpS 12 5).th.pc = (lpS 12 5).th.loop.stop ∧
      (lpS 12 5).g (lpS 12 5).th.loop.reg - 1 ≠ 0 ∧
      (lpS 12 5).th.loop.reg ≠ 0 :=
  by decide +kernel

theorem witness_LoopEndOfPass_3 :
    cs.th.loop.active = false :=
  by decide +kernel

theorem witness_LoopEndOfPass_4 :
    (lpS 16 1).th.loop.active = true ∧
      (lpS 16 1).th.pc ≠ (lpS 16 1).th.loop.stop ∧
      (BitVec.toNat (lpS 16 1).th.pc < BitVec.toNat (lpS 16 1).th.loop.start ∨ BitVec.toNat (lpS 16 1).th.loop.stop < BitVec.toNat (lpS 16 1).th.pc) :=
  by decide +kernel

theorem witness_LoopEndOfPass_5 :
    (lpS 8 1).th.loop.active = true ∧
      (lpS 8 1).th.pc ≠ (lpS 8 1).th.loop.stop ∧
      BitVec.toNat (lpS 8 1).th.loop.start ≤ BitVec.toNat (lpS 8 1).th.pc ∧
      BitVec.toNat (lpS 8 1).th.pc ≤ BitVec.toNat (lpS 8 1).th.loop.stop :=
  by decide +kernel

theorem witness_TrapEntry_1 :
    7 ≠ cMEMERR ∧
      (mg.th.inTrap = true ∨ mg.th.trapVec = 0) ∧
      mg.th.launch = none :=
  by decide +kernel

theorem witness_TrapEntry_2 :
    7 ≠ cMEMERR ∧
      cs.th.inTrap = false ∧
      cs.th.trapVec ≠ 0 :=
  by decide +kernel

theorem witness_TrapEntry_3 :
    let l : ℕ := csT.th.launch.getD default
    7 ≠ cMEMERR ∧
      (csT.th.inTrap = true ∨ csT.th.trapVec = 0) ∧
      csT.th.launch = some l :=
  by decide +kernel

theorem witness_TrapAndReturn_1 :
    cs.th.inTrap = false :=
  by decide +kernel

theorem witness_TrapAndReturn_2 :
    csT.th.inTrap = true ∧
      BitVec.toNat csT.th.trapPc % 4 = 0 :=
  by decide +kernel

theorem witness_TrapAndReturn_3 :
    let l : ℕ := csM.th.launch.getD default
    csM.th.inTrap = true ∧
      BitVec.toNat csM.th.trapPc % 4 ≠ 0 ∧
      csM.th.launch = some l :=
  by decide +kernel

theorem witness_ControlRegisterReads_1 :
    let k : BitVec 10 := 1023
    (¬(k.toNat ≤ 6 ∨ 16 ≤ k.toNat ∧ k.toNat ≤ 18 ∨ k.toNat = 24 ∨ k.toNat = 25 ∨ k.toNat = 32 ∨ 48 ≤ k.toNat ∧ k.toNat ≤ 56 ∨ k.toNat = 64 ∨ k.toNat = 65 ∨ 272 ≤ k.toNat ∧ k.toNat ≤ 290)) ∧
      (64 ≤ mg.core ∨ k.toNat < 256) ∧
      64 ≤ mg.core :=
  by decide +kernel

theorem witness_ControlRegisterWrites_1 :
    let k : BitVec 10 := 1023
    BitVec.toNat (mg.g 1) % 4 = 0 ∧
      64 ≤ mg.core ∧
      (¬(1 ≤ k.toNat ∧ k.toNat ≤ 3 ∨ k.toNat = 5 ∨ k.toNat = 6 ∨ 48 ≤ k.toNat ∧ k.toNat ≤ 56 ∨ 272 ≤ k.toNat ∧ k.toNat ≤ 287 ∨ k.toNat = 290)) ∧
      (64 ≤ mg.core ∨ k.toNat < 256) ∧
      BitVec.toNat (mg.g 1) % 64 = 0 :=
  by decide +kernel

theorem witness_PrivilegedTrapsOnControlCores_1 :
    cs.core < 64 ∧
      (256 : ℕ) ≤ BitVec.toNat (272 : BitVec (10 : ℕ)) :=
  by decide +kernel

theorem witness_LaunchInstructionsTrapOnManagementCores_1 :
    64 ≤ mg.core :=
  by decide +kernel

theorem witness_SystemReads_1 :
    storesPending cs cs.th.id none = false ∧
      signalsPending cs cs.th.id = false ∧
      cs.core < 64 ∧
      available cs (cs.core / 8) = true ∧
      BitVec.toNat (cs.g 2) ≤ 3 :=
  by decide +kernel

theorem witness_SystemReads_2 :
    64 ≤ mg.core ∧
      BitVec.toNat (mg.g 2) ≤ 31 ∧
      (1 : BitVec (2 : ℕ)) ≠ (3 : BitVec (2 : ℕ)) :=
  by decide +kernel

end Case2

namespace Case20

open Says

def cj : CopyJob := { (default : CopyJob) with id := 3, launch := 0, part := 0, core := 0, owner := 0, ticket := 9, src := 0x3000, dst := 0x4000, len := 32, rows := 2, sstride := 64, dstride := 32, tag := 77 }
def ec : State := { core0 with copies := [cj] }
def chunkOf (x : ChunkTr) : List CopyPiece := match x with | .ok ps => ps | _ => []
def chunk (s : State) (c : CopyJob) : ChunkTr × State := let m := min 4096 (c.total - c.done); let c1 := c.begin s; translateChunk c1 (copyPieces c1 m c1.done m) (mapCopy 3 (fun _ => c1) s)
def z1 := { ec with copies := [{ cj with done := 64 }] }
def z2 := { ec with copies := [{ cj with done := 64, norec := true }] }
def sl : SegLoad := ⟨4, 0, 0, 0, 0, 7, 2, true⟩
def es2 : State := { core0 with segLoads := [sl], launches := [(0, launch0.setDie 0 { launch0.die 0 with handles := [(2, ⟨7, some 4, true, 3, 99, 3, none⟩)] })] }
def fl : FlushJob := ⟨5, 0, some 0, 0, 1, 0x3008, 0x110008, 0x1122, false, false, false⟩
def z3 := { core0 with flushes := [fl] }
def ph : State := { core0 with th := { thread0 with status := .stopped }, cores := [], launches := [(0, { launch0 with status := .halting, preempt := [(64, 0, 3)], ident := 7 })] }
def cx (a : Word) : State := { ph with launches := [(0, { launch0 with status := .saving, ident := 7 })], ctxJobs := [⟨false, 0, 0, 64, 5, a, 7, 0⟩] }

theorem witness_EnginesEnd_1 :
    translateChunk (CopyJob.begin ec cj) (copyPieces (CopyJob.begin ec cj) (min 4096 (cj.total - cj.done)) (CopyJob.begin ec cj).done (min 4096 (cj.total - cj.done))) (mapCopy 3 (fun x => CopyJob.begin ec cj) ec) = (ChunkTr.ok (chunkOf (chunk ec cj).1), (chunk ec cj).2) ∧
      List.find? (fun d => d.id == 3) ec.copies = some cj ∧
      copyEnabled ec cj = true ∧
      chunkError (chunk ec cj).2 (CopyJob.begin ec cj) (chunkOf (chunk ec cj).1) = none :=
  ⟨(chunkPair_of (by decide +kernel)), by decide +kernel⟩

theorem witness_EnginesEnd_2 :
    let g : SegLoad := (List.find? (fun d => d.id == 4) es2.segLoads).getD default
    let v : Launch := (Table.find g.launch es2.launches).getD default
    let h : Handle := (Table.find g.handle (v.die g.die).handles).getD default
    List.find? (fun d => d.id == 4) es2.segLoads = some g ∧
      Table.find g.launch es2.launches = some v ∧
      Table.find g.handle (v.die g.die).handles = some h ∧
      h.checked = true ∧
      launchOfThread es2 g.owner = some (some 0) :=
  by decide +kernel

theorem witness_EnginesEnd_3 :
    let c : CopyJob := (List.find? (fun d => d.id == 3) z1.copies).getD default
    List.find? (fun d => d.id == 3) z1.copies = some c ∧
      c.frozen = false ∧
      c.placement = none ∧
      c.finished = none ∧
      c.verify = false ∧
      c.total ≤ c.done ∧
      (∀ e ∈ z1.copies, ¬(e.id < c.id ∧ e.die = c.die ∧ e.queue = c.queue ∧ e.core = c.core ∧ e.launch = c.launch ∧ e.ordered = true ∧ c.ordered = true)) ∧
      c.norec = false :=
  by decide +kernel

theorem witness_EnginesEnd_4 :
    let c : CopyJob := (List.find? (fun d => d.id == 3) z2.copies).getD default
    List.find? (fun d => d.id == 3) z2.copies = some c ∧
      c.frozen = false ∧
      c.placement = none ∧
      c.finished = none ∧
      c.verify = false ∧
      c.total ≤ c.done ∧
      (∀ e ∈ z2.copies, ¬(e.id < c.id ∧ e.die = c.die ∧ e.queue = c.queue ∧ e.core = c.core ∧ e.launch = c.launch ∧ e.ordered = true ∧ c.ordered = true)) ∧
      c.norec = true :=
  by decide +kernel

theorem witness_EnginesEnd_5 :
    let j : FlushJob := (List.find? (fun d => d.id == 5 && !d.done) z3.flushes).getD default
    z3.Inv ∧
      List.find? (fun d => d.id == 5 && !d.done) z3.flushes = some j ∧
      z3.posted = [] ∧
      z3.reds = [] ∧
      z3.wqueue = [] ∧
      z3.outbound = [] ∧
      (∀ (th : Thread), z3.thread? j.owner = some th → th.redErr = [] ∧ th.stErr = []) ∧
      onDevice j.pa = true ∧
      writeFails z3 j.pa 8 = false :=
  ⟨(by show (_ = true); decide +kernel), by decide +kernel⟩

theorem witness_ContextsAreSavedAndRestored_1 :
    let v : Launch := (Table.find 0 (cx 2097152).launches).getD default
    let j : CtxJob := (List.find? (fun i => !i.restore && i.launch == 0) (cx 2097152).ctxJobs).getD default
    Table.find 0 (cx 2097152).launches = some v ∧
      List.find? (fun i => !i.restore && i.launch == 0) (cx 2097152).ctxJobs = some j ∧
      j.addr ≠ 0 ∧
      v.status = LaunchStatus.saving ∧
      rectError (cx 2097152) v = false :=
  by decide +kernel

theorem witness_ContextsAreSavedAndRestored_2 :
    let v : Launch := (Table.find 0 (cx 0).launches).getD default
    let j : CtxJob := (List.find? (fun i => !i.restore && i.launch == 0) (cx 0).ctxJobs).getD default
    Table.find 0 (cx 0).launches = some v ∧
      List.find? (fun i => !i.restore && i.launch == 0) (cx 0).ctxJobs = some j ∧
      j.addr = 0 :=
  by decide +kernel

theorem witness_ContextsAreSavedAndRestored_3 :
    let v : Launch := (Table.find 0 ph.launches).getD default
    Table.find 0 ph.launches = some v ∧
      v.status = LaunchStatus.halting ∧
      haltOver ph 0 = true ∧
      v.held = false ∧
      v.result = 0 :=
  by decide +kernel

end Case20

namespace Case21

open Says

def tp : Thread := { Thread.blank 1 with launch := some 0, status := .blocked (.phase 9 0), arrived := true }
def pb : State := { core0 with th := { thread0 with status := .blocked (.bar 0x1008 0x10000000008 0), home := some 0 }, threads := [(1, { tp with serial := 1 })], cores := [], time := 100000 }
def key0 := partyKey pb (.thread 0)
def key1 := partyKey pb (.thread 1)
def pb1 : State := { pb with epochs := [(key1, ⟨4, 0, 2, true, []⟩)] }
def z1 := { pb1 with probes := [⟨key1, 4, 1, 1, key0, [(key1, 10)], 0⟩] }
def z2 := { pb1 with probes := [⟨key1, 4, 1, 1, key1, [(key1, 10)], 0⟩] }

theorem witness_ProbesTravel_1 :
    let p : Party := (partyOfKey pb1 key1).getD (.thread 0)
    let e : Epoch := (Table.find key1 pb1.epochs).getD default
    let edges : List Party := ((waitOf pb1 p).getD default).2
    let code : ℕ := ((waitOf pb1 p).getD default).1
    partyOfKey pb1 key1 = some p ∧
      Table.find key1 pb1.epochs = some e ∧
      waitOf pb1 p = some (code, edges) ∧
      e.active = true ∧
      e.since + 20000 * (e.round + 1) ≤ pb1.time :=
  by decide +kernel

theorem witness_ProbesTravel_2 :
    let b : Probe := z1.probes[0]?.getD default
    let s1 : State := { z1 with probes := dropAt z1.probes 0 }
    let p : Party := (partyOfKey s1 b.target).getD (.thread 0)
    let code : ℕ := ((waitOf s1 p).getD default).1
    let edges : List Party := ((waitOf s1 p).getD default).2
    z1.probes[0]? = some b ∧
      partyOfKey s1 b.target = some p ∧
      waitOf s1 p = some (code, edges) ∧
      b.target ≠ b.origin ∧
      b.target % 2 ^ 48 ≤ b.origin % 2 ^ 48 ∧
      (b.origin, b.epoch, b.round) ∉ (z1.epochs.getD b.target Epoch.none).seen ∧
      b.hops ≠ 1023 :=
  by decide +kernel

theorem witness_ProbesTravel_3 :
    let b : Probe := z2.probes[0]?.getD default
    let s1 : State := { z2 with probes := dropAt z2.probes 0 }
    let p : Party := (partyOfKey s1 b.target).getD (.thread 0)
    let code : ℕ := ((waitOf s1 p).getD default).1
    let edges : List Party := ((waitOf s1 p).getD default).2
    z2.probes[0]? = some b ∧
      partyOfKey s1 b.target = some p ∧
      waitOf s1 p = some (code, edges) ∧
      b.target = b.origin ∧
      b.hops ≠ 1023 ∧
      b.epoch = (z2.epochs.getD b.target Epoch.none).number ∧
      (z2.epochs.getD b.target Epoch.none).active = true :=
  by decide +kernel

end Case21

namespace Case22

open Says

def loc (die addr : Nat) : Word := BitVec.ofNat 64 (die * 2^61 + 8 * 2^57 + addr + 32)
def entry : List Byte := wordBytes ([loc 0 0x4000] ++ List.replicate 7 0)
def regT : Region := ⟨0x20000000, 4098*64, 2, 0, 0x200000, 0x90000, [0x200000], 0, 1, [(0, ⟨3, [(3, List.replicate 64 0)]⟩), (8, ⟨2, [(2, entry)]⟩)], [], [], [], false⟩
def pol0 : Policy := ⟨0x20000000, false, 1000000, 10, 5, 4, 3⟩
def exp : Expert := ⟨0x4000, 64, sha384 (List.replicate 64 0), [(0, 5)], [(0, 700), (3, 9)]⟩
def plc (as : List Action) : Place := { Place.blank with policy := some pol0, region := 3, experts := [(7, exp)], actions := as }
def pl (as : List Action) (cs : List CopyJob) : State := { core0 with parts := [(0, { part0 with regions := [(3, regT)], place := plc as, pools := [(0, (0x300000, 0x10000)), (1, (0x2000, 0x1000))] })], copies := cs, time := 5 }
def a0 : Action := ⟨4, true, false, 7, 1, .queued, 0, 0, 0, 0, none, none, View.zero, View.zero⟩
def cj : CopyJob := { (default : CopyJob) with id := 3, part := 0, src := 0x4000, dst := 0x3000, len := 64, rows := 1, done := 64, placement := some 4, expected := sha384 (List.replicate 64 0), verify := true }
def z1 := { a0 with state := .copy, slot := 0x3000 }
def z3 := { a0 with add := false, state := .drain, slot := 0x2000, arg2 := 3 }

theorem witness_PlacementActionsRun_1 :
    let r : Region := ((pl [z3] []).table? 0).getD default
    let pol : Policy := ((pl [z3] []).part 0).place.policy.getD default
    let a : Machine.Action := (action? (pl [z3] []) 0 4).getD default
    ((pl [z3] []).part 0).place.policy = some pol ∧
      ((pl [z3] []).part 0).place.nextAt ≤ (pl [z3] []).time ∧
      ((pl [z3] []).part 0).place.pending = none ∧
      pol.enable = false ∧
      action? (pl [z3] []) 0 4 = some a ∧
      (pl [z3] []).table? 0 = some r ∧
      a.state = ActState.drain ∧
      (∀ w ∈ partWindows (pl [z3] []) 0, ¬(w.expert = a.expert ∧ w.loc = a.loc)) ∧
      routesReached (pl [z3] []) 0 (BitVec.toNat a.arg2) r = true :=
  by decide +kernel

theorem witness_PlacementActionsRun_2 :
    let a : Machine.Action := (action? (pl [z1] [cj]) 0 4).getD default
    let c : CopyJob := (List.find? (fun d => d.part == 0 && d.placement == some 4) (pl [z1] [cj]).copies).getD default
    let s1 : State := (placementOutcome c (pl [z1] [cj])).2
    action? (pl [z1] [cj]) 0 4 = some a ∧
      a.issue = 4 ∧
      List.find? (fun d => d.part == 0 && d.placement == some 4) (pl [z1] [cj]).copies = some c ∧
      c.finished = none ∧
      c.total ≤ c.done ∧
      placementOutcome c (pl [z1] [cj]) = ((0, 0), s1) ∧
      s1.parts = (pl [z1] [cj]).parts :=
  by decide +kernel

theorem witness_PlacementActionsRun_3 :
    let r : Region := ((pl [a0] []).table? 0).getD default
    let pol : Policy := ((pl [a0] []).part 0).place.policy.getD default
    let a : Machine.Action := (action? (pl [a0] []) 0 4).getD default
    let e : Expert := (Table.find a.expert ((pl [a0] []).part 0).place.experts).getD default
    let ws : List ℕ := (entryWords r a.expert (r.gran 0).latest (pl [a0] [])).1
    let s1 : State := (entryWords r a.expert (r.gran 0).latest (pl [a0] [])).2
    let slot : ℕ := (freeSlot s1 0 a.die ((e.size + 4095) / 4096 * 4096)).getD default
    ((pl [a0] []).part 0).place.policy = some pol ∧
      action? (pl [a0] []) 0 4 = some a ∧
      (pl [a0] []).table? 0 = some r ∧
      a.state = ActState.queued ∧
      a.issue = 4 ∧
      (pl [a0] []).wqueue = [] ∧
      (List.filter (fun b => b.state != ActState.queued) ((pl [a0] []).part 0).place.actions).length < pol.maxAct ∧
      (∀ b ∈ List.takeWhile (fun b => b.issue != 4) ((pl [a0] []).part 0).place.actions, b.expert ≠ a.expert ∧ (b.state = ActState.queued → ∃ e ∈ List.takeWhile (fun e => e.issue != b.issue) ((pl [a0] []).part 0).place.actions, e.expert = b.expert)) ∧
      homeLost (pl [a0] []) r = false ∧
      (∀ u ∈ (r.gran (a.expert + 1)).versions, heapFails (pl [a0] []) r (a.expert + 1) u.1 = false) ∧
      entryWords r a.expert (r.gran 0).latest (pl [a0] []) = (ws, s1) ∧
      s1.parts = (pl [a0] []).parts ∧
      a.add = true ∧
      Table.find a.expert ((pl [a0] []).part 0).place.experts = some e ∧
      (∀ w ∈ locations ws, w.2 ≠ a.die) ∧
      replicaCount ws < pol.maxRep ∧
      freeSlot s1 0 a.die ((e.size + 4095) / 4096 * 4096) = some slot :=
  by decide +kernel

end Case22

namespace Case23

open Says

def qb : Queue := { Queue.blank with sqbase := 0x3000, cqbase := 0x4000 }
def qS (q : Queue) (os : Table CodeObject) : State := { core0 with parts := [(0, { part0 with queues := [(1, q)], objects := os })], io := { core0.io with watch := .beating 1000 } }
def z1 := { qb with state := qACTIVE, enable := true, sqwr := 7 }
def z2 := { qb with state := qRESETTING, enable := true, sqwr := 7 }
def nopP : List Word := [BitVec.ofNat 64 (4 * 2^56), 0x99, 0, 0, 0, 0, 0, 0]
def z3 := { qb with state := qACTIVE, enable := true, live := [(3, nopP, none)] }
def hostPage : BitVec 64 := BitVec.ofNat 64 (leNat ((List.range 8).map (fun k => core0.mem.read (fetchTables + 16384 + 8 * 4 + k))) + 2 ^ 51)
def qH : State := let s := qS z3 []; { s with mem := s.mem.writeAll (fetchTables + 16384 + 8 * 4) (leBytes 8 hostPage.toNat) }
def ldo : List Word := [BitVec.ofNat 64 (2 * 2^56 + 5 * 2^16), 0x99, 0x3000, 2, 0, 0, 0, 0]
def qL : State := let s := qS { qb with state := qACTIVE, enable := true, live := [(3, ldo, none)] } []
  { s with mem := s.mem.writeAll 0x110000 (wordBytes [7, 0x5000, 9, 0x6000]) }
def ulo : List Word := [BitVec.ofNat 64 (3 * 2^56 + 5 * 2^16), 0x99, 0, 0, 0, 0, 0, 0]
def co : CodeObject := ⟨[(7, 0x5000)], [], false⟩
def z4 := { qb with state := qACTIVE, enable := true, live := [(3, ulo, none)], refs := [5] }
def z5 := { qb with state := qACTIVE, enable := true }
def z6 := { co with removing := true }
def lpk : List Word := [BitVec.ofNat 64 (2^56 + 0x3FF * 2^28 + 5 * 2^16), 0x99, 0x40, 0, 0, 0, 0, 0]
def z7 := { qb with live := [(3, lpk, some 4)], refs := [5] }
def wd : State := { core0 with time := 5000000, parts := [(0, { part0 with limit := 5 })] }
def z9 := { wd with th := { wd.th with status := .exited } }

theorem witness_QueuesAreServed_1 :
    0 < 16 ∧
      1 < 64 ∧
      vfOn (qS z1 []) 0 = true ∧
      ((qS z1 []).part 0).tdi = 2 ∧
      0 < 2 ^ 16 ∧
      (qS z1 []).inbound = [] ∧
      ((qS z1 []).queue 0 1).live = [] ∧
      (((qS z1 []).queue 0 1).state = qACTIVE ∨ ((qS z1 []).queue 0 1).state = qQUIESCED ∨ ((qS z1 []).queue 0 1).state = qOVERRUN) ∧
      fetchOn (qS z1 []) = true ∧
      ((qS z1 []).queue 0 1).state = qACTIVE ∧
      ((qS z1 []).queue 0 1).enable = true ∧
      ((qS z1 []).queue 0 1).sqwr ≠ ((qS z1 []).queue 0 1).sqrd ∧
      BitVec.toNat (((qS z1 []).queue 0 1).sqwr - ((qS z1 []).queue 0 1).sqrd) ≤ ringEntries ((qS z1 []).queue 0 1).sqlog ∧
      ((qS z1 []).queue 0 1).live.length + BitVec.toNat (((qS z1 []).queue 0 1).cqwr - ((qS z1 []).queue 0 1).cqrd) < ringEntries ((qS z1 []).queue 0 1).cqlog :=
  by decide +kernel

theorem witness_QueuesAreServed_2 :
    let h : ℕ := 1118208
    let s1 : State := (translateRaw qH 0 ((qH.queue 0 1).cqbase + BitVec.ofNat 64 (32 * (BitVec.toNat (qH.queue 0 1).cqwr % ringEntries (qH.queue 0 1).cqlog))) Cls.write).2
    let pa : ℕ := trOf (translateRaw qH 0 ((qH.queue 0 1).cqbase + BitVec.ofNat 64 (32 * (BitVec.toNat (qH.queue 0 1).cqwr % ringEntries (qH.queue 0 1).cqlog))) Cls.write).1
    qH.Inv ∧
      translateRaw qH 0 ((qH.queue 0 1).cqbase + BitVec.ofNat 64 (32 * (BitVec.toNat (qH.queue 0 1).cqwr % ringEntries (qH.queue 0 1).cqlog))) Cls.write = (Tr.ok pa, s1) ∧
      s1.Inv ∧
      0 < 16 ∧
      1 < 64 ∧
      headPacket qH 0 1 = some (3, nopP) ∧
      pktType nopP ≠ 2 ∧
      pktType nopP ≠ 3 ∧
      pktType nopP = 4 ∧
      BitVec.toNat ((qH.queue 0 1).cqbase + BitVec.ofNat 64 (32 * (BitVec.toNat (qH.queue 0 1).cqwr % ringEntries (qH.queue 0 1).cqlog))) % 4096 + 32 ≤ 4096 ∧
      s1.parts = qH.parts ∧
      locOf pa = Loc.host h :=
  ⟨(by show (_ = true); decide +kernel), (trPair_of (by decide +kernel)), (by show (_ = true); decide +kernel), by decide +kernel⟩

theorem witness_QueuesAreServed_3 :
    0 < 16 ∧
      1 < 64 ∧
      vfOn (qS qb []) 0 = true ∧
      ((qS qb []).part 0).tdi = 2 ∧
      0 < 2 ^ 16 ∧
      (qS qb []).inbound = [] ∧
      ((qS qb []).queue 0 1).state = qDISABLED :=
  by decide +kernel

theorem witness_QueuesAreServed_4 :
    0 < 16 ∧
      1 < 64 ∧
      ((qS z2 []).queue 0 1).state = qRESETTING ∧
      ((qS z2 []).queue 0 1).live = [] :=
  by decide +kernel

theorem witness_QueuesAreServed_5 :
    0 < 16 ∧
      1 < 64 ∧
      headPacket (qS z4 [(5, co)]) 0 1 = some (3, ulo) ∧
      pktType ulo = 3 ∧
      pktReserved ulo = true ∧
      pktObj ulo ∈ ((qS z4 [(5, co)]).queue 0 1).refs :=
  by decide +kernel

theorem witness_QueuesAreServed_6 :
    let o : CodeObject := (Table.find 5 ((qS z5 [(5, z6)]).part 0).objects).getD default
    0 < 16 ∧
      1 < 64 ∧
      Table.find 5 ((qS z5 [(5, z6)]).part 0).objects = some o ∧
      o.removing = true ∧
      referenced (qS z5 [(5, z6)]) 0 5 = false ∧
      handleHeld (qS z5 [(5, z6)]) 0 (List.map (fun x => x.1) o.table) = false :=
  by decide +kernel

theorem witness_QueuesAreServed_7 :
    let n : ℕ := BitVec.toNat (nth ldo 3 0) % 4096
    let s1 : State := (readVirtual 0 Cls.read [] (16 * n / 4096 + 2) (nth ldo 2 0) (16 * n) qL).2
    let r : List Byte := (readVirtual 0 Cls.read [] (16 * n / 4096 + 2) (nth ldo 2 0) (16 * n) qL).1.1
    let t : Table Word := (objectTable (bytesWords (2 * n) r)).getD default
    0 < 16 ∧
      1 < 64 ∧
      headPacket qL 0 1 = some (3, ldo) ∧
      pktType ldo = 2 ∧
      pktReserved ldo = true ∧
      n ≠ 0 ∧
      readVirtual 0 Cls.read [] (16 * n / 4096 + 2) (nth ldo 2 0) (16 * n) qL = ((r, none), s1) ∧
      objectTable (bytesWords (2 * n) r) = some t ∧
      s1.parts = qL.parts ∧
      Table.find (pktObj ldo) (qL.part 0).objects = none ∧
      (∀ e ∈ t, ∀ o ∈ (qL.part 0).objects, Table.find e.1 o.2.table = none) :=
  by decide +kernel

theorem witness_QueuesAreServed_8 :
    let s1 : State := (translateRaw (qS z3 []) 0 (((qS z3 []).queue 0 1).cqbase + BitVec.ofNat 64 (32 * (BitVec.toNat ((qS z3 []).queue 0 1).cqwr % ringEntries ((qS z3 []).queue 0 1).cqlog))) Cls.write).2
    let pa : ℕ := trOf (translateRaw (qS z3 []) 0 (((qS z3 []).queue 0 1).cqbase + BitVec.ofNat 64 (32 * (BitVec.toNat ((qS z3 []).queue 0 1).cqwr % ringEntries ((qS z3 []).queue 0 1).cqlog))) Cls.write).1
    (qS z3 []).Inv ∧
      translateRaw (qS z3 []) 0 (((qS z3 []).queue 0 1).cqbase + BitVec.ofNat 64 (32 * (BitVec.toNat ((qS z3 []).queue 0 1).cqwr % ringEntries ((qS z3 []).queue 0 1).cqlog))) Cls.write = (Tr.ok pa, s1) ∧
      s1.Inv ∧
      0 < 16 ∧
      1 < 64 ∧
      headPacket (qS z3 []) 0 1 = some (3, nopP) ∧
      pktType nopP = 4 ∧
      BitVec.toNat (((qS z3 []).queue 0 1).cqbase + BitVec.ofNat 64 (32 * (BitVec.toNat ((qS z3 []).queue 0 1).cqwr % ringEntries ((qS z3 []).queue 0 1).cqlog))) % 4096 + 32 ≤ 4096 ∧
      s1.parts = (qS z3 []).parts ∧
      onDevice pa = true ∧
      s1.wqueue = [] ∧
      writeFails s1 pa 32 = false :=
  ⟨(by show (_ = true); decide +kernel), (trPair_of (by decide +kernel)), (by show (_ = true); decide +kernel), by decide +kernel⟩

theorem witness_LaunchesRun_1 :
    let v : Launch := (Table.find 0 z9.launches).getD default
    Table.find 0 z9.launches = some v ∧
      v.heldOwed = false ∧
      (v.status = LaunchStatus.placed ∨ v.status = LaunchStatus.halting ∧ v.held = false ∧ v.result ≠ 0) ∧
      launchDone z9 0 v = true ∧
      v.status = LaunchStatus.placed ∧
      (z9.part v.part).limit ≠ 0 ∧
      v.placedAt + (z9.part v.part).limit * 1000000 ≤ z9.time :=
  by decide +kernel

theorem witness_LaunchesRun_2 :
    let before : List (ℕ × List Word × Option ℕ) := ((nextLaunchPacket (qS z7 [(5, co)]) 0 1).getD default).1
    let ws : List Word := ((nextLaunchPacket (qS z7 [(5, co)]) 0 1).getD default).2.2.1
    nextLaunchPacket (qS z7 [(5, co)]) 0 1 = some (before, 3, ws, 4) ∧
      mayStart (qS z7 [(5, co)]) before 3 (bit (BitVec.toNat (nth ws 0 0)) 48) = true ∧
      ((qS z7 [(5, co)]).part 0).tdi = 2 ∧
      launchStatus (qS z7 [(5, co)]) 0 1 ws ≠ 0 :=
  ⟨(by decide +kernel), (by decide +kernel), (by decide +kernel), (by decide +kernel)⟩

end Case23

namespace Case24

open Says

def qb : Queue := { Queue.blank with sqbase := 0x3000, cqbase := 0x4000 }
def qS (q : Queue) (os : Table CodeObject) : State := { core0 with launches := [], th := Thread.management 0, cores := [], parts := [(0, { part0 with queues := [(1, q)], objects := os })], io := { core0.io with watch := .beating 1000 } }
def co : CodeObject := ⟨[(7, 0x5000)], [], false⟩
def lpk : List Word := [BitVec.ofNat 64 (2^56 + 0x3FF * 2^28 + 5 * 2^16), 0x99, 0x40, 0x77, 0, 0x400000, 4096, 0x410000]
def z1 := { qb with live := [(3, lpk, some 4)], refs := [5] }
def lS : State := { qS { qb with live := [(3, lpk, some 4)], refs := [5] } [(5, co)] with launches := [(4, launchOf 0 1 3 lpk)] }

theorem witness_LaunchesRun_3 :
    let before : List (ℕ × List Word × Option ℕ) := ((nextLaunchPacket (qS z1 [(5, co)]) 0 1).getD default).1
    let ws : List Word := ((nextLaunchPacket (qS z1 [(5, co)]) 0 1).getD default).2.2.1
    nextLaunchPacket (qS z1 [(5, co)]) 0 1 = some (before, 3, ws, 4) ∧
      mayStart (qS z1 [(5, co)]) before 3 (bit (BitVec.toNat (nth ws 0 0)) 48) = true ∧
      ((qS z1 [(5, co)]).part 0).tdi = 2 ∧
      launchStatus (qS z1 [(5, co)]) 0 1 ws = 0 :=
  ⟨(by decide +kernel), (by decide +kernel), (by decide +kernel), (by decide +kernel)⟩

theorem witness_LaunchesRun_4 :
    let v : Launch := (Table.find 4 lS.launches).getD default
    let svc : Table (List ℕ) := (launchWindows lS { v with xbase := 0 }).getD default
    Table.find 4 lS.launches = some v ∧
      v.status = LaunchStatus.checked ∧
      (lS.part v.part).tdi = 2 ∧
      startsNow lS v = true ∧
      rectangleFor lS v = some 0 ∧
      (∀ w ∈ startable lS, placedFirst lS w (4, v) = true → rectangleFor lS w.2 = none) ∧
      launchHasDie { v with xbase := 0 } v.rootDie = true ∧
      launchWindows lS { v with xbase := 0 } = some svc ∧
      lS.th.id ≠ lS.nextThread :=
  by decide +kernel

end Case24

namespace Case26

open Says

def hs (p : Partition) : State := { core0 with launches := [], th := Thread.management 0, cores := [], parts := [(0, p)] }
def st0 : Machine.Stream := ⟨1, 1, 77, 5, 9, some [1]⟩
def pp : Partition := { part0 with invals := [⟨4, 3, 1⟩], invVa := 0x5000, invPages := 2, streams := [(2, st0)] }
def tl : TlbEntry := ⟨0, 0x3000, 4096, 0x110000, true, true, true⟩
def z1 := { hs pp with tlb := [tl] }
def z2 := { pp with tdi := 0 }
def z3 := { pp with tdi := 1 }
def ib : Inbound := ⟨0, 5, some 0, 0x110000, 0x3000, [1,2,3,4], none, true, false⟩
def z5 := { hs pp with mem := pageMem.writeAll 0x110000 [9], inbound := [] }
def wv : Word := ((windowVa z5 0 0x3000).getD 0)
def z6 := { hs pp with inbound := [{ ib with req := 3 }, { ib with sent := false }] }
def z7 := { hs pp with inbound := [{ ib with req := 3 }, ib] }
def nx : Machine.Stream := ⟨1, 1, 77, 5, 10, some (List.replicate 32 7)⟩
def k32 : List Byte := List.replicate 32 7
def st9 : Machine.Stream := ⟨1, 1, 77, 5, 9, some k32⟩
def pf : Partition := { part0 with streams := [(2, st9)], drop := 3 }
def hf : State := let s := hs pf; { s with io := { s.io with devid := 42 }, mem := core0.mem }
def hd (seq : Word) (ty : BitVec 2) : FlitHead := ⟨42, 77, 2, ty, seq⟩
def bd (addr : Word) (d : List Byte) : FlitBody := ⟨0, 0, addr, d⟩
def lo (u : State) (a : Word) (n : Nat) := (windowPa (u.setStream 0 2 nx) 0 a n .write)
def hf2 : State := let s := hs { pf with frWr := 16 }; { s with io := { s.io with devid := 42 }, mem := core0.mem }
def badW := windowPa (hf2.setStream 0 2 nx) 0 0x40000000 1 .write
def erOf {α β : Type} (x : Except α β) (d : α) : α := match x with | .error v => v | .ok _ => d
def z0 : List Byte := ((hd 9 0).bytes)
def zf2 : List Byte := ((hd 9 2).bytes)
def ackBad : FlitBody := ⟨0, 3, 9, []⟩
def ww : WindowWrite := ⟨0, 1, 0, 2, 9, 0, 0, [1], none, false, false, 0⟩
def z9 := { hf with outbound := [ww, { ww with seq := 4 }, { ww with stream := 3 }] }
def zf3 : List Byte := ({ hd 9 2 with stream := 63 } : FlitHead).bytes
def zf4 : List Byte := ({ hd 9 0 with stream := 63 } : FlitHead).bytes
def bq : FlitBody := ⟨5, 0, 0x3000, [5]⟩

theorem witness_RegistersAreWritten_1 :
    let rest : List Invalidation := ((hs z2).part 0).invals.tail
    let n : Invalidation := ((hs z2).part 0).invals.headD default
    vfOn (hs z2) 0 = true ∧
      1 < 2 ^ 16 ∧
      (hs z2).inbound = [] ∧
      ((hs z2).part 0).invals = n :: rest ∧
      accessUnderWay (hs z2) 0 n = false ∧
      ((hs z2).part 0).tdi = 0 ∧
      ((hs z2).part 0).accept.length = 4 ∧
      3 < 4 ∧
      2 < 64 ∧
      partPlaced (hs z2) 0 = false ∧
      3 < 32 ∧
      (((hs z2).part 0).assign.write 3 56623104).aligned = true ∧
      (∀ z ∈ (hs z2).parts, z.1 ≠ 0 → (((hs z2).part 0).assign.write 3 56623104).overlaps z.2.assign = false) ∧
      (∀ d < 8, available (hs z2) d = true ∨ ((hs z2).part 0).assign.names (((hs z2).part 0).assign.write 3 56623104) 3 d = false) ∧
      (∀ z ∈ (hs z2).parts, z.2.tdi ≠ 1 ∧ z.2.tdi ≠ 2) :=
  by decide +kernel

theorem witness_RegistersAreWritten_2 :
    vfOn z1 0 = true ∧
      1 < 2 ^ 16 ∧
      z1.inbound = [] ∧
      (z1.part 0).tdi ≠ 0 ∧
      3 < 4 :=
  by decide +kernel

theorem witness_InterfacesChangeState_1 :
    vfOn (hs z2) 0 = true ∧
      ((hs z2).part 0).tdi = 0 :=
  by decide +kernel

theorem witness_InterfacesChangeState_2 :
    vfOn (hs z3) 0 = true ∧
      ((hs z3).part 0).tdi = 1 :=
  by decide +kernel

theorem witness_InboundAccesses_1 :
    windowPa z5 (0 : ℕ) wv [(1 : Byte), (2 : Byte), (3 : Byte), (4 : Byte)].length Cls.write = (Except.ok (exOf (windowPa z5 (0 : ℕ) wv (8 : ℕ) Cls.rw).1 (0 : ℕ)), (windowPa z5 (0 : ℕ) wv (8 : ℕ) Cls.rw).2) ∧
      windowPa z5 0 wv 8 Cls.read = (Except.ok (exOf (windowPa z5 0 wv 8 Cls.rw).1 0), (windowPa z5 0 wv 8 Cls.rw).2) ∧
      (windowPa z5 0 wv 8 Cls.rw).2.Inv ∧
      windowPa z5 0 wv 8 Cls.rw = (Except.ok (exOf (windowPa z5 0 wv 8 Cls.rw).1 0), (windowPa z5 0 wv 8 Cls.rw).2) ∧
      windowTlp z5 (0 : ℕ) (12288 : ℕ) [(1 : Byte), (2 : Byte), (3 : Byte), (4 : Byte)].length = true ∧
      windowTakes z5 0 5 = true ∧
      [(1 : Byte), (2 : Byte), (3 : Byte), (4 : Byte)].length ≤ (512 : ℕ) ∧
      windowVa z5 0 12288 = some wv ∧
      (windowPa z5 0 wv 8 Cls.rw).2.inbound = [] ∧
      windowTlp z5 0 12288 8 = true ∧
      (∀ e ∈ z5.inbound, e.req % 2 ^ 16 ≠ 5 % 2 ^ 16) ∧
      touchHeap (exOf (windowPa z5 0 wv 8 Cls.rw).1 0) (windowPa z5 0 wv 8 Cls.rw).2 = (windowPa z5 0 wv 8 Cls.rw).2 ∧
      (windowPa z5 0 wv 8 Cls.rw).2.wqueue = [] ∧
      readFails (windowPa z5 0 wv 8 Cls.rw).2 (exOf (windowPa z5 0 wv 8 Cls.rw).1 0) 8 = false ∧
      (8 = 4 ∨ 8 = 8) ∧
      12288 % 8 = 0 :=
  ⟨(exPair_of (by decide +kernel) default), (exPair_of (by decide +kernel) default), (by show (_ = true); decide +kernel), (exPair_of (by decide +kernel) default), by decide +kernel⟩

theorem witness_InboundAccesses_2 :
    let w : Inbound := z6.inbound[1]?.getD default
    z6.inbound[1]? = some w ∧
      w.sent = false ∧
      w.reg = none ∧
      (∀ e ∈ List.take 1 z6.inbound, e.req % 2 ^ 16 ≠ w.req % 2 ^ 16) :=
  by decide +kernel

theorem witness_InboundAccesses_3 :
    let w : Inbound := z7.inbound[1]?.getD default
    z7.Inv ∧
      z7.inbound[1]? = some w ∧
      w.sent = true ∧
      (∀ e ∈ List.take 1 z7.inbound, ¬(e.req % 2 ^ 16 = w.req % 2 ^ 16 ∧ e.route = w.route)) ∧
      z7.wqueue = [] ∧
      onDevice w.pa = true ∧
      writeFails z7 w.pa w.data.length = false :=
  ⟨(by show (_ = true); decide +kernel), by decide +kernel⟩

theorem witness_UmenoFlits_1 :
    let w : WindowWrite := z9.outbound.headD default
    let g : FlitHead := FlitHead.read (List.take 16 zf3)
    z9.stream? 0 2 = some st9 ∧
      st9.key = some k32 ∧
      k32.length = 32 ∧
      st9.state = 1 ∧
      (hd 9 2).dest = z9.io.devid ∧
      (hd 9 2).src.toNat = st9.peer ∧
      (hd 9 2).stream.toNat = 2 ∧
      flitStreams z9 (hd 9 2) = [(0, st9)] ∧
      st9.txseq + 1 < 2 ^ 64 - 1 ∧
      ackBad.part.toNat = 0 ∧
      ackBad.data.length ≤ 208 ∧
      BitVec.toNat (hd 9 2).seq = st9.rxseq ∧
      (hd 9 2).type = 2 ∧
      ackBad.code ≠ 0 ∧
      g.dest = z9.io.devid ∧
      flitStreams z9 g = [] ∧
      g.type = 2 ∧
      w ∈ z9.outbound ∧
      w.part = 0 ∧
      w.stream = 2 ∧
      w.failed = false :=
  by decide +kernel

theorem witness_UmenoFlits_2 :
    hf.stream? 0 2 = some st9 ∧
      st9.key = some k32 ∧
      k32.length = 32 ∧
      st9.state = 1 ∧
      (hd 9 2).dest = hf.io.devid ∧
      (hd 9 2).src.toNat = st9.peer ∧
      (hd 9 2).stream.toNat = 2 ∧
      flitStreams hf (hd 9 2) = [(0, st9)] ∧
      st9.txseq + 1 < 2 ^ 64 - 1 ∧
      FlitHead.read (List.take 16 zf2) = hd 9 2 ∧
      openFlit k32 zf2 = none ∧
      (hd 9 2).type = 2 ∧
      (bd 12288 [5]).part.toNat = 0 ∧
      (bd 12288 [5]).data.length ≤ 208 ∧
      BitVec.toNat (hd 9 2).seq = st9.rxseq ∧
      (bd 12288 [5]).code = 0 :=
  by decide +kernel

theorem witness_UmenoFlits_3 :
    hf.stream? 0 2 = some st9 ∧
      st9.key = some k32 ∧
      k32.length = 32 ∧
      st9.state = 1 ∧
      (hd 9 0).dest = hf.io.devid ∧
      (hd 9 0).src.toNat = st9.peer ∧
      (hd 9 0).stream.toNat = 2 ∧
      flitStreams hf (hd 9 0) = [(0, st9)] ∧
      st9.txseq + 1 < 2 ^ 64 - 1 ∧
      FlitHead.read (List.take 16 z0) = hd 9 0 ∧
      openFlit k32 z0 = none ∧
      (hd 9 0).type ≠ 2 :=
  by decide +kernel

theorem witness_UmenoFlits_4 :
    hf.stream? 0 2 = some st9 ∧
      st9.key = some k32 ∧
      k32.length = 32 ∧
      st9.state = 1 ∧
      (hd 9 0).dest = hf.io.devid ∧
      (hd 9 0).src.toNat = st9.peer ∧
      (hd 9 0).stream.toNat = 2 ∧
      flitStreams hf (hd 9 0) = [(0, st9)] ∧
      st9.txseq + 1 < 2 ^ 64 - 1 ∧
      bq.part.toNat ≠ 0 ∧
      bq.data.length ≤ 208 ∧
      (hd 9 0).type ≠ 2 :=
  by decide +kernel

theorem witness_UmenoFlits_5 :
    hf.stream? 0 2 = some st9 ∧
      st9.key = some k32 ∧
      k32.length = 32 ∧
      st9.state = 1 ∧
      (hd 7 2).dest = hf.io.devid ∧
      (hd 7 2).src.toNat = st9.peer ∧
      (hd 7 2).stream.toNat = 2 ∧
      flitStreams hf (hd 7 2) = [(0, st9)] ∧
      st9.txseq + 1 < 2 ^ 64 - 1 ∧
      bq.part.toNat ≠ 0 ∧
      bq.data.length ≤ 208 ∧
      (hd 7 2).type = 2 :=
  by decide +kernel

theorem witness_UmenoFlits_6 :
    hf.stream? 0 2 = some st9 ∧
      st9.key = some k32 ∧
      k32.length = 32 ∧
      st9.state = 1 ∧
      (hd 8 0).dest = hf.io.devid ∧
      (hd 8 0).src.toNat = st9.peer ∧
      (hd 8 0).stream.toNat = 2 ∧
      flitStreams hf (hd 8 0) = [(0, st9)] ∧
      st9.txseq + 1 < 2 ^ 64 - 1 ∧
      (bd 12288 [5]).part.toNat = 0 ∧
      (bd 12288 [5]).data.length ≤ 208 ∧
      BitVec.toNat (hd 8 0).seq ≠ st9.rxseq ∧
      (hd 8 0).type ≠ 2 :=
  by decide +kernel

theorem witness_UmenoFlits_7 :
    hf.stream? 0 2 = some st9 ∧
      st9.key = some k32 ∧
      k32.length = 32 ∧
      st9.state = 1 ∧
      (hd 8 2).dest = hf.io.devid ∧
      (hd 8 2).src.toNat = st9.peer ∧
      (hd 8 2).stream.toNat = 2 ∧
      flitStreams hf (hd 8 2) = [(0, st9)] ∧
      st9.txseq + 1 < 2 ^ 64 - 1 ∧
      (bd 12288 []).part.toNat = 0 ∧
      (bd 12288 []).data.length ≤ 208 ∧
      BitVec.toNat (hd 8 2).seq ≠ st9.rxseq ∧
      (hd 8 2).type = 2 :=
  by decide +kernel

theorem witness_UmenoFlits_8 :
    windowPa (hf2.setStream 0 2 { st9 with rxseq := st9.rxseq + 1 }) 0 (bd 1073741824 [5]).addr (bd 1073741824 [5]).data.length Cls.write = (Except.error ((erOf badW.1 (0, 0)).1, (erOf badW.1 (0, 0)).2), badW.2) ∧
      hf2.stream? 0 2 = some st9 ∧
      st9.key = some k32 ∧
      k32.length = 32 ∧
      st9.state = 1 ∧
      (hd 9 0).dest = hf2.io.devid ∧
      (hd 9 0).src.toNat = st9.peer ∧
      (hd 9 0).stream.toNat = 2 ∧
      flitStreams hf2 (hd 9 0) = [(0, st9)] ∧
      st9.txseq + 1 < 2 ^ 64 - 1 ∧
      (bd 1073741824 [5]).part.toNat = 0 ∧
      (bd 1073741824 [5]).data.length ≤ 208 ∧
      BitVec.toNat (hd 9 0).seq = st9.rxseq ∧
      (hd 9 0).type = 0 ∧
      (bd 1073741824 [5]).data ≠ [] ∧
      badW.2 = hf2.setStream 0 2 { st9 with rxseq := st9.rxseq + 1 } ∧
      noticeRoom (hf2.setStream 0 2 { st9 with rxseq := st9.rxseq + 1 }) 0 = false :=
  ⟨(erPair_of (by decide +kernel) (0, 0)), by decide +kernel⟩

theorem witness_UmenoFlits_9 :
    let g : FlitHead := FlitHead.read (List.take 16 zf4)
    z9.stream? 0 2 = some st9 ∧
      st9.key = some k32 ∧
      k32.length = 32 ∧
      st9.state = 1 ∧
      (hd 9 2).dest = z9.io.devid ∧
      (hd 9 2).src.toNat = st9.peer ∧
      (hd 9 2).stream.toNat = 2 ∧
      flitStreams z9 (hd 9 2) = [(0, st9)] ∧
      st9.txseq + 1 < 2 ^ 64 - 1 ∧
      g.dest = z9.io.devid ∧
      flitStreams z9 g = [] ∧
      g.type ≠ 2 :=
  by decide +kernel

theorem witness_UmenoFlits_10 :
    windowPa (hf.setStream 0 2 { st9 with rxseq := st9.rxseq + 1 }) 0 (bd 12288 (List.replicate 208 5)).addr (bd 12288 (List.replicate 208 5)).data.length Cls.write = (Except.ok (exOf (lo hf 12288 208).1 0), (lo hf 12288 208).2) ∧
      (lo hf 12288 208).2.Inv ∧
      hf.stream? 0 2 = some st9 ∧
      st9.key = some k32 ∧
      k32.length = 32 ∧
      st9.state = 1 ∧
      (hd 9 0).dest = hf.io.devid ∧
      (hd 9 0).src.toNat = st9.peer ∧
      (hd 9 0).stream.toNat = 2 ∧
      flitStreams hf (hd 9 0) = [(0, st9)] ∧
      st9.txseq + 1 < 2 ^ 64 - 1 ∧
      (bd 12288 (List.replicate 208 5)).part.toNat = 0 ∧
      (bd 12288 (List.replicate 208 5)).data.length ≤ 208 ∧
      BitVec.toNat (hd 9 0).seq = st9.rxseq ∧
      (hd 9 0).type = 0 ∧
      (bd 12288 (List.replicate 208 5)).code = 0 ∧
      (bd 12288 (List.replicate 208 5)).data ≠ [] ∧
      touchHeap (exOf (lo hf 12288 208).1 0) (lo hf 12288 208).2 = (lo hf 12288 208).2 ∧
      (lo hf 12288 208).2.wqueue = [] ∧
      (lo hf 12288 208).2.parts = (hf.setStream 0 2 { st9 with rxseq := st9.rxseq + 1 }).parts ∧
      (lo hf 12288 208).2.umenoOut = hf.umenoOut ∧
      (lo hf 12288 208).2.io = hf.io ∧
      writeFails (lo hf 12288 208).2 (exOf (lo hf 12288 208).1 0) (bd 12288 (List.replicate 208 5)).data.length = false :=
  ⟨(exPair_of (by decide +kernel) default), (by show (_ = true); decide +kernel), by decide +kernel⟩

end Case26

namespace Case27

open Says

def rec0 : EvRecord := ⟨0, 3, 0, 1, 0, 7, 8, 9, View.zero⟩
def cs := withRegs core0 [(1, 0x40), (2, 2), (3, 0x1000), (4, 0x1010), (5, 0x3000), (6, 0x10002), (7, 0x20003), (8, 0xFFFFFFFFFF)]
def csR : State := cs.putCtx { cs.ctx with events := [rec0], reserved := [0, 1], seq := 0xFFFFFFFF }
def csJ : State := { cs with mem := cs.mem.writeAll 0x10000000000 [2] }
def csG : State := cs.mapDie 0 0 (fun d => { d with ranges := [(15, ⟨100, 99, 4, 3⟩)] })

theorem witness_RecordsAreDelivered_1 :
    let l : Option ℕ := (launchOfThread csR 0).getD default
    launchOfThread csR 0 = some l :=
  by decide +kernel

theorem witness_SpawnCreatesAContinuation_1 :
    let v : Launch := (Table.find 0 cs.launches).getD default
    Quiet cs ∧
      cs.core < 64 ∧
      cs.th.launch = some 0 ∧
      Table.find 0 cs.launches = some v ∧
      cs.th.id < cs.nextThread ∧
      BitVec.toNat (cs.g 1) % 4 = 0 ∧
      launchHasDie v (if false = true then BitVec.toNat (1 : BitVec (3 : ℕ)) else cs.th.die) = true ∧
      queueLength cs (0 : ℕ) (if false = true then BitVec.toNat (1 : BitVec (3 : ℕ)) else cs.th.die) true < (65536 : ℕ) :=
  ⟨(by unfold Quiet; decide +kernel), by decide +kernel⟩

theorem witness_JoinCountsDown_1 :
    let v : Launch := (Table.find 0 csJ.launches).getD default
    let s1 : State := landed (access (csJ.g 3) 16 Cls.rw csJ) State.reset
    let pa : ℕ := valueOf (access (csJ.g 3) 16 Cls.rw csJ) 0
    csJ.Inv ∧
      Quiet csJ ∧
      Lands (csJ.g 3) 16 Cls.rw csJ pa s1 ∧
      csJ.core < 64 ∧
      csJ.th.launch = some 0 ∧
      Table.find 0 csJ.launches = some v ∧
      launchHasDie v (homeDie pa) = true ∧
      readFails csJ pa 16 = false ∧
      1 < leNat (peek csJ pa 8) :=
  ⟨(by show (_ = true); decide +kernel), (by unfold Quiet; decide +kernel), (lands_of (by decide +kernel) (by decide +kernel)), by decide +kernel⟩

theorem witness_ExitAndYield_1 :
    let v : Launch := (Table.find 0 csR.launches).getD default
    Quiet csR ∧
      csR.core < 64 ∧
      csR.th.launch = some 0 ∧
      Table.find 0 csR.launches = some v :=
  ⟨(by unfold Quiet; decide +kernel), by decide +kernel⟩

theorem witness_RangesAreSharedOut_1 :
    let v : Launch := (Table.find 0 csG.launches).getD default
    let x : Range := ((Table.find 0 csG.launches).bind fun w => Table.find ((15 : BitVec 4).toNat) (w.die csG.th.die).ranges).getD default
    csG.core < 64 ∧
      csG.th.launch = some 0 ∧
      Table.find 0 csG.launches = some v ∧
      (BitVec.toNat (csG.g 2) % 2 ^ 16 = 0 ∨ BitVec.toNat (csG.g 2) / 2 ^ 16 % 2 ^ 32 = 0 ∨ 2 ^ 40 ≤ BitVec.toNat (csG.g 3)) ∧
      ((Table.find 0 csG.launches).bind fun w => Table.find ((15 : BitVec 4).toNat) (w.die csG.th.die).ranges) = some x :=
  by decide +kernel

theorem witness_RangesAreSharedOut_2 :
    let v : Launch := (Table.find 0 cs.launches).getD default
    cs.core < 64 ∧
      cs.th.launch = some 0 ∧
      Table.find 0 cs.launches = some v ∧
      BitVec.toNat (cs.g 6) % 2 ^ 16 ≠ 0 ∧
      BitVec.toNat (cs.g 6) / 2 ^ 16 % 2 ^ 32 ≠ 0 ∧
      BitVec.toNat (cs.g 8) < 2 ^ 40 :=
  by decide +kernel

end Case27

namespace Case28

open Says

def ps : PostedStore := ⟨0, 0x110000, 0x3000, [1, 2, 3, 4, 5, 6, 7, 8], 0, 0⟩
def rd : PostedRed := ⟨0, 1, 1, 8, 0x10000000008, 0x1008, 5, 0⟩
def rh : PostedRed := ⟨0, 1, 2, 4, 0x110004, 0x3004, 5, 0⟩
def qp : State := { core0 with posted := [{ ps with pa := 0x110008 }, ps], reds := [{ rd with pa := 0x10000000010 }, rd, rh] }
def qw : State := { core0 with wqueue := [(0, [⟨0x110000, 2, 4, [rh]⟩])] }
def dv : State := { core0 with launches := [], parts := [], io := { core0.io with dieState := [(0, 1), (1, 1)] } }
def dF : State := { dv with io := { dv.io with watch := .first 10 (some 1) } , time := 10 }
def dF2 : State := { dF with time := 9 }
def dB : State := { dv with io := { dv.io with watch := .beating 10, energyAt := 4 } , time := 5000000 }
def dO : State := { dv with io := { dv.io with watch := .boot 10 (some 1) } , time := 10 }
def dO2 : State := { dv with io := { dv.io with watch := .boot 10 none } , time := 10 }
def mw : State := { mgState 0x00221801 with agenda := [.core 64] }

theorem witness_PostedAccessesArePerformed_1 :
    let off : ℕ := rd.pa % 2 ^ 26
    let die : ℕ := (rd.pa - 2 ^ 40) / 2 ^ 28
    qp.Inv ∧
      qp.posted[1]? = some ps ∧
      (∀ q ∈ List.take 1 qp.posted, ¬(q.owner = ps.owner ∧ overlap q.pa q.data.length ps.pa ps.data.length = true)) ∧
      onDevice ps.pa = true ∧
      touchHeap ps.pa qp = qp ∧
      qp.wqueue = [] ∧
      writeFails qp ps.pa ps.data.length = false ∧
      qp.reds[1]? = some rd ∧
      (∀ q ∈ List.take 1 qp.reds, ¬(q.owner = rd.owner ∧ overlap q.pa q.bytes rd.pa rd.bytes = true)) ∧
      locOf rd.pa = Loc.dsm die off ∧
      readFails qp rd.pa rd.bytes = false :=
  ⟨(by show (_ = true); decide +kernel), by decide +kernel⟩

theorem witness_PostedAccessesArePerformed_2 :
    qw.Inv ∧
      qw.wqueue.getD 0 [] = [{ line := rh.pa / 64 * 64, aop := rh.aop, bytes := rh.bytes, ops := [rh] }] ∧
      readFails qw rh.pa rh.bytes = false :=
  ⟨(by show (_ = true); decide +kernel), by decide +kernel⟩

theorem witness_PostedAccessesArePerformed_3 :
    let off : ℕ := rh.pa % 2 ^ 36
    let j : ℕ := rh.pa / 2 ^ 36
    qp.Inv ∧
      qp.reds[2]? = some rh ∧
      (∀ q ∈ List.take 2 qp.reds, ¬(q.owner = rh.owner ∧ overlap q.pa q.bytes rh.pa rh.bytes = true)) ∧
      locOf rh.pa = Loc.hbm j off ∧
      qp.wqueue.getD j [] = [] :=
  ⟨(by show (_ = true); decide +kernel), by decide +kernel⟩

theorem witness_DeviceEvents_1 :
    available dB 1 = true ∧
      dB.parts = [] ∧
      dB.parked = [] ∧
      dB.launches = [] ∧
      dB.io.watch = Watch.beating 10 ∧
      10 ≤ dB.time ∧
      dB.io.energyAt < dB.time / 1000000 :=
  by decide +kernel

theorem witness_DeviceEvents_2 :
    let old : ℕ := 1
    dF.io.watch = Watch.first 10 (some old) ∧
      10 ≤ dF.time :=
  by decide +kernel

theorem witness_DeviceEvents_3 :
    let fallback : Option ℕ := some 1
    (dF2.io.watch = Watch.first 10 fallback ∨ dF2.io.watch = Watch.boot 10 fallback) ∧
      dF2.time < 10 :=
  by decide +kernel

theorem witness_DeviceEvents_4 :
    let other : ℕ := 1
    dO.io.watch = Watch.boot 10 (some other) ∧
      10 ≤ dO.time :=
  by decide +kernel

theorem witness_DeviceEvents_5 :
    dO2.io.watch = Watch.boot 10 none ∧
      10 ≤ dO2.time :=
  by decide +kernel

theorem witness_ElementWordsRoundTrip_1 :
    let w : ℕ := (encode (Instr.elemAdd goodWord)).getD default
    (Instr.elemAdd goodWord).wf = true ∧
      encode (Instr.elemAdd goodWord) = some w ∧
      encodedBytes (Instr.elemAdd goodWord) = 16 :=
  by decide +kernel

theorem witness_ControlWordsRoundTrip_1 :
    let w : ℕ := (encode (Instr.li 7 305419896)).getD default
    (Instr.li 7 305419896).wf = true ∧
      encode (Instr.li 7 305419896) = some w ∧
      encodedBytes (Instr.li 7 305419896) ≤ 8 ∧
      (encodedBytes (Instr.li (7 : Reg) (305419896 : BitVec (32 : ℕ))) = (8 : ℕ) ∨ (4 : ℕ) ≤ [(170 : Byte)].length) :=
  by decide +kernel

theorem witness_FetchReadsTheWord_1 :
    let s12 : State := landed (fetchWord mw.th.pc mw) State.reset
    let s1 : State := landed (translateAt 0 Cls.fetch 0 mw) State.reset
    let pa : ℕ := valueOf (translateAt 0 Cls.fetch 0 mw) default
    let w0 : BitVec 32 := valueOf (fetchWord mw.th.pc mw) default
    translateAt 0 Cls.fetch 0 mw = Got.ok pa s1 ∧
      fetchWord mw.th.pc mw = Got.ok w0 s12 ∧
      Table.find (fetchKey mw 0) (mw.coreAt mw.core).fetched = none ∧
      (inLoopBuffer mw (0 : Word) = true → Table.find (BitVec.toNat (0 : Word)) (mw.coreAt mw.core).body = none) ∧
      onDevice pa = true ∧
      s1.wqueue = [] ∧
      readFails s1 pa 4 = false ∧
      w0.toNat / 2 ^ 26 ≠ 63 :=
  ⟨(ok_of (by decide +kernel) default State.reset), (ok_of (by decide +kernel) default State.reset), by decide +kernel⟩

end Case28

namespace Case3

open Says

def cs := withRegs core0 [(1, 0x10), (2, 2), (3, 0x1008), (4, 0x2008), (5, 0x3), (6, 0xFFFFFFFFFFFFFFFF), (7, 0x200C), (8, 0x3010)]
def mg : State := withRegs (mgState 0) [(1, 0x40), (2, 2), (3,3)]
def l1 (va : Word) (n : Nat) (c : Cls) (s : State) := landed (access va n c s) s
def p1 (va : Word) (n : Nat) (c : Cls) (s : State) := valueOf (access va n c s) 0
def csd : State := { cs with mem := cs.mem.writeAll 0x10000000008 [0x80,0xFF,0x01,0x80,5,6,7,0xF8] }
def lpl (d : Nat) (va : Word) (s : State) := valueOf (ldmPlaces (List.range d) va s) []
def ldq (d : Nat) (va : Word) (s : State) := landed (ldmPlaces (List.range d) va s) State.reset
def stp (d : Nat) (va : Word) (s : State) := valueOf (stmFrom (List.range d) va s) []
def stq (d : Nat) (va : Word) (s : State) := landed (stmFrom (List.range d) va s) State.reset
def cs4 := withRegs csd [(7, 0x1008)]
def cs5 := withRegs core0 [(7, 0x1008), (2,1), (3,4096)]

theorem witness_ControlRegisterWrites_2 :
    BitVec.toNat (mg.g 3) % 4 ≠ 0 ∧
      64 ≤ mg.core ∧
      BitVec.toNat (mg.g 3) % 64 ≠ 0 :=
  by decide +kernel

theorem witness_MisalignedAccessTraps_1 :
    let i : Instr := [Instr.amoadd 7 5 2 2 3, Instr.amomin 7 5 2 2 3, Instr.amominn 7 5 2 2 3, Instr.amomax 7 5 2 2 3, Instr.amomaxn 7 5 2 2 3, Instr.amoand 7 5 2 2 3, Instr.amoor 7 5 2 2 3, Instr.amoxor 7 5 2 2 3, Instr.amoswp 7 5 2 2 3, Instr.amocas 7 5 2 2 3, Instr.redadd 5 2 2 3, Instr.redmin 5 2 2 3, Instr.redminn 5 2 2 3, Instr.redmax 5 2 2 3, Instr.redmaxn 5 2 2 3, Instr.redand 5 2 2 3, Instr.redor 5 2 2 3, Instr.redxor 5 2 2 3].headD .nop
    BitVec.toNat (cs.g (5 : Reg) + BitVec.signExtend (64 : ℕ) (0 : BitVec (11 : ℕ))) % (2 : ℕ) ^ BitVec.toNat (2 : BitVec (2 : ℕ)) ≠ (0 : ℕ) ∧
      (2 : BitVec (2 : ℕ)) ≠ (3 : BitVec (2 : ℕ)) ∧
      (2 : ℕ) ≤ BitVec.toNat (2 : BitVec (2 : ℕ)) ∧
      (2 : ℕ) ≤ BitVec.toNat (3 : BitVec (3 : ℕ)) ∧
      BitVec.toNat (3 : BitVec (3 : ℕ)) ≤ (5 : ℕ) ∧
      BitVec.toNat (cs.g (5 : Reg) + BitVec.signExtend (64 : ℕ) (0 : BitVec (11 : ℕ))) % (8 : ℕ) ≠ (0 : ℕ) ∧
      ↑(7 : Reg) + BitVec.toNat (24 : BitVec (5 : ℕ)) ≤ (31 : ℕ) ∧
      featureOn cs 5 = true ∧
      (3 : ℕ) ≤ BitVec.toNat (3 : BitVec (3 : ℕ)) ∧
      BitVec.toNat (cs.g (5 : Reg)) % (2 : ℕ) ^ BitVec.toNat (2 : BitVec (2 : ℕ)) ≠ (0 : ℕ) ∧
      i ∈ [Instr.amoadd 7 5 2 2 3, Instr.amomin 7 5 2 2 3, Instr.amominn 7 5 2 2 3, Instr.amomax 7 5 2 2 3, Instr.amomaxn 7 5 2 2 3, Instr.amoand 7 5 2 2 3, Instr.amoor 7 5 2 2 3, Instr.amoxor 7 5 2 2 3, Instr.amoswp 7 5 2 2 3, Instr.amocas 7 5 2 2 3, Instr.redadd 5 2 2 3, Instr.redmin 5 2 2 3, Instr.redminn 5 2 2 3, Instr.redmax 5 2 2 3, Instr.redmaxn 5 2 2 3, Instr.redand 5 2 2 3, Instr.redor 5 2 2 3, Instr.redxor 5 2 2 3] ∧
      BitVec.toNat (cs.g 5) % 4 ≠ 0 ∧
      BitVec.toNat (cs.g 5) % 2 ≠ 0 :=
  by decide +kernel

set_option maxRecDepth 4000 in
theorem witness_LoadsReadMemory_1 :
    Quiet csd ∧
      Raceless csd ∧
      Lands (csd.g (3 : Reg) + BitVec.signExtend (64 : ℕ) (0 : BitVec (11 : ℕ))) ((2 : ℕ) ^ BitVec.toNat (2 : BitVec (2 : ℕ))) Cls.read csd (p1 (4104 : Word) (4 : ℕ) Cls.read csd) (l1 (4104 : Word) (4 : ℕ) Cls.read csd) ∧
      csd.releases = [] ∧
      readFails csd (p1 (4104 : Word) (4 : ℕ) Cls.read csd) ((2 : ℕ) ^ BitVec.toNat (2 : BitVec (2 : ℕ))) = false ∧
      (2 : BitVec (2 : ℕ)) ≠ (3 : BitVec (2 : ℕ)) ∧
      (2 : ℕ) ≤ BitVec.toNat (2 : BitVec (2 : ℕ)) ∧
      (2 : ℕ) ≤ BitVec.toNat (2 : BitVec (3 : ℕ)) ∧
      BitVec.toNat (2 : BitVec (3 : ℕ)) ≤ (5 : ℕ) :=
  ⟨(by unfold Quiet; decide +kernel), (by unfold Raceless; decide +kernel), (lands_of (by decide +kernel) (by decide +kernel)), by decide +kernel⟩

set_option maxRecDepth 4000 in
theorem witness_StoresWriteMemory_1 :
    csd.Inv ∧
      Quiet csd ∧
      NoReport csd ∧
      Lands (csd.g (3 : Reg) + BitVec.signExtend (64 : ℕ) (0 : BitVec (11 : ℕ))) ((2 : ℕ) ^ BitVec.toNat (3 : BitVec (2 : ℕ))) Cls.write csd (p1 (4104 : Word) (8 : ℕ) Cls.write csd) (l1 (4104 : Word) (8 : ℕ) Cls.write csd) ∧
      writeFails csd (p1 (4104 : Word) (8 : ℕ) Cls.write csd) ((2 : ℕ) ^ BitVec.toNat (3 : BitVec (2 : ℕ))) = false ∧
      homeDie (p1 4104 8 Cls.write csd) = coreDie csd.core ∧
      (2 : ℕ) ≤ BitVec.toNat (3 : BitVec (2 : ℕ)) ∧
      (2 : ℕ) ≤ BitVec.toNat (3 : BitVec (3 : ℕ)) ∧
      BitVec.toNat (3 : BitVec (3 : ℕ)) ≤ (5 : ℕ) :=
  ⟨(by show (_ = true); decide +kernel), (by unfold Quiet; decide +kernel), (by unfold NoReport; decide +kernel), (lands_of (by decide +kernel) (by decide +kernel)), by decide +kernel⟩

theorem witness_StoresElsewhereArePosted_1 :
    Quiet csd ∧
      Lands (csd.g (4 : Reg) + BitVec.signExtend (64 : ℕ) (0 : BitVec (11 : ℕ))) ((2 : ℕ) ^ BitVec.toNat (3 : BitVec (2 : ℕ))) Cls.write csd (p1 (8200 : Word) (8 : ℕ) Cls.write csd) (l1 (8200 : Word) (8 : ℕ) Cls.write csd) ∧
      NoReport csd ∧
      homeDie (p1 8200 8 Cls.write csd) ≠ coreDie csd.core ∧
      (2 : ℕ) ≤ BitVec.toNat (3 : BitVec (2 : ℕ)) ∧
      (2 : ℕ) ≤ BitVec.toNat (5 : BitVec (3 : ℕ)) ∧
      BitVec.toNat (5 : BitVec (3 : ℕ)) ≤ (5 : ℕ) :=
  ⟨(by unfold Quiet; decide +kernel), (lands_of (by decide +kernel) (by decide +kernel)), (by unfold NoReport; decide +kernel), by decide +kernel⟩

set_option maxRecDepth 40000 in
theorem witness_AtomicsReadModifyWrite_1 :
    csd.Inv ∧
      Quiet csd ∧
      Lands (csd.g (3 : Reg)) ((2 : ℕ) ^ BitVec.toNat (3 : BitVec (2 : ℕ))) Cls.rw csd (p1 (4104 : Word) (8 : ℕ) Cls.rw csd) (l1 (4104 : Word) (8 : ℕ) Cls.rw csd) ∧
      Lands (csd.g 3) 4 Cls.rw csd (p1 4104 8 Cls.rw csd) (l1 4104 8 Cls.rw csd) ∧
      Lands (csd.g 3) 2 Cls.rw csd (p1 4104 8 Cls.rw csd) (l1 4104 8 Cls.rw csd) ∧
      (2 : ℕ) ≤ BitVec.toNat (3 : BitVec (2 : ℕ)) ∧
      (3 : ℕ) ≤ BitVec.toNat (3 : BitVec (3 : ℕ)) ∧
      BitVec.toNat (3 : BitVec (3 : ℕ)) ≤ (5 : ℕ) ∧
      readFails csd (p1 (4104 : Word) (8 : ℕ) Cls.rw csd) ((2 : ℕ) ^ BitVec.toNat (3 : BitVec (2 : ℕ))) = false ∧
      readFails csd (p1 4104 8 Cls.rw csd) 4 = false ∧
      readFails csd (p1 4104 8 Cls.rw csd) 2 = false :=
  ⟨(by show (_ = true); decide +kernel), (by unfold Quiet; decide +kernel), (lands_of (by decide +kernel) (by decide +kernel)), (lands_of (by decide +kernel) (by decide +kernel)), (lands_of (by decide +kernel) (by decide +kernel)), by decide +kernel⟩

set_option maxRecDepth 40000 in
theorem witness_ReductionsArePosted_1 :
    Quiet csd ∧
      Lands (csd.g (4 : Reg)) ((2 : ℕ) ^ BitVec.toNat (3 : BitVec (2 : ℕ))) Cls.rw csd (p1 (8200 : Word) (8 : ℕ) Cls.rw csd) (l1 (8200 : Word) (8 : ℕ) Cls.rw csd) ∧
      Lands (csd.g 4) 4 Cls.rw csd (p1 8200 8 Cls.rw csd) (l1 8200 8 Cls.rw csd) ∧
      Lands (csd.g 4) 2 Cls.rw csd (p1 8200 8 Cls.rw csd) (l1 8200 8 Cls.rw csd) ∧
      (2 : ℕ) ≤ BitVec.toNat (3 : BitVec (2 : ℕ)) ∧
      (3 : ℕ) ≤ BitVec.toNat (5 : BitVec (3 : ℕ)) ∧
      BitVec.toNat (5 : BitVec (3 : ℕ)) ≤ (5 : ℕ) :=
  ⟨(by unfold Quiet; decide +kernel), (lands_of (by decide +kernel) (by decide +kernel)), (lands_of (by decide +kernel) (by decide +kernel)), (lands_of (by decide +kernel) (by decide +kernel)), by decide +kernel⟩

set_option maxRecDepth 4000 in
theorem witness_FencePhaseBar_1 :
    Quiet cs4 ∧
      NoReport cs4 ∧
      cs4.Inv ∧
      Lands (cs4.g 7) 8 Cls.rw cs4 (p1 4104 8 Cls.rw cs4) (l1 4104 8 Cls.rw cs4) ∧
      cs4.copies = [] ∧
      (2 : ℕ) ≤ BitVec.toNat (3 : BitVec (3 : ℕ)) ∧
      BitVec.toNat (3 : BitVec (3 : ℕ)) ≤ (5 : ℕ) ∧
      (4 : BitVec (3 : ℕ)) ≠ (0 : BitVec (3 : ℕ)) ∧
      cs4.core < 64 ∧
      1 ≤ BitVec.toNat (cs4.g 2) ∧
      BitVec.toNat (cs4.g 2) ≤ 4096 ∧
      locOf (p1 4104 8 Cls.rw cs4) = Loc.dsm 0 8 ∧
      0 = cs4.core / 8 ∧
      readFails cs4 (p1 4104 8 Cls.rw cs4) 8 = false ∧
      BitVec.toNat (cs4.g 2) ≤ (leNat (peek cs4 (p1 4104 8 Cls.rw cs4) 8) % 2 ^ 32 + 1) % 2 ^ 32 :=
  ⟨(by unfold Quiet; decide +kernel), (by unfold NoReport; decide +kernel), (by show (_ = true); decide +kernel), (lands_of (by decide +kernel) (by decide +kernel)), by decide +kernel⟩

theorem witness_FencePhaseBar_2 :
    Quiet cs5 ∧
      NoReport cs5 ∧
      cs5.Inv ∧
      Lands (cs5.g 7) 8 Cls.rw cs5 (p1 4104 8 Cls.rw cs5) (l1 4104 8 Cls.rw cs5) ∧
      cs5.copies = [] ∧
      cs5.core < 64 ∧
      1 ≤ BitVec.toNat (cs5.g 3) ∧
      BitVec.toNat (cs5.g 3) ≤ 4096 ∧
      locOf (p1 4104 8 Cls.rw cs5) = Loc.dsm 0 8 ∧
      0 = cs5.core / 8 ∧
      readFails cs5 (p1 4104 8 Cls.rw cs5) 8 = false ∧
      (leNat (peek cs5 (p1 4104 8 Cls.rw cs5) 8) % 2 ^ 32 + 1) % 2 ^ 32 < BitVec.toNat (cs5.g 3) :=
  ⟨(by unfold Quiet; decide +kernel), (by unfold NoReport; decide +kernel), (by show (_ = true); decide +kernel), (lands_of (by decide +kernel) (by decide +kernel)), by decide +kernel⟩

set_option maxRecDepth 40000 in
theorem witness_LoadAndStoreMultiple_1 :
    Quiet csd ∧
      Raceless csd ∧
      ldmPlaces (List.range (BitVec.toNat (3 : BitVec (5 : ℕ)) + (1 : ℕ))) (csd.g (3 : Reg) + BitVec.signExtend (64 : ℕ) (0 : BitVec (11 : ℕ))) csd = Got.ok (lpl (4 : ℕ) (4104 : Word) csd) (ldq (4 : ℕ) (4104 : Word) csd) ∧
      featureOn csd 5 = true ∧
      ↑(28 : Reg) + BitVec.toNat (3 : BitVec (5 : ℕ)) ≤ (31 : ℕ) ∧
      (∀ pa ∈ lpl 4 4104 csd, onDevice pa = true ∧ touchHeap pa csd = csd) :=
  ⟨(by unfold Quiet; decide +kernel), (by unfold Raceless; decide +kernel), (ok_of (by decide +kernel) default State.reset), by decide +kernel⟩

set_option maxRecDepth 40000 in
theorem witness_LoadAndStoreMultiple_2 :
    Quiet csd ∧
      csd.Inv ∧
      stmFrom (List.range (BitVec.toNat (3 : BitVec (5 : ℕ)) + (1 : ℕ))) (csd.g (3 : Reg) + BitVec.signExtend (64 : ℕ) (0 : BitVec (11 : ℕ))) csd = Got.ok (stp (4 : ℕ) (4104 : Word) csd) (stq (4 : ℕ) (4104 : Word) csd) ∧
      featureOn csd 5 = true ∧
      ↑(28 : Reg) + BitVec.toNat (3 : BitVec (5 : ℕ)) ≤ (31 : ℕ) ∧
      List.Pairwise (fun p q => overlap p 8 q 8 = false) (stp 4 4104 csd) ∧
      (∀ pa ∈ stp 4 4104 csd, onDevice pa = true ∧ touchHeap pa csd = csd ∧ ((homeDie pa == coreDie csd.core) = true → writeFails csd pa 8 = false)) :=
  ⟨(by unfold Quiet; decide +kernel), (by show (_ = true); decide +kernel), (ok_of (by decide +kernel) default State.reset), by decide +kernel⟩

end Case3

namespace Case30

open Says

def ew (ar : BitVec 2) (immb swap : Bool) (rt : BitVec 4) (d1 d2 : BitVec 16) (imm : Word) : EWord := ⟨ar, immb, swap, rt, 0, 0, false, d1, d2, imm⟩
def es (inst : Inst) (_ : Word) : State := { (issuing inst { Elem.blank with allot := 3, lfsr := 0x12345 }) with agenda := [] }
def esT (e : Elem) (i : Inst) : State := (es i 0).setElem 0 0 e
def tA (af : Nat) : Tile := ⟨af, 2, 64, (List.range 256).map (fun i => (i, BitVec.ofNat 8 (i * 37 + 11)))⟩
def node (int : Bool) (rows br kb : Nat) : Node := ⟨int, rows, br, kb, [], [], 0, 0x8330, 0xA000, 0, 0, false⟩
def eM (wf af : Nat) (nd : Node) : Elem := { Elem.blank with allot := 3, lfsr := 77, tiles := [(0, tA af)], nodes := [(1, nd)], wfmt := wf, afmt := af, slice := (List.range 2752).map (fun i => BitVec.ofNat 8 (i * 91 + 7)) }
def hA (af : Nat) : Token := { Token.blank with kind := kTile, value := tileHandle 0 0 (tA af), frame := 4 }
def m1 (af : Nat) : Inst := ⟨0, hA af, none⟩
def tl : Tile := ⟨0, 4, 16, []⟩
def e3 : Elem := { Elem.blank with allot := 2, tiles := [(1, tl)] }
def hdl : Token := { Token.blank with kind := kTile, value := tileHandle 3 1 tl }
def tf3 : State := fabric { StripeImage.blank with ops := [(0, opIm 1 0x70 16 0x40 0 0)] } [(3, e3)] [(0, { Oper.blank with inputs := [(0, [tok 0x10]), (1, [hdl])], fillRow := 3 })]
def fif : Fifo := ⟨false, 0, 0, 256, 0, 40, 8, false, true, View.zero⟩
def sf : State := { oper (opIm 2 0x10033 0 0 0 0) [(0, [tok 0]), (1, [tok 0x1122])] with launches := [(0, launch0.setDie 0 { LaunchDie.blank with fifos := [(1, fif)] })] }
def reg0 : Region := ⟨0x10000, 128, 2, 0, 0x200000, 0x10000, [0x200000], 0, 1, [(0, ⟨3, [(2, List.replicate 64 5), (3, List.replicate 64 6)]⟩)], [], [], [], false⟩
def vp : Table Partition := [(0, { part0 with regions := [(0, reg0)] })]
def vld2 : State := { operWith (opIm 5 0 0x10000 0 0 0) { Oper.blank with inputs := [(0, [tok 0]), (1, [tok 3])], vdata := [7, 8] } with parts := vp }
def ac (p0 : Word) (i0 i1 : List Token) (ps : Table (Word × Nat × View)) := fabric { StripeImage.blank with ops := [(0, opIm 8 p0 0 0 0 0)], elems := [(0, ⟨[], 0, none, 0⟩)] } [(0, Elem.blank)] [(0, { Oper.blank with inputs := [(0, i0), (1, i1)], partials := ps })]
def im2 : SegImage := ⟨true, [StripeImage.blank]⟩
def rP : Run := { (default : Run) with image := im2, status := .running, width := 1, waves := 4, step := 0, stepOpen := true, ticket := 1 }
def L2 : Launch := launch0.setDie 0 { LaunchDie.blank with fifos := [(0, fif)] }
def sP : State := { core0 with runs := [(5, rP)], launches := [(0, { L2 with nextTicket := 2 })], stripes := [(0, { Stripe.blank with run := some 5, vs := some 0, image := StripeImage.blank })] }
def hl : State := { core0 with launches := [(0, { launch0 with status := .halted, held := true, heldOwed := true, result := 3 })], parts := [(0, { part0 with queues := [(0, { Queue.blank with live := [(0, [], some 0)] })] })] }
def cs := withRegs core0 [(3, 0x1000)]
def csJ1 : State := { cs with mem := (cs.mem.writeAll 0x10000000000 [1, 0, 0, 0, 0, 0, 0, 0, 0, 0x30]).writeAll 0x110000 (wordBytes [0x40, 7, 1, 9]) }
def loc (die addr : Nat) : Word := BitVec.ofNat 64 (die * 2^61 + 8 * 2^57 + addr + 32)
def entry : List Byte := wordBytes ([loc 0 0x4000, loc 1 0x2000] ++ List.replicate 6 0)
def regT : Region := ⟨0x20000000, 4098*64, 2, 0, 0x200000, 0x90000, [0x200000], 0, 1, [(0, ⟨3, [(3, List.replicate 64 0)]⟩), (8, ⟨2, [(2, entry)]⟩)], [], [], [], false⟩
def pol0 : Policy := ⟨0x20000000, false, 1000000, 10, 5, 4, 3⟩
def exp : Expert := ⟨0x4000, 64, sha384 (List.replicate 64 0), [(0, 5)], [(0, 700), (3, 9)]⟩
def a0 : Action := ⟨4, false, false, 7, 1, .queued, 0, 0, 0, 0, none, none, View.zero, View.zero⟩
def pl : State := { core0 with parts := [(0, { part0 with regions := [(3, regT)], place := { Place.blank with policy := some pol0, region := 3, experts := [(7, exp)], actions := [a0] } })] , time := 5 }
def hd (dg : List Byte) : List Byte := wordBytes [w64 (2 ^ 48), 128, 7, 0, 0, 0, 0, 0] ++ dg ++ List.replicate 16 0
def dg := sha384 (hd (List.replicate 48 0))
def cr : State := { core0 with mem := core0.mem.writeAll 0x110000 (hd dg), launches := [(0, { launch0 with status := .saved, ident := 7, digest := some dg })], saved := [(0, default)], ctxJobs := [⟨true, 9, 0, 64, 5, 0x3000, 0, 0⟩] }
def mwL : State := { (State.reset.withFetchWord 64 0x12345678FCE00000) with agenda := [] }

theorem witness_MatrixInstructions_5 :
    let inst : Inst := (esT (eM 14 0 (node true 4 2 3)) (m1 0)).issue.insts.headD default
    let v : Elem := ((esT (eM 14 0 (node true 4 2 3)) (m1 0)).elem? (esT (eM 14 0 (node true 4 2 3)) (m1 0)).issue.x (esT (eM 14 0 (node true 4 2 3)) (m1 0)).issue.e).getD default
    let nd : Node := (exOf (mmaCheck 0 (ew 1 false false 0 33040 0 4097) (esT (eM 14 0 (node true 4 2 3)) (m1 0)).issue.e v inst) default).1
    let ka : ℕ := (exOf (mmaCheck 0 (ew 1 false false 0 33040 0 4097) (esT (eM 14 0 (node true 4 2 3)) (m1 0)).issue.e v inst) default).2.1
    let kb : Option ℕ := (exOf (mmaCheck 0 (ew 1 false false 0 33040 0 4097) (esT (eM 14 0 (node true 4 2 3)) (m1 0)).issue.e v inst) default).2.2
    let nd5 : Node := (exOf (mmaCheck (mmgOf (ew 1 false false 0 33040 0 4097)).wkind (ew 1 false false 0 33040 0 4097) (esT (eM 14 0 (node true 4 2 3)) (m1 0)).issue.e { v with mmgSent := Table.erase inst.slot v.mmgSent } inst) default).1
    let kb7 : Option ℕ := (exOf (mmaCheck (mmgOf (ew 1 false false 0 33040 0 4097)).wkind (ew 1 false false 0 33040 0 4097) (esT (eM 14 0 (node true 4 2 3)) (m1 0)).issue.e { v with mmgSent := Table.erase inst.slot v.mmgSent } inst) default).2.2
    let ka6 : ℕ := (exOf (mmaCheck (mmgOf (ew 1 false false 0 33040 0 4097)).wkind (ew 1 false false 0 33040 0 4097) (esT (eM 14 0 (node true 4 2 3)) (m1 0)).issue.e { v with mmgSent := Table.erase inst.slot v.mmgSent } inst) default).2.1
    mmaCheck 0 (ew 1 false false 0 33040 0 4097) (esT (eM 14 0 (node true 4 2 3)) (m1 0)).issue.e v inst = Except.ok (nd, ka, kb) ∧
      mmaCheck (mmgOf (ew 1 false false 0 33040 0 4097)).wkind (ew 1 false false 0 33040 0 4097) (esT (eM 14 0 (node true 4 2 3)) (m1 0)).issue.e { v with mmgSent := Table.erase inst.slot v.mmgSent } inst = Except.ok (nd5, ka6, kb7) ∧
      (esT (eM 14 0 (node true 4 2 3)) (m1 0)).issue.insts = [inst] ∧
      (esT (eM 14 0 (node true 4 2 3)) (m1 0)).elem? (esT (eM 14 0 (node true 4 2 3)) (m1 0)).issue.x (esT (eM 14 0 (node true 4 2 3)) (m1 0)).issue.e = some v ∧
      (mmgOf (ew 1 false false 0 33040 0 4097)).member = true :=
  ⟨(exOk_of (by decide +kernel) default), (exOk_of (by decide +kernel) default), by decide +kernel⟩

theorem witness_MatrixInstructions_6 :
    let inst : Inst := (esT (eM 14 0 (node true 4 2 3)) (m1 0)).issue.insts.headD default
    let v : Elem := ((esT (eM 14 0 (node true 4 2 3)) (m1 0)).elem? (esT (eM 14 0 (node true 4 2 3)) (m1 0)).issue.x (esT (eM 14 0 (node true 4 2 3)) (m1 0)).issue.e).getD default
    let nd5 : Node := (exOf (mmaCheck (mmgOf (ew 1 false false 0 33040 0 257)).wkind (ew 1 false false 0 33040 0 257) (esT (eM 14 0 (node true 4 2 3)) (m1 0)).issue.e v inst) default).1
    let kb7 : Option ℕ := (exOf (mmaCheck (mmgOf (ew 1 false false 0 33040 0 257)).wkind (ew 1 false false 0 33040 0 257) (esT (eM 14 0 (node true 4 2 3)) (m1 0)).issue.e v inst) default).2.2
    let ka6 : ℕ := (exOf (mmaCheck (mmgOf (ew 1 false false 0 33040 0 257)).wkind (ew 1 false false 0 33040 0 257) (esT (eM 14 0 (node true 4 2 3)) (m1 0)).issue.e v inst) default).2.1
    mmaCheck (mmgOf (ew 1 false false 0 33040 0 257)).wkind (ew 1 false false 0 33040 0 257) (esT (eM 14 0 (node true 4 2 3)) (m1 0)).issue.e v inst = Except.ok (nd5, ka6, kb7) ∧
      (esT (eM 14 0 (node true 4 2 3)) (m1 0)).issue.insts = [inst] ∧
      (esT (eM 14 0 (node true 4 2 3)) (m1 0)).elem? (esT (eM 14 0 (node true 4 2 3)) (m1 0)).issue.x (esT (eM 14 0 (node true 4 2 3)) (m1 0)).issue.e = some v ∧
      (mmgOf (ew 1 false false 0 33040 0 257)).member = false ∧
      mmgOthers (esT (eM 14 0 (node true 4 2 3)) (m1 0)).issue.e (mmgOf (ew 1 false false 0 33040 0 257)) ≠ [] ∧
      crowdedOut (esT (eM 14 0 (node true 4 2 3)) (m1 0)).issue.x (fabricUnit (esT (eM 14 0 (node true 4 2 3)) (m1 0)).issue.x (esT (eM 14 0 (node true 4 2 3)) (m1 0)).issue.e) (mmaRun (mmgOf (ew 1 false false 0 33040 0 257)).wkind (ew 1 false false 0 33040 0 257) (elemKeys (esT (eM 14 0 (node true 4 2 3)) (m1 0)) (esT (eM 14 0 (node true 4 2 3)) (m1 0)).issue.x (esT (eM 14 0 (node true 4 2 3)) (m1 0)).issue.e) v nd5 (v.tile ka6) (Option.map v.tile kb7) inst).2 (esT (eM 14 0 (node true 4 2 3)) (m1 0)) = [] :=
  ⟨(exOk_of (by decide +kernel) default), by decide +kernel⟩

theorem witness_LoadOperators_3 :
    let im : OpImage := ((operOn 0 0 1 tf3).getD default).1
    let v : Oper := ((operOn 0 0 1 tf3).getD default).2
    let c : Token := (v.head 1).getD default
    let a : Token := (Option.map (fedBy tf3 0 im) (v.head 0)).getD default
    let e : ℕ := ((creditTile tf3 0 im c).getD default).1
    let tile : Tile := ((creditTile tf3 0 im c).getD default).2.2
    let k : ℕ := ((creditTile tf3 0 im c).getD default).2.1
    let s1 : State := landed (gotOf (loadFetch 0 0 im a tf3)) State.reset
    let bs : List Byte := valueOf (gotOf (loadFetch 0 0 im a tf3)) default
    loadFetch 0 0 im a tf3 = Fetched.got (Got.ok bs s1) ∧
      operOn 0 0 1 tf3 = some (im, v) ∧
      Option.map (fedBy tf3 0 im) (v.head 0) = some a ∧
      im.field 0 6 6 = 1 ∧
      v.head 1 = some c ∧
      creditTile tf3 0 im c = some (e, k, tile) ∧
      v.fillRow + 1 = tile.rows ∧
      roomForAll 0 (operOut im.out0 { a with kind := kTile, eod := 0, value := c.value, after := (v.fillView.join a.after).join c.after }) tf3 = true :=
  ⟨(got_of (by decide +kernel) default State.reset), by decide +kernel⟩

theorem witness_StoreOperators_4 :
    let im : OpImage := ((operOn 0 0 2 sf).getD default).1
    let v : Oper := ((operOn 0 0 2 sf).getD default).2
    let a : Token := (v.head 0).getD default
    let d : Token := (v.head 1).getD default
    let tok : Token := { a with after := a.after.join d.after }
    let s1 : State := landed ((appendFifo 0 0 im tok d (leBytes im.accessBytes (BitVec.toNat d.value)) sf).getD (.stop sf)) State.reset
    appendFifo 0 0 im tok d (leBytes im.accessBytes (BitVec.toNat d.value)) sf = some (Got.ok () s1) ∧
      operOn 0 0 2 sf = some (im, v) ∧
      v.head 0 = some a ∧
      v.head 1 = some d ∧
      im.field 0 2 0 = 3 :=
  ⟨(okSome_of () (by decide +kernel)), by decide +kernel⟩

theorem witness_VersionOperators_4 :
    let l : ℕ := ((stripePart vld2 0).getD default).2
    let part : ℕ := ((stripePart vld2 0).getD default).1
    let im : OpImage := ((operOn 0 0 5 vld2).getD default).1
    let tok : Token := { Sys2Proof.Tests.tok 0 with after := (Sys2Proof.Tests.tok 0).after.join (if (im.field 0 0 0 == 1) = true then Token.blank else Sys2Proof.Tests.tok 3).after }
    stripePart vld2 0 = some (part, l) ∧
      ((vld2.oper? 0 0).getD default).parked = false ∧
      ((vld2.oper? 0 0).getD default).head 0 = some (Sys2Proof.Tests.tok 0) ∧
      operOn 0 0 5 vld2 = some (im, (vld2.oper? 0 0).getD default) ∧
      ((im.field 0 0 0 == 1) = false → ((vld2.oper? 0 0).getD default).head 1 = some (Sys2Proof.Tests.tok 3)) ∧
      ((vld2.oper? 0 0).getD default).vdata ≠ [] ∧
      roomForAll 0 (List.flatMap (fun y => operOut im.out0 { Sys2Proof.Tests.tok 0 with kind := kData, eod := 0, value := y, after := tok.after.join ((vld2.oper? 0 0).getD default).vview }) ((vld2.oper? 0 0).getD default).vdata) vld2 = true :=
  by decide +kernel

theorem witness_StreamOperators_6 :
    let v : Oper := ((operOn 0 0 8 (ac 3 [tok 5] [tok 2] [(2, 10, 1, View.zero)])).getD default).2
    let im : OpImage := ((operOn 0 0 8 (ac 3 [tok 5] [tok 2] [(2, 10, 1, View.zero)])).getD default).1
    let t : Token := (firstOfRoute v 0 0).getD default
    let c : Token := ((releaseCount v t.route).getD default).2
    let j : ℕ := ((releaseCount v t.route).getD default).1
    operOn 0 0 8 (ac 3 [tok 5] [tok 2] [(2, 10, 1, View.zero)]) = some (im, v) ∧
      firstOfRoute v 0 0 = some t ∧
      im.field 0 31 16 = 0 ∧
      releaseCount v t.route = some (j, c) ∧
      c.value ≠ 0 ∧
      (accumPartial im v t.route.toNat).2.1 + 1 = BitVec.toNat c.value ∧
      roomForAll 0 (operOut im.out0 t) (ac 3 [tok 5] [tok 2] [(2, 10, 1, View.zero)]) = true :=
  by decide +kernel

theorem witness_StreamOperators_7 :
    let v : Oper := ((operOn 0 0 8 (ac 3 [tok 5] [tok 0] [])).getD default).2
    let im : OpImage := ((operOn 0 0 8 (ac 3 [tok 5] [tok 0] [])).getD default).1
    let t : Token := (firstOfRoute v 1 0).getD default
    operOn 0 0 8 (ac 3 [tok 5] [tok 0] []) = some (im, v) ∧
      firstOfRoute v 1 0 = some t ∧
      im.field 0 31 16 = 0 ∧
      t.value = 0 ∧
      (accumPartial im v t.route.toNat).2.1 = 0 ∧
      roomForAll 0 (operOut im.out0 t) (ac 3 [tok 5] [tok 0] []) = true :=
  by decide +kernel

theorem witness_RunsScroll_5 :
    let r : Run := (Table.find 5 sP.runs).getD default
    let v : Launch := (Table.find r.launch sP.launches).getD default
    Table.find 5 sP.runs = some r ∧
      Table.find r.launch sP.launches = some v ∧
      boundaryReady sP r = true ∧
      r.image.pinned = true ∧
      r.vcount ≤ r.step + 1 ∧
      firstInLine sP r = true :=
  by decide +kernel

theorem witness_ContextsAreSavedAndRestored_4 :
    let ctx : SavedContext := (Table.find 0 (findImage 12288 cr.launches cr).2.saved).getD default
    List.find? (fun i => i.restore && i.launch == 9) cr.ctxJobs = some { restore := true, launch := 9, owner := 0, core := 64, ticket := 5, addr := 12288, ident := 0, size := 0 } ∧
      findImage ({ restore := true, launch := (9 : ℕ), owner := (0 : ℕ), core := (64 : ℕ), ticket := (5 : BitVec (16 : ℕ)), addr := (12288 : Word), ident := (0 : Word), size := (0 : ℕ) } : CtxJob).addr cr.launches cr = (ImageFound.saved (0 : ℕ) { launch0 with ident := (7 : Word), status := LaunchStatus.saved, digest := some dg } (0 : ℕ) (128 : ℕ), (findImage (12288 : Word) cr.launches cr).2) ∧
      rectFree (findImage (12288 : Word) cr.launches cr).2 { launch0 with ident := (7 : Word), status := LaunchStatus.saved, digest := some dg }.xbase { launch0 with ident := (7 : Word), status := LaunchStatus.saved, digest := some dg }.xext = true ∧
      Table.find 0 (findImage 12288 cr.launches cr).2.saved = some ctx :=
  by decide +kernel

theorem witness_PlacementActionsRun_4 :
    let r : Region := (pl.table? 0).getD default
    let pol : Policy := (pl.part 0).place.policy.getD default
    let a : Machine.Action := (action? pl 0 4).getD default
    let ws : List ℕ := (entryWords r a.expert (r.gran 0).latest pl).1
    let s1 : State := (entryWords r a.expert (r.gran 0).latest pl).2
    let w : ℕ := ((List.find? (fun m => m.2 == a.die) (locations ws)).getD default).2
    let k : ℕ := ((List.find? (fun m => m.2 == a.die) (locations ws)).getD default).1
    (pl.part 0).place.policy = some pol ∧
      action? pl 0 4 = some a ∧
      pl.table? 0 = some r ∧
      a.state = ActState.queued ∧
      a.issue = 4 ∧
      pl.wqueue = [] ∧
      (List.filter (fun b => b.state != ActState.queued) (pl.part 0).place.actions).length < pol.maxAct ∧
      (∀ b ∈ List.takeWhile (fun b => b.issue != 4) (pl.part 0).place.actions, b.expert ≠ a.expert ∧ (b.state = ActState.queued → ∃ e ∈ List.takeWhile (fun e => e.issue != b.issue) (pl.part 0).place.actions, e.expert = b.expert)) ∧
      homeLost pl r = false ∧
      (∀ u ∈ (r.gran (a.expert + 1)).versions, heapFails pl r (a.expert + 1) u.1 = false) ∧
      entryWords r a.expert (r.gran 0).latest pl = (ws, s1) ∧
      s1.parts = pl.parts ∧
      a.add = false ∧
      List.find? (fun m => m.2 == a.die) (locations ws) = some (k, w) ∧
      k ≠ 0 :=
  by decide +kernel

theorem witness_LaunchesRun_5 :
    let v : Launch := (Table.find 0 hl.launches).getD default
    Table.find 0 hl.launches = some v ∧
      v.heldOwed = true ∧
      v.status ≠ LaunchStatus.halting :=
  by decide +kernel

theorem witness_JoinCountsDown_2 :
    let v : Launch := (Table.find 0 csJ1.launches).getD default
    let s1 : State := landed (access (csJ1.g 3) 16 Cls.rw csJ1) State.reset
    let pa : ℕ := valueOf (access (csJ1.g 3) 16 Cls.rw csJ1) 0
    let s2 : State := landed (loadPages 2 (BitVec.ofNat 64 (leNat (peek csJ1 (pa + 8) 8))) 32 s1) State.reset
    let bs : List Byte := valueOf (loadPages 2 (BitVec.ofNat 64 (leNat (peek csJ1 (pa + 8) 8))) 32 s1) default
    csJ1.Inv ∧
      Quiet csJ1 ∧
      Lands (csJ1.g 3) 16 Cls.rw csJ1 pa s1 ∧
      loadPages 2 (BitVec.ofNat 64 (leNat (peek csJ1 (pa + 8) 8))) 32 s1 = Got.ok bs s2 ∧
      s2.Inv ∧
      csJ1.core < 64 ∧
      csJ1.th.launch = some 0 ∧
      Table.find 0 csJ1.launches = some v ∧
      launchHasDie v (homeDie pa) = true ∧
      readFails csJ1 pa 16 = false ∧
      leNat (peek csJ1 pa 8) = 1 ∧
      (BitVec.ofNat 64 (leNat (peek csJ1 (pa + 8) 8))).toNat % 8 = 0 ∧
      BitVec.toNat (nth (bytesWords 4 bs) 0 0) % 4 = 0 ∧
      queueLength s2 0 (homeDie pa) (BitVec.getLsbD (nth (bytesWords 4 bs) 2 0) 0) < 65536 ∧
      s2.th.id < s2.nextThread ∧
      Table.find 0 s2.launches = some v :=
  ⟨(by show (_ = true); decide +kernel), (by unfold Quiet; decide +kernel), (lands_of (by decide +kernel) (by decide +kernel)), (ok_of (by decide +kernel) default State.reset), (by show (_ = true); decide +kernel), by decide +kernel⟩

theorem witness_FetchReadsTheWord_2 :
    let s12 : State := landed (fetchWord mwL.th.pc mwL) State.reset
    let w0 : BitVec 32 := valueOf (fetchWord mwL.th.pc mwL) default
    let s2 : State := landed (fetchWord (mwL.th.pc + 4) s12) State.reset
    let w1 : BitVec 32 := valueOf (fetchWord (mwL.th.pc + 4) s12) default
    fetchWord mwL.th.pc mwL = Got.ok w0 s12 ∧
      fetchWord (mwL.th.pc + 4) s12 = Got.ok w1 s2 ∧
      w0.toNat / 2 ^ 26 = 63 :=
  ⟨(ok_of (by decide +kernel) default State.reset), (ok_of (by decide +kernel) default State.reset), by decide +kernel⟩

end Case30

namespace Case31

open Says

def cs := withRegs core0 [(1, 0x10), (2, 2), (3, 0x1008)]
def blk (w : Wait) : State := { cs with th := { cs.th with status := .blocked w, home := some 0, trapVec := 0x100 }, cores := [], time := 50 }
def rec0 : EvRecord := ⟨0, 3, 0, 1, 0, 7, 8, 9, View.zero⟩
def bE (w : Wait) : State := let s := blk w; s.putCtx { s.ctx with events := [rec0] }
def run0 : Run := { (default : Run) with image := ⟨false, [StripeImage.blank]⟩, ticket := 4, status := .ended, result := 0x19 }
def bR (w : Wait) : State := { blk w with runs := [(5, run0)] }
def bF (w : Wait) : State := { blk w with launches := [(0, launch0.setDie 0 { LaunchDie.blank with fifos := [(3, ⟨false, 0, 0, 256, 0, 40, 8, false, true, View.zero⟩)] })] }

theorem witness_WaitsEnd_3 :
    let deadline : Option ℕ := none
    let w : Wait := Wait.evwait 9 0 deadline
    let r : EvRecord := (oldestRecord (bE w)).getD default
    let v : Launch := (Table.find 0 (bE w).launches).getD default
    (bE w).th.launch = some 0 ∧
      Table.find 0 (bE w).launches = some v ∧
      (bE w).th.home = some (bE w).core ∧
      (bE w).th.status = ThreadStatus.blocked w ∧
      w = Wait.evwait 9 0 deadline ∧
      oldestRecord (bE w) = some r ∧
      r.view = View.zero :=
  by decide +kernel

theorem witness_WaitsEnd_4 :
    let id : ℕ := 5
    let w : Wait := Wait.segwait 9 id none
    let r : Run := (Table.find id (bR w).runs).getD default
    let v : Launch := (Table.find 0 (bR w).launches).getD default
    (bR w).th.launch = some 0 ∧
      Table.find 0 (bR w).launches = some v ∧
      (bR w).th.home = some (bR w).core ∧
      (bR w).th.status = ThreadStatus.blocked w ∧
      Table.find id (bR w).runs = some r ∧
      r.status = RunStatus.ended :=
  by decide +kernel

theorem witness_WaitsEnd_5 :
    let w : Wait := Wait.vstDone
    let v : Launch := (Table.find 0 (blk w).launches).getD default
    (blk w).th.launch = some 0 ∧
      Table.find 0 (blk w).launches = some v ∧
      (blk w).th.home = some (blk w).core ∧
      (blk w).th.status = ThreadStatus.blocked w :=
  by decide +kernel

theorem witness_WaitsEnd_6 :
    let why : ℕ := 2
    let arg : ℕ := 0
    let w : Wait := Wait.again why arg
    let v : Launch := (Table.find arg (blk w).launches).getD default
    (blk w).th.launch = some arg ∧
      Table.find arg (blk w).launches = some v ∧
      (blk w).th.home = some (blk w).core ∧
      (blk w).th.status = ThreadStatus.blocked w ∧
      waitOver w (blk w) = true :=
  by decide +kernel

theorem witness_WaitsEnd_7 :
    let pa : ℕ := 1114112
    let va : Word := 12288
    let gen : BitVec 32 := 9
    let w : Wait := Wait.bar va pa gen
    let v : Launch := (Table.find 0 (blk w).launches).getD default
    (blk w).th.launch = some 0 ∧
      Table.find 0 (blk w).launches = some v ∧
      (blk w).th.home = some (blk w).core ∧
      (blk w).th.status = ThreadStatus.blocked w ∧
      leNat (peek (blk w) (pa + 4) 4) ≠ gen.toNat :=
  by decide +kernel

theorem witness_WaitsEnd_8 :
    let job : ℕ := 3
    let w : Wait := Wait.flsig 9 job
    let v : Launch := (Table.find 0 (blk w).launches).getD default
    (blk w).th.launch = some 0 ∧
      Table.find 0 (blk w).launches = some v ∧
      (blk w).th.home = some (blk w).core ∧
      (blk w).th.status = ThreadStatus.blocked w ∧
      ((blk w).flushes.any fun j => j.id == job && !j.done) = false :=
  by decide +kernel

theorem witness_WaitsEnd_9 :
    let part : ℕ := 0
    let n : ℕ := 2
    let w : Wait := Wait.plsync 9 part n
    let v : Launch := (Table.find part (blk w).launches).getD default
    (blk w).th.launch = some part ∧
      Table.find part (blk w).launches = some v ∧
      (blk w).th.home = some (blk w).core ∧
      (blk w).th.status = ThreadStatus.blocked w ∧
      actionsBefore (blk w) part n = false :=
  by decide +kernel

theorem witness_WaitsEnd_10 :
    let id : ℕ := 5
    let w : Wait := Wait.segrun 9 id
    let r : Run := (Table.find id (bR w).runs).getD default
    let v : Launch := (Table.find 0 (bR w).launches).getD default
    (bR w).th.launch = some 0 ∧
      Table.find 0 (bR w).launches = some v ∧
      (bR w).th.home = some (bR w).core ∧
      (bR w).th.status = ThreadStatus.blocked w ∧
      Table.find id (bR w).runs = some r ∧
      r.ticket ≠ 0 :=
  by decide +kernel

theorem witness_WaitsEnd_11 :
    let c : ℕ := cMISSVER
    let x : Word := 7
    let w : Wait := Wait.missver x
    let v : Launch := (Table.find 0 (blk w).launches).getD default
    (blk w).th.launch = some 0 ∧
      Table.find 0 (blk w).launches = some v ∧
      (blk w).th.home = some (blk w).core ∧
      (blk w).th.status = ThreadStatus.blocked w ∧
      (blk w).th.inTrap = false ∧
      (blk w).th.trapVec ≠ 0 ∧
      (w = w ∧ c = c ∨ w = Wait.vstale x ∧ c = cVSTALE) :=
  by decide +kernel

theorem witness_WaitsEnd_12 :
    let f : ℕ := 3
    let w : Wait := Wait.strfree 9 f
    let v : Launch := (Table.find 0 (bF w).launches).getD default
    let x : Fifo := (Table.find f (v.die (bF w).th.die).fifos).getD default
    (bF w).th.launch = some 0 ∧
      Table.find 0 (bF w).launches = some v ∧
      (bF w).th.home = some (bF w).core ∧
      (bF w).th.status = ThreadStatus.blocked w ∧
      Table.find f (v.die (bF w).th.die).fifos = some x ∧
      x.bound = true ∧
      fifoNamed (bF w) 0 (bF w).th.die f = false :=
  by decide +kernel

end Case31

namespace Case32

open Says

abbrev k0 : Keys := ⟨false,false,false,false⟩
abbrev k1 : Keys := ⟨true,true,true,true⟩

theorem witness_ArithmeticRoundsOnce_1 :
    4 ≤ 4 ∧
      ((ffFmt Fmt.f32).val ((ffFmt Fmt.f32).flushIn k0.fsi 2139095039)).finite = true ∧
      ((ffFmt Fmt.f32).val ((ffFmt Fmt.f32).flushIn k0.fsi 1929379840)).finite = true :=
  by decide +kernel

theorem witness_ArithmeticRoundsOnce_2 :
    0 ≤ 4 ∧
      ((ffFmt Fmt.f32).val ((ffFmt Fmt.f32).flushIn k0.fsi 1)).finite = true ∧
      ((ffFmt Fmt.f32).val ((ffFmt Fmt.f32).flushIn k0.fsi 2147483649)).finite = true :=
  by decide +kernel

theorem witness_ArithmeticRoundsOnce_3 :
    1 ≤ 4 ∧
      ((ffFmt Fmt.bf16).val ((ffFmt Fmt.bf16).flushIn k0.fsi 1)).finite = true ∧
      ((ffFmt Fmt.bf16).val ((ffFmt Fmt.bf16).flushIn k0.fsi 16128)).finite = true :=
  by decide +kernel

theorem witness_ArithmeticRoundsOnce_4 :
    0 ≤ 4 ∧
      ((ffFmt Fmt.f32).val ((ffFmt Fmt.f32).flushIn k0.fsi 2139095040)).isInf = true ∧
      (((ffFmt Fmt.f32).val ((ffFmt Fmt.f32).flushIn k0.fsi 2139095039)).finite = true ∨ (ffFmt Fmt.f32).val ((ffFmt Fmt.f32).flushIn k0.fsi 2139095039) = (ffFmt Fmt.f32).val ((ffFmt Fmt.f32).flushIn k0.fsi 2139095040)) :=
  by decide +kernel

theorem witness_ArithmeticRoundsOnce_5 :
    0 ≤ 4 ∧
      ((ffFmt Fmt.f32).val ((ffFmt Fmt.f32).flushIn k0.fsi 2139095040)).isInf = true ∧
      (ffFmt Fmt.f32).val ((ffFmt Fmt.f32).flushIn k0.fsi 4286578688) = ((ffFmt Fmt.f32).val ((ffFmt Fmt.f32).flushIn k0.fsi 2139095040)).neg :=
  by decide +kernel

theorem witness_ArithmeticRoundsOnce_6 :
    0 ≤ 4 ∧
      ((ffFmt Fmt.f32).val ((ffFmt Fmt.f32).flushIn k0.fsi 2139095040)).isInf = true ∧
      (((ffFmt Fmt.f32).val ((ffFmt Fmt.f32).flushIn k0.fsi 4286578688)).finite = true ∨ (ffFmt Fmt.f32).val ((ffFmt Fmt.f32).flushIn k0.fsi 4286578688) = ((ffFmt Fmt.f32).val ((ffFmt Fmt.f32).flushIn k0.fsi 2139095040)).neg) :=
  by decide +kernel

theorem witness_ArithmeticRoundsOnce_7 :
    0 ≤ 4 ∧
      ((ffFmt Fmt.f32).val ((ffFmt Fmt.f32).flushIn k0.fsi 4286578688)).isInf = true :=
  by decide +kernel

theorem witness_ArithmeticRoundsOnce_8 :
    0 ≤ 4 ∧
      ((ffFmt Fmt.f16).val ((ffFmt Fmt.f16).flushIn k0.fsi 31744)).isInf = true ∧
      ((ffFmt Fmt.f16).val ((ffFmt Fmt.f16).flushIn k0.fsi 32768)).isZero = true :=
  by decide +kernel

theorem witness_ArithmeticRoundsOnce_9 :
    2 ≤ 4 ∧
      ((ffFmt Fmt.f16).val ((ffFmt Fmt.f16).flushIn k0.fsi 31743)).finite = true ∧
      ((ffFmt Fmt.f16).val ((ffFmt Fmt.f16).flushIn k0.fsi 15361)).finite = true ∧
      ((ffFmt Fmt.f16).val ((ffFmt Fmt.f16).flushIn k0.fsi 32769)).finite = true :=
  by decide +kernel

theorem witness_ArithmeticRoundsOnce_10 :
    0 ≤ 4 ∧
      ((ffFmt Fmt.f16).val ((ffFmt Fmt.f16).flushIn k0.fsi 31744)).isInf = true ∧
      ((ffFmt Fmt.f16).val ((ffFmt Fmt.f16).flushIn k0.fsi 1)).isNan = false ∧
      ((ffFmt Fmt.f16).val ((ffFmt Fmt.f16).flushIn k0.fsi 1)).isZero = false :=
  by decide +kernel

theorem witness_ArithmeticRoundsOnce_11 :
    0 ≤ 4 ∧
      ((ffFmt Fmt.f16).val ((ffFmt Fmt.f16).flushIn k0.fsi 31744)).isInf = true ∧
      ((ffFmt Fmt.f16).val ((ffFmt Fmt.f16).flushIn k0.fsi 1)).isNan = false ∧
      ((ffFmt Fmt.f16).val ((ffFmt Fmt.f16).flushIn k0.fsi 1)).isZero = false ∧
      (((ffFmt Fmt.f16).val ((ffFmt Fmt.f16).flushIn k0.fsi (31744 : ℕ))).finite = true ∨   (ffFmt Fmt.f16).val ((ffFmt Fmt.f16).flushIn k0.fsi (31744 : ℕ)) =     FVal.inf       ((match (ffFmt Fmt.f16).val ((ffFmt Fmt.f16).flushIn k0.fsi (31744 : ℕ)) with         | FVal.fin n m e => n         | FVal.inf n => n         | FVal.nan signalling => false) !=         match (ffFmt Fmt.f16).val ((ffFmt Fmt.f16).flushIn k0.fsi (1 : ℕ)) with         | FVal.fin n m e => n         | FVal.inf n => n         | FVal.nan signalling => false)) :=
  by decide +kernel

theorem witness_ArithmeticRoundsOnce_12 :
    0 ≤ 4 ∧
      ((ffFmt Fmt.f16).val ((ffFmt Fmt.f16).flushIn k0.fsi 31744)).isInf = true ∧
      ((ffFmt Fmt.f16).val ((ffFmt Fmt.f16).flushIn k0.fsi 1)).isNan = false ∧
      ((ffFmt Fmt.f16).val ((ffFmt Fmt.f16).flushIn k0.fsi 1)).isZero = false ∧
      (ffFmt Fmt.f16).val ((ffFmt Fmt.f16).flushIn k0.fsi (64512 : ℕ)) =   (FVal.inf       ((match (ffFmt Fmt.f16).val ((ffFmt Fmt.f16).flushIn k0.fsi (31744 : ℕ)) with         | FVal.fin n m e => n         | FVal.inf n => n         | FVal.nan signalling => false) !=         match (ffFmt Fmt.f16).val ((ffFmt Fmt.f16).flushIn k0.fsi (1 : ℕ)) with         | FVal.fin n m e => n         | FVal.inf n => n         | FVal.nan signalling => false)).neg :=
  by decide +kernel

theorem witness_ComparisonsOrderNumbers_1 :
    let m : Bool := bit ((ffOf 9).flushIn k0.fsi 64512) ((ffOf 9).w - 1)
    9 ∈ [8, 9, 10] ∧
      0 < 6 ∧
      (ffOf 9).val ((ffOf 9).flushIn k0.fsi 64512) = FVal.inf m :=
  by decide +kernel

theorem witness_ComparisonsOrderNumbers_2 :
    10 ∈ [8, 9, 10] ∧
      5 < 6 ∧
      (((ffOf 10).val ((ffOf 10).flushIn k1.fsi 2139095041)).isNan = true ∨ ((ffOf 10).val ((ffOf 10).flushIn k1.fsi 0)).isNan = true) :=
  by decide +kernel

theorem witness_ComparisonsOrderNumbers_3 :
    10 ∈ [8, 9, 10] ∧
      2 < 6 ∧
      ((ffOf 10).val ((ffOf 10).flushIn k0.fsi 2139095039)).finite = true ∧
      ((ffOf 10).val ((ffOf 10).flushIn k0.fsi 2147483649)).finite = true :=
  by decide +kernel

theorem witness_ComparisonsOrderNumbers_4 :
    let n : Bool := bit ((ffOf 8).flushIn k0.fsi 32640) ((ffOf 8).w - 1)
    8 ∈ [8, 9, 10] ∧
      5 < 6 ∧
      (ffOf 8).val ((ffOf 8).flushIn k0.fsi 32640) = FVal.inf n ∧
      ((ffOf 8).val ((ffOf 8).flushIn k0.fsi 32639)).finite = true :=
  by decide +kernel

theorem witness_ComparisonsOrderNumbers_5 :
    let n : Bool := bit ((ffOf 9).flushIn k0.fsi 64512) ((ffOf 9).w - 1)
    9 ∈ [8, 9, 10] ∧
      4 < 6 ∧
      ((ffOf 9).val ((ffOf 9).flushIn k0.fsi 64511)).finite = true ∧
      (ffOf 9).val ((ffOf 9).flushIn k0.fsi 64512) = FVal.inf n :=
  by decide +kernel

theorem witness_ConversionsRoundOnce_1 :
    0 ≤ 4 ∧
      2 < 2 ^ laneWidth 14 ∧
      8 ≤ 13 ∧
      13 ≤ 13 :=
  by decide +kernel

theorem witness_ConversionsRoundOnce_2 :
    let x : ℚ := ↑(laneVal 2 0 4294967295#64)
    4 ≤ 4 ∧
      4294967295 < 2 ^ laneWidth 2 ∧
      8 ≤ 13 ∧
      13 ≤ 13 ∧
      (2 < 8 ∧ x = x ∨ (8 ≤ 2 ∧ 2 ≤ 13) ∧ ((ffOf 2).val ((ffOf 2).flushIn k0.fsi 4294967295)).finite = true ∧ x = ((ffOf 2).val ((ffOf 2).flushIn k0.fsi 4294967295)).number) ∧
      x ≠ 0 :=
  by decide +kernel

theorem witness_ConversionsRoundOnce_3 :
    0 ≤ 4 ∧
      2 < 2 ^ laneWidth 14 :=
  by decide +kernel

theorem witness_ConversionsRoundOnce_4 :
    0 ≤ 4 ∧
      18446744073709551615 < 2 ^ laneWidth 3 ∧
      3 < 8 ∧
      2 < 8 :=
  by decide +kernel

theorem witness_ConversionsRoundOnce_5 :
    let x : ℚ := ↑(laneVal 3 0 9223372036854775808#64)
    0 ≤ 4 ∧
      9223372036854775808 < 2 ^ laneWidth 3 ∧
      (3 < 8 ∧ x = x ∨ (8 ≤ 3 ∧ 3 ≤ 13) ∧ ((ffOf 3).val ((ffOf 3).flushIn k1.fsi 9223372036854775808)).finite = true ∧ x = ((ffOf 3).val ((ffOf 3).flushIn k1.fsi 9223372036854775808)).number) :=
  by decide +kernel

theorem witness_ConversionsRoundOnce_6 :
    3 ≤ 4 ∧
      32641 < 2 ^ laneWidth 8 ∧
      5 < 8 ∧
      (8 ≤ 8 ∧ 8 ≤ 13) ∧
      ((ffOf 8).val ((ffOf 8).flushIn k1.fsi 32641)).isNan = true :=
  by decide +kernel

theorem witness_ConversionsRoundOnce_7 :
    let n : Bool := bit ((ffOf 10).flushIn k1.fsi 4286578688) ((ffOf 10).w - 1)
    3 ≤ 4 ∧
      4286578688 < 2 ^ laneWidth 10 ∧
      1 < 8 ∧
      (8 ≤ 10 ∧ 10 ≤ 13) ∧
      (ffOf 10).val ((ffOf 10).flushIn k1.fsi 4286578688) = FVal.inf n :=
  by decide +kernel

theorem witness_ConversionsRoundOnce_8 :
    4 ≤ 4 ∧
      1132429312 < 2 ^ laneWidth 10 ∧
      4 < 8 ∧
      (8 ≤ 10 ∧ 10 ≤ 13) ∧
      ((ffOf 10).val ((ffOf 10).flushIn k1.fsi 1132429312)).finite = true :=
  by decide +kernel

theorem witness_ConversionsRoundOnce_9 :
    0 ≤ 4 ∧
      4290772992 < 2 ^ laneWidth 10 ∧
      (8 ≤ 10 ∧ 10 ≤ 13) ∧
      ((ffOf 10).val ((ffOf 10).flushIn k1.fsi 4290772992)).isNan = true :=
  by decide +kernel

theorem witness_ConversionsRoundOnce_10 :
    let n : Bool := bit ((ffOf 10).flushIn k1.fsi 4286578688) ((ffOf 10).w - 1)
    0 ≤ 4 ∧
      4286578688 < 2 ^ laneWidth 10 ∧
      (8 ≤ 10 ∧ 10 ≤ 13) ∧
      (ffOf 10).val ((ffOf 10).flushIn k1.fsi 4286578688) = FVal.inf n :=
  by decide +kernel

theorem witness_ConversionsRoundOnce_11 :
    0 ≤ 4 ∧
      3 < 2 ^ laneWidth 14 ∧
      3 < 8 ∧
      (3 ≠ 3 ∨ intMin 3 < 0) :=
  by decide +kernel

theorem witness_ConversionsRoundOnce_12 :
    0 ≤ 4 ∧
      0 < 2 ^ laneWidth 3 ∧
      8 ≤ 10 ∧
      10 ≤ 13 ∧
      3 < 8 ∧
      laneVal 3 0 0#64 = 0 :=
  by decide +kernel

theorem witness_ConversionsRoundOnce_13 :
    1 ≤ 4 ∧
      2147483648 < 2 ^ laneWidth 10 ∧
      8 ≤ 11 ∧
      11 ≤ 13 ∧
      (8 ≤ 10 ∧ 10 ≤ 13) ∧
      ((ffOf 10).val ((ffOf 10).flushIn k0.fsi 2147483648)).isZero = true :=
  by decide +kernel

theorem witness_ConversionsRoundOnce_14 :
    1 ≤ 4 ∧
      2139095041 < 2 ^ laneWidth 10 ∧
      8 ≤ 13 ∧
      13 ≤ 13 ∧
      (8 ≤ 10 ∧ 10 ≤ 13) ∧
      ((ffOf 10).val ((ffOf 10).flushIn k0.fsi 2139095041)).isNan = true :=
  by decide +kernel

theorem witness_ConversionsRoundOnce_15 :
    let n : Bool := bit ((ffOf 9).flushIn k1.fsi 64512) ((ffOf 9).w - 1)
    2 ≤ 4 ∧
      64512 < 2 ^ laneWidth 9 ∧
      8 ≤ 12 ∧
      12 ≤ 13 ∧
      (8 ≤ 9 ∧ 9 ≤ 13) ∧
      (ffOf 9).val ((ffOf 9).flushIn k1.fsi 64512) = FVal.inf n :=
  by decide +kernel

theorem witness_MemorySumsRoundOnce_1 :
    (ffF32.val 2139095039).finite = true ∧
      (ffF32.val 2139095039).number + (ffF32.val 2139095039).number ≠ 0 ∧
      ((ffBF16.val 2139095039).isNan = true ∨ (ffBF16.val 2139095039).isNan = true) :=
  by decide +kernel

theorem witness_MemorySumsRoundOnce_2 :
    (ffF32.val 2147483648).finite = true ∧
      (ffF32.val 2147483648).number + (ffF32.val 2147483648).number = 0 ∧
      (ffBF16.val 2147483648).finite = true ∧
      (ffBF16.val 2147483648).number + (ffBF16.val 2147483648).number = 0 :=
  by decide +kernel

theorem witness_MemorySumsRoundOnce_3 :
    ((ffF32.val 2139095041).isNan = true ∨ (ffF32.val 0).isNan = true) ∧
      (ffBF16.val 2139095041).finite = true ∧
      (ffBF16.val 0).finite = true ∧
      (ffBF16.val 2139095041).number + (ffBF16.val 0).number ≠ 0 :=
  by decide +kernel

theorem witness_MemorySumsRoundOnce_4 :
    (ffF32.val 4286578688).isInf = true ∧
      ((ffF32.val 4286578688).finite = true ∨ ffF32.val 4286578688 = ffF32.val 4286578688) :=
  by decide +kernel

theorem witness_MemorySumsRoundOnce_5 :
    (ffF32.val 4286578688).isInf = true ∧
      ffF32.val 2139095040 = (ffF32.val 4286578688).neg :=
  by decide +kernel

theorem witness_MemorySumsRoundOnce_6 :
    (ffBF16.val 65408).isInf = true ∧
      ((ffBF16.val 1).finite = true ∨ ffBF16.val 1 = ffBF16.val 65408) :=
  by decide +kernel

theorem witness_MemorySumsRoundOnce_7 :
    (ffBF16.val 65408).isInf = true ∧
      ffBF16.val 32640 = (ffBF16.val 65408).neg :=
  by decide +kernel

theorem witness_StochasticSumsDrawOnce_1 :
    (ffF32.val 2139095039).finite = true ∧
      (FVal.fin true 1 (-126)).finite = true ∧
      (2 : ℚ) ^ (-126 : ℤ) ≤ |(FVal.fin true (1 : ℕ) (-126 : ℤ)).number| ∧
      (ffF32.val 2139095039).number + (FVal.fin true 1 (-126)).number ≠ 0 :=
  by decide +kernel

theorem witness_SpecialFunctionValues_1 :
    8 ∈ [8, 9, 10] ∧
      (ffOf 8).val ((ffOf 8).flushIn k0.fsi 32640) = FVal.inf false :=
  by decide +kernel

theorem witness_SpecialFunctionValues_2 :
    10 ∈ [8, 9, 10] ∧
      (ffOf 10).val ((ffOf 10).flushIn k0.fsi 4286578688) = FVal.inf true :=
  by decide +kernel

theorem witness_SpecialFunctionValues_3 :
    let e : ℤ := (ffOf 10).qmin
    let n : Bool := bit ((ffOf 10).flushIn k1.fsi 2147483649) ((ffOf 10).w - 1)
    10 ∈ [8, 9, 10] ∧
      (ffOf 10).val ((ffOf 10).flushIn k1.fsi 2147483649) = FVal.fin n 0 e :=
  by decide +kernel

theorem witness_SpecialFunctionValues_4 :
    let e : ℤ := (ffOf 8).qmin
    let m : ℕ := (ffOf 8).flushIn k0.fsi 32769 % 2 ^ ((ffOf 8).w - 1) % 2 ^ (ffOf 8).m
    8 ∈ [8, 9, 10] ∧
      (ffOf 8).val ((ffOf 8).flushIn k0.fsi 32769) = FVal.fin true m e ∧
      m ≠ 0 :=
  by decide +kernel

theorem witness_SpecialFunctionValues_5 :
    let fn : ℕ := 7
    let sig : Bool := (ffOf 8).inf.isSome && !bit ((ffOf 8).flushIn k0.fsi 32641) ((ffOf 8).m - 1)
    8 ∈ [8, 9, 10] ∧
      fn < 8 ∧
      (ffOf 8).val ((ffOf 8).flushIn k0.fsi 32641) = FVal.nan sig :=
  by decide +kernel

end Case32

namespace Case33

open Says

def wAdd1 : BitVec 128 := 0x01600000843000000505050505050505
def hsx (p : Partition) : State := { core0 with launches := [], th := Thread.management 0, cores := [], parts := [(0, p)] }
def hsS : State := let s := hsx part0; { s with io := { s.io with stopped := true } }
def ib : Inbound := ⟨0, 5, some 0, 0x110000, 0x3000, List.replicate 128 3, none, true, false⟩
def er0 : State := { core0 with errors := [(0, 0x110000)], inbound := [ib] }
def er1 : State := { core0 with errors := [(0, 0x110000)], inbound := [{ ib with data := [1, 2, 3, 4] }] }
def sk (s : List SendJob) : State := operWith (opIm 4 (0x10000 + 15 + 0x100000) 0x1000 8 64 0) { Oper.blank with sends := s }
def sk1 := sk [⟨tok 0x10, 0x1FF8, List.replicate 16 7⟩]
def sk3 := sk [⟨tok 0x10, 0x1FF8, []⟩]
def slotAt (w : BitVec 128) : ElemImage := ⟨[(3, w)], 0, none, 0⟩
def A : StripeImage := { StripeImage.blank with elems := [(0, slotAt wAdd1)], stateful := some [33] }
def B : StripeImage := { StripeImage.blank with elems := [(2, slotAt wAdd1)] }
def fif : Fifo := ⟨false, 0, 0, 256, 0, 40, 8, false, true, View.zero⟩
def L2 : Launch := launch0.setDie 0 { launch0.die 0 with fifos := [(0, fif)] }
def cached : List (Nat × Nat × Nat × Nat × StripeImage) := [(0, 0, 7, 0, A), (0, 0, 7, 1, B), (0, 0, 7, 2, A)]
def rw : Run := { (default : Run) with image := ⟨false, [A, B, A]⟩, ident := 7, status := .waiting, width := 2, waves := 4 }
def s1 : State := { core0 with runs := [(5, rw)], launches := [(0, { L2 with nextTicket := 65535 })], ringCache := cached }
def fly (so : BitVec 2) (v : Word) : InFlight := ⟨3, { tok v with soff := so, target := 2, slot := 3 }, false⟩
def rr (w st : Nat) : Run := { rw with status := .running, width := w, step := st, stepOpen := true, ticket := 1, burstOf := [4, 4, 4] }
def stA (r : Nat) (k : Nat) : Stripe := { Stripe.blank with run := some r, vs := some k, image := (if k = 1 then B else A), elems := [(0, { Elem.blank with nodes := [(1, ⟨true, 4, 2, 2, [], [], 0, 0, 0, 0, 0, false⟩)] })], pass := [(33, [fly 1 4, fly 2 5]), (7, [fly 1 6, fly 2 7])] }
def sc (w st : Nat) (xs : List Nat) : State := { core0 with runs := [(5, rr w st)], launches := [(0, { L2 with nextTicket := 2 })], ringCache := cached, stripes := xs.map (fun x => (x, stA 5 x)) }
def sc1 : State := sc 2 1 [0, 1]
def sc3 : State := sc 3 2 [0, 1, 2]
def svd : SavedStripe := ⟨[(0, [(3, ⟨true, 4, 2, 2, [], [], 0, 0, 0, 0, 0, false⟩)])], [], [(33, [fly 1 9])]⟩
def sc4 : State := { sc 2 1 [0, 1] with runs := [(5, { rr 2 1 with saved := [(2, svd)] })] }

theorem witness_SendOperators_3 :
    let v : Oper := ((operOn 0 0 4 sk1).getD default).2
    let im : OpImage := ((operOn 0 0 4 sk1).getD default).1
    let j : SendJob := (List.find? (fun j => !j.data.isEmpty) v.sends).getD default
    let s1 : State := landed (fabricTranslate 0 (16 + 0) 0 j.tok (BitVec.ofNat 64 (j.dest + (im.field 0 15 0 + 1 - j.data.length))) (min j.data.length (4096 - (j.dest + (im.field 0 15 0 + 1 - j.data.length)) % 4096)) Cls.write sk1) State.reset
    let pa : ℕ := valueOf (fabricTranslate 0 (16 + 0) 0 j.tok (BitVec.ofNat 64 (j.dest + (im.field 0 15 0 + 1 - j.data.length))) (min j.data.length (4096 - (j.dest + (im.field 0 15 0 + 1 - j.data.length)) % 4096)) Cls.write sk1) default
    fabricTranslate 0 (16 + 0) 0 j.tok (BitVec.ofNat 64 (j.dest + (im.field 0 15 0 + 1 - j.data.length))) (min j.data.length (4096 - (j.dest + (im.field 0 15 0 + 1 - j.data.length)) % 4096)) Cls.write sk1 = Got.ok pa s1 ∧
      s1.Inv ∧
      operOn 0 0 4 sk1 = some (im, v) ∧
      List.find? (fun j => !j.data.isEmpty) v.sends = some j ∧
      im.field 0 16 16 = 1 ∧
      onDevice pa = true ∧
      s1.wqueue = [] ∧
      writeFails s1 pa (min j.data.length (4096 - (j.dest + (im.field 0 15 0 + 1 - j.data.length)) % 4096)) = false :=
  ⟨(ok_of (by decide +kernel) default State.reset), (by show (_ = true); decide +kernel), by decide +kernel⟩

theorem witness_SendOperators_4 :
    let v : Oper := ((operOn 0 0 4 sk3).getD default).2
    let im : OpImage := ((operOn 0 0 4 sk3).getD default).1
    let r : Run := ((stripeLaunch sk3 0).getD default).1
    let rest : List SendJob := v.sends.tail
    let w : Launch := ((stripeLaunch sk3 0).getD default).2.2
    let l : ℕ := ((stripeLaunch sk3 0).getD default).2.1
    let j : SendJob := v.sends.headD default
    operOn 0 0 4 sk3 = some (im, v) ∧
      operError sk3 0 0 v = none ∧
      v.sends = j :: rest ∧
      j.data = [] ∧
      operPosted sk3 0 0 = false ∧
      stripeLaunch sk3 0 = some (r, l, w) ∧
      im.field 0 16 16 = 1 ∧
      roomForAll 0 (operOut im.out1 { j.tok with kind := kData, eod := 0, value := BitVec.ofNat 64 j.dest }) sk3 = true :=
  by decide +kernel

theorem witness_FaultsAreServed_4 :
    let u : ℕ := 1114112
    let w : Inbound := er1.inbound[0]?.getD default
    er1.inbound[0]? = some w ∧
      w.sent = true ∧
      (∀ e ∈ List.take 0 er1.inbound, ¬(e.req % 2 ^ 16 = w.req % 2 ^ 16 ∧ e.route = w.route)) ∧
      er1.wqueue = [] ∧
      (0, u) ∈ er1.errors ∧
      (unitOf u).1 = u ∧
      writeFails er1 w.pa w.data.length = true :=
  by decide +kernel

theorem witness_FaultsAreServed_5 :
    let u : ℕ := 1114112
    let w : Inbound := er0.inbound[0]?.getD default
    er0.inbound[0]? = some w ∧
      w.sent = true ∧
      (∀ e ∈ List.take 0 er0.inbound, ¬(e.req % 2 ^ 16 = w.req % 2 ^ 16 ∧ e.route = w.route)) ∧
      er0.wqueue = [] ∧
      (0, u) ∈ er0.errors ∧
      (unitOf u).1 = u ∧
      writeFails er0 w.pa w.data.length = false ∧
      w.pa ≤ u ∧
      u + (unitOf u).2 ≤ w.pa + w.data.length :=
  by decide +kernel

theorem witness_InterfacesChangeState_3 :
    let k : ℕ := 31
    vfOn (hsx part0) 0 = true ∧
      (((hsx part0).part 0).tdi = 1 ∨ ((hsx part0).part 0).tdi = 2) ∧
      ((hsx part0).part 0).tdi ≠ 0 ∧
      k < 32 ∧
      (hsx part0).io.stopped = false ∧
      (nth [(19 : Byte), (224 : Byte), (0 : Byte), (32 : Byte)] (0 : ℕ) (0 : Byte) = (18 : Byte) ∨ nth [(19 : Byte), (224 : Byte), (0 : Byte), (32 : Byte)] (0 : ℕ) (0 : Byte) = (19 : Byte)) ∧
      nth [(19 : Byte), (224 : Byte), (0 : Byte), (32 : Byte)] (1 : ℕ) (0 : Byte) = (224 : Byte) ∧
      bit (BitVec.toNat (nth [(19 : Byte), (224 : Byte), (0 : Byte), (32 : Byte)] (2 : ℕ) (0 : Byte))) (0 : ℕ) = false ∧
      nth [19, 224, 0, 32] 3 0 = BitVec.ofNat 8 (k + 1) :=
  by decide +kernel

theorem witness_InterfacesChangeState_4 :
    hsS.io.stopped = true ∧
      nth [(18 : Byte), (224 : Byte), (0 : Byte), (1 : Byte)] (1 : ℕ) (0 : Byte) ≠ (132 : Byte) :=
  by decide +kernel

theorem witness_InterfacesChangeState_5 :
    nth [(16 : Byte), (132 : Byte)] (1 : ℕ) (0 : Byte) = (132 : Byte) :=
  by decide +kernel

theorem witness_TrapsAreRecorded_1 :
    let cause : ℕ := 4
    let x : ℕ := 0
    let agent : ℕ := 16
    let tag : ℕ := 4194303
    let addr : Word := 4096
    let toks : List Token := [tok 5, tok 6, tok 7]
    (fabric { StripeImage.blank with ops := [(x, opIm 2 0 0 0 0 0)] } [] []).Inv ∧
      Table.find x (fabric { StripeImage.blank with ops := [(x, opIm 2 0 0 0 0 0)] } [] []).launches = some launch0 ∧
      (fabric { StripeImage.blank with ops := [(x, opIm 2 0 0 0 0 0)] } [] []).runOf x = some (x, probeRun { StripeImage.blank with ops := [(x, opIm 2 0 0 0 0 0)] }) ∧
      Table.find x (fabric { StripeImage.blank with ops := [(x, opIm 2 0 0 0 0 0)] } [] []).runs = some (probeRun { StripeImage.blank with ops := [(x, opIm 2 0 0 0 0 0)] }) ∧
      (probeRun { StripeImage.blank with ops := [(x, opIm 2 0 0 0 0 0)] }).launch = x ∧
      launch0.trapHold = false ∧
      [BitVec.ofNat 64 (cause * 2 ^ 56 + min toks.length 2 * 2 ^ 54 + fabricUnit x agent), BitVec.ofNat 64 ((probeRun { StripeImage.blank with ops := [(x, opIm 2 0 0 0 0 0)] }).ticket * 2 ^ 48 + x % agent * 2 ^ 40 + ((fabric { StripeImage.blank with ops := [(x, opIm 2 0 0 0 0 0)] } [] []).stripe x).vs.getD x * 2 ^ 24 + tag), addr, BitVec.ofNat 64 (fabric { StripeImage.blank with ops := [(x, opIm 2 0 0 0 0 0)] } [] []).time, (Option.map (fun x => x.value) toks[x]?).getD 0, (Option.map (fun x => x.high) toks[x]?).getD 0, (Option.map (fun x => x.value) toks[1]?).getD 0, (Option.map (fun x => x.high) toks[1]?).getD 0].length = 8 ∧
      writeFails (fabric { StripeImage.blank with ops := [(x, opIm 2 0 0 0 0 0)] } [] []) (svcPa (launch0.die (probeRun { StripeImage.blank with ops := [(x, opIm 2 0 0 0 0 0)] }).die) (3072 + 64 * ((launch0.die (probeRun { StripeImage.blank with ops := [(x, opIm 2 0 0 0 0 0)] }).die).trcount % 64))) 64 = false ∧
      writeFails (fabric { StripeImage.blank with ops := [(x, opIm 2 0 0 0 0 0)] } [] []) (svcPa (launch0.die (probeRun { StripeImage.blank with ops := [(x, opIm 2 0 0 0 0 0)] }).die) 2560) 8 = false ∧
      (svcPa (launch0.die (probeRun { StripeImage.blank with ops := [(x, opIm 2 0 0 0 0 0)] }).die) (3072 + 64 * ((launch0.die (probeRun { StripeImage.blank with ops := [(x, opIm 2 0 0 0 0 0)] }).die).trcount % 64)) + 64 ≤ svcPa (launch0.die (probeRun { StripeImage.blank with ops := [(x, opIm 2 0 0 0 0 0)] }).die) 2560 ∨ svcPa (launch0.die (probeRun { StripeImage.blank with ops := [(x, opIm 2 0 0 0 0 0)] }).die) 2560 + 8 ≤ svcPa (launch0.die (probeRun { StripeImage.blank with ops := [(x, opIm 2 0 0 0 0 0)] }).die) (3072 + 64 * ((launch0.die (probeRun { StripeImage.blank with ops := [(x, opIm 2 0 0 0 0 0)] }).die).trcount % 64))) :=
  ⟨(by show (_ = true); decide +kernel), by decide +kernel⟩

theorem witness_RunsStart_1 :
    let r : Run := (Table.find 5 s1.runs).getD default
    let v : Launch := (Table.find r.launch s1.launches).getD default
    let c : ℕ × ℕ × ℕ × ℕ × StripeImage := (List.find? (fun d => d.1 == stripeRing r.xorig && d.2.1 == v.part && d.2.2.1 == r.ident && d.2.2.2.1 == 0) s1.ringCache).getD default
    plain c.2.2.2.2 ∧
      Table.find 5 s1.runs = some r ∧
      Table.find r.launch s1.launches = some v ∧
      canStart s1 r = true ∧
      ticketLeft s1 r.launch = true ∧
      List.find? (fun d => d.1 == stripeRing r.xorig && d.2.1 == v.part && d.2.2.1 == r.ident && d.2.2.2.1 == 0) s1.ringCache = some c ∧
      Table.find 0 r.saved = none :=
  ⟨(by unfold plain; decide +kernel), by decide +kernel⟩

theorem witness_StepsCross_1 :
    let y : ℕ := 0
    let k : ℕ := 2
    let j : ℕ := (sc1.stripe y).vs.getD default
    let r : Run := (Table.find 5 sc1.runs).getD default
    let live : List ℕ := (sc1.stripe y).image.stateful.getD default
    let v : Launch := (Table.find r.launch sc1.launches).getD default
    let c : ℕ × ℕ × ℕ × ℕ × StripeImage := (List.find? (fun d => d.1 == stripeRing y && d.2.1 == v.part && d.2.2.1 == r.ident && d.2.2.2.1 == k) sc1.ringCache).getD default
    plain c.2.2.2.2 ∧
      Table.find 5 sc1.runs = some r ∧
      Table.find r.launch sc1.launches = some v ∧
      boundaryReady sc1 r = true ∧
      scrollEnded sc1 r = false ∧
      boundaryTrap r sc1 = none ∧
      r.image.pinned = false ∧
      meterAdmits sc1 (stepCharge sc1 r.following) = true ∧
      firstInLine sc1 r = true ∧
      sc1.parked = [] ∧
      (r.resident = true ∧ r.step + 1 < r.vcount ∧ y = r.xorig + (r.step + 1) ∧ k = r.step + 1 ∨ r.resident = false ∧ r.lastBurst = none ∧ y = r.xorig + (r.step + 1) % r.width ∧ k = (r.step + 1) % r.vcount) ∧
      List.find? (fun d => d.1 == stripeRing y && d.2.1 == v.part && d.2.2.1 == r.ident && d.2.2.2.1 == k) sc1.ringCache = some c ∧
      (sc1.stripe y).vs ≠ some k ∧
      y < r.width ∧
      (r.step + 1 < r.width ∨ r.resident = false) ∧
      (sc1.stripe y).vs = some j ∧
      (sc1.stripe y).image.stateful = some live ∧
      Table.find k r.saved = none :=
  ⟨(by unfold plain; decide +kernel), by decide +kernel⟩

theorem witness_StepsCross_2 :
    let r : Run := (Table.find 5 sc3.runs).getD default
    let v : Launch := (Table.find r.launch sc3.launches).getD default
    Table.find 5 sc3.runs = some r ∧
      Table.find r.launch sc3.launches = some v ∧
      boundaryReady sc3 r = true ∧
      scrollEnded sc3 r = false ∧
      boundaryTrap r sc3 = none ∧
      r.image.pinned = false ∧
      meterAdmits sc3 (stepCharge sc3 r.following) = true ∧
      firstInLine sc3 r = true ∧
      sc3.parked = [] ∧
      r.resident = true ∧
      r.vcount ≤ r.step + 1 :=
  by decide +kernel

theorem witness_StepsCross_3 :
    let y : ℕ := 0
    let k : ℕ := 2
    let r : Run := (Table.find 5 sc4.runs).getD default
    let v : Launch := (Table.find r.launch sc4.launches).getD default
    let old : SavedStripe := (Table.find k r.saved).getD default
    let c : ℕ × ℕ × ℕ × ℕ × StripeImage := (List.find? (fun d => d.1 == stripeRing y && d.2.1 == v.part && d.2.2.1 == r.ident && d.2.2.2.1 == k) sc4.ringCache).getD default
    plain c.2.2.2.2 ∧
      Table.find 5 sc4.runs = some r ∧
      Table.find r.launch sc4.launches = some v ∧
      boundaryReady sc4 r = true ∧
      scrollEnded sc4 r = false ∧
      boundaryTrap r sc4 = none ∧
      r.image.pinned = false ∧
      meterAdmits sc4 (stepCharge sc4 r.following) = true ∧
      firstInLine sc4 r = true ∧
      sc4.parked = [] ∧
      (r.resident = true ∧ r.step + 1 < r.vcount ∧ y = r.xorig + (r.step + 1) ∧ k = r.step + 1 ∨ r.resident = false ∧ r.lastBurst = none ∧ y = r.xorig + (r.step + 1) % r.width ∧ k = (r.step + 1) % r.vcount) ∧
      List.find? (fun d => d.1 == stripeRing y && d.2.1 == v.part && d.2.2.1 == r.ident && d.2.2.2.1 == k) sc4.ringCache = some c ∧
      (sc4.stripe y).vs ≠ some k ∧
      y < r.width ∧
      (r.step + 1 < r.width ∨ r.resident = false) ∧
      Table.find k r.saved = some old :=
  ⟨(by unfold plain; decide +kernel), by decide +kernel⟩

end Case33

namespace Case34

open Says

def kZ : Keys := ⟨false, false, false, false⟩
def kA : Keys := ⟨true, true, true, true⟩
def kO : Keys := ⟨false, true, false, true⟩

theorem witness_MinimumAndMaximum_1 :
    ((ffFmt Fmt.f32).val ((ffFmt Fmt.f32).flushIn kZ.fsi 1065353216)).finite = true ∧
      ((ffFmt Fmt.f32).val ((ffFmt Fmt.f32).flushIn kZ.fsi 1073741824)).finite = true ∧
      ((ffFmt Fmt.f32).val ((ffFmt Fmt.f32).flushIn kZ.fsi 1065353216)).number < ((ffFmt Fmt.f32).val ((ffFmt Fmt.f32).flushIn kZ.fsi 1073741824)).number :=
  by decide +kernel

theorem witness_MinimumAndMaximum_2 :
    ((ffFmt Fmt.f32).val ((ffFmt Fmt.f32).flushIn kA.fsi 1073741824)).finite = true ∧
      ((ffFmt Fmt.f32).val ((ffFmt Fmt.f32).flushIn kA.fsi 3212836864)).finite = true ∧
      ((ffFmt Fmt.f32).val ((ffFmt Fmt.f32).flushIn kA.fsi 3212836864)).number < ((ffFmt Fmt.f32).val ((ffFmt Fmt.f32).flushIn kA.fsi 1073741824)).number :=
  by decide +kernel

theorem witness_MinimumAndMaximum_3 :
    ((ffFmt Fmt.bf16).val ((ffFmt Fmt.bf16).flushIn kZ.fsi 65408)).isNan = false ∧
      ((ffFmt Fmt.bf16).val ((ffFmt Fmt.bf16).flushIn kZ.fsi 16256)).isNan = false ∧
      (ffFmt Fmt.bf16).val ((ffFmt Fmt.bf16).flushIn kZ.fsi 65408) ≠ (ffFmt Fmt.bf16).val ((ffFmt Fmt.bf16).flushIn kZ.fsi 16256) ∧
      ((ffFmt Fmt.bf16).val ((ffFmt Fmt.bf16).flushIn kZ.fsi 65408) = FVal.inf true ∨ (ffFmt Fmt.bf16).val ((ffFmt Fmt.bf16).flushIn kZ.fsi 16256) = FVal.inf false) :=
  by decide +kernel

theorem witness_MinimumAndMaximum_4 :
    ((ffFmt Fmt.bf16).val ((ffFmt Fmt.bf16).flushIn kZ.fsi 32640)).isNan = false ∧
      ((ffFmt Fmt.bf16).val ((ffFmt Fmt.bf16).flushIn kZ.fsi 65408)).isNan = false ∧
      (ffFmt Fmt.bf16).val ((ffFmt Fmt.bf16).flushIn kZ.fsi 32640) ≠ (ffFmt Fmt.bf16).val ((ffFmt Fmt.bf16).flushIn kZ.fsi 65408) ∧
      ((ffFmt Fmt.bf16).val ((ffFmt Fmt.bf16).flushIn kZ.fsi 32640) = FVal.inf false ∨ (ffFmt Fmt.bf16).val ((ffFmt Fmt.bf16).flushIn kZ.fsi 65408) = FVal.inf true) :=
  by decide +kernel

theorem witness_MinimumAndMaximum_5 :
    ((ffFmt Fmt.f32).val ((ffFmt Fmt.f32).flushIn kZ.fsi 2147483648)).finite = true ∧
      ((ffFmt Fmt.f32).val ((ffFmt Fmt.f32).flushIn kZ.fsi 0)).finite = true ∧
      (((ffFmt Fmt.f32).val ((ffFmt Fmt.f32).flushIn kZ.fsi 2147483648)).isZero = true ∧ ((ffFmt Fmt.f32).val ((ffFmt Fmt.f32).flushIn kZ.fsi 0)).isZero = true) ∧
      (match (ffFmt Fmt.f32).val ((ffFmt Fmt.f32).flushIn kZ.fsi (2147483648 : ℕ)) with   | FVal.fin n m e => n   | FVal.inf n => n   | FVal.nan signalling => false) =   true ∧
      (match (ffFmt Fmt.f32).val ((ffFmt Fmt.f32).flushIn kZ.fsi (0 : ℕ)) with   | FVal.fin n m e => n   | FVal.inf n => n   | FVal.nan signalling => false) =   false :=
  by decide +kernel

theorem witness_MinimumAndMaximum_6 :
    ((ffFmt Fmt.f16).val ((ffFmt Fmt.f16).flushIn kA.fsi 0)).finite = true ∧
      ((ffFmt Fmt.f16).val ((ffFmt Fmt.f16).flushIn kA.fsi 32768)).finite = true ∧
      (((ffFmt Fmt.f16).val ((ffFmt Fmt.f16).flushIn kA.fsi 0)).isZero = true ∧ ((ffFmt Fmt.f16).val ((ffFmt Fmt.f16).flushIn kA.fsi 32768)).isZero = true) ∧
      (match (ffFmt Fmt.f16).val ((ffFmt Fmt.f16).flushIn kA.fsi (0 : ℕ)) with   | FVal.fin n m e => n   | FVal.inf n => n   | FVal.nan signalling => false) =   false ∧
      (match (ffFmt Fmt.f16).val ((ffFmt Fmt.f16).flushIn kA.fsi (32768 : ℕ)) with   | FVal.fin n m e => n   | FVal.inf n => n   | FVal.nan signalling => false) =   true :=
  by decide +kernel

theorem witness_MinimumAndMaximum_7 :
    ((ffFmt Fmt.f32).val ((ffFmt Fmt.f32).flushIn kZ.fsi 1065353216)).isNan = false :=
  by decide +kernel

theorem witness_SpecialFunctionBounds_1 :
    10 ∈ [8, 9, 10] ∧
      ((ffOf 10).val ((ffOf 10).flushIn kZ.fsi 1065353216)).finite = true ∧
      ((ffOf 10).val ((ffOf 10).flushIn kZ.fsi 1065353216)).number ≠ 0 ∧
      2 ^ ((ffOf 10).qmin + ↑(ffOf 10).m) ≤ |((ffOf 10).val ((ffOf 10).flushIn kZ.fsi 1065353216)).number⁻¹| ∧
      |((ffOf 10).val ((ffOf 10).flushIn kZ.fsi 1065353216)).number⁻¹| < 2 ^ (ffOf 10).bias ∧
      (2 : ℚ) ^ (0 : ℤ) ≤ |((ffOf (10 : ℕ)).val ((ffOf (10 : ℕ)).flushIn kZ.fsi (1065353216 : ℕ))).number⁻¹| ∧
      |((ffOf (10 : ℕ)).val ((ffOf (10 : ℕ)).flushIn kZ.fsi (1065353216 : ℕ))).number⁻¹| < (2 : ℚ) ^ ((0 : ℤ) + (1 : ℤ)) ∧
      (∃ n < (300 : ℕ), |((ffOf (10 : ℕ)).val ((ffOf (10 : ℕ)).flushIn kZ.fsi (1065353216 : ℕ))).number| = (2 : ℚ) ^ (↑n - (150 : ℤ))) ∧
      0 < ((ffOf 10).val ((ffOf 10).flushIn kZ.fsi 1065353216)).number ∧
      (2 : ℚ) ^ ((2 : ℤ) * (0 : ℤ)) ≤ ((ffOf (10 : ℕ)).val ((ffOf (10 : ℕ)).flushIn kZ.fsi (1065353216 : ℕ))).number ∧
      ((ffOf (10 : ℕ)).val ((ffOf (10 : ℕ)).flushIn kZ.fsi (1065353216 : ℕ))).number < (2 : ℚ) ^ ((2 : ℤ) * (0 : ℤ) + (2 : ℤ)) ∧
      (2 : ℚ) ^ ((2 : ℤ) * (0 : ℤ)) ≤ ((ffOf (10 : ℕ)).val ((ffOf (10 : ℕ)).flushIn kZ.fsi (1065353216 : ℕ))).number⁻¹ ∧
      ((ffOf (10 : ℕ)).val ((ffOf (10 : ℕ)).flushIn kZ.fsi (1065353216 : ℕ))).number⁻¹ < (2 : ℚ) ^ ((2 : ℤ) * (0 : ℤ) + (2 : ℤ)) ∧
      ((ffOf (10 : ℕ)).val ((ffOf (10 : ℕ)).flushIn kZ.fsi (1065353216 : ℕ))).number = (2 : ℚ) ^ (0 : ℤ) :=
  by decide +kernel

theorem witness_SpecialFunctionBounds_2 :
    10 ∈ [8, 9, 10] ∧
      ((ffOf 10).val ((ffOf 10).flushIn kZ.fsi 2130706433)).finite = true ∧
      ((ffOf 10).val ((ffOf 10).flushIn kZ.fsi 2130706433)).number ≠ 0 ∧
      |((ffOf 10).val ((ffOf 10).flushIn kZ.fsi 2130706433)).number⁻¹| < 2 ^ ((ffOf 10).qmin + ↑(ffOf 10).m) ∧
      (¬∃ n < (300 : ℕ), |((ffOf (10 : ℕ)).val ((ffOf (10 : ℕ)).flushIn kZ.fsi (2130706433 : ℕ))).number| = (2 : ℚ) ^ (↑n - (150 : ℤ))) ∧
      kZ.fso = false ∧
      (↑(ffOf 10).bias + 2 ≤ ((ffOf 10).val ((ffOf 10).flushIn kZ.fsi 2130706433)).number ∨ ((ffOf 10).val ((ffOf 10).flushIn kZ.fsi 2130706433)).number = ↑(ffOf 10).bias + 1) :=
  by decide +kernel

theorem witness_SpecialFunctionBounds_3 :
    10 ∈ [8, 9, 10] ∧
      ((ffOf 10).val ((ffOf 10).flushIn kZ.fsi 1084227584)).finite = true ∧
      ((ffOf (10 : ℕ)).val ((ffOf (10 : ℕ)).flushIn kZ.fsi (1084227584 : ℕ))).number = ↑(5 : ℤ) ∧
      (2 : ℚ) ^ ((ffOf (10 : ℕ)).qmin + ↑(ffOf (10 : ℕ)).m) ≤ (2 : ℚ) ^ (5 : ℤ) ∧
      (5 : ℤ) ≤ ↑(ffOf (10 : ℕ)).bias :=
  by decide +kernel

theorem witness_SpecialFunctionBounds_4 :
    10 ∈ [8, 9, 10] ∧
      ((ffOf 10).val ((ffOf 10).flushIn kO.fsi 4286578687)).finite = true ∧
      ((ffOf 10).val ((ffOf 10).flushIn kO.fsi 4286578687)).number ≠ 0 ∧
      |((ffOf 10).val ((ffOf 10).flushIn kO.fsi 4286578687)).number⁻¹| < 2 ^ ((ffOf 10).qmin + ↑(ffOf 10).m) ∧
      kO.fso = true ∧
      ((ffOf 10).val ((ffOf 10).flushIn kO.fsi 4286578687)).number ≤ ↑(ffOf 10).qmin - 2 :=
  by decide +kernel

theorem witness_SpecialFunctionBounds_5 :
    10 ∈ [8, 9, 10] ∧
      ((ffOf 10).val ((ffOf 10).flushIn kZ.fsi 1)).finite = true ∧
      ((ffOf 10).val ((ffOf 10).flushIn kZ.fsi 1)).number ≠ 0 ∧
      2 ^ ((ffOf 10).bias + 1) ≤ |((ffOf 10).val ((ffOf 10).flushIn kZ.fsi 1)).number⁻¹| :=
  by decide +kernel

end Case34

namespace Case35

open Says

def cs := withRegs core0 [(1, 0x10), (2, 2), (3, 0x1008), (4, 0x2008), (5, 0x3000), (6, 0xFFFFFFFFFFFFFFFF), (7, 0x200C), (8, 0x3010), (10, 1)]
def rec0 : EvRecord := ⟨0, 3, 0, 1, 0, 7, 8, 9, View.zero⟩
def csR : State := cs.putCtx { cs.ctx with events := [⟨5, 3, 0, 1, 0, 7, 8, 9, View.zero⟩, rec0, rec0], reserved := [0, 1], seq := 0xFFFFFFFF }
def ld (p0 va : Word) : State := oper (opIm 1 p0 0 0x1000 0 0) [(0, [tok va])]
def fif (r w : Nat) (e : Bool) : Fifo := ⟨false, 256, 0, 256, r, w, 8, e, true, View.zero⟩
def ff (kind : Nat) (p0 : Word) (f : Fifo) : State := { operWith (opIm kind p0 0 0 0 0) { Oper.blank with inputs := [(0, [tok 8])] } with launches := [(0, launch0.setDie 0 { LaunchDie.blank with fifos := [(1, f)] })], ringBuf := [(300, 4), (511, 7)] }
def fi (kind : Nat) (p0 : Word) := opIm kind p0 0 0 0 0
def lw (die wt : Nat) : Nat := die * 2^61 + wt * 2^57 + 0x4000 + 32
def sj3 : State := operWith (opIm 4 (15 + 0x100000) 0x40 8 64 0) { Oper.blank with sends := [⟨tok 0x10, 0x40, []⟩] }
def mg0' := operWith (opIm 10 0 0 0 0 0) { Oper.blank with inputs := [(0, [tok 5]), (1, [tok 7])], accesses := [(tok 7, true), (tok 5, false)] }

theorem witness_SendOperators_5 :
    let rid : ℕ := ((sj3.runOf 0).getD default).1
    let q : Run := ((sj3.runOf 0).getD default).2
    let im : OpImage := ((operOn 0 0 4 sj3).getD default).1
    let v : Oper := ((operOn 0 0 4 sj3).getD default).2
    let r : Run := ((stripeLaunch sj3 0).getD default).1
    let rest : List SendJob := v.sends.tail
    let w : Launch := ((stripeLaunch sj3 0).getD default).2.2
    let l : ℕ := ((stripeLaunch sj3 0).getD default).2.1
    let j : SendJob := v.sends.headD default
    let y : ℕ := (sendStripe im w 0).getD default
    operOn 0 0 4 sj3 = some (im, v) ∧
      operError sj3 0 0 v = none ∧
      v.sends = j :: rest ∧
      j.data = [] ∧
      operPosted sj3 0 0 = false ∧
      stripeLaunch sj3 0 = some (r, l, w) ∧
      im.field 0 16 16 = 0 ∧
      sendStripe im w 0 = some y ∧
      sj3.runOf y = none ∧
      sj3.runOf 0 = some (rid, q) ∧
      dstValid im.out1 = true :=
  by decide +kernel

theorem witness_StreamOperators_8 :
    let i : ℕ := 1
    let rid : ℕ := ((mg0'.runOf 0).getD default).1
    let r : Run := ((mg0'.runOf 0).getD default).2
    let im : OpImage := ((operOn 0 0 10 mg0').getD default).1
    let v : Oper := ((operOn 0 0 10 mg0').getD default).2
    let t : Token := (v.head i).getD default
    operOn 0 0 10 mg0' = some (im, v) ∧
      mg0'.runOf 0 = some (rid, r) ∧
      v.head i = some t ∧
      (if im.field 0 0 0 = 0 then Option.map (fun a => if a.2 = true then i else 0) v.accesses.head? = some i else i < 2 ∧ (∀ (u : Token), v.head (i - i) = some u → t.frame.toNat * 1024 + t.iter.toNat < u.frame.toNat * 1024 + u.iter.toNat ∨ t.frame.toNat * 1024 + t.iter.toNat = u.frame.toNat * 1024 + u.iter.toNat ∧ i = 0) ∧ (v.head (i - i) = none → inputOver r.image ((mg0'.stripe 0).vs.getD 0) 0 (i - i) v = true)) ∧
      roomForAll 0 (operOut im.out0 t) mg0' = true :=
  by decide +kernel

theorem witness_EventRecordsAreHandedOver_1 :
    let r : EvRecord := (List.find? (fun r => r.owner == csR.th.id) csR.ctx.events).getD default
    let s1 : State := landed (access (csR.g 5) 32 Cls.write csR) State.reset
    let pa : ℕ := valueOf (access (csR.g 5) 32 Cls.write csR) 0
    csR.Inv ∧
      Quiet csR ∧
      Lands (csR.g 5) 32 Cls.write csR pa s1 ∧
      List.find? (fun r => r.owner == csR.th.id) csR.ctx.events = some r ∧
      (5 : Reg) ≠ (0 : Reg) ∧
      writeFails csR pa 32 = false ∧
      homeDie pa = coreDie csR.core :=
  ⟨(by show (_ = true); decide +kernel), (by unfold Quiet; decide +kernel), (lands_of (by decide +kernel) (by decide +kernel)), by decide +kernel⟩

theorem witness_MemoryAndFifoLoads_1 :
    let s1 : State := landed (fabricTranslate 0 (16 + 0) 0 (tok 8) ((opIm 1 178 0 4096 0 0).p2 + (tok 8).value) (opIm 1 178 0 4096 0 0).accessBytes Cls.read (ld 178 8)) State.reset
    let pa : ℕ := valueOf (fabricTranslate 0 (16 + 0) 0 (tok 8) ((opIm 1 178 0 4096 0 0).p2 + (tok 8).value) (opIm 1 178 0 4096 0 0).accessBytes Cls.read (ld 178 8)) default
    fabricTranslate 0 (16 + 0) 0 (tok 8) ((opIm 1 178 0 4096 0 0).p2 + (tok 8).value) (opIm 1 178 0 4096 0 0).accessBytes Cls.read (ld 178 8) = Got.ok pa s1 ∧
      (opIm 1 178 0 4096 0 0).field 0 2 0 = 2 ∧
      BitVec.toNat ((opIm 1 178 0 4096 0 0).p2 + (tok 8).value) % (opIm 1 178 0 4096 0 0).alignment = 0 ∧
      0 < (opIm 1 178 0 4096 0 0).accessBytes ∧
      BitVec.toNat ((opIm 1 178 0 4096 0 0).p2 + (tok 8).value) % 4096 + (opIm 1 178 0 4096 0 0).accessBytes ≤ 4096 ∧
      onDevice pa = true ∧
      s1.wqueue = [] ∧
      s1.writes = [] ∧
      (∀ (u : Oper), s1.oper? 0 0 = some u → u.fixed = []) ∧
      readFails s1 pa (opIm 1 178 0 4096 0 0).accessBytes = false :=
  ⟨(ok_of (by decide +kernel) default State.reset), by decide +kernel⟩

theorem witness_MemoryAndFifoLoads_2 :
    (opIm 1 178 0 4096 0 0).field 0 2 0 = 2 ∧
      BitVec.toNat ((opIm 1 178 0 4096 0 0).p2 + (tok 9).value) % (opIm 1 178 0 4096 0 0).alignment ≠ 0 :=
  by decide +kernel

theorem witness_MemoryAndFifoLoads_3 :
    let r : Run := ((stripeLaunch (ff 1 65715 (fif 254 255 false)) 0).getD default).1
    let l : ℕ := ((stripeLaunch (ff 1 65715 (fif 254 255 false)) 0).getD default).2.1
    let v : Launch := ((stripeLaunch (ff 1 65715 (fif 254 255 false)) 0).getD default).2.2
    let f : Fifo := (fifoOfRun (ff 1 65715 (fif 254 255 false)) r ((fi 1 65715).field 0 23 16)).getD default
    (fi 1 65715).field 0 2 0 = 3 ∧
      stripeLaunch (ff 1 65715 (fif 254 255 false)) 0 = some (r, l, v) ∧
      isBurstSource (ff 1 65715 (fif 254 255 false)) 0 (fi 1 65715) = false ∧
      isBurstSink (ff 1 65715 (fif 254 255 false)) 0 r (fi 1 65715) = false ∧
      fifoOfRun (ff 1 65715 (fif 254 255 false)) r ((fi 1 65715).field 0 23 16) = some f ∧
      f.wpos - f.rpos < (fi 1 65715).accessBytes ∧
      f.eos = false :=
  by decide +kernel

theorem witness_MemoryAndFifoLoads_4 :
    let r : Run := ((stripeLaunch (ff 1 65715 (fif 254 255 true)) 0).getD default).1
    let l : ℕ := ((stripeLaunch (ff 1 65715 (fif 254 255 true)) 0).getD default).2.1
    let v : Launch := ((stripeLaunch (ff 1 65715 (fif 254 255 true)) 0).getD default).2.2
    let f : Fifo := (fifoOfRun (ff 1 65715 (fif 254 255 true)) r ((fi 1 65715).field 0 23 16)).getD default
    (fi 1 65715).field 0 2 0 = 3 ∧
      stripeLaunch (ff 1 65715 (fif 254 255 true)) 0 = some (r, l, v) ∧
      isBurstSource (ff 1 65715 (fif 254 255 true)) 0 (fi 1 65715) = false ∧
      isBurstSink (ff 1 65715 (fif 254 255 true)) 0 r (fi 1 65715) = false ∧
      fifoOfRun (ff 1 65715 (fif 254 255 true)) r ((fi 1 65715).field 0 23 16) = some f ∧
      f.wpos - f.rpos < (fi 1 65715).accessBytes ∧
      f.eos = true :=
  by decide +kernel

theorem witness_MemoryAndFifoLoads_5 :
    let r : Run := ((stripeLaunch (ff 1 65715 (fif 254 300 true)) 0).getD default).1
    let l : ℕ := ((stripeLaunch (ff 1 65715 (fif 254 300 true)) 0).getD default).2.1
    let v : Launch := ((stripeLaunch (ff 1 65715 (fif 254 300 true)) 0).getD default).2.2
    let f : Fifo := (fifoOfRun (ff 1 65715 (fif 254 300 true)) r ((fi 1 65715).field 0 23 16)).getD default
    (fi 1 65715).field 0 2 0 = 3 ∧
      stripeLaunch (ff 1 65715 (fif 254 300 true)) 0 = some (r, l, v) ∧
      isBurstSource (ff 1 65715 (fif 254 300 true)) 0 (fi 1 65715) = false ∧
      isBurstSink (ff 1 65715 (fif 254 300 true)) 0 r (fi 1 65715) = false ∧
      fifoOfRun (ff 1 65715 (fif 254 300 true)) r ((fi 1 65715).field 0 23 16) = some f ∧
      (fi 1 65715).accessBytes ≤ f.wpos - f.rpos ∧
      f.virt = false ∧
      f.base % f.size = 0 ∧
      (∃ j < 25, f.size = 2 ^ (j + 8)) ∧
      (∀ e ∈ (ff 1 65715 (fif 254 300 true)).errors, e.1 ≠ 2) :=
  by decide +kernel

theorem witness_FifoAppends_1 :
    let r : Run := ((stripeLaunch (ff 2 65715 (fif 200 254 true)) 0).getD default).1
    let l : ℕ := ((stripeLaunch (ff 2 65715 (fif 200 254 true)) 0).getD default).2.1
    let v : Launch := ((stripeLaunch (ff 2 65715 (fif 200 254 true)) 0).getD default).2.2
    let f : Fifo := (fifoOfRun (ff 2 65715 (fif 200 254 true)) r ((fi 2 65715).field 0 23 16)).getD default
    stripeLaunch (ff 2 65715 (fif 200 254 true)) 0 = some (r, l, v) ∧
      isBurstSource (ff 2 65715 (fif 200 254 true)) 0 (fi 2 65715) = false ∧
      isBurstSink (ff 2 65715 (fif 200 254 true)) 0 r (fi 2 65715) = false ∧
      fifoOfRun (ff 2 65715 (fif 200 254 true)) r ((fi 2 65715).field 0 23 16) = some f ∧
      f.eos = true :=
  by decide +kernel

theorem witness_FifoAppends_2 :
    let r : Run := ((stripeLaunch (ff 2 65715 (fif 1 254 false)) 0).getD default).1
    let l : ℕ := ((stripeLaunch (ff 2 65715 (fif 1 254 false)) 0).getD default).2.1
    let v : Launch := ((stripeLaunch (ff 2 65715 (fif 1 254 false)) 0).getD default).2.2
    let f : Fifo := (fifoOfRun (ff 2 65715 (fif 1 254 false)) r ((fi 2 65715).field 0 23 16)).getD default
    stripeLaunch (ff 2 65715 (fif 1 254 false)) 0 = some (r, l, v) ∧
      isBurstSource (ff 2 65715 (fif 1 254 false)) 0 (fi 2 65715) = false ∧
      isBurstSink (ff 2 65715 (fif 1 254 false)) 0 r (fi 2 65715) = false ∧
      fifoOfRun (ff 2 65715 (fif 1 254 false)) r ((fi 2 65715).field 0 23 16) = some f ∧
      f.eos = false ∧
      f.size < f.wpos - f.rpos + [(1 : Byte), (2 : Byte), (3 : Byte), (4 : Byte)].length :=
  by decide +kernel

theorem witness_FifoAppends_3 :
    let r : Run := ((stripeLaunch (ff 2 65715 (fif 200 254 false)) 0).getD default).1
    let l : ℕ := ((stripeLaunch (ff 2 65715 (fif 200 254 false)) 0).getD default).2.1
    let v : Launch := ((stripeLaunch (ff 2 65715 (fif 200 254 false)) 0).getD default).2.2
    let f : Fifo := (fifoOfRun (ff 2 65715 (fif 200 254 false)) r ((fi 2 65715).field 0 23 16)).getD default
    stripeLaunch (ff 2 65715 (fif 200 254 false)) 0 = some (r, l, v) ∧
      isBurstSource (ff 2 65715 (fif 200 254 false)) 0 (fi 2 65715) = false ∧
      isBurstSink (ff 2 65715 (fif 200 254 false)) 0 r (fi 2 65715) = false ∧
      fifoOfRun (ff 2 65715 (fif 200 254 false)) r ((fi 2 65715).field 0 23 16) = some f ∧
      f.eos = false ∧
      f.wpos - f.rpos + [(1 : Byte), (2 : Byte), (3 : Byte), (4 : Byte)].length ≤ f.size ∧
      f.virt = false ∧
      f.base % f.size = 0 ∧
      (∃ j < 25, f.size = 2 ^ (j + 8)) ∧
      (∀ e ∈ (ff 2 65715 (fif 200 254 false)).errors, e.1 ≠ 2) ∧
      cellsWf (fun x => 0) (ff 2 65715 (fif 200 254 false)).ringBuf = true ∧
      r.launch = l ∧
      Table.find l (ff 2 65715 (fif 200 254 false)).launches = some v :=
  by decide +kernel

theorem witness_LocationsAreSelected_1 :
    let loc : ℕ := (selectLocation [lw 0 3, lw 1 5, 0, lw 2 5, 0, 0, 0, 0] [0, -3, 4, -3, 0, 0, 0, 0]).2
    let after : List ℤ := (selectLocation [lw 0 3, lw 1 5, 0, lw 2 5, 0, 0, 0, 0] [0, -3, 4, -3, 0, 0, 0, 0]).1
    selectLocation [lw 0 3, lw 1 5, 0, lw 2 5, 0, 0, 0, 0] [0, -3, 4, -3, 0, 0, 0, 0] = (after, loc) ∧
      (∃ k < 8, (nth [lw 0 3, lw 1 5, 0, lw 2 5, 0, 0, 0, 0] k 0).testBit 5 = true) :=
  by decide +kernel

end Case35

namespace Case36

open Says

def sj5 : State := operWith (opIm 4 15 0x40 8 64 0) { Oper.blank with sends := [⟨tok 0x10, 0x40, []⟩] }
def cs := withRegs core0 [(9, 4095), (10, 7)]
def regT : Region := ⟨0x20000000, 4098*64, 2, 0, 0x200000, 0x90000, [0x200000], 0, 1, [], [], [], [], false⟩
def pol0 : Policy := ⟨0x20000000, true, 1000000, 10, 5, 4, 3⟩
def plc : Place := { Place.blank with policy := some pol0, region := 3 }
def entryL (die addr : Nat) : Word := BitVec.ofNat 64 (die * 2^61 + 8 * 2^57 + addr + 32)
def ent : List Byte := wordBytes ([entryL 0 0x4000, entryL 1 0x2000] ++ List.replicate 6 0)
def regR : Region := { regT with granules := [(0, ⟨3, [(3, List.replicate 64 0)]⟩), (8, ⟨2, [(2, ent)]⟩)] }
def pR : Partition := { part0 with regions := [(3, regR)], place := { plc with experts := [(7, ⟨0x4000, 4096, [], [(0, 5)], [(0, 7)]⟩)] } }
def act (add : Bool) (loc slot : Nat) : Action := ⟨4, add, true, 7, 1, .publish, slot, loc, 0, 0, none, none, View.zero, View.zero⟩
def pub (a : Action) : State := { core0 with parts := [(0, { pR with place := { pR.place with actions := [a] } })], time := 5 }
def fx : State := { operWith (opIm 1 0xB0 0 0x40 0 0) Oper.blank with launches := [(0, { launch0 with fmode := 1 })] }
def dv : State := { core0 with launches := [], parts := [], io := { core0.io with dieState := [(0, 1), (1, 1)], linkFails := [(9, 14), (1, 15)] } }
def bf1 : List (List Byte) := [[]]
def bf2 : List (List Byte) := [[], [1]]

theorem witness_SendOperators_6 :
    let v : Oper := ((operOn 0 0 4 sj5).getD default).2
    let im : OpImage := ((operOn 0 0 4 sj5).getD default).1
    let r : Run := ((stripeLaunch sj5 0).getD default).1
    let rest : List SendJob := v.sends.tail
    let w : Launch := ((stripeLaunch sj5 0).getD default).2.2
    let l : ℕ := ((stripeLaunch sj5 0).getD default).2.1
    let j : SendJob := v.sends.headD default
    let y : ℕ := (sendStripe im w 0).getD default
    operOn 0 0 4 sj5 = some (im, v) ∧
      operError sj5 0 0 v = none ∧
      v.sends = j :: rest ∧
      j.data = [] ∧
      operPosted sj5 0 0 = false ∧
      stripeLaunch sj5 0 = some (r, l, w) ∧
      im.field 0 16 16 = 0 ∧
      sendStripe im w 0 = some y ∧
      (sj5.runOf y).isSome = true ∧
      roomForAll y (operOut im.out1 { j.tok with kind := kData, eod := 0, value := BitVec.ofNat 64 j.dest }) sj5 = true :=
  by decide +kernel

theorem witness_FaultsAreServed_6 :
    let c : Cls := Cls.write
    let reason : ℕ := 0
    let level : ℕ := 2
    let agent : ℕ := 17
    let n : ℕ := 8
    let va : Word := 1073762304
    let s1 : State := (translateSpan fx reason va n c).2
    faultMode fx reason ≠ reason ∧
      fx.th.launch = some reason ∧
      fx.core < 64 ∧
      stripePart fx reason = some (reason, reason) ∧
      reason < 512 ∧
      agent < 28 ∧
      translateSpan fx reason va n c = (Tr.fault reason level, s1) ∧
      s1.launches = fx.launches ∧
      s1.runs = fx.runs ∧
      s1.stripes = fx.stripes ∧
      s1.faults = fx.faults :=
  by decide +kernel

theorem witness_PlacementActionsRun_5 :
    let loc : ℕ := 2
    let r : Region := ((pub (act true 0 32768)).table? 0).getD default
    let a : Machine.Action := (action? (pub (act true 0 32768)) 0 4).getD default
    let ws : List ℕ := (entryWords r a.expert (r.gran 0).latest (pub (act true 0 32768))).1
    let s1 : State := (entryWords r a.expert (r.gran 0).latest (pub (act true 0 32768))).2
    action? (pub (act true 0 32768)) 0 4 = some a ∧
      (pub (act true 0 32768)).table? 0 = some r ∧
      a.state = ActState.publish ∧
      (pub (act true 0 32768)).parked = [] ∧
      0 ≠ 16 ∧
      (∀ b ∈ List.takeWhile (fun b => b.issue != 4) ((pub (act true 0 32768)).part 0).place.actions, b.state = ActState.drain) ∧
      publicationFrozen (pub (act true 0 32768)) 0 = false ∧
      depthFree r (tableFloor (pub (act true 0 32768)) 0 r) 0 = true ∧
      depthFree r (tableFloor (pub (act true 0 32768)) 0 r) (a.expert + 1) = true ∧
      (∀ u ∈ (r.gran 0).versions ++ (r.gran (a.expert + 1)).versions, u.1 < (r.gran 0).latest + 1) ∧
      homeLost (pub (act true 0 32768)) r = false ∧
      (∀ u ∈ (r.gran (a.expert + 1)).versions, heapFails (pub (act true 0 32768)) r (a.expert + 1) u.1 = false) ∧
      heapFails (pub (act true 0 32768)) r (a.expert + 1) ((r.gran 0).latest + 1) = false ∧
      heapFails (pub (act true 0 32768)) r 0 ((r.gran 0).latest + 1) = false ∧
      entryWords r a.expert (r.gran 0).latest (pub (act true 0 32768)) = (ws, s1) ∧
      (if a.add = true then loc < 8 ∧ (nth ws loc 0).testBit 5 = false ∧ ∀ k < loc, (nth ws k 0).testBit 5 = true else loc = a.loc) :=
  by decide +kernel

theorem witness_DeviceEvents_6 :
    let bridge : Bool := true
    1 < 8 ∧
      (bridge = bridge → 1 ≠ 0) ∧
      (∀ f ∈ bf1, linkFlitGood (dv.io.linkKeys.getD (if bridge = bridge then 8 + 1 else 1) []) f = false) ∧
      dv.io.linkFails.getD (if bridge = bridge then 8 + 1 else 1) 0 + bf1.length < 16 :=
  by decide +kernel

theorem witness_DeviceEvents_7 :
    let bridge : Bool := true
    1 < 8 ∧
      (bridge = bridge → 1 ≠ 0) ∧
      (∀ f ∈ bf2, linkFlitGood (dv.io.linkKeys.getD (if bridge = bridge then 8 + 1 else 1) []) f = false) ∧
      dv.io.linkFails.getD (if bridge = bridge then 8 + 1 else 1) 0 + bf2.length = 16 ∧
      bf2 ≠ [] :=
  by decide +kernel

theorem witness_PlacementIsSetUp_1 :
    featureOn cs 2 = true ∧
      cs.core < 64 ∧
      BitVec.toNat (cs.g 9) ≤ 4095 ∧
      Table.find (BitVec.toNat (cs.g 9)) (cs.part cs.partNow).place.experts = none ∧
      cs.table? cs.partNow = none :=
  by decide +kernel

end Case36

namespace Case5

open Says

def cs := withRegs core0 [(1, 0x10), (2, 2), (3, 0x1008), (4, 0x2008), (5, 0x3000), (6, 0xFFFFFFFFFFFFFFFF), (7, 0x200C), (8, 0x3010)]
def img0 : SegImage := ⟨false, [{ StripeImage.blank with epw := 5 }]⟩
def csS0 : State := { cs with parts := [(0, { part0 with objects := [(0, ⟨[(7, 0x3000)], [], false⟩)] })] }
def fifo0 : Fifo := ⟨false, 0, 0, 256, 0, 40, 8, false, true, View.zero⟩
def csS : State := withRegs (csS0.mapDie 0 0 (fun d => { d with handles := [(1, ⟨7, none, true, 0, 0, 0, some img0⟩)], fifos := [(0, fifo0), (2, fifo0)] })) [(1, 7), (2, 0), (5, 0x3000), (10, 1), (11, 2)]
def csS1 : State := { csS with mem := csS.mem.writeAll 0x110000 (wordBytes [0x1, 0x200, 0, 0,0,0,0,0] ) }
def run0 : Run := { (default : Run) with launch := 0, ticket := 1, image := img0, status := .running }
def csS2 := { csS1 with runs := [(4, run0)] }
def csS3 := { csS1 with runs := [(4, { run0 with status := .ended, result := 3 })] }
def csF : State := { csS1 with mem := csS1.mem.writeAll 0x110000 (wordBytes [0x100, 0x100, 8, 0]), dieStore := [(0,0,7,img0)], ringCache := [(0,0,7,0,StripeImage.blank),(0,1,7,0,StripeImage.blank)] }
def csF1 := csF.mapLaunch 0 (fun v => {v with xext := 16})
def csC := withRegs { cs with mem := cs.mem.writeAll 0x110000 (wordBytes [0x3000, 0x1000, 16, 2, 32, 16, 8, 0]) } [(2, 0x1000)]

theorem witness_SegmentInstructions_1 :
    let v : Launch := (Table.find 0 csS3.launches).getD default
    let s1 : State := landed (loadAl (csS3.g 5) 64 64 csS3) State.reset
    let bs : List Byte := valueOf (loadAl (csS3.g 5) 64 64 csS3) default
    let r : Run := ((runByTicket csS3 0 (csS3.g 10)).getD default).2
    let id : ℕ := ((runByTicket csS3 0 (csS3.g 10)).getD default).1
    let x : Handle := (Table.find (BitVec.toNat (csS3.g 10)) (v.die csS3.th.die).handles).getD default
    let img : SegImage := x.image.getD default
    let s17 : State := landed (blocksFor (6 * r.vcount + 1) (csS3.g 5) csS3) State.reset
    let pas : List ℕ := valueOf (blocksFor (6 * r.vcount + 1) (csS3.g 5) csS3) default
    loadAl (csS3.g 5) 64 64 csS3 = Got.ok bs s1 ∧
      blocksFor (6 * r.vcount + 1) (csS3.g 5) csS3 = Got.ok pas s17 ∧
      csS3.Inv ∧
      Quiet csS3 ∧
      csS3.core < 64 ∧
      csS3.th.launch = some 0 ∧
      Table.find 0 csS3.launches = some v ∧
      Table.find (BitVec.toNat (csS3.g 10)) (v.die csS3.th.die).handles = some x ∧
      loadsBefore csS3 0 csS3.th.die (BitVec.toNat (csS3.g 10)) x = false ∧
      x.first = 0 ∧
      x.image = some img ∧
      descLegal (bytesWords 8 bs) = true ∧
      runLegal v (newRun 0 csS3.th.die s1.th.id x.ident s1.th.phase s1.th.floor img (bytesWords 8 bs)) = true ∧
      ticketLeft s1 0 = true ∧
      runByTicket csS3 0 (csS3.g 10) = some (id, r) ∧
      r.status = RunStatus.ended ∧
      (5 : Reg) ≠ (0 : Reg) ∧
      BitVec.toNat (csS3.g 5) % 64 = 0 ∧
      (∀ p ∈ pas, onDevice p = true ∧ touchHeap p csS3 = csS3 ∧ homeDie p = coreDie csS3.core ∧ writeFails csS3 p 64 = false) ∧
      List.Pairwise (fun p q => overlap p 64 q 64 = false) pas :=
  ⟨(ok_of (by decide +kernel) default State.reset), (ok_of (by decide +kernel) default State.reset), (by show (_ = true); decide +kernel), (by unfold Quiet; decide +kernel), by decide +kernel⟩

theorem witness_SegmentInstructions_2 :
    let v : Launch := (Table.find 0 csS.launches).getD default
    let h : ℕ := (handleFor (v.die csS.th.die) (BitVec.toNat (csS.g 1))).getD default
    csS.core < 64 ∧
      csS.th.launch = some 0 ∧
      Table.find 0 csS.launches = some v ∧
      (imageAddr csS v.part (BitVec.toNat (csS.g 1))).isSome = true ∧
      handleFor (v.die csS.th.die) (BitVec.toNat (csS.g 1)) = some h ∧
      eventCount csS csS.core < 256 :=
  by decide +kernel

theorem witness_SegmentInstructions_3 :
    let v : Launch := (Table.find 0 csS2.launches).getD default
    let r : Run := ((runByTicket csS2 0 (csS2.g 10)).getD default).2
    let id : ℕ := ((runByTicket csS2 0 (csS2.g 10)).getD default).1
    csS2.core < 64 ∧
      csS2.th.launch = some 0 ∧
      Table.find 0 csS2.launches = some v ∧
      runByTicket csS2 0 (csS2.g 10) = some (id, r) ∧
      r.status ≠ RunStatus.ended :=
  by decide +kernel

theorem witness_EventRecordsAreHandedOver_2 :
    List.find? (fun r => r.owner == cs.th.id) cs.ctx.events = none :=
  by decide +kernel

theorem witness_FifosAndConfigurations_1 :
    let v : Launch := (Table.find 0 csS1.launches).getD default
    let f : Fifo := (Table.find (BitVec.toNat (csS1.g 11)) (v.die csS1.th.die).fifos).getD default
    csS1.core < 64 ∧
      csS1.th.launch = some 0 ∧
      Table.find 0 csS1.launches = some v ∧
      Table.find (BitVec.toNat (csS1.g 11)) (v.die csS1.th.die).fifos = some f ∧
      f.bound = true ∧
      fifoNamed csS1 0 csS1.th.die (BitVec.toNat (csS1.g 11)) = false :=
  by decide +kernel

theorem witness_FifosAndConfigurations_2 :
    let v : Launch := (Table.find 0 csF1.launches).getD default
    let s1 : State := landed (loadAl (csF1.g 5) 32 32 csF1) State.reset
    let bs : List Byte := valueOf (loadAl (csF1.g 5) 32 32 csF1) default
    let f : Fifo := (fifoOf v csF1.th.die (bytesWords 4 bs)).getD default
    loadAl (csF1.g 5) 32 32 csF1 = Got.ok bs s1 ∧
      csF1.core < 64 ∧
      csF1.th.launch = some 0 ∧
      Table.find 0 csF1.launches = some v ∧
      Table.find 0 s1.launches = some v ∧
      fifoOf v csF1.th.die (bytesWords 4 bs) = some f ∧
      (v.die csF1.th.die).nextFifo < 256 :=
  ⟨(ok_of (by decide +kernel) default State.reset), by decide +kernel⟩

set_option maxRecDepth 4000 in
theorem witness_CopiesAndSignals_1 :
    let s23 : State := landed (sourceHomed (csC.g 5) csC) State.reset
    let s1 : State := landed (readBlock (csC.g 5) csC) State.reset
    let ws : List Word := valueOf (readBlock (csC.g 5) csC) default
    let s14 : State := landed (access (csC.g 5) 8 Cls.write csC) State.reset
    let pa : ℕ := valueOf (access (csC.g 5) 8 Cls.write csC) default
    let s2 : State := landed (sourceHomed (nth ws 0 0) s1) State.reset
    readBlock (csC.g 5) csC = Got.ok ws s1 ∧
      sourceHomed (nth ws 0 0) s1 = Got.ok () s2 ∧
      sourceHomed (csC.g 5) csC = Got.ok () s23 ∧
      access (csC.g 5) 8 Cls.write csC = Got.ok pa s14 ∧
      csC.th.launch = some 0 ∧
      csC.core < 64 ∧
      s1.th.launch = some 0 ∧
      blockLegal ws = true ∧
      eventCount s2 s2.core < 256 ∧
      (16 : BitVec (32 : ℕ)) ≠ (0 : BitVec (32 : ℕ)) ∧
      eventCount s23 s23.core < 256 ∧
      windowClosed s14 pa = false ∧
      eventCount s14 s14.core < 256 :=
  ⟨(ok_of (by decide +kernel) default State.reset), (ok_of (by decide +kernel) default State.reset), (ok_of (by decide +kernel) default State.reset), (ok_of (by decide +kernel) default State.reset), by decide +kernel⟩

end Case5

namespace Case7

open Says

def cs := withRegs core0 [(1, 0x10), (2, 2), (3, 0x1008), (4, 0x2008), (5, 0x3000), (6, 0xFFFFFFFFFFFFFFFF), (7, 0x200C), (8, 0x3010)]
def pV := { part0 with heaps := [(0, (0x200000, 0x100000)), (1, (0x300000, 0x10000))] }
def csV := { cs with mem := cs.mem.writeAll 0x110000 (wordBytes [0x10000, 128, 2, 0]), parts := [(0, pV)] }
def reg0 : Region := ⟨0x10000, 128, 2, 0, 0x200000, 0x10000, [0x200000], 0, 1, [(0, ⟨3, [(2, List.replicate 64 5), (3, List.replicate 64 6)]⟩)], [], [], [], false⟩
def csV2 : State := withRegs { csV with parts := [(0, { pV with regions := [(0, reg0), (2, { reg0 with base := 0x20000, readers := [(1, ⟨2, 0⟩)] })] })] } [(9, 0), (10, 2), (11, 0x10000), (12, 0x20000), (13, 4), (14, 0x3000), (15, 3), (16, 1)]

theorem witness_RegionsAreDeclaredAndDropped_1 :
    let r : Region := (csV2.region? csV2.partNow (BitVec.toNat (csV2.g 9))).getD default
    featureOn csV2 1 = true ∧
      csV2.region? csV2.partNow (BitVec.toNat (csV2.g 9)) = some r ∧
      homeLost csV2 r = false ∧
      isTable csV2 csV2.partNow (BitVec.toNat (csV2.g 9)) = false ∧
      csV2.parked = [] :=
  by decide +kernel

theorem witness_RegionsAreDeclaredAndDropped_2 :
    let s1 : State := landed (loadPages 2 (csV.g 5) 32 csV) State.reset
    let bs : List Byte := valueOf (loadPages 2 (csV.g 5) 32 csV) default
    let hb : ℕ := ((reserveHeap s1 s1.partNow (BitVec.toNat (nth (bytesWords 4 bs) 2 0) / 256 % 8) (BitVec.toNat (nth (bytesWords 4 bs) 1 0)) (BitVec.toNat (nth (bytesWords 4 bs) 2 0) % 32)).getD default).1
    let pages : List ℕ := ((reserveHeap s1 s1.partNow (BitVec.toNat (nth (bytesWords 4 bs) 2 0) / 256 % 8) (BitVec.toNat (nth (bytesWords 4 bs) 1 0)) (BitVec.toNat (nth (bytesWords 4 bs) 2 0) % 32)).getD default).2.2
    let hs : ℕ := ((reserveHeap s1 s1.partNow (BitVec.toNat (nth (bytesWords 4 bs) 2 0) / 256 % 8) (BitVec.toNat (nth (bytesWords 4 bs) 1 0)) (BitVec.toNat (nth (bytesWords 4 bs) 2 0) % 32)).getD default).2.1
    loadPages 2 (csV.g 5) 32 csV = Got.ok bs s1 ∧
      featureOn csV 1 = true ∧
      BitVec.toNat (csV.g 5) % 8 = 0 ∧
      regionLegal s1 s1.partNow (BitVec.toNat (nth (bytesWords 4 bs) 0 0)) (BitVec.toNat (nth (bytesWords 4 bs) 1 0)) (BitVec.toNat (nth (bytesWords 4 bs) 2 0) % 32) = true ∧
      available s1 (BitVec.toNat (nth (bytesWords 4 bs) 2 0) / 256 % 8) = true ∧
      homeOwned s1 s1.partNow (BitVec.toNat (nth (bytesWords 4 bs) 2 0) / 256 % 8) = true ∧
      s1.wqueue = [] ∧
      List.length (s1.regionsOf s1.partNow) < 1024 ∧
      reserveHeap s1 s1.partNow (BitVec.toNat (nth (bytesWords 4 bs) 2 0) / 256 % 8) (BitVec.toNat (nth (bytesWords 4 bs) 1 0)) (BitVec.toNat (nth (bytesWords 4 bs) 2 0) % 32) = some (hb, hs, pages) :=
  ⟨(ok_of (by decide +kernel) default State.reset), by decide +kernel⟩

theorem witness_FloorsAreKept_1 :
    let r : Region := (csV2.region? csV2.partNow (BitVec.toNat (csV2.g 10))).getD default
    let x : Reader := (Table.find (BitVec.toNat (csV2.g 16)) r.readers).getD default
    featureOn csV2 1 = true ∧
      csV2.region? csV2.partNow (BitVec.toNat (csV2.g 10)) = some r ∧
      homeLost csV2 r = false ∧
      csV2.parked = [] ∧
      isTable csV2 csV2.partNow (BitVec.toNat (csV2.g 10)) = false ∧
      r.readers.firstFree 64 < 64 ∧
      Table.find (BitVec.toNat (csV2.g 16)) r.readers = some x :=
  by decide +kernel

theorem witness_VersionStoresCreate_1 :
    let s1 : State := landed (loadAl (csV2.g 14) 64 64 csV2) State.reset
    let bs : List Byte := valueOf (loadAl (csV2.g 14) 64 64 csV2) default
    let n : ℕ := ((regionAt (csV2.regionsOf csV2.partNow) (BitVec.toNat (csV2.g 11))).getD default).1
    let r : Region := ((regionAt (csV2.regionsOf csV2.partNow) (BitVec.toNat (csV2.g 11))).getD default).2
    loadAl (csV2.g 14) 64 64 csV2 = Got.ok bs s1 ∧
      Quiet s1 ∧
      featureOn csV2 1 = true ∧
      BitVec.toNat (csV2.g 11) % 64 = 0 ∧
      regionAt (csV2.regionsOf csV2.partNow) (BitVec.toNat (csV2.g 11)) = some (n, r) ∧
      homeLost csV2 r = false ∧
      isTable csV2 csV2.partNow n = false ∧
      s1.parked = [] ∧
      s1.region? s1.partNow n = some r ∧
      homeLost s1 r = false ∧
      isTable s1 s1.partNow n = false ∧
      s1.partNow = csV2.partNow ∧
      BitVec.toNat (csV2.g 13) = (r.gran ((BitVec.toNat (csV2.g 11) - r.base) / 64)).latest + 1 ∧
      r.canCreate ((BitVec.toNat (csV2.g 11) - r.base) / 64) (BitVec.toNat (csV2.g 13)) = true ∧
      heapFails s1 r ((BitVec.toNat (csV2.g 11) - r.base) / 64) (BitVec.toNat (csV2.g 13)) = false :=
  ⟨(ok_of (by decide +kernel) default State.reset), (by unfold Quiet; decide +kernel), by decide +kernel⟩

set_option maxRecDepth 4000 in
theorem witness_VersionLoadsAndStatus_1 :
    let r : Region := ((regionAt (csV2.regionsOf csV2.partNow) (BitVec.toNat (csV2.g 12))).getD default).2
    let n : ℕ := ((regionAt (csV2.regionsOf csV2.partNow) (BitVec.toNat (csV2.g 12))).getD default).1
    let m : ℕ := r.floor.getD default
    let v : ℕ × List Byte := (List.head? (r.gran ((BitVec.toNat (csV2.g 12) - r.base) / 64)).versions).getD default
    featureOn csV2 1 = true ∧
      BitVec.toNat (csV2.g 12) % 64 = 0 ∧
      regionAt (csV2.regionsOf csV2.partNow) (BitVec.toNat (csV2.g 12)) = some (n, r) ∧
      homeLost csV2 r = false ∧
      [(1 : Byte)] ≠ [] ∧
      List.head? (r.gran ((BitVec.toNat (csV2.g 12) - r.base) / 64)).versions = some v ∧
      isTable csV2 csV2.partNow n = false ∧
      r.floor = some m :=
  by decide +kernel

set_option maxRecDepth 4000 in
theorem witness_VersionLoadsAndStatus_2 :
    let s0 : State := landed (access (csV2.g 14) 64 Cls.write csV2) State.reset
    let pa : ℕ := valueOf (access (csV2.g 14) 64 Cls.write csV2) default
    let r : Region := ((regionAt (csV2.regionsOf csV2.partNow) (BitVec.toNat (csV2.g 11))).getD default).2
    let n : ℕ := ((regionAt (csV2.regionsOf csV2.partNow) (BitVec.toNat (csV2.g 11))).getD default).1
    let bs : List Byte := (Table.find (r.gran ((BitVec.toNat (csV2.g 11) - r.base) / 64)).latest (r.gran ((BitVec.toNat (csV2.g 11) - r.base) / 64)).versions).getD default
    let s1 : State := landed (storeAl (csV2.g 14) (versionData bs s0).1 64 (versionData bs s0).2) State.reset
    access (csV2.g 14) 64 Cls.write csV2 = Got.ok pa s0 ∧
      storeAl (csV2.g 14) (versionData bs s0).1 64 (versionData bs s0).2 = Got.ok () s1 ∧
      featureOn csV2 1 = true ∧
      BitVec.toNat (csV2.g 11) % 64 = 0 ∧
      regionAt (csV2.regionsOf csV2.partNow) (BitVec.toNat (csV2.g 11)) = some (n, r) ∧
      homeLost csV2 r = false ∧
      (s0.region? s0.partNow n = some r ∧ homeLost s0 r = false) ∧
      Table.find (r.gran ((BitVec.toNat (csV2.g 11) - r.base) / 64)).latest (r.gran ((BitVec.toNat (csV2.g 11) - r.base) / 64)).versions = some bs ∧
      heapFails s0 r ((BitVec.toNat (csV2.g 11) - r.base) / 64) (r.gran ((BitVec.toNat (csV2.g 11) - r.base) / 64)).latest = false ∧
      isTable csV2 csV2.partNow n = false ∧
      r.readers = [] :=
  ⟨(ok_of (by decide +kernel) default State.reset), (ok_of (by decide +kernel) default State.reset), by decide +kernel⟩

set_option maxRecDepth 4000 in
theorem witness_VersionLoadsAndStatus_3 :
    let s0 : State := landed (access (csV2.g 14) 64 Cls.write csV2) State.reset
    let pa : ℕ := valueOf (access (csV2.g 14) 64 Cls.write csV2) default
    let r : Region := ((regionAt (csV2.regionsOf csV2.partNow) (BitVec.toNat (csV2.g 11))).getD default).2
    let n : ℕ := ((regionAt (csV2.regionsOf csV2.partNow) (BitVec.toNat (csV2.g 11))).getD default).1
    let bs : List Byte := (Table.find (BitVec.toNat (csV2.g 15)) (r.gran ((BitVec.toNat (csV2.g 11) - r.base) / 64)).versions).getD default
    let s1 : State := landed (storeAl (csV2.g 14) (versionData bs s0).1 64 (versionData bs s0).2) State.reset
    access (csV2.g 14) 64 Cls.write csV2 = Got.ok pa s0 ∧
      storeAl (csV2.g 14) (versionData bs s0).1 64 (versionData bs s0).2 = Got.ok () s1 ∧
      featureOn csV2 1 = true ∧
      BitVec.toNat (csV2.g 11) % 64 = 0 ∧
      regionAt (csV2.regionsOf csV2.partNow) (BitVec.toNat (csV2.g 11)) = some (n, r) ∧
      homeLost csV2 r = false ∧
      (s0.region? s0.partNow n = some r ∧ homeLost s0 r = false) ∧
      BitVec.toNat (csV2.g 15) ≤ (r.gran ((BitVec.toNat (csV2.g 11) - r.base) / 64)).latest ∧
      Table.find (BitVec.toNat (csV2.g 15)) (r.gran ((BitVec.toNat (csV2.g 11) - r.base) / 64)).versions = some bs ∧
      heapFails s0 r ((BitVec.toNat (csV2.g 11) - r.base) / 64) (BitVec.toNat (csV2.g 15)) = false :=
  ⟨(ok_of (by decide +kernel) default State.reset), (ok_of (by decide +kernel) default State.reset), by decide +kernel⟩

end Case7

namespace Case8

open Says

def cs := withRegs core0 [(1, 0x10), (2, 2), (3, 0x1008), (4, 0x2008), (5, 0x3000), (6, 0xFFFFFFFFFFFFFFFF), (7, 0x200C), (8, 0x3010)]
def pV := { part0 with heaps := [(0, (0x200000, 0x100000)), (1, (0x300000, 0x10000))], pools := [(0, (0x300000, 0x10000))] }
def csV := { cs with mem := cs.mem.writeAll 0x110000 (wordBytes [0x10000, 128, 2, 0]), parts := [(0, pV)] }
def regT : Region := ⟨0x20000000, 4098*64, 2, 0, 0x200000, 0x90000, [0x200000], 0, 1, [], [], [], [], false⟩
def pol0 : Policy := ⟨0x20000000, true, 1000000, 10, 5, 4, 3⟩
def csP := withRegs { csV with parts := [(0, { pV with regions := [(3, regT)] })] } [(9, 4095), (10, 7)]
def csP1 := { csP with mem := csP.mem.writeAll 0x110000 (wordBytes [0x20000000, 0x103e800640543, 0,0,0,0,0,0]) }
def plc : Place := { Place.blank with policy := some pol0, region := 3 }
def csP2 := { csP with parts := [(0, { pV with regions := [(3, regT)], place := plc })] }
def exp : Expert := ⟨0x4000, 4096, [], [(0, 5)], [(0, 7)]⟩
def csP3 := { csP2 with parts := [(0, { pV with regions := [(3, regT)], place := {plc with experts := [(4095, exp)] }})] }
def csP4 := { csP2 with mem := csP.mem.writeAll 0x110000 (wordBytes [5, 0x4000, 64, 0] ++ sha384 (List.replicate 64 0)) }
def z1 := { csP4 with mem := csP.mem.writeAll 0x110000 (wordBytes [5, 0x4000, 64] ++ sha384 (List.replicate 64 0)) }

theorem witness_PlacementIsSetUp_2 :
    let r : Region := (csP3.table? csP3.partNow).getD default
    let e : Expert := (Table.find (BitVec.toNat (csP3.g 9)) (csP3.part csP3.partNow).place.experts).getD default
    let s4 : State := (entryWords r (BitVec.toNat (csP3.g 9)) (r.gran 0).latest csP3).2
    let ws : List ℕ := (entryWords r (BitVec.toNat (csP3.g 9)) (r.gran 0).latest csP3).1
    featureOn csP3 2 = true ∧
      csP3.core < 64 ∧
      BitVec.toNat (csP3.g 9) ≤ 4095 ∧
      Table.find (BitVec.toNat (csP3.g 9)) (csP3.part csP3.partNow).place.experts = some e ∧
      csP3.table? csP3.partNow = some r ∧
      homeLost csP3 r = false ∧
      entryWords r (BitVec.toNat (csP3.g 9)) (r.gran 0).latest csP3 = (ws, s4) ∧
      (∀ u ∈ (r.gran (BitVec.toNat (csP3.g 9) + 1)).versions, heapFails csP3 r (BitVec.toNat (csP3.g 9) + 1) u.1 = false) :=
  by decide +kernel

theorem witness_PlacementIsSetUp_3 :
    let v : Launch := csP1.launch?.getD default
    let s1 : State := landed (loadAl (csP1.g 5) 64 64 csP1) State.reset
    let bs : List Byte := valueOf (loadAl (csP1.g 5) 64 64 csP1) default
    let pol : Policy := (policyOf (bytesWords 8 bs)).getD default
    let n : ℕ := (tableRegion s1 s1.partNow pol.table).getD default
    loadAl (csP1.g 5) 64 64 csP1 = Got.ok bs s1 ∧
      featureOn csP1 2 = true ∧
      csP1.core < 64 ∧
      csP1.launch? = some v ∧
      v.placeCtl = true ∧
      policyOf (bytesWords 8 bs) = some pol ∧
      tableRegion s1 s1.partNow pol.table = some n ∧
      (s1.part s1.partNow).place.policy = none ∧
      s1.parked = [] :=
  ⟨(ok_of (by decide +kernel) default State.reset), by decide +kernel⟩

theorem witness_PlacementIsSetUp_4 :
    let s1 : State := landed (loadPages 2 (z1.g 5) 80 z1) State.reset
    let bs : List Byte := valueOf (loadPages 2 (z1.g 5) 80 z1) default
    let s2 : State := landed (translateAt (nth (bytesWords 10 bs) 1 0) Cls.read 0 s1) State.reset
    let pa : ℕ := valueOf (translateAt (nth (bytesWords 10 bs) 1 0) Cls.read 0 s1) default
    let s3 : State := landed (loadPages (BitVec.toNat (nth (bytesWords 10 bs) 2 0) / 4096 + 2) (nth (bytesWords 10 bs) 1 0) (BitVec.toNat (nth (bytesWords 10 bs) 2 0)) s2) State.reset
    let bytes : List Byte := valueOf (loadPages (BitVec.toNat (nth (bytesWords 10 bs) 2 0) / 4096 + 2) (nth (bytesWords 10 bs) 1 0) (BitVec.toNat (nth (bytesWords 10 bs) 2 0)) s2) default
    loadPages 2 (z1.g 5) 80 z1 = Got.ok bs s1 ∧
      translateAt (nth (bytesWords 10 bs) 1 0) Cls.read 0 s1 = Got.ok pa s2 ∧
      loadPages (BitVec.toNat (nth (bytesWords 10 bs) 2 0) / 4096 + 2) (nth (bytesWords 10 bs) 1 0) (BitVec.toNat (nth (bytesWords 10 bs) 2 0)) s2 = Got.ok bytes s3 ∧
      featureOn z1 2 = true ∧
      z1.core < 64 ∧
      BitVec.toNat (z1.g 5) % 8 = 0 ∧
      (s1.part s1.partNow).place.policy.isSome = true ∧
      Table.find (BitVec.toNat (nth (bytesWords 10 bs) 0 0) % 4096) (s1.part s1.partNow).place.experts = none ∧
      tableVersion s1 s1.partNow = 0 ∧
      (s1.part s1.partNow).place.wasRead = false ∧
      expertSizeOk (BitVec.toNat (nth (bytesWords 10 bs) 2 0)) = true ∧
      homeDie pa < 8 ∧
      sha384 bytes = List.take 48 (List.drop 24 bs) ∧
      (∀ (r : Region), s3.table? s1.partNow = some r → homeLost s3 r = false ∧ heapFails s3 r (BitVec.toNat (nth (bytesWords 10 bs) 0 0) % 4096 + 1) 0 = false) :=
  ⟨(ok_of (by decide +kernel) default State.reset), (ok_of (by decide +kernel) default State.reset), (ok_of (by decide +kernel) default State.reset), by decide +kernel⟩

theorem witness_PlacementActionsAreQueued_1 :
    let v : Launch := (Table.find 0 csP2.launches).getD default
    let pol : Policy := (csP2.part v.part).place.policy.getD default
    Quiet csP2 ∧
      featureOn csP2 2 = true ∧
      csP2.core < 64 ∧
      csP2.th.launch = some 0 ∧
      Table.find 0 csP2.launches = some v ∧
      v.placeCtl = true ∧
      (csP2.part v.part).place.policy = some pol ∧
      eventCount csP2 csP2.core < 256 ∧
      BitVec.toNat (csP2.g 9) ≤ 4095 ∧
      BitVec.toNat (csP2.g 10) ≤ 7 ∧
      (csP2.part v.part).place.actions = [] :=
  ⟨(by unfold Quiet; decide +kernel), by decide +kernel⟩

end Case8

namespace Case9

open Says

def mg0 : State := { core0 with core := 64, th := { Thread.management 0 with trapVec := 0x100 }, threads := [], cores := [(64, ⟨some 0, [], [], false⟩)], io := { core0.io with mgmtRoot := 0x100000 } }
def mg := withRegs { mg0 with launches := [(0, { launch0 with ident := 7 })] } [(1, 7), (5, 0x3000), (6, 28), (7, 0x7000), (8, 0x1000), (9, 1), (10, 65)]
def mgH := mg.mapLaunch 0 (fun v => {v with status := .halted})
def qs (st : Nat) : State := { mg with parts := [(1, { part0 with queues := [(1, { Queue.blank with state := st })] })] }
def mgF : State := { mg with io := { mg.io with slots := [(1, ⟨[1,2,3], 3, true⟩)] }, th := { mg.th with id := 0 } }
def z1 := { mgF with core := 65 }
def mgK := withRegs mg [(6, 0), (7, 16+64)]

theorem witness_PreemptionInstructions_1 :
    let v : Launch := ((placedLaunch mg (mg.g 1)).getD default).2
    let l : ℕ := ((placedLaunch mg (mg.g 1)).getD default).1
    64 ≤ mg.core ∧
      mg.th.launch = none ∧
      eventCount mg mg.core < 256 ∧
      (∀ p ∈ mg.threads, p.2.id ≠ mg.th.id) ∧
      placedLaunch mg (mg.g 1) = some (l, v) ∧
      Table.find l mg.launches = some v ∧
      v.status = LaunchStatus.placed :=
  by decide +kernel

theorem witness_PreemptionInstructions_2 :
    let v : Launch := ((placedLaunch mgH (mgH.g 1)).getD default).2
    let l : ℕ := ((placedLaunch mgH (mgH.g 1)).getD default).1
    64 ≤ mgH.core ∧
      mgH.th.launch = none ∧
      eventCount mgH mgH.core < 256 ∧
      (∀ p ∈ mgH.threads, p.2.id ≠ mgH.th.id) ∧
      placedLaunch mgH (mgH.g 1) = some (l, v) ∧
      Table.find l mgH.launches = some v ∧
      v.status = LaunchStatus.halted ∧
      BitVec.toNat (mgH.g 7) % 4096 = 0 :=
  by decide +kernel

theorem witness_QueuesAreQuiesced_1 :
    64 ≤ (qs qQUIESCED).core ∧
      BitVec.toNat ((qs qQUIESCED).g 10) < 1024 ∧
      ((qs qQUIESCED).queue (BitVec.toNat ((qs qQUIESCED).g 10) / 64) (BitVec.toNat ((qs qQUIESCED).g 10) % 64)).state = qQUIESCED :=
  by decide +kernel

theorem witness_QueuesAreQuiesced_2 :
    64 ≤ (qs qOVERRUN).core ∧
      BitVec.toNat ((qs qOVERRUN).g 10) < 1024 ∧
      (((qs qOVERRUN).queue (BitVec.toNat ((qs qOVERRUN).g 10) / 64) (BitVec.toNat ((qs qOVERRUN).g 10) % 64)).state = qOVERRUN ∨ ((qs qOVERRUN).queue (BitVec.toNat ((qs qOVERRUN).g 10) / 64) (BitVec.toNat ((qs qOVERRUN).g 10) % 64)).state = qRESETTING ∨ ((qs qOVERRUN).queue (BitVec.toNat ((qs qOVERRUN).g 10) / 64) (BitVec.toNat ((qs qOVERRUN).g 10) % 64)).state = qDISABLED) :=
  by decide +kernel

theorem witness_QueuesAreQuiesced_3 :
    64 ≤ (qs qACTIVE).core ∧
      BitVec.toNat ((qs qACTIVE).g 10) < 1024 ∧
      ((qs qACTIVE).queue (BitVec.toNat ((qs qACTIVE).g 10) / 64) (BitVec.toNat ((qs qACTIVE).g 10) % 64)).state = qACTIVE ∧
      queueBusy (qs qACTIVE) (BitVec.toNat ((qs qACTIVE).g 10) / 64) (BitVec.toNat ((qs qACTIVE).g 10) % 64) = false :=
  by decide +kernel

theorem witness_FirmwareInstructions_1 :
    let s12 : State := landed (loadPages 2 (mgF.g 9) 48 mgF) State.reset
    let bs3 : List Byte := valueOf (loadPages 2 (mgF.g 9) 48 mgF) default
    let s1 : State := landed (loadPages (BitVec.toNat (mgF.g 6) / 4096 + 2) (mgF.g 9) (BitVec.toNat (mgF.g 6)) mgF) State.reset
    let bs : List Byte := valueOf (loadPages (BitVec.toNat (mgF.g 6) / 4096 + 2) (mgF.g 9) (BitVec.toNat (mgF.g 6)) mgF) default
    loadPages (BitVec.toNat (mgF.g 6) / 4096 + 2) (mgF.g 9) (BitVec.toNat (mgF.g 6)) mgF = Got.ok bs s1 ∧
      loadPages 2 (mgF.g 9) 48 mgF = Got.ok bs3 s12 ∧
      64 ≤ mgF.core ∧
      BitVec.toNat (mgF.g 6) ≤ 2 ^ 24 ∧
      s1.io = mgF.io ∧
      28 ≤ BitVec.toNat (mgF.g 6) ∧
      BitVec.toNat (mgF.g 6) ≤ 31 ∧
      s12.io = mgF.io ∧
      BitVec.toNat (mgF.g 9) ≤ 1 ∧
      BitVec.toNat (mgF.g 9) ≠ mgF.io.fwslot ∧
      (mgF.fw (BitVec.toNat (mgF.g 9))).verified = true ∧
      allQuiet mgF = true ∧
      mgF.core = 64 ∧
      mgF.th.id = 0 ∧
      (∀ u ∈ mgF.allThreads, u.id < mgF.nextThread) :=
  ⟨(ok_of (by decide +kernel) default State.reset), (ok_of (by decide +kernel) default State.reset), by decide +kernel⟩

theorem witness_FirmwareInstructions_2 :
    64 ≤ (withRegs mgF [(6, 16777217)]).core ∧
      2 ^ 24 < BitVec.toNat ((withRegs mgF [(6, 16777217)]).g 6) :=
  by decide +kernel

theorem witness_FirmwareInstructions_3 :
    64 ≤ z1.core ∧
      z1.core ≠ 64 ∧
      deadlinePassed z1 = none :=
  by decide +kernel

theorem witness_KeysAreLoaded_1 :
    let s1 : State := landed (loadPages 2 (mgK.g 5) 112 mgK) State.reset
    let blob : List Byte := valueOf (loadPages 2 (mgK.g 5) 112 mgK) default
    loadPages 2 (mgK.g 5) 112 mgK = Got.ok blob s1 ∧
      64 ≤ mgK.core ∧
      BitVec.toNat (mgK.g 6) < 4096 ∧
      (BitVec.toNat (mgK.g 6) / 16 % 4 = 0 ∧ BitVec.toNat (mgK.g 6) / 64 = 0 ∨ BitVec.toNat (mgK.g 6) / 16 % 4 = 1) :=
  ⟨(ok_of (by decide +kernel) default State.reset), by decide +kernel⟩

end Case9


/-! ## The statements about a whole step -/

/-- The state an outcome goes on to. -/
def nextOf (o : Out) (z : State) : State :=
  match o with
  | .next s => s
  | _ => z

def isNext (o : Out) : Bool :=
  match o with
  | .next _ => true
  | _ => false

theorem next_of {o : Out} (h : isNext o = true) (z : State) : o = .next (nextOf o z) := by
  cases o with
  | next s => rfl
  | fault f => cases h
  | refused r => cases h

theorem witness_ElementOperands_1 :
    (word 2 false true 3 5).arity = 2 ∧ (word 1 true true 3 5).arity = 1 ∧ (word 1 true true 3 5).immb = true ∧ 4 ∣ 64 ∧ 4 ≠ 0 ∧
      (word 1 false true 3 5).arity = 1 ∧ (word 1 false true 3 5).immb = false := by decide

/-- Management core 0 fetches ADDI, and a word that decodes to none. -/
def readyFor (w : Nat) : State := let s := mgState w; { s with core := 64, ir := 0 }

theorem witness_StepRunsDecodedInstruction_1 :
    let s := mgState 0x04A6FFFE
    let s1 := (readyFor 0x04A6FFFE).focus 0
    let x := fetchInstr s1
    (x = .ok (valueOf x (0, 0)) (landed x State.reset)) ∧
    64 < 68 ∧ s.agenda = [.core 64] ∧ ((readyFor 0x04A6FFFE).coreAt 64).running = some 0 ∧ s1.th.id = 0 ∧
      s1.th.status = .running 64 ∧ breakpointHit s1 = none ∧ decodeWord (valueOf x (0, 0)).1 (valueOf x (0, 0)).2 = some (.addi 5 6 0xFFFE) :=
  ⟨ok_of (by decide +kernel) _ _, by decide +kernel⟩

theorem witness_StepRunsDecodedInstruction_2 :
    let s1 := (readyFor 0x84000001).focus 0
    let x := fetchInstr s1
    (x = .ok (valueOf x (0, 0)) (landed x State.reset)) ∧
    s1.th.id = 0 ∧ s1.th.status = .running 64 ∧ breakpointHit s1 = none ∧ decodeWord (valueOf x (0, 0)).1 (valueOf x (0, 0)).2 = none ∧
      vfloorOp3 (valueOf x (0, 0)).1 = false :=
  ⟨ok_of (by decide +kernel) _ _, by decide +kernel⟩

/-- The same core with its PC where no page is mapped. -/
def unmapped : State := let s := (readyFor 0).focus 0; { s with th := { s.th with pc := 0x40000000 } }

/-- The state of an access that a trap or a wait ends. -/
def stopped {α : Type} (x : Got α) (z : State) : State :=
  match x with
  | .ok _ _ => z
  | .stop t => t

theorem stop_of {α : Type} {x : Got α} (h : x.isOk = false) (z : State) : x = .stop (stopped x z) := by
  cases x with
  | ok v s => cases h
  | stop t => rfl

theorem witness_StepRunsDecodedInstruction_3 :
    (fetchInstr unmapped = .stop (stopped (fetchInstr unmapped) State.reset)) ∧ breakpointHit unmapped = none :=
  ⟨stop_of (by decide +kernel) State.reset, by decide +kernel⟩

/-- Core 0's continuation at an armed breakpoint. -/
def armed : State := let s := { core0 with th := { core0.th with pc := 0x140 } }; s.putCtx { s.ctx with brkCtl := 2, brkAddr := [(1, 0x140)] }

theorem witness_StepRunsDecodedInstruction_4 : breakpointHit armed = some 1 := by decide +kernel

/-- An element of stripe 0 with one instance of an instruction at hand, and with none. -/
def issuable : State := State.reset.withFetchWord 128 0x01600000833000000505050505050505
def idle : State := issuable.setElem 0 0 Elem.blank

theorem witness_StepRunsIssuesAndEvents_1 :
    let s0 := { issuable with agenda := [] }
    let g := gather 8 0 0 s0
    (exec (g.1.getD .cyield) g.2 = .next (nextOf (exec (g.1.getD .cyield) g.2) State.reset)) ∧
    issuable.agenda = [.issue 0 0] ∧ g.1 = some (g.1.getD .cyield) ∧ leftOver 0 0 (nextOf (exec (g.1.getD .cyield) g.2) State.reset) = [] :=
  ⟨next_of (by decide +kernel) _, by decide +kernel⟩

theorem witness_StepRunsIssuesAndEvents_2 : idle.agenda = [.issue 0 0] ∧ (gather 8 0 0 { idle with agenda := [] }).1 = none := by decide +kernel

theorem witness_StepRunsIssuesAndEvents_3 :
    { core0 with agenda := [.event .energyWindowBoundary] }.agenda = .event .energyWindowBoundary :: [] ∧
      { core0 with agenda := [.tick 7] }.agenda = .tick 7 :: [] ∧ State.reset.agenda = [] ∧ State.reset.io.booted = false := by decide +kernel

theorem witness_MemoryStaysCanonical_1 : (mgState 0x04A6FFFE).Inv ∧ step (mgState 0x04A6FFFE) = .next (nextOf (step (mgState 0x04A6FFFE)) State.reset) :=
  ⟨by show _ = true; decide +kernel, next_of (by decide +kernel) _⟩

theorem witness_UmenoFlits_9 :
    (∃ header payload tag, header ++ payload ++ tag = sealFlit Case26.k32 (Case26.hd 9 0) (Case26.bd 0x3000 [5]).bytes) ∧
      ∃ seq ident payload tag, seq ++ ident ++ payload ++ tag = sealFlit Case26.k32 (Case26.hd 9 2) Case26.ackBad.bytes :=
  ⟨⟨_, _, _, rfl⟩, (Case26.hd 9 2).bytes.take 8, (Case26.hd 9 2).bytes.drop 8, _, _, by rw [List.take_append_drop]; rfl⟩

theorem witness_EventsKeepMemoryAndThreads_1 :
    exec (.waveDelivery 0) core0 = .next (nextOf (exec (.waveDelivery 0) core0) core0) ∧
      exec .energyWindowBoundary core0 = .next (nextOf (exec .energyWindowBoundary core0) core0) ∧
      exec (.queueEnable 0 3 1) core0 = .next (nextOf (exec (.queueEnable 0 3 1) core0) core0) :=
  ⟨next_of (by decide +kernel) _, next_of (by decide +kernel) _, next_of (by decide +kernel) _⟩

theorem witness_NonStoringInstructionsKeepTheRest_1 :
    Quiet core0 ∧ core0.parked = [] ∧ core0.core < 64 ∧ core0.th.launch = some 0 ∧ core0.th.inTrap = false ∧ core0.th.trapVec ≠ 0 ∧
      exec (.cyield) core0 = .next (nextOf (exec .cyield core0) core0) ∧ exec (.cyc 5) core0 = .next (nextOf (exec (.cyc 5) core0) core0) ∧
      exec (.fence 5 3) core0 = .next (nextOf (exec (.fence 5 3) core0) core0) ∧
      exec (.vstat 5 6 1) core0 = .next (nextOf (exec (.vstat 5 6 1) core0) core0) :=
  ⟨by unfold Quiet; decide +kernel, by decide +kernel, by decide +kernel, by decide +kernel, by decide +kernel, by decide +kernel,
    next_of (by decide +kernel) _, next_of (by decide +kernel) _, next_of (by decide +kernel) _, next_of (by decide +kernel) _⟩

/-! ## The scaled path -/

/-- An activation, and a weight, of the scaled path as numbers. -/
def actOf (k : Keys) (v : Elem) (a : Tile) (r i : Nat) : FVal := (ffOf v.afmt).val ((ffOf v.afmt).flushIn k.fsi (a.elem r i))
def weightOf (k : Keys) (v : Elem) (p : Nat) : FVal :=
  (ffOf v.wfmt).val ((ffOf v.wfmt).flushIn k.fsi (sliceCode v.slice (ffOf v.wfmt).w p))

/-- Every factor of a position's sum is a number; here no scale tiles are there. -/
def goodAt (k : Keys) (v : Elem) (nd : Node) (a : Tile) (row0 r n : Nat) : Bool :=
  (List.range 64).all (fun i => FVal.finite (actOf k v a r i) && FVal.finite (weightOf k v (20 * i + n)))
    && FVal.finite (ffF32.val (nd.at (row0 + r) n))

def sumAt (k : Keys) (v : Elem) (a : Tile) (r n : Nat) : ℚ :=
  ((List.range 64).map (fun i => FVal.number (actOf k v a r i) * FVal.number (weightOf k v (20 * i + n)))).sum

def noKeys : Keys := ⟨false, false, false, false⟩
def scaledNode : Node := ⟨false, 4, 2, 2, [], [], 0, 0x8330, 0xA000, 0, 0, false⟩
def scaledElem (b : Byte) : Elem := { Elem.blank with wfmt := 12, afmt := 11, slice := List.replicate 2752 b }
def scaledTile (b : Byte) : Tile := ⟨11, 2, 64, (List.range 128).map (fun i => (i, b))⟩

/-- The last position of band 1 under the mode toward −infinity, its sum not zero. -/
theorem witness_MatrixSumsRoundOnce_1 :
    let v := scaledElem 0x3C
    (1 : Nat) ≠ 0 ∧ v.wfmt ≠ 14 ∧ v.afmt ≠ 0 ∧ 0 < scaledNode.kblk ∧ 3 ≤ 3 ∧ 1 < min scaledNode.brows (scaledNode.rows - 3 / scaledNode.kblk * scaledNode.brows)
      ∧ 19 < 20 ∧ goodAt noKeys v scaledNode (scaledTile 0x38) 2 1 19 = true ∧ sumAt noKeys v (scaledTile 0x38) 1 19 ≠ 0 := by decide +kernel

/-- Its sum zero. -/
theorem witness_MatrixSumsRoundOnce_2 :
    let v := scaledElem 0
    (1 : Nat) ≠ 0 ∧ v.wfmt ≠ 14 ∧ v.afmt ≠ 0 ∧ 0 < scaledNode.kblk ∧ 3 ≤ 3 ∧ 1 < min scaledNode.brows (scaledNode.rows - 3 / scaledNode.kblk * scaledNode.brows)
      ∧ 19 < 20 ∧ goodAt noKeys v scaledNode (scaledTile 0x38) 2 1 19 = true ∧ sumAt noKeys v (scaledTile 0x38) 1 19 = 0 := by decide +kernel

/-- A NaN among the activations, at the last place of the row. -/
theorem witness_MatrixSumsRoundOnce_3 :
    let v := scaledElem 0x3C
    let a : Tile := ⟨11, 2, 64, [(127, 0x7F)]⟩
    (1 : Nat) ≠ 0 ∧ v.wfmt ≠ 14 ∧ v.afmt ≠ 0 ∧ 0 < scaledNode.kblk ∧ 1 < min scaledNode.brows (scaledNode.rows - 3 / scaledNode.kblk * scaledNode.brows)
      ∧ 19 < 20 ∧ 63 < 64 ∧ (actOf noKeys v a 1 63).isNan = true := by decide +kernel

/-- Numbers in every position of a node of one row. -/
def allGood (v : Elem) : Bool :=
  let nd : Node := { scaledNode with rows := 1, brows := 1 }
  (List.range 20).all (fun n => goodAt noKeys v nd (scaledTile 0x38) 0 0 n)

theorem witness_MatrixSumsRoundOnce_4 : allGood { scaledElem 0 with slice := [] } = true := by decide +kernel

end Sys2Proof.Tests
end

section
/-!
SUPPORT. Encodings: the fields of a word of each format, what the decoder answers on them, and the round trip of every instruction (R16 to R35).
-/

namespace Sys2Proof

/-! ## Bit fields of a sum -/

/-- A field depends on the bits up to its highest one only. -/
theorem bits_eq_of_mod {v w hi lo : Nat} (hlo : lo ≤ hi + 1) (h : v % 2 ^ (hi + 1) = w % 2 ^ (hi + 1)) : bits v hi lo = bits w hi lo := by
  have cut : ∀ x, bits x hi lo = x % 2 ^ (hi + 1) / 2 ^ lo := fun x => by
    rw [bits, show 2 ^ (hi + 1) = 2 ^ lo * 2 ^ (hi + 1 - lo) by rw [← Nat.pow_add]; congr 1; omega, Nat.mod_mul_right_div_self]
  rw [cut, cut, h]

theorem ofBool_le (c : Bool) : ofBool c ≤ 1 := by cases c <;> decide

theorem ofBool_beq (c : Bool) : (ofBool c == 1) = c := by cases c <;> rfl

theorem regOf_val (r : Reg) : regOf r.val = r := Fin.ext (Nat.mod_eq_of_lt r.isLt)

/-! ## Fields of a control-core word (R30): every format is FI with its low half filled by its fields. -/

section Fields

variable {maj imm : Nat} (d a : Reg)

theorem fi_lt (hm : maj < 64) (hi : imm < 65536) : fi maj d a imm < 2 ^ 32 := by
  have := d.isLt; have := a.isLt
  simp only [fi, Nat.reducePow]; omega

theorem fi_maj (hm : maj < 64) (hi : imm < 65536) : bits (fi maj d a imm) 31 26 = maj := by
  have := d.isLt; have := a.isLt
  simp only [bits, fi, Nat.reducePow, Nat.reduceAdd, Nat.reduceSub]; omega

theorem fi_d (hi : imm < 65536) : regOf (bits (fi maj d a imm) 25 21) = d := by
  have := d.isLt; have := a.isLt
  rw [show bits (fi maj d a imm) 25 21 = d.val by
    simp only [bits, fi, Nat.reducePow, Nat.reduceAdd, Nat.reduceSub]; omega, regOf_val]

theorem fi_a (hi : imm < 65536) : regOf (bits (fi maj d a imm) 20 16) = a := by
  have := d.isLt; have := a.isLt
  rw [show bits (fi maj d a imm) 20 16 = a.val by
    simp only [bits, fi, Nat.reducePow, Nat.reduceAdd, Nat.reduceSub]; omega, regOf_val]

/-- The low half of a word holds its immediate. -/
theorem fi_mod {n : Nat} (hn : n ≤ 16) : fi maj d a imm % 2 ^ n = imm % 2 ^ n := by
  obtain ⟨c, hc⟩ := Nat.pow_dvd_pow 2 hn
  rw [show fi maj d a imm = imm + 2 ^ n * (c * (maj * 2 ^ 10 + d.val * 2 ^ 5 + a.val)) by
    rw [← Nat.mul_assoc, ← hc, fi]; ring, Nat.add_mul_mod_self_left]

theorem fi_low {hi lo : Nat} (h : hi < 16) (hlo : lo ≤ hi + 1) : bits (fi maj d a imm) hi lo = bits imm hi lo :=
  bits_eq_of_mod hlo (fi_mod d a h)

theorem fi_ofNat {n : Nat} (hn : n ≤ 16) : BitVec.ofNat n (fi maj d a imm) = BitVec.ofNat n imm :=
  BitVec.eq_of_toNat_eq (by simp only [BitVec.toNat_ofNat, fi_mod d a hn])

end Fields

/-! ## Words by their major code -/

/-- A word reads as an instruction, whatever word follows it. -/
def ReadsAs (w : Nat) (i : Instr) : Prop := w < 2 ^ 32 ∧ instrLength w = 4 ∧ ∀ w1, decodeWord w w1 = some i

/-- Two words, the first one lowest, read as a long form (R31). -/
def ReadsLong (w : Nat) (i : Instr) : Prop :=
  w < 2 ^ 64 ∧ instrLength (w % 2 ^ 32) = 8 ∧ decodeWord (w % 2 ^ 32) (w / 2 ^ 32) = some i

section Majors

variable {d a b : Reg} {i : Instr}

theorem readsAs_fi {maj imm : Nat} (hm : maj < 0x3F) (hi : imm < 65536) (h : ∀ w1, decodeWord (fi maj d a imm) w1 = some i) :
    ReadsAs (fi maj d a imm) i := by
  refine ⟨fi_lt d a (by omega) hi, ?_, h⟩
  rw [instrLength, fi_maj d a (by omega) hi, if_neg (Nat.ne_of_lt hm)]

/-! ### Format F3 -/

theorem f3_low (b : Reg) {func : Nat} (hf : func < 2048) :
    b.val * 2048 + func < 65536 ∧ regOf (bits (b.val * 2048 + func) 15 11) = b ∧
      ∀ hi lo, hi < 11 → lo ≤ hi + 1 → bits (b.val * 2048 + func) hi lo = bits func hi lo := by
  have hb := b.isLt
  refine ⟨by omega, ?_, fun hi lo h hlo => bits_eq_of_mod hlo ?_⟩
  · rw [show bits (b.val * 2048 + func) 15 11 = b.val by simp only [bits, Nat.reducePow, Nat.reduceAdd, Nat.reduceSub]; omega, regOf_val]
  · obtain ⟨c, hc⟩ := Nat.pow_dvd_pow 2 (show hi + 1 ≤ 11 by omega)
    rw [show b.val * 2048 + func = func + 2 ^ (hi + 1) * (c * b.val) by rw [← Nat.mul_assoc, ← hc]; ring, Nat.add_mul_mod_self_left]

theorem f3_eq_fi (maj : Nat) (d a b : Reg) (func : Nat) : f3 maj d a b func = fi maj d a (b.val * 2048 + func) := Nat.add_assoc ..

theorem readsAs_alu {func : Nat} (hf : func < 2048) (h : decodeAlu d a b func = some i) : ReadsAs (f3 0x00 d a b func) i := by
  obtain ⟨himm, hb, hlow⟩ := f3_low b hf
  rw [f3_eq_fi]
  refine readsAs_fi (by decide) himm fun w1 => ?_
  have hfunc : bits func 10 0 = func := by simp only [bits, Nat.reducePow, Nat.reduceAdd, Nat.reduceSub]; omega
  simp (disch := omega) only [decodeWord, fi_maj, fi_d, fi_a, fi_low, hb, hlow, hfunc, h]

/-- The fields of an AMO or RED word below its registers (R34). -/
theorem amo_low {aop : Nat} (ha : aop < 16) (size : BitVec 2) (scope : BitVec 3) :
    let func := size.toNat * 2 ^ 9 + aop * 2 ^ 5 + scope.toNat * 2 ^ 2
    func < 2048 ∧ bits func 1 0 = 0 ∧ bits func 8 5 = aop ∧ bits func 10 9 = size.toNat ∧ bits func 4 2 = scope.toNat := by
  have hs := size.isLt
  have hc := scope.isLt
  simp only [bits, Nat.reducePow, Nat.reduceAdd, Nat.reduceSub] at hs hc ⊢
  omega

theorem readsAs_amo {aop : Nat} {size : BitVec 2} {scope : BitVec 3} (ha : aop < 16) (h : decodeAmo d a b aop size scope = some i) :
    ReadsAs (amoW d a b aop size.toNat scope.toNat) i := by
  obtain ⟨hf, hz, haop, hsize, hscope⟩ := amo_low ha size scope
  obtain ⟨himm, hb, hlow⟩ := f3_low b hf
  rw [amoW, f3_eq_fi]
  refine readsAs_fi (by decide) himm fun w1 => ?_
  simp (disch := omega) only [decodeWord, fi_maj, fi_d, fi_a, fi_low, hb, hlow, hz, haop, hsize, hscope, if_true, BitVec.ofNat_toNat,
    BitVec.setWidth_eq, h]

theorem readsAs_red {aop : Nat} {size : BitVec 2} {scope : BitVec 3} (ha : aop < 16) (h : decodeRed a b aop size scope = some i) :
    ReadsAs (redW a b aop size.toNat scope.toNat) i := by
  obtain ⟨hf, hz, haop, hsize, hscope⟩ := amo_low ha size scope
  obtain ⟨himm, hb, hlow⟩ := f3_low b hf
  rw [redW, f3_eq_fi]
  refine readsAs_fi (by decide) himm fun w1 => ?_
  simp (disch := omega) only [decodeWord, fi_maj, fi_d, fi_a, fi_low, hb, hlow, hz, haop, hsize, hscope, and_self, if_true, BitVec.ofNat_toNat,
    BitVec.setWidth_eq, h]

/-! ### Format FM -/

theorem fm_eq_fi (maj : Nat) (d a : Reg) (mode size off : Nat) :
    fm maj d a mode size off = fi maj d a (mode * 8192 + size * 2048 + off) := by
  simp only [fm, fi, Nat.reducePow]; omega

theorem fm_low {mode : Nat} (hm : mode < 8) (size : BitVec 2) (off : BitVec 11) :
    let imm := mode * 8192 + size.toNat * 2048 + off.toNat
    imm < 65536 ∧ bits imm 15 13 = mode ∧ bits imm 12 11 = size.toNat ∧ BitVec.ofNat 11 imm = off := by
  have hs := size.isLt
  have ho := off.isLt
  refine ⟨by omega, ?_, ?_, BitVec.eq_of_toNat_eq ?_⟩
  all_goals simp only [bits, BitVec.toNat_ofNat, Nat.reducePow, Nat.reduceAdd, Nat.reduceSub] at hs ho ⊢; omega

theorem readsAs_fm {maj mode : Nat} {size : BitVec 2} {off : BitVec 11} (hm : maj < 0x3F) (hmode : mode < 8)
    (h : ∀ imm w1, bits imm 15 13 = mode → bits imm 12 11 = size.toNat → BitVec.ofNat 11 imm = off → imm < 65536 →
      decodeWord (fi maj d a imm) w1 = some i) : ReadsAs (fm maj d a mode size.toNat off.toNat) i := by
  obtain ⟨himm, h1, h2, h3⟩ := fm_low hmode size off
  rw [fm_eq_fi]
  exact readsAs_fi hm himm fun w1 => h _ w1 h1 h2 h3 himm

/-! ### Format FI -/

theorem ldm_low (n : BitVec 5) (off : BitVec 11) :
    let imm := n.toNat * 2048 + off.toNat
    imm < 65536 ∧ BitVec.ofNat 5 (bits imm 15 11) = n ∧ BitVec.ofNat 11 imm = off := by
  have hn := n.isLt
  have ho := off.isLt
  refine ⟨by omega, BitVec.eq_of_toNat_eq ?_, BitVec.eq_of_toNat_eq ?_⟩
  all_goals simp only [bits, BitVec.toNat_ofNat, Nat.reducePow, Nat.reduceAdd, Nat.reduceSub] at hn ho ⊢; omega

theorem shift_low (sh : BitVec 6) : sh.toNat < 65536 ∧ bits sh.toNat 15 6 = 0 := by
  have hs := sh.isLt
  simp only [bits, Nat.reducePow, Nat.reduceAdd, Nat.reduceSub] at hs ⊢
  omega

/-! ### Format FS -/

theorem fs_eq_fi (maj : Nat) (d a : Reg) (minor : Nat) (b : Reg) (fl : Nat) :
    fs maj d a minor b fl = fi maj d a (minor * 1024 + b.val * 32 + fl) := by
  simp only [fs, fi, Nat.reducePow]; omega

theorem fs_add (maj : Nat) (d a : Reg) (minor : Nat) (b : Reg) (fl : Nat) : fs maj d a minor b 0 + fl = fs maj d a minor b fl := by
  simp only [fs, Nat.add_zero]

/-- The decoders of the major codes whose low half holds MINOR, GB and FL, and nothing else (R30). -/
def fsDecoder : Nat → Option (Reg → Reg → Reg → Nat → Nat → Option Instr)
  | 0x20 => some decodeFs20
  | 0x24 => some decodeFs24
  | 0x25 => some decodeFs25
  | 0x26 => some decodeFs26
  | 0x27 => some decodeFs27
  | 0x28 => some decodeFs28
  | 0x29 => some decodeFs29
  | 0x2C => some decodeFs2C
  | _ => none

theorem decodeWord_fs {maj imm : Nat} {dec : Reg → Reg → Reg → Nat → Nat → Option Instr} (hdec : fsDecoder maj = some dec) (hi : imm < 65536) :
    maj < 0x3F ∧ ∀ w1, decodeWord (fi maj d a imm) w1 = dec d a (regOf (bits imm 9 5)) (bits imm 4 0) (bits imm 15 10) := by
  unfold fsDecoder at hdec
  split at hdec
  all_goals cases hdec
  all_goals
    refine ⟨by decide, fun w1 => ?_⟩
    simp (disch := omega) only [decodeWord, fi_maj, fi_d, fi_a, fi_low]

theorem readsAs_fs {maj minor fl : Nat} {dec : Reg → Reg → Reg → Nat → Nat → Option Instr} (hdec : fsDecoder maj = some dec) (hn : minor < 64)
    (hf : fl < 32) (h : dec d a b fl minor = some i) : ReadsAs (fs maj d a minor b fl) i := by
  have hb := b.isLt
  have himm : minor * 1024 + b.val * 32 + fl < 65536 := by omega
  have hgb : bits (minor * 1024 + b.val * 32 + fl) 9 5 = b.val := by simp only [bits, Nat.reducePow, Nat.reduceAdd, Nat.reduceSub]; omega
  have hfl : bits (minor * 1024 + b.val * 32 + fl) 4 0 = fl := by simp only [bits, Nat.reducePow, Nat.reduceAdd, Nat.reduceSub]; omega
  have hminor : bits (minor * 1024 + b.val * 32 + fl) 15 10 = minor := by simp only [bits, Nat.reducePow, Nat.reduceAdd, Nat.reduceSub]; omega
  obtain ⟨hm, hword⟩ := decodeWord_fs hdec himm
  rw [fs_eq_fi]
  exact readsAs_fi hm himm fun w1 => by rw [hword, hgb, hfl, hminor, regOf_val, h]

/-- MAJ 0x21, whose low ten bits some instructions read as one field (R142, R144). -/
theorem readsAs_fs21 {minor fl : Nat} (hn : minor < 64) (hf : fl < 1024)
    (h : decodeFs21 d a (regOf (fl / 32)) (fl % 32) fl minor = some i) : ReadsAs (fs 0x21 d a minor 0 fl) i := by
  rw [fs_eq_fi, show minor * 1024 + (0 : Reg).val * 32 + fl = minor * 1024 + fl by rw [Fin.val_zero]; omega]
  refine readsAs_fi (by decide) (by omega) fun w1 => ?_
  have hgb : bits (minor * 1024 + fl) 9 5 = fl / 32 := by simp only [bits, Nat.reducePow, Nat.reduceAdd, Nat.reduceSub]; omega
  have hfl : bits (minor * 1024 + fl) 4 0 = fl % 32 := by simp only [bits, Nat.reducePow, Nat.reduceAdd, Nat.reduceSub]; omega
  have hlow : bits (minor * 1024 + fl) 9 0 = fl := by simp only [bits, Nat.reducePow, Nat.reduceAdd, Nat.reduceSub]; omega
  have hminor : bits (minor * 1024 + fl) 15 10 = minor := by simp only [bits, Nat.reducePow, Nat.reduceAdd, Nat.reduceSub]; omega
  simp (disch := omega) only [decodeWord, fi_maj, fi_d, fi_a, fi_low, hgb, hfl, hlow, hminor, h]

/-- The fields of FL in a CSPAWN (R169). -/
theorem spawn_low (die : BitVec 3) (remote prio : Bool) :
    let fl := die.toNat * 4 + ofBool remote * 2 + ofBool prio
    fl < 32 ∧ fl / 4 = die.toNat ∧ (fl / 2 % 2 == 1) = remote ∧ (fl % 2 == 1) = prio := by
  have hd := die.isLt
  have hr := ofBool_le remote
  have hp := ofBool_le prio
  intro fl
  have hremote : fl / 2 % 2 = ofBool remote := by omega
  have hprio : fl % 2 = ofBool prio := by omega
  rw [hremote, hprio]
  exact ⟨by omega, by omega, ofBool_beq remote, ofBool_beq prio⟩

/-! ### Long forms (R31) -/

theorem readsLong {lmaj : Nat} {imm : BitVec 32} (hl : lmaj < 64) (h : decodeLong d a lmaj imm.toNat = some i) :
    ReadsLong (fi 0x3F d a (lmaj * 1024) + 2 ^ 32 * imm.toNat) i := by
  have hw := fi_lt d a (show (0x3F : Nat) < 64 by decide) (show lmaj * 1024 < 65536 by omega)
  have himm := imm.isLt
  rw [ReadsLong, Nat.add_mul_mod_self_left, Nat.mod_eq_of_lt hw, Nat.add_mul_div_left _ _ (by decide), Nat.div_eq_of_lt hw, Nat.zero_add]
  refine ⟨by omega, by rw [instrLength, fi_maj d a (by decide) (by omega), if_pos rfl], ?_⟩
  have hz : bits (lmaj * 1024) 9 0 = 0 := by simp only [bits, Nat.reducePow, Nat.reduceAdd, Nat.reduceSub]; omega
  have hlm : bits (lmaj * 1024) 15 10 = lmaj := by simp only [bits, Nat.reducePow, Nat.reduceAdd, Nat.reduceSub]; omega
  simp (disch := omega) only [decodeWord, fi_maj, fi_d, fi_a, fi_low, hz, hlm, if_true, h]

end Majors

/-! ## Element words (R16) -/

theorem bit_ofBool {v n : Nat} {c : Bool} (h : v / 2 ^ n % 2 = ofBool c) : bit v n = c := by rw [bit, h, ofBool_beq]

theorem bitVec_ofNat_bits {n v hi lo : Nat} {x : BitVec n} (h : bits v hi lo = x.toNat) : BitVec.ofNat n (bits v hi lo) = x := by
  rw [h, BitVec.ofNat_toNat, BitVec.setWidth_eq]

/-- Each field of an element word stands in its place. -/
theorem ewordOf_ew {opc : Nat} (ho : opc < 256) (w : EWord) : ew opc w < 2 ^ 128 ∧ bits (ew opc w) 127 120 = opc ∧ ewordOf (ew opc w) = w := by
  obtain ⟨ar, immb, swap, rt, topc, targ, tsel, d1, d2, imm⟩ := w
  have h1 := ar.isLt
  have h2 := rt.isLt
  have h3 := topc.isLt
  have h4 := targ.isLt
  have h5 := d1.isLt
  have h6 := d2.isLt
  have h7 := imm.isLt
  have h8 := ofBool_le immb
  have h9 := ofBool_le swap
  have h10 := ofBool_le tsel
  simp only [Nat.reducePow] at h1 h2 h3 h4 h5 h6 h7
  refine ⟨by simp only [ew, Nat.reducePow]; omega, by simp only [bits, ew, Nat.reducePow, Nat.reduceAdd, Nat.reduceSub]; omega, ?_⟩
  simp only [ewordOf, EWord.mk.injEq]
  refine ⟨bitVec_ofNat_bits ?_, bit_ofBool ?_, bit_ofBool ?_, bitVec_ofNat_bits ?_, bitVec_ofNat_bits ?_, bitVec_ofNat_bits ?_, bit_ofBool ?_,
    bitVec_ofNat_bits ?_, bitVec_ofNat_bits ?_, bitVec_ofNat_bits ?_⟩
  all_goals simp only [bits, ew, Nat.reducePow, Nat.reduceAdd, Nat.reduceSub]; omega

/-- A 128-bit word reads as an element instruction. -/
def ReadsElem (w : Nat) (i : Instr) : Prop := w < 2 ^ 128 ∧ decodeElem w = some i

theorem readsElem {opc : Nat} {w : EWord} {i : Instr} (ho : opc < 256) (h : decodeOpc opc w = some i) : ReadsElem (ew opc w) i := by
  obtain ⟨hlt, hopc, hw⟩ := ewordOf_ew ho w
  exact ⟨hlt, by rw [decodeElem, hopc, hw, h]⟩


/-! ## Every instruction -/

/-- Decoding a word of as many bytes as an instruction's encoding has gives the instruction. -/
def Reads (w : Nat) (i : Instr) : Prop :=
  match encodedBytes i with
  | 4 => ReadsAs w i
  | 8 => ReadsLong w i
  | 16 => ReadsElem w i
  | _ => False

/-- The encoded word of a well-formed instruction reads as the instruction: by format, and within a format by what its decoder answers on the
fields. -/
theorem encode_reads {i : Instr} {w : Nat} (hwf : i.wf = true) (hw : encode i = some w) : Reads w i := by
  cases i
  all_goals cases hw
  case add | sub | mul | mulh | mulhn | div | divn | rem | remn | and | or | xor | sll | srl | sra | slt | sltn | min | max | minn | maxn |
      clz | popc | sextB | sextH | sextW | zextB | zextH | zextW =>
    exact readsAs_alu (by decide) rfl
  case addi | andi | ori | xori | slti | jalr | beq | bne | blt | bge | bltn | bgen | jal | rep =>
    exact readsAs_fi (by decide) (BitVec.isLt _) fun w1 => by
      simp (disch := omega) only [decodeWord, fi_maj, fi_d, fi_a, fi_ofNat, BitVec.ofNat_toNat, BitVec.setWidth_eq, if_true]
  case slli d a sh | srli d a sh | srai d a sh =>
    obtain ⟨himm, hz⟩ := shift_low sh
    exact readsAs_fi (by decide) himm fun w1 => by
      simp (disch := omega) only [decodeWord, fi_maj, fi_d, fi_a, fi_low, fi_ofNat, hz, if_true, BitVec.ofNat_toNat, BitVec.setWidth_eq]
  case ld | ldn | st | lda | stl =>
    refine readsAs_fm (by decide) (by omega) fun imm w1 hmode hsize hoff himm => ?_
    simp (disch := omega) [decodeWord, fi_maj, fi_d, fi_a, fi_low, fi_ofNat, hmode, hsize, hoff]
  case ldm d a n off | stm d a n off =>
    obtain ⟨himm, hn, hoff⟩ := ldm_low n off
    exact readsAs_fi (by decide) himm fun w1 => by
      simp (disch := omega) only [decodeWord, fi_maj, fi_d, fi_a, fi_low, fi_ofNat, hn, hoff]
  case amoadd | amomin | amominn | amomax | amomaxn | amoand | amoor | amoxor | amoswp | amocas =>
    exact readsAs_amo (by decide) rfl
  case amofaddF32 =>
    exact readsAs_amo (size := 2) (by decide) rfl
  case amofaddBf16 =>
    exact readsAs_amo (size := 1) (by decide) rfl
  case redadd | redmin | redminn | redmax | redmaxn | redand | redor | redxor =>
    exact readsAs_red (by decide) rfl
  case redfaddF32 =>
    exact readsAs_red (size := 2) (by decide) rfl
  case redfaddBf16 =>
    exact readsAs_red (size := 1) (by decide) rfl
  case fence scope classes =>
    have hs := scope.isLt
    have hc := classes.isLt
    rw [show fs 0x20 0 0 0 0 0 + scope.toNat * 32 + classes.toNat = fs 0x20 0 0 0 ⟨scope.toNat, by omega⟩ classes.toNat by simp [fs]]
    exact readsAs_fs rfl (by decide) (by omega) (by
      simp [decodeFs20, hs, hc])
  case phase | bar | segld | segrun | segstop | segwait | strbind | strfree | cfginv | copy | pbinv | flsig | flsigW | evpop | evwait |
      evpeek | cjoin | cexit | cyield | vdecl | vst | vld | vldl | vfloorRegister | vfloorRaise | vfloorDeregister | vdrop | exreg | plrep |
      plret | plretUrgent | plpol | plsync | ctxsave | ctxrest | preempt | qquiesce | qresume | fwstage | fwverify | measure | slotsw |
      hbeat | keyld =>
    exact readsAs_fs rfl (by decide) (by decide) rfl
  case nop | rft | brk | cinval | cyc | cycCore | featrd | featrdOffer =>
    exact readsAs_fs21 (by decide) (by decide) rfl
  case trap | krd | kwr =>
    rw [fs_add]
    exact readsAs_fs21 (by decide) (BitVec.isLt _) (by simp [decodeFs21])
  case enrd d sel =>
    have hs := sel.isLt
    rw [fs_add]
    exact readsAs_fs21 (by decide) (by omega) (by
      simp [decodeFs21, Nat.mod_eq_of_lt (show sel.toNat < 32 by omega), Nat.div_eq_of_lt (show sel.toNat < 32 by omega), regOf, hs])
  case enrdRing d a sel =>
    have hs := sel.isLt
    have ha : a ≠ 0 := by simpa [Instr.wf] using hwf
    rw [fs_add]
    exact readsAs_fs21 (by decide) (by omega) (by
      simp [decodeFs21, Nat.mod_eq_of_lt (show sel.toNat < 32 by omega), Nat.div_eq_of_lt (show sel.toNat < 32 by omega), regOf, hs, ha])
  case cspawn a b die remote prio =>
    obtain ⟨hf, hdie, hremote, hprio⟩ := spawn_low die remote prio
    rw [Nat.add_assoc, Nat.add_assoc, fs_add, ← Nat.add_assoc]
    exact readsAs_fs rfl (by decide) hf (by simp [decodeFs27, hdie, hremote, hprio])
  case rgset a b r | rgtake d r =>
    have hr := r.isLt
    rw [fs_add]
    exact readsAs_fs rfl (by decide) (by omega) (by simp [decodeFs27, hr])
  case vstat d a sel =>
    have hsel := sel.isLt
    rw [fs_add]
    exact readsAs_fs rfl (by decide) (by omega) (by simp [decodeFs28, hsel])
  case exstat d a b sel =>
    have hsel := sel.isLt
    rw [fs_add]
    exact readsAs_fs rfl (by decide) (by omega) (by simp [decodeFs29, hsel])
  case li | lih | addiL | andiL | oriL | xoriL | jalL | copyi =>
    exact readsLong (by decide) (by simp [decodeLong])
  case elemAdd | elemSub | elemMul | elemMulh | neg | abs | elemMin | elemMax | adds | subs | avg | clamp | elemAnd | elemOr | elemXor | shl
      | shr | sar | rot | elemClz | elemPopc | sel | cmpEq | cmpNe | cmpLt | cmpLe | cmpGt | cmpGe | widenL | widenH | narrow | shuf | bcast
      | extr | ins | fmin | fmax | fabs | fneg | cvt | fcmpEq | fcmpNe | fcmpLt | fcmpLe | fcmpGt | fcmpGe | rcp | rsq | sqrt | exp2 | log2
      | tanh | sigm | erf | rsum | rmax | rmin | tagi | tagf | tagr | tinc | tget | steer | gate | const | sink | talloc | tshrink | tcfg |
      tzero | tmov | text | tins | wlatch | afmt | acfg | mmaT2 | mmaF4 | mmaF8 | mmaBf16 | mmg =>
    exact readsElem (by decide) rfl
  case fadd f w | fsub f w | fmul f w | ffma f w =>
    cases f <;> exact readsElem (by decide) rfl

/-! ## Byte sequences (R5) -/

theorem leBytes_add (m n v : Nat) : leBytes (m + n) v = leBytes m v ++ leBytes n (v / 256 ^ m) := by
  induction m generalizing v with
  | zero => simp [leBytes]
  | succ m ih => rw [Nat.succ_add, leBytes, ih, leBytes, Nat.div_div_eq_div_mul, ← Nat.pow_succ', List.cons_append]

/-- The decoder takes a word off the front of a byte sequence. -/
theorem decodeBytes_word {w : Nat} {i : Instr} (h : ReadsAs w i) (rest : List Byte) : decodeBytes (leBytes 4 w ++ rest) = some (i, rest) := by
  obtain ⟨hw, hlen, hdec⟩ := h
  have htake : (leBytes 4 w ++ rest).take 4 = leBytes 4 w := List.take_left' (leBytes_length 4 w)
  have hdrop : (leBytes 4 w ++ rest).drop 4 = rest := List.drop_left' (leBytes_length 4 w)
  have hword : leNat (leBytes 4 w) = w := by rw [leNat_leBytes]; exact Nat.mod_eq_of_lt hw
  simp only [decodeBytes, htake, hdrop, hword, hlen, hdec, List.length_append, leBytes_length]
  rw [if_neg (by omega), if_neg (by omega)]

/-- The decoder takes the two words of a long form off the front of a byte sequence. -/
theorem decodeBytes_long {w : Nat} {i : Instr} (h : ReadsLong w i) (rest : List Byte) :
    decodeBytes (leBytes 8 w ++ rest) = some (i, rest) := by
  obtain ⟨hw, hlen, hdec⟩ := h
  have hsplit : leBytes 8 w ++ rest = leBytes 4 w ++ (leBytes 4 (w / 2 ^ 32) ++ rest) := by
    rw [← List.append_assoc]; exact congrArg (· ++ rest) (leBytes_add 4 4 w)
  have htake : (leBytes 8 w ++ rest).take 4 = leBytes 4 w := by rw [hsplit]; exact List.take_left' (leBytes_length 4 w)
  have hnext : ((leBytes 8 w ++ rest).drop 4).take 4 = leBytes 4 (w / 2 ^ 32) := by
    rw [hsplit, List.drop_left' (leBytes_length 4 w)]; exact List.take_left' (leBytes_length 4 _)
  have hdrop : (leBytes 8 w ++ rest).drop 8 = rest := List.drop_left' (leBytes_length 8 w)
  have hfirst : leNat (leBytes 4 w) = w % 2 ^ 32 := leNat_leBytes 4 w
  have hsecond : leNat (leBytes 4 (w / 2 ^ 32)) = w / 2 ^ 32 := by rw [leNat_leBytes]; exact Nat.mod_eq_of_lt (by omega)
  simp only [decodeBytes, htake, hnext, hdrop, hfirst, hsecond, hlen, hdec, List.length_append, leBytes_length]
  rw [if_neg (by omega), if_neg (by omega)]

/-- An instruction of a control core is read back from its bytes, whatever follows them. -/
theorem decodeBytes_encodeBytes {i : Instr} {w : Nat} (hwf : i.wf = true) (hw : encode i = some w) (hn : encodedBytes i ≤ 8) (rest : List Byte) :
    decodeBytes (leBytes (encodedBytes i) w ++ rest) = some (i, rest) := by
  have h := encode_reads hwf hw
  unfold Reads at h
  split at h
  · next h4 => rw [h4]; exact decodeBytes_word h rest
  · next h8 => rw [h8]; exact decodeBytes_long h rest
  · omega
  · exact h.elim

end Sys2Proof

open Sys2Proof

/-- Settles O58: every format keeps its fields apart, so that its decoder reads back what the encoder was given. -/
theorem wordsRoundTrip : Obligations.WordsRoundTrip := by
  refine ⟨fun i w rest hwf hw hn => ⟨?_, fun _ => ?_⟩, fun i w hwf hw hn => ?_⟩
  · have hsplit := leBytes_add (encodedBytes i) (8 - encodedBytes i) w
    rw [Nat.add_sub_of_le hn] at hsplit
    simp [decodeAny, hsplit, decodeBytes_encodeBytes hwf hw hn]
  · simp [encodeBytes, hw, decodeBytes_encodeBytes hwf hw hn]
  · have h := encode_reads hwf hw
    rw [Reads, hn] at h
    exact h

/-- Settles O57: the decoder computes on the printed words. -/
theorem wordsDecode : Obligations.WordsDecode := by
  refine ⟨rfl, rfl, rfl, rfl, rfl, rfl, rfl, rfl, rfl, rfl, rfl, rfl, rfl, rfl, rfl, rfl, rfl, rfl, rfl, rfl, rfl, ?_⟩
  exact ⟨rfl, rfl, rfl, rfl, rfl, rfl, rfl⟩
end

section
/-!
SUPPORT. The machine at reset, and what one step of it runs (R31, R36, R119, R127, R145, R389).
-/

namespace Sys2Proof.Machine

/-! ## Reset -/

theorem reset_coreAt (c : Nat) : (State.reset.coreAt c).running = if c = 64 then some 0 else none := by
  unfold State.coreAt
  show (Table.getD [(64, _)] c Core.blank).running = _
  by_cases h : c = 64
  · subst h; rfl
  · simp [Table.getD, Table.find, h, Ne.symm h, Core.blank]

/-! ## Word 0 as a trap value (R36) -/

theorem word0_eq (s : State) : s.word0 = BitVec.ofNat 64 s.ir.toNat := (BitVec.ofNat_toNat _ _).symm

theorem illop_eq (s : State) : illop s = trap cILLOP (BitVec.ofNat 64 s.ir.toNat) s := by rw [illop, word0_eq]

/-! ## Steps -/

/-- The agenda names a core, or is empty where the core that executed last goes on. -/
theorem stepAgent_core {s : State} {rest : List Pick} {c : Nat}
    (h : s.agenda = .core c :: rest ∨ (s.agenda = [] ∧ rest = [] ∧ s.core = c ∧ s.io.booted = true)) :
    stepAgent s = stepCore c { s with agenda := rest } := by
  obtain h | ⟨h, rfl, rfl, hb⟩ := h
  · simp only [stepAgent, h, stepPick]
  · rw [stepAgent, h]
    simp only [hb, if_true, ← h]

/-- A core that runs a continuation executes one instruction of it. -/
theorem stepCore_running {s : State} {c tid : Nat} (hc : c < 68) (hr : ({ s with core := c, ir := 0 }.coreAt c).running = some tid)
    (hid : ({ s with core := c, ir := 0 }.focus tid).th.id = tid) (hst : ({ s with core := c, ir := 0 }.focus tid).th.status = .running c) :
    stepCore c s = runThread ({ s with core := c, ir := 0 }.focus tid) := by
  rw [stepCore, if_neg (by omega)]
  simp only [hr]
  rw [if_pos ⟨hid, hst⟩]

theorem runThread_fetched {s s2 : State} {w0 w1 : Nat} (hb : breakpointHit s = none) (hf : fetchInstr s = .ok (w0, w1) s2) :
    runThread s = runWords w0 w1 s2 := by
  simp only [runThread, hb, hf, Got.andThen_ok]

theorem runThread_unfetched {s s2 : State} (hb : breakpointHit s = none) (hf : fetchInstr s = .stop s2) : runThread s = .next s2 := by
  simp only [runThread, hb, hf, Got.andThen_stop]

theorem runThread_breakpoint {s : State} {b : Nat} (hb : breakpointHit s = some b) :
    runThread s = .next (trap cBRKPT (BitVec.ofNat 64 (0x100 + b)) s) := by
  simp only [runThread, hb]; rfl

theorem coreRunsDecodedInstruction : Says.StepRunsDecodedInstruction := by
  intro s rest c tid hc s0 s1 hag hr hid hst
  have hstep : step s = withEpochs (runThread s1) := by
    rw [step, stepAgent_core hag, stepCore_running (s := { s with agenda := rest }) hc hr hid hst]
  refine ⟨fun w0 w1 s2 i hb hf hd => ?_, fun w0 w1 s2 hb hf hd => ⟨?_, fun hv => ?_⟩, fun s2 hb hf => ?_, fun b hb => ?_⟩
  · rw [hstep, runThread_fetched hb hf, runWords, hd]
  · rw [hstep, runThread_fetched hb hf, runWords, hd]
  · simp only [undefinedTrap, hv, Bool.false_and, Bool.false_eq_true, if_false, illop_eq, State.issueWord]
  · rw [hstep, runThread_unfetched hb hf]
  · rw [hstep, runThread_breakpoint hb]

/-- An issue whose results all find room is the step. -/
theorem issueWithRoom_all {run : Instr → State → Out} {x e n : Nat} {s s1 s2 : State} {i : Instr} (hg : gather (n + 1) x e s = (some i, s1))
    (hr : run i s1 = .next s2) (hl : leftOver x e s2 = []) :
    issueWithRoom run x e s (n + 1) = .next (s2.mapElem x e (fun v => { v with stuck := [] })) := by
  simp only [issueWithRoom, hg, hr, hl, List.isEmpty_nil, if_true]

theorem issueWithRoom_none {run : Instr → State → Out} {x e n : Nat} {s s1 : State} (hg : gather (n + 1) x e s = (none, s1)) :
    issueWithRoom run x e s (n + 1) = .next s1 := by
  simp only [issueWithRoom, hg]

theorem stepRunsIssuesAndEvents : Says.StepRunsIssuesAndEvents := by
  intro s rest s0
  have hpick : ∀ p, s.agenda = p :: rest → step s = withEpochs (stepPick p s0) := fun p h => by
    rw [step, stepAgent, h]
  refine ⟨fun x e i s1 s2 ha hg hx hl => ?_, fun x e s1 ha hg => ?_, fun i ha => hpick _ ha, fun ns ha => hpick _ ha, fun ha hb => ?_⟩
  · rw [hpick _ ha, stepPick, issueWithRoom_all hg hx hl]
  · rw [hpick _ ha, stepPick, issueWithRoom_none hg]
  · rw [step, stepAgent, ha]
    simp only [hb]; rfl

/-! ## Fetch -/

theorem putCore_frame (s : State) (c : Core) : s.putCore c = { s with cores := (s.putCore c).cores } := by
  unfold State.putCore; split <;> rfl

/-- Keeping a word in the fetch buffers changes the cores only. -/
theorem keepWord_frame (va : Word) (w : BitVec 32) (s : State) : keepWord va w s = { s with cores := (keepWord va w s).cores } := by
  unfold keepWord
  simp only
  split
  · rfl
  · exact putCore_frame ..

theorem keepBody_frame (va : Word) (w : BitVec 32) (s : State) : keepBody va w s = { s with cores := (keepBody va w s).cores } := by
  unfold keepBody
  simp only
  split
  · exact putCore_frame ..
  · split
    · rfl
    · exact putCore_frame ..

/-- A fetch from HBM or die shared memory, where no reduction waits in a write queue, reads the bytes there. -/
theorem fetchMemory_onDevice {s s1 : State} {va : Word} {pa : Nat} (ht : translateAt va .fetch 0 s = .ok pa s1) (hd : onDevice pa = true)
    (hq : s1.wqueue = []) (hr : readFails s1 pa 4 = false) : fetchMemory va s = .ok (BitVec.ofNat 32 (leNat (peek s1 pa 4))) s1 := by
  simp only [fetchMemory, ht, Got.bind_ok_eq, settleLines_id hq, hr]
  simp only [onDevice, homeDie] at hd
  cases hl : locOf pa with
  | hbm j o => rfl
  | dsm d o => rfl
  | host a => simp [hl] at hd
  | umeno e o => simp [hl] at hd
  | reserved => simp [hl] at hd

theorem instrLength_word (w : BitVec 32) : instrLength w.toNat = if w.toNat / 2 ^ 26 = 0x3F then 8 else 4 := by
  have hw := w.isLt
  rw [instrLength, bits, Nat.mod_eq_of_lt (by omega)]

theorem fetchReadsTheWord : Says.FetchReadsTheWord := by
  intro s s1 va pa
  refine ⟨fun hfetched hbody ht hd hq hr => ?_, fun w0 h0 => ⟨fun hs => ?_, fun hl w1 s2 h1 => ?_⟩⟩
  · have hnone : (if inLoopBuffer s va then Table.find va.toNat (s.coreAt s.core).body else none) = none := by
      split
      · exact hbody ‹_›
      · rfl
    let w := BitVec.ofNat 32 (leNat (peek s1 pa 4))
    refine ⟨keepBody va w (keepWord va w s1), ?_, ?_, ?_⟩
    · simp only [fetchWord, hnone, fetchFresh, hfetched, fetchMemory_onDevice ht hd hq hr, Got.bind_ok_eq, w]
    all_goals rw [keepBody_frame, keepWord_frame]
  · rw [fetchInstr, h0, Got.bind_ok_eq, instrLength_word, if_neg hs]; rfl
  · rw [fetchInstr, h0, Got.bind_ok_eq, instrLength_word, if_pos hl, if_pos rfl, h1, Got.bind_ok_eq]

end Sys2Proof.Machine

open Sys2Proof Sys2Proof.Machine

/-- Settles O55: the reset state lists nothing but management core 0, so every table reads its default. -/
theorem resetState : Obligations.ResetState :=
  ⟨reset_inv, rfl, rfl, reset_coreAt, rfl, fun _ => ⟨rfl, rfl, rfl⟩, fun _ _ => ⟨rfl, rfl⟩, fun _ => rfl, fun _ => rfl, rfl, rfl⟩

/-- Settles O56: the agenda names the agent, and each of its steps unfolds to what the agent does. -/
theorem stepRunsDecodedInstruction : Obligations.StepRunsDecodedInstruction :=
  ⟨coreRunsDecodedInstruction, stepRunsIssuesAndEvents, fetchReadsTheWord⟩
end

section
/-!
SUPPORT. The control registers, and the instructions that trap before they do anything (R28, R29, R36, R117, R144, R263, R383).
-/

namespace Sys2Proof.Machine

/-! ## KRD -/

/-- A privileged register is reached on a management core only (R28). -/
theorem privKnum_ok {s : State} {n : Nat} (h : 64 ≤ s.core ∨ n < 0x100) : (privKnum n && !s.mgmt) = false := by
  simp only [privKnum, State.mgmt, Bool.and_eq_false_iff, decide_eq_false_iff_not, Bool.not_eq_false', decide_eq_true_eq]
  omega

theorem krd_reads {s : State} {k : BitVec 10} {v : Word} (d : Reg) (h : 64 ≤ s.core ∨ k.toNat < 0x100) (hv : kread s k.toNat = some v) :
    Gives (.krd d k) s (SetsReg d v 4 s) := by
  refine .of_eq (t := s.write4 d v) ?_ (setsReg_write4 s d v)
  show execKrd d k s = _
  simp only [execKrd, privKnum_ok h, hv, Bool.false_eq_true, if_false]

theorem krd_undefined {s : State} {k : BitVec 10} (d : Reg) (h : 64 ≤ s.core ∨ k.toNat < 0x100) (hv : kread s k.toNat = none) :
    Gives (.krd d k) s (fun t => t = trap cILLOP (BitVec.ofNat 64 s.ir.toNat) s) := by
  refine .of_eq ?_ (illop_eq s)
  show execKrd d k s = _
  simp only [execKrd, privKnum_ok h, hv, Bool.false_eq_true, if_false]

/-- KSTAT holds the fields of R29. -/
theorem kstat_fields (s : State) : kstat s =
    BitVec.ofNat 64 ((if s.mgmt then 0 else s.core / 8) * 2 ^ 29 + (if s.mgmt then s.core - 64 else s.core % 8) * 2 ^ 26
      + (if s.mgmt then 2 ^ 25 + 2 ^ 24 else 0) + (if s.th.prio then 2 ^ 16 else 0) + (if s.th.inTrap then 2 ^ 8 else 0)) := by
  have field : ∀ (c : Bool) (n : Nat), ofBool c * n = if c then n else 0 := fun c n => by cases c <;> simp [ofBool]
  have both : ∀ (c : Bool) (p x y : Nat), p + (if c then x else 0) + (if c then y else 0) = p + if c then x + y else 0 := fun c p x y => by
    cases c <;> simp [Nat.add_assoc]
  have die : (if s.mgmt then 0 else coreDie s.core) = if s.mgmt then 0 else s.core / 8 := by
    by_cases hm : 64 ≤ s.core
    · simp [State.mgmt, hm]
    · simp [State.mgmt, hm, coreDie, show s.core < 64 by omega]
  simp only [kstat, w64, field, both, die]

theorem kread_brkAddr (s : State) (i : Fin 8) : kread s (0x30 + i.val) = some (Table.getD s.ctx.brkAddr i.val 0) := by
  unfold kread
  dsimp only
  iterate 13 rw [if_neg (by omega)]
  rw [if_pos (by omega), Nat.add_sub_cancel_left]

theorem kread_khmask (s : State) (i : Fin 16) : kread s (0x110 + i.val) = some (Table.getD s.io.khmask i.val 0xFFFF80000) := by
  unfold kread
  dsimp only
  iterate 17 rw [if_neg (by omega)]
  rw [if_pos (by omega), Nat.add_sub_cancel_left, khmask]

theorem kread_unlisted (s : State) {n : Nat} (h : ¬(n ≤ 6 ∨ (0x10 ≤ n ∧ n ≤ 0x12) ∨ n = 0x18 ∨ n = 0x19 ∨ n = 0x20 ∨ (0x30 ≤ n ∧ n ≤ 0x38) ∨
    n = 0x40 ∨ n = 0x41 ∨ (0x110 ≤ n ∧ n ≤ 0x122))) : kread s n = none := by
  unfold kread
  dsimp only
  iterate 21 rw [if_neg (by omega)]

theorem controlRegisterReads : Says.ControlRegisterReads := by
  intro s d c m shared reads named
  have low : ∀ (k : BitVec 10) (v : Word), k.toNat < 0x100 → kread s k.toNat = some v → reads k v := fun k v h => krd_reads d (.inr h)
  refine ⟨low _ _ (by decide) (congrArg some (kstat_fields s)), low _ _ (by decide) rfl, low _ _ (by decide) rfl, low _ _ (by decide) rfl,
    low _ _ (by decide) rfl, low _ _ (by decide) rfl, low _ _ (by decide) rfl, low _ _ (by decide) rfl, low _ _ (by decide) rfl,
    low _ _ (by decide) rfl, low _ _ (by decide) rfl, low _ _ (by decide) rfl, low _ _ (by decide) rfl, fun i => ?_,
    low _ _ (by decide) ?_, low _ _ (by decide) rfl, low _ _ (by decide) rfl,
    fun k hk h => krd_undefined d h (kread_unlisted s hk), fun hm => ⟨fun i => ?_, krd_reads d (.inl hm) rfl, krd_reads d (.inl hm) rfl,
      krd_reads d (.inl hm) rfl⟩⟩
  · have hk : (BitVec.ofNat 10 (0x30 + i.val)).toNat = 0x30 + i.val := by simp; omega
    exact low _ _ (by omega) (by rw [hk, kread_brkAddr])
  · exact congrArg some (BitVec.ofNat_toNat _ _).symm
  · have hk : (BitVec.ofNat 10 (0x110 + i.val)).toNat = 0x110 + i.val := by simp; omega
    exact krd_reads d (.inl hm) (by rw [hk, kread_khmask])

/-! ## KWR -/

theorem spoilHeaps_frame (hit : Nat → Bool) (s : State) : spoilHeaps hit s = { s with parts := (spoilHeaps hit s).parts } := by
  unfold spoilHeaps
  split <;> rfl

theorem loseUnits_frame (r : Nat) (f : Nat → Nat) (us : List Nat) (s : State) :
    us.foldl (fun t u => loseUnit (f u) r t) s = { s with mem := (us.foldl (fun t u => loseUnit (f u) r t) s).mem } := by
  induction us generalizing s with
  | nil => rfl
  | cons u us ih => rw [List.foldl_cons, ih]; rfl

/-- A change of mask leaves continuations and masks to its caller. -/
theorem scramble_keeps (j old new : Nat) (s : State) : (scramble j old new s).th = s.th ∧ (scramble j old new s).io.khmask = s.io.khmask := by
  unfold scramble
  simp only
  rw [spoilHeaps_frame, loseUnits_frame]
  exact ⟨rfl, rfl⟩

theorem writeHmask_th (j : Nat) (v : Word) (s : State) : (writeHmask j v s).th = s.th := by
  simp only [writeHmask, (scramble_keeps ..).1]

theorem khmask_writeHmask (i j : Nat) (v : Word) (s : State) :
    khmask (writeHmask j v s) i = if i = j then v &&& 0xFFFFFE000 else khmask s i := by
  unfold khmask writeHmask
  simp only [Table.getD_set, (scramble_keeps ..).2]

theorem khmask_advance (n j : Nat) (s : State) : khmask (s.advance n) j = khmask s j := by
  unfold khmask; rfl

theorem and_eq_land (v : Word) (n : Nat) (hn : n < 2 ^ 64) : v &&& BitVec.ofNat 64 n = BitVec.ofNat 64 (Nat.land v.toNat n) := by
  refine BitVec.eq_of_toNat_eq ?_
  have hle : v.toNat &&& n ≤ v.toNat := Nat.and_le_left
  have hv := v.isLt
  rw [BitVec.toNat_and, BitVec.toNat_ofNat, BitVec.toNat_ofNat, Nat.mod_eq_of_lt hn]
  exact (Nat.mod_eq_of_lt (by omega)).symm

section Kwr

variable {s : State} {k : BitVec 10} (a : Reg)

theorem kwr_brkAddr (i : Fin 8) : exec (.kwr a (BitVec.ofNat 10 (0x30 + i.val))) s = .next ((writeBrk i.val (s.g a) s).advance 4) := by
  have hk : (BitVec.ofNat 10 (0x30 + i.val)).toNat = 0x30 + i.val := by simp; omega
  show execKwr a _ s = _
  unfold execKwr
  dsimp only
  rw [hk, privKnum_ok (.inr (by omega)), if_neg Bool.false_ne_true]
  iterate 5 rw [if_neg (by omega)]
  rw [if_pos (by omega), Nat.add_sub_cancel_left]

theorem kwr_khmask (hm : 64 ≤ s.core) (i : Fin 16) : exec (.kwr a (BitVec.ofNat 10 (0x110 + i.val))) s =
    if liveMapping s i.val then .next (trap cPROT (BitVec.ofNat 64 (0x110 + i.val)) s) else .next ((writeHmask i.val (s.g a) s).advance 4) := by
  have hk : (BitVec.ofNat 10 (0x110 + i.val)).toNat = 0x110 + i.val := by simp; omega
  show execKwr a _ s = _
  unfold execKwr
  dsimp only
  rw [hk, privKnum_ok (.inl hm), if_neg Bool.false_ne_true]
  iterate 7 rw [if_neg (by omega)]
  rw [if_pos (by omega), Nat.add_sub_cancel_left, w64]

theorem kwr_handover (hm : 64 ≤ s.core) : exec (.kwr a 0x122) s =
    if (s.g a).toNat % 64 ≠ 0 then .next (trap cALIGN (s.g a) s)
    else .next ({ s with io := { s.io with handover := s.g a } }.advance 4) := by
  show execKwr a _ s = _
  unfold execKwr
  dsimp only
  rw [privKnum_ok (.inl hm)]
  rfl

theorem kwr_unlisted (hp : 64 ≤ s.core ∨ k.toNat < 0x100)
    (h : ¬((1 ≤ k.toNat ∧ k.toNat ≤ 3) ∨ k.toNat = 5 ∨ k.toNat = 6 ∨ (0x30 ≤ k.toNat ∧ k.toNat ≤ 0x38) ∨ (0x110 ≤ k.toNat ∧ k.toNat ≤ 0x11F) ∨
      k.toNat = 0x122)) : exec (.kwr a k) s = .next (illop s) := by
  show execKwr a k s = _
  unfold execKwr
  dsimp only
  rw [privKnum_ok hp, if_neg Bool.false_ne_true]
  iterate 9 rw [if_neg (by omega)]

theorem kwr_trapVec : exec (.kwr a 0x005) s =
    if (s.g a).toNat % 4 ≠ 0 then .next (trap cALIGN (s.g a) s) else .next ({ s with th := { s.th with trapVec := s.g a } }.advance 4) := rfl

end Kwr

theorem controlRegisterWrites : Says.ControlRegisterWrites := by
  intro s a v pc
  refine ⟨⟨_, rfl, rfl⟩, ⟨_, rfl, rfl⟩, ⟨_, rfl, rfl⟩, fun hv => ⟨_, (kwr_trapVec a).trans (if_neg (not_not.mpr hv)), rfl⟩,
    fun hv => ⟨_, (kwr_trapVec a).trans (if_pos hv), rfl⟩, ⟨_, rfl, rfl⟩, fun i => ⟨_, kwr_brkAddr a i, rfl, s.ctx_putCtx _⟩,
    ⟨_, rfl, rfl, s.ctx_putCtx _⟩, fun hm i hl => ⟨_, (kwr_khmask a hm i).trans (if_pos hl), rfl⟩, fun hm i hl => ?_,
    fun k => fun hk hp => ⟨_, kwr_unlisted a hp hk, illop_eq s⟩, fun hm hv => ⟨_, (kwr_handover a hm).trans (if_pos hv), rfl⟩,
    fun hm hv => ⟨_, (kwr_handover a hm).trans (if_neg (not_not.mpr hv)), rfl⟩⟩
  refine ⟨_, (kwr_khmask a hm i).trans (if_neg (by simp [hl])), ?_, ?_, fun j hj => ?_⟩
  · rw [State.advance, State.setPc_th, writeHmask_th]; rfl
  · rw [khmask_advance, khmask_writeHmask, if_pos rfl]
    exact and_eq_land (s.g a) 0xFFFFFE000 (by decide)
  · rw [khmask_advance, khmask_writeHmask, if_neg hj]

/-! ## Refusals -/

/-- What only a privileged core may do traps PRIV with word 0 elsewhere (R36). -/
theorem privileged_refuses {s : State} (h : s.core < 64) (k : Out) : privileged s k = .next (trap cPRIV (BitVec.ofNat 64 s.ir.toNat) s) := by
  rw [privileged, State.mgmt, if_neg (by simpa using h), word0_eq]

theorem privKnum_refused {s : State} (h : s.core < 64) {n : Nat} (hn : 0x100 ≤ n) : (privKnum n && !s.mgmt) = true := by
  simp only [privKnum, State.mgmt, Bool.and_eq_true, decide_eq_true_eq, Bool.not_eq_true', decide_eq_false_iff_not]
  omega

theorem privilegedTrapsOnControlCores : Says.PrivilegedTrapsOnControlCores := by
  intro s d a b k h refuses
  have refused : ∀ x, privileged s x = .next (trap cPRIV (BitVec.ofNat 64 s.ir.toNat) s) := privileged_refuses h
  refine ⟨refused _, refused _, refused _, refused _, refused _, refused _, refused _, refused _, refused _, refused _, refused _,
    fun hk => ⟨?_, ?_⟩⟩
  · show execKrd d k s = _
    rw [execKrd, privKnum_refused h hk, if_pos rfl, word0_eq]
  · show execKwr a k s = _
    unfold execKwr
    dsimp only
    rw [privKnum_refused h hk, if_pos rfl, word0_eq]

/-- What acts for a launch traps ILLOP with word 0 on a management core (R383). -/
theorem launchOnly_refuses {s : State} (h : 64 ≤ s.core) (k : Out) : launchOnly s k = .next (trap cILLOP (BitVec.ofNat 64 s.ir.toNat) s) := by
  rw [launchOnly, State.mgmt, if_pos (by simpa using h), illop_eq]

/-- No feature gates management code (R383). -/
theorem gated_mgmt {s : State} (h : 64 ≤ s.core) (n : Nat) (k : Out) : gated n s k = k := by
  rw [gated, featureOn, State.mgmt, if_pos (by simp [h])]

theorem launchInstructionsTrapOnManagementCores : Says.LaunchInstructionsTrapOnManagementCores := by
  intro s d a b r die x y len h refuses
  have refused : ∀ k, launchOnly s k = .next (trap cILLOP (BitVec.ofNat 64 s.ir.toNat) s) := launchOnly_refuses h
  have gatedRefused : ∀ k, gated 2 s (launchOnly s k) = .next (trap cILLOP (BitVec.ofNat 64 s.ir.toNat) s) := fun k =>
    (gated_mgmt h 2 _).trans (refused k)
  exact ⟨refused _, refused _, refused _, refused _, refused _, refused _, refused _, refused _, refused _, refused _, refused _,
    refused _, refused _, refused _, refused _, refused _, refused _, refused _, refused _, refused _, gatedRefused _,
    fun sel => gatedRefused _, gatedRefused _, gatedRefused _, gatedRefused _, gatedRefused _, gatedRefused _⟩

/-! ## Misaligned accesses -/

section Misaligned

variable {s : State} {a b d : Reg} {n : Nat}

/-- An instruction that begins with an access traps ALIGN where the access is misaligned. -/
theorem load_misaligned {va : Word} (h : va.toNat % n ≠ 0) : load va n s = .stop (trap cALIGN va s) := by
  rw [load, loadAl, access_misaligned h, Got.bind_stop]

theorem store_misaligned {va : Word} (h : va.toNat % n ≠ 0) (v : Word) : store va n v s = .stop (trap cALIGN va s) := by
  rw [store, storeAl, access_misaligned h, Got.bind_stop]

theorem amo_misaligned (aop : Nat) (scope : BitVec 3) (h : (s.g a).toNat % n ≠ 0) :
    amo aop n d a b scope s = .next (trap cALIGN (s.g a) s) := by
  unfold amo
  dsimp only
  rw [access_misaligned h, Got.bind_stop, Got.andThen_stop]

theorem red_misaligned (aop : Nat) (h : (s.g a).toNat % n ≠ 0) : red aop n a b s = .next (trap cALIGN (s.g a) s) := by
  unfold red
  dsimp only
  rw [access_misaligned h, Got.bind_stop, Got.andThen_stop]

/-- The first step of an expansion is an access at the instruction's address (R134). -/
theorem accessAt_first {va : Word} (h : va.toNat % 8 ≠ 0) (c : Cls) : accessAt (va + w64 (8 * 0)) 8 c 0 s = .stop (trap cALIGN va s) := by
  rw [show va + w64 (8 * 0) = va from BitVec.add_zero va]
  exact access_misaligned h c s

theorem ldmFrom_misaligned {va : Word} (h : va.toNat % 8 ≠ 0) (k : Nat) : ldmFrom (List.range (k + 1)) va s = .stop (trap cALIGN va s) := by
  rw [List.range_succ_eq_map, ldmFrom, accessAt_first h, Got.bind_stop]

theorem stmFrom_misaligned {va : Word} (h : va.toNat % 8 ≠ 0) (k : Nat) : stmFrom (List.range (k + 1)) va s = .stop (trap cALIGN va s) := by
  rw [List.range_succ_eq_map, stmFrom, accessAt_first h, Got.bind_stop]

end Misaligned

/-- Loads and stores of any size (R130, R132). -/
theorem fm_misaligned {s : State} {a : Reg} {size : BitVec 2} {off : BitVec 11} (d : Reg) (h : (fmAddr s a off).toNat % sizeOf2 size ≠ 0) :
    let trapped : Out := .next (trap cALIGN (fmAddr s a off) s)
    exec (.ld d a size off) s = trapped ∧ exec (.st d a size off) s = trapped ∧ (size ≠ 3 → exec (.ldn d a size off) s = trapped) ∧
      ∀ scope, acqRelOk scope size = true → exec (.lda d a scope size off) s = trapped ∧ exec (.stl d a scope size off) s = trapped := by
  refine ⟨?_, ?_, fun h3 => ?_, fun scope hok => ⟨?_, ?_⟩⟩
  · show execLd d a size off s = _
    rw [execLd, load_misaligned h, Got.andThen_stop]
  · show execSt d a size off s = _
    rw [execSt, store_misaligned h, Got.andThen_stop]
  · show execLdn d a size off s = _
    rw [execLdn, if_neg h3, load_misaligned h, Got.andThen_stop]
  · show execLda d a scope size off s = _
    unfold execLda
    dsimp only
    rw [hok, if_neg (by decide), access_misaligned h, Got.bind_stop, Got.andThen_stop]
  · show execStl d a scope size off s = _
    unfold execStl
    dsimp only
    rw [hok, if_neg (by decide), access_misaligned h, Got.andThen_stop]

/-- LDM and STM (R134). -/
theorem expansion_misaligned {s : State} {d a : Reg} {n : BitVec 5} {off : BitVec 11} (h : (fmAddr s a off).toNat % 8 ≠ 0)
    (hr : d.val + n.toNat ≤ 31) (hf : featureOn s 5 = true) :
    exec (.ldm d a n off) s = .next (trap cALIGN (fmAddr s a off) s) ∧ exec (.stm d a n off) s = .next (trap cALIGN (fmAddr s a off) s) := by
  constructor
  · show execLdm d a n off s = _
    rw [execLdm, if_neg (by omega), gated, if_pos hf, ldmFrom_misaligned h, Got.andThen_stop]
  · show execStm d a n off s = _
    unfold execStm
    dsimp only
    rw [if_neg (by omega), gated, if_pos hf, stmFrom_misaligned h, Got.bind_stop, Got.andThen_stop]

/-- Integer and floating AMOs and REDs (R135, R138). -/
theorem atomic_misaligned {s : State} {a b d : Reg} {scope : BitVec 3} (hs : atomicScope scope = true) (aop : Nat) :
    let trapped : Out := .next (trap cALIGN (s.g a) s)
    (∀ size, atomicSize size = true → (s.g a).toNat % sizeOf2 size ≠ 0 →
      amoInt aop d a b size scope s = trapped ∧ redInt aop a b size scope s = trapped) ∧
    ∀ n, (s.g a).toNat % n ≠ 0 → amoFloat aop n d a b scope s = trapped ∧ redFloat aop n a b scope s = trapped := by
  refine ⟨fun size hz h => ⟨?_, ?_⟩, fun n h => ⟨?_, ?_⟩⟩
  · rw [amoInt, hz, hs, if_neg (by decide), amo_misaligned aop scope h]
  · rw [redInt, hz, hs, if_neg (by decide), red_misaligned aop h]
  · rw [amoFloat, hs, if_neg (by decide), amo_misaligned aop scope h]
  · rw [redFloat, hs, if_neg (by decide), red_misaligned aop h]

theorem misalignedAccessTraps : Says.MisalignedAccessTraps := by
  intro s d a b size scope off n va traps trapsAtBase
  refine ⟨fun h => ?_, fun h hr hf => ?_, fun hlo hhi => ?_⟩
  · obtain ⟨hld, hst, hldn, hsync⟩ := fm_misaligned d h
    refine ⟨⟨_, hld, rfl⟩, ⟨_, hst, rfl⟩, fun h3 => ⟨_, hldn h3, rfl⟩, fun h2 hlo hhi => ?_⟩
    obtain ⟨hlda, hstl⟩ := hsync scope (by simp [acqRelOk, h2, hlo, hhi])
    exact ⟨⟨_, hlda, rfl⟩, ⟨_, hstl, rfl⟩⟩
  · obtain ⟨hldm, hstm⟩ := expansion_misaligned h hr hf
    exact ⟨⟨_, hldm, rfl⟩, ⟨_, hstm, rfl⟩⟩
  · have hs : atomicScope scope = true := by simp [atomicScope, hlo, hhi]
    have hatomic := fun aop => atomic_misaligned (s := s) (a := a) (b := b) (d := d) hs aop
    refine ⟨fun h2 h => ?_, fun h => ?_, fun h => ?_⟩
    · have hz : atomicSize size = true := by simp [atomicSize, h2]
      have amoTraps : ∀ i aop, exec i s = amoInt aop d a b size scope s → trapsAtBase i := fun i aop e =>
        ⟨_, e.trans ((hatomic aop).1 size hz h).1, rfl⟩
      have redTraps : ∀ i aop, exec i s = redInt aop a b size scope s → trapsAtBase i := fun i aop e =>
        ⟨_, e.trans ((hatomic aop).1 size hz h).2, rfl⟩
      simp only [List.forall_mem_cons]
      exact ⟨amoTraps _ 1 rfl, amoTraps _ 2 rfl, amoTraps _ 3 rfl, amoTraps _ 4 rfl, amoTraps _ 5 rfl, amoTraps _ 6 rfl, amoTraps _ 7 rfl,
        amoTraps _ 8 rfl, amoTraps _ 9 rfl, amoTraps _ 10 rfl, redTraps _ 1 rfl, redTraps _ 2 rfl, redTraps _ 3 rfl, redTraps _ 4 rfl,
        redTraps _ 5 rfl, redTraps _ 6 rfl, redTraps _ 7 rfl, redTraps _ 8 rfl, List.forall_mem_nil _⟩
    · obtain ⟨hamo, hred⟩ := (hatomic 11).2 4 h
      exact ⟨⟨_, hamo, rfl⟩, ⟨_, hred, rfl⟩⟩
    · obtain ⟨hamo, hred⟩ := (hatomic 12).2 2 h
      exact ⟨⟨_, hamo, rfl⟩, ⟨_, hred, rfl⟩⟩

end Sys2Proof.Machine

open Sys2Proof Sys2Proof.Machine

/-- Settles O9: KRD answers what `kread` lists, and KWR goes to the one register of its KNUM. -/
theorem controlRegisters : Obligations.ControlRegisters := ⟨controlRegisterReads, controlRegisterWrites⟩

/-- Settles O10: each of these instructions begins with the check that refuses it. -/
theorem refusedInstructions : Obligations.RefusedInstructions :=
  ⟨privilegedTrapsOnControlCores, launchInstructionsTrapOnManagementCores, misalignedAccessTraps⟩
end

section
/-!
SUPPORT. Lanes of a value, and the integer and saturating instructions of the elements (R17, R19, R22, R46 to R49, R56).
-/

namespace Sys2Proof

theorem Table.set_set {α : Type} (k : Nat) (v w : α) (t : Table α) : Table.set k w (Table.set k v t) = Table.set k w t := by
  induction t with
  | nil => simp [Table.set]
  | cons p t ih =>
    obtain ⟨j, u⟩ := p
    simp only [Table.set]
    split
    · simp [Table.set]
    · split
      · simp [Table.set]
      · simp [Table.set, *]

end Sys2Proof

namespace Sys2Proof.Machine

/-! ## Lanes of a value (R19, R46) -/

theorem joinLanes_lt (w : Nat) (l : List Nat) : joinLanes w l < 2 ^ (w * l.length) := by
  induction l with
  | nil => simp [joinLanes]
  | cons x t ih =>
    have hx : x % 2 ^ w < 2 ^ w := Nat.mod_lt _ (Nat.two_pow_pos w)
    rw [joinLanes, List.length_cons, Nat.mul_succ, Nat.add_comm, Nat.pow_add, Nat.mul_comm (2 ^ (w * t.length))]
    calc 2 ^ w * joinLanes w t + x % 2 ^ w < 2 ^ w * joinLanes w t + 2 ^ w := by omega
      _ = 2 ^ w * (joinLanes w t + 1) := by ring
      _ ≤ 2 ^ w * 2 ^ (w * t.length) := Nat.mul_le_mul_left _ ih

/-- Lane k of joined lanes is the k-th of them. -/
theorem joinLanes_lane (w : Nat) {l : List Nat} {k : Nat} (hk : k < l.length) : joinLanes w l / 2 ^ (w * k) % 2 ^ w = l[k] % 2 ^ w := by
  induction l generalizing k with
  | nil => simp at hk
  | cons x t ih =>
    cases k with
    | zero => simp [joinLanes]
    | succ k =>
      have hx : x % 2 ^ w < 2 ^ w := Nat.mod_lt _ (Nat.two_pow_pos w)
      rw [joinLanes, Nat.mul_succ, Nat.add_comm (w * k), Nat.pow_add, ← Nat.div_div_eq_div_mul, Nat.add_mul_div_left _ _ (Nat.two_pow_pos w),
        Nat.div_eq_of_lt hx, Nat.zero_add, ih (by simpa using hk), List.getElem_cons_succ]

/-- Lanes that fill a value are its lanes. -/
theorem laneOf_joinLanes {w k : Nat} {l : List Nat} (hl : w * l.length = 64) (hk : k < l.length) :
    laneOf w k (w64 (joinLanes w l)) = l[k] % 2 ^ w := by
  have hlt := joinLanes_lt w l
  rw [hl] at hlt
  rw [laneOf, w64, BitVec.toNat_ofNat, Nat.mod_eq_of_lt hlt, joinLanes_lane w hk]

theorem joinLanes_snoc (w : Nat) (l : List Nat) (x : Nat) : joinLanes w (l ++ [x]) = joinLanes w l + x % 2 ^ w * 2 ^ (w * l.length) := by
  induction l with
  | nil => simp [joinLanes]
  | cons y t ih => simp only [List.cons_append, joinLanes, ih, List.length_cons, Nat.mul_succ, Nat.pow_add]; ring

/-- A splat joins equal lanes (R17). -/
theorem splat_eq_joinLanes (w v : Nat) : splat w v = w64 (joinLanes w (List.replicate (64 / w) v)) := by
  have sum : ∀ n, (List.range n).foldl (fun r i => r + v % 2 ^ w * 2 ^ (w * i)) 0 = joinLanes w (List.replicate n v) := fun n => by
    induction n with
    | zero => rfl
    | succ n ih => rw [List.range_succ, List.foldl_append, ih, List.replicate_succ', joinLanes_snoc, List.length_replicate]; rfl
  rw [splat, sum]

theorem laneOf_splat {w k : Nat} (hw : w ∣ 64) (hk : k < 64 / w) (v : Nat) : laneOf w k (splat w v) = v % 2 ^ w := by
  rw [splat_eq_joinLanes, laneOf_joinLanes (by rw [List.length_replicate, Nat.mul_div_cancel' hw]) (by simpa using hk), List.getElem_replicate]

theorem elementOperands : Says.ElementOperands := by
  intro w width p q
  refine ⟨fun h2 => ?_, fun h1 hi => ?_, fun h1 hi hd h0 => ?_, fun h1 hi => ?_⟩
  · simp only [elemOperands, h2, if_true]
  · simp [elemOperands, h1, hi]
  · refine ⟨splat width (bits w.imm.toNat 31 0), splat width (bits w.imm.toNat 63 32), by simp [elemOperands, h1, hi], fun k hk => ?_⟩
    have himm := w.imm.isLt
    have hlow : bits w.imm.toNat 31 0 = w.imm.toNat % 2 ^ 32 := by rw [bits, Nat.pow_zero, Nat.div_one]
    have hhigh : bits w.imm.toNat 63 32 = w.imm.toNat / 2 ^ 32 := Nat.mod_eq_of_lt (by omega)
    rw [laneOf_splat hd hk, laneOf_splat hd hk, hlow, hhigh]
    exact ⟨rfl, rfl⟩
  · simp [elemOperands, h1, hi]

/-! ## A value instruction on one operand set -/

@[simp] theorem State.setElem_setElem (s : State) (x e : Nat) (v w : Elem) : (s.setElem x e v).setElem x e w = s.setElem x e w := by
  simp [State.setElem, State.mapStripe, State.setStripe, State.stripe, Table.set_set]

theorem State.mapElem_of_some {s : State} {x e : Nat} {v : Elem} (h : s.elem? x e = some v) (f : Elem → Elem) :
    s.mapElem x e f = s.setElem x e (f v) := by
  simp only [State.mapElem, h]

/-- A value instruction issued once, on data, leaves its result behind those before it. -/
theorem valueIssue_one {s : State} {inst : Inst} {v : Elem} (hs : s.issue.insts = [inst]) (hh : handleOperand inst = none)
    (hv : s.elem? s.issue.x s.issue.e = some v) (c : OpClass) (width : Nat) (w : EWord) (f : Keys → Nat → Word → Word → Word → FRes) :
    let o := elemOperands c width w inst.a.value inst.bval
    let r := f (elemKeys s s.issue.x s.issue.e) v.lfsr.toNat o.1 o.2.1 o.2.2
    valueIssue c width w f s = .next (flushOut s.issue.x s.issue.e (s.setElem s.issue.x s.issue.e
      { v with lfsr := BitVec.ofNat 32 r.lf, status := (v.status.raise r.fl).count 1, out := v.out ++ wordOut w { inst.base with value := w64 r.v } })) := by
  simp [valueIssue, runIssue, hs, runInsts, hh, hv, State.mapElem_of_some hv, State.mapElem_of_some (State.elem_setElem_self ..)]

/-! ## Lanes with flags -/

/-- Where no lane draws from the LFSR and each sets a flag or none, a result has the lanes' values, and the flag where any lane set it. -/
theorem lanesOf_flag (n lf fl : Nat) (val : Nat → Nat) (p : Nat → Bool) :
    lanesOf n lf (fun l i => ⟨val i, if p i then fl else 0, l⟩) = ((List.range n).map val, if (List.range n).any p then fl else 0, lf) := by
  unfold lanesOf
  induction n with
  | zero => rfl
  | succ n ih =>
    rw [List.range_succ, List.foldl_append, ih]
    have hself : orf fl fl = fl := Nat.or_self fl
    have hright : orf fl 0 = fl := Nat.or_zero fl
    have hleft : ∀ m, orf 0 m = m := Nat.zero_or
    simp only [List.foldl_cons, List.foldl_nil, List.map_append, List.map_cons, List.map_nil, List.any_append, List.any_cons, List.any_nil,
      Bool.or_false]
    cases (List.range n).any p <;> cases p n <;> simp [hself, hright, hleft]

section Lanes

variable {s : State} {inst : Inst}

/-- A value instruction whose lanes fill its result gives them, with a flag where a lane set it. -/
theorem valueIssue_givesLanes {i : Instr} {w : EWord} {c : OpClass} {width lw n fl : Nat} {val : Word → Word → Word → Nat → Nat}
    {p : Word → Word → Word → Nat → Bool} (hs : s.issue.insts = [inst]) (hh : handleOperand inst = none)
    (hexec : exec i s = valueIssue c width w (fun _ lf a b z => lanesResult lw n lf (fun l k => ⟨val a b z k, if p a b z k then fl else 0, l⟩)) s)
    (hn : lw * n = 64) (hval : ∀ a b z k, val a b z k < 2 ^ lw) :
    let o := elemOperands c width w inst.a.value inst.bval
    GivesLanes i w s inst lw (val o.1 o.2.1 o.2.2) (if (List.range n).any (p o.1 o.2.1 o.2.2) then fl else 0) := by
  intro o v hv
  refine ⟨w64 (joinLanes lw ((List.range n).map (val o.1 o.2.1 o.2.2))), fun k hk => ?_, fun u hu => ?_⟩
  · have hkn : k < n := by rwa [← hn, Nat.mul_div_cancel_left n (Nat.pos_of_ne_zero fun h => by simp [h] at hn)] at hk
    rw [laneOf_joinLanes (by simpa using hn) (by simpa using hkn), List.getElem_map, List.getElem_range, Nat.mod_eq_of_lt (hval ..)]
  · obtain rfl : v = u := Option.some.inj (hv.symm.trans hu)
    rw [hexec, valueIssue_one hs hh hv]
    simp only [lanesResult, lanesOf_flag, BitVec.ofNat_toNat, BitVec.setWidth_eq]
    rfl

theorem wrapInt_lt (w : Nat) (v : Int) : wrapInt w v < 2 ^ w := by
  have hp : (0 : Int) < (2 ^ w : Nat) := by exact_mod_cast Nat.two_pow_pos w
  have h0 := Int.emod_nonneg v (Int.ne_of_gt hp)
  have h1 := Int.emod_lt_of_pos v hp
  unfold wrapInt
  omega

theorem laneWidth_mul (code : Nat) : laneWidth code * (64 / laneWidth code) = 64 := by
  refine Nat.mul_div_cancel' ?_
  unfold laneWidth
  split <;> decide

/-- Integer lanes of R48: each is the low bits of an exact value, and a flag is set where a lane sets it. -/
theorem intIssue_givesLanes {i : Instr} {w : EWord} {c : OpClass} {fl : Nat} {g : Nat → Int → Int → Int → Int × Nat} {f : Int → Int → Int → Int}
    {p : Int → Int → Int → Bool} (hs : s.issue.insts = [inst]) (hh : handleOperand inst = none) (hexec : exec i s = intIssue c w g s)
    (hg : ∀ a b z, g w.rt.toNat a b z = (f a b z, if p a b z then fl else 0)) :
    let code := w.rt.toNat
    let width := laneWidth code
    let o := elemOperands c width w inst.a.value inst.bval
    GivesLanes i w s inst width (fun k => wrapInt width (f (laneVal code k o.1) (laneVal code k o.2.1) (laneVal code k o.2.2)))
      (if (List.range (64 / width)).any (fun k => p (laneVal code k o.1) (laneVal code k o.2.1) (laneVal code k o.2.2)) then fl else 0) := by
  refine valueIssue_givesLanes (val := fun a b z k => wrapInt _ (f (laneVal _ k a) (laneVal _ k b) (laneVal _ k z)))
    (p := fun a b z k => p (laneVal _ k a) (laneVal _ k b) (laneVal _ k z)) hs hh ?_ (laneWidth_mul _) (fun _ _ _ _ => wrapInt_lt ..)
  rw [hexec]
  simp only [intIssue, hg]

/-- The integer instructions that set no flag. -/
theorem intIssue_exact {i : Instr} {w : EWord} {c : OpClass} {g : Nat → Int → Int → Int → Int × Nat} (f : Int → Int → Int → Int)
    (hs : s.issue.insts = [inst]) (hh : handleOperand inst = none) (hexec : exec i s = intIssue c w g s)
    (hg : ∀ a b z, g w.rt.toNat a b z = (f a b z, 0)) :
    let code := w.rt.toNat
    let width := laneWidth code
    let o := elemOperands c width w inst.a.value inst.bval
    GivesLanes i w s inst width (fun k => wrapInt width (f (laneVal code k o.1) (laneVal code k o.2.1) (laneVal code k o.2.2))) 0 := by
  have h := intIssue_givesLanes (f := f) (p := fun _ _ _ => false) (fl := 0) hs hh hexec (by simpa using hg)
  simpa using h

end Lanes

theorem elementIntegerLanes : Says.ElementIntegerLanes := by
  intro s w inst hs hh code width gives
  have exactly : ∀ (i : Instr) (c : OpClass) (g : Nat → Int → Int → Int → Int × Nat) (f : Int → Int → Int → Int),
      exec i s = intIssue c w g s → (∀ a b z, g code a b z = (f a b z, 0)) → gives i c f := fun i c g f => intIssue_exact f hs hh
  refine ⟨exactly (.elemAdd w) .ab (fun _ a b _ => (a + b, 0)) (fun a b _ => a + b) rfl fun _ _ _ => rfl,
    exactly (.elemSub w) .ab (fun _ a b _ => (a - b, 0)) (fun a b _ => a - b) rfl fun _ _ _ => rfl,
    exactly (.elemMul w) .ab (fun _ a b _ => (a * b, 0)) (fun a b _ => a * b) rfl fun _ _ _ => rfl,
    exactly (.elemMulh w) .ab (fun k a b _ => (a * b / (2 ^ laneWidth k : Nat), 0)) (fun a b _ => a * b / 2 ^ width) rfl fun a b z => ?_,
    exactly (.neg w) .a (fun _ a _ _ => (-a, 0)) (fun a _ _ => -a) rfl fun _ _ _ => rfl,
    exactly (.abs w) .a (fun _ a _ _ => (a.natAbs, 0)) (fun a _ _ => if a < 0 then -a else a) rfl fun a b z => ?_,
    exactly (.elemMin w) .ab (fun _ a b _ => (if b < a then b else a, 0)) (fun a b _ => min a b) rfl fun a b z => ?_,
    exactly (.elemMax w) .ab (fun _ a b _ => (if a < b then b else a, 0)) (fun a b _ => max a b) rfl fun a b z => ?_,
    exactly (.avg w) .ab (fun _ a b _ => ((a + b + 1) / 2, 0)) (fun a b _ => (a + b + 1) / 2) rfl fun _ _ _ => rfl,
    exactly (.clamp w) .abc (fun _ a b c => let v := if a < b then b else a; (if c < v then c else v, 0)) (fun a b c => min (max a b) c) rfl
      fun a b z => ?_⟩
  · simp only [Nat.cast_pow, Nat.cast_ofNat]; rfl
  · refine congrArg (·, 0) ?_
    split <;> omega
  · exact congrArg (·, 0) ((min_comm a b).trans (min_def_lt b a)).symm
  · exact congrArg (·, 0) (max_def_lt a b).symm
  · exact congrArg (·, 0) (by rw [min_comm, min_def_lt, max_def_lt])

/-! ## Saturation (R48, R56) -/

/-- A value clipped to a type (R229). -/
theorem satInt_eq (code : Nat) (v : Int) :
    let clip := max (intMin code) (min (intMax code) v)
    satInt code v = (clip, if decide (clip ≠ v) then fSAT else 0) := by
  have hle : intMin code ≤ intMax code := by
    have hp : (1 : Int) ≤ (2 ^ (laneWidth code - 1) : Nat) := by exact_mod_cast Nat.one_le_two_pow
    have hq : (1 : Int) ≤ (2 ^ laneWidth code : Nat) := by exact_mod_cast Nat.one_le_two_pow
    unfold intMin intMax
    split <;> omega
  unfold satInt
  by_cases hlo : v < intMin code
  · simp [hlo, show min (intMax code) v = v by omega, show max (intMin code) v = intMin code by omega, show intMin code ≠ v by omega]
  · by_cases hhi : intMax code < v
    · simp [hlo, hhi, show min (intMax code) v = intMax code by omega, show max (intMin code) (intMax code) = intMax code by omega,
        show intMax code ≠ v by omega]
    · simp [hlo, hhi, show min (intMax code) v = v by omega, show max (intMin code) v = v by omega]

/-- NARROW halves the lanes and doubles their number. -/
theorem narrow_lanes : ∀ code < 8, code ≠ 0 → code ≠ 4 → laneWidth code / 2 = laneWidth (code - 1) ∧
    laneWidth (code - 1) * (2 * (64 / laneWidth code)) = 64 := by decide

theorem elementSaturation : Says.ElementSaturation := by
  intro s w inst hs hh hcode code width o clip gives
  refine ⟨?_, ?_, fun h0 h4 => ?_⟩
  · exact intIssue_givesLanes (f := fun a b _ => clip code (a + b)) (p := fun a b _ => decide (clip code (a + b) ≠ a + b)) hs hh
      (g := fun k a b _ => satInt k (a + b)) rfl fun a b z => satInt_eq code (a + b)
  · exact intIssue_givesLanes (f := fun a b _ => clip code (a - b)) (p := fun a b _ => decide (clip code (a - b) ≠ a - b)) hs hh
      (g := fun k a b _ => satInt k (a - b)) rfl fun a b z => satInt_eq code (a - b)
  · obtain ⟨hhalf, hfill⟩ := narrow_lanes code hcode h0 h4
    let lane := fun (a b : Word) (k : Nat) => if k < 64 / width then laneVal code k a else laneVal code (k - 64 / width) b
    refine valueIssue_givesLanes (val := fun a b _ k => wrapInt (laneWidth (code - 1)) (clip (code - 1) (lane a b k)))
      (p := fun a b _ k => decide (clip (code - 1) (lane a b k) ≠ lane a b k)) hs hh ?_ hfill fun _ _ _ _ => wrapInt_lt ..
    show execNarrow w s = _
    simp only [execNarrow, satInt_eq]
    rw [hhalf]

end Sys2Proof.Machine

open Sys2Proof Sys2Proof.Machine

/-- Settles O29: a value instruction joins its result's lanes, and the lanes of joined lanes are these. -/
theorem elementIntegers : Obligations.ElementIntegers := ⟨elementOperands, elementIntegerLanes, elementSaturation⟩
end

section
/-!
SUPPORT. Logic, shifts, bit counts, compares, select and the movement of lanes (R50 to R55, R57 to R59, R66, R73).
-/

namespace Sys2Proof.Machine

open Sys2Proof

section Lanes

variable {s : State} {inst : Inst} {i : Instr} {w : EWord} {c : OpClass}

/-- A value instruction that sets no flag and draws nothing gives its value. -/
theorem valueIssue_givesValue {width : Nat} {f : Word → Word → Word → Nat} {r : Word} (hs : s.issue.insts = [inst]) (hh : handleOperand inst = none)
    (hexec : exec i s = valueIssue c width w (fun _ lf a b z => ⟨f a b z, 0, lf⟩) s)
    (hr : let o := elemOperands c width w inst.a.value inst.bval; w64 (f o.1 o.2.1 o.2.2) = r) : GivesValue i w s inst r := by
  intro v hv u hu
  obtain rfl : v = u := Option.some.inj (hv.symm.trans hu)
  rw [hexec, valueIssue_one hs hh hv, ← hr, BitVec.ofNat_toNat, BitVec.setWidth_eq]

/-- The 64-bit logic instructions give what they compute. -/
theorem logicIssue_givesValue {f : Word → Word → Word → Word} (hs : s.issue.insts = [inst]) (hh : handleOperand inst = none)
    (hexec : exec i s = logicIssue c w f s) :
    let o := elemOperands c 64 w inst.a.value inst.bval
    GivesValue i w s inst (f o.1 o.2.1 o.2.2) :=
  valueIssue_givesValue (f := fun a b z => (f a b z).toNat) hs hh hexec (by simp [w64])

/-- A value instruction that joins lanes which fill its result gives them. -/
theorem joinedIssue_givesLanes {width lw n : Nat} {val : Word → Word → Word → Nat → Nat} (hs : s.issue.insts = [inst])
    (hh : handleOperand inst = none)
    (hexec : exec i s = valueIssue c width w (fun _ lf a b z => ⟨joinLanes lw ((List.range n).map (val a b z)), 0, lf⟩) s) (hn : lw * n = 64) :
    let o := elemOperands c width w inst.a.value inst.bval
    GivesLanes i w s inst lw (fun k => val o.1 o.2.1 o.2.2 k % 2 ^ lw) 0 := by
  intro o v hv
  refine ⟨_, fun k hk => ?_, valueIssue_givesValue (f := fun a b z => joinLanes lw ((List.range n).map (val a b z))) hs hh hexec rfl v hv⟩
  have hkn : k < n := by rwa [← hn, Nat.mul_div_cancel_left n (Nat.pos_of_ne_zero fun h => by simp [h] at hn)] at hk
  rw [laneOf_joinLanes (by simpa using hn) (by simpa using hkn), List.getElem_map, List.getElem_range]

/-- Lanes of the width of RT. -/
theorem laneIssue_givesLanes {f : Nat → Word → Word → Word → Nat → Nat} (hs : s.issue.insts = [inst]) (hh : handleOperand inst = none)
    (hexec : exec i s = laneIssue c w f s) :
    let width := laneWidth w.rt.toNat
    let o := elemOperands c width w inst.a.value inst.bval
    GivesLanes i w s inst width (fun k => f width o.1 o.2.1 o.2.2 k % 2 ^ width) 0 :=
  joinedIssue_givesLanes (val := f (laneWidth w.rt.toNat)) hs hh hexec (laneWidth_mul _)

theorem laneOf_lt (n k : Nat) (v : Word) : laneOf n k v < 2 ^ n := Nat.mod_lt _ (Nat.two_pow_pos n)

/-- Lanes that fit their width are given as they are. -/
theorem laneIssue_givesLanes_fit {f : Nat → Word → Word → Word → Nat → Nat} (hs : s.issue.insts = [inst]) (hh : handleOperand inst = none)
    (hexec : exec i s = laneIssue c w f s) (hf : ∀ n a b z k, f n a b z k < 2 ^ n) :
    let width := laneWidth w.rt.toNat
    let o := elemOperands c width w inst.a.value inst.bval
    GivesLanes i w s inst width (fun k => f width o.1 o.2.1 o.2.2 k) 0 := by
  have h := laneIssue_givesLanes hs hh hexec
  simpa only [Nat.mod_eq_of_lt (hf ..)] using h

/-- Lanes read as bits: each is a function of the operands' lanes, whose low bits may be given in other words. -/
theorem bitsIssue_givesLanes {g f : Nat → Nat → Nat → Nat} (hs : s.issue.insts = [inst]) (hh : handleOperand inst = none)
    (hexec : exec i s = bitsIssue c w g s) (hg : ∀ n a b, g n a b % 2 ^ n = f n a b % 2 ^ n) :
    let width := laneWidth w.rt.toNat
    let o := elemOperands c width w inst.a.value inst.bval
    GivesLanes i w s inst width (fun k => f width (laneOf width k o.1) (laneOf width k o.2.1) % 2 ^ width) 0 := by
  have h := laneIssue_givesLanes (f := fun width a b _ k => g width (laneOf width k a) (laneOf width k b)) hs hh hexec
  simpa only [hg] using h

theorem wrapInt_of_lt {n m : Nat} (h : m < 2 ^ n) : wrapInt n (m : Int) = m := by
  rw [wrapInt, ← Int.natCast_mod, Int.toNat_natCast, Nat.mod_eq_of_lt h]

theorem maskLane_lt (n : Nat) (t : Bool) : maskLane n t < 2 ^ n := by
  have := Nat.two_pow_pos n
  unfold maskLane
  split <;> omega

/-- The compares of R53 give a mask. -/
theorem cmpIssue_givesLanes {g : Int → Int → Bool} (f : Int → Int → Bool) (hs : s.issue.insts = [inst]) (hh : handleOperand inst = none)
    (hexec : exec i s = cmpIssue w g s) (hg : g = f) :
    let code := w.rt.toNat
    let width := laneWidth code
    let o := elemOperands .ab width w inst.a.value inst.bval
    GivesLanes i w s inst width (fun k => if f (laneVal code k o.1) (laneVal code k o.2.1) then 2 ^ width - 1 else 0) 0 := by
  subst hg
  have h := intIssue_exact (fun a b _ => ((maskLane (laneWidth w.rt.toNat) (g a b) : Nat) : Int)) hs hh hexec fun _ _ _ => rfl
  simp only [wrapInt_of_lt (maskLane_lt _ _)] at h
  exact h

end Lanes

/-! ## Bit counts (R52) -/

/-- The one bits below n, counted one by one. -/
theorem onesIn_eq (n v : Nat) : onesIn n v = ((List.range n).filter (fun j => v.testBit j)).length := by
  induction n generalizing v with
  | zero => rfl
  | succ n ih =>
    have hodd : v % 2 = if v.testBit 0 then 1 else 0 := by
      rcases Nat.mod_two_eq_zero_or_one v with h | h <;> simp [Nat.testBit_zero, h]
    rw [onesIn, ih, hodd, List.range_succ_eq_map, List.filter_cons, List.filter_map]
    split <;> simp [Nat.testBit_succ, Function.comp_def, Nat.add_comm]

theorem width_sub_bitLen (n a : Nat) : n - bitLen a = if a = 0 then n else n - 1 - Nat.log2 a := by
  unfold bitLen
  split <;> omega

theorem wrapInt_mod (n : Nat) (v : Int) : wrapInt n v % 2 ^ n = wrapInt n v := Nat.mod_eq_of_lt (wrapInt_lt n v)

theorem elementBitLanes : Says.ElementBitLanes := by
  intro s w inst hs hh code width o x y u value bits_ one cmp
  have isBits : ∀ (i : Instr) (g f : Nat → Nat → Nat → Nat), exec i s = bitsIssue .ab w g s →
      (∀ n a b, g n a b % 2 ^ n = f n a b % 2 ^ n) → bits_ i (f width) := fun i g f => bitsIssue_givesLanes hs hh
  have isOne : ∀ (i : Instr) (g f : Nat → Nat → Nat), exec i s = bitsIssue .a w (fun n a _ => g n a) s →
      (∀ n a, g n a % 2 ^ n = f n a % 2 ^ n) → one i (f width) := fun i g f he hg =>
    bitsIssue_givesLanes (f := fun n a _ => f n a) hs hh he fun n a _ => hg n a
  refine ⟨?_, ?_, ?_, ?_, ?shl, ?shr, ?sar, ?rot, ?clz, ?popc, ?fabs, ?fneg, ?eq, ?ne, ?_, ?_, ?_, ?_⟩
  · exact logicIssue_givesValue (f := fun a b _ => a &&& b) hs hh rfl
  · exact logicIssue_givesValue (f := fun a b _ => a ||| b) hs hh rfl
  · exact logicIssue_givesValue (f := fun a b _ => a ^^^ b) hs hh rfl
  · exact logicIssue_givesValue (f := fun a b c => (a &&& b) ||| (~~~a &&& c)) hs hh rfl
  case shl => exact isBits (.shl w) (fun n a b => a * 2 ^ (shiftCount n b)) (fun n a b => a * 2 ^ (b % n)) rfl fun _ _ _ => rfl
  case shr => exact isBits (.shr w) (fun n a b => a / 2 ^ (shiftCount n b)) (fun n a b => a / 2 ^ (b % n)) rfl fun _ _ _ => rfl
  case sar =>
    refine isBits (.sar w) (fun n a b => wrapInt n (signed n a / (2 ^ (shiftCount n b) : Nat)))
      (fun n a b => (signed n a / 2 ^ (b % n) % 2 ^ n).toNat) rfl fun n a b => ?_
    simp only [wrapInt, shiftCount, Nat.cast_pow, Nat.cast_ofNat]
  case rot =>
    exact isBits (.rot w) (fun n a b => Nat.lor (a * 2 ^ (shiftCount n b) % 2 ^ n) (a / 2 ^ (n - shiftCount n b)))
      (fun n a b => Nat.lor (a * 2 ^ (b % n) % 2 ^ n) (a / 2 ^ (n - b % n))) rfl fun _ _ _ => rfl
  case clz =>
    exact isOne (.elemClz w) (fun n a => n - bitLen a) (fun n a => if a = 0 then n else n - 1 - Nat.log2 a) rfl fun n a => by rw [width_sub_bitLen]
  case popc =>
    exact isOne (.elemPopc w) onesIn (fun n a => ((List.range n).filter (fun j => a.testBit j)).length) rfl fun n a => by rw [onesIn_eq]
  case fabs => exact isOne (.fabs w) (fun n a => a % 2 ^ (n - 1)) _ rfl fun _ _ => rfl
  case fneg => exact isOne (.fneg w) (fun n a => Nat.xor a (2 ^ (n - 1))) _ rfl fun _ _ => rfl
  case eq => exact cmpIssue_givesLanes (g := fun a b => decide (a = b)) (fun a b => a == b) hs hh rfl (by funext a b; exact (beq_eq_decide a b).symm)
  case ne => exact cmpIssue_givesLanes (g := fun a b => decide (a ≠ b)) (fun a b => a != b) hs hh rfl (by funext a b; simp [bne, beq_eq_decide])
  · exact cmpIssue_givesLanes (g := fun a b => decide (a < b)) (fun a b => decide (a < b)) hs hh rfl rfl
  · exact cmpIssue_givesLanes (g := fun a b => decide (a ≤ b)) (fun a b => decide (a ≤ b)) hs hh rfl rfl
  · exact cmpIssue_givesLanes (g := fun a b => decide (b < a)) (fun a b => decide (a > b)) hs hh rfl rfl
  · exact cmpIssue_givesLanes (g := fun a b => decide (b ≤ a)) (fun a b => decide (a ≥ b)) hs hh rfl rfl

/-! ## Lane movement (R55, R57 to R59) -/

theorem widen_lanes : ∀ code < 16, laneWidth code ≤ 32 → 2 * laneWidth code * (64 / laneWidth code / 2) = 64 := by decide

theorem elementLaneMovement : Says.ElementLaneMovement := by
  intro s w inst hs hh code width n u p y
  refine ⟨fun hw => ?_, ?_, ?_, ?_, ?_, ?_⟩
  · have hn := widen_lanes code w.rt.isLt hw
    have low := joinedIssue_givesLanes (i := .widenL w) (lw := 2 * width) (n := n / 2) (c := .a)
      (val := fun a _ _ k => wrapInt (2 * width) (laneVal code k a)) hs hh rfl hn
    have high := joinedIssue_givesLanes (i := .widenH w) (lw := 2 * width) (n := n / 2) (c := .a)
      (val := fun a _ _ k => wrapInt (2 * width) (laneVal code (n / 2 + k) a)) hs hh rfl hn
    simp only [wrapInt_mod] at low high
    exact ⟨low, high⟩
  · refine laneIssue_givesLanes_fit (i := .shuf w) (f := fun width a _ _ k =>
      let sel := w.imm.toNat / 2 ^ (4 * k) % 16
      if sel = 15 then 0 else laneOf width sel a) (c := .ap) hs hh ?_ fun n a b z k => ?_
    · have hsel : ∀ k, bits w.imm.toNat (4 * k + 3) (4 * k) = w.imm.toNat / 2 ^ (4 * k) % 16 := fun k => by
        rw [bits, show 4 * k + 3 + 1 - 4 * k = 4 by omega]; rfl
      show execShuf w s = _
      simp only [execShuf, hsel]
    · dsimp only
      split
      · exact Nat.two_pow_pos n
      · exact laneOf_lt ..
  · exact laneIssue_givesLanes_fit (i := .bcast w) (f := fun width a _ _ _ => laneOf width w.imm.toNat a) (c := .ap) hs hh rfl fun _ _ _ _ _ => laneOf_lt ..
  · refine valueIssue_givesValue (i := .extr w) (f := fun a _ _ => wrapInt 64 (laneVal code w.imm.toNat a)) hs hh rfl ?_
    have hlt := wrapInt_lt 64 (laneVal code w.imm.toNat p)
    exact BitVec.eq_of_toNat_eq (by rw [w64, BitVec.toNat_ofNat, Nat.mod_eq_of_lt hlt, BitVec.toNat_ofInt]; rfl)
  · refine laneIssue_givesLanes_fit (i := .ins w) (f := fun width a b z k =>
      if k = z.toNat % 8 % (64 / width) then laneOf width 0 b else laneOf width k a) (c := .abc) hs hh rfl fun n a b z k => ?_
    split <;> exact laneOf_lt ..
  · exact valueIssue_givesValue (i := .const w) (c := .ap) (width := 64) (f := fun _ _ _ => w.imm.toNat) hs hh rfl (by simp [w64])

end Sys2Proof.Machine

open Sys2Proof Sys2Proof.Machine

/-- Settles O30: each instruction joins lanes that fill its result, and the lanes of joined lanes are these. -/
theorem elementBits : Obligations.ElementBits := ⟨elementBitLanes, elementLaneMovement⟩
end

section
/-!
SUPPORT. The floating instructions of the elements: lanes with flags and draws, conversions, special functions and folds (R60 to R68, R70, R72).
-/

namespace Sys2Proof.Machine

open Sys2Proof

section Lanes

variable {s : State} {inst : Inst} {v : Elem} {i : Instr} {w : EWord} {c : OpClass}

/-- A value instruction issued once gives its value, with its flags and the LFSR after it. -/
theorem valueIssue_issues {width : Nat} {f : Keys → Nat → Word → Word → Word → FRes} (hs : s.issue.insts = [inst]) (hh : handleOperand inst = none)
    (hv : s.elem? s.issue.x s.issue.e = some v) (hexec : exec i s = valueIssue c width w f s) :
    let o := elemOperands c width w inst.a.value inst.bval
    let r := f (elemKeys s s.issue.x s.issue.e) v.lfsr.toNat o.1 o.2.1 o.2.2
    Issues i s (wordOut w { inst.base with value := w64 r.v }) r.fl (BitVec.ofNat 32 r.lf) := by
  intro o r u hu
  obtain rfl : v = u := Option.some.inj (hv.symm.trans hu)
  rw [hexec, valueIssue_one hs hh hv]

/-- A value instruction of lanes works in ascending order, each lane's flags and draws following the one before. -/
theorem lanesIssue_issues {width lw n : Nat} (f : Keys → Word → Word → Word → Nat → Nat → FRes) (hs : s.issue.insts = [inst])
    (hh : handleOperand inst = none) (hv : s.elem? s.issue.x s.issue.e = some v)
    (hexec : exec i s = valueIssue c width w (fun k lf a b z => lanesResult lw n lf (f k a b z)) s) :
    let o := elemOperands c width w inst.a.value inst.bval
    let r := lanesOf n v.lfsr.toNat (f (elemKeys s s.issue.x s.issue.e) o.1 o.2.1 o.2.2)
    Issues i s (wordOut w { inst.base with value := BitVec.ofNat 64 (joinLanes lw r.1) }) r.2.1 (BitVec.ofNat 32 r.2.2) := by
  have h := valueIssue_issues hs hh hv hexec
  simp only [lanesResult, w64] at h
  exact h

end Lanes

theorem elementFloatLanes : Says.ElementFloatLanes := by
  intro s w f inst v hs hh hv keys lanes ff gf arith g pick cmp
  have isArith : ∀ (i : Instr) (c : OpClass) (op : FOp), exec i s = floatIssue c op f w s → arith i c op := fun i c op =>
    lanesIssue_issues (fun k a b z l m => fArith ff op w.rt.toNat k (laneOf ff.w m a) (laneOf ff.w m b) (laneOf ff.w m z) l) hs hh hv
  have isPick : ∀ (i : Instr) (m : Bool), exec i s = minMaxIssue m w s → pick i m := fun i m =>
    lanesIssue_issues (fun k a b _ l j => { fMinMax gf m k (laneOf gf.w j a) (laneOf gf.w j b) with lf := l }) hs hh hv
  have isCmp : ∀ (i : Instr) (cc : Nat), exec i s = fcmpIssue cc w s → cmp i cc := fun i cc h => by
    simp only [fcmpIssue, maskLane] at h
    exact lanesIssue_issues (fun k a b _ l m =>
      let r := fCompare gf cc k (laneOf gf.w m a) (laneOf gf.w m b)
      ⟨if r.1 then 2 ^ gf.w - 1 else 0, r.2, l⟩) hs hh hv h
  exact ⟨isArith _ _ _ rfl, isArith _ _ _ rfl, isArith _ _ _ rfl, isArith _ _ _ rfl, isPick _ _ rfl, isPick _ _ rfl,
    isCmp _ _ rfl, isCmp _ _ rfl, isCmp _ _ rfl, isCmp _ _ rfl, isCmp _ _ rfl, isCmp _ _ rfl⟩

/-! ## Folds (R72) -/

/-- What a reduction computes of two integers: 0 sum, 1 maximum, 2 minimum. -/
def foldInt (op : Nat) (x y : Int) : Int := match op with | 0 => x + y | 1 => max x y | _ => min x y

/-- What a reduction computes of two floating lanes. -/
def foldFloat (op code : Nat) (k : Keys) (x y : Nat) : FRes :=
  if op = 0 then fArith (ffOf code) .add 0 k x y 0 0 else fMinMax (ffOf code) (op == 1) k x y

/-- The integer of a lane by itself. -/
theorem laneVal_zero {code a : Nat} (ha : a < 2 ^ laneWidth code) :
    laneVal code 0 (w64 a) = if signedCode code then signed (laneWidth code) a else (a : Int) := by
  have hw : 2 ^ laneWidth code ∣ 2 ^ 64 := Nat.pow_dvd_pow 2 (Nat.le_of_dvd (by omega) ⟨_, (laneWidth_mul code).symm⟩)
  have hlane : laneOf (laneWidth code) 0 (w64 a) = a := by
    rw [laneOf, w64, BitVec.toNat_ofNat, Nat.mul_zero, Nat.pow_zero, Nat.div_one, Nat.mod_mod_of_dvd _ hw, Nat.mod_eq_of_lt ha]
  rw [laneVal, hlane]

theorem wrapInt_signed {n a : Nat} (ha : a < 2 ^ n) : wrapInt n (signed n a) = a := by
  unfold signed
  rw [Nat.mod_eq_of_lt ha]
  split
  · exact wrapInt_of_lt ha
  · rw [wrapInt, Int.sub_emod_right, ← wrapInt, wrapInt_of_lt ha]

/-- A lane is the low bits of its integer. -/
theorem wrapInt_laneVal {code a : Nat} (ha : a < 2 ^ laneWidth code) : wrapInt (laneWidth code) (laneVal code 0 (w64 a)) = a := by
  rw [laneVal_zero ha]
  split
  · exact wrapInt_signed ha
  · exact wrapInt_of_lt ha

/-- The low bits of a sum are those of the sum of the low bits. -/
theorem wrapInt_add (n : Nat) (x y : Int) : wrapInt n (x + y) = (wrapInt n x + wrapInt n y) % 2 ^ n := by
  have hp : ((2 ^ n : Nat) : Int) ≠ 0 := by exact_mod_cast (Nat.two_pow_pos n).ne'
  zify
  simp only [wrapInt, Int.toNat_of_nonneg (Int.emod_nonneg _ hp)]
  push_cast
  exact Int.add_emod ..

/-- Two integer lanes combine as their integers do. -/
theorem combineLane_int {op code a b : Nat} (k : Keys) (hop : op < 3) (hc : code < 8) (ha : a < 2 ^ laneWidth code) (hb : b < 2 ^ laneWidth code) :
    combineLane op code k a b = (wrapInt (laneWidth code) (foldInt op (laneVal code 0 (w64 a)) (laneVal code 0 (w64 b))), 0) := by
  have hwa := wrapInt_laneVal ha
  have hwb := wrapInt_laneVal hb
  match op, hop with
  | 0, _ => simp only [combineLane, if_pos hc, foldInt, wrapInt_add, hwa, hwb]
  | 1, _ =>
    simp only [combineLane, if_pos hc, ← laneVal_zero ha, ← laneVal_zero hb, foldInt, max_def_lt]
    split <;> simp only [hwa, hwb]
  | 2, _ =>
    simp only [combineLane, if_pos hc, ← laneVal_zero ha, ← laneVal_zero hb, foldInt, min_comm (laneVal code 0 (w64 a)), min_def_lt]
    split <;> simp only [hwa, hwb]

theorem combineLane_float {op code a b : Nat} (k : Keys) (hc : ¬code < 8) :
    combineLane op code k a b = ((foldFloat op code k a b).v, (foldFloat op code k a b).fl) := by
  simp only [combineLane, if_neg hc, foldFloat]

/-- Two lanes with their flags combine. -/
def foldPair (op code : Nat) (k : Keys) (x y : Nat × Nat) : Nat × Nat :=
  if code < 8 then (wrapInt (laneWidth code) (foldInt op (laneVal code 0 (w64 x.1)) (laneVal code 0 (w64 y.1))), 0)
  else ((foldFloat op code k x.1 y.1).v, Nat.lor (Nat.lor x.2 y.2) (foldFloat op code k x.1 y.1).fl)

/-- An integer lane fits its width and sets no flag. -/
def IntLane (code : Nat) (x : Nat × Nat) : Prop := code < 8 → x.1 < 2 ^ laneWidth code ∧ x.2 = 0

theorem foldPair_intLane (op code : Nat) (k : Keys) (x y : Nat × Nat) : IntLane code (foldPair op code k x y) := fun hc => by
  rw [foldPair, if_pos hc]
  exact ⟨wrapInt_lt .., rfl⟩

theorem foldPair_eq {op code : Nat} (k : Keys) {x y : Nat × Nat} (hop : op < 3) (hx : IntLane code x) (hy : IntLane code y) :
    foldPair op code k x y = ((combineLane op code k x.1 y.1).1, x.2 ||| y.2 ||| (combineLane op code k x.1 y.1).2) := by
  by_cases hc : code < 8
  · obtain ⟨hx1, hx2⟩ := hx hc
    obtain ⟨hy1, hy2⟩ := hy hc
    rw [foldPair, if_pos hc, combineLane_int k hop hc hx1 hy1, hx2, hy2, Nat.or_self, Nat.or_self]
  · rw [foldPair, if_neg hc, combineLane_float k hc]
    rfl

/-- Lane j of level n of the pairwise tree. -/
def foldLevel (op code : Nat) (k : Keys) (lane : Nat → Nat) : Nat → Nat → Nat × Nat
  | 0, j => (lane j, 0)
  | n + 1, j => foldPair op code k (foldLevel op code k lane n (2 * j)) (foldLevel op code k lane n (2 * j + 1))

theorem foldLevel_succ {op code : Nat} (k : Keys) {lane : Nat → Nat} (hop : op < 3) (hl : ∀ j, lane j < 2 ^ laneWidth code) (n j : Nat) :
    let x := foldLevel op code k lane n (2 * j)
    let y := foldLevel op code k lane n (2 * j + 1)
    foldLevel op code k lane (n + 1) j = ((combineLane op code k x.1 y.1).1, x.2 ||| y.2 ||| (combineLane op code k x.1 y.1).2) := by
  have intLane : ∀ j, IntLane code (foldLevel op code k lane n j) := fun j => match n with
    | 0 => fun _ => ⟨hl j, rfl⟩
    | n + 1 => foldPair_intLane op code k (foldLevel op code k lane n (2 * j)) (foldLevel op code k lane n (2 * j + 1))
  exact foldPair_eq k hop (intLane _) (intLane _)

/-- The number of levels that fold the lanes of a type to one. -/
def foldDepth (code : Nat) : Nat :=
  if laneWidth code = 64 then 0 else if laneWidth code = 32 then 1 else if laneWidth code = 16 then 2 else 3

/-- The pairwise tree folds the lanes level by level. -/
theorem reduceTree_eq {op code : Nat} (k : Keys) {lane : Nat → Nat} (hop : op < 3) (hcode : code ≤ 10) (hl : ∀ j, lane j < 2 ^ laneWidth code) :
    reduceTree (combineLane op code k) 3 ((List.range (64 / laneWidth code)).map lane) = foldLevel op code k lane (foldDepth code) 0 := by
  have hwidth : laneWidth code = 8 ∨ laneWidth code = 16 ∨ laneWidth code = 32 ∨ laneWidth code = 64 := by
    clear hl; revert code; decide
  have hor : ∀ a b, orf a b = a ||| b := fun _ _ => rfl
  have level0 : ∀ j, foldLevel op code k lane 0 j = (lane j, 0) := fun _ => rfl
  rcases hwidth with h | h | h | h <;>
    simp [h, foldDepth, level0, foldLevel_succ k hop hl, reduceTree, pairUp, List.range_succ, hor, Nat.or_assoc, Nat.or_left_comm]

/-- A reduction gives the fold of its lanes. -/
theorem reduceIssue_issues {s : State} {inst : Inst} {v : Elem} {i : Instr} {w : EWord} {op : Nat} (hs : s.issue.insts = [inst])
    (hh : handleOperand inst = none) (hv : s.elem? s.issue.x s.issue.e = some v) (hexec : exec i s = reduceIssue op w s) (hop : op < 3)
    (hcode : w.rt.toNat ≤ 10) :
    let code := w.rt.toNat
    let z := (elemOperands .a (laneWidth code) w inst.a.value inst.bval).1
    let r := foldLevel op code (elemKeys s s.issue.x s.issue.e) (fun j => laneOf (laneWidth code) j z) (foldDepth code) 0
    Issues i s (wordOut w { inst.base with value := BitVec.ofNat 64 r.1 }) r.2 v.lfsr := by
  simp only [reduceIssue] at hexec
  have h := valueIssue_issues hs hh hv hexec
  dsimp only at h
  rw [reduceTree_eq _ hop hcode fun _ => laneOf_lt ..] at h
  simp only [BitVec.ofNat_toNat, BitVec.setWidth_eq, w64] at h
  exact h

theorem elementConversionsAndFunctions : Says.ElementConversionsAndFunctions := by
  intro s w inst v hs hh hv keys code lanes dst src c gf u z sfu width int fold
  have isSfu : ∀ (i : Instr) (fn : Nat), exec i s = sfuIssue fn w s → sfu i fn := fun i fn =>
    lanesIssue_issues (fun k a _ _ l j => { sfuLane gf fn k (laneOf gf.w j a) with lf := l }) hs hh hv
  have isFold : ∀ (i : Instr) (op : Nat) (two : Int → Int → Int) (float : Nat → Nat → FRes), exec i s = reduceIssue op w s → op < 3 →
      (∀ x y, two x y = foldInt op x y) → (∀ x y, float x y = foldFloat op code keys x y) → fold i two float := fun i op two float he hop ht hf => by
    intro hcode
    have folded := reduceIssue_issues hs hh hv he hop hcode
    obtain rfl : two = foldInt op := funext₂ ht
    obtain rfl : float = foldFloat op code keys := funext₂ hf
    suffices hr : foldLevel op code keys (fun j => laneOf width j z) (foldDepth code) 0 = _ by
      dsimp only at folded
      rw [hr] at folded
      exact folded
    rw [foldDepth, apply_ite (foldLevel op code keys _ · 0), apply_ite (foldLevel op code keys _ · 0), apply_ite (foldLevel op code keys _ · 0)]
    rfl
  refine ⟨?_, isSfu _ _ rfl, isSfu _ _ rfl, isSfu _ _ rfl, isSfu _ _ rfl, isSfu _ _ rfl, isSfu _ _ rfl, isSfu _ _ rfl, isSfu _ _ rfl, ?_, ?_, ?_⟩
  · refine lanesIssue_issues (c := .ap) (width := 64) (fun k a _ _ l j => cvtLane code k dst src (laneOf (laneWidth src) j a) l) hs hh hv ?_
    have hdst : bits w.imm.toNat 7 4 = dst := rfl
    have hsrc : bits w.imm.toNat 3 0 = src := by rw [bits, Nat.pow_zero, Nat.div_one]; rfl
    show execCvt w s = _
    simp only [execCvt, hdst, hsrc]
    rfl
  · exact isFold (.rsum w) 0 (fun x y => x + y) (fun x y => fArith gf .add 0 keys x y 0 0) rfl (by omega) (fun _ _ => rfl) fun _ _ => rfl
  · exact isFold (.rmax w) 1 (fun x y => max x y) (fMinMax gf true keys) rfl (by omega) (fun _ _ => rfl) fun _ _ => rfl
  · exact isFold (.rmin w) 2 (fun x y => min x y) (fMinMax gf false keys) rfl (by omega) (fun _ _ => rfl) fun _ _ => rfl

end Sys2Proof.Machine

open Sys2Proof Sys2Proof.Machine

/-- Settles O31: a value instruction of lanes leaves what its lanes give one after the other; the pairwise tree is a fold of levels. -/
theorem elementFloats : Obligations.ElementFloats := ⟨elementFloatLanes, elementConversionsAndFunctions⟩
end

section
/-!
SUPPORT. The tag and flow instructions of the elements, and the refusal of tile handles (R39, R73 to R76).
-/

namespace Sys2Proof.Machine

open Sys2Proof

/-- A tag or flow instruction issued once sends its tokens, with no flag and no draw. -/
theorem tagIssue_sends {s : State} {inst : Inst} {v : Elem} {i : Instr} {w : EWord} {c : OpClass} {f : Token → Word → List Token} {toks : List Token}
    (hs : s.issue.insts = [inst]) (hv : s.elem? s.issue.x s.issue.e = some v) (hexec : exec i s = tagIssue c w f s)
    (ht : let o := elemOperands c 64 w inst.a.value inst.bval; f { inst.base with value := o.1, kind := kindOfA w inst } o.2.1 = toks) :
    Issues i s toks 0 v.lfsr := by
  subst ht
  intro u hu
  obtain rfl : v = u := Option.some.inj (hv.symm.trans hu)
  rw [hexec]
  simp [tagIssue, runIssue, hs, runInsts, hv, State.mapElem_of_some hv, State.mapElem_of_some (State.elem_setElem_self ..)]

theorem tagAndFlowInstructions : Says.TagAndFlowInstructions := by
  intro s w inst v hs hv sends tok p u o t b next limit
  have send : ∀ (i : Instr) (c : OpClass) (f : Token → Word → List Token), exec i s = tagIssue c w f s →
      sends i (let o := elemOperands c 64 w inst.a.value inst.bval; f (tok o.1) o.2.1) := fun i c f h => tagIssue_sends hs hv h rfl
  refine ⟨send (.tagi w) .ap (fun t _ => wordOut w { t with iter := BitVec.ofNat 10 (t.value.toNat / 2 ^ (w.imm.toNat % 64)) }) rfl,
    send (.tagf w) .ab (fun t b => wordOut w { t with frame := b.setWidth 11 }) rfl,
    send (.tagr w) .ab (fun t b => wordOut w { t with route := b.setWidth 3 }) rfl, ?_,
    send (.tget w) .a (fun t _ => wordOut w { t with value := w64 t.tag }) rfl,
    send (.steer w) .ab (fun t b => if b = 0 then wordOut2 w t else wordOut1 w t) rfl,
    send (.gate w) .ab (fun t b => if b = 0 then [] else wordOut w t) rfl, send (.sink w) .a (fun _ _ => []) rfl⟩
  have hstep : bits w.imm.toNat 9 0 = w.imm.toNat % 2 ^ 10 := by rw [bits, Nat.pow_zero, Nat.div_one]
  have hlimit : bits w.imm.toNat 19 10 = limit := rfl
  have h := send (.tinc w) .ap (fun t _ =>
    let n := t.iter.toNat + bits w.imm.toNat 9 0
    let l := bits w.imm.toNat 19 10
    if n < l then wordOut1 w { t with iter := BitVec.ofNat 10 n } else wordOut2 w { t with iter := BitVec.ofNat 10 (n - l) }) rfl
  simp only [hstep, hlimit] at h
  simpa only [decide_eq_true_eq] using h

/-- A value instruction whose operand is a tile handle traps ILLOP with it, and what was to issue stays ready. -/
theorem valueIssue_refuses {s : State} {inst : Inst} {t : Token} {v : Elem} (hs : s.issue.insts = [inst]) (hh : handleOperand inst = some t)
    (hv : s.elem? s.issue.x s.issue.e = some v) (c : OpClass) (width : Nat) (w : EWord) (f : Keys → Nat → Word → Word → Word → FRes) :
    valueIssue c width w f s = .next (flushOut s.issue.x s.issue.e (fabricTrap s.issue.x s.issue.e inst.slot inst.a.tag cILLOP 0 [t]
      (s.setElem s.issue.x s.issue.e { v with ready := inst :: v.ready }))) := by
  simp [valueIssue, runIssue, hs, runInsts, hh, State.mapElem_of_some hv]

theorem handlesAreRefused : Says.HandlesAreRefused := by
  intro s w inst t v hs hh hv traps
  have refuse : ∀ c width f, valueIssue c width w f s = .next (flushOut s.issue.x s.issue.e (fabricTrap s.issue.x s.issue.e inst.slot inst.a.tag cILLOP 0 [t]
      (s.setElem s.issue.x s.issue.e { v with ready := inst :: v.ready }))) := fun c width f => valueIssue_refuses hs hh hv c width w f
  refine ⟨?_, fun f => ⟨?_, ?_, ?_, ?_⟩⟩
  · repeat' refine List.forall_mem_cons.mpr ⟨?_, ?_⟩
    rotate_right
    · exact List.forall_mem_nil _
    all_goals
      dsimp only [traps]
      delta exec
      dsimp only [execElemAdd, execElemSub, execElemMul, execElemMulh, execNeg, execAbs, execElemMin, execElemMax, execAvg, execClamp, execAdds, execSubs,
      execNarrow, execElemAnd, execElemOr, execElemXor, execSel, execShl, execShr, execSar, execRot, execElemClz, execElemPopc, execFabs,
      execFneg, execCmpEq, execCmpNe, execCmpLt, execCmpLe, execCmpGt, execCmpGe, execWidenL, execWidenH, execShuf, execBcast, execExtr, execIns,
      execConst, execFmin, execFmax, execFcmpEq, execFcmpNe, execFcmpLt, execFcmpLe, execFcmpGt, execFcmpGe, execCvt, execRcp, execRsq, execSqrt,
      execExp2, execLog2, execTanh, execSigm, execErf, execRsum, execRmax, execRmin,
        intIssue, bitsIssue, logicIssue, cmpIssue, laneIssue, widenIssue, minMaxIssue, fcmpIssue, sfuIssue, reduceIssue]
      exact refuse _ _ _
  all_goals
    dsimp only [traps]
    delta exec
    dsimp only [execFadd, execFsub, execFmul, execFfma, floatIssue]
    exact refuse _ _ _

end Sys2Proof.Machine

open Sys2Proof Sys2Proof.Machine

/-- Settles O33: a tag or flow instruction sends the tokens that its rule builds; an instruction that computes with values is a value instruction, and
those refuse a tile handle. -/
theorem tagAndFlow : Obligations.TagAndFlow := ⟨tagAndFlowInstructions, handlesAreRefused⟩
end

section
/-!
SUPPORT. The arrival of tokens at elements and operators (R38, R204, R214 to R217).
-/

namespace Sys2Proof.Machine

open Sys2Proof

/-! ## Elements and operators of a stripe -/

@[simp] theorem State.stripe_mapStripe_self (s : State) (x : Nat) (f : Stripe → Stripe) : (s.mapStripe x f).stripe x = f (s.stripe x) :=
  State.stripe_setStripe_self ..

theorem State.stripe_mapStripe_ne (s : State) {x y : Nat} (h : y ≠ x) (f : Stripe → Stripe) : (s.mapStripe x f).stripe y = s.stripe y :=
  State.stripe_setStripe_ne _ h _

@[simp] theorem State.stripe_setElem_self (s : State) (x e : Nat) (v : Elem) :
    (s.setElem x e v).stripe x = { s.stripe x with elems := Table.set e v (s.stripe x).elems } := State.stripe_mapStripe_self ..

@[simp] theorem State.stripe_setOper_self (s : State) (x o : Nat) (v : Oper) :
    (s.setOper x o v).stripe x = { s.stripe x with ops := Table.set o v (s.stripe x).ops } := State.stripe_mapStripe_self ..

theorem State.mapOper_of_some {s : State} {x o : Nat} {v : Oper} (h : s.oper? x o = some v) (f : Oper → Oper) :
    s.mapOper x o f = s.setOper x o (f v) := by
  simp only [State.mapOper, h]

/-- A stripe's elements depend on the stripes alone. -/
theorem State.elem_congr {s t : State} (h : t.stripes = s.stripes) (x e : Nat) : t.elem? x e = s.elem? x e := by
  simp only [State.elem?, State.stripe, h]

/-- The token f, at place k of stripe x's inbox, may arrive: nothing of run r holds it back. -/
structure MayArrive (s : State) (x k rid kv : Nat) (r : Run) (f : InFlight) : Prop where
  run : s.runOf x = some (rid, r)
  here : (s.stripe x).inbox[k]? = some f
  vs : (s.stripe x).vs = some kv
  live : stripeLive s x = true
  first : behind ((s.stripe x).inbox.take k) f = false
  room : canTake s x f.tok = true

/-- An arrived token leaves the inbox. -/
def dropArrived (x : Nat) (f : InFlight) (s : State) : State := s.mapStripe x (fun v => { v with inbox := v.inbox.erase f })

@[simp] theorem dropArrived_inbox (x : Nat) (f : InFlight) (s : State) : ((dropArrived x f s).stripe x).inbox = (s.stripe x).inbox.erase f := by
  simp [dropArrived]

@[simp] theorem dropArrived_elem (x e : Nat) (f : InFlight) (s : State) : (dropArrived x f s).elem? x e = s.elem? x e := by
  simp [dropArrived, State.elem?]

theorem elem_dropArrived_setElem (x e : Nat) (f : InFlight) (s : State) (w : Elem) : (dropArrived x f (s.setElem x e w)).elem? x e = some w := by simp

@[simp] theorem dropArrived_oper (x o : Nat) (f : InFlight) (s : State) : (dropArrived x f s).oper? x o = s.oper? x o := by
  simp [dropArrived, State.oper?]

section
variable {s : State} {x k rid kv : Nat} {r : Run} {f : InFlight}

theorem tokenArrival_at (h : MayArrive s x k rid kv r f) : exec (.tokenArrival x k) s =
    (match (if f.tok.target.toNat < 16 then arriveElem x f.tok.target.toNat r f.tok s else arriveOper x (f.tok.target.toNat - 16) r f.tok s) with
    | .ok _ s1 => .next (dropArrived x f s1)
    | .stop s1 => .next s1) := by
  show execTokenArrival x k s = _
  simp only [execTokenArrival, h.run, h.here, h.vs, h.live, h.first, h.room, Option.isNone_some, Bool.false_eq_true, false_and, if_false,
    Bool.not_true, Bool.or_self]
  rfl

/-- A token that its element takes. -/
theorem tokenArrival_elem (h : MayArrive s x k rid kv r f) (he : f.tok.target.toNat < 16) {s1 : State}
    (ha : arriveElem x f.tok.target.toNat r f.tok s = .ok () s1) : exec (.tokenArrival x k) s = .next (dropArrived x f s1) := by
  rw [tokenArrival_at h, if_pos he, ha]

/-- A token that its operator takes. -/
theorem tokenArrival_oper (h : MayArrive s x k rid kv r f) (he : 16 ≤ f.tok.target.toNat) {s1 : State}
    (ha : arriveOper x (f.tok.target.toNat - 16) r f.tok s = .ok () s1) : exec (.tokenArrival x k) s = .next (dropArrived x f s1) := by
  rw [tokenArrival_at h, if_neg (Nat.not_lt.mpr he), ha]

/-! ## Arrival at an element -/

variable {e : Nat} {t : Token} {i : Instr} {el : Elem}

/-- A data token at a port that its slot has. -/
theorem arriveElem_data (hi : s.slotAt x e t.slot.toNat = some i) (hform : initialForm i = false) (hport : t.port = 0 ∨ arityOf i = 2)
    (hk : t.kind = kData) : arriveElem x e r t s =
      if arityOf i = 2 then matchToken x e r t s else .ok () (makeReady x e ⟨t.slot.toNat, t, none⟩ s) := by
  have hbad : ¬(t.port.toNat = 1 ∧ arityOf i ≠ 2) := by
    rintro ⟨h1, h2⟩
    rcases hport with h0 | h0
    · simp [h0] at h1
    · exact h2 h0
  have hbad' : ∀ q : Prop, ¬(t.port.toNat = 1 ∧ arityOf i ≠ 2 ∧ q) := fun q h => hbad ⟨h.1, h.2.1⟩
  simp only [arriveElem, hi, hform, hk, Bool.false_eq_true, false_or, if_neg (hbad' _)]
  have hne : ((kData : BitVec 2) = kEos) = False := by decide
  have hnp : ((kData : BitVec 2) = kProbe) = False := by decide
  have hnt : ((kData : BitVec 2) == kTile) = false := by decide
  simp only [hne, hnp, hnt, if_false, Bool.and_false, Bool.false_eq_true]

/-- An end-of-stream token at a port that its slot has is recorded there (R217). -/
theorem arriveElem_eos (hi : s.slotAt x e t.slot.toNat = some i) (hform : initialForm i = false) (hport : t.port = 0 ∨ arityOf i = 2)
    (hk : t.kind = kEos) (hel : s.elem? x e = some el) (hbody : inBody r.image ⟨(s.stripe x).vs.getD 0, e, t.slot.toNat, t.port.toNat⟩ = false) :
    arriveElem x e r t s = .ok () (s.setElem x e { el with ended := el.ended ++ [2 * t.slot.toNat + t.port.toNat] }) := by
  have hbad : ¬(t.port.toNat = 1 ∧ arityOf i ≠ 2) := by
    rintro ⟨h1, h2⟩
    rcases hport with h0 | h0
    · simp [h0] at h1
    · exact h2 h0
  have hbad' : ∀ q : Prop, ¬(t.port.toNat = 1 ∧ arityOf i ≠ 2 ∧ q) := fun q h => hbad ⟨h.1, h.2.1⟩
  simp only [arriveElem, hi, hform, hk, Bool.false_eq_true, false_or, if_neg (hbad' _), if_true, hbody, if_false, State.mapElem_of_some hel, inputCode]

/-- The entries of the frame store that a token matches: of its frame, its slot and its iteration (R214). -/
def sameEntry (t : Token) (h : FrameEntry) : Bool := h.tok.frameOf == t.frameOf && h.slot == t.slot.toNat && h.tok.iter == t.iter

/-- An element with a token more in its frame store. -/
def Elem.keeping (t : Token) (w : Elem) : Elem := { w with frame := w.frame ++ [⟨t, t.slot.toNat, t.port, w.seq, .resident⟩], seq := w.seq + 1 }

theorem keepToken_eq (hel : s.elem? x e = some el) : keepToken x e t s = s.setElem x e (el.keeping t) := State.mapElem_of_some hel _

theorem matchToken_duplicate (hel : s.elem? x e = some el) {g : FrameEntry}
    (hg : el.frame.find? (fun h => sameEntry t h && h.port == t.port) = some g) :
    matchToken x e r t s = .ok () (fabricTrap x e t.slot.toNat t.tag cMATCHDUP 0 [g.tok, t] (s.setElem x e (el.keeping t))) := by
  simp only [sameEntry] at hg
  simp only [matchToken, hel, hg, keepToken_eq hel]

theorem matchToken_partner (hel : s.elem? x e = some el) {g : FrameEntry}
    (hnone : el.frame.find? (fun h => sameEntry t h && h.port == t.port) = none)
    (hg : el.frame.find? (fun h => sameEntry t h && h.port != t.port) = some g) (hread : readEntry x e r g s = .ok g.tok s) :
    matchToken x e r t s = .ok () (s.setElem x e { el with
      frame := el.frame.filter (fun h => h.seq != g.seq)
      ready := el.ready ++ [if t.port = 0 then ⟨t.slot.toNat, t, some g.tok⟩ else ⟨t.slot.toNat, g.tok, some t⟩] }) := by
  simp only [sameEntry] at hnone hg
  simp only [matchToken, hel, hnone, hg, hread, Got.bind_ok_eq, makeReady, State.mapElem_of_some hel,
    State.mapElem_of_some (State.elem_setElem_self ..), State.setElem_setElem]

theorem matchToken_waits (hel : s.elem? x e = some el)
    (hnone : el.frame.find? (fun h => sameEntry t h && h.port == t.port) = none)
    (hg : el.frame.find? (fun h => sameEntry t h && h.port != t.port) = none) :
    matchToken x e r t s = (prepareLine x e r t s).bind (fun _ s1 => .ok () (keepToken x e t s1)) := by
  simp only [sameEntry] at hnone hg
  simp only [matchToken, hel, hnone, hg]

/-- An entry is read back from where it stands unless its place is in error. -/
theorem readEntry_ok {g : FrameEntry}
    (h : g.place = .resident ∨ ∃ i, g.place = .carveOut i ∧ bufferFails s 1 (carveOffset r x i) 32 false = false) :
    readEntry x e r g s = .ok g.tok s := by
  rcases h with h | ⟨i, h, hok⟩
  · simp only [readEntry, h]
  · simp only [readEntry, h, hok, Bool.false_eq_true, if_false]

/-! ## Bytes written -/

/-- Bytes put one after another stand where they were put. -/
theorem cellGet_putRange {m : List Host.Cell} (hm : Rising m) (a n : Nat) (bs : List Byte) :
    Rising ((List.range n).foldl (fun c i => cellPut 0 (a + i) (nth bs i 0) c) m) ∧
    ∀ i < n, cellGet 0 (a + i) ((List.range n).foldl (fun c i => cellPut 0 (a + i) (nth bs i 0) c) m) = nth bs i 0 := by
  induction n with
  | zero => exact ⟨hm, fun i hi => absurd hi (Nat.not_lt_zero i)⟩
  | succ n ih =>
    obtain ⟨hrise, hget⟩ := ih
    simp only [List.range_succ, List.foldl_append, List.foldl_cons, List.foldl_nil]
    refine ⟨hrise.put, fun i hi => ?_⟩
    by_cases hin : i = n
    · subst hin; exact cellGet_put 0 _ _ hrise
    · rw [cellGet_put_ne 0 0 (by omega)]; exact hget i (by omega)

theorem map_nth_range (bs : List Byte) : (List.range bs.length).map (fun i => nth bs i 0) = bs := by
  refine List.ext_getElem (by simp) fun i h1 h2 => ?_
  simp [nth, h2]

/-- The stripe buffer holds the bytes written to it. -/
theorem bufferRead_bufferWrite {s : State} (h : cellsWf (fun _ => 0) s.stripeBuf = true) (a : Nat) (bs : List Byte) :
    bufferRead (bufferWrite 1 a bs s) 1 a bs.length = bs := by
  obtain ⟨-, hget⟩ := cellGet_putRange ((cellsWf_iff _ _).mp h).1 a bs.length bs
  simp only [bufferRead, bufferWrite, if_true]
  rw [List.map_congr_left fun i hi => hget i (List.mem_range.mp hi), map_nth_range]

/-- A write by a launch stores its bytes as far as fault slots let them (R274). -/
theorem stores_poke {s : State} (h : s.Inv) (l p pa : Nat) (bs : List Byte) : Stores pa bs s (poke (l + 1) p pa bs s) := by
  intro a
  rw [poke_read h, guardBytes_length]
  by_cases ha : pa ≤ a ∧ a < pa + bs.length
  · have hne : bs ≠ [] := by rintro rfl; simp at ha; omega
    have hlen : a - pa < bs.length := by omega
    rw [if_pos ⟨ha.1, ha.2, hne⟩, if_pos ha, guardBytes, if_neg (by omega)]
    simp [nth, List.getD_eq_getElem?_getD, hlen, show pa + (a - pa) = a by omega]
  · rw [if_neg ha, if_neg fun hp => ha ⟨hp.1, hp.2.1⟩]

/-! ## The line of a frame -/

/-- The resident entries of another frame that the token's line serves: they are spilled before the line comes to serve the token's (R214). -/
def strangers (t : Token) (el : Elem) : List FrameEntry :=
  match Table.find t.line el.lines with
  | some v => if v.toNat = t.frameOf then [] else entriesOf el v.toNat true
  | none => []

theorem prepareLine_eq (hel : s.elem? x e = some el) : prepareLine x e r t s = (spillAll x e r (strangers t el) s).bind (fun _ s1 =>
    let s2 := s1.mapElem x e (fun v => { v with lines := Table.set t.line (BitVec.ofNat 14 t.frameOf) v.lines })
    match s2.elem? x e with
    | none => .ok () s2
    | some v => (refillAll x e r ((entriesOf v t.frameOf false).take (16 - (entriesOf v t.frameOf true).length)) s2).bind (fun _ s3 =>
      match s3.elem? x e with
      | none => .ok () s3
      | some w => if (entriesOf w t.frameOf true).length < 16 then .ok () s3 else spillAll x e r ((entriesOf w t.frameOf true).take 1) s3)) := by
  simp only [prepareLine, hel, strangers]
  cases hline : Table.find t.line el.lines with
  | none => simp only [if_true] <;> rfl
  | some v => rfl

theorem strangers_one {g : FrameEntry} {old : BitVec 14} (hold : Table.find t.line el.lines = some old) (hne : old.toNat ≠ t.frameOf)
    (hg : el.frame.filter (fun h => h.tok.frameOf == old.toNat && h.place == .resident) = [g]) : strangers t el = [g] := by
  simp only [strangers, hold, if_neg hne, entriesOf, beq_true]
  exact hg

theorem entriesOf_spilled {n : Nat} (h : el.frame.find? (fun h => h.tok.frameOf == n && h.place != .resident) = none) :
    entriesOf el n false = [] := by
  simp only [entriesOf, List.filter_eq_nil_iff]
  intro g hg
  simpa using List.find?_eq_none.mp h g hg

theorem entriesOf_resident_lt {n : Nat} (h : (el.frame.filter (fun h => h.tok.frameOf == n)).length < 16) : (entriesOf el n true).length < 16 := by
  refine lt_of_le_of_lt ?_ h
  simp only [entriesOf, ← List.countP_eq_length_filter]
  exact List.countP_mono_left fun g _ hg => (Bool.and_eq_true _ _ ▸ hg).1

/-- The line comes to serve the token's frame once the strangers are spilled, where no entry of its own is spilled and fewer than 16 stand there. -/
theorem prepareLine_spilled (hel : s.elem? x e = some el) {s1 : State} {w : Elem} (hspill : spillAll x e r (strangers t el) s = .ok () s1)
    (hw : s1.elem? x e = some w) (hnone : entriesOf w t.frameOf false = []) (hroom : (entriesOf w t.frameOf true).length < 16) :
    prepareLine x e r t s = .ok () (s1.setElem x e { w with lines := Table.set t.line (BitVec.ofNat 14 t.frameOf) w.lines }) := by
  have hlines : ∀ b, entriesOf { w with lines := Table.set t.line (BitVec.ofNat 14 t.frameOf) w.lines } t.frameOf b = entriesOf w t.frameOf b :=
    fun _ => rfl
  simp only [prepareLine_eq hel, hspill, Got.bind_ok_eq, State.mapElem_of_some hw, State.elem_setElem_self, hlines, hnone, List.take_nil,
    refillAll, if_pos hroom]

/-- An element with an entry of its frame store at another place. -/
def Elem.moving (g : FrameEntry) (p : EntryPlace) (w : Elem) : Elem :=
  { w with frame := w.frame.map (fun h => if h.seq = g.seq then { g with place := p } else h) }

theorem placeEntry_eq {g : FrameEntry} {p : EntryPlace} (hel : s.elem? x e = some el) :
    placeEntry x e { g with place := p } s = s.setElem x e (el.moving g p) := State.mapElem_of_some hel _

/-- Moving an entry of another frame takes nothing to this frame's entries. -/
theorem entriesOf_moving {n : Nat} {g : FrameEntry} (hg : g.tok.frameOf ≠ n) (p : EntryPlace) (b : Bool) :
    entriesOf (el.moving g p) n b = (entriesOf el n b).filter (fun h => h.seq != g.seq) := by
  simp only [entriesOf, Elem.moving, List.filter_map, List.filter_filter]
  rw [List.map_congr_left (g := id)]
  · rw [List.map_id]
    refine List.filter_congr fun h _ => ?_
    by_cases hs : h.seq = g.seq <;> simp [hs, hg]
  · intro h hh
    have := (List.mem_filter.mp hh).2
    by_cases hs : h.seq = g.seq
    · simp [hs, hg] at this
    · simp [hs]

theorem bufferWrite_stripes (space a : Nat) (data : List Byte) (s : State) : (bufferWrite space a data s).stripes = s.stripes := by
  unfold bufferWrite
  split <;> rfl

theorem spillEntry_carveOut {g : FrameEntry} {n : Nat} (hel : s.elem? x e = some el) (hp : freePlace s x r = some (.carveOut n)) :
    spillEntry x e r g s = .ok () ((bufferWrite 1 (carveOffset r x n) (g.bytes e) s).setElem x e (el.moving g (.carveOut n))) := by
  simp only [spillEntry, hp]
  rw [placeEntry_eq (p := .carveOut n) ((State.elem_congr (bufferWrite_stripes ..) x e).trans hel)]

theorem spillEntry_full {g : FrameEntry} (hp : freePlace s x r = none) : spillEntry x e r g s = .stop (tokenTrap x e g.slot cTAGEXHAUST g.tok s) := by
  simp only [spillEntry, hp]

/-- The stripe buffers do not depend on what stripes hold. -/
theorem bufferRead_arrived (x e : Nat) (f : InFlight) (s : State) (w : Elem) (space a n : Nat) :
    bufferRead (dropArrived x f (s.setElem x e w)) space a n = bufferRead s space a n := rfl

/-- Memory does not depend on what stripes hold. -/
theorem stores_arrived (x e : Nat) (f : InFlight) (s t : State) (w : Elem) (pa : Nat) (bs : List Byte) :
    Stores pa bs s (dropArrived x f (t.setElem x e w)) ↔ Stores pa bs s t := Iff.rfl

theorem FrameEntry.bytes_length (e : Nat) (g : FrameEntry) : (g.bytes e).length = 32 := by
  simp [FrameEntry.bytes, Token.bytes, wordBytes]

theorem spilledBytes_eq (e : Nat) (g : FrameEntry) :
    g.bytes e = g.tok.bytes ++ leBytes 8 (e + 16 * g.slot + 256 * g.port.toNat) ++ leBytes 8 g.seq := by
  rw [FrameEntry.bytes, Nat.mul_comm g.slot, Nat.mul_comm g.port.toNat]

/-- An address of the device lies in a die's HBM or in its DSM. -/
theorem locOf_of_onDevice {pa : Nat} (h : onDevice pa = true) : (∃ j o, locOf pa = .hbm j o) ∨ ∃ j o, locOf pa = .dsm j o := by
  simp only [onDevice, homeDie] at h
  cases hl : locOf pa <;> simp [hl] at h ⊢

theorem poke_stripes (l p pa : Nat) (bs : List Byte) (s : State) : (poke l p pa bs s).stripes = s.stripes :=
  (congrArg State.stripes (poke_frame l p pa bs s)).trans rfl

theorem spillEntry_overflow {g : FrameEntry} {n pa : Nat} {s1 : State} (hp : freePlace s x r = some (.overflow n))
    (htr : fabricTranslate x e g.slot g.tok (overflowVa r x n) 32 .write s = .ok pa s1) (hel : s1.elem? x e = some el)
    (hpa : onDevice pa = true) (hq : s1.wqueue = []) (hw : writeFails s1 pa 32 = false) :
    spillEntry x e r g s = .ok () ((poke (r.launch + 1) 0 pa (g.bytes e) s1).setElem x e (el.moving g (.overflow n))) := by
  have hpoke : pokeOk (r.launch + 1) 0 pa (g.bytes e) s1 = some (poke (r.launch + 1) 0 pa (g.bytes e) s1) := by
    rw [pokeOk, FrameEntry.bytes_length, hw]; rfl
  have hel' : (poke (r.launch + 1) 0 pa (g.bytes e) s1).elem? x e = some el :=
    (State.elem_congr (poke_stripes ..) x e).trans hel
  rcases locOf_of_onDevice hpa with ⟨j, o, hl⟩ | ⟨j, o, hl⟩ <;>
    simp only [spillEntry, hp, htr, Got.bind_ok_eq, hl, settleLines_id hq, hpoke, placeEntry_eq hel']

/-! ## Arrival at an operator -/

variable {o : Nat} {v : Oper} {im : OpImage}

/-- A data token waits at its input (R101, R304). -/
theorem arriveOper_data (hi : s.opImage x o = some im) (hin : t.slot.toNat < opInputs im.kind) (hv : s.oper? x o = some v) (hk : t.kind = kData) :
    arriveOper x o r t s = .ok () (s.setOper x o { v with
      inputs := Table.set t.slot.toNat (Table.getD v.inputs t.slot.toNat [] ++ [t]) v.inputs
      accesses := if im.kind = 10 then v.accesses ++ [(t, t.slot.toNat == 1)] else v.accesses }) := by
  have hne : ((kData : BitVec 2) = kEos) = False := by decide
  simp only [arriveOper, hi, if_neg (Nat.not_le.mpr hin), hk, hne, if_false, true_or, if_true, State.mapOper_of_some hv]

/-- End-of-stream is recorded at an input outside every LOOP body, but for the end of a LOOP's own body (R217, R305). -/
theorem arriveOper_eos (hi : s.opImage x o = some im) (hin : t.slot.toNat < opInputs im.kind) (hv : s.oper? x o = some v) (hk : t.kind = kEos)
    (hbody : inBody r.image ⟨(s.stripe x).vs.getD 0, 16 + o, t.slot.toNat, 0⟩ = false) (hloop : ¬(im.kind = 9 ∧ t.slot.toNat = 1)) :
    arriveOper x o r t s = .ok () (s.setOper x o { v with ended := v.ended ++ [2 * t.slot.toNat] }) := by
  have hback : (im.kind == 9 && t.slot.toNat == 1) = false := by simpa using hloop
  simp only [arriveOper, hi, if_neg (Nat.not_le.mpr hin), hk, if_true, hbody, hback, Bool.or_self, Bool.false_eq_true, if_false,
    State.mapOper_of_some hv, inputCode, Nat.add_zero]

/-- What an element holds after a token has arrived there. -/
theorem gives_elem {j : Instr} {u : State} {w : Elem} {P : State → Prop} (hexec : exec j s = .next (dropArrived x f (u.setElem x e w)))
    (hu : u.stripes = s.stripes) (hP : P (dropArrived x f (u.setElem x e w))) :
    Gives j s (fun t => (t.stripe x).inbox = (s.stripe x).inbox.erase f ∧ P t) := by
  have hstripe : u.stripe x = s.stripe x := by simp only [State.stripe, hu]
  exact ⟨_, hexec, by simp [hstripe], hP⟩

theorem gives_oper {j : Instr} {w : Oper} (hexec : exec j s = .next (dropArrived x f (s.setOper x o w))) :
    Gives j s (fun t => (t.stripe x).inbox = (s.stripe x).inbox.erase f ∧ t.oper? x o = some w) :=
  ⟨_, hexec, by simp, by simp⟩

/-- A token that finds no partner stands in the frame store once its line is ready. -/
theorem tokenArrival_waits (h : MayArrive s x k rid kv r f) (he : f.tok.target.toNat < 16)
    (harr : arriveElem x f.tok.target.toNat r f.tok s = matchToken x f.tok.target.toNat r f.tok s)
    (hel : s.elem? x f.tok.target.toNat = some el)
    (hdup : el.frame.find? (fun h => sameEntry f.tok h && h.port == f.tok.port) = none)
    (hpart : el.frame.find? (fun h => sameEntry f.tok h && h.port != f.tok.port) = none) {s1 : State} {w : Elem}
    (hline : prepareLine x f.tok.target.toNat r f.tok s = .ok () (s1.setElem x f.tok.target.toNat w)) :
    exec (.tokenArrival x k) s = .next (dropArrived x f (s1.setElem x f.tok.target.toNat (w.keeping f.tok))) := by
  refine tokenArrival_elem h he ?_
  rw [harr, matchToken_waits hel hdup hpart, hline, Got.bind_ok_eq, keepToken_eq (State.elem_setElem_self ..), State.setElem_setElem]

/-- A line that serves the token's frame, or none, with room for it, takes the token at once (R214). -/
theorem prepareLine_free (hel : s.elem? x e = some el)
    (hspilled : el.frame.find? (fun h => h.tok.frameOf == t.frameOf && h.place != .resident) = none)
    (hroom : (el.frame.filter (fun h => h.tok.frameOf == t.frameOf)).length < 16)
    (hline : (Table.find t.line el.lines).all (fun v => v.toNat == t.frameOf) = true) :
    prepareLine x e r t s = .ok () (s.setElem x e { el with lines := Table.set t.line (BitVec.ofNat 14 t.frameOf) el.lines }) := by
  have hstr : strangers t el = [] := by
    unfold strangers
    cases hfind : Table.find t.line el.lines with
    | none => rfl
    | some v =>
      rw [hfind] at hline
      exact if_pos (by simpa using hline)
  exact prepareLine_spilled hel (by rw [hstr, spillAll]) hel (entriesOf_spilled hspilled) (entriesOf_resident_lt hroom)

/-- A spill that finds no place traps (R216). -/
theorem prepareLine_full {g : FrameEntry} {old : BitVec 14} (hel : s.elem? x e = some el)
    (hold : Table.find t.line el.lines = some old) (hne : old.toNat ≠ t.frameOf)
    (hg : el.frame.filter (fun h => h.tok.frameOf == old.toNat && h.place == .resident) = [g]) (hp : freePlace s x r = none) :
    prepareLine x e r t s = .stop (tokenTrap x e g.slot cTAGEXHAUST g.tok s) := by
  rw [prepareLine_eq hel, strangers_one hold hne hg, spillAll, spillEntry_full hp]
  rfl

/-- A token of another frame waits in its line after the one entry that the line held is spilled (R214). -/
theorem prepareLine_after_spill {s1 : State} {g : FrameEntry} {p : EntryPlace} {old : BitVec 14} (hel : s.elem? x e = some el)
    (hspilled : el.frame.find? (fun h => h.tok.frameOf == t.frameOf && h.place != .resident) = none)
    (hroom : (el.frame.filter (fun h => h.tok.frameOf == t.frameOf)).length < 16)
    (hold : Table.find t.line el.lines = some old) (hne : old.toNat ≠ t.frameOf)
    (hg : el.frame.filter (fun h => h.tok.frameOf == old.toNat && h.place == .resident) = [g])
    (hspill : spillEntry x e r g s = .ok () (s1.setElem x e (el.moving g p))) :
    prepareLine x e r t s = .ok () (s1.setElem x e { el.moving g p with lines := Table.set t.line (BitVec.ofNat 14 t.frameOf) el.lines }) := by
  have hframe : g.tok.frameOf ≠ t.frameOf := by
    have hmem : g ∈ el.frame.filter (fun h => h.tok.frameOf == old.toNat && h.place == .resident) := by rw [hg]; exact List.mem_singleton_self g
    have := (List.mem_filter.mp hmem).2
    simp only [Bool.and_eq_true, beq_iff_eq] at this
    rw [this.1]; exact hne
  rw [prepareLine_spilled hel (s1 := s1.setElem x e (el.moving g p)) (w := el.moving g p)]
  · rw [State.setElem_setElem]; rfl
  · rw [strangers_one hold hne hg, spillAll, hspill]; rfl
  · exact State.elem_setElem_self ..
  · rw [entriesOf_moving hframe, entriesOf_spilled hspilled, List.filter_nil]
  · rw [entriesOf_moving hframe]
    exact lt_of_le_of_lt (List.length_filter_le _ _) (entriesOf_resident_lt hroom)

end

/-! ## What arrives -/

theorem tokensArrive : Says.TokensArrive := by
  intro s x k rid kv r f hrun hhere hvs hlive hfirst hroom e slot arrives taken same
  have h : MayArrive s x k rid kv r f := ⟨hrun, hhere, hvs, hlive, hfirst, hroom⟩
  refine ⟨fun i el he hi hel hform hk => ⟨fun h2 hp => ?_, fun h2 => ?_⟩, fun i el he hi hel hform hk hp hbody => ?_,
    fun im v he hi hin hv => ⟨fun hk => ?_, fun hk hbody hloop => ?_⟩⟩
  · have harr := arriveElem_data (r := r) hi hform (.inl hp) hk
    rw [if_neg h2, makeReady, State.mapElem_of_some hel] at harr
    exact gives_elem (tokenArrival_elem h he harr) rfl (elem_dropArrived_setElem ..)
  · have harr := (arriveElem_data (r := r) hi hform (.inr h2) hk).trans (if_pos h2)
    intro kept lines
    refine ⟨fun g hg => ⟨_, tokenArrival_elem h he (harr.trans (matchToken_duplicate hel hg)), rfl⟩, fun hdup => ⟨fun g hg hplace => ?_, ?_⟩⟩
    · exact gives_elem (tokenArrival_elem h he (harr.trans (matchToken_partner hel hdup hg (readEntry_ok hplace)))) rfl
        (elem_dropArrived_setElem ..)
    intro hpart hspilled hcount
    refine ⟨fun hline => ?_, fun g old hold hne hg => ?_⟩
    · have hprep := prepareLine_free (r := r) hel hspilled hcount hline
      exact gives_elem (tokenArrival_waits h he harr hel hdup hpart hprep) rfl (elem_dropArrived_setElem ..)
    intro moved bytes
    have hbytes : g.bytes e = bytes := spilledBytes_eq e g
    refine ⟨fun n hp hwf => ?_, fun n pa s1 hp htr hsame hinv hpa hq hw => ?_, fun hp => ?_⟩
    · have hprep := prepareLine_after_spill hel hspilled hcount hold hne hg (spillEntry_carveOut hel hp)
      refine gives_elem (tokenArrival_waits h he harr hel hdup hpart hprep) (bufferWrite_stripes ..) ⟨elem_dropArrived_setElem .., ?_⟩
      have hread := bufferRead_bufferWrite hwf (carveOffset r x n) (g.bytes e)
      rw [FrameEntry.bytes_length] at hread
      rw [bufferRead_arrived]
      exact hread.trans hbytes
    · have hprep := prepareLine_after_spill hel hspilled hcount hold hne hg
        (spillEntry_overflow hp htr ((State.elem_congr hsame x e).trans hel) hpa hq hw)
      refine gives_elem (tokenArrival_waits h he harr hel hdup hpart hprep) ((poke_stripes ..).trans hsame) ⟨elem_dropArrived_setElem .., ?_⟩
      rw [stores_arrived, ← hbytes]
      exact stores_poke hinv r.launch 0 pa (g.bytes e)
    · refine ⟨_, ?_, rfl⟩
      rw [tokenArrival_at h, if_pos he, harr, matchToken_waits hel hdup hpart, prepareLine_full hel hold hne hg hp]
      rfl
  · rw [← Option.getD_some (a := kv) (b := 0), ← hvs] at hbody
    exact gives_elem (tokenArrival_elem h he (arriveElem_eos hi hform hp hk hel hbody)) rfl (elem_dropArrived_setElem ..)
  · exact gives_oper (tokenArrival_oper h he (arriveOper_data hi hin hv hk))
  · have htgt : 16 + (f.tok.target.toNat - 16) = f.tok.target.toNat := by omega
    refine gives_oper (tokenArrival_oper h he (arriveOper_eos hi hin hv hk ?_ hloop))
    rw [htgt, hvs]; exact hbody

end Sys2Proof.Machine
end

section
/-!
SUPPORT. What changes of a stripe leave of the others' wiring, and the copies of an MMG origin (R98, R224).
-/

namespace Sys2Proof.Machine

open Sys2Proof

/-! ## Changes of a stripe -/

section
variable (s : State)

theorem State.stripe_mapStripe (x z : Nat) (f : Stripe → Stripe) : (s.mapStripe x f).stripe z = if z = x then f (s.stripe x) else s.stripe z := by
  by_cases h : z = x
  · subst h; simp
  · rw [if_neg h, State.stripe_mapStripe_ne s h]

/-- What a change of stripes keeps, it keeps of every stripe. -/
theorem State.stripe_mapStripe_field {α : Type} (g : Stripe → α) {f : Stripe → Stripe} (hf : ∀ v, g (f v) = g v) (x z : Nat) :
    g ((s.mapStripe x f).stripe z) = g (s.stripe z) := by
  rw [State.stripe_mapStripe]
  split
  next h => rw [h, hf]
  · rfl

theorem State.runOf_mapStripe {f : Stripe → Stripe} (hf : ∀ v, (f v).run = v.run) (x z : Nat) : (s.mapStripe x f).runOf z = s.runOf z := by
  simp only [State.runOf, State.stripe_mapStripe_field s (·.run) hf]
  rfl

theorem State.elem_mapStripe {f : Stripe → Stripe} (hf : ∀ v, (f v).elems = v.elems) (x z e : Nat) :
    (s.mapStripe x f).elem? z e = s.elem? z e := by
  simp only [State.elem?, State.stripe_mapStripe_field s (·.elems) hf]

@[simp] theorem State.runOf_setElem (x e z : Nat) (v : Elem) : (s.setElem x e v).runOf z = s.runOf z :=
  State.runOf_mapStripe s (f := fun st => { st with elems := Table.set e v st.elems }) (fun _ => rfl) x z

theorem State.stripe_setElem_field {α : Type} (g : Stripe → α) (hg : ∀ (st : Stripe) l, g { st with elems := l } = g st) (x e z : Nat) (v : Elem) :
    g ((s.setElem x e v).stripe z) = g (s.stripe z) := State.stripe_mapStripe_field s g (fun st => hg st _) x z

/-- An element keeps what it holds when another changes. -/
theorem State.elem_setElem_ne {x y e e' : Nat} (h : ¬(y = x ∧ e' = e)) (v : Elem) : (s.setElem y e' v).elem? x e = s.elem? x e := by
  by_cases hx : y = x
  · subst hx
    have he : e ≠ e' := fun he => h ⟨rfl, he.symm⟩
    simp only [State.elem?, State.stripe_setElem_self, Table.find_set_ne he]
  · rw [State.elem?, State.setElem, State.stripe_mapStripe_ne s (Ne.symm hx)]
    rfl

@[simp] theorem State.inbox_setElem (x e z : Nat) (v : Elem) : ((s.setElem x e v).stripe z).inbox = (s.stripe z).inbox :=
  State.stripe_setElem_field s (·.inbox) (fun _ _ => rfl) x e z v

@[simp] theorem State.pass_setElem (x e z : Nat) (v : Elem) : ((s.setElem x e v).stripe z).pass = (s.stripe z).pass :=
  State.stripe_setElem_field s (·.pass) (fun _ _ => rfl) x e z v

@[simp] theorem State.image_setElem (x e z : Nat) (v : Elem) : ((s.setElem x e v).stripe z).image = (s.stripe z).image :=
  State.stripe_setElem_field s (·.image) (fun _ _ => rfl) x e z v

/-! ## What leaves an element -/

theorem emit_elem (x src : Nat) (t : Token) (z e : Nat) : (emit x src t s).elem? z e = s.elem? z e := by
  refine State.elem_mapStripe s (fun v => ?_) x z e
  split <;> rfl

theorem sendAll_elem (x src : Nat) (ts : List Token) (z e : Nat) : (sendAll x src ts s).2.elem? z e = s.elem? z e := by
  induction ts generalizing s with
  | nil => rfl
  | cons t ts ih =>
    simp only [sendAll]
    split
    · rw [ih, emit_elem]
    · rfl

/-- An element that sends what waits keeps all but what has left. -/
theorem flushOut_elem {s : State} {x e : Nat} {v : Elem} (h : s.elem? x e = some v) :
    (flushOut x e s).elem? x e = some { v with out := (sendAll x (fabricUnit x e) v.out s).1 } := by
  have hsent : (sendAll x (fabricUnit x e) v.out s).2.elem? x e = some v := (sendAll_elem ..).trans h
  simp only [flushOut, h]
  rw [State.mapElem_of_some hsent, State.elem_setElem_self]

/-! ## Deliveries to the participants of an MMG (R98, R224) -/

/-- A delivery changes inboxes and pass registers alone. -/
theorem deliverMember_field {α : Type} (g : Stripe → α) (hin : ∀ (v : Stripe) l, g { v with inbox := l } = g v)
    (hpass : ∀ (v : Stripe) l, g { v with pass := l } = g v) (x e y : Nat) (tok : Token) (z : Nat) :
    g ((deliverMember x e y tok s).stripe z) = g (s.stripe z) := by
  unfold deliverMember
  dsimp only
  split
  · exact State.stripe_mapStripe_field s g (fun v => hin v _) y z
  · exact State.stripe_mapStripe_field s g (fun v => hpass v _) x z

theorem deliverMember_runs (x e y : Nat) (tok : Token) : (deliverMember x e y tok s).runs = s.runs := by
  unfold deliverMember
  dsimp only
  split <;> rfl

theorem deliverMember_elem (x e y : Nat) (tok : Token) (z i : Nat) : (deliverMember x e y tok s).elem? z i = s.elem? z i := by
  rw [State.elem?, deliverMember_field s (·.elems) (fun _ _ => rfl) (fun _ _ => rfl)]
  rfl

theorem deliverMember_runOf (x e y : Nat) (tok : Token) (z : Nat) : (deliverMember x e y tok s).runOf z = s.runOf z := by
  rw [State.runOf, deliverMember_field s (·.run) (fun _ _ => rfl) (fun _ _ => rfl), deliverMember_runs]
  rfl

theorem memberDirect_congr {s t : State} {x : Nat} (h : t.runOf x = s.runOf x) (so : Nat) : memberDirect t x so = memberDirect s x so := by
  simp only [memberDirect, h]

/-- A delivery that is there at once. -/
theorem deliverMember_inbox {s : State} {x e y : Nat} {tok : Token} (h : memberDirect s x tok.soff.toNat = true) :
    ((deliverMember x e y tok s).stripe y).inbox =
      (s.stripe y).inbox ++ [⟨fabricUnit x e, { tok with soff := 0 }, tok.soff.toNat != 0⟩] := by
  simp only [deliverMember, h, if_true, State.stripe_mapStripe_self]

/-- A delivery toward the next stripe of a scroll segment. -/
theorem deliverMember_pass {s : State} {x e y : Nat} {tok : Token} (h : memberDirect s x tok.soff.toNat = false) :
    Table.getD ((deliverMember x e y tok s).stripe x).pass (64 + tok.target.toNat) [] =
      Table.getD (s.stripe x).pass (64 + tok.target.toNat) [] ++ [⟨fabricUnit x e, tok, false⟩] := by
  simp only [deliverMember, h, Bool.false_eq_true, if_false, State.stripe_mapStripe_self, Table.getD_set_self]

end

/-! ## The copies of an MMG origin -/

section
variable {s : State} {x e y : Nat} {v m : Elem} {so el key port : Nat} {a t : Token} {b : Option Token}

/-- Where a copy lands in its participant. -/
def landingKey (s : State) (x so : Nat) (t : Token) : Nat :=
  if memberDirect s x so then t.value.toNat % 8 else copyKey t.slot.toNat (t.value.toNat % 8)

theorem copyOperand_eq (hv : s.elem? x e = some v) (hm : s.elem? y el = some m) : copyOperand x e y (so, el, a, b) key port t s =
    deliverMember x e y (memberTok so el port (v.tile key) t.slot.toNat t) (s.setElem y el (m.setTile (landingKey s x so t) (v.tile key))) := by
  simp only [copyOperand, hv, State.mapElem_of_some hm]
  rfl

theorem copyOperand_runOf (z : Nat) (hv : s.elem? x e = some v) (hm : s.elem? y el = some m) :
    (copyOperand x e y (so, el, a, b) key port t s).runOf z = s.runOf z := by
  rw [copyOperand_eq hv hm, deliverMember_runOf, State.runOf_setElem]

theorem copyOperand_image (z : Nat) (hv : s.elem? x e = some v) (hm : s.elem? y el = some m) :
    ((copyOperand x e y (so, el, a, b) key port t s).stripe z).image = (s.stripe z).image := by
  rw [copyOperand_eq hv hm, deliverMember_field _ (·.image) (fun _ _ => rfl) (fun _ _ => rfl), State.image_setElem]

theorem copyOperand_origin (hne : ¬(y = x ∧ el = e)) (hv : s.elem? x e = some v) (hm : s.elem? y el = some m) :
    (copyOperand x e y (so, el, a, b) key port t s).elem? x e = some v := by
  rw [copyOperand_eq hv hm, deliverMember_elem, State.elem_setElem_ne _ hne, hv]

theorem copyOperand_participant (hv : s.elem? x e = some v) (hm : s.elem? y el = some m) :
    (copyOperand x e y (so, el, a, b) key port t s).elem? y el = some (m.setTile (landingKey s x so t) (v.tile key)) := by
  rw [copyOperand_eq hv hm, deliverMember_elem, State.elem_setElem_self]

theorem memberTok_soff (hso : so < 4) (tile : Tile) (slot : Nat) : (memberTok so el port tile slot t).soff.toNat = so := by
  simp only [memberTok, BitVec.toNat_ofNat]
  omega

theorem copyOperand_inbox (hso : so < 4) (hd : memberDirect s x so = true) (hv : s.elem? x e = some v) (hm : s.elem? y el = some m) :
    ((copyOperand x e y (so, el, a, b) key port t s).stripe y).inbox = (s.stripe y).inbox ++
      [⟨fabricUnit x e, { memberTok so el port (v.tile key) t.slot.toNat t with soff := 0 }, (BitVec.ofNat 2 so).toNat != 0⟩] := by
  rw [copyOperand_eq hv hm, deliverMember_inbox, State.inbox_setElem]
  · rfl
  · rw [memberTok_soff hso, memberDirect_congr (State.runOf_setElem ..), hd]

theorem copyOperand_pass (hso : so < 4) (hel : el < 32) (hd : memberDirect s x so = false) (hv : s.elem? x e = some v) (hm : s.elem? y el = some m) :
    Table.getD ((copyOperand x e y (so, el, a, b) key port t s).stripe x).pass (64 + el) [] = Table.getD (s.stripe x).pass (64 + el) [] ++
      [⟨fabricUnit x e, memberTok so el port (v.tile key) t.slot.toNat t, false⟩] := by
  have htarget : ∀ tile slot, (memberTok so el port tile slot t).target.toNat = el := fun tile slot => by
    simp only [memberTok, BitVec.toNat_ofNat]; omega
  have hpass := deliverMember_pass (s := s.setElem y el (m.setTile (landingKey s x so t) (v.tile key))) (x := x) (e := e) (y := y)
    (tok := memberTok so el port (v.tile key) t.slot.toNat t) (by rw [memberTok_soff hso, memberDirect_congr (State.runOf_setElem ..), hd])
  rw [htarget, State.pass_setElem] at hpass
  rw [copyOperand_eq hv hm, hpass]

/-- What copies of an origin's operands have made of a state: the origin holds v still, the participant held m and holds the given tiles, and
the handles are on their way. -/
structure Copied (x e y so el : Nat) (v m : Elem) (s t : State) (hs : List Token) (tiles : Nat → Tile) : Prop where
  origin : t.elem? x e = some v
  participant : ∃ n, t.elem? y el = some n ∧ n.mmgSent = m.mmgSent ∧ ∀ j, n.tile j = tiles j
  inbox : memberDirect s x so = true → (t.stripe y).inbox = (s.stripe y).inbox ++
    hs.map (fun h => ⟨fabricUnit x e, { h with soff := 0 }, (BitVec.ofNat 2 so).toNat != 0⟩)
  pass : memberDirect s x so = false → el < 32 → Table.getD (t.stripe x).pass (64 + el) [] = Table.getD (s.stripe x).pass (64 + el) [] ++
    hs.map (fun h => ⟨fabricUnit x e, h, false⟩)
  runOf : ∀ z, t.runOf z = s.runOf z
  image : ∀ z, (t.stripe z).image = (s.stripe z).image

theorem Copied.refl (hv : s.elem? x e = some v) (hm : s.elem? y el = some m) : Copied x e y so el v m s s [] m.tile where
  origin := hv
  participant := ⟨m, hm, rfl, fun _ => rfl⟩
  inbox _ := (List.append_nil _).symm
  pass _ _ := (List.append_nil _).symm
  runOf _ := rfl
  image _ := rfl

theorem Elem.tile_setTile (m : Elem) (k j : Nat) (tile : Tile) : (m.setTile k tile).tile j = if j = k then tile else m.tile j :=
  Table.getD_set ..

/-- One operand more. -/
theorem Copied.copy {u : State} {hs : List Token} {tiles : Nat → Tile} (h : Copied x e y so el v m s u hs tiles) (hso : so < 4)
    (hne : ¬(y = x ∧ el = e)) (a : Token) (b : Option Token) (key port : Nat) (t : Token) :
    Copied x e y so el v m s (copyOperand x e y (so, el, a, b) key port t u) (hs ++ [memberTok so el port (v.tile key) t.slot.toNat t])
      (fun j => if j = landingKey s x so t then v.tile key else tiles j) := by
  obtain ⟨n, hn, hsent, htiles⟩ := h.participant
  have hdirect : memberDirect u x so = memberDirect s x so := memberDirect_congr (h.runOf x) so
  have hland : landingKey u x so t = landingKey s x so t := by simp only [landingKey, hdirect]
  refine ⟨copyOperand_origin hne h.origin hn, ⟨_, copyOperand_participant h.origin hn, hsent, fun j => ?_⟩, fun hd => ?_, fun hd hel => ?_,
    fun z => ?_, fun z => ?_⟩
  · rw [Elem.tile_setTile, hland, htiles]
  · rw [copyOperand_inbox hso (hdirect.trans hd) h.origin hn, h.inbox hd, List.map_append, List.append_assoc]
    rfl
  · rw [copyOperand_pass hso hel (hdirect.trans hd) h.origin hn, h.pass hd hel, List.map_append, List.append_assoc]
    rfl
  · rw [copyOperand_runOf z h.origin hn, h.runOf]
  · rw [copyOperand_image z h.origin hn, h.image]

/-- Both operands that an origin read, or its one. -/
def copyOperands (x e y so el : Nat) (a : Token) (b : Option Token) (s : State) : State :=
  match b with
  | some c => copyOperand x e y (so, el, a, b) 17 1 c (copyOperand x e y (so, el, a, b) 16 0 a s)
  | none => copyOperand x e y (so, el, a, b) 16 0 a s

/-- The tiles of a participant that has received the copies. -/
def copiedTiles (s : State) (x so : Nat) (v m : Elem) (a : Token) (b : Option Token) (j : Nat) : Tile :=
  match b with
  | some c => if j = landingKey s x so c then v.tile 17 else if j = landingKey s x so a then v.tile 16 else m.tile j
  | none => if j = landingKey s x so a then v.tile 16 else m.tile j

theorem copied_operands (hv : s.elem? x e = some v) (hm : s.elem? y el = some m) (hso : so < 4) (hne : ¬(y = x ∧ el = e)) (a : Token)
    (b : Option Token) : Copied x e y so el v m s (copyOperands x e y so el a b s)
      (memberTok so el 0 (v.tile 16) a.slot.toNat a :: b.toList.map (fun t => memberTok so el 1 (v.tile 17) t.slot.toNat t))
      (copiedTiles s x so v m a b) := by
  have hone := (Copied.refl (so := so) hv hm).copy hso hne a b 16 0 a
  cases b with
  | none => exact hone
  | some c => exact hone.copy hso hne a (some c) 17 1 c

/-- The state of an origin and its participant after the copies into it, with what the origin owes still. -/
def mmgMarked (x e y so el slot : Nat) (rest : List (Nat × Nat × Token × Option Token)) (s : State) : State :=
  (s.mapElem y el (fun n => { n with mmgSent := Table.set slot (16 * so + e) n.mmgSent })).mapElem x e (fun u => { u with mmgOwed := rest, stuck := [] })

theorem Copied.marked_eq {u : State} {hs : List Token} {tiles : Nat → Tile} (h : Copied x e y so el v m s u hs tiles) (hne : ¬(y = x ∧ el = e))
    (slot : Nat) (rest : List (Nat × Nat × Token × Option Token)) :
    ∃ n, n.mmgSent = Table.set slot (16 * so + e) m.mmgSent ∧ (∀ j, n.tile j = tiles j) ∧
      mmgMarked x e y so el slot rest u = (u.setElem y el n).setElem x e { v with mmgOwed := rest, stuck := [] } := by
  obtain ⟨n, hn, hsent, htiles⟩ := h.participant
  refine ⟨{ n with mmgSent := Table.set slot (16 * so + e) n.mmgSent }, by rw [hsent], htiles, ?_⟩
  rw [mmgMarked, State.mapElem_of_some hn, State.mapElem_of_some ((State.elem_setElem_ne u hne _).trans h.origin)]

/-- The origin copies into the first participant that can take its operands (R98, R224). -/
theorem mmgCopy_eq (hv : s.elem? x e = some v) (hfault : v.faulted = none) (hlive : stripeLive s x = true)
    (hfind : v.mmgOwed.find? (memberReady s x e) = some (so, el, a, b)) (hy : memberStripe s x so = some y) (hm : s.elem? y el = some m)
    (hallot : ∀ t ∈ a :: b.toList, t.value.toNat % 8 < m.allot) : exec (.mmgCopy x e) s =
      let s4 := mmgMarked x e y so el a.slot.toNat (v.mmgOwed.erase (so, el, a, b)) (copyOperands x e y so el a b s)
      if !(v.mmgOwed.erase (so, el, a, b)).isEmpty then .next s4 else
      let left := leftOver x e (mmgFinish x e a b s4)
      .next (if !left.isEmpty && (leftOver x e (mmgFinish x e a b (unhindered x s4))).isEmpty
        then s.mapElem x e (fun u => { u with stuck := emitted x s4 (mmgFinish x e a b s4) ++ left }) else mmgFinish x e a b s4) := by
  have hfits : (a :: b.toList).find? (fun t => decide (m.allot ≤ t.value.toNat % 8)) = none := by
    rw [List.find?_eq_none]
    intro t ht
    simpa using hallot t ht
  show execMmgCopy x e s = _
  simp only [execMmgCopy, hv, hfault, hlive, hfind, hy, hm, hfits, Option.isSome_none, Bool.not_true, Bool.or_self, Bool.false_eq_true, if_false]
  cases b <;> rfl

/-- The node that a contribution completed is cleared (R93). -/
def settledNode (nd : Node) (c : Node) : Node := if nd.count + 1 == nd.total then { c with acc := [], next := [], count := 0 } else c

/-- After its last copy an origin executes as an MMA on the tiles it read (R98). -/
theorem mmgFinish_elem {w : EWord} {nd : Node} (hv : s.elem? x e = some v) (hslot : s.slotAt x e a.slot.toNat = some (.mmg w))
    (hnd : Table.find (w.imm.toNat % 4) v.nodes = some nd) :
    ∃ u, (mmgFinish x e a b s).elem? x e = some u ∧ u.mmgOwed = [] ∧ u.tiles = Table.erase 16 (Table.erase 17 v.tiles) ∧
      u.nodes = Table.set (w.imm.toNat % 4) (settledNode nd
        (contribute (mmgOf w).wkind w.rt.toNat (elemKeys s x e) v nd (v.tile 16) (b.map (fun _ => v.tile 17)) a.iter.toNat).1) v.nodes := by
  have hbits : bits w.imm.toNat 1 0 = w.imm.toNat % 4 := by simp [bits]
  simp only [mmgFinish, hv, hslot, hbits, hnd, mmaRun]
  refine ⟨_, flushOut_elem (State.elem_setElem_self ..), rfl, rfl, ?_⟩
  rfl

theorem Copied.marked_image {u : State} {hs : List Token} {tiles : Nat → Tile} (h : Copied x e y so el v m s u hs tiles) (hne : ¬(y = x ∧ el = e))
    (slot : Nat) (rest : List (Nat × Nat × Token × Option Token)) :
    ((mmgMarked x e y so el slot rest u).stripe x).image = (s.stripe x).image := by
  obtain ⟨n, -, -, heq⟩ := h.marked_eq hne slot rest
  rw [heq, State.image_setElem, State.image_setElem, h.image]

theorem elemImage_congr {t : State} (h : (t.stripe x).image = (s.stripe x).image) : t.elemImage x e = s.elemImage x e := by
  simp only [State.elemImage, h]

theorem Copied.marked_origin {u : State} {hs : List Token} {tiles : Nat → Tile} (h : Copied x e y so el v m s u hs tiles) (hne : ¬(y = x ∧ el = e))
    (slot : Nat) (rest : List (Nat × Nat × Token × Option Token)) :
    (mmgMarked x e y so el slot rest u).elem? x e = some { v with mmgOwed := rest, stuck := [] } := by
  obtain ⟨n, -, -, heq⟩ := h.marked_eq hne slot rest
  rw [heq, State.elem_setElem_self]

theorem Copied.marked_participant {u : State} {hs : List Token} {tiles : Nat → Tile} (h : Copied x e y so el v m s u hs tiles)
    (hne : ¬(y = x ∧ el = e)) (slot : Nat) (rest : List (Nat × Nat × Token × Option Token)) :
    ∃ n, (mmgMarked x e y so el slot rest u).elem? y el = some n ∧ Table.find slot n.mmgSent = some (16 * so + e) ∧ ∀ j, n.tile j = tiles j := by
  obtain ⟨n, hsent, htiles, heq⟩ := h.marked_eq hne slot rest
  refine ⟨n, ?_, by rw [hsent, Table.find_set_self], htiles⟩
  rw [heq, State.elem_setElem_ne _ (fun hxe => hne ⟨hxe.1.symm, hxe.2.symm⟩), State.elem_setElem_self]

theorem Copied.marked_inbox {u : State} {hs : List Token} {tiles : Nat → Tile} (h : Copied x e y so el v m s u hs tiles) (hne : ¬(y = x ∧ el = e))
    (slot : Nat) (rest : List (Nat × Nat × Token × Option Token)) (hd : memberDirect s x so = true) :
    ((mmgMarked x e y so el slot rest u).stripe y).inbox = (s.stripe y).inbox ++
      hs.map (fun h => ⟨fabricUnit x e, { h with soff := 0 }, (BitVec.ofNat 2 so).toNat != 0⟩) := by
  obtain ⟨n, -, -, heq⟩ := h.marked_eq hne slot rest
  rw [heq, State.inbox_setElem, State.inbox_setElem, h.inbox hd]

theorem Copied.marked_pass {u : State} {hs : List Token} {tiles : Nat → Tile} (h : Copied x e y so el v m s u hs tiles) (hne : ¬(y = x ∧ el = e))
    (slot : Nat) (rest : List (Nat × Nat × Token × Option Token)) (hd : memberDirect s x so = false) (hel : el < 32) :
    Table.getD ((mmgMarked x e y so el slot rest u).stripe x).pass (64 + el) [] = Table.getD (s.stripe x).pass (64 + el) [] ++
      hs.map (fun h => ⟨fabricUnit x e, h, false⟩) := by
  obtain ⟨n, -, -, heq⟩ := h.marked_eq hne slot rest
  rw [heq, State.pass_setElem, State.pass_setElem, h.pass hd hel]

end

theorem mmgCopiesOperands : Says.MmgCopiesOperands := by
  intro s x e y v m so el a b hv hfault o hlive hfind hy hm hne hallot hso slot key handle handles
  have hexec := mmgCopy_eq hv hfault hlive hfind hy hm hallot
  have hcopied := copied_operands hv hm hso hne a b
  refine ⟨fun howed => ⟨_, hexec.trans (if_pos (by simpa using howed)), ⟨_, hcopied.marked_origin hne .., rfl, rfl⟩, ?_,
    hcopied.marked_inbox hne _ _, hcopied.marked_pass hne _ _⟩, ?_⟩
  · cases b <;> exact hcopied.marked_participant hne ..
  · intro w nd howed hslot hnd s1 s2 s3 hleft
    have hmarked : s3 = mmgMarked x e y so el slot [] (copyOperands x e y so el a b s) := by cases b <;> rfl
    rw [hmarked] at hleft
    have himage : (mmgMarked x e y so el slot [] (copyOperands x e y so el a b s)).elemImage x e = s.elemImage x e :=
      elemImage_congr (hcopied.marked_image hne ..)
    rw [howed, if_neg (by decide)] at hexec
    dsimp only at hexec
    rw [hleft] at hexec
    obtain ⟨u, hu, howe, htiles, hnodes⟩ := mmgFinish_elem (a := a) (b := b) (w := w) (nd := nd) (hcopied.marked_origin hne slot [])
      (by rw [State.slotAt, himage]; exact hslot) hnd
    rw [elemKeys, himage] at hnodes
    exact ⟨_, hexec, u, hu, howe, htiles, hnodes⟩

end Sys2Proof.Machine
end

section
/-!
SUPPORT. The end of an element's stream (R208, R217, R225).
-/

namespace Sys2Proof.Machine

open Sys2Proof

/-! ## The destinations of an element -/

/-- A list of destinations with those of another behind it that name an input not yet named. -/
def addDests (seen ds : List (BitVec 16)) : List (BitVec 16) :=
  ds.foldl (fun l d => if l.any (fun x => destKey x == destKey d) then l else l ++ [d]) seen

theorem elemDests_eq (im : ElemImage) (e : Nat) : elemDests im e =
    addDests [] (im.slots.flatMap (fun sl => memberDests im e sl.1) ++ im.slots.flatMap (fun sl => (slotDests im sl.1).filter dstValid)) := rfl

theorem addDests_cons (seen ds : List (BitVec 16)) (d : BitVec 16) :
    addDests seen (d :: ds) = addDests (if destKey d ∈ seen.map destKey then seen else seen ++ [d]) ds := by
  have hany : (seen.any fun x => destKey x == destKey d) = true ↔ destKey d ∈ seen.map destKey := by simp
  simp only [addDests, List.foldl_cons, hany]

/-- Each input is named once. -/
theorem addDests_nodup {seen : List (BitVec 16)} (h : (seen.map destKey).Nodup) (ds : List (BitVec 16)) : ((addDests seen ds).map destKey).Nodup := by
  induction ds generalizing seen with
  | nil => exact h
  | cons d ds ih =>
    rw [addDests_cons]
    refine ih ?_
    split
    · exact h
    · rw [List.map_append, List.nodup_append]
      exact ⟨h, by simp, by simp_all⟩

/-- Every input is named. -/
theorem addDests_covers {seen ds : List (BitVec 16)} {d : BitVec 16} (h : destKey d ∈ seen.map destKey ∨ d ∈ ds) :
    destKey d ∈ (addDests seen ds).map destKey := by
  induction ds generalizing seen with
  | nil => simpa [addDests] using h
  | cons c ds ih =>
    rw [addDests_cons]
    refine ih ?_
    rcases h with h | h
    · refine .inl ?_
      split
      · exact h
      · rw [List.map_append]; exact List.mem_append_left _ h
    · rcases List.mem_cons.mp h with rfl | h
      · refine .inl ?_
        split
        · assumption
        · simp
      · exact .inr h

theorem elemDests_nodup (im : ElemImage) (e : Nat) : ((elemDests im e).map destKey).Nodup := addDests_nodup (by simp) _

theorem elemDests_covers {im : ElemImage} (e : Nat) {z : Nat × BitVec 128} {d : BitVec 16} (hz : z ∈ im.slots) (hd : d ∈ slotDests im z.1)
    (hvalid : dstValid d = true) : destKey d ∈ (elemDests im e).map destKey :=
  addDests_covers (.inr (List.mem_append_right _ (List.mem_flatMap.mpr ⟨z, hz, List.mem_filter.mpr ⟨hd, hvalid⟩⟩)))

/-! ## Which end is due -/

section
variable {s : State} {x e rid k : Nat} {r : Run} {el : Elem} {im : ElemImage}

theorem elementEos_eq (hrun : s.runOf x = some (rid, r)) (hel : s.elem? x e = some el) (him : s.elemImage x e = some im)
    (hvs : (s.stripe x).vs = some k) : exec (.elementEos x e) s =
      if el.eosSent || el.faulted.isSome || !stripeLive s x || fabricStalled s (.elem x e) then .next s else
      match endingOrigin r im el e k (startsEnded r (s.stripe x)) with
      | some m => .next (endMembers x e m.2 s)
      | none =>
        if eosBySlot r.image k e then .next (endNext x e k r im el (startsEnded r (s.stripe x)) s) else
        if portsEnded r.image (elemInputs r.image k e) el.ended (startsEnded r (s.stripe x)) && slotsIdle el (im.slots.map (·.1)) then
          .next (endSlots x e el (im.slots.map (·.1)) (elemDests im e) true s)
        else .next s := by
  show execElementEos x e s = _
  simp only [execElementEos, hrun, hel, him, hvs] <;> rfl

/-- The end of an idle element with no operand waiting sends end-of-stream to what has not had it. -/
theorem endSlots_sends (hel : s.elem? x e = some el) (hout : el.out = []) {slots : List Nat}
    (hwait : el.frame.find? (fun f => slots.contains f.slot) = none) (dests : List (BitVec 16)) (done : Bool) :
    endSlots x e el slots dests done s =
      let ds := dests.filter (fun d => !el.eosTo.contains (destKey d))
      flushOut x e (s.setElem x e { el with eosSent := done, eosTo := el.eosTo ++ ds.map destKey, out := ds.map eosToken.toward }) := by
  simp only [endSlots, hwait, elemSend, State.mapElem_of_some hel, State.mapElem_of_some (State.elem_setElem_self ..), State.setElem_setElem, hout,
    List.nil_append]

/-- Every destination of a participant that an ending origin has is ended already or ends now. -/
theorem endingOrigin_covers {m : Nat × List (BitVec 16)} {started : Bool} (hm : endingOrigin r im el e k started = some m) {d : BitVec 16}
    (hd : d ∈ memberDests im e m.1) : destKey d ∈ el.eosTo ∨ d ∈ m.2 := by
  obtain ⟨sl, -, rfl⟩ := List.mem_map.mp (List.mem_filter.mp (List.mem_of_find?_eq_some hm)).1
  by_cases h : destKey d ∈ el.eosTo
  · exact .inl h
  · exact .inr (List.mem_filter.mpr ⟨hd, by simpa using h⟩)

theorem mem_memberDests {p : MmgParams} {slot : Nat} (hp : (slotInstr im slot).bind mmgParams = some p) (hmember : p.member = false) {q : Nat × Nat}
    (hq : q ∈ mmgOthers e p) {port : Nat} (hport : port < 2) :
    BitVec.ofNat 16 (2 ^ 15 + q.1 * 2 ^ 13 + q.2 * 2 ^ 8 + slot * 16 + 8 * port) ∈ memberDests im e slot := by
  simp only [memberDests, hp, hmember, Bool.false_eq_true, if_false]
  refine List.mem_flatMap.mpr ⟨q, hq, List.mem_map.mpr ⟨8 * port, ?_, rfl⟩⟩
  interval_cases port <;> simp

end

/-! ## Deliveries of end-of-stream to participants (R225) -/

/-- A change of one entry leaves the first entry that meets a predicate where it was, if the entry meets it after as before and, where it does, was
the first. -/
theorem Table.find?_set_key {α : Type} (q : α → Bool) {k : Nat} {v d : α} {t : Table α} (hq : q v = q (Table.getD t k d))
    (hk : q v = true → (t.find? (fun p => q p.2)).map (·.1) = some k) :
    ((Table.set k v t).find? (fun p => q p.2)).map (·.1) = (t.find? (fun p => q p.2)).map (·.1) := by
  induction t with
  | nil =>
    cases hv : q v with
    | true => simpa using hk hv
    | false => simp [Table.set, hv]
  | cons p t ih =>
    obtain ⟨j, w⟩ := p
    by_cases hj : j = k
    · subst hj
      have hw : q v = q w := by simpa [Table.getD, Table.find] using hq
      cases hv : q w <;> simp [Table.set, hw, hv]
    · have hget : Table.getD ((j, w) :: t) k d = Table.getD t k d := by simp [Table.getD, Table.find, hj]
      rw [hget] at hq
      by_cases hlt : k < j
      · cases hv : q v with
        | true => simp only [Table.set, if_neg hj, if_pos hlt, List.find?_cons, hv]; simpa [List.find?_cons] using (hk hv).symm
        | false => simp [Table.set, if_neg hj, if_pos hlt, List.find?_cons, hv]
      · cases hw : q w with
        | true => simp [Table.set, if_neg hj, if_neg hlt, hw]
        | false =>
          simp only [Table.set, if_neg hj, if_neg hlt, List.find?_cons, hw]
          exact ih hq (fun hv => by simpa [List.find?_cons, hw] using hk hv)

/-- The stripe that executes a virtual stripe stays the same when a stripe changes that keeps its run and virtual stripe. -/
theorem stripeOfVs_mapStripe {s : State} {rid k y : Nat} {f : Stripe → Stripe} (hrun : (f (s.stripe y)).run = (s.stripe y).run)
    (hvs : (f (s.stripe y)).vs = (s.stripe y).vs)
    (h : (s.stripe y).run = some rid → (s.stripe y).vs = some k → stripeOfVs s rid k = some y) :
    stripeOfVs (s.mapStripe y f) rid k = stripeOfVs s rid k := by
  refine Table.find?_set_key (fun v : Stripe => v.run == some rid && v.vs == some k) (d := Stripe.blank) ?_ fun hv => ?_
  · simp only [hrun, hvs]; rfl
  · simp only [hrun, hvs, Bool.and_eq_true, beq_iff_eq] at hv
    exact h hv.1 hv.2

theorem memberStripe_congr {s t : State} {x so : Nat} (hrun : t.runOf x = s.runOf x) (hvs : (t.stripe x).vs = (s.stripe x).vs)
    (h : ∀ rid r k, so ≠ 0 → s.runOf x = some (rid, r) → (s.stripe x).vs = some k → stripeOfVs t rid (k + so) = stripeOfVs s rid (k + so)) :
    memberStripe t x so = memberStripe s x so := by
  simp only [memberStripe, hrun, hvs]
  split
  · rfl
  next hso =>
    split
    next rid r k hr hk => exact h rid r k hso hr hk
    · rfl

/-- A change of an origin's own element leaves its participants where they are. -/
theorem memberStripe_setElem (s : State) (x e : Nat) (v : Elem) (so : Nat) : memberStripe (s.setElem x e v) x so = memberStripe s x so := by
  refine memberStripe_congr (State.runOf_setElem ..) (State.stripe_setElem_field s (·.vs) (fun _ _ => rfl) ..) fun rid r k hso _ hk =>
    stripeOfVs_mapStripe rfl rfl fun _ hk' => ?_
  rw [hk] at hk'
  exact absurd (Option.some.inj hk') (by omega)

/-- A delivery to a participant leaves the stripe of what is to reach it too. -/
theorem memberStripe_deliver {s : State} {x e y so : Nat} {tok : Token} (hd : memberDirect s x tok.soff.toNat = true)
    (h : memberStripe s x so = some y) : memberStripe (deliverMember x e y tok s) x so = some y := by
  rw [← h]
  refine memberStripe_congr (deliverMember_runOf ..) (deliverMember_field s (·.vs) (fun _ _ => rfl) (fun _ _ => rfl) ..) fun rid r k hso hr hk => ?_
  simp only [deliverMember, hd, if_true]
  refine stripeOfVs_mapStripe rfl rfl fun _ _ => ?_
  simpa only [memberStripe, if_neg hso, hr, hk] using h

/-- What an origin delivers at the end of a slot, destination by destination. -/
def deliverEnds (x e : Nat) (ds : List (BitVec 16)) (s : State) : State :=
  ds.foldl (fun u d =>
    match memberStripe u x (dstSoff d) with
    | some y => deliverMember x e y (eosToken.toward d) u
    | none => u) s

theorem deliverEnds_elem (x e : Nat) (ds : List (BitVec 16)) (s : State) (z i : Nat) : (deliverEnds x e ds s).elem? z i = s.elem? z i := by
  induction ds generalizing s with
  | nil => rfl
  | cons d ds ih =>
    rw [deliverEnds, List.foldl_cons, ← deliverEnds, ih]
    split
    · exact deliverMember_elem ..
    · rfl

theorem toward_soff (t : Token) (d : BitVec 16) : (t.toward d).soff.toNat = dstSoff d := by
  simp only [Token.toward, BitVec.toNat_ofNat, dstSoff, bits]
  omega

/-- The ends that reach one participant at once, in order. -/
theorem deliverEnds_inbox {x e y : Nat} {ds : List (BitVec 16)} {s : State}
    (h : ∀ d ∈ ds, memberStripe s x (dstSoff d) = some y ∧ memberDirect s x (dstSoff d) = true) :
    ((deliverEnds x e ds s).stripe y).inbox = (s.stripe y).inbox ++
      ds.map (fun d => ⟨fabricUnit x e, { eosToken.toward d with soff := 0 }, (eosToken.toward d).soff.toNat != 0⟩) := by
  induction ds generalizing s with
  | nil => exact (List.append_nil _).symm
  | cons d ds ih =>
    obtain ⟨⟨hy, hd⟩, hrest⟩ := List.forall_mem_cons.mp h
    rw [← toward_soff eosToken] at hd
    rw [deliverEnds, List.foldl_cons, ← deliverEnds, hy]
    rw [ih, deliverMember_inbox hd, List.append_assoc]
    · rfl
    · intro c hc
      obtain ⟨hyc, hdc⟩ := hrest c hc
      exact ⟨memberStripe_deliver hd hyc, (memberDirect_congr (deliverMember_runOf ..) _).trans hdc⟩

theorem endMembers_eq {s : State} {x e : Nat} {el : Elem} (hel : s.elem? x e = some el) (ds : List (BitVec 16)) :
    endMembers x e ds s = deliverEnds x e ds (s.setElem x e { el with eosTo := el.eosTo ++ ds.map destKey }) := by
  simp only [endMembers, State.mapElem_of_some hel]
  rfl

theorem elementsEndTheirStream : Says.ElementsEndTheirStream := by
  intro s x e rid k r el im hrun hel him hvs eos had
  have hexec := elementEos_eq hrun hel him hvs
  have acts : el.eosSent = false → el.faulted = none → stripeLive s x = true → fabricStalled s (.elem x e) = false →
      ¬(el.eosSent || el.faulted.isSome || !stripeLive s x || fabricStalled s (.elem x e)) = true := by
    intro hsent hfault hlive hstall
    simp [hsent, hfault, hlive, hstall]
  refine ⟨fun hsent => hexec.trans (if_pos (by simp [hsent])), fun hsent hfault hlive hstall hslot hended horigin hidle => ?_,
    fun m p hsent hfault hlive hstall horigin hp hmember => ⟨?_, ?_⟩⟩
  · rw [if_neg (acts hsent hfault hlive hstall), horigin] at hexec
    simp only [hslot, hended, hidle, Bool.false_eq_true, if_false, Bool.and_self, if_true] at hexec
    refine ⟨fun f hf => ⟨_, hexec, ?_⟩, fun hf => ⟨(elemDests im e).filter (fun d => !el.eosTo.contains (destKey d)), ?_, fun d hd => ?_,
      fun z hz d hd hvalid => ?_, _, hexec, ?_⟩⟩
    · simp only [endSlots, hf]
    · exact (elemDests_nodup im e).sublist (List.filter_sublist.map destKey)
    · simpa using (List.mem_filter.mp hd).2
    · by_cases h : had d
      · exact .inl h
      · obtain ⟨c, hc, hkey⟩ := List.mem_map.mp (elemDests_covers e hz hd hvalid)
        refine .inr (List.mem_map.mpr ⟨c, List.mem_filter.mpr ⟨hc, ?_⟩, hkey⟩)
        rw [hkey]
        simpa using h
    · have hout : el.out = [] := by
        simp only [slotsIdle, Bool.and_eq_true, List.isEmpty_iff] at hidle
        exact hidle.1.1
      exact endSlots_sends hel hout hf ..
  · intro q hq port hport d
    exact endingOrigin_covers horigin (mem_memberDests hp hmember hq hport)
  · rw [if_neg (acts hsent hfault hlive hstall), horigin] at hexec
    have hends := endMembers_eq hel m.2
    refine ⟨_, hexec, ?_, fun y hy => ?_⟩
    · rw [hends, deliverEnds_elem, State.elem_setElem_self]
    · rw [hends, deliverEnds_inbox, State.inbox_setElem]
      · rfl
      · intro d hd
        obtain ⟨hyd, hdd⟩ := hy d hd
        exact ⟨(memberStripe_setElem ..).trans hyd, (memberDirect_congr (State.runOf_setElem ..) _).trans hdd⟩

end Sys2Proof.Machine
end

section
/-!
SUPPORT. The end of an operator's stream (R101, R107, R305).
-/

namespace Sys2Proof.Machine

open Sys2Proof

/-- The operator that executes is the one of its stripe's configuration. -/
theorem operOn_image {x o kind : Nat} {s : State} {im : OpImage} {v : Oper} (h : operOn x o kind s = some (im, v)) : s.opImage x o = some im := by
  simp only [operOn] at h
  split at h
  next im' v' him hv =>
    split at h
    · cases h; exact him
    · cases h
  · cases h

theorem operatorEosForward_eq {x o rid : Nat} {s : State} {r : Run} {im : OpImage} {v : Oper} (hr : s.runOf x = some (rid, r))
    (h : operOn x o im.kind s = some (im, v)) : exec (.operatorEosForward x o) s =
      if !eosReady s x o r im v then .next s else
      let s0 := operSend x o (eosSends s x im).1 (s.setOper x o { v with eosSent := true })
      if !roomForAll x (eosSends s x im).1 s || !roomForAll (eosSends s x im).2.1 (eosSends s x im).2.2 s0 then .next s else
      let s1 := (eosSends s x im).2.2.foldl (fun u t => emit (eosSends s x im).2.1 (fabricUnit x (16 + o)) t u) s0
      .next (if im.kind == 9 then (loopBody r.image ((s.stripe x).vs.getD 0) o).foldl (fun u p => markBody rid p u) s1 else s1) := by
  show execOperatorEosForward x o s = _
  simp only [execOperatorEosForward, operOn_image h, hr, h]

theorem operatorsEndTheirStream : Says.OperatorsEndTheirStream := by
  intro s x o rid r im v hr h
  have hexec := operatorEosForward_eq hr h
  refine ⟨fun hsent => hexec.trans (if_pos (by simp [eosReady, hsent])), ?_⟩
  intro hsent hended hidle hmarked ts y us s0 hroom hroom' s1
  have hready : eosReady s x o r im v = true := by simp [eosReady, hsent, hended, hidle, hmarked]
  have hrooms : (!roomForAll x ts s || !roomForAll y us s0) = false := by rw [hroom, hroom']; rfl
  refine ⟨_, (hexec.trans (if_neg (by rw [hready]; decide))).trans (if_neg (ne_true_of_eq_false hrooms)), ?_⟩
  simp only [beq_iff_eq]
  rfl

end Sys2Proof.Machine

open Sys2Proof Sys2Proof.Machine

/-- Settles O37: each kind of arrival puts the token where it belongs, the copies of an MMG origin reach their participant one after the other, and each end
is sent once to every input still without it. -/
theorem tokensArriveAndEnd : Obligations.TokensArriveAndEnd := ⟨tokensArrive, mmgCopiesOperands, elementsEndTheirStream, operatorsEndTheirStream⟩
end

section
/-!
SUPPORT. The completion of an invalidation stores what a copy that cannot go on holds back for its range (R271, R287).
-/

namespace Sys2Proof.Machine

open Sys2Proof

/-- A copy of partition 0 that a halt has stopped (R327) with one byte done, which it holds back for the rest of its unit at address 0 (R287). -/
def stoppedCopy : CopyJob := { (default : CopyJob) with len := 8, rows := 1, done := 1, frozen := true, tail := some (0, [1]) }

/-- The invalidation of every page of partition 0 is pending while that copy holds its byte back (R371). -/
def invalidationPending : State :=
  { State.reset with parts := [(0, { Partition.blank with invals := [⟨1, 0, 0⟩] })], copies := [stoppedCopy] }

/-- No access is under way any more, so the invalidation completes, and the held byte is stored. -/
theorem invalidationComplete_stores : ∃ t, exec (.invalidationComplete 0) invalidationPending = .next t ∧ t.mem.read 0 = 1 := by
  refine ⟨_, rfl, ?_⟩
  decide +kernel

theorem invalidationPending_reads : invalidationPending.mem.read 0 = 0 := by decide +kernel

end Sys2Proof.Machine

open Sys2Proof Sys2Proof.Machine

/-- Refutes O60: INVALIDATION_COMPLETE, listed among the events that store nothing, writes to memory the byte that a halted copy holds back for
the invalidated range (R271). -/
theorem not_instructionsKeepTheRest : ¬ Obligations.InstructionsKeepTheRest := by
  rintro ⟨-, events, -⟩
  obtain ⟨t, hexec, hread⟩ := invalidationComplete_stores
  obtain ⟨hmem, -, -⟩ := events invalidationPending t (.invalidationComplete 0) 0 0 0 0 0 0 0 [] [] [] [] (by simp) hexec
  rw [hmem, invalidationPending_reads] at hread
  exact absurd hread (by decide)
end

section
/-!
SUPPORT. The numbers that floating values are, and where a number lies among the values of a format (R230, R238).
-/

namespace Sys2Proof.Machine

open Sys2Proof

/-! ## Powers of two -/

theorem two_zpow_pos (e : Int) : (0 : ℚ) < 2 ^ e := zpow_pos (by norm_num) e

theorem two_zpow_add (a b : Int) : (2 : ℚ) ^ (a + b) = 2 ^ a * 2 ^ b := zpow_add₀ (by norm_num) a b

theorem two_zpow_sub_mul (a b : Int) : (2 : ℚ) ^ (a - b) * 2 ^ b = 2 ^ a := by rw [← two_zpow_add, sub_add_cancel]

theorem two_zpow_lt {a b : Int} : (2 : ℚ) ^ a < 2 ^ b ↔ a < b := zpow_lt_zpow_iff_right₀ (by norm_num)

theorem two_zpow_le {a b : Int} : (2 : ℚ) ^ a ≤ 2 ^ b ↔ a ≤ b := zpow_le_zpow_iff_right₀ (by norm_num)

/-- A power of two with a natural exponent. -/
theorem two_zpow_toNat {e : Int} (h : 0 ≤ e) : ((2 ^ e.toNat : Nat) : ℚ) = 2 ^ e := by
  obtain ⟨n, rfl⟩ := Int.eq_ofNat_of_zero_le h
  simp

theorem two_zpow_succ (e : Int) : (2 : ℚ) ^ (e + 1) = 2 * 2 ^ e := by rw [two_zpow_add, zpow_one, mul_comm]

/-! ## The bits of a natural number -/

theorem bitLen_le_iff {m k : Nat} : bitLen m ≤ k ↔ m < 2 ^ k := by
  unfold bitLen
  split
  next h => subst h; simp
  next h => rw [Nat.succ_le_iff, Nat.log2_lt h]

theorem bitLen_pos {m : Nat} (h : m ≠ 0) : 0 < bitLen m := by simp [bitLen, h]

theorem bitLen_zero : bitLen 0 = 0 := rfl

/-- The number of bits of a natural number tells which powers of two are above it. -/
theorem mul_zpow_lt_iff {m : Nat} (h : m ≠ 0) (e n : Int) : (m : ℚ) * 2 ^ e < 2 ^ n ↔ e + bitLen m ≤ n := by
  rw [← two_zpow_sub_mul n e, mul_lt_mul_iff_left₀ (two_zpow_pos e)]
  rcases le_or_gt 0 (n - e) with hd | hd
  · rw [← two_zpow_toNat hd, Nat.cast_lt, ← bitLen_le_iff]
    omega
  · have hsmall : (2 : ℚ) ^ (n - e) < m := by
      calc (2 : ℚ) ^ (n - e) < 2 ^ (0 : Int) := two_zpow_lt.mpr hd
        _ = 1 := zpow_zero 2
        _ ≤ m := by exact_mod_cast Nat.one_le_iff_ne_zero.mpr h
    have := bitLen_pos h
    constructor
    · intro hlt; exact absurd hlt (not_lt.mpr hsmall.le)
    · intro hle; omega

theorem le_mul_zpow_iff {m : Nat} (h : m ≠ 0) (e n : Int) : (2 : ℚ) ^ n ≤ (m : ℚ) * 2 ^ e ↔ n < e + bitLen m := by
  rw [← not_lt, mul_zpow_lt_iff h, not_le]

/-! ## The numbers of finite values -/

/-- A sign as a factor. -/
def signOf (n : Bool) : ℚ := if n then -1 else 1

@[simp] theorem signOf_true : signOf true = -1 := rfl
@[simp] theorem signOf_false : signOf false = 1 := rfl
theorem signOf_not (n : Bool) : signOf (!n) = -signOf n := by cases n <;> simp
theorem signOf_ne (a b : Bool) : signOf (a != b) = signOf a * signOf b := by cases a <;> cases b <;> simp
@[simp] theorem abs_signOf_mul (n : Bool) (x : ℚ) : |signOf n * x| = |x| := by cases n <;> simp
theorem signOf_mul_self (n : Bool) : signOf n * signOf n = 1 := by cases n <;> simp
theorem signOf_ne_zero (n : Bool) : signOf n ≠ 0 := by cases n <;> simp

theorem number_fin (n : Bool) (m : Nat) (e : Int) : FVal.number (.fin n m e) = signOf n * (m * 2 ^ e) := rfl

/-- A mantissa at a smaller exponent is the same number. -/
theorem scaled_mul (n : Bool) (m : Nat) {e q : Int} (h : q ≤ e) : (scaled n m e q : ℚ) * 2 ^ q = FVal.number (.fin n m e) := by
  have hpow : ((2 ^ (e - q).toNat : Nat) : ℚ) * 2 ^ q = 2 ^ e := by rw [two_zpow_toNat (by omega), two_zpow_sub_mul]
  rw [number_fin, ← hpow]
  cases n <;> simp [scaled] <;> ring

theorem min_exponent_le (e1 e2 : Int) : (if e1 ≤ e2 then e1 else e2) ≤ e1 ∧ (if e1 ≤ e2 then e1 else e2) ≤ e2 := by split <;> omega

/-- The exact sum is a finite value. -/
theorem finAdd_fin (rd n1 : Bool) (m1 : Nat) (e1 : Int) (n2 : Bool) (m2 : Nat) (e2 : Int) :
    ∃ n m e, finAdd rd n1 m1 e1 n2 m2 e2 = .fin n m e := by
  unfold finAdd
  dsimp only
  generalize (if e1 ≤ e2 then e1 else e2) = q
  split
  · exact ⟨_, _, _, rfl⟩
  · split <;> exact ⟨_, _, _, rfl⟩

theorem number_finAdd (rd n1 : Bool) (m1 : Nat) (e1 : Int) (n2 : Bool) (m2 : Nat) (e2 : Int) :
    FVal.number (finAdd rd n1 m1 e1 n2 m2 e2) = FVal.number (.fin n1 m1 e1) + FVal.number (.fin n2 m2 e2) := by
  obtain ⟨h1, h2⟩ := min_exponent_le e1 e2
  rw [← scaled_mul n1 m1 h1, ← scaled_mul n2 m2 h2, ← add_mul]
  unfold finAdd
  dsimp only
  generalize hq : (if e1 ≤ e2 then e1 else e2) = q
  split
  next h => simp [number_fin, h.1, h.2, scaled]
  next h =>
    generalize hv : scaled n1 m1 e1 q + scaled n2 m2 e2 q = v
    have hcast : (scaled n1 m1 e1 q : ℚ) + scaled n2 m2 e2 q = v := by exact_mod_cast congrArg (Int.cast : Int → ℚ) hv
    rw [hcast]
    split
    next h0 => simp [number_fin, h0]
    next h0 =>
      rw [number_fin, ← mul_assoc]
      congr 1
      rcases lt_or_gt_of_ne h0 with hneg | hpos
      · have habs : ((v.natAbs : Int) : ℚ) = ((-v : Int) : ℚ) := by rw [Int.natCast_natAbs, abs_of_neg hneg]
        simp only [hneg, decide_true, signOf_true]
        rw [← Int.cast_natCast, habs]
        push_cast
        ring
      · have habs : ((v.natAbs : Int) : ℚ) = (v : ℚ) := by rw [Int.natCast_natAbs, abs_of_pos hpos]
        simp only [not_lt.mpr hpos.le, decide_false, signOf_false]
        rw [← Int.cast_natCast, habs]
        ring

/-- The sign of an exact sum that is zero (R60). -/
theorem finAdd_zero {rd n1 : Bool} {m1 : Nat} {e1 : Int} {n2 : Bool} {m2 : Nat} {e2 : Int}
    (h : FVal.number (.fin n1 m1 e1) + FVal.number (.fin n2 m2 e2) = 0) :
    finAdd rd n1 m1 e1 n2 m2 e2 = .fin (if m1 = 0 ∧ m2 = 0 ∧ n1 = n2 then n1 else rd) 0 0 := by
  obtain ⟨h1, h2⟩ := min_exponent_le e1 e2
  rw [← scaled_mul n1 m1 h1, ← scaled_mul n2 m2 h2, ← add_mul] at h
  have hv : scaled n1 m1 e1 (if e1 ≤ e2 then e1 else e2) + scaled n2 m2 e2 (if e1 ≤ e2 then e1 else e2) = 0 := by
    have := (mul_eq_zero.mp h).resolve_right (two_zpow_pos _).ne'
    exact_mod_cast this
  unfold finAdd
  dsimp only
  rw [if_pos hv]
  by_cases hz : m1 = 0 ∧ m2 = 0
  · rw [if_pos hz]
    by_cases hn : n1 = n2 <;> simp [hz.1, hz.2, hn]
  · rw [if_neg hz, if_neg fun hc => hz ⟨hc.1, hc.2.1⟩]

theorem number_eq_zero_iff (n : Bool) (m : Nat) (e : Int) : FVal.number (.fin n m e) = 0 ↔ m = 0 := by
  rw [number_fin]
  constructor
  · intro h
    rcases mul_eq_zero.mp h with h | h
    · exact absurd h (signOf_ne_zero n)
    · exact_mod_cast (mul_eq_zero.mp h).resolve_right (two_zpow_pos e).ne'
  · rintro rfl; simp

theorem number_mul (n1 : Bool) (m1 : Nat) (e1 : Int) (n2 : Bool) (m2 : Nat) (e2 : Int) :
    FVal.number (FVal.mul (.fin n1 m1 e1) (.fin n2 m2 e2)) = FVal.number (.fin n1 m1 e1) * FVal.number (.fin n2 m2 e2) := by
  simp only [FVal.mul, number_fin, signOf_ne, two_zpow_add]
  push_cast
  ring

theorem number_neg (v : FVal) : FVal.number v.neg = -FVal.number v := by
  cases v with
  | fin n m e => simp only [FVal.neg, number_fin, signOf_not]; ring
  | nan _ => simp [FVal.neg, FVal.number]
  | inf _ => simp [FVal.neg, FVal.number]

/-- Finite values compare as their numbers. -/
theorem lt_fin_iff (n1 : Bool) (m1 : Nat) (e1 : Int) (n2 : Bool) (m2 : Nat) (e2 : Int) :
    FVal.lt (.fin n1 m1 e1) (.fin n2 m2 e2) = true ↔ FVal.number (.fin n1 m1 e1) < FVal.number (.fin n2 m2 e2) := by
  obtain ⟨h1, h2⟩ := min_exponent_le e1 e2
  rw [← scaled_mul n1 m1 h1, ← scaled_mul n2 m2 h2, mul_lt_mul_iff_left₀ (two_zpow_pos _), Int.cast_lt]
  simp only [FVal.lt, decide_eq_true_eq]

theorem number_neg_iff {n : Bool} {m : Nat} {e : Int} (hm : m ≠ 0) : FVal.number (.fin n m e) < 0 ↔ n = true := by
  have hpos : (0 : ℚ) < m * 2 ^ e := mul_pos (by exact_mod_cast Nat.pos_of_ne_zero hm) (two_zpow_pos e)
  rw [number_fin]
  cases n
  · simp [hpos.le]
  · simp [hpos]

theorem abs_number_fin (n : Bool) (m : Nat) (e : Int) : |FVal.number (.fin n m e)| = m * 2 ^ e := by
  rw [number_fin, abs_signOf_mul, abs_of_nonneg (mul_nonneg (Nat.cast_nonneg m) (two_zpow_pos e).le)]

end Sys2Proof.Machine
end

section
/-!
SUPPORT. Rounding to a number of bits: the cell between two neighbours in which a number lies, and what each mode gives there (R238 to R240).
-/

namespace Sys2Proof.Machine

open Sys2Proof

/-! ## Cells -/

/-- The number t lies at or above z · 2^q and below (z + 1) · 2^q, neighbours of `prec` bits with a last bit worth at least 2^qmin (R238). -/
structure Cell (prec : Nat) (qmin : Int) (t : ℚ) (z : Nat) (q : Int) : Prop where
  lower : (z : ℚ) * 2 ^ q ≤ t
  upper : t < ((z + 1 : Nat) : ℚ) * 2 ^ q
  small : z < 2 ^ prec
  least : qmin ≤ q
  full : q = qmin ∨ 2 ^ prec ≤ 2 * z

theorem Cell.of_floor {prec : Nat} {qmin q : Int} {t : ℚ} {z : Nat} (hprec : 0 < prec) (hlow : (z : ℚ) * 2 ^ q ≤ t) (hup : t < ((z + 1 : Nat) : ℚ) * 2 ^ q)
    (hsmall : t < 2 ^ (q + prec)) (hq : qmin ≤ q) (hfull : q = qmin ∨ (2 : ℚ) ^ (q + prec) ≤ 2 * t) : Cell prec qmin t z q where
  lower := hlow
  upper := hup
  small := by
    have h : (z : ℚ) * 2 ^ q < 2 ^ prec * 2 ^ q := by
      calc (z : ℚ) * 2 ^ q ≤ t := hlow
        _ < 2 ^ (q + prec) := hsmall
        _ = 2 ^ prec * 2 ^ q := by rw [two_zpow_add, mul_comm, zpow_natCast]
    exact_mod_cast (mul_lt_mul_iff_left₀ (two_zpow_pos q)).mp h
  least := hq
  full := by
    refine hfull.imp_right fun h => ?_
    have h2 : (2 ^ prec : ℚ) * 2 ^ q < ((2 * z + 2 : Nat) : ℚ) * 2 ^ q := by
      calc (2 ^ prec : ℚ) * 2 ^ q = 2 ^ (q + prec) := by rw [two_zpow_add, mul_comm (2 ^ q : ℚ), zpow_natCast]
        _ ≤ 2 * t := h
        _ < 2 * (((z + 1 : Nat) : ℚ) * 2 ^ q) := by linarith
        _ = ((2 * z + 2 : Nat) : ℚ) * 2 ^ q := by push_cast; ring
    have h3 : 2 ^ prec < 2 * z + 2 := by exact_mod_cast (mul_lt_mul_iff_left₀ (two_zpow_pos q)).mp h2
    obtain ⟨p, rfl⟩ := Nat.exists_eq_succ_of_ne_zero hprec.ne'
    rw [Nat.pow_succ] at h3 ⊢
    omega

theorem fits_zpow {prec : Nat} {qmin q : Int} {z : Nat} (hq : qmin ≤ q) (hz : z ≤ 2 ^ prec) (hprec : 0 < prec) (n : Bool) :
    Fits prec qmin (signOf n * (z * 2 ^ q)) := by
  have habs : |signOf n * ((z : ℚ) * 2 ^ q)| = z * 2 ^ q := by
    rw [abs_signOf_mul, abs_of_nonneg (mul_nonneg (Nat.cast_nonneg z) (two_zpow_pos q).le)]
  rcases Nat.lt_or_eq_of_le hz with hlt | rfl
  · exact ⟨z, q, hlt, hq, habs⟩
  · refine ⟨2 ^ (prec - 1), q + 1, Nat.pow_lt_pow_right (by omega) (by omega), by omega, ?_⟩
    obtain ⟨p, rfl⟩ := Nat.exists_eq_succ_of_ne_zero hprec.ne'
    rw [habs, two_zpow_succ, Nat.succ_sub_one, Nat.pow_succ]
    push_cast
    ring

/-- Between neighbours lies no number of as many bits. -/
theorem Cell.gap {prec : Nat} {qmin q : Int} {t y : ℚ} {z : Nat} (h : Cell prec qmin t z q) (hy : Fits prec qmin y)
    (hlow : (z : ℚ) * 2 ^ q < |y|) : ((z + 1 : Nat) : ℚ) * 2 ^ q ≤ |y| := by
  obtain ⟨k, p, hk, hp, habs⟩ := hy
  rw [habs] at hlow ⊢
  have hqp : q ≤ p := by
    rcases h.full with hq | hfull
    · omega
    · by_contra hlt
      have h1 : (k : ℚ) * 2 ^ p < z * 2 ^ q := by
        calc (k : ℚ) * 2 ^ p < (2 ^ prec : Nat) * 2 ^ p := by
              rw [mul_lt_mul_iff_left₀ (two_zpow_pos p)]; exact_mod_cast hk
          _ ≤ ((2 * z : Nat) : ℚ) * 2 ^ p := by
              rw [mul_le_mul_iff_left₀ (two_zpow_pos p)]; exact_mod_cast hfull
          _ = z * 2 ^ (p + 1) := by rw [two_zpow_succ]; push_cast; ring
          _ ≤ z * 2 ^ q := mul_le_mul_of_nonneg_left (two_zpow_le.mpr (by omega)) (Nat.cast_nonneg z)
      exact absurd hlow h1.le.not_gt
  have hpow : (k : ℚ) * 2 ^ p = ((k * 2 ^ (p - q).toNat : Nat) : ℚ) * 2 ^ q := by
    rw [Nat.cast_mul, two_zpow_toNat (by omega), mul_assoc, two_zpow_sub_mul]
  rw [hpow] at hlow ⊢
  have hlt := (mul_lt_mul_iff_left₀ (two_zpow_pos q)).mp hlow
  exact mul_le_mul_of_nonneg_right (by exact_mod_cast Nat.succ_le_of_lt (by exact_mod_cast hlt)) (two_zpow_pos q).le

/-! ## Rounding within a cell -/

/-- The part of a number above the lower neighbour, of the distance between the neighbours. -/
def fracAt (t : ℚ) (z : Nat) (q : Int) : ℚ := t / 2 ^ q - z

/-- Whether a mode rounds away from zero. -/
def roundsUp (rm : Nat) (neg : Bool) (z : Nat) (frac : ℚ) (lf : Nat) : Bool :=
  match rm with
  | 0 => decide (1 / 2 < frac) || (decide (frac = 1 / 2) && z % 2 == 1)
  | 1 => false
  | 2 => !neg
  | 3 => neg
  | _ => decide ((lfsrStep lf : Int) < ⌊frac * 2 ^ 32⌋)

/-- A rounding between two neighbours. -/
def cellQuant (rm : Nat) (neg : Bool) (z : Nat) (frac : ℚ) (lf : Nat) : Quant :=
  if frac = 0 then ⟨z, false, false, lf⟩
  else ⟨if roundsUp rm neg z frac lf then z + 1 else z, true, roundsUp rm neg z frac lf, if rm = 4 then lfsrStep lf else lf⟩

theorem quant_eq {rm : Nat} (hrm : rm ≤ 4) (neg : Bool) (m k lf : Nat) :
    quant rm neg m k lf = cellQuant rm neg (m / 2 ^ k) (((m % 2 ^ k : Nat) : ℚ) / (2 ^ k : Nat)) lf := by
  have hpos : (0 : ℚ) < (2 ^ k : Nat) := by exact_mod_cast Nat.two_pow_pos k
  have hzero : ((m % 2 ^ k : Nat) : ℚ) / (2 ^ k : Nat) = 0 ↔ m % 2 ^ k = 0 := by
    rw [div_eq_zero_iff]
    constructor
    · rintro (h | h)
      · exact_mod_cast h
      · exact absurd h hpos.ne'
    · intro h; left; exact_mod_cast h
  have hhalf : (1 / 2 < ((m % 2 ^ k : Nat) : ℚ) / (2 ^ k : Nat)) ↔ 2 ^ k < 2 * (m % 2 ^ k) := by
    rw [div_lt_div_iff₀ (by norm_num) hpos, one_mul, mul_comm]; exact_mod_cast Iff.rfl
  have htie : (((m % 2 ^ k : Nat) : ℚ) / (2 ^ k : Nat) = 1 / 2) ↔ 2 * (m % 2 ^ k) = 2 ^ k := by
    rw [div_eq_div_iff hpos.ne' (by norm_num), one_mul, mul_comm]; exact_mod_cast Iff.rfl
  have hfloor : ⌊((m % 2 ^ k : Nat) : ℚ) / (2 ^ k : Nat) * 2 ^ 32⌋ = ((m % 2 ^ k * 2 ^ 32 / 2 ^ k : Nat) : Int) := by
    rw [div_mul_eq_mul_div]
    exact_mod_cast Rat.floor_natCast_div_natCast (m % 2 ^ k * 2 ^ 32) (2 ^ k)
  unfold quant cellQuant
  dsimp only
  by_cases h0 : m % 2 ^ k = 0
  · rw [if_pos h0, if_pos (hzero.mpr h0)]
  · rw [if_neg h0, if_neg (mt hzero.mp h0)]
    interval_cases rm <;> simp only [roundsUp, hhalf, htie, hfloor, gt_iff_lt, Nat.cast_lt, if_true]

/-- The greatest multiple of 2^q that is not above m · 2^e, over 2^q. -/
def floorAt (m : Nat) (e q : Int) : Nat := if q ≤ e then m * 2 ^ (e - q).toNat else m / 2 ^ (q - e).toNat

theorem floorAt_fine {m : Nat} {e q : Int} (h : q ≤ e) : (m : ℚ) * 2 ^ e = floorAt m e q * 2 ^ q := by
  rw [floorAt, if_pos h, Nat.cast_mul, two_zpow_toNat (by omega), mul_assoc, two_zpow_sub_mul]

theorem fracAt_floorAt (m : Nat) (e q : Int) : fracAt (m * 2 ^ e) (floorAt m e q) q =
    if q ≤ e then 0 else ((m % 2 ^ (q - e).toNat : Nat) : ℚ) / (2 ^ (q - e).toNat : Nat) := by
  split
  next h => rw [fracAt, floorAt_fine h, mul_div_cancel_right₀ _ (two_zpow_pos q).ne', sub_self]
  next h =>
    have hk : ((2 ^ (q - e).toNat : Nat) : ℚ) * 2 ^ e = 2 ^ q := by rw [two_zpow_toNat (by omega), two_zpow_sub_mul]
    rw [floorAt, if_neg h, fracAt, ← hk, mul_div_mul_right _ _ (two_zpow_pos e).ne']
    generalize (q - e).toNat = k
    have hkpos : (0 : ℚ) < (2 ^ k : Nat) := by exact_mod_cast Nat.two_pow_pos k
    have hsplit : (m : ℚ) = (2 ^ k : Nat) * ((m / 2 ^ k : Nat) : ℚ) + ((m % 2 ^ k : Nat) : ℚ) := by exact_mod_cast (Nat.div_add_mod m (2 ^ k)).symm
    nth_rw 1 [hsplit]
    field_simp
    ring

/-- A number lies in the cell of a floor with as many bits as the cell has. -/
theorem Cell.at_floor {prec : Nat} {qmin q e : Int} {m : Nat} (hprec : 0 < prec) (hsmall : (m : ℚ) * 2 ^ e < 2 ^ (q + prec)) (hq : qmin ≤ q)
    (hfull : q = qmin ∨ (2 : ℚ) ^ (q + prec) ≤ 2 * (m * 2 ^ e)) : Cell prec qmin (m * 2 ^ e) (floorAt m e q) q := by
  have h2q := two_zpow_pos q
  have hsplit := fracAt_floorAt m e q
  have hval : (m : ℚ) * 2 ^ e = (floorAt m e q + fracAt (m * 2 ^ e) (floorAt m e q) q) * 2 ^ q := by
    rw [fracAt, add_sub_cancel, div_mul_cancel₀ _ h2q.ne']
  have hfrac : 0 ≤ fracAt (m * 2 ^ e) (floorAt m e q) q ∧ fracAt (m * 2 ^ e) (floorAt m e q) q < 1 := by
    rw [hsplit]
    split
    · exact ⟨le_refl _, one_pos⟩
    · have hpos : (0 : ℚ) < (2 ^ (q - e).toNat : Nat) := by exact_mod_cast Nat.two_pow_pos _
      exact ⟨by positivity, (div_lt_one hpos).mpr (by exact_mod_cast Nat.mod_lt _ (Nat.two_pow_pos _))⟩
  refine Cell.of_floor hprec ?_ ?_ hsmall hq hfull
  · rw [hval, mul_le_mul_iff_left₀ h2q]; linarith [hfrac.1]
  · rw [hval, mul_lt_mul_iff_left₀ h2q]; push_cast; linarith [hfrac.2]

theorem roundAt_eq {rm : Nat} (hrm : rm ≤ 4) (neg : Bool) {m : Nat} (hm : m ≠ 0) (e : Int) {prec : Nat} (hprec : 0 < prec) (qmin : Int) (lf : Nat) :
    ∃ z q, Cell prec qmin (m * 2 ^ e) z q ∧
      roundAt rm neg m e prec qmin lf = (cellQuant rm neg z (fracAt (m * 2 ^ e) z q) lf, q) := by
  unfold roundAt
  dsimp only
  generalize hq : (if e + (bitLen m : Int) - prec ≤ qmin then qmin else e + (bitLen m : Int) - prec) = q
  have hsmall : (m : ℚ) * 2 ^ e < 2 ^ (q + prec) := by
    rw [mul_zpow_lt_iff hm]; split at hq <;> omega
  have hfull : q = qmin ∨ (2 : ℚ) ^ (q + prec) ≤ 2 * (m * 2 ^ e) := by
    by_cases hle : e + (bitLen m : Int) - prec ≤ qmin
    · exact .inl (by rw [if_pos hle] at hq; exact hq.symm)
    · rw [if_neg hle] at hq
      refine .inr ?_
      rw [show (2 : ℚ) * (m * 2 ^ e) = m * 2 ^ (e + 1) by rw [two_zpow_succ]; ring, le_mul_zpow_iff hm]
      omega
  refine ⟨floorAt m e q, q, Cell.at_floor hprec hsmall (by split at hq <;> omega) hfull, ?_⟩
  rw [fracAt_floorAt]
  split
  next h => rw [cellQuant, if_pos rfl, floorAt, if_pos h]
  next h => rw [quant_eq hrm, floorAt, if_neg h]

theorem eq_frac_mul (t : ℚ) (z : Nat) (q : Int) : t = (z + fracAt t z q) * 2 ^ q := by
  rw [fracAt, add_sub_cancel, div_mul_cancel₀ _ (two_zpow_pos q).ne']

theorem fracAt_eq_zero_iff {t : ℚ} {z : Nat} {q : Int} : fracAt t z q = 0 ↔ t = z * 2 ^ q := by
  rw [fracAt, sub_eq_zero, div_eq_iff (two_zpow_pos q).ne']

section
variable {prec : Nat} {qmin q : Int} {t : ℚ} {z : Nat}

theorem Cell.fracAt_nonneg (h : Cell prec qmin t z q) : 0 ≤ fracAt t z q := by
  rw [fracAt, sub_nonneg, le_div_iff₀ (two_zpow_pos q)]; exact h.lower

theorem Cell.fracAt_lt_one (h : Cell prec qmin t z q) : fracAt t z q < 1 := by
  have := h.upper
  rw [fracAt, sub_lt_iff_lt_add, div_lt_iff₀ (two_zpow_pos q)]
  push_cast at this
  linarith

/-- A number of as many bits is its own lower neighbour. -/
theorem Cell.fits_iff (h : Cell prec qmin t z q) (hprec : 0 < prec) (ht : 0 < t) (n : Bool) :
    Fits prec qmin (signOf n * t) ↔ fracAt t z q = 0 := by
  rw [fracAt_eq_zero_iff]
  constructor
  · intro hfit
    by_contra hne
    have habs : |signOf n * t| = t := by rw [abs_signOf_mul, abs_of_pos ht]
    have := h.gap hfit (by rw [habs]; exact lt_of_le_of_ne h.lower (Ne.symm hne))
    rw [habs] at this
    exact absurd h.upper this.not_gt
  · intro heq
    rw [heq]
    exact fits_zpow h.least h.small.le hprec n

theorem cellQuant_exact {frac : ℚ} (h : frac = 0) (rm : Nat) (neg : Bool) (z lf : Nat) : cellQuant rm neg z frac lf = ⟨z, false, false, lf⟩ := if_pos h

theorem cellQuant_inexact {frac : ℚ} (h : frac ≠ 0) (rm : Nat) (neg : Bool) (z lf : Nat) : cellQuant rm neg z frac lf =
    ⟨if roundsUp rm neg z frac lf then z + 1 else z, true, roundsUp rm neg z frac lf, if rm = 4 then lfsrStep lf else lf⟩ := if_neg h

/-- An even mantissa, as a number. -/
theorem exists_even_iff (z : Nat) (q : Int) : (∃ n : Nat, (z : ℚ) * 2 ^ q = 2 * n * 2 ^ q) ↔ z % 2 = 0 := by
  constructor
  · rintro ⟨n, h⟩
    have := mul_right_cancel₀ (two_zpow_pos q).ne' h
    have h2 : z = 2 * n := by exact_mod_cast this
    omega
  · intro h
    refine ⟨z / 2, ?_⟩
    have h2 : z = 2 * (z / 2) := by omega
    nth_rw 1 [h2]
    push_cast
    ring

/-- The rule of a rounding mode between the neighbours z · 2^q and (z + 1) · 2^q (R238, R240). -/
theorem rounded_between {rm : Nat} (hrm : rm ≤ 4) (h : Cell prec qmin t z q) (neg : Bool) (lf : Nat) (hfrac : fracAt t z q ≠ 0) :
    let x := signOf neg * t
    let low := signOf neg * (z * 2 ^ q)
    let high := signOf neg * (((z + 1 : Nat) : ℚ) * 2 ^ q)
    let r := if roundsUp rm neg z (fracAt t z q) lf then high else low
    match (generalizing := false) rm with
      | 0 => (|x - low| < |high - x| → r = low) ∧ (|high - x| < |x - low| → r = high) ∧
        (|x - low| = |high - x| → (∃ n : Nat, |low| = 2 * n * |high - low|) → r = low) ∧
        (|x - low| = |high - x| → (¬ ∃ n : Nat, |low| = 2 * n * |high - low|) → r = high)
      | 1 => r = low
      | 2 => r = max low high
      | 3 => r = min low high
      | _ => r = if (lfsrStep lf : Int) < ⌊|x - low| / |high - low| * 2 ^ 32⌋ then high else low := by
  have hq := two_zpow_pos q
  have hpos : 0 < fracAt t z q := lt_of_le_of_ne h.fracAt_nonneg (Ne.symm hfrac)
  have h1 := h.fracAt_lt_one
  have ht := eq_frac_mul t z q
  generalize fracAt t z q = frac at hpos h1 ht ⊢
  intro x low high r
  have hxl : |x - low| = frac * 2 ^ q := by
    rw [show x - low = signOf neg * (frac * 2 ^ q) by simp only [x, low]; rw [ht]; ring, abs_signOf_mul, abs_of_pos (mul_pos hpos hq)]
  have hhx : |high - x| = (1 - frac) * 2 ^ q := by
    rw [show high - x = signOf neg * ((1 - frac) * 2 ^ q) by simp only [x, high]; rw [ht]; push_cast; ring, abs_signOf_mul,
      abs_of_pos (mul_pos (by linarith) hq)]
  have hhl : |high - low| = 2 ^ q := by
    rw [show high - low = signOf neg * 2 ^ q by simp only [low, high]; push_cast; ring, abs_signOf_mul, abs_of_pos hq]
  have hl : |low| = z * 2 ^ q := by rw [abs_signOf_mul, abs_of_nonneg (by positivity)]
  have hlt : (z : ℚ) * 2 ^ q ≤ ((z + 1 : Nat) : ℚ) * 2 ^ q := by rw [mul_le_mul_iff_left₀ hq]; push_cast; linarith
  rw [hxl, hhx, hhl, hl, exists_even_iff, mul_lt_mul_iff_left₀ hq, mul_lt_mul_iff_left₀ hq, mul_left_inj' hq.ne', mul_div_cancel_right₀ _ hq.ne']
  obtain rfl | rfl | rfl | rfl | rfl : rm = 0 ∨ rm = 1 ∨ rm = 2 ∨ rm = 3 ∨ rm = 4 := by omega
  case inl =>
    simp only [r, roundsUp, Bool.or_eq_true, decide_eq_true_eq, Bool.and_eq_true, beq_iff_eq]
    refine ⟨fun hc => if_neg ?_, fun hc => if_pos ?_, fun hc he => if_neg ?_, fun hc he => if_pos ?_⟩
    · rintro (hlt' | ⟨heq, -⟩) <;> linarith
    · exact .inl (by linarith)
    · rintro (hlt' | ⟨-, hodd⟩)
      · linarith
      · omega
    · exact .inr ⟨by linarith, by omega⟩
  case inr.inl => rfl
  case inr.inr.inl =>
    cases neg
    · have hr : r = high := rfl
      exact hr.trans (max_eq_right (by simpa [low, high] using hlt)).symm
    · have hr : r = low := rfl
      exact hr.trans (max_eq_left (by simpa [low, high] using hlt)).symm
  case inr.inr.inr.inl =>
    cases neg
    · have hr : r = low := rfl
      exact hr.trans (min_eq_left (by simpa [low, high] using hlt)).symm
    · have hr : r = high := rfl
      exact hr.trans (min_eq_right (by simpa [low, high] using hlt)).symm
  case inr.inr.inr.inr => simp only [r, roundsUp, decide_eq_true_eq]

/-- A number rounds to what its cell gives (R238 to R240). -/
theorem rounded_cell {rm : Nat} (hrm : rm ≤ 4) (hprec : 0 < prec) (ht : 0 < t) (h : Cell prec qmin t z q) (neg : Bool) (lf : Nat) :
    Rounded prec qmin rm lf (signOf neg * t) (signOf neg * ((cellQuant rm neg z (fracAt t z q) lf).z * 2 ^ q))
      (cellQuant rm neg z (fracAt t z q) lf).lf := by
  have hq := two_zpow_pos q
  refine ⟨fun hfit => ?_, fun hfit => ?_⟩
  · have h0 := (h.fits_iff hprec ht neg).mp hfit
    rw [cellQuant_exact h0, ← fracAt_eq_zero_iff.mp h0]
    exact ⟨rfl, rfl⟩
  · have h0 := mt (h.fits_iff hprec ht neg).mpr hfit
    rw [cellQuant_inexact h0]
    have hlow : (z : ℚ) * 2 ^ q < t := lt_of_le_of_ne h.lower fun heq => h0 (fracAt_eq_zero_iff.mpr heq.symm)
    have hz : |signOf neg * ((z : ℚ) * 2 ^ q)| = z * 2 ^ q := by rw [abs_signOf_mul, abs_of_nonneg (by positivity)]
    have ha : |signOf neg * (((z + 1 : Nat) : ℚ) * 2 ^ q)| = ((z + 1 : Nat) : ℚ) * 2 ^ q := by rw [abs_signOf_mul, abs_of_nonneg (by positivity)]
    have hx : |signOf neg * t| = t := by rw [abs_signOf_mul, abs_of_pos ht]
    refine ⟨rfl, signOf neg * (z * 2 ^ q), signOf neg * (((z + 1 : Nat) : ℚ) * 2 ^ q), fits_zpow h.least h.small.le hprec neg,
      fits_zpow h.least h.small hprec neg, ?_, ?_, ?_, ?_, fun y hy => ?_, ?_⟩
    · rw [hz, hx]; exact hlow
    · rw [ha, hx]; exact h.upper
    · rw [mul_mul_mul_comm, signOf_mul_self, one_mul]; positivity
    · rw [mul_mul_mul_comm, signOf_mul_self, one_mul]; positivity
    · rw [hz, ha]
      exact (le_or_gt |y| (z * 2 ^ q)).imp_right (h.gap hy)
    · have hr : signOf neg * (((if roundsUp rm neg z (fracAt t z q) lf = true then z + 1 else z : Nat) : ℚ) * 2 ^ q) =
          if roundsUp rm neg z (fracAt t z q) lf then signOf neg * (((z + 1 : Nat) : ℚ) * 2 ^ q) else signOf neg * (z * 2 ^ q) := by
        split <;> rfl
      simp only [hr]
      have := rounded_between hrm h neg lf h0
      exact this

end

end Sys2Proof.Machine
end

section
/-!
SUPPORT. The values of the patterns of a format (R230 to R232).
-/

namespace Sys2Proof.Machine

open Sys2Proof

/-- A floating format whose finite magnitudes lie below its sign bit and below its infinity, with a normal one among them. -/
structure FFmt.Wf (f : FFmt) : Prop where
  m_pos : 0 < f.m
  max_lt : f.max < 2 ^ (f.w - 1)
  inf_gt : ∀ i, f.inf = some i → f.max < i ∧ i < 2 ^ (f.w - 1)
  max_normal : 2 ^ f.m ≤ f.max
  w_pos : 0 < f.w

theorem ffOf_wf (code : Nat) : (ffOf code).Wf := by
  have h : ∀ g ∈ [ffBF16, ffF16, ffF32, ffE4M3, ffE5M2, ffE2M1], g.Wf := by
    intro g hg
    simp only [List.mem_cons, List.not_mem_nil, or_false] at hg
    rcases hg with rfl | rfl | rfl | rfl | rfl | rfl <;>
      exact ⟨by decide, by decide, fun i hi => by cases hi <;> decide, by decide, by decide⟩
  refine h _ ?_
  unfold ffOf
  split <;> simp

theorem ffFmt_wf (fm : Fmt) : (ffFmt fm).Wf := by
  cases fm
  · exact ffOf_wf 8
  · exact ffOf_wf 9
  · exact ffOf_wf 10

/-! ## Signs -/

theorem FFmt.Wf.sign_mod {f : FFmt} {k : Nat} (hk : k < 2 ^ (f.w - 1)) (n : Bool) : f.sign n k % 2 ^ (f.w - 1) = k := by
  cases n <;> simp [FFmt.sign, Nat.mod_eq_of_lt hk]

theorem FFmt.Wf.bit_sign {f : FFmt} {k : Nat} (hk : k < 2 ^ (f.w - 1)) (n : Bool) : bit (f.sign n k) (f.w - 1) = n := by
  cases n
  · simp [FFmt.sign, bit, Nat.div_eq_of_lt hk]
  · have : (2 ^ (f.w - 1) + k) / 2 ^ (f.w - 1) = 1 := by
      rw [Nat.add_div_left _ (Nat.two_pow_pos _), Nat.div_eq_of_lt hk]
    simp [FFmt.sign, bit, this]

theorem FFmt.Wf.sign_lt {f : FFmt} (hf : f.Wf) {k : Nat} (hk : k < 2 ^ (f.w - 1)) (n : Bool) : f.sign n k < 2 ^ f.w := by
  have hw : 2 ^ f.w = 2 ^ (f.w - 1) + 2 ^ (f.w - 1) := by
    rw [← Nat.two_mul, ← Nat.pow_succ', Nat.succ_eq_add_one, Nat.sub_add_cancel hf.w_pos]
  rw [hw]
  cases n <;> simp only [FFmt.sign, Bool.false_eq_true, if_false, if_true] <;> omega

/-! ## Magnitudes -/

/-- The mantissa and the exponent of a finite magnitude. -/
def FFmt.mant (f : FFmt) (k : Nat) : Nat := if k < 2 ^ f.m then k else 2 ^ f.m + k % 2 ^ f.m
def FFmt.expo (f : FFmt) (k : Nat) : Int := if k < 2 ^ f.m then f.qmin else f.qmin + ((k / 2 ^ f.m : Nat) : Int) - 1

/-- The number of a finite magnitude. -/
def FFmt.magnitude (f : FFmt) (k : Nat) : ℚ := f.mant k * 2 ^ f.expo k

/-- A pattern with a finite magnitude. -/
theorem FFmt.Wf.val_of_le {f : FFmt} (hf : f.Wf) {v : Nat} (hv : v % 2 ^ (f.w - 1) ≤ f.max) :
    f.val v = .fin (bit v (f.w - 1)) (f.mant (v % 2 ^ (f.w - 1))) (f.expo (v % 2 ^ (f.w - 1))) := by
  have hinf : ¬ some (v % 2 ^ (f.w - 1)) = f.inf := fun h => by
    have := (hf.inf_gt _ h.symm).1
    omega
  have hzero : ∀ k, k / 2 ^ f.m = 0 ↔ k < 2 ^ f.m := fun k => Nat.div_eq_zero_iff_lt (Nat.two_pow_pos _)
  unfold FFmt.val
  dsimp only
  rw [if_neg hinf, if_neg (Nat.not_lt.mpr hv)]
  by_cases hk : v % 2 ^ (f.w - 1) < 2 ^ f.m
  · rw [if_pos ((hzero _).mpr hk), FFmt.mant, FFmt.expo, if_pos hk, if_pos hk, Nat.mod_eq_of_lt hk]
  · rw [if_neg (mt (hzero _).mp hk), FFmt.mant, FFmt.expo, if_neg hk, if_neg hk]

/-- A finite magnitude under a sign. -/
theorem FFmt.Wf.val_sign {f : FFmt} (hf : f.Wf) {k : Nat} (hk : k ≤ f.max) (n : Bool) : f.val (f.sign n k) = .fin n (f.mant k) (f.expo k) := by
  have hlt := Nat.lt_of_le_of_lt hk hf.max_lt
  have h := hf.val_of_le (v := f.sign n k) (by rw [FFmt.Wf.sign_mod hlt]; exact hk)
  rw [h, FFmt.Wf.sign_mod hlt, FFmt.Wf.bit_sign hlt]

theorem FFmt.Wf.number_sign {f : FFmt} (hf : f.Wf) {k : Nat} (hk : k ≤ f.max) (n : Bool) :
    FVal.number (f.val (f.sign n k)) = signOf n * f.magnitude k := by rw [hf.val_sign hk, number_fin]; rfl

theorem FFmt.Wf.number_max {f : FFmt} (hf : f.Wf) : FVal.number (f.val f.max) = f.magnitude f.max := by
  have h := hf.number_sign (Nat.le_refl _) false
  rw [signOf_false, one_mul] at h
  exact h

/-- A magnitude in terms of its exponent field and what is added to it. -/
theorem FFmt.magnitude_eq (f : FFmt) {j z : Nat} (hz : z ≤ 2 ^ (f.m + 1)) (hfull : j = 0 ∨ 2 ^ f.m ≤ z) :
    f.magnitude (j * 2 ^ f.m + z) = z * 2 ^ (f.qmin + j) := by
  have hpos := Nat.two_pow_pos f.m
  unfold FFmt.magnitude FFmt.mant FFmt.expo
  rw [Nat.pow_succ, Nat.mul_two] at hz
  rcases Nat.lt_or_ge z (2 ^ f.m) with hlt | hge
  · have hj : j = 0 := hfull.resolve_right (by omega)
    subst hj
    simp [hlt]
  · have hnot : ¬ j * 2 ^ f.m + z < 2 ^ f.m := by omega
    rw [if_neg hnot, if_neg hnot]
    rcases Nat.lt_or_eq_of_le hz with hz2 | rfl
    · have hdiv : (j * 2 ^ f.m + z) / 2 ^ f.m = j + 1 := by
        have hone : z / 2 ^ f.m = 1 := Nat.div_eq_of_lt_le (by omega) (by omega)
        rw [Nat.mul_comm, Nat.mul_add_div hpos, hone]
      have hmod : (j * 2 ^ f.m + z) % 2 ^ f.m = z - 2 ^ f.m := by
        rw [Nat.mul_comm, Nat.mul_add_mod, Nat.mod_eq_sub_mod hge, Nat.mod_eq_of_lt (by omega)]
      rw [hdiv, hmod, Nat.add_sub_cancel' hge]
      congr 2
      push_cast
      ring
    · have hdiv : (j * 2 ^ f.m + (2 ^ f.m + 2 ^ f.m)) / 2 ^ f.m = j + 2 := by
        rw [show j * 2 ^ f.m + (2 ^ f.m + 2 ^ f.m) = 2 ^ f.m * (j + 2) by ring, Nat.mul_div_cancel_left _ hpos]
      have hmod : (j * 2 ^ f.m + (2 ^ f.m + 2 ^ f.m)) % 2 ^ f.m = 0 := by
        rw [show j * 2 ^ f.m + (2 ^ f.m + 2 ^ f.m) = 2 ^ f.m * (j + 2) by ring, Nat.mul_mod_right]
      rw [hdiv, hmod, show f.qmin + ((j + 2 : Nat) : Int) - 1 = (f.qmin + j) + 1 by push_cast; ring, two_zpow_succ]
      push_cast
      ring

/-- Every magnitude has an exponent field and what is added to it. -/
theorem exists_fields (f : FFmt) (k : Nat) : ∃ j z, k = j * 2 ^ f.m + z ∧ z < 2 ^ (f.m + 1) ∧ (j = 0 ∨ 2 ^ f.m ≤ z) := by
  have hpos := Nat.two_pow_pos f.m
  rcases Nat.lt_or_ge k (2 ^ f.m) with hlt | hge
  · exact ⟨0, k, by omega, by rw [Nat.pow_succ]; omega, .inl rfl⟩
  · refine ⟨k / 2 ^ f.m - 1, 2 ^ f.m + k % 2 ^ f.m, ?_, ?_, .inr (Nat.le_add_right _ _)⟩
    · have h1 : 1 ≤ k / 2 ^ f.m := (Nat.one_le_div_iff hpos).mpr hge
      have h2 := Nat.div_add_mod' k (2 ^ f.m)
      obtain ⟨d, hd⟩ := Nat.exists_eq_add_of_le h1
      rw [hd, Nat.add_mul, Nat.one_mul] at h2
      rw [hd, Nat.add_sub_cancel_left]
      omega
    · have := Nat.mod_lt k hpos
      rw [Nat.pow_succ]
      omega

/-- A greater magnitude is a greater number. -/
theorem FFmt.magnitude_strictMono (f : FFmt) : StrictMono f.magnitude := by
  refine strictMono_nat_of_lt_succ fun k => ?_
  obtain ⟨j, z, rfl, hz, hfull⟩ := exists_fields f k
  rw [f.magnitude_eq hz.le hfull, Nat.add_assoc, f.magnitude_eq hz (hfull.imp_right fun h => by omega), mul_lt_mul_iff_left₀ (two_zpow_pos _)]
  exact_mod_cast Nat.lt_succ_self z

theorem FFmt.magnitude_zero (f : FFmt) : f.magnitude 0 = 0 := by
  have h := f.magnitude_eq (j := 0) (z := 0) (Nat.zero_le _) (.inl rfl)
  simpa using h

theorem FFmt.magnitude_normal (f : FFmt) : f.magnitude (2 ^ f.m) = 2 ^ (f.qmin + f.m) := by
  have h := f.magnitude_eq (j := 0) (z := 2 ^ f.m) (Nat.pow_le_pow_right (by decide) (by omega)) (.inl rfl)
  rw [Nat.zero_mul, Nat.zero_add] at h
  rw [h, two_zpow_add f.qmin f.m, zpow_natCast, Nat.cast_zero, add_zero]
  push_cast
  ring

theorem FFmt.magnitude_nonneg (f : FFmt) (k : Nat) : 0 ≤ f.magnitude k := mul_nonneg (Nat.cast_nonneg _) (two_zpow_pos _).le

/-- A subnormal magnitude is a number below the least normal one, other than zero. -/
theorem FFmt.Wf.subnormal_iff {f : FFmt} {k : Nat} (hk : k < 2 ^ (f.w - 1)) (n : Bool) :
    f.subnormal (f.sign n k) = true ↔ f.magnitude k ≠ 0 ∧ f.magnitude k < 2 ^ (f.qmin + f.m) := by
  rw [← f.magnitude_normal, f.magnitude_strictMono.lt_iff_lt, ← f.magnitude_zero, f.magnitude_strictMono.injective.ne_iff]
  simp [FFmt.subnormal, FFmt.Wf.sign_mod hk]

end Sys2Proof.Machine
end

section
/-!
SUPPORT. One rounding to a format, with its flags (R61, R62).
-/

namespace Sys2Proof.Machine

open Sys2Proof

/-- The lowest quantum of a cell may lie lower where the mantissa has all its bits. -/
theorem Cell.lower_qmin {prec : Nat} {qmin q p : Int} {t : ℚ} {z : Nat} (h : Cell prec qmin t z q) (hz : 2 ^ prec ≤ 2 * z) (hp : p ≤ q) :
    Cell prec p t z q := ⟨h.lower, h.upper, h.small, hp, .inr hz⟩

/-- The cell of a number at its full precision. -/
theorem cell_top {m : Nat} (hm : m ≠ 0) (e : Int) {prec : Nat} (hprec : 0 < prec) (p : Int) (hp : p ≤ e + bitLen m - prec) :
    Cell prec p (m * 2 ^ e) (floorAt m e (e + bitLen m - prec)) (e + bitLen m - prec) := by
  refine Cell.at_floor hprec ?_ hp (.inr ?_)
  · rw [mul_zpow_lt_iff hm]; omega
  · rw [show (2 : ℚ) * (m * 2 ^ e) = m * 2 ^ (e + 1) by rw [two_zpow_succ]; ring, le_mul_zpow_iff hm]; omega

theorem cell_top_full {m : Nat} (hm : m ≠ 0) (e : Int) {prec : Nat} (hprec : 0 < prec) : 2 ^ prec ≤ 2 * floorAt m e (e + bitLen m - prec) := by
  have h := cell_top hm e hprec (e + bitLen m - prec - 1) (by omega)
  rcases h.full with hq | hq
  · omega
  · exact hq

/-- A number is tiny when it is below the least normal one after a rounding of unbounded exponent that goes the way the result went (R61). -/
theorem tiny_iff (f : FFmt) {m : Nat} (hm : m ≠ 0) (e : Int) (up : Bool) : tiny f m e up = true ↔
    if up then ∃ (z : Nat) (q : Int), z < 2 ^ (f.m + 1) ∧ (m : ℚ) * 2 ^ e ≤ z * 2 ^ q ∧ (z : ℚ) * 2 ^ q < 2 ^ (f.qmin + f.m)
    else (m : ℚ) * 2 ^ e < 2 ^ (f.qmin + f.m) := by
  have hprec : 0 < f.m + 1 := Nat.succ_pos _
  have htop : e + (bitLen m : Int) - ((f.m : Int) + 1) = e + bitLen m - ((f.m + 1 : Nat) : Int) := by push_cast; ring
  have hcell := fun p hp => cell_top hm e hprec p hp
  have hfull := cell_top_full hm e hprec
  have hfrac := fracAt_floorAt m e (e + bitLen m - ((f.m + 1 : Nat) : Int))
  have hunfold : tiny f m e up = decide (e + bitLen m - ((f.m + 1 : Nat) : Int) + (bitLen (if up && decide (e < e + bitLen m - ((f.m + 1 : Nat) : Int))
      && m % 2 ^ (e + bitLen m - ((f.m + 1 : Nat) : Int) - e).toNat != 0 then floorAt m e (e + bitLen m - ((f.m + 1 : Nat) : Int)) + 1
      else floorAt m e (e + bitLen m - ((f.m + 1 : Nat) : Int))) : Int) ≤ f.qmin + f.m) := by
    unfold tiny floorAt
    dsimp only
    rw [htop, Int.add_comm (f.m : Int)]
  rw [hunfold, decide_eq_true_eq]
  clear hunfold htop
  generalize e + bitLen m - ((f.m + 1 : Nat) : Int) = top at *
  generalize hz : floorAt m e top = z at *
  generalize f.qmin + (f.m : Int) = n
  have hinex : (decide (e < top) && m % 2 ^ (top - e).toNat != 0) = true ↔ fracAt (m * 2 ^ e) z top ≠ 0 := by
    rw [hfrac]
    by_cases hle : top ≤ e
    · simp [hle, not_lt.mpr hle]
    · simp [hle, not_le.mp hle, div_eq_zero_iff]
  have hzpos : z ≠ 0 := by
    have := Nat.two_pow_pos (f.m + 1)
    omega
  generalize hc : (decide (e < top) && m % 2 ^ (top - e).toNat != 0) = c at hinex
  rw [Bool.and_assoc, hc]
  cases up
  · simp only [Bool.false_and, Bool.false_eq_true, if_false]
    rw [← mul_zpow_lt_iff hzpos]
    have h := hcell (min top n) (min_le_left _ _)
    refine ⟨fun hlt => ?_, fun hlt => lt_of_le_of_lt h.lower hlt⟩
    by_contra hge
    have hfit : Fits (f.m + 1) (min top n) ((2 : ℚ) ^ n) :=
      ⟨1, n, Nat.one_lt_two_pow (by omega), min_le_right _ _, by rw [abs_of_pos (two_zpow_pos n), Nat.cast_one, one_mul]⟩
    have := h.gap hfit (by rw [abs_of_pos (two_zpow_pos n)]; exact hlt)
    rw [abs_of_pos (two_zpow_pos n)] at this
    linarith [h.upper]
  · simp only [Bool.true_and, if_true]
    cases c
    · have hexact : (m : ℚ) * 2 ^ e = z * 2 ^ top := fracAt_eq_zero_iff.mp (not_not.mp (mt hinex.mpr (by simp)))
      simp only [Bool.false_eq_true, if_false]
      rw [← mul_zpow_lt_iff hzpos]
      exact ⟨fun hlt => ⟨z, top, (hcell top le_rfl).small, hexact.le, hlt⟩, fun ⟨k, q, _, hle, hlt⟩ => by rw [← hexact]; linarith⟩
    · have hne : (m : ℚ) * 2 ^ e ≠ z * 2 ^ top := mt fracAt_eq_zero_iff.mpr (hinex.mp rfl)
      simp only [if_true]
      rw [← mul_zpow_lt_iff (Nat.succ_ne_zero z)]
      constructor
      · intro hlt
        obtain ⟨k, q, hk, -, habs⟩ := fits_zpow (prec := f.m + 1) (z := z + 1) (le_refl top) (hcell top le_rfl).small hprec false
        rw [signOf_false, one_mul, abs_of_nonneg (by positivity)] at habs
        exact ⟨k, q, hk, by rw [← habs]; exact (hcell top le_rfl).upper.le, by rw [← habs]; exact hlt⟩
      · rintro ⟨k, q, hk, hle, hlt⟩
        have h := hcell (min top q) (min_le_left _ _)
        have habs : |(k : ℚ) * 2 ^ q| = k * 2 ^ q := abs_of_nonneg (by positivity)
        have hgap := h.gap ⟨k, q, hk, min_le_right _ _, habs⟩ (by rw [habs]; exact lt_of_lt_of_le (lt_of_le_of_ne h.lower (Ne.symm hne)) hle)
        rw [habs] at hgap
        linarith

/-! ## One rounding -/

section
variable {f : FFmt} {rm m : Nat} {e : Int} {n : Bool} {fso : Bool} {ovf : Bool → Nat} {lf : Nat}

/-- The flags of a rounding that does not overflow (R61). -/
def roundFlags (f : FFmt) (m : Nat) (e : Int) (c : Quant) : Nat := if c.ine then (if tiny f m e c.up then orf fUF fNX else fNX) else 0

/-- The result of a rounding within a cell: the magnitude `enc` is what the exponent field and the mantissa make. -/
def encoded (f : FFmt) (fso : Bool) (ovf : Nat) (n : Bool) (enc fl lf : Nat) : FRes :=
  if enc > f.max then ⟨f.sign n ovf, orf fOF fNX, lf⟩
  else if fso && f.subnormal enc then ⟨f.sign n 0, orf fl (orf fUF fNX), lf⟩
  else ⟨f.sign n enc, fl, lf⟩

/-- A number other than zero is rounded in its cell (R61, R62). -/
theorem roundTo_fin (hrm : rm ≤ 4) (hm : m ≠ 0) : ∃ z j : Nat, Cell (f.m + 1) f.qmin (m * 2 ^ e) z (f.qmin + j) ∧
    let c := cellQuant rm n z (fracAt (m * 2 ^ e) z (f.qmin + j)) lf
    roundTo f rm fso ovf (.fin n m e) lf = encoded f fso (ovf n) n (j * 2 ^ f.m + c.z) (roundFlags f m e c) c.lf := by
  obtain ⟨z, q, hcell, hround⟩ := roundAt_eq hrm n hm e (Nat.succ_pos f.m) f.qmin lf
  obtain ⟨j, hj⟩ := Int.eq_ofNat_of_zero_le (sub_nonneg.mpr hcell.least)
  obtain rfl : q = f.qmin + j := by omega
  refine ⟨z, j, hcell, ?_⟩
  simp only [roundTo, if_neg hm, hround, encoded, roundFlags, add_sub_cancel_left, Int.toNat_natCast]

theorem cellQuant_z_le {frac : ℚ} {z : Nat} (neg : Bool) : z ≤ (cellQuant rm neg z frac lf).z ∧ (cellQuant rm neg z frac lf).z ≤ z + 1 := by
  unfold cellQuant
  split
  · exact ⟨le_refl _, Nat.le_succ _⟩
  · dsimp only
    split <;> omega

/-- The magnitude that a rounding gives is the number it rounds to. -/
theorem magnitude_encoded {prec : Nat} {t : ℚ} {z j k : Nat} (hprec : prec = f.m + 1) (h : Cell prec f.qmin t z (f.qmin + j)) (hk : z ≤ k ∧ k ≤ z + 1) :
    f.magnitude (j * 2 ^ f.m + k) = k * 2 ^ (f.qmin + j) := by
  subst hprec
  refine f.magnitude_eq (le_trans hk.2 h.small) ?_
  rcases h.full with hq | hz
  · exact .inl (by omega)
  · rw [Nat.pow_succ] at hz
    exact .inr (by omega)

theorem roundFlags_exact {c : Quant} (h : c.ine = false) : roundFlags f m e c = 0 := by simp [roundFlags, h]

theorem roundFlags_flushed (c : Quant) : orf (roundFlags f m e c) (orf fUF fNX) = fUF + fNX := by
  unfold roundFlags
  split
  · split <;> rfl
  · rfl

theorem encoded_lf (ovf enc fl : Nat) : (encoded f fso ovf n enc fl lf).lf = lf := by
  unfold encoded
  split
  · rfl
  · split <;> rfl

/-- What a rounding in a cell gives is the number itself, or lies on the side of it that the rounding took. -/
theorem cellQuant_cases {prec : Nat} {qmin q : Int} {t : ℚ} {z : Nat} (h : Cell prec qmin t z q) (rm : Nat) (n : Bool) (lf : Nat) :
    let c := cellQuant rm n z (fracAt t z q) lf
    (c.ine = false ∧ (c.z : ℚ) * 2 ^ q = t) ∨ (c.ine = true ∧ c.up = true ∧ t < c.z * 2 ^ q) ∨ (c.ine = true ∧ c.up = false ∧ c.z * 2 ^ q < t) := by
  intro c
  by_cases h0 : fracAt t z q = 0
  · have hc : c = _ := cellQuant_exact h0 ..
    rw [hc]
    exact .inl ⟨rfl, (fracAt_eq_zero_iff.mp h0).symm⟩
  · have hc : c = _ := cellQuant_inexact h0 ..
    rw [hc]
    cases roundsUp rm n z (fracAt t z q) lf
    · exact .inr (.inr ⟨rfl, rfl, lt_of_le_of_ne h.lower fun heq => h0 (fracAt_eq_zero_iff.mpr heq.symm)⟩)
    · exact .inr (.inl ⟨rfl, rfl, h.upper⟩)

/-- The flags of R61 of a rounding within range, in terms of what was rounded and what it gave. -/
theorem roundFlags_spec {c : Quant} {y : ℚ} (hm : m ≠ 0) (hc : (c.ine = false ∧ y = m * 2 ^ e) ∨ (c.ine = true ∧ c.up = true ∧ m * 2 ^ e < y) ∨
      (c.ine = true ∧ c.up = false ∧ y < m * 2 ^ e)) :
    let t : ℚ := m * 2 ^ e
    let tiny := if t < y then ∃ (z : Nat) (q : Int), z < 2 ^ (f.m + 1) ∧ t ≤ z * (2 : ℚ) ^ q ∧ z * (2 : ℚ) ^ q < 2 ^ (f.qmin + f.m)
      else t < 2 ^ (f.qmin + f.m)
    (y = t → roundFlags f m e c = 0) ∧ (y ≠ t → tiny → roundFlags f m e c = fUF + fNX) ∧ (y ≠ t → ¬ tiny → roundFlags f m e c = fNX) := by
  intro t tiny
  rcases hc with ⟨hine, heq⟩ | ⟨hine, hup, hlt⟩ | ⟨hine, hup, hlt⟩
  · exact ⟨fun _ => roundFlags_exact hine, fun h => absurd heq h, fun h => absurd heq h⟩
  · have htiny := tiny_iff f hm e c.up
    rw [if_pos hup] at htiny
    simp only [tiny, t, if_pos hlt, ← htiny, roundFlags, hine, if_true]
    exact ⟨fun h => absurd h hlt.ne', fun _ h => by rw [if_pos h]; rfl, fun _ h => if_neg h⟩
  · have htiny := tiny_iff f hm e c.up
    rw [if_neg (ne_true_of_eq_false hup)] at htiny
    simp only [tiny, t, if_neg (not_lt.mpr hlt.le), ← htiny, roundFlags, hine, if_true]
    exact ⟨fun h => absurd h hlt.ne, fun _ h => by rw [if_pos h]; rfl, fun _ h => if_neg h⟩

/-- A number other than zero is rounded once to its format, with the flags of R61 and the flush of R62. -/
theorem roundTo_roundsTo (hf : f.Wf) (hrm : rm ≤ 4) (hm : m ≠ 0) :
    RoundsTo f rm fso (ovf n) (FVal.number (.fin n m e)) lf (roundTo f rm fso ovf (.fin n m e) lf) := by
  obtain ⟨z, j, hcell, hround⟩ := roundTo_fin (f := f) (n := n) (fso := fso) (ovf := ovf) (lf := lf) (e := e) hrm hm
  have ht : (0 : ℚ) < m * 2 ^ e := mul_pos (by exact_mod_cast Nat.pos_of_ne_zero hm) (two_zpow_pos e)
  have hrounded := rounded_cell hrm (Nat.succ_pos f.m) ht hcell n lf
  have hmag := magnitude_encoded rfl hcell (cellQuant_z_le (rm := rm) (lf := lf) (frac := fracAt (m * 2 ^ e) z (f.qmin + j)) (z := z) n)
  have hcases := cellQuant_cases hcell rm n lf
  rw [hround]
  generalize cellQuant rm n z (fracAt (m * 2 ^ e) z (f.qmin + j)) lf = c at hrounded hmag hcases
  have hflags := roundFlags_spec (f := f) hm hcases
  rw [← hmag] at hrounded hflags
  generalize j * 2 ^ f.m + c.z = enc at hrounded hflags
  have hx : |FVal.number (.fin n m e)| = m * 2 ^ e := abs_number_fin ..
  have hr : |signOf n * f.magnitude enc| = f.magnitude enc := by rw [abs_signOf_mul, abs_of_nonneg (f.magnitude_nonneg enc)]
  have hsame : signOf n * f.magnitude enc = FVal.number (.fin n m e) ↔ f.magnitude enc = m * 2 ^ e := by
    rw [number_fin, mul_right_inj' (signOf_ne_zero n)]
  have hneg : decide (FVal.number (.fin n m e) < 0) = n := by
    rw [Bool.eq_iff_iff, decide_eq_true_eq]; exact number_neg_iff hm
  refine ⟨signOf n * f.magnitude enc, by rw [encoded_lf]; exact hrounded, ?_⟩
  dsimp only
  rw [hneg, hx, hr, hf.number_max]
  by_cases hover : f.max < enc
  · rw [if_pos (f.magnitude_strictMono.lt_iff_lt.mpr hover), encoded, if_pos hover]
    exact ⟨rfl, rfl⟩
  · have hle := Nat.not_lt.mp hover
    have hlt := Nat.lt_of_le_of_lt hle hf.max_lt
    have hsub := FFmt.Wf.subnormal_iff hlt false
    have hz : signOf n * f.magnitude enc ≠ 0 ↔ f.magnitude enc ≠ 0 := by rw [mul_ne_zero_iff]; exact and_iff_right (signOf_ne_zero n)
    have hcond : (fso = true ∧ signOf n * f.magnitude enc ≠ 0 ∧ f.magnitude enc < 2 ^ (f.qmin + f.m)) ↔ (fso && f.subnormal enc) = true := by
      rw [hz, ← hsub, Bool.and_eq_true]; rfl
    rw [if_neg (mt f.magnitude_strictMono.lt_iff_lt.mp hover), encoded, if_neg hover]
    by_cases hflush : (fso && f.subnormal enc) = true
    · rw [if_pos (hcond.mpr hflush), if_pos hflush]
      exact ⟨rfl, roundFlags_flushed c⟩
    · rw [if_neg (mt hcond.mp hflush), if_neg hflush]
      simp only [ne_eq, hsame]
      exact ⟨hf.number_sign hle n, by rw [hf.val_sign hle]; rfl, FFmt.Wf.bit_sign hlt n, hf.sign_lt hlt n, hflags⟩

theorem FFmt.fits_magnitude (f : FFmt) (k : Nat) (n : Bool) : Fits (f.m + 1) f.qmin (signOf n * f.magnitude k) := by
  obtain ⟨j, z, rfl, hz, hfull⟩ := exists_fields f k
  rw [f.magnitude_eq hz.le hfull]
  exact fits_zpow (by omega) hz.le (Nat.succ_pos _) n

/-- A number of the format is given as it is, unless it is flushed. -/
theorem roundTo_exact (hf : f.Wf) (hrm : rm ≤ 4) {k : Nat} (hk : k ≤ f.max) (hm : m ≠ 0) (hval : (m : ℚ) * 2 ^ e = f.magnitude k)
    (hflush : fso = false ∨ 2 ^ f.m ≤ k) : roundTo f rm fso ovf (.fin n m e) lf = ⟨f.sign n k, 0, lf⟩ := by
  obtain ⟨z, j, hcell, hround⟩ := roundTo_fin (f := f) (n := n) (fso := fso) (ovf := ovf) (lf := lf) (e := e) hrm hm
  have ht : (0 : ℚ) < m * 2 ^ e := mul_pos (by exact_mod_cast Nat.pos_of_ne_zero hm) (two_zpow_pos e)
  have hfrac := (hcell.fits_iff (Nat.succ_pos f.m) ht n).mp (by rw [hval]; exact f.fits_magnitude k n)
  have hmag := magnitude_encoded rfl hcell ⟨le_refl z, Nat.le_succ z⟩
  rw [← fracAt_eq_zero_iff.mp hfrac, hval] at hmag
  have henc : j * 2 ^ f.m + z = k := f.magnitude_strictMono.injective hmag
  have hsub : (fso && f.subnormal k) = false := by
    rcases hflush with h | h
    · rw [h, Bool.false_and]
    · have hlt := Nat.lt_of_le_of_lt hk hf.max_lt
      simp [FFmt.subnormal, Nat.mod_eq_of_lt hlt, h]
  rw [hround, cellQuant_exact hfrac]
  simp only [henc, encoded, if_neg (Nat.not_lt.mpr hk), hsub, Bool.false_eq_true, if_false, roundFlags_exact]

end

end Sys2Proof.Machine
end

section
/-!
SUPPORT. NaNs, arithmetic rounded once, comparison, minimum and maximum, and the sums of memory (R60 to R67, R137).
-/

namespace Sys2Proof.Machine

open Sys2Proof

/-! ## Kinds of floating values -/

theorem FVal.finite_iff {v : FVal} : FVal.finite v = true ↔ ∃ n m e, v = .fin n m e := by
  cases v with
  | fin n m e => exact ⟨fun _ => ⟨n, m, e, rfl⟩, fun _ => rfl⟩
  | nan _ => simp [FVal.finite]
  | inf _ => simp [FVal.finite]

theorem FVal.isInf_iff {v : FVal} : v.isInf = true ↔ ∃ n, v = .inf n := by cases v <;> simp [FVal.isInf]

theorem FVal.isNan_iff {v : FVal} : v.isNan = true ↔ ∃ sig, v = .nan sig := by cases v <;> simp [FVal.isNan]

theorem FVal.isInf_of_isNan {v : FVal} (h : v.isNan = true) : v.isInf = false := by
  cases v with
  | nan _ => rfl
  | inf _ => simp [FVal.isNan] at h
  | fin _ _ _ => rfl

theorem FVal.isZero_of_isNan {v : FVal} (h : v.isNan = true) : v.isZero = false := by
  cases v with
  | nan _ => rfl
  | inf _ => rfl
  | fin _ _ _ => simp [FVal.isNan] at h

theorem FVal.mul_isNan {a b : FVal} (h : a.isNan = true ∨ b.isNan = true) : (FVal.mul a b).isNan = true := by
  rcases h with h | h
  · cases a with
    | nan _ => rfl
    | inf _ => simp [FVal.isNan] at h
    | fin _ _ _ => simp [FVal.isNan] at h
  · cases b with
    | nan _ => cases a <;> rfl
    | inf _ => simp [FVal.isNan] at h
    | fin _ _ _ => simp [FVal.isNan] at h

/-- An invalid operation beside a NaN is 0 × infinity in an FFMA (R60). -/
theorem fInvalid_of_nan {op : FOp} {a b c : FVal} (h : a.isNan = true ∨ b.isNan = true ∨ (op = .fma ∧ c.isNan = true)) :
    fInvalid op a b c = true ↔ op = .fma ∧ ((a.isInf = true ∧ b.isZero = true) ∨ (a.isZero = true ∧ b.isInf = true)) := by
  cases op with
  | add =>
    rcases h with h | h | ⟨h, -⟩
    · simp [fInvalid, FVal.isInf_of_isNan h]
    · simp [fInvalid, FVal.isInf_of_isNan h]
    · cases h
  | sub =>
    rcases h with h | h | ⟨h, -⟩
    · simp [fInvalid, FVal.isInf_of_isNan h]
    · simp [fInvalid, FVal.isInf_of_isNan h]
    · cases h
  | mul =>
    rcases h with h | h | ⟨h, -⟩
    · simp [fInvalid, FVal.isInf_of_isNan h, FVal.isZero_of_isNan h]
    · simp [fInvalid, FVal.isInf_of_isNan h, FVal.isZero_of_isNan h]
    · cases h
  | fma =>
    have hlast : ((a.isInf || b.isInf) && !(FVal.mul a b).isNan && c.isInf && (FVal.add false (FVal.mul a b) c).isNan) = false := by
      rcases h with h | h | ⟨-, h⟩
      · simp [FVal.mul_isNan (.inl h)]
      · simp [FVal.mul_isNan (.inr h)]
      · simp [FVal.isInf_of_isNan h]
    simp only [fInvalid, hlast, Bool.or_false, Bool.or_eq_true, Bool.and_eq_true, true_and]
    exact or_comm

/-! ## One lane of arithmetic -/

section
variable {f : FFmt} {op : FOp} {rm a b c lf : Nat} {k : Keys} {va vb vc : FVal}

theorem fArith_nan (ha : f.val (f.flushIn k.fsi a) = va) (hb : f.val (f.flushIn k.fsi b) = vb) (hc : f.val (f.flushIn k.fsi c) = vc)
    (h : va.isNan = true ∨ vb.isNan = true ∨ (op = .fma ∧ vc.isNan = true)) : fArith f op rm k a b c lf =
      ⟨f.nan.getD 0, if fInvalid op va vb vc = true ∨ va.isSnan = true ∨ vb.isSnan = true ∨ (op = .fma ∧ vc.isSnan = true) then fNV else 0, lf⟩ := by
  have hnan : (va.isNan || vb.isNan || (op == .fma && vc.isNan) || fInvalid op va vb vc) = true := by
    simp only [Bool.or_eq_true, Bool.and_eq_true, beq_iff_eq]
    tauto
  simp only [fArith, ha, hb, hc, hnan, if_true, Bool.or_eq_true, Bool.and_eq_true, beq_iff_eq, or_assoc]

theorem fArith_invalid (ha : f.val (f.flushIn k.fsi a) = va) (hb : f.val (f.flushIn k.fsi b) = vb) (hc : f.val (f.flushIn k.fsi c) = vc)
    (h : fInvalid op va vb vc = true) : fArith f op rm k a b c lf = ⟨f.nan.getD 0, fNV, lf⟩ := by
  simp only [fArith, ha, hb, hc, h, Bool.or_true, Bool.true_or, if_true]

/-- A valid operation on numbers and infinities rounds the exact result. -/
theorem fArith_round (ha : f.val (f.flushIn k.fsi a) = va) (hb : f.val (f.flushIn k.fsi b) = vb) (hc : f.val (f.flushIn k.fsi c) = vc)
    (hna : va.isNan = false) (hnb : vb.isNan = false) (hnc : op = .fma → vc.isNan = false) (hinv : fInvalid op va vb vc = false) :
    fArith f op rm k a b c lf = roundTo f rm k.fso (f.overflow rm) (fExact op (rm == 3) va vb vc) lf := by
  have huse : (op == .fma && vc.isNan) = false := by
    by_cases hop : op = .fma
    · simp [hnc hop]
    · simp [hop]
  simp only [fArith, ha, hb, hc, hna, hnb, huse, hinv, Bool.or_false, Bool.false_eq_true, if_false]

end

/-! ## NaNs -/

theorem FFmt.flushOut_v (f : FFmt) (fso : Bool) (v fl : Nat) :
    (f.flushOut fso v fl).v = if fso && f.subnormal v then f.sign (bit v (f.w - 1)) 0 else v := by
  unfold FFmt.flushOut
  split <;> rfl

theorem bit_zero_orf_underflow {fl : Nat} (h : bit fl 0 = true) : bit (orf fl (orf fUF fNX)) 0 = true := by
  have hor : fl.lor 24 % 2 = fl % 2 := by
    have := Nat.or_mod_two_pow (a := fl) (b := 24) (n := 1)
    simpa using this
  simp only [bit, Nat.pow_zero, Nat.div_one, beq_iff_eq] at h ⊢
  exact hor.trans h

theorem bit_zero_invalid : bit fNV 0 = true := by decide

theorem FFmt.flushOut_invalid (f : FFmt) (fso : Bool) (v : Nat) : bit (f.flushOut fso v fNV).fl 0 = true := by
  unfold FFmt.flushOut
  split
  · dsimp only
    exact bit_zero_orf_underflow bit_zero_invalid
  · exact bit_zero_invalid

theorem nansAreCanonical : Says.NansAreCanonical := by
  intro f op rm a b c lf k m ff va vb vc nan snan beside other
  refine ⟨fun hnan => ?_, fun ha hb => ?_, fun ha hb => ?_, fun ha hb => ?_, fun hs => ?_⟩
  · have hlane := fArith_nan (rm := rm) (lf := lf) (f := ff) (k := k) (a := a) (b := b) (c := c) (op := op) rfl rfl rfl hnan
    have hflag : (fInvalid op va vb vc = true ∨ va.isSnan = true ∨ vb.isSnan = true ∨ (op = .fma ∧ vc.isSnan = true)) ↔ snan ∨ (op = .fma ∧ beside) := by
      rw [fInvalid_of_nan hnan]; exact or_comm
    exact ⟨fun h => hlane.trans (by rw [if_pos (hflag.mpr h)]), fun h => hlane.trans (by rw [if_neg (mt hflag.mp h)])⟩
  · have hboth : (va.isNan && vb.isNan) = true := by rw [ha, hb]; rfl
    show (fMinMax ff m k a b).v = _
    simp only [fMinMax]
    rw [if_pos hboth]
  · have hboth : ¬ (va.isNan && vb.isNan) = true := by rw [ha, hb]; decide
    simp only [fMinMax]
    rw [if_neg hboth, if_pos ha, FFmt.flushOut_v]
  · have hboth : ¬ (va.isNan && vb.isNan) = true := by rw [ha, Bool.false_and]; decide
    simp only [fMinMax]
    rw [if_neg hboth, if_neg (ne_true_of_eq_false ha), if_pos hb, FFmt.flushOut_v]
  · have hfl : (va.isSnan || vb.isSnan) = true := by rw [Bool.or_eq_true]; exact hs
    simp only [fMinMax]
    rw [if_pos hfl]
    split
    · exact bit_zero_invalid
    · split
      · exact FFmt.flushOut_invalid ..
      · split
        · exact FFmt.flushOut_invalid ..
        · exact FFmt.flushOut_invalid ..

/-! ## Arithmetic -/

/-- Finite values that round: zero with its sign, or rounded once. -/
theorem roundTo_gives {f : FFmt} (hf : f.Wf) {rm : Nat} (hrm : rm ≤ 4) {v : FVal} (hv : FVal.finite v = true) {zero : Bool}
    (hzero : FVal.number v = 0 → ∃ e, v = .fin zero 0 e) (fso : Bool) (ovf : Bool → Nat) (lf : Nat) :
    if FVal.number v = 0 then roundTo f rm fso ovf v lf = ⟨f.sign zero 0, 0, lf⟩
    else RoundsTo f rm fso (ovf (decide (FVal.number v < 0))) (FVal.number v) lf (roundTo f rm fso ovf v lf) := by
  split
  next h =>
    obtain ⟨e, rfl⟩ := hzero h
    simp [roundTo]
  next h =>
    obtain ⟨n, m, e, rfl⟩ := FVal.finite_iff.mp hv
    have hm := mt (number_eq_zero_iff n m e).mpr h
    have hneg : decide (FVal.number (.fin n m e) < 0) = n := by rw [Bool.eq_iff_iff, decide_eq_true_eq]; exact number_neg_iff hm
    rw [hneg]
    exact roundTo_roundsTo hf hrm hm

/-- The sign of a value. -/
def FVal.sign (v : FVal) : Bool := match v with | .fin n _ _ => n | .inf n => n | .nan _ => false

theorem number_sum (rd : Bool) {u v : FVal} (hu : FVal.finite u = true) (hv : FVal.finite v = true) :
    FVal.finite (FVal.add rd u v) = true ∧ FVal.number (FVal.add rd u v) = FVal.number u + FVal.number v ∧
    (FVal.number u + FVal.number v = 0 → FVal.add rd u v =
      .fin (if FVal.number u = 0 ∧ FVal.number v = 0 ∧ u.sign = v.sign then u.sign else rd) 0 0) := by
  obtain ⟨n1, m1, e1, rfl⟩ := FVal.finite_iff.mp hu
  obtain ⟨n2, m2, e2, rfl⟩ := FVal.finite_iff.mp hv
  refine ⟨FVal.finite_iff.mpr (finAdd_fin ..), number_finAdd .., fun h => ?_⟩
  simp only [number_eq_zero_iff]
  exact finAdd_zero h

theorem number_product {u v : FVal} (hu : FVal.finite u = true) (hv : FVal.finite v = true) :
    FVal.finite (FVal.mul u v) = true ∧ FVal.number (FVal.mul u v) = FVal.number u * FVal.number v ∧ (FVal.mul u v).sign = (u.sign != v.sign) ∧
    (FVal.number u * FVal.number v = 0 → ∃ e, FVal.mul u v = .fin (u.sign != v.sign) 0 e) := by
  obtain ⟨n1, m1, e1, rfl⟩ := FVal.finite_iff.mp hu
  obtain ⟨n2, m2, e2, rfl⟩ := FVal.finite_iff.mp hv
  refine ⟨rfl, number_mul .., rfl, fun h => ⟨e1 + e2, ?_⟩⟩
  rw [← number_mul] at h
  have hm : m1 * m2 = 0 := (number_eq_zero_iff ..).mp h
  simp [FVal.mul, FVal.sign, hm]

theorem finite_neg {v : FVal} (hv : FVal.finite v = true) : FVal.finite v.neg = true ∧ v.neg.sign = !v.sign := by
  obtain ⟨n, m, e, rfl⟩ := FVal.finite_iff.mp hv
  exact ⟨rfl, rfl⟩

theorem finite_kinds {v : FVal} (hv : FVal.finite v = true) : v.isNan = false ∧ v.isInf = false := by
  obtain ⟨n, m, e, rfl⟩ := FVal.finite_iff.mp hv
  exact ⟨rfl, rfl⟩

theorem fInvalid_finite {op : FOp} {u v w : FVal} (hu : FVal.finite u = true) (hv : FVal.finite v = true) : fInvalid op u v w = false := by
  obtain ⟨-, hu⟩ := finite_kinds hu
  obtain ⟨-, hv⟩ := finite_kinds hv
  cases op <;> simp [fInvalid, hu, hv]

/-- The overflow of a format with infinities (R61). -/
theorem ffFmt_overflow (fm : Fmt) (rm : Nat) (neg : Bool) : (ffFmt fm).overflow rm neg =
    if rm = 0 ∨ (rm = 2 ∧ neg = false) ∨ (rm = 3 ∧ neg = true) then (ffFmt fm).inf.getD 0 else (ffFmt fm).max := by
  cases fm <;> rfl

theorem ffFmt_infinity (fm : Fmt) : (ffFmt fm).inf.getD (ffFmt fm).max = (ffFmt fm).inf.getD 0 := by cases fm <;> rfl

section
variable {fm : Fmt} {op : FOp} {rm a b c lf : Nat} {k : Keys}

/-- An operation on numbers: zero with its sign, or the exact result rounded once. -/
theorem fArith_finite (hrm : rm ≤ 4) (ha : FVal.finite ((ffFmt fm).val ((ffFmt fm).flushIn k.fsi a)) = true)
    (hb : FVal.finite ((ffFmt fm).val ((ffFmt fm).flushIn k.fsi b)) = true)
    (hc : op = .fma → FVal.finite ((ffFmt fm).val ((ffFmt fm).flushIn k.fsi c)) = true) {v : FVal}
    (hv : fExact op (rm == 3) ((ffFmt fm).val ((ffFmt fm).flushIn k.fsi a)) ((ffFmt fm).val ((ffFmt fm).flushIn k.fsi b))
      ((ffFmt fm).val ((ffFmt fm).flushIn k.fsi c)) = v)
    (hfin : FVal.finite v = true) {x : ℚ} (hx : FVal.number v = x) {zero : Bool} (hzero : x = 0 → ∃ e, v = .fin zero 0 e) :
    if x = 0 then fArith (ffFmt fm) op rm k a b c lf = ⟨(ffFmt fm).sign zero 0, 0, lf⟩
    else RoundsTo (ffFmt fm) rm k.fso (if rm = 0 ∨ (rm = 2 ∧ decide (x < 0) = false) ∨ (rm = 3 ∧ decide (x < 0) = true)
        then (ffFmt fm).inf.getD 0 else (ffFmt fm).max) x lf (fArith (ffFmt fm) op rm k a b c lf) := by
  subst hx
  rw [fArith_round (f := ffFmt fm) rfl rfl rfl (finite_kinds ha).1 (finite_kinds hb).1 (fun hop => (finite_kinds (hc hop)).1) (fInvalid_finite ha hb), hv,
    ← ffFmt_overflow]
  exact roundTo_gives (ffFmt_wf fm) hrm hfin hzero ..

end

/-! ## Infinities in arithmetic -/

theorem FVal.add_inf (rd n : Bool) {v : FVal} (h : FVal.finite v = true ∨ v = .inf n) : FVal.add rd (.inf n) v = .inf n := by
  rcases h with h | rfl
  · obtain ⟨n2, m2, e2, rfl⟩ := FVal.finite_iff.mp h
    rfl
  · simp [FVal.add]

theorem not_isNan_of_add_inf {n : Bool} {v : FVal} (h : FVal.finite v = true ∨ v = .inf n) : v.isNan = false := by
  rcases h with h | rfl
  · exact (finite_kinds h).1
  · rfl

theorem FVal.mul_inf (n : Bool) {v : FVal} (hn : v.isNan = false) (hz : v.isZero = false) : FVal.mul (.inf n) v = .inf (n != v.sign) := by
  cases v with
  | nan _ => simp [FVal.isNan] at hn
  | inf _ => rfl
  | fin n2 m2 e2 =>
    have hm : m2 ≠ 0 := by simpa [FVal.isZero] using hz
    simp [FVal.mul, FVal.sign, hm]

section
variable {fm : Fmt} {op : FOp} {rm a b c lf : Nat} {k : Keys} {s : Bool} {vb vc : FVal}

/-- A valid operation on an infinity whose exact result is an infinity. -/
theorem fArith_inf {n : Bool} (ha : (ffFmt fm).val ((ffFmt fm).flushIn k.fsi a) = .inf s) (hb : (ffFmt fm).val ((ffFmt fm).flushIn k.fsi b) = vb)
    (hc : (ffFmt fm).val ((ffFmt fm).flushIn k.fsi c) = vc) (hnb : vb.isNan = false) (hnc : op = .fma → vc.isNan = false)
    (hinv : fInvalid op (.inf s) vb vc = false) (hv : fExact op (rm == 3) (.inf s) vb vc = .inf n) :
    fArith (ffFmt fm) op rm k a b c lf = ⟨(ffFmt fm).sign n ((ffFmt fm).inf.getD 0), 0, lf⟩ := by
  rw [fArith_round ha hb hc rfl hnb hnc hinv, hv, roundTo, ffFmt_infinity]

/-- An infinity and what does not cancel it, in FADD. -/
theorem fInvalid_add_inf (h : FVal.finite vb = true ∨ vb = .inf s) : fInvalid .add (.inf s) vb vc = false := by
  simp [fInvalid, FVal.add_inf false s h, FVal.isNan]

theorem fInvalid_add_opposite (s : Bool) (vc : FVal) : fInvalid .add (.inf s) (.inf (!s)) vc = true := by
  cases s <;> rfl

theorem FVal.neg_neg (v : FVal) : v.neg.neg = v := by cases v <;> simp [FVal.neg]

theorem FVal.isInf_neg (v : FVal) : v.neg.isInf = v.isInf := by cases v <;> rfl

/-- FSUB is valid where FADD of the negative is (R60). -/
theorem fInvalid_sub (v : FVal) (vb vc : FVal) : fInvalid .sub v vb vc = fInvalid .add v vb.neg vc := by
  simp [fInvalid, FVal.isInf_neg]

theorem fInvalid_mul_inf (hz : vb.isZero = false) : fInvalid .mul (.inf s) vb vc = false := by
  have hs : (FVal.inf s).isZero = false := rfl
  simp [fInvalid, hs, hz]

theorem fInvalid_fma_inf {p : Bool} (hz : vb.isZero = false) (hp : FVal.mul (.inf s) vb = .inf p) :
    fInvalid .fma (.inf s) vb vc = (vc.isInf && (FVal.add false (.inf p) vc).isNan) := by
  have hs : (FVal.inf s).isZero = false := rfl
  have hi : (FVal.inf s).isInf = true := rfl
  have hn : (FVal.inf p).isNan = false := rfl
  simp [fInvalid, hs, hi, hn, hz, hp]

end

theorem arithmeticRoundsOnce : Says.ArithmeticRoundsOnce := by
  intro fm op rm a b c lf k hrm f va vb vc sign ovf gives sum x y z
  have hsign : sign = FVal.sign := by funext v; cases v <;> rfl
  refine ⟨fun ha hb => ⟨?_, ?_, ?_, ?_⟩, fun ha => ?_⟩
  · rintro rfl
    obtain ⟨hfin, hnum, hzero⟩ := number_sum (rm == 3) ha hb
    rw [hsign]
    exact fArith_finite (op := .add) hrm ha hb (fun hop => by cases hop) rfl hfin hnum (fun h => ⟨0, hzero h⟩)
  · rintro rfl
    obtain ⟨hneg, hsneg⟩ := finite_neg hb
    obtain ⟨hfin, hnum, hzero⟩ := number_sum (rm == 3) ha hneg
    simp only [number_neg, ← sub_eq_add_neg, neg_eq_zero, hsneg] at hnum hzero
    rw [hsign]
    exact fArith_finite (op := .sub) hrm ha hb (fun hop => by cases hop) rfl hfin hnum (fun h => ⟨0, hzero h⟩)
  · rintro rfl
    obtain ⟨hfin, hnum, -, hzero⟩ := number_product ha hb
    rw [hsign]
    exact fArith_finite (op := .mul) hrm ha hb (fun hop => by cases hop) rfl hfin hnum hzero
  · rintro rfl hc
    obtain ⟨hpfin, hpnum, hpsign, -⟩ := number_product ha hb
    obtain ⟨hfin, hnum, hzero⟩ := number_sum (rm == 3) hpfin hc
    rw [hpnum, hpsign] at hzero
    rw [hpnum] at hnum
    rw [hsign]
    exact fArith_finite (op := .fma) hrm ha hb (fun _ => hc) rfl hfin hnum (fun h => ⟨0, hzero h⟩)
  · obtain ⟨s, hs⟩ := FVal.isInf_iff.mp ha
    intro n inf invalid
    have hn : n = s := by simp only [n]; rw [hs]
    refine ⟨?_, ?_, ?_, ?_⟩
    · rintro rfl
      rw [hn, hs]
      exact ⟨fun h => fArith_inf hs rfl rfl (not_isNan_of_add_inf h) (fun hop => by cases hop) (fInvalid_add_inf h) (FVal.add_inf _ s h),
        fun h => fArith_invalid hs h rfl (fInvalid_add_opposite ..)⟩
    · rintro rfl
      rw [hn, hs]
      refine ⟨fun h => ?_, fun h => fArith_invalid hs h rfl ((fInvalid_sub ..).trans (fInvalid_add_opposite ..))⟩
      have hneg : FVal.finite vb.neg = true ∨ vb.neg = .inf s :=
        h.imp (fun h => (finite_neg h).1) (fun h => by rw [h, FVal.neg_neg])
      refine fArith_inf hs rfl rfl ?_ (fun hop => by cases hop) ((fInvalid_sub ..).trans (fInvalid_add_inf hneg)) (FVal.add_inf _ s hneg)
      rcases h with h | h
      · exact (finite_kinds h).1
      · show FVal.isNan vb = false
        rw [h]; rfl
    · rintro rfl
      rw [hn, hsign]
      refine ⟨fun hnan hz => fArith_inf hs rfl rfl hnan (fun hop => by cases hop) (fInvalid_mul_inf hz) (FVal.mul_inf s hnan hz), fun hz => ?_⟩
      refine fArith_invalid hs rfl rfl ?_
      show fInvalid .mul (.inf s) vb vc = true
      simp [fInvalid, FVal.isInf, hz]
    · rintro rfl hnan hz p
      have hp := FVal.mul_inf s hnan hz
      have hinv := fun w => fInvalid_fma_inf (vc := w) hz hp
      rw [hn, hsign]
      refine ⟨fun h => ?_, fun h => ?_⟩
      · have hadd := fun rd => FVal.add_inf rd (s != vb.sign) (v := vc) (by simpa only [p, hn, hsign] using h)
        have hvc : vc.isNan = false := by
          rcases h with h | h
          · exact (finite_kinds h).1
          · rw [h]; rfl
        refine fArith_inf hs rfl rfl hnan (fun _ => hvc) ((hinv vc).trans ?_) ?_
        · rw [hadd]; simp [FVal.isNan]
        · show FVal.add (rm == 3) (FVal.mul (.inf s) vb) vc = _
          rw [hp, hadd]
      · refine fArith_invalid hs rfl h ?_
        rw [hinv]
        simp only [p, hn, hsign]
        exact fInvalid_add_opposite (s != vb.sign) vc

end Sys2Proof.Machine
end

section
/-!
SUPPORT. The sums of memory, comparison, minimum and maximum, and the special functions where R71 fixes the result (R65, R67, R71, R137).
-/

namespace Sys2Proof.Machine

open Sys2Proof

/-! ## The sums of memory (R137) -/

theorem flushIn_off (f : FFmt) (v : Nat) : f.flushIn false v = v := by simp [FFmt.flushIn]

/-- The sign of a value that is no NaN is the sign bit of its pattern. -/
theorem FFmt.sign_val (f : FFmt) {v : Nat} (h : (f.val v).isNan = false) : (f.val v).sign = bit v (f.w - 1) := by
  unfold FFmt.val at h ⊢
  dsimp only at h ⊢
  split
  · rfl
  next hinf =>
    rw [if_neg hinf] at h
    split
    next hmax =>
      rw [if_pos hmax] at h
      exact absurd h (by simp [FVal.isNan])
    · split <;> rfl

/-- Only the stochastic mode draws. -/
theorem RoundsTo.lf_eq {f : FFmt} {rm : Nat} {fso : Bool} {ovf : Nat} {x : ℚ} {lf : Nat} {res : FRes} (h : RoundsTo f rm fso ovf x lf res)
    (hrm : rm ≠ 4) : res.lf = lf := by
  obtain ⟨r, ⟨hfit, hnot⟩, -⟩ := h
  by_cases hx : Fits (f.m + 1) f.qmin x
  · exact (hfit hx).2
  · rw [(hnot hx).1, if_neg hrm]

theorem RoundsTo.drop_lf {f : FFmt} {rm : Nat} {fso : Bool} {ovf : Nat} {x : ℚ} {lf : Nat} {res : FRes} (h : RoundsTo f rm fso ovf x lf res)
    (hrm : rm ≠ 4) : RoundsTo f rm fso ovf x lf ⟨res.v, res.fl, lf⟩ := by
  have hlf := h.lf_eq hrm
  obtain ⟨v, fl, l⟩ := res
  cases hlf
  exact h

theorem number_eq_zero_iff_isZero {v : FVal} (h : FVal.finite v = true) : FVal.number v = 0 ↔ v.isZero = true := by
  obtain ⟨n, m, e, rfl⟩ := FVal.finite_iff.mp h
  rw [number_eq_zero_iff]
  simp [FVal.isZero]

/-- The sign of a sum of zero that is rounded to nearest: negative only for two negative zeros. -/
theorem zeroSum_sign {x y : ℚ} {n1 n2 : Bool} (h : x + y = 0) :
    (if x = 0 ∧ y = 0 ∧ n1 = n2 then n1 else false) = (decide (x = 0) && n1 && n2) := by
  by_cases hx : x = 0
  · have hy : y = 0 := by linarith
    cases n1 <;> cases n2 <;> simp [hx, hy]
  · simp [hx]

/-- The sum that memory makes of two patterns, in a format of FADD. -/
theorem fAddRN_eq (fm : Fmt) (a b : Nat) :
    let f := ffFmt fm
    let va := f.val a
    let vb := f.val b
    let x := FVal.number va + FVal.number vb
    (FVal.finite va = true → FVal.finite vb = true → x ≠ 0 → ∃ fl, RoundsTo f 0 false (f.inf.getD 0) x 0 ⟨fAddRN f a b, fl, 0⟩) ∧
    (FVal.finite va = true → FVal.finite vb = true → x = 0 → fAddRN f a b = f.sign (va.isZero && bit a (f.w - 1) && bit b (f.w - 1)) 0) ∧
    (va.isNan = true ∨ vb.isNan = true → fAddRN f a b = f.nan.getD 0) ∧
    (va.isInf = true → FVal.finite vb = true ∨ vb = va → fAddRN f a b = f.sign (bit a (f.w - 1)) (f.inf.getD 0)) ∧
    (va.isInf = true → vb = va.neg → fAddRN f a b = f.nan.getD 0) := by
  intro f va vb x
  have hlane := arithmeticRoundsOnce fm .add 0 a b 0 0 noKeys (by omega)
  have hoff : ∀ v, f.flushIn noKeys.fsi v = v := fun v => flushIn_off f v
  simp only [f, va, vb, x] at hoff ⊢
  simp only [hoff] at hlane
  obtain ⟨hfin, hinf⟩ := hlane
  refine ⟨fun ha hb hx => ?_, fun ha hb hx => ?_, fun h => ?_, fun ha hb => ?_, fun ha hb => ?_⟩
  · have h := (hfin ha hb).1 trivial
    rw [if_neg hx, if_pos (.inl trivial)] at h
    exact ⟨_, h.drop_lf (by decide)⟩
  · have h := (hfin ha hb).1 trivial
    rw [if_pos hx] at h
    have hsigns : ∀ {v}, FVal.finite ((ffFmt fm).val v) = true → ((ffFmt fm).val v).sign = bit v ((ffFmt fm).w - 1) := fun hv =>
      (ffFmt fm).sign_val (finite_kinds hv).1
    have hzero : decide (FVal.number ((ffFmt fm).val a) = 0) = ((ffFmt fm).val a).isZero := by
      rw [Bool.eq_iff_iff, decide_eq_true_eq]; exact number_eq_zero_iff_isZero ha
    rw [← hzero, ← hsigns ha, ← hsigns hb, ← zeroSum_sign hx]
    exact congrArg FRes.v h
  · have h := fArith_nan (f := ffFmt fm) (op := .add) (rm := 0) (lf := 0) (k := noKeys) (a := a) (b := b) (c := 0) (congrArg _ (hoff a))
      (congrArg _ (hoff b)) rfl (h.imp_right .inl)
    exact congrArg FRes.v h
  · have h := ((hinf ha).1 trivial).1 hb
    obtain ⟨n, hn⟩ := FVal.isInf_iff.mp ha
    have hbit := (ffFmt fm).sign_val (v := a) (by rw [hn]; rfl)
    rw [hn] at h hbit
    rw [← hbit]
    exact congrArg FRes.v h
  · exact congrArg FRes.v (((hinf ha).1 trivial).2 hb)

theorem memorySumsRoundOnce : Says.MemorySumsRoundOnce := fun old b _ => ⟨fAddRN_eq .f32 old b, fAddRN_eq .bf16 old b⟩

/-! ## Comparison (R67) -/

theorem FVal.isSnan_of_not_isNan {v : FVal} (h : v.isNan = false) : v.isSnan = false := by
  cases v with
  | nan _ => simp [FVal.isNan] at h
  | inf _ => rfl
  | fin _ _ _ => rfl

/-- What FCMP gives for operands that are no NaN, in terms of their order. -/
theorem fCompare_ordered {f : FFmt} {cc a b : Nat} {k : Keys} {va vb : FVal} (hcc : cc < 6) (ha : f.val (f.flushIn k.fsi a) = va)
    (hb : f.val (f.flushIn k.fsi b) = vb) (hna : va.isNan = false) (hnb : vb.isNan = false) : fCompare f cc k a b =
      (nth [!va.lt vb && !vb.lt va, !(!va.lt vb && !vb.lt va), va.lt vb, va.lt vb || (!va.lt vb && !vb.lt va), vb.lt va,
        vb.lt va || (!va.lt vb && !vb.lt va)] cc false, 0) := by
  have hfl : ((va.isSnan || vb.isSnan) || ((va.isNan || vb.isNan) && decide (2 ≤ cc))) = false := by
    simp [hna, hnb, FVal.isSnan_of_not_isNan]
  have heqv : va.eqv vb = (!va.lt vb && !vb.lt va) := by simp [FVal.eqv, hna, hnb]
  simp only [fCompare, ha, hb, hfl, heqv, Bool.false_eq_true, if_false]
  interval_cases cc <;> rfl

theorem lt_of_isNan {u v : FVal} (h : u.isNan = true ∨ v.isNan = true) : u.lt v = false ∧ v.lt u = false ∧ u.eqv v = false := by
  rcases h with h | h
  · cases u with
    | nan _ => cases v <;> exact ⟨rfl, rfl, rfl⟩
    | inf _ => simp [FVal.isNan] at h
    | fin _ _ _ => simp [FVal.isNan] at h
  · cases v with
    | nan _ => cases u <;> exact ⟨rfl, rfl, rfl⟩
    | inf _ => simp [FVal.isNan] at h
    | fin _ _ _ => simp [FVal.isNan] at h

theorem fCompare_nan {f : FFmt} {cc a b : Nat} {k : Keys} {va vb : FVal} (hcc : cc < 6) (ha : f.val (f.flushIn k.fsi a) = va)
    (hb : f.val (f.flushIn k.fsi b) = vb) (h : va.isNan = true ∨ vb.isNan = true) :
    fCompare f cc k a b = (decide (cc = 1), if cc < 2 ∧ va.isSnan = false ∧ vb.isSnan = false then 0 else fNV) := by
  obtain ⟨hlt, hgt, heqv⟩ := lt_of_isNan h
  have hun : (va.isNan || vb.isNan) = true := by rw [Bool.or_eq_true]; exact h
  simp only [fCompare, ha, hb, hlt, hgt, heqv, hun]
  refine Prod.ext ?_ ?_
  · interval_cases cc <;> rfl
  · by_cases h2 : cc < 2 <;> cases va.isSnan <;> cases vb.isSnan <;> simp [h2, Nat.le_of_not_lt]

theorem lt_fin_eq {u v : FVal} (hu : FVal.finite u = true) (hv : FVal.finite v = true) : u.lt v = decide (FVal.number u < FVal.number v) := by
  obtain ⟨n1, m1, e1, rfl⟩ := FVal.finite_iff.mp hu
  obtain ⟨n2, m2, e2, rfl⟩ := FVal.finite_iff.mp hv
  rw [Bool.eq_iff_iff, decide_eq_true_eq]
  exact lt_fin_iff ..

/-- Numbers neither of which is the smaller are equal. -/
theorem decide_eq_of_order (x y : ℚ) : (!decide (x < y) && !decide (y < x)) = decide (x = y) := by
  rcases lt_trichotomy x y with h | h | h
  · simp [h, h.ne]
  · simp [h]
  · simp [h, h.ne']

theorem comparisonsOrderNumbers : Says.ComparisonsOrderNumbers := by
  intro g cc a b k hg hcc f va vb x y is
  have hord := fun hna hnb => fCompare_ordered (f := f) (k := k) (a := a) (b := b) (va := va) (vb := vb) hcc rfl rfl hna hnb
  refine ⟨fun ha hb => ?_, fun n ha hb => ?_, fun n ha hb => ?_, fun m n ha hb => ?_, fun h => fCompare_nan hcc rfl rfl h⟩
  · have h := hord (finite_kinds ha).1 (finite_kinds hb).1
    rw [lt_fin_eq ha hb, lt_fin_eq hb ha, decide_eq_of_order] at h
    exact h
  · have h := hord (by rw [ha]; rfl) (finite_kinds hb).1
    obtain ⟨n2, m2, e2, hb⟩ := FVal.finite_iff.mp hb
    rw [ha, hb] at h
    cases n <;> exact h
  · have h := hord (finite_kinds ha).1 (by rw [hb]; rfl)
    obtain ⟨n2, m2, e2, ha⟩ := FVal.finite_iff.mp ha
    rw [ha, hb] at h
    cases n <;> exact h
  · have h := hord (by rw [ha]; rfl) (by rw [hb]; rfl)
    rw [ha, hb] at h
    cases m <;> cases n <;> exact h

/-! ## Minimum and maximum (R65) -/

/-- FMIN and FMAX of operands that are no NaN choose by order. -/
theorem fMinMax_ordered {f : FFmt} {a b : Nat} {k : Keys} (m : Bool) (hna : (f.val (f.flushIn k.fsi a)).isNan = false)
    (hnb : (f.val (f.flushIn k.fsi b)).isNan = false) : fMinMax f m k a b =
      f.flushOut k.fso (f.flushIn k.fsi (if fBelow (f.val (f.flushIn k.fsi a)) (f.val (f.flushIn k.fsi b)) != m then a else b)) 0 := by
  simp only [fMinMax, hna, hnb, FVal.isSnan_of_not_isNan hna, FVal.isSnan_of_not_isNan hnb, Bool.or_self, Bool.and_self, Bool.false_eq_true, if_false]
  split <;> rfl

theorem flushOut_plain (f : FFmt) (fso : Bool) (y : Nat) :
    f.flushOut fso y 0 = if fso && f.subnormal y then ⟨f.sign (bit y (f.w - 1)) 0, fUF + fNX, 0⟩ else ⟨y, 0, 0⟩ := rfl

theorem fBelow_of_number {u v : FVal} (hu : FVal.finite u = true) (hv : FVal.finite v = true) :
    (FVal.number u < FVal.number v → fBelow u v = true) ∧ (FVal.number v < FVal.number u → fBelow u v = false) ∧
    (u.isZero = true ∧ v.isZero = true → fBelow u v = (u.sign && !v.sign)) := by
  have hlt := lt_fin_eq hu hv
  have hzu := number_eq_zero_iff_isZero hu
  have hzv := number_eq_zero_iff_isZero hv
  obtain ⟨n1, m1, e1, rfl⟩ := FVal.finite_iff.mp hu
  obtain ⟨n2, m2, e2, rfl⟩ := FVal.finite_iff.mp hv
  refine ⟨fun h => ?_, fun h => ?_, fun ⟨h1, h2⟩ => ?_⟩
  · rw [fBelow, hlt, decide_eq_true h, Bool.true_or]
  · have hne : ¬ (m1 = 0 ∧ m2 = 0) := fun ⟨h1, h2⟩ => by
      rw [(number_eq_zero_iff ..).mpr h1, (number_eq_zero_iff ..).mpr h2] at h
      exact lt_irrefl _ h
    rw [fBelow, hlt, decide_eq_false (not_lt.mpr h.le), Bool.false_or]
    by_cases hm1 : m1 = 0
    · have hm2 : m2 ≠ 0 := fun hm2 => hne ⟨hm1, hm2⟩
      simp [hm2]
    · simp [hm1]
  · rw [fBelow, hlt, hzu.mpr h1, hzv.mpr h2]
    have hm1 : m1 = 0 := by simpa [FVal.isZero] using h1
    have hm2 : m2 = 0 := by simpa [FVal.isZero] using h2
    simp [hm1, hm2, FVal.sign]

/-- An infinity beyond all that are not itself. -/
theorem fBelow_inf {u v : FVal} (hu : u.isNan = false) (hv : v.isNan = false) (hne : u ≠ v) :
    (u = .inf true ∨ v = .inf false → fBelow u v = true) ∧ (u = .inf false ∨ v = .inf true → fBelow u v = false) := by
  cases u with
  | nan _ => simp [FVal.isNan] at hu
  | inf n =>
    cases v with
    | nan _ => simp [FVal.isNan] at hv
    | inf n2 => cases n <;> cases n2 <;> simp_all [fBelow, FVal.lt]
    | fin n2 m2 e2 => cases n <;> simp [fBelow, FVal.lt]
  | fin n m e =>
    cases v with
    | nan _ => simp [FVal.isNan] at hv
    | inf n2 => cases n2 <;> simp [fBelow, FVal.lt]
    | fin n2 m2 e2 => simp

theorem minimumAndMaximum : Says.MinimumAndMaximum := by
  intro fm a b k f va vb sign is ordered zeros
  have hsign : sign = FVal.sign := by funext v; cases v <;> rfl
  have hlane : va.isNan = false → vb.isNan = false → ∀ m, is m (if fBelow va vb != m then a else b) := fun hna hnb m => fMinMax_ordered m hna hnb
  have hbelow : va.isNan = false → vb.isNan = false → fBelow va vb = true → ordered a b := fun hna hnb h => by
    have := hlane hna hnb
    rw [h] at this
    exact ⟨this false, this true⟩
  have habove : va.isNan = false → vb.isNan = false → fBelow va vb = false → ordered b a := fun hna hnb h => by
    have := hlane hna hnb
    rw [h] at this
    exact ⟨this false, this true⟩
  refine ⟨fun ha hb => ?_, fun hna hnb hne => ?_, fun hna heq m => ?_⟩
  · obtain ⟨hlt, hgt, hzero⟩ := fBelow_of_number ha hb
    have hna := (finite_kinds ha).1
    have hnb := (finite_kinds hb).1
    rw [hsign]
    refine ⟨fun h => hbelow hna hnb (hlt h), fun h => habove hna hnb (hgt h), fun hz h1 h2 => hbelow hna hnb ?_, fun hz h1 h2 => habove hna hnb ?_⟩
    · rw [hzero hz, h1, h2]; rfl
    · rw [hzero hz, h1]; rfl
  · obtain ⟨h1, h2⟩ := fBelow_inf hna hnb hne
    exact ⟨fun h => hbelow hna hnb (h1 h), fun h => habove hna hnb (h2 h)⟩
  · have h := hlane hna (heq ▸ hna) m
    split at h
    · exact .inl h
    · exact .inr h

/-! ## The special functions where R71 fixes the result -/

theorem specialFunctionValues : Says.SpecialFunctionValues := by
  intro g x k hg f v gives inf nan one
  refine ⟨fun fn sig hfn h => ?_, fun n e h => ?_, fun h => ?_, fun h => ?_, fun m e h hm => ?_⟩
  all_goals simp only [gives, sfuLane, show f.val (f.flushIn k.fsi x) = _ from h]
  · rfl
  · exact ⟨rfl, rfl, rfl, rfl⟩
  · exact ⟨rfl, rfl, rfl, rfl, rfl, rfl, rfl, rfl⟩
  · exact ⟨rfl, rfl, rfl, rfl, rfl, rfl, rfl, rfl⟩
  · simp only [if_neg hm]
    exact ⟨rfl, rfl, rfl⟩

end Sys2Proof.Machine
end

section
/-!
SUPPORT. Conversions round once (R68).
-/

namespace Sys2Proof.Machine

open Sys2Proof

/-! ## Magnitudes within range -/

theorem two_pow_magnitude {f : FFmt} {n : Int} (h : f.expo f.max + bitLen (f.mant f.max) ≤ n) (h0 : f.mant f.max ≠ 0) : f.magnitude f.max < 2 ^ n :=
  (mul_zpow_lt_iff h0 ..).mpr h

/-- The numbers of every format are below 2^512. -/
theorem ffOf_magnitude_max (code : Nat) : (ffOf code).magnitude (ffOf code).max < 2 ^ (512 : Int) := by
  unfold ffOf
  split <;> exact two_pow_magnitude (by decide) (by decide)

theorem FFmt.val_infinity {f : FFmt} {i : Nat} (h : f.inf = some i) (hi : i < 2 ^ (f.w - 1)) (n : Bool) : f.val (f.sign n i) = .inf n := by
  unfold FFmt.val
  dsimp only
  rw [FFmt.Wf.sign_mod hi, FFmt.Wf.bit_sign hi, if_pos h.symm]

/-- A pattern of a number has a finite magnitude. -/
theorem FFmt.le_max_of_finite {f : FFmt} {v : Nat} (h : FVal.finite (f.val v) = true) : v % 2 ^ (f.w - 1) ≤ f.max := by
  by_contra hgt
  unfold FFmt.val at h
  dsimp only at h
  split at h
  · simp [FVal.finite] at h
  · rw [if_pos (Nat.not_le.mp hgt)] at h
    simp [FVal.finite] at h

theorem FFmt.Wf.abs_number_le {f : FFmt} (hf : f.Wf) {v : Nat} (h : FVal.finite (f.val v) = true) : |FVal.number (f.val v)| ≤ f.magnitude f.max := by
  have hle := FFmt.le_max_of_finite h
  rw [hf.val_of_le hle, abs_number_fin]
  exact f.magnitude_strictMono.monotone hle

/-! ## Rounding to an integer -/

theorem roundInt_eq {rm : Nat} (hrm : rm ≤ 4) (neg : Bool) (m : Nat) (e : Int) (lf : Nat) : roundInt rm neg m e lf =
    let c := cellQuant rm neg (floorAt m e 0) (fracAt (m * 2 ^ e) (floorAt m e 0) 0) lf
    (if neg then -(c.z : Int) else c.z, c.ine, c.lf) := by
  rw [fracAt_floorAt]
  unfold roundInt floorAt
  by_cases he : 0 ≤ e
  · simp only [if_pos he, cellQuant_exact, sub_zero]
  · simp only [if_neg he, quant_eq hrm, zero_sub]

theorem signOf_int (neg : Bool) (z : Nat) : (((if neg then -(z : Int) else z : Int)) : ℚ) = signOf neg * z := by cases neg <;> simp

/-- A number is rounded to an integer once, and the flag tells whether it was one (R238 to R240). -/
theorem roundInt_rounded {rm : Nat} (hrm : rm ≤ 4) {neg : Bool} {m : Nat} {e : Int} (hsmall : (m : ℚ) * 2 ^ e < 2 ^ (512 : Int)) (lf : Nat) :
    ∃ (j : Int) (lf' : Nat), Rounded 512 0 rm lf (FVal.number (.fin neg m e)) j lf' ∧
      roundInt rm neg m e lf = (j, decide ((j : ℚ) ≠ FVal.number (.fin neg m e)), lf') := by
  have hcell : Cell 512 0 ((m : ℚ) * 2 ^ e) (floorAt m e 0) 0 := Cell.at_floor (by omega) (by simpa using hsmall) le_rfl (.inl rfl)
  rw [roundInt_eq hrm]
  refine ⟨_, _, ?_, Prod.ext rfl (Prod.ext ?_ rfl)⟩
  rotate_left
  · dsimp only
    simp only [signOf_int, number_fin, ne_eq, mul_right_inj' (signOf_ne_zero neg)]
    have hcases := cellQuant_cases hcell rm neg lf
    simp only [zpow_zero, mul_one] at hcases
    rcases hcases with ⟨hine, heq⟩ | ⟨hine, -, hlt⟩ | ⟨hine, -, hlt⟩
    · rw [hine, heq]; simp
    · rw [hine]; exact (decide_eq_true hlt.ne').symm
    · rw [hine]; exact (decide_eq_true hlt.ne).symm
  · rw [signOf_int, number_fin]
    rcases Nat.eq_zero_or_pos m with rfl | hm
    · have hz : floorAt 0 e 0 = 0 := by unfold floorAt; split <;> simp
      have hfrac : fracAt (((0 : Nat) : ℚ) * 2 ^ e) 0 0 = 0 := by simp [fracAt]
      rw [hz, cellQuant_exact hfrac]
      refine ⟨fun _ => ⟨by simp, rfl⟩, fun h => absurd ⟨0, 0, by norm_num, le_rfl, by simp⟩ h⟩
    · have ht : (0 : ℚ) < m * 2 ^ e := mul_pos (by exact_mod_cast hm) (two_zpow_pos e)
      have h := rounded_cell hrm (by omega) ht hcell neg lf
      rw [zpow_zero, mul_one] at h
      exact h

/-! ## The source of a conversion -/

theorem number_int (i : Int) : FVal.number (.fin (decide (i < 0)) i.natAbs 0) = i := by
  rw [number_fin, zpow_zero, mul_one]
  rcases lt_or_ge i 0 with h | h
  · have : ((i.natAbs : Int) : ℚ) = ((-i : Int) : ℚ) := by rw [Int.natCast_natAbs, abs_of_neg h]
    simp only [h, decide_true, signOf_true]
    rw [← Int.cast_natCast, this]
    push_cast
    ring
  · have : ((i.natAbs : Int) : ℚ) = (i : ℚ) := by rw [Int.natCast_natAbs, abs_of_nonneg h]
    simp only [not_lt.mpr h, decide_false, signOf_false, one_mul]
    rw [← Int.cast_natCast, this]

theorem cvtSource_int (k : Keys) {src v : Nat} (hsrc : src < 8) (hv : v < 2 ^ laneWidth src) :
    cvtSource k src v = (.fin (decide (laneVal src 0 (w64 v) < 0)) (laneVal src 0 (w64 v)).natAbs 0, 0) := by
  rw [laneVal_zero hv, cvtSource, if_neg (by omega), if_pos hsrc]

theorem cvtSource_float (k : Keys) {src : Nat} (h8 : 8 ≤ src) (h13 : src ≤ 13) (v : Nat) :
    cvtSource k src v = ((ffOf src).val ((ffOf src).flushIn k.fsi v), 0) := by
  rw [cvtSource, if_neg (by omega), if_neg (by omega)]

theorem orf_zero (fl : Nat) : orf 0 fl = fl := Nat.zero_or fl

/-- A conversion by its destination. -/
theorem cvtLane_of_source {rm : Nat} {k : Keys} {dst src v lf : Nat} {u : FVal} (h : cvtSource k src v = (u, 0)) : cvtLane rm k dst src v lf =
    if dst < 8 then cvtInt rm k src dst u lf else if dst = 14 then cvtTernary rm u lf else cvtFloat rm k dst u lf := by
  simp only [cvtLane, h, orf_zero]

theorem laneVal_small {src v : Nat} (hv : v < 2 ^ laneWidth src) : (laneVal src 0 (w64 v)).natAbs ≤ 2 ^ 64 := by
  have hw : laneWidth src ≤ 64 := by unfold laneWidth; split <;> omega
  have hpow : 2 ^ laneWidth src ≤ 2 ^ 64 := Nat.pow_le_pow_right (by omega) hw
  refine le_trans ?_ hpow
  rw [laneVal_zero hv]
  split
  · unfold signed
    rw [Nat.mod_eq_of_lt hv]
    split <;> omega
  · rw [Int.natAbs_natCast]; exact hv.le

/-- What a conversion reads as a number is a finite value, below 2^512. -/
theorem cvtSource_number {k : Keys} {src v : Nat} (hv : v < 2 ^ laneWidth src) {x : ℚ}
    (h : (src < 8 ∧ x = laneVal src 0 (w64 v)) ∨ ((8 ≤ src ∧ src ≤ 13) ∧ FVal.finite ((ffOf src).val ((ffOf src).flushIn k.fsi v)) = true ∧
      x = FVal.number ((ffOf src).val ((ffOf src).flushIn k.fsi v)))) :
    ∃ n m e, cvtSource k src v = (.fin n m e, 0) ∧ x = FVal.number (.fin n m e) ∧ (m : ℚ) * 2 ^ e < 2 ^ (512 : Int) := by
  rcases h with ⟨hsrc, rfl⟩ | ⟨⟨h8, h13⟩, hfin, rfl⟩
  · refine ⟨_, _, _, cvtSource_int k hsrc hv, (number_int _).symm, ?_⟩
    rw [zpow_zero, mul_one]
    calc (((laneVal src 0 (w64 v)).natAbs : Nat) : ℚ) ≤ ((2 ^ 64 : Nat) : ℚ) := by exact_mod_cast laneVal_small hv
      _ = 2 ^ (64 : Int) := by norm_cast
      _ < 2 ^ (512 : Int) := two_zpow_lt.mpr (by omega)
  · have hle := (ffOf_wf src).abs_number_le hfin
    obtain ⟨n, m, e, heq⟩ := FVal.finite_iff.mp hfin
    refine ⟨n, m, e, (cvtSource_float k h8 h13 v).trans (by rw [heq]), by rw [heq], ?_⟩
    rw [heq, abs_number_fin] at hle
    exact lt_of_le_of_lt hle (ffOf_magnitude_max src)

/-! ## To an integer -/

theorem intMin_le (dst : Nat) : intMin dst ≤ 0 ∧ 1 ≤ intMax dst := by
  have hw : 2 ≤ laneWidth dst := by unfold laneWidth; split <;> omega
  have h1 : 2 ^ 1 ≤ 2 ^ (laneWidth dst - 1) := Nat.pow_le_pow_right (by omega) (by omega)
  have h2 : 2 ^ 2 ≤ 2 ^ laneWidth dst := Nat.pow_le_pow_right (by omega) hw
  unfold intMin intMax
  split <;> constructor <;> omega

/-- The bounds of an integer type. -/
def intClip (dst : Nat) (i : Int) : Int := max (intMin dst) (min (intMax dst) i)

theorem intClip_eq_iff (dst : Nat) (i : Int) : intClip dst i = i ↔ intMin dst ≤ i ∧ i ≤ intMax dst := by
  have := intMin_le dst
  unfold intClip
  constructor
  · intro h
    rw [← h]
    exact ⟨le_max_left _ _, max_le (by omega) (min_le_left _ _)⟩
  · rintro ⟨h1, h2⟩
    rw [min_eq_right h2, max_eq_right h1]

theorem satInt_fst (dst : Nat) (i : Int) : (satInt dst i).1 = intClip dst i := congrArg Prod.fst (satInt_eq dst i)

theorem roundInt_int (rm : Nat) (neg : Bool) (m lf : Nat) : roundInt rm neg m 0 lf = (if neg then -(m : Int) else m, false, lf) := by
  simp [roundInt]

theorem sign_natAbs (i : Int) : (if decide (i < 0) = true then -(i.natAbs : Int) else i.natAbs) = i := by
  by_cases h : i < 0
  · rw [if_pos (decide_eq_true h)]; omega
  · rw [if_neg (by simpa using h)]; omega

/-- An integer to an integer type. -/
theorem cvtInt_int (rm : Nat) (k : Keys) {src : Nat} (dst : Nat) (i : Int) (lf : Nat) (hsrc : src < 8) :
    cvtInt rm k src dst (.fin (decide (i < 0)) i.natAbs 0) lf =
      if intClip dst i = i then ⟨wrapInt (laneWidth dst) i, 0, lf⟩
      else if k.nsat then ⟨wrapInt (laneWidth dst) (intClip dst i), fSAT, lf⟩ else ⟨wrapInt (laneWidth dst) i, 0, lf⟩ := by
  simp only [cvtInt, roundInt_int, sign_natAbs, intClip_eq_iff, satInt_fst, if_neg (show ¬ src = 14 by omega), if_pos hsrc, Bool.false_eq_true, if_false]

/-- A floating number to an integer type: rounded, then saturated. -/
theorem cvtInt_float {rm : Nat} (hrm : rm ≤ 4) (k : Keys) {src : Nat} (dst : Nat) {n : Bool} {m : Nat} {e : Int} (lf : Nat) (h8 : 8 ≤ src) (h13 : src ≤ 13)
    (hsmall : (m : ℚ) * 2 ^ e < 2 ^ (512 : Int)) :
    ∃ j : Int, Rounded 512 0 rm lf (FVal.number (.fin n m e)) j (cvtInt rm k src dst (.fin n m e) lf).lf ∧
      (cvtInt rm k src dst (.fin n m e) lf).v = wrapInt (laneWidth dst) (intClip dst j) ∧
      (cvtInt rm k src dst (.fin n m e) lf).fl =
        if intClip dst j ≠ j then fNV else if (j : ℚ) ≠ FVal.number (.fin n m e) then fNX else 0 := by
  obtain ⟨j, lf', hround, heq⟩ := roundInt_rounded hrm (neg := n) hsmall lf
  refine ⟨j, ?_⟩
  simp only [cvtInt, heq, ← intClip_eq_iff, satInt_fst, if_neg (show ¬ src = 14 by omega), if_neg (show ¬ src < 8 by omega), decide_eq_true_eq]
  by_cases hc : intClip dst j = j
  · rw [if_pos hc, if_neg (not_not.mpr hc), hc]
    exact ⟨hround, rfl, rfl⟩
  · rw [if_neg hc, if_pos hc]
    exact ⟨hround, rfl, rfl⟩

/-! ## To ternary -/

theorem cvtTernary_fin {rm : Nat} (hrm : rm ≤ 4) {n : Bool} {m : Nat} {e : Int} (lf : Nat) (hsmall : (m : ℚ) * 2 ^ e < 2 ^ (512 : Int)) :
    ∃ j : Int, Rounded 512 0 rm lf (FVal.number (.fin n m e)) j (cvtTernary rm (.fin n m e) lf).lf ∧
      (cvtTernary rm (.fin n m e) lf).v = (if 0 < j then 1 else if j < 0 then 3 else 0) ∧
      (cvtTernary rm (.fin n m e) lf).fl = if j < -1 ∨ 1 < j then fSAT else 0 := by
  obtain ⟨j, lf', hround, heq⟩ := roundInt_rounded hrm (neg := n) hsmall lf
  refine ⟨j, ?_⟩
  simp only [cvtTernary, heq]
  by_cases hlow : j < -1
  · rw [if_pos hlow]
    refine ⟨hround, ?_, ?_⟩
    · rw [if_neg (by omega), if_pos (by omega)]
    · rw [if_pos (.inl hlow)]
  · rw [if_neg hlow]
    by_cases hhigh : 1 < j
    · rw [if_pos hhigh]
      refine ⟨hround, ?_, ?_⟩
      · rw [if_pos (by omega)]
      · rw [if_pos (.inr hhigh)]
    · rw [if_neg hhigh]
      refine ⟨hround, ?_, ?_⟩
      · obtain rfl | rfl | rfl : j = -1 ∨ j = 0 ∨ j = 1 := by omega
        · rfl
        · rfl
        · rfl
      · exact (if_neg (by omega)).symm

/-! ## To a floating type -/

/-- The magnitude that CVT gives for what is above the range. -/
def cvtOvf (dst : Nat) (nsat : Bool) : Nat :=
  if nsat || dst == 13 then (ffOf dst).max else if dst = 11 then 0x7F else (ffOf dst).inf.getD 0

theorem cvtOverflow_eq {dst : Nat} (h8 : 8 ≤ dst) (h13 : dst ≤ 13) (nsat : Bool) : cvtOverflow (ffOf dst) (nsat || dst == 13) = cvtOvf dst nsat := by
  interval_cases dst <;> cases nsat <;> rfl

/-- The magnitudes of CVT's floating results: numbers, infinities, and the NaN of E4M3. -/
def CvtMagnitude (dst m : Nat) : Prop := m ≤ (ffOf dst).max ∨ (ffOf dst).inf = some m ∨ (dst = 11 ∧ m = 0x7F)

theorem cvtOvf_magnitude {dst : Nat} (h8 : 8 ≤ dst) (h13 : dst ≤ 13) (nsat : Bool) : CvtMagnitude dst (cvtOvf dst nsat) := by
  cases nsat
  · interval_cases dst
    · exact .inr (.inl rfl)
    · exact .inr (.inl rfl)
    · exact .inr (.inl rfl)
    · exact .inr (.inr ⟨rfl, rfl⟩)
    · exact .inr (.inl rfl)
    · exact .inl le_rfl
  · exact .inl le_rfl

/-- A result of CVT as it stands, but for the NaN of E4M3 without its sign (R63) and for zero in E2M1. -/
def cvtCanon (dst p : Nat) : Nat := if dst = 13 ∧ p = 8 then 0 else if dst = 11 ∧ p = 0xFF then 0x7F else p

theorem canon_sign {dst m : Nat} (h : CvtMagnitude dst m) (n : Bool) : (ffOf dst).canon ((ffOf dst).sign n m) =
    if dst = 11 ∧ (ffOf dst).sign n m = 0xFF then 0x7F else (ffOf dst).sign n m := by
  have hf := ffOf_wf dst
  rcases h with hm | hm | ⟨rfl, rfl⟩
  · have hval : ((ffOf dst).val ((ffOf dst).sign n m)).isNan = false := by rw [hf.val_sign hm]; rfl
    rw [FFmt.canon, hval, if_neg Bool.false_ne_true, if_neg]
    rintro ⟨rfl, h255⟩
    have hmax : m ≤ 0x7E := hm
    cases n
    · have hs : m = 0xFF := h255
      omega
    · have hs : 2 ^ 7 + m = 0xFF := h255
      omega
  · have hval : ((ffOf dst).val ((ffOf dst).sign n m)).isNan = false := by rw [FFmt.val_infinity hm (hf.inf_gt m hm).2]; rfl
    rw [FFmt.canon, hval, if_neg Bool.false_ne_true, if_neg]
    rintro ⟨rfl, -⟩
    cases hm
  · cases n <;> decide

/-- A rounding gives a magnitude within range, or the one that stands for an overflow. -/
theorem encoded_v (f : FFmt) (fso : Bool) (ovf : Nat) (n : Bool) (enc fl lf : Nat) :
    ∃ m, (encoded f fso ovf n enc fl lf).v = f.sign n m ∧ (m ≤ f.max ∨ m = ovf) := by
  unfold encoded
  split
  · exact ⟨_, rfl, .inr rfl⟩
  next h =>
    split
    · exact ⟨0, rfl, .inl (Nat.zero_le _)⟩
    · exact ⟨_, rfl, .inl (Nat.not_lt.mp h)⟩

theorem roundTo_v {rm : Nat} (hrm : rm ≤ 4) (f : FFmt) (fso : Bool) (ovf : Bool → Nat) (n : Bool) (m : Nat) (e : Int) (lf : Nat) :
    ∃ j, (roundTo f rm fso ovf (.fin n m e) lf).v = f.sign n j ∧ (j ≤ f.max ∨ j = ovf n) := by
  by_cases hm : m = 0
  · exact ⟨0, by simp [roundTo, hm], .inl (Nat.zero_le _)⟩
  · obtain ⟨z, j, -, h⟩ := roundTo_fin (f := f) (n := n) (fso := fso) (ovf := ovf) (lf := lf) (e := e) hrm hm
    rw [h]
    exact encoded_v ..

/-- A number to a floating type is rounded once, and the pattern made canonical. -/
theorem cvtFloat_fin {rm : Nat} (hrm : rm ≤ 4) (k : Keys) {dst : Nat} (h8 : 8 ≤ dst) (h13 : dst ≤ 13) (n : Bool) (m : Nat) (e : Int) (lf : Nat) :
    cvtFloat rm k dst (.fin n m e) lf =
      let res := roundTo (ffOf dst) rm (k.fso && dst != 13) (fun _ => cvtOvf dst k.nsat) (.fin n m e) lf
      { res with v := cvtCanon dst res.v } := by
  obtain ⟨j, hv, hj⟩ := roundTo_v hrm (ffOf dst) (k.fso && dst != 13) (fun _ => cvtOvf dst k.nsat) n m e lf
  have hmag : CvtMagnitude dst j := by
    rcases hj with hj | rfl
    · exact .inl hj
    · exact cvtOvf_magnitude h8 h13 k.nsat
  have hcanon := canon_sign hmag n
  rw [← hv] at hcanon
  simp only [cvtFloat, cvtOverflow_eq h8 h13, hcanon]
  congr 1
  unfold cvtCanon
  by_cases hd : dst = 13
  · subst hd; rfl
  · simp [hd]

/-! ## From ternary -/

theorem cvtSource_ternary (k : Keys) {v : Nat} (hv : v < 4) : cvtSource k 14 v =
    (.fin (decide (v = 3)) (if v = 1 ∨ v = 3 then 1 else 0) 0, if v = 2 then fTERNBAD else 0) := by
  interval_cases v <;> rfl

/-- The integer that a ternary code is. -/
def ternaryInt (v : Nat) : Int := if v = 1 then 1 else if v = 3 then -1 else 0

theorem ternary_roundInt (rm : Nat) {v : Nat} (hv : v < 4) (lf : Nat) :
    roundInt rm (decide (v = 3)) (if v = 1 ∨ v = 3 then 1 else 0) 0 lf = (ternaryInt v, false, lf) := by
  rw [roundInt_int]
  interval_cases v <;> rfl

theorem orf_right_zero (fl : Nat) : orf fl 0 = fl := Nat.or_zero fl

theorem cvtLane_ternary_int (rm : Nat) (k : Keys) {dst v : Nat} (lf : Nat) (hv : v < 4) (hdst : dst < 8) (hok : v ≠ 3 ∨ intMin dst < 0) :
    cvtLane rm k dst 14 v lf =
      ⟨if v = 1 then 1 else if v = 3 then 2 ^ laneWidth dst - 1 else 0, if v = 2 then fTERNBAD else 0, lf⟩ := by
  have hb := intMin_le dst
  have hrange : intMin dst ≤ ternaryInt v ∧ ternaryInt v ≤ intMax dst := by
    unfold ternaryInt
    split
    · omega
    · split <;> omega
  have hone : 1 < 2 ^ laneWidth dst := Nat.one_lt_two_pow (by unfold laneWidth; split <;> omega)
  have hwrap : wrapInt (laneWidth dst) (ternaryInt v) = if v = 1 then 1 else if v = 3 then 2 ^ laneWidth dst - 1 else 0 := by
    unfold ternaryInt
    split
    · exact wrapInt_of_lt (m := 1) hone
    · split
      · have hpos : (0 : Int) < (2 ^ laneWidth dst : Nat) := by exact_mod_cast Nat.two_pow_pos _
        rw [wrapInt, Int.emod_eq_add_self_emod, Int.emod_eq_of_lt (by omega) (by omega)]
        omega
      · exact wrapInt_of_lt (m := 0) (Nat.two_pow_pos _)
  simp only [cvtLane, cvtSource_ternary k hv, if_pos hdst, cvtInt, ternary_roundInt rm hv, if_pos hrange, hwrap, Bool.false_eq_true, if_false,
    orf_right_zero]

theorem cvtTernary_ternary (rm : Nat) {v : Nat} (lf : Nat) (hv : v < 4) :
    cvtTernary rm (.fin (decide (v = 3)) (if v = 1 ∨ v = 3 then 1 else 0) 0) lf = ⟨if v = 2 then 0 else v, 0, lf⟩ := by
  simp only [cvtTernary, ternary_roundInt rm hv]
  interval_cases v <;> rfl

theorem cvtLane_ternary_ternary (rm : Nat) (k : Keys) {v : Nat} (lf : Nat) (hv : v < 4) :
    cvtLane rm k 14 14 v lf = ⟨if v = 2 then 0 else v, if v = 2 then fTERNBAD else 0, lf⟩ := by
  simp only [cvtLane, cvtSource_ternary k hv, if_neg (show ¬ 14 < 8 by omega), if_true, cvtTernary_ternary rm lf hv, orf_right_zero]

/-! ## Numbers that a floating type holds -/

/-- One, in every format. -/
theorem ffOf_one {dst : Nat} (h8 : 8 ≤ dst) (h13 : dst ≤ 13) : (ffOf dst).one ≤ (ffOf dst).max ∧ (ffOf dst).magnitude (ffOf dst).one = 1 ∧
    2 ^ (ffOf dst).m ≤ (ffOf dst).one := by
  have hbias : 1 ≤ (ffOf dst).bias ∧ (ffOf dst).one ≤ (ffOf dst).max := by interval_cases dst <;> decide
  obtain ⟨b, hb⟩ := Nat.exists_eq_add_of_le hbias.1
  have hone : (ffOf dst).one = b * 2 ^ (ffOf dst).m + 2 ^ (ffOf dst).m := by rw [FFmt.one, hb]; ring
  refine ⟨hbias.2, ?_, by omega⟩
  rw [hone, FFmt.magnitude_eq _ (Nat.pow_le_pow_right (by omega) (by omega)) (.inr le_rfl), Nat.cast_pow, ← zpow_natCast, Nat.cast_ofNat, ← two_zpow_add,
    FFmt.qmin, hb]
  push_cast
  rw [show ((ffOf dst).m : Int) + (1 - (1 + (b : Int)) - (ffOf dst).m + b) = 0 by ring, zpow_zero]

/-- A ternary value in a floating type. -/
theorem cvtFloat_ternary {rm : Nat} (hrm : rm ≤ 4) (k : Keys) {dst v : Nat} (lf : Nat) (h8 : 8 ≤ dst) (h13 : dst ≤ 13) (hv : v < 4) :
    cvtFloat rm k dst (.fin (decide (v = 3)) (if v = 1 ∨ v = 3 then 1 else 0) 0) lf =
      ⟨if v = 1 ∨ v = 3 then (ffOf dst).sign (decide (v = 3)) (ffOf dst).one else 0, 0, lf⟩ := by
  obtain ⟨hmax, hmag, hnormal⟩ := ffOf_one h8 h13
  have hf := ffOf_wf dst
  rw [cvtFloat_fin hrm k h8 h13]
  by_cases hone : v = 1 ∨ v = 3
  · rw [if_pos hone, if_pos hone, roundTo_exact hf hrm hmax (by omega) (by rw [hmag]; norm_num) (.inr hnormal)]
    dsimp only
    congr 1
    have h13' : ¬ (dst = 13 ∧ (ffOf dst).sign (decide (v = 3)) (ffOf dst).one = 8) := by
      rintro ⟨rfl, h⟩
      rcases hone with rfl | rfl <;> exact absurd h (by decide)
    have h11 : ¬ (dst = 11 ∧ (ffOf dst).sign (decide (v = 3)) (ffOf dst).one = 0xFF) := by
      rintro ⟨rfl, h⟩
      rcases hone with rfl | rfl <;> exact absurd h (by decide)
    rw [cvtCanon, if_neg h13', if_neg h11]
  · have hpos : decide (v = 3) = false := by simp; omega
    rw [if_neg hone, if_neg hone, hpos]
    simp only [roundTo, if_true]
    congr 1
    unfold cvtCanon
    simp [FFmt.sign]

theorem cvtFloat_zero {rm : Nat} (hrm : rm ≤ 4) (k : Keys) {dst : Nat} (h8 : 8 ≤ dst) (h13 : dst ≤ 13) (n : Bool) (e : Int) (lf : Nat) :
    cvtFloat rm k dst (.fin n 0 e) lf = ⟨if dst = 13 then 0 else (ffOf dst).sign n 0, 0, lf⟩ := by
  rw [cvtFloat_fin hrm k h8 h13]
  simp only [roundTo, if_true]
  congr 1
  unfold cvtCanon
  by_cases hd : dst = 13
  · subst hd
    cases n <;> decide
  · have h11 : ¬ (dst = 11 ∧ (ffOf dst).sign n 0 = 0xFF) := by
      rintro ⟨rfl, h⟩
      revert h
      cases n <;> decide
    rw [if_neg fun h => hd h.1, if_neg h11, if_neg hd]

theorem ternary_number {dst v : Nat} (h8 : 8 ≤ dst) (h13 : dst ≤ 13) :
    let p := if v = 1 ∨ v = 3 then (ffOf dst).sign (decide (v = 3)) (ffOf dst).one else 0
    FVal.number ((ffOf dst).val p) = (if v = 1 then 1 else if v = 3 then -1 else 0) ∧ FVal.finite ((ffOf dst).val p) = true ∧ p < 2 ^ (ffOf dst).w := by
  intro p
  obtain ⟨hmax, hmag, -⟩ := ffOf_one h8 h13
  have hf := ffOf_wf dst
  by_cases hone : v = 1 ∨ v = 3
  · have hp : p = (ffOf dst).sign (decide (v = 3)) (ffOf dst).one := if_pos hone
    rw [hp, hf.number_sign hmax, hmag, hf.val_sign hmax, mul_one]
    refine ⟨?_, rfl, hf.sign_lt (Nat.lt_of_le_of_lt hmax hf.max_lt) _⟩
    rcases hone with rfl | rfl <;> simp
  · have hp : p = (ffOf dst).sign false 0 := if_neg hone
    rw [hp, hf.number_sign (Nat.zero_le _), FFmt.magnitude_zero, hf.val_sign (Nat.zero_le _), mul_zero]
    refine ⟨?_, rfl, hf.sign_lt (Nat.two_pow_pos _) _⟩
    rw [not_or] at hone
    rw [if_neg hone.1, if_neg hone.2]

/-- The sign of an operand stays through FlushIn (R62). -/
theorem FFmt.bit_flushIn (f : FFmt) (fsi : Bool) (v : Nat) : bit (f.flushIn fsi v) (f.w - 1) = bit v (f.w - 1) := by
  unfold FFmt.flushIn
  split
  · exact FFmt.Wf.bit_sign (Nat.two_pow_pos _) _
  · rfl

theorem ffOf_width {code : Nat} (h8 : 8 ≤ code) (h13 : code ≤ 13) : (ffOf code).w = laneWidth code := by interval_cases code <;> rfl

/-- The sign of a zero operand. -/
theorem zero_operand {src : Nat} (h8 : 8 ≤ src) (h13 : src ≤ 13) {fsi : Bool} {v : Nat} (hz : ((ffOf src).val ((ffOf src).flushIn fsi v)).isZero = true) :
    ∃ e, (ffOf src).val ((ffOf src).flushIn fsi v) = .fin (bit v (laneWidth src - 1)) 0 e := by
  have hnan : ((ffOf src).val ((ffOf src).flushIn fsi v)).isNan = false := by
    by_contra h
    rw [FVal.isZero_of_isNan (by simpa using h)] at hz
    exact Bool.false_ne_true hz
  have hsign := (ffOf src).sign_val hnan
  rw [FFmt.bit_flushIn, ffOf_width h8 h13] at hsign
  cases hval : (ffOf src).val ((ffOf src).flushIn fsi v) with
  | nan _ => rw [hval] at hz; simp [FVal.isZero] at hz
  | inf _ => rw [hval] at hz; simp [FVal.isZero] at hz
  | fin n m e =>
    rw [hval] at hz hsign
    have hm : m = 0 := by simpa [FVal.isZero] using hz
    have hn : n = bit v (laneWidth src - 1) := hsign
    exact ⟨e, by rw [hm, hn]⟩

/-- The magnitude that an infinity becomes in a floating type (R68). -/
def cvtInfinity (dst : Nat) (nsat : Bool) : Nat :=
  if dst = 13 ∨ (dst = 11 ∧ nsat = true) then (ffOf dst).max else if dst = 11 then 0x7F else (ffOf dst).inf.getD 0

theorem cvtInfinity_eq {dst : Nat} (h8 : 8 ≤ dst) (h13 : dst ≤ 13) (nsat : Bool) :
    (ffOf dst).inf.getD (cvtOverflow (ffOf dst) (nsat || dst == 13)) = cvtInfinity dst nsat := by
  cases nsat
  · interval_cases dst <;> rfl
  · interval_cases dst <;> rfl

theorem cvtInfinity_magnitude {dst : Nat} (h8 : 8 ≤ dst) (h13 : dst ≤ 13) (nsat : Bool) : CvtMagnitude dst (cvtInfinity dst nsat) := by
  unfold cvtInfinity
  split
  next => exact .inl le_rfl
  next hmax =>
    split
    next h11 => exact .inr (.inr ⟨h11, rfl⟩)
    next h11 =>
      have h13' : dst ≠ 13 := fun h => hmax (.inl h)
      refine .inr (.inl ?_)
      interval_cases dst
      · rfl
      · rfl
      · rfl
      · exact absurd rfl h11
      · rfl
      · exact absurd rfl h13'

/-- No infinity becomes the negative zero of the smallest format. -/
theorem cvtInfinity_ne_negative_zero (nsat n : Bool) : (ffOf 13).sign n (cvtInfinity 13 nsat) ≠ 8 := by cases n <;> decide +revert

/-- An infinity to a floating type. -/
theorem cvtFloat_inf (rm : Nat) (k : Keys) {dst : Nat} (h8 : 8 ≤ dst) (h13 : dst ≤ 13) (n : Bool) (lf : Nat) : cvtFloat rm k dst (.inf n) lf =
    ⟨cvtCanon dst ((ffOf dst).sign n (cvtInfinity dst k.nsat)), 0, lf⟩ := by
  have hzero : ¬ (dst = 13 ∧ (ffOf dst).sign n (cvtInfinity dst k.nsat) = 8) := by
    rintro ⟨rfl, h⟩
    exact cvtInfinity_ne_negative_zero k.nsat n h
  rw [cvtCanon, if_neg hzero, ← canon_sign (cvtInfinity_magnitude h8 h13 k.nsat), ← cvtInfinity_eq h8 h13]
  rfl

theorem conversionsRoundOnce : Says.ConversionsRoundOnce := by
  intro rm dst src v lf k hrm hv r i vs clip float number g canon
  have hnumber : ∀ x, number x → ∃ n m e, cvtSource k src v = (.fin n m e, 0) ∧ x = FVal.number (.fin n m e) ∧ (m : ℚ) * 2 ^ e < 2 ^ (512 : Int) :=
    fun x hx => cvtSource_number hv hx
  have hfloat : float → cvtSource k src v = (vs, 0) := fun h => cvtSource_float k h.1 h.2 v
  refine ⟨fun hsrc hdst => ?_, fun h8 h13 => ⟨fun x hx hne => ?_, fun hsrc hi => ?_, fun hfl hz => ?_, fun hfl hnan => ?_, fun n hfl hinf => ?_⟩,
    fun hdst hfl => ⟨fun hnan => ?_, fun n hinf => ?_, fun hfin => ?_⟩, fun hdst => ⟨fun hfl hnan => ?_, fun n hfl hinf => ?_, fun x hx => ?_⟩,
    fun hsrc => ⟨fun hdst hok => ?_, fun h8 h13 => ?_, fun hdst => ?_⟩⟩
  · exact ((cvtLane_of_source (cvtSource_int k hsrc hv)).trans (if_pos hdst)).trans (cvtInt_int rm k dst i lf hsrc)
  · obtain ⟨n, m, e, hsource, rfl, -⟩ := hnumber x hx
    have hm := mt (number_eq_zero_iff n m e).mpr hne
    refine ⟨roundTo (ffOf dst) rm (k.fso && dst != 13) (fun _ => cvtOvf dst k.nsat) (.fin n m e) lf, ?_, roundTo_roundsTo (ffOf_wf dst) hrm hm⟩
    exact ((cvtLane_of_source hsource).trans (if_neg (by omega))).trans ((if_neg (by omega)).trans (cvtFloat_fin hrm k h8 h13 n m e lf))
  · have hsource := cvtSource_int k hsrc hv
    rw [show laneVal src 0 (w64 v) = 0 from hi] at hsource
    refine ((cvtLane_of_source hsource).trans (if_neg (by omega))).trans ((if_neg (by omega)).trans ?_)
    have hzero : (if dst = 13 then 0 else (ffOf dst).sign false 0) = 0 := by split <;> rfl
    exact (cvtFloat_zero hrm k h8 h13 false 0 lf).trans (by rw [hzero])
  · obtain ⟨e, hval⟩ := zero_operand hfl.1 hfl.2 hz
    have hsource := (hfloat hfl).trans (by rw [show vs = _ from hval])
    exact ((cvtLane_of_source hsource).trans (if_neg (by omega))).trans ((if_neg (by omega)).trans (cvtFloat_zero hrm k h8 h13 _ e lf))
  · obtain ⟨sig, hsig⟩ := FVal.isNan_iff.mp hnan
    have hsource := hfloat hfl
    rw [hsig] at hsource ⊢
    exact ((cvtLane_of_source hsource).trans (if_neg (by omega))).trans (if_neg (by omega))
  · have hsource := hfloat hfl
    rw [hinf] at hsource
    exact ((cvtLane_of_source hsource).trans (if_neg (by omega))).trans ((if_neg (by omega)).trans (cvtFloat_inf rm k h8 h13 n lf))
  · obtain ⟨sig, hsig⟩ := FVal.isNan_iff.mp hnan
    have hsource := hfloat hfl
    rw [hsig] at hsource
    exact (cvtLane_of_source hsource).trans (if_pos hdst)
  · have hsource := hfloat hfl
    rw [hinf] at hsource
    exact (cvtLane_of_source hsource).trans (if_pos hdst)
  · obtain ⟨n, m, e, hsource, hx, hsmall⟩ := hnumber _ (.inr ⟨hfl, hfin, rfl⟩)
    have hr : r = _ := (cvtLane_of_source hsource).trans (if_pos hdst)
    rw [hx, hr]
    exact cvtInt_float hrm k dst lf hfl.1 hfl.2 hsmall
  · obtain ⟨sig, hsig⟩ := FVal.isNan_iff.mp hnan
    have hsource := hfloat hfl
    rw [hsig] at hsource
    exact ((cvtLane_of_source hsource).trans (if_neg (by omega))).trans (if_pos hdst)
  · have hsource := hfloat hfl
    rw [hinf] at hsource
    exact ((cvtLane_of_source hsource).trans (if_neg (by omega))).trans (if_pos hdst)
  · obtain ⟨n, m, e, hsource, rfl, hsmall⟩ := hnumber x hx
    have hr : r = _ := ((cvtLane_of_source hsource).trans (if_neg (by omega))).trans (if_pos hdst)
    rw [hr]
    exact cvtTernary_fin hrm lf hsmall
  · subst hsrc
    exact cvtLane_ternary_int rm k lf hv hdst hok
  · subst hsrc
    have hr : r = ⟨if v = 1 ∨ v = 3 then g.sign (decide (v = 3)) g.one else 0, if v = 2 then fTERNBAD else 0, lf⟩ := by
      show cvtLane rm k dst 14 v lf = _
      simp only [cvtLane, cvtSource_ternary k hv, if_neg (show ¬ dst < 8 by omega), if_neg (show ¬ dst = 14 by omega), cvtFloat_ternary hrm k lf h8 h13 hv,
        orf_right_zero]
      rfl
    obtain ⟨hnum, hfin, hlt⟩ := ternary_number (v := v) h8 h13
    rw [hr]
    exact ⟨hnum, hfin, hlt, rfl, rfl⟩
  · subst hsrc hdst
    exact cvtLane_ternary_ternary rm k lf hv

end Sys2Proof.Machine
end

section
/-!
SUPPORT. The special functions: the nearest number of a format, and the result of a lane in terms of the magnitude that is delivered (R70, R71).
-/

namespace Sys2Proof.Machine

open Sys2Proof

/-! ## The nearest number -/

/-- w is a nearest number of `prec` bits to t: the numbers of as many bits stay on their side of t, and w is at most half a last place off. -/
structure RoundsNear (prec : Nat) (qmin : Int) (t w : ℚ) : Prop where
  fits : Fits prec qmin w
  above : ∀ y, Fits prec qmin y → y ≤ t → y ≤ w
  below : ∀ y, Fits prec qmin y → t ≤ y → w ≤ y
  half : ∀ p, qmin ≤ p → t < 2 ^ (p + prec) → |w - t| ≤ 2 ^ (p - 1)

theorem fits_zero (prec : Nat) (qmin : Int) : Fits prec qmin 0 := ⟨0, qmin, Nat.two_pow_pos _, le_rfl, by simp⟩

theorem fits_natCast {prec : Nat} {qmin q : Int} {z : Nat} (hprec : 0 < prec) (hz : z ≤ 2 ^ prec) (hq : qmin ≤ q) : Fits prec qmin (z * 2 ^ q) := by
  have h := fits_zpow hq hz hprec false
  rwa [signOf_false, one_mul] at h

theorem fits_two_zpow {prec : Nat} {qmin n : Int} (hprec : 0 < prec) (hn : qmin ≤ n) : Fits prec qmin (2 ^ n) := by
  have h := fits_natCast (z := 1) hprec Nat.one_le_two_pow hn
  rwa [Nat.cast_one, one_mul] at h

theorem Fits.mono {prec prec' : Nat} {qmin qmin' : Int} {y : ℚ} (hprec : prec ≤ prec') (hq : qmin' ≤ qmin) (h : Fits prec qmin y) : Fits prec' qmin' y := by
  obtain ⟨z, q, hz, hle, habs⟩ := h
  exact ⟨z, q, lt_of_lt_of_le hz (Nat.pow_le_pow_right (by decide) hprec), hq.trans hle, habs⟩

/-- No number of a format lies between zero and its least quantum. -/
theorem Fits.eq_zero {prec : Nat} {qmin : Int} {y : ℚ} (h : Fits prec qmin y) (hsmall : |y| < 2 ^ qmin) : y = 0 := by
  obtain ⟨z, q, -, hle, habs⟩ := h
  rcases Nat.eq_zero_or_pos z with rfl | hz
  · exact abs_eq_zero.mp (by rw [habs, Nat.cast_zero, zero_mul])
  · have h1 : (1 : ℚ) ≤ z := by exact_mod_cast hz
    have h2 : (2 : ℚ) ^ qmin ≤ 2 ^ q := two_zpow_le.mpr hle
    have h3 : (2 : ℚ) ^ q ≤ z * 2 ^ q := le_mul_of_one_le_left (two_zpow_pos q).le h1
    linarith

section
variable {prec : Nat} {qmin q : Int} {t w : ℚ} {z : Nat}

theorem RoundsNear.nonneg (h : RoundsNear prec qmin t w) (ht : 0 ≤ t) : 0 ≤ w := h.above 0 (fits_zero ..) ht

/-- A number of the format is the nearest to itself. -/
theorem RoundsNear.eq_of_fits (h : RoundsNear prec qmin t w) (ht : Fits prec qmin t) : w = t := le_antisymm (h.below t ht le_rfl) (h.above t ht le_rfl)

theorem roundsNear_self (ht : Fits prec qmin t) : RoundsNear prec qmin t t where
  fits := ht
  above _ _ h := h
  below _ _ h := h
  half p _ _ := by rw [sub_self, abs_zero]; exact (two_zpow_pos _).le

theorem Cell.exponent_le (h : Cell prec qmin t z q) {p : Int} (hp : qmin ≤ p) (ht : t < 2 ^ (p + prec)) : q ≤ p := by
  rcases h.full with hq | hz
  · omega
  · have hcast : (2 : ℚ) ^ prec ≤ 2 * z := by exact_mod_cast hz
    have hlt : (2 : ℚ) ^ (q + prec) < 2 ^ (p + prec + 1) := by
      calc (2 : ℚ) ^ (q + prec) = 2 ^ prec * 2 ^ q := by rw [two_zpow_add, zpow_natCast, mul_comm]
        _ ≤ 2 * z * 2 ^ q := mul_le_mul_of_nonneg_right hcast (two_zpow_pos q).le
        _ ≤ 2 * t := by linarith [h.lower]
        _ < 2 * 2 ^ (p + prec) := by linarith
        _ = 2 ^ (p + prec + 1) := (two_zpow_succ _).symm
    have := two_zpow_lt.mp hlt
    omega

/-- Rounding to nearest takes a nearest end of the cell. -/
theorem Cell.near (h : Cell prec qmin t z q) (hprec : 0 < prec) (ht : 0 < t) (neg : Bool) (lf : Nat) :
    RoundsNear prec qmin t ((cellQuant 0 neg z (fracAt t z q) lf).z * 2 ^ q) := by
  by_cases h0 : fracAt t z q = 0
  · rw [cellQuant_exact h0]
    show RoundsNear prec qmin t ((z : ℚ) * 2 ^ q)
    have heq := fracAt_eq_zero_iff.mp h0
    rw [← heq]
    exact roundsNear_self (heq ▸ fits_natCast hprec h.small.le h.least)
  · have hz := cellQuant_z_le (rm := 0) (z := z) (frac := fracAt t z q) (lf := lf) neg
    have hlow : (z : ℚ) * 2 ^ q < t := lt_of_le_of_ne h.lower fun heq => h0 (fracAt_eq_zero_iff.mpr heq.symm)
    have hfrac : |((cellQuant 0 neg z (fracAt t z q) lf).z : ℚ) - (z + fracAt t z q)| ≤ 1 / 2 := by
      have h1 := h.fracAt_lt_one
      have h2 := h.fracAt_nonneg
      rw [cellQuant_inexact h0]
      simp only [roundsUp, Bool.or_eq_true, decide_eq_true_eq, Bool.and_eq_true, beq_iff_eq]
      rw [abs_le]
      split
      next hup =>
        have : 1 / 2 ≤ fracAt t z q := hup.elim (fun h => h.le) (fun h => h.1.ge)
        push_cast
        constructor <;> linarith
      next hup =>
        have : fracAt t z q ≤ 1 / 2 := not_lt.mp fun h => hup (.inl h)
        constructor <;> linarith
    have hsplit := eq_frac_mul t z q
    generalize (cellQuant 0 neg z (fracAt t z q) lf).z = c at hz hfrac
    refine ⟨fits_natCast hprec (hz.2.trans h.small) h.least, fun y hy hle => ?_, fun y hy hle => ?_, fun p hp hlt => ?_⟩
    · have hzc : (z : ℚ) * 2 ^ q ≤ c * 2 ^ q := mul_le_mul_of_nonneg_right (by exact_mod_cast hz.1) (two_zpow_pos q).le
      by_contra hgt
      have hylow : (z : ℚ) * 2 ^ q < |y| := lt_of_lt_of_le (lt_of_le_of_lt hzc (not_le.mp hgt)) (le_abs_self y)
      have hgap := h.gap hy hylow
      have hpos : 0 ≤ y := le_trans (by positivity) (le_trans hzc (not_le.mp hgt).le)
      rw [abs_of_nonneg hpos] at hgap
      linarith [h.upper]
    · have hpos : 0 ≤ y := ht.le.trans hle
      have hgap := h.gap hy (by rw [abs_of_nonneg hpos]; linarith)
      rw [abs_of_nonneg hpos] at hgap
      exact le_trans (mul_le_mul_of_nonneg_right (by exact_mod_cast hz.2) (two_zpow_pos q).le) hgap
    · have hdiff : (c : ℚ) * 2 ^ q - t = (c - (z + fracAt t z q)) * 2 ^ q := by
        nth_rw 1 [hsplit]
        ring
      calc |(c : ℚ) * 2 ^ q - t| = |c - (z + fracAt t z q)| * 2 ^ q := by rw [hdiff, abs_mul, abs_of_pos (two_zpow_pos q)]
        _ ≤ 1 / 2 * 2 ^ q := mul_le_mul_of_nonneg_right hfrac (two_zpow_pos q).le
        _ = 2 ^ (q - 1) := by rw [← two_zpow_sub_mul q 1, zpow_one]; ring
        _ ≤ 2 ^ (p - 1) := two_zpow_le.mpr (by have := h.exponent_le hp hlt; omega)

end

/-- A rounding to nearest with no key set: the nearest magnitude, or an overflow. -/
theorem roundTo_near (f : FFmt) (ovf : Bool → Nat) (n : Bool) (m : Nat) (e : Int) :
    ∃ k, RoundsNear (f.m + 1) f.qmin (m * 2 ^ e) (f.magnitude k) ∧
      (f.max < k → roundTo f 0 false ovf (.fin n m e) 0 = ⟨f.sign n (ovf n), orf fOF fNX, 0⟩) ∧
      (k ≤ f.max → ∃ fl, bit fl 2 = false ∧ roundTo f 0 false ovf (.fin n m e) 0 = ⟨f.sign n k, fl, 0⟩) := by
  rcases Nat.eq_zero_or_pos m with rfl | hpos
  · refine ⟨0, ?_, fun h => absurd h (Nat.not_lt_zero _), fun _ => ⟨0, rfl, rfl⟩⟩
    rw [f.magnitude_zero, Nat.cast_zero, zero_mul]
    exact roundsNear_self (fits_zero ..)
  · have hm := hpos.ne'
    obtain ⟨z, j, hcell, hround⟩ := roundTo_fin (f := f) (n := n) (fso := false) (ovf := ovf) (lf := 0) (rm := 0) (e := e) (by decide) hm
    have ht : (0 : ℚ) < m * 2 ^ e := mul_pos (by exact_mod_cast hpos) (two_zpow_pos e)
    have hnear := hcell.near (Nat.succ_pos _) ht n 0
    have hmag := magnitude_encoded rfl hcell (cellQuant_z_le (rm := 0) (lf := 0) (frac := fracAt (m * 2 ^ e) z (f.qmin + j)) (z := z) n)
    have hlf : (cellQuant 0 n z (fracAt (m * 2 ^ e) z (f.qmin + j)) 0).lf = 0 := by
      unfold cellQuant
      split <;> rfl
    rw [← hmag] at hnear
    refine ⟨_, hnear, fun hgt => ?_, fun hle => ⟨roundFlags f m e (cellQuant 0 n z (fracAt (m * 2 ^ e) z (f.qmin + j)) 0), ?_, ?_⟩⟩
    · rw [hround]
      simp only [encoded, if_pos hgt, hlf]
    · unfold roundFlags
      split
      · split <;> rfl
      · rfl
    · rw [hround]
      simp only [encoded, if_neg (Nat.not_lt.mpr hle), Bool.false_and, Bool.false_eq_true, if_false, hlf]

/-! ## The destination's range -/

/-- The formats of the special functions. -/
def SfuFormat (f : FFmt) : Prop := f = ffBF16 ∨ f = ffF16 ∨ f = ffF32

theorem sfuFormat_ffOf {g : Nat} (hg : g ∈ [8, 9, 10]) : SfuFormat (ffOf g) := by
  simp only [List.mem_cons, List.not_mem_nil, or_false] at hg
  rcases hg with rfl | rfl | rfl
  · exact .inl rfl
  · exact .inr (.inl rfl)
  · exact .inr (.inr rfl)

section
variable {f : FFmt}

theorem SfuFormat.wf (hf : SfuFormat f) : f.Wf := by
  rcases hf with rfl | rfl | rfl
  · exact ffOf_wf 8
  · exact ffOf_wf 9
  · exact ffOf_wf 10

/-- What the numbers of the formats have in common. -/
theorem SfuFormat.bounds (hf : SfuFormat f) : f.m ≤ 23 ∧ -149 ≤ f.qmin ∧ f.qmin + f.m = 1 - (f.bias : Int) ∧ 15 ≤ f.bias ∧ f.bias ≤ 127 ∧ 7 ≤ f.m := by
  rcases hf with rfl | rfl | rfl <;> decide

theorem SfuFormat.infinity (hf : SfuFormat f) : f.inf = some (f.inf.getD 0) ∧ f.inf.getD 0 < 2 ^ (f.w - 1) ∧ 2 ^ f.m ≤ f.inf.getD 0 := by
  rcases hf with rfl | rfl | rfl <;> decide

theorem SfuFormat.getD_inf (hf : SfuFormat f) (d : Nat) : f.inf.getD d = f.inf.getD 0 := by
  rcases hf with rfl | rfl | rfl <;> rfl

theorem SfuFormat.overflow_zero (hf : SfuFormat f) (n : Bool) : f.overflow 0 n = f.inf.getD 0 := by
  rcases hf with rfl | rfl | rfl <;> rfl

theorem SfuFormat.max_lt (hf : SfuFormat f) : f.magnitude f.max < 2 ^ ((f.bias : Int) + 1) := by
  rcases hf with rfl | rfl | rfl <;> exact two_pow_magnitude (by decide) (by decide)

theorem SfuFormat.le_max (hf : SfuFormat f) : (2 : ℚ) ^ (f.bias : Int) ≤ f.magnitude f.max := by
  have hm : f.mant f.max ≠ 0 := by rcases hf with rfl | rfl | rfl <;> decide
  refine (le_mul_zpow_iff hm ..).mpr ?_
  rcases hf with rfl | rfl | rfl <;> decide

/-- The numbers of the formats are numbers of F32. -/
theorem SfuFormat.fits_f32 (hf : SfuFormat f) {y : ℚ} (hy : Fits (f.m + 1) f.qmin y) : Fits 24 (-149) y := by
  obtain ⟨hm, hq, -⟩ := hf.bounds
  exact hy.mono (by omega) hq

end

/-- M is D rounded to F32 and then to the format. -/
def Ranged (f : FFmt) (D M : ℚ) : Prop := ∃ w, RoundsNear 24 (-149) D w ∧ RoundsNear (f.m + 1) f.qmin w M

section
variable {f : FFmt} {D M y : ℚ}

theorem Ranged.above (hf : SfuFormat f) (h : Ranged f D M) (hy : Fits (f.m + 1) f.qmin y) (hle : y ≤ D) : y ≤ M := by
  obtain ⟨w, h1, h2⟩ := h
  exact h2.above y hy (h1.above y (hf.fits_f32 hy) hle)

theorem Ranged.below (hf : SfuFormat f) (h : Ranged f D M) (hy : Fits (f.m + 1) f.qmin y) (hle : D ≤ y) : M ≤ y := by
  obtain ⟨w, h1, h2⟩ := h
  exact h2.below y hy (h1.below y (hf.fits_f32 hy) hle)

/-- A number of the format is delivered as it is. -/
theorem Ranged.eq_of_fits (hf : SfuFormat f) (h : Ranged f D M) (hD : Fits (f.m + 1) f.qmin D) : M = D :=
  le_antisymm (h.below hf hD le_rfl) (h.above hf hD le_rfl)

/-- A number of F32 is rounded once. -/
theorem Ranged.half (h : Ranged f D M) (hD : Fits 24 (-149) D) {p : Int} (hp : f.qmin ≤ p) (hlt : D < 2 ^ (p + f.m + 1)) : |M - D| ≤ 2 ^ (p - 1) := by
  obtain ⟨w, h1, h2⟩ := h
  obtain rfl := h1.eq_of_fits hD
  refine h2.half p hp ?_
  rwa [Nat.cast_add, Nat.cast_one, ← add_assoc]

/-- Two roundings of a tiny number. -/
theorem Ranged.tiny (hf : SfuFormat f) (h : Ranged f D M) (hlt : D ≤ 2 ^ (f.qmin + f.m)) : |M - D| ≤ 2 ^ f.qmin - 2 ^ (-150 : Int) := by
  obtain ⟨w, h1, h2⟩ := h
  have hD : D < 2 ^ (f.qmin + ((f.m + 1 : Nat) : Int)) := lt_of_le_of_lt hlt (two_zpow_lt.mpr (by push_cast; omega))
  by_cases h32 : f = ffF32
  · subst h32
    obtain rfl := h2.eq_of_fits h1.fits
    have := h1.half (-149) le_rfl hD
    have hq : (2 : ℚ) ^ (-149 : Int) = 2 * 2 ^ (-150 : Int) := by rw [← two_zpow_succ]; norm_num
    rw [show ffF32.qmin = -149 from rfl, hq]
    linarith [show (2 : ℚ) ^ ((-149 : Int) - 1) = 2 ^ (-150 : Int) from rfl]
  · obtain ⟨hm, hq, hb, -, -, hm7⟩ := hf.bounds
    have hq' : -133 ≤ f.qmin := by
      rcases hf with rfl | rfl | rfl
      · decide
      · decide
      · exact absurd rfl h32
    have hw : |w - D| ≤ 2 ^ (f.qmin - 3) := by
      refine (h1.half (f.qmin - 2) (by omega) (lt_of_lt_of_le hD ?_)).trans_eq (by rw [sub_sub]; rfl)
      refine two_zpow_le.mpr ?_
      have : f.m ≤ 10 := by
        rcases hf with rfl | rfl | rfl
        · decide
        · decide
        · exact absurd rfl h32
      push_cast
      omega
    have hwle : w ≤ 2 ^ (f.qmin + (f.m : Int)) := h1.below _ (fits_two_zpow (by decide) (by omega)) hlt
    have hM := h2.half f.qmin le_rfl (lt_of_le_of_lt hwle (two_zpow_lt.mpr (by push_cast; omega)))
    have h150 : (2 : ℚ) ^ (-150 : Int) ≤ 2 ^ (f.qmin - 3) := two_zpow_le.mpr (by omega)
    have hpow : (2 : ℚ) ^ (f.qmin - 1) = 4 * 2 ^ (f.qmin - 3) ∧ (2 : ℚ) ^ f.qmin = 8 * 2 ^ (f.qmin - 3) := by
      constructor
      · rw [show f.qmin - 1 = (f.qmin - 3) + 2 by ring, two_zpow_add]; norm_num; ring
      · rw [show f.qmin = (f.qmin - 3) + 3 by ring, two_zpow_add]; norm_num; ring
    have htri : |M - D| ≤ |M - w| + |w - D| := abs_sub_le M w D
    rw [hpow.1] at hM
    rw [hpow.2]
    linarith [two_zpow_pos (f.qmin - 3)]

/-- A number that is below half the least one vanishes. -/
theorem Ranged.vanishes (hf : SfuFormat f) (h : Ranged f D M) (h0 : 0 ≤ D) (hD : D ≤ 5 * 2 ^ (f.qmin - 4)) : M = 0 := by
  obtain ⟨w, h1, h2⟩ := h
  obtain ⟨hm, hq, hb, -, -, hm7⟩ := hf.bounds
  have hpos := two_zpow_pos (f.qmin - 4)
  have hpow : (2 : ℚ) ^ f.qmin = 16 * 2 ^ (f.qmin - 4) ∧ (2 : ℚ) ^ (f.qmin - 1) = 8 * 2 ^ (f.qmin - 4) := by
    constructor
    · rw [show f.qmin = (f.qmin - 4) + 4 by ring, two_zpow_add]; norm_num; ring
    · rw [show f.qmin - 1 = (f.qmin - 4) + 3 by ring, two_zpow_add]; norm_num; ring
  have hw : w ≤ 5 * 2 ^ (f.qmin - 4) := by
    by_cases h32 : f = ffF32
    · subst h32
      have hhalf := h1.half (-149) le_rfl (lt_of_le_of_lt hD (lt_trans (b := 2 ^ ffF32.qmin) (by rw [hpow.1]; linarith) (two_zpow_lt.mpr (by decide))))
      have hsmall : |w| < 2 ^ (-149 : Int) := by
        rw [abs_of_nonneg (h1.nonneg h0)]
        have := (abs_le.mp hhalf).2
        have h8 : (2 : ℚ) ^ ((-149 : Int) - 1) = 8 * 2 ^ (ffF32.qmin - 4) := hpow.2
        have h16 : (2 : ℚ) ^ (-149 : Int) = 16 * 2 ^ (ffF32.qmin - 4) := hpow.1
        rw [h8] at this
        rw [h16]
        linarith
      rw [h1.fits.eq_zero hsmall]
      linarith
    · have h5 := fits_natCast (prec := 24) (qmin := -149) (q := f.qmin - 4) (z := 5) (by decide) (by decide) (by
        rcases hf with rfl | rfl | rfl
        · decide
        · decide
        · exact absurd rfl h32)
      exact h1.below _ h5 hD
  have hM := h2.half f.qmin le_rfl (lt_of_le_of_lt hw (lt_trans (b := 2 ^ f.qmin) (by rw [hpow.1]; linarith) (two_zpow_lt.mpr (by push_cast; omega))))
  refine h2.fits.eq_zero ?_
  rw [abs_of_nonneg (h2.nonneg (h1.nonneg h0)), hpow.1]
  have := (abs_le.mp hM).2
  rw [hpow.2] at this
  linarith

end

/-- The pattern of a delivered magnitude. -/
def sfuRanged (f : FFmt) (sg : Bool) (d : Nat × Int) : Nat :=
  let wide := roundTo ffF32 0 false (ffF32.overflow 0) (.fin sg d.1 d.2) 0
  (roundTo f 0 false (f.overflow 0) (if bit wide.fl 2 then .inf sg else ffF32.val wide.v) 0).v

/-- A delivered magnitude is rounded to F32 and then to the format, or is an infinity. -/
theorem sfuRanged_eq {f : FFmt} (hf : SfuFormat f) (sg : Bool) (d : Nat × Int) :
    ∃ k, Ranged f (d.1 * 2 ^ d.2) (f.magnitude k) ∧
      ((sfuRanged f sg d = f.sign sg (f.inf.getD 0) ∧ (2 : ℚ) ^ (f.bias : Int) < d.1 * 2 ^ d.2) ∨
        (sfuRanged f sg d = f.sign sg k ∧ k ≤ f.max)) := by
  obtain ⟨k1, hnear1, hover1, hin1⟩ := roundTo_near ffF32 (ffF32.overflow 0) sg d.1 d.2
  obtain ⟨k, hnear, hover, hin⟩ := roundTo_near f (f.overflow 0) sg (ffF32.mant k1) (ffF32.expo k1)
  have hranged : Ranged f (d.1 * 2 ^ d.2) (f.magnitude k) := ⟨ffF32.magnitude k1, hnear1, hnear⟩
  obtain ⟨hm, hq, hqm, hb15, hb127, -⟩ := hf.bounds
  refine ⟨k, hranged, ?_⟩
  rcases Nat.lt_or_ge ffF32.max k1 with hgt | hle
  · refine .inl ⟨?_, ?_⟩
    · unfold sfuRanged
      rw [hover1 hgt]
      dsimp only
      rw [if_pos (show bit (orf fOF fNX) 2 = true from rfl)]
      exact congrArg (f.sign sg) (hf.getD_inf f.max)
    · by_contra hsmall
      have hmag := ffF32.magnitude_strictMono hgt
      have h32 := SfuFormat.le_max (f := ffF32) (.inr (.inr rfl))
      have hle := hnear1.below _ (fits_two_zpow (by decide) (by show (-149 : Int) ≤ f.bias; omega)) (not_lt.mp hsmall)
      have hbias : (2 : ℚ) ^ (f.bias : Int) ≤ 2 ^ ((ffF32.bias : Nat) : Int) := two_zpow_le.mpr (by show (f.bias : Int) ≤ 127; omega)
      linarith
  · obtain ⟨fl, hfl, heq⟩ := hin1 hle
    have hval : sfuRanged f sg d = (roundTo f 0 false (f.overflow 0) (.fin sg (ffF32.mant k1) (ffF32.expo k1)) 0).v := by
      unfold sfuRanged
      rw [heq]
      dsimp only
      rw [hfl, if_neg Bool.false_ne_true, SfuFormat.wf (f := ffF32) (.inr (.inr rfl)) |>.val_sign hle]
    rcases Nat.lt_or_ge f.max k with hgt' | hle'
    · refine .inl ⟨by rw [hval, hover hgt', hf.overflow_zero], ?_⟩
      by_contra hsmall
      have hle := hranged.below hf (fits_two_zpow (Nat.succ_pos _) (by omega)) (not_lt.mp hsmall)
      linarith [f.magnitude_strictMono hgt', hf.le_max]
    · obtain ⟨fl', -, heq'⟩ := hin hle'
      exact .inr ⟨by rw [hval, heq'], hle'⟩

/-! ## The result of a lane -/

/-- Whether a result counts as tiny (R71). -/
def sfuSmall (f : FFmt) (fn : Nat) (b : Bracket) (M : ℚ) : Bool :=
  b.m != 0 && !(sfuExactCase fn b && decide (M = b.m * 2 ^ b.e)) && tiny f b.m b.e (decide ((b.m : ℚ) * 2 ^ b.e < M))

/-- The result of a lane that gives a finite magnitude. -/
def sfuResult (f : FFmt) (fso sg : Bool) (k : Nat) (small : Bool) : FRes :=
  if fso && f.subnormal k then ⟨f.sign sg 0, fUF, 0⟩ else ⟨f.sign sg k, if small then fUF else 0, 0⟩

theorem mul_zpow_common (m : Nat) {e q : Int} (h : q ≤ e) : ((m * 2 ^ (e - q).toNat : Nat) : ℚ) * 2 ^ q = m * 2 ^ e := by
  rw [Nat.cast_mul, two_zpow_toNat (by omega), mul_assoc, two_zpow_sub_mul]

theorem mul_zpow_lt_common (m k : Nat) {e p q : Int} (he : q ≤ e) (hp : q ≤ p) :
    m * 2 ^ (e - q).toNat < k * 2 ^ (p - q).toNat ↔ (m : ℚ) * 2 ^ e < k * 2 ^ p := by
  rw [← mul_zpow_common m he, ← mul_zpow_common k hp, mul_lt_mul_iff_left₀ (two_zpow_pos q), Nat.cast_lt]

theorem mul_zpow_eq_common (m k : Nat) {e p q : Int} (he : q ≤ e) (hp : q ≤ p) :
    m * 2 ^ (e - q).toNat = k * 2 ^ (p - q).toNat ↔ (m : ℚ) * 2 ^ e = k * 2 ^ p := by
  rw [← mul_zpow_common m he, ← mul_zpow_common k hp, mul_left_inj' (two_zpow_pos q).ne', Nat.cast_inj]

/-- A number that the unit may deliver for an exact result. -/
def Delivers (fn : Nat) (b : Bracket) (D : ℚ) : Prop := ∃ pat, D = (sfuDeliver fn pat b).1 * 2 ^ (sfuDeliver fn pat b).2

/-- The result of a lane of numbers: a finite magnitude, or an infinity. -/
theorem sfuFinite_eq {f : FFmt} (hf : SfuFormat f) (fn : Nat) (fso neg : Bool) (m : Nat) (e : Int) {sg : Bool} {b : Bracket}
    (hex : sfuExact fn neg m e = (sg, b)) : ∃ (D : ℚ) (k : Nat), Delivers fn b D ∧ Ranged f D (f.magnitude k) ∧
      ((sfuFinite f fn fso neg m e = ⟨f.sign sg (f.inf.getD 0), fOF, 0⟩ ∧ (2 : ℚ) ^ (f.bias : Int) < D) ∨
        (sfuFinite f fn fso neg m e = sfuResult f fso sg k (sfuSmall f fn b (f.magnitude k)) ∧ k ≤ f.max)) := by
  generalize hpat : (roundTo ffF32 0 false (ffF32.overflow 0) (.fin neg m e) 0).v = pat
  generalize hdel : sfuDeliver fn pat b = d
  obtain ⟨k, hranged, hcase⟩ := sfuRanged_eq hf sg d
  refine ⟨_, k, ⟨pat, rfl⟩, by rw [hdel]; exact hranged, ?_⟩
  rw [hdel]
  rcases hcase with ⟨hv, hbig⟩ | ⟨hv, hk⟩
  · refine .inl ⟨?_, hbig⟩
    obtain ⟨hinf, hlt, hnormal⟩ := hf.infinity
    have hval := FFmt.val_infinity hinf hlt sg
    have hsub : f.subnormal (f.sign sg (f.inf.getD 0)) = false := by
      simp [FFmt.subnormal, FFmt.Wf.sign_mod hlt, hnormal]
    unfold sfuRanged at hv
    simp only [sfuFinite, hpat, hex, hdel, hv, hval, hsub, FVal.isInf, Bool.and_false, Bool.not_true, Bool.false_and, Bool.false_eq_true, if_false, if_true]
    rfl
  · refine .inr ⟨?_, hk⟩
    have hval := hf.wf.val_sign hk sg
    have hlt := Nat.lt_of_le_of_lt hk hf.wf.max_lt
    have hsub : f.subnormal (f.sign sg k) = f.subnormal k := by
      simp only [FFmt.subnormal, FFmt.Wf.sign_mod hlt, Nat.mod_eq_of_lt hlt]
    have hq := min_exponent_le (f.expo k) b.e
    have hless := mul_zpow_lt_common b.m (f.mant k) hq.2 hq.1
    have heq := mul_zpow_eq_common (f.mant k) b.m hq.1 hq.2
    rw [show (f.mant k : ℚ) * 2 ^ f.expo k = f.magnitude k from rfl] at hless heq
    have hsame : (sfuExactCase fn b && (!b.ine && (f.mant k * 2 ^ (f.expo k - if f.expo k ≤ b.e then f.expo k else b.e).toNat ==
        b.m * 2 ^ (b.e - if f.expo k ≤ b.e then f.expo k else b.e).toNat))) = (sfuExactCase fn b && decide (f.magnitude k = b.m * 2 ^ b.e)) := by
      cases hine : b.ine
      · rw [Bool.eq_iff_iff]
        simp [sfuExactCase, hine, heq]
      · simp [sfuExactCase, hine]
    unfold sfuRanged at hv
    simp only [sfuFinite, hpat, hex, hdel, hv, hval, hsub, FVal.isInf, hsame, decide_eq_decide.mpr hless, Bool.not_false, Bool.true_and, Bool.false_eq_true,
      if_false]
    unfold sfuResult
    cases hsm : sfuSmall f fn b (f.magnitude k)
    · unfold sfuSmall FFmt.magnitude at hsm
      rw [FFmt.magnitude, hsm]
      rfl
    · unfold sfuSmall FFmt.magnitude at hsm
      rw [FFmt.magnitude, hsm]
      rfl

end Sys2Proof.Machine
end

section
/-!
SUPPORT. The special functions: the magnitudes that the unit may deliver for an exact result (R70, log 8).
-/

namespace Sys2Proof.Machine

open Sys2Proof

/-- The lower end of a bracket. -/
def Bracket.value (b : Bracket) : ℚ := b.m * 2 ^ b.e

/-- The number that the unit rounds: a bracket's lower end, or the middle of an inexact bracket. -/
def Bracket.middle (b : Bracket) : ℚ := ((2 * b.m + ofBool b.ine : Nat) : ℚ) * 2 ^ (b.e - 1)

theorem Bracket.middle_eq (b : Bracket) : b.middle = (b.m + (ofBool b.ine : Nat) / 2) * 2 ^ b.e := by
  have h : (2 : ℚ) ^ b.e = 2 * 2 ^ (b.e - 1) := by rw [← two_zpow_succ, sub_add_cancel]
  unfold Bracket.middle
  rw [h]
  push_cast
  ring

theorem Bracket.middle_of_exact {b : Bracket} (h : b.ine = false) : b.middle = b.value := by
  rw [Bracket.middle_eq, h, Bracket.value]
  simp [ofBool]

theorem Bracket.middle_of_inexact {b : Bracket} (h : b.ine = true) : b.middle = (b.m + 1 / 2) * 2 ^ b.e := by
  rw [Bracket.middle_eq, h]
  simp [ofBool]

theorem Bracket.value_le_middle (b : Bracket) : b.value ≤ b.middle := by
  cases h : b.ine
  · exact (Bracket.middle_of_exact h).ge
  · rw [Bracket.middle_of_inexact h]
    exact mul_le_mul_of_nonneg_right (by linarith) (two_zpow_pos _).le

/-- A coarser grid has no point within an inexact bracket. -/
theorem Bracket.grid {b : Bracket} (h : b.ine = true) {q : Int} (hq : b.e ≤ q) (z : Nat) :
    ((z : ℚ) * 2 ^ q ≤ b.middle → (z : ℚ) * 2 ^ q ≤ b.value) ∧ (b.middle ≤ z * 2 ^ q → ((b.m + 1 : Nat) : ℚ) * 2 ^ b.e ≤ z * 2 ^ q) ∧
      b.middle ≠ z * 2 ^ q := by
  have he := two_zpow_pos b.e
  rw [Bracket.middle_of_inexact h, Bracket.value, ← mul_zpow_common z hq]
  generalize z * 2 ^ (q - b.e).toNat = n
  rw [mul_le_mul_iff_left₀ he, mul_le_mul_iff_left₀ he, mul_le_mul_iff_left₀ he, mul_le_mul_iff_left₀ he, ne_eq, mul_left_inj' he.ne']
  have hle : (n : ℚ) ≤ b.m + 1 / 2 → n ≤ b.m := fun hn => by
    have : (n : ℚ) < ((b.m + 1 : Nat) : ℚ) := by push_cast; linarith
    exact Nat.lt_succ_iff.mp (by exact_mod_cast this)
  refine ⟨fun hn => by exact_mod_cast hle hn, fun hn => ?_, fun heq => ?_⟩
  · have : (b.m : ℚ) < n := by linarith
    exact_mod_cast this
  · have h1 : (n : ℚ) ≤ b.m := by exact_mod_cast hle heq.ge
    linarith

/-! ## The unit's rounding -/

/-- Truncation takes the lower end of the cell. -/
theorem cellQuant_truncate (z : Nat) (frac : ℚ) : (cellQuant 1 false z frac 0).z = z ∧ ((cellQuant 1 false z frac 0).ine = true ↔ frac ≠ 0) := by
  by_cases h : frac = 0
  · rw [cellQuant_exact h]
    exact ⟨rfl, by simp [h]⟩
  · rw [cellQuant_inexact h]
    exact ⟨rfl, by simp [h]⟩

theorem sfuDeliver_other {fn : Nat} (hfn : fn ≠ 2) (pat : Nat) (b : Bracket) : sfuDeliver fn pat b =
    let r := roundAt 1 false (2 * b.m + ofBool b.ine) (b.e - 1) 24 sfuQuantum 0
    if sfuExactCase fn b && !r.1.ine then (r.1.z, r.2) else
    ((if r.1.ine then r.1.z + 1 - sfuBound fn else r.1.z - sfuBound fn) +
      Config.sfuPick fn pat % (if r.1.ine then 2 * sfuBound fn else 2 * sfuBound fn + 1), r.2) := by
  rw [sfuDeliver, if_neg hfn]

theorem roundAt_zero (e : Int) : (roundAt 1 false 0 e 24 sfuQuantum 0).1.z = 0 ∧ (roundAt 1 false 0 e 24 sfuQuantum 0).1.ine = false := by
  unfold roundAt
  dsimp only
  generalize (if e + (bitLen 0 : Int) - (24 : Nat) ≤ sfuQuantum then sfuQuantum else e + (bitLen 0 : Int) - (24 : Nat)) = q
  by_cases h : q ≤ e
  · simp [h]
  · simp [h, quant]

theorem Bracket.middle_pos {b : Bracket} (hm : b.m ≠ 0) : 0 < b.middle := by
  refine lt_of_lt_of_le (mul_pos ?_ (two_zpow_pos b.e)) b.value_le_middle
  exact_mod_cast Nat.pos_of_ne_zero hm

/-- An exact result that R70 promises is delivered as it is. -/
theorem delivers_exact {fn : Nat} {b : Bracket} {D : ℚ} (hfn : fn ≠ 2) (h : Delivers fn b D) (hexact : sfuExactCase fn b = true)
    (hfit : Fits 24 sfuQuantum b.value) : D = b.value := by
  obtain ⟨pat, rfl⟩ := h
  have hine : b.ine = false := by
    unfold sfuExactCase at hexact
    rw [Bool.and_eq_true, Bool.not_eq_true'] at hexact
    exact hexact.1
  rw [sfuDeliver_other hfn]
  dsimp only
  rcases Nat.eq_zero_or_pos b.m with hm | hm
  · obtain ⟨hz, hr⟩ := roundAt_zero (b.e - 1)
    have h0 : 2 * b.m + ofBool b.ine = 0 := by rw [hm, hine]; rfl
    rw [h0, hexact, hr, Bool.not_false, Bool.and_true, if_pos rfl]
    dsimp only
    rw [hz, Bracket.value, hm, Nat.cast_zero, zero_mul, zero_mul]
  · have hM : 2 * b.m + ofBool b.ine ≠ 0 := by omega
    obtain ⟨z, q, hcell, hround⟩ := roundAt_eq (rm := 1) (by decide) false hM (b.e - 1) (prec := 24) (by decide) sfuQuantum 0
    rw [show ((2 * b.m + ofBool b.ine : Nat) : ℚ) * 2 ^ (b.e - 1) = b.value from Bracket.middle_of_exact hine] at hcell hround
    have hpos : 0 < b.value := by rw [← Bracket.middle_of_exact hine]; exact Bracket.middle_pos hm.ne'
    have hfrac := (hcell.fits_iff (by decide) hpos false).mp (by rwa [signOf_false, one_mul])
    rw [hround, cellQuant_exact hfrac]
    dsimp only
    rw [hexact, Bool.not_false, Bool.and_true, if_pos rfl]
    exact (fracAt_eq_zero_iff.mp hfrac).symm

/-- SQRT delivers the nearest number of F32's precision. -/
theorem delivers_sqrt {b : Bracket} {D : ℚ} (h : Delivers 2 b D) (hm : b.m ≠ 0) : RoundsNear 24 sfuQuantum b.middle D := by
  obtain ⟨pat, rfl⟩ := h
  have hM : 2 * b.m + ofBool b.ine ≠ 0 := by omega
  obtain ⟨z, q, hcell, hround⟩ := roundAt_eq (rm := 0) (by decide) false hM (b.e - 1) (prec := 24) (by decide) sfuQuantum 0
  have hnear := hcell.near (by decide) (Bracket.middle_pos hm) false 0
  simp only [sfuDeliver, if_true, hround]
  exact hnear

/-- D is a multiple d of the last place 2^q of the exact result's binade, in which the bracket lies above z · 2^q, at most k places off. -/
structure Delivery (b : Bracket) (k : Nat) (D : ℚ) (z d : Nat) (q : Int) : Prop where
  eq : D = d * 2 ^ q
  full : 2 ^ 23 ≤ z
  small : z < 2 ^ 24
  lower : (z : ℚ) * 2 ^ q ≤ b.value
  upper : b.value < ((z + 1 : Nat) : ℚ) * 2 ^ q
  upper_inexact : b.ine = true → ((b.m + 1 : Nat) : ℚ) * 2 ^ b.e ≤ ((z + 1 : Nat) : ℚ) * 2 ^ q
  low : z ≤ d + k
  high : d ≤ z + k
  inexact : (b.ine = false ∧ b.value = z * 2 ^ q) ∨ z + 1 ≤ d + k

theorem sfuBound_le (fn : Nat) : sfuBound fn ≤ 2 := by
  unfold sfuBound
  split <;> decide

/-- What the unit may deliver for a result of another function than SQRT (R70). -/
theorem delivers_near {fn : Nat} {b : Bracket} {D : ℚ} (hfn : fn ≠ 2) (h : Delivers fn b D) (hk : 1 ≤ sfuBound fn) (hm : b.m ≠ 0)
    (hine : b.ine = true → 2 ^ 24 ≤ b.m) (hbig : (2 : ℚ) ^ (-4000 : Int) ≤ b.value) : ∃ z d q, Delivery b (sfuBound fn) D z d q := by
  obtain ⟨pat, rfl⟩ := h
  have hM : 2 * b.m + ofBool b.ine ≠ 0 := by omega
  obtain ⟨z, q, hcell, hround⟩ := roundAt_eq (rm := 1) (by decide) false hM (b.e - 1) (prec := 24) (by decide) sfuQuantum 0
  rw [show ((2 * b.m + ofBool b.ine : Nat) : ℚ) * 2 ^ (b.e - 1) = b.middle from rfl] at hcell hround
  have hz24 : ((z + 1 : Nat) : ℚ) ≤ 2 ^ (24 : Int) := by exact_mod_cast hcell.small
  have hmid : b.middle < 2 ^ (24 + q) := by
    refine lt_of_lt_of_le hcell.upper ?_
    rw [two_zpow_add]
    exact mul_le_mul_of_nonneg_right hz24 (two_zpow_pos q).le
  have hfull : 2 ^ 23 ≤ z := by
    rcases hcell.full with hq | hz
    · rw [hq] at hmid
      have h1 := lt_of_le_of_lt (hbig.trans b.value_le_middle) hmid
      have h2 := two_zpow_lt.mp h1
      unfold sfuQuantum at h2
      omega
    · omega
  have hgrid : b.ine = true → b.e ≤ q := fun hi => by
    have h1 : (2 : ℚ) ^ (24 + b.e) < 2 ^ (24 + q) := by
      refine lt_of_le_of_lt (le_trans ?_ b.value_le_middle) hmid
      rw [two_zpow_add]
      refine mul_le_mul_of_nonneg_right ?_ (two_zpow_pos _).le
      exact_mod_cast hine hi
    have := two_zpow_lt.mp h1
    omega
  obtain ⟨hrz, hrine⟩ := cellQuant_truncate z (fracAt b.middle z q)
  have hfrac : b.ine = true → fracAt b.middle z q ≠ 0 := fun hi h0 => (Bracket.grid hi (hgrid hi) z).2.2 (fracAt_eq_zero_iff.mp h0)
  have hlower : (z : ℚ) * 2 ^ q ≤ b.value := by
    cases hi : b.ine
    · rw [← Bracket.middle_of_exact hi]; exact hcell.lower
    · exact (Bracket.grid hi (hgrid hi) z).1 hcell.lower
  have hupper := lt_of_le_of_lt b.value_le_middle hcell.upper
  have hupper' := fun hi => (Bracket.grid hi (hgrid hi) (z + 1)).2.1 hcell.upper.le
  rw [sfuDeliver_other hfn, hround]
  dsimp only
  rw [hrz]
  generalize cellQuant 1 false z (fracAt b.middle z q) 0 = c at hrine
  have hk2 := sfuBound_le fn
  generalize sfuBound fn = k at hk hk2
  have hz := Nat.le_trans (show 1 ≤ 2 ^ 23 by decide) hfull
  by_cases h0 : fracAt b.middle z q = 0
  · have hc : c.ine = false := by simpa using mt hrine.mp (not_not.mpr h0)
    have hi : b.ine = false := by simpa using mt hfrac (not_not.mpr h0)
    have hval : b.ine = false ∧ b.value = z * 2 ^ q := ⟨hi, by rw [← Bracket.middle_of_exact hi]; exact fracAt_eq_zero_iff.mp h0⟩
    rw [hc]
    simp only [Bool.not_false, Bool.and_true, Bool.false_eq_true, if_false]
    by_cases hex : sfuExactCase fn b = true
    · rw [if_pos hex]
      exact ⟨z, z, q, rfl, hfull, hcell.small, hlower, hupper, hupper', by omega, by omega, .inl hval⟩
    · rw [if_neg hex]
      have hpick := Nat.mod_lt (Config.sfuPick fn pat) (show 0 < 2 * k + 1 by omega)
      exact ⟨z, _, q, rfl, hfull, hcell.small, hlower, hupper, hupper', by omega, by omega, .inl hval⟩
  · have hc : c.ine = true := hrine.mpr h0
    have hpick := Nat.mod_lt (Config.sfuPick fn pat) (show 0 < 2 * k by omega)
    rw [hc]
    simp only [Bool.not_true, Bool.and_false, Bool.false_eq_true, if_false, if_true]
    exact ⟨z, _, q, rfl, hfull, hcell.small, hlower, hupper, hupper', by omega, by omega, .inr (by omega)⟩

section
variable {b : Bracket} {k : Nat} {D T : ℚ} {z d : Nat} {q : Int}

/-- The binade of a delivered magnitude. -/
theorem Delivery.exponent_lt (h : Delivery b k D z d q) {n : Int} (hlt : b.value < 2 ^ n) : q + 23 < n := by
  refine two_zpow_lt.mp (lt_of_le_of_lt (le_trans ?_ h.lower) hlt)
  rw [add_comm q, two_zpow_add]
  exact mul_le_mul_of_nonneg_right (by exact_mod_cast h.full) (two_zpow_pos q).le

theorem Delivery.lt_exponent (h : Delivery b k D z d q) {n : Int} (hle : (2 : ℚ) ^ n ≤ b.value) : n < q + 24 := by
  refine two_zpow_lt.mp (lt_of_le_of_lt hle (lt_of_lt_of_le h.upper ?_))
  rw [add_comm q, two_zpow_add]
  refine mul_le_mul_of_nonneg_right ?_ (two_zpow_pos q).le
  exact_mod_cast h.small

/-- The number that a bracket stands for. -/
def Bracket.Holds (b : Bracket) (T : ℚ) : Prop := b.value ≤ T ∧ T < ((b.m + 1 : Nat) : ℚ) * 2 ^ b.e ∧ (b.ine = false → T = b.value)

theorem Delivery.cell (h : Delivery b k D z d q) (hT : b.Holds T) : (z : ℚ) * 2 ^ q ≤ T ∧ T < ((z + 1 : Nat) : ℚ) * 2 ^ q := by
  obtain ⟨h1, h2, h3⟩ := hT
  refine ⟨h.lower.trans h1, ?_⟩
  cases hi : b.ine
  · rw [h3 hi]; exact h.upper
  · exact lt_of_lt_of_le h2 (h.upper_inexact hi)

/-- A bracket fine enough is on the side of a power of two where its number is. -/
theorem Bracket.Holds.two_zpow_le_value (hT : b.Holds T) {n : Int} (hn : b.e ≤ n) (hle : (2 : ℚ) ^ n ≤ T) : (2 : ℚ) ^ n ≤ b.value := by
  have hpow : (2 : ℚ) ^ n = ((2 ^ (n - b.e).toNat : Nat) : ℚ) * 2 ^ b.e := by rw [two_zpow_toNat (by omega), two_zpow_sub_mul]
  have hlt := lt_of_le_of_lt hle hT.2.1
  rw [hpow, mul_lt_mul_iff_left₀ (two_zpow_pos _)] at hlt
  rw [hpow]
  refine mul_le_mul_of_nonneg_right ?_ (two_zpow_pos _).le
  exact_mod_cast Nat.lt_succ_iff.mp (by exact_mod_cast hlt)

end

/-- A result that is not below the least normal number is not tiny. -/
theorem tiny_of_normal (f : FFmt) {m : Nat} (hm : m ≠ 0) (e : Int) (up : Bool) (h : (2 : ℚ) ^ (f.qmin + f.m) ≤ m * 2 ^ e) : tiny f m e up = false := by
  rw [← Bool.not_eq_true, tiny_iff f hm]
  cases up
  · exact not_lt.mpr h
  · rintro ⟨z, q, -, h1, h2⟩
    linarith

end Sys2Proof.Machine
end

section
/-!
SUPPORT. RCP: what is delivered for the reciprocal of a number, and its result (R70, R71).
-/

namespace Sys2Proof.Machine

open Sys2Proof

/-! ## Operands -/

/-- The mantissa and the exponent of a number of a format. -/
theorem SfuFormat.operand {f : FFmt} (hf : SfuFormat f) {v : Nat} {n : Bool} {m : Nat} {e : Int} (h : f.val v = .fin n m e) :
    m < 2 ^ (f.m + 1) ∧ f.qmin ≤ e ∧ (m : ℚ) * 2 ^ e < 2 ^ ((f.bias : Int) + 1) := by
  have hle := FFmt.le_max_of_finite (f := f) (v := v) (by rw [h]; rfl)
  have hval := hf.wf.val_of_le hle
  rw [h] at hval
  injection hval with _ hm he
  subst hm he
  have hpos := Nat.two_pow_pos f.m
  refine ⟨?_, ?_, lt_of_le_of_lt (f.magnitude_strictMono.monotone hle) hf.max_lt⟩
  · have hmod := Nat.mod_lt (v % 2 ^ (f.w - 1)) hpos
    rw [Nat.pow_succ]
    unfold FFmt.mant
    split <;> omega
  · unfold FFmt.expo
    split
    next => exact le_rfl
    next h =>
      have hdiv := (Nat.one_le_div_iff hpos).mpr (Nat.not_lt.mp h)
      omega

theorem Bracket.big {b : Bracket} (hm : b.m ≠ 0) (he : -4000 ≤ b.e) : (2 : ℚ) ^ (-4000 : Int) ≤ b.value := by
  refine (two_zpow_le.mpr he).trans (le_mul_of_one_le_left (two_zpow_pos _).le ?_)
  exact_mod_cast Nat.pos_of_ne_zero hm

/-- A magnitude that is not below the least normal number is no subnormal. -/
theorem FFmt.not_subnormal {f : FFmt} (hf : f.Wf) {k : Nat} (hk : k ≤ f.max) (h : (2 : ℚ) ^ (f.qmin + f.m) ≤ f.magnitude k) : f.subnormal k = false := by
  have hsub := FFmt.Wf.subnormal_iff (Nat.lt_of_le_of_lt hk hf.max_lt) false
  rw [← Bool.not_eq_true]
  exact fun hs => absurd (hsub.mp hs).2 (not_lt.mpr h)

/-- A flushed result is no subnormal (R62). -/
theorem sfuFinite_flushed {f : FFmt} (hf : SfuFormat f) (fn : Nat) (neg : Bool) (m : Nat) (e : Int) :
    f.subnormal (sfuFinite f fn true neg m e).v = false := by
  obtain ⟨D, k, -, -, hcase⟩ := sfuFinite_eq hf fn true neg m e (sg := (sfuExact fn neg m e).1) (b := (sfuExact fn neg m e).2) rfl
  rcases hcase with ⟨heq, -⟩ | ⟨heq, hk⟩
  · obtain ⟨-, hlt, hnormal⟩ := hf.infinity
    simp [heq, FFmt.subnormal, FFmt.Wf.sign_mod hlt, hnormal]
  · rw [heq, sfuResult]
    have hlt := Nat.lt_of_le_of_lt hk hf.wf.max_lt
    cases hs : f.subnormal k
    · simpa [FFmt.subnormal, FFmt.Wf.sign_mod hlt, Nat.mod_eq_of_lt hlt] using hs
    · simp [FFmt.subnormal, FFmt.Wf.sign_mod (Nat.two_pow_pos (f.w - 1))]

/-- A number of F32 within a normal binade of the format is rounded once, within half a last place. -/
theorem Ranged.binade {f : FFmt} {D M : ℚ} (hf : SfuFormat f) (h : Ranged f D M) (hD : Fits 24 (-149) D) {p : Int} (hp : f.qmin + f.m ≤ p)
    (hle : D ≤ 2 ^ (p + 1)) : |M - D| ≤ 2 ^ (p - f.m) - 2 ^ (p - 23) := by
  obtain ⟨hm, hq, hqm, -, -, -⟩ := hf.bounds
  have hpow : (2 : ℚ) ^ (p - 23) ≤ 2 ^ (p - f.m) := two_zpow_le.mpr (by omega)
  rcases eq_or_lt_of_le hle with heq | hlt
  · have hfit : Fits (f.m + 1) f.qmin D := heq ▸ fits_two_zpow (Nat.succ_pos _) (by omega)
    rw [h.eq_of_fits hf hfit, sub_self, abs_zero]
    linarith
  · by_cases h23 : f.m = 23
    · have hfit : Fits (f.m + 1) f.qmin D := by
        rw [h23]
        refine hD.mono le_rfl ?_
        rcases hf with rfl | rfl | rfl
        · exact absurd h23 (by decide)
        · exact absurd h23 (by decide)
        · decide
      rw [h.eq_of_fits hf hfit, sub_self, abs_zero]
      linarith
    · have hhalf := h.half hD (p := p - f.m) (by omega) (by rwa [sub_add_cancel])
      have h1 : (2 : ℚ) ^ (p - f.m) = 2 * 2 ^ (p - f.m - 1) := by rw [← two_zpow_succ, sub_add_cancel]
      have h2 : (2 : ℚ) ^ (p - 23) ≤ 2 ^ (p - f.m - 1) := two_zpow_le.mpr (by omega)
      linarith

/-! ## Reciprocals -/

/-- The bracket of a reciprocal. -/
def rcpBracket (m : Nat) (e : Int) : Bracket := ⟨2 ^ 1024 / m, -e - 1024, decide (2 ^ 1024 % m ≠ 0)⟩

theorem sfuExact_rcp (neg : Bool) (m : Nat) (e : Int) : sfuExact 0 neg m e = (neg, rcpBracket m e) := rfl

theorem natCast_two_pow (n : Nat) : ((2 ^ n : Nat) : ℚ) = 2 ^ (n : Int) := by rw [Nat.cast_pow, Nat.cast_ofNat, zpow_natCast]

theorem two_pow_mul_le {a b c : Nat} (h : a + b ≤ c) : 2 ^ a * 2 ^ b ≤ 2 ^ c := by
  rw [← Nat.pow_add]
  exact Nat.pow_le_pow_right (by decide) h

theorem two_pow_lt_mul {a b c : Nat} (h : c < a + b) : 2 ^ c < 2 ^ a * 2 ^ b := by
  rw [← Nat.pow_add]
  exact Nat.pow_lt_pow_right (by decide) h

/-- A quotient and its remainder. -/
theorem natCast_div_eq (a : Nat) {m : Nat} (hm : m ≠ 0) : (a : ℚ) / m = (a / m : Nat) + ((a % m : Nat) : ℚ) / m := by
  have hm0 : (m : ℚ) ≠ 0 := by exact_mod_cast hm
  have hsplit : (a : ℚ) = ((a / m * m + a % m : Nat) : ℚ) := congrArg _ (Nat.div_add_mod' a m).symm
  rw [Nat.cast_add, Nat.cast_mul] at hsplit
  nth_rw 1 [hsplit]
  rw [add_div, mul_div_cancel_right₀ _ hm0]

theorem natCast_mod_div_lt (a : Nat) {m : Nat} (hm : m ≠ 0) : ((a % m : Nat) : ℚ) / m < 1 := by
  rw [div_lt_one (by exact_mod_cast Nat.pos_of_ne_zero hm), Nat.cast_lt]
  exact Nat.mod_lt _ (Nat.pos_of_ne_zero hm)

/-- The reciprocal in the last places of its bracket. -/
theorem reciprocal_eq {m : Nat} (hm : m ≠ 0) (e : Int) :
    ((m : ℚ) * 2 ^ e)⁻¹ = ((2 ^ 1024 / m : Nat) + ((2 ^ 1024 % m : Nat) : ℚ) / m) * 2 ^ (-e - 1024) := by
  have hcast : ((2 ^ 1024 : Nat) : ℚ) = 2 ^ ((1024 : Nat) : Int) := natCast_two_pow 1024
  rw [← natCast_div_eq _ hm, hcast, mul_inv, ← zpow_neg, div_mul_eq_mul_div, ← two_zpow_add, Nat.cast_ofNat, add_sub_cancel, div_eq_inv_mul]

theorem rcpBracket_holds {m : Nat} (hm : m ≠ 0) (e : Int) : (rcpBracket m e).Holds ((m : ℚ) * 2 ^ e)⁻¹ := by
  have hr : ((2 ^ 1024 % m : Nat) : ℚ) / m < 1 := natCast_mod_div_lt _ hm
  rw [reciprocal_eq hm]
  unfold Bracket.Holds Bracket.value rcpBracket
  dsimp only
  refine ⟨mul_le_mul_of_nonneg_right (le_add_of_nonneg_right (div_nonneg (Nat.cast_nonneg _) (Nat.cast_nonneg _))) (two_zpow_pos _).le,
    mul_lt_mul_of_pos_right ?_ (two_zpow_pos _), fun h => ?_⟩
  · rw [Nat.cast_add, Nat.cast_one]
    linarith
  · have h0 : 2 ^ 1024 % m = 0 := not_not.mp (of_decide_eq_false h)
    rw [h0, Nat.cast_zero, zero_div, add_zero]

/-- A reciprocal is exact for a power of two only. -/
theorem rcpBracket_ine {m : Nat} (hm : m < 2 ^ 24) (e : Int) : (rcpBracket m e).ine = false ↔ ∃ i, m = 2 ^ i := by
  unfold rcpBracket
  rw [decide_eq_false_iff_not, not_not, ← Nat.dvd_iff_mod_eq_zero, Nat.dvd_prime_pow Nat.prime_two]
  constructor
  · rintro ⟨i, -, rfl⟩
    exact ⟨i, rfl⟩
  · rintro ⟨i, rfl⟩
    have := (Nat.pow_lt_pow_iff_right (by decide)).mp hm
    exact ⟨i, by omega, rfl⟩

theorem rcpBracket_big {m : Nat} (h0 : m ≠ 0) (hm : m < 2 ^ 24) (e : Int) : 2 ^ 24 ≤ (rcpBracket m e).m := by
  unfold rcpBracket
  rw [Nat.le_div_iff_mul_le (Nat.pos_of_ne_zero h0)]
  exact (Nat.mul_le_mul_left _ hm.le).trans (two_pow_mul_le (by decide))

/-- What RCP delivers: a power of two as it is, another reciprocal as one of its neighbours. -/
theorem rcp_delivers {m : Nat} {e : Int} {D : ℚ} (h0 : m ≠ 0) (hm : m < 2 ^ 24) (he : e ≤ 2000 ∧ -2000 ≤ e) (h : Delivers 0 (rcpBracket m e) D) :
    ((∃ i, m = 2 ^ i) ∧ ∃ j : Int, -2100 ≤ j ∧ ((m : ℚ) * 2 ^ e)⁻¹ = 2 ^ j ∧ D = 2 ^ j) ∨
    ((¬ ∃ i, m = 2 ^ i) ∧ ∃ z d q, Delivery (rcpBracket m e) 1 D z d q ∧ z ≤ d) := by
  have hbig := rcpBracket_big h0 hm e
  by_cases hpow : ∃ i, m = 2 ^ i
  · refine .inl ⟨hpow, ?_⟩
    have hine := (rcpBracket_ine hm e).mpr hpow
    have hT := (rcpBracket_holds h0 e).2.2 hine
    obtain ⟨i, rfl⟩ := hpow
    have hi := (Nat.pow_lt_pow_iff_right (by decide)).mp hm
    have hpow : (((2 ^ i : Nat) : ℚ) * 2 ^ e)⁻¹ = 2 ^ (-(i : Int) - e) := by
      rw [Nat.cast_pow, Nat.cast_ofNat, ← zpow_natCast, ← two_zpow_add, ← zpow_neg, neg_add']
    have hfit : Fits 24 sfuQuantum (rcpBracket (2 ^ i) e).value := by
      rw [← hT, hpow]
      exact fits_two_zpow (by decide) (by unfold sfuQuantum; omega)
    have hD := delivers_exact (by decide) h (by simp [sfuExactCase, hine]) hfit
    exact ⟨_, by omega, hpow, by rw [hD, ← hT, hpow]⟩
  · refine .inr ⟨hpow, ?_⟩
    have hine : (rcpBracket m e).ine = true := by simpa using mt (rcpBracket_ine hm e).mp hpow
    obtain ⟨z, d, q, hd⟩ := delivers_near (by decide) h (by decide) (Nat.ne_of_gt (Nat.lt_of_lt_of_le (by decide) hbig)) (fun _ => hbig)
      (Bracket.big (Nat.ne_of_gt (Nat.lt_of_lt_of_le (by decide) hbig)) (by unfold rcpBracket; dsimp only; omega))
    refine ⟨z, d, q, hd, ?_⟩
    rcases hd.inexact with ⟨hf, -⟩ | hle
    · rw [hine] at hf; exact absurd hf (by decide)
    · exact Nat.le_of_succ_le_succ hle

section
variable {b : Bracket} {D T : ℚ} {z d : Nat} {q : Int}

/-- A neighbour of an inexact result stays in its binade. -/
theorem Delivery.above (h : Delivery b 1 D z d q) (hzd : z ≤ d) (hT : b.Holds T) {n : Int} (hn : (2 : ℚ) ^ n ≤ T) : (2 : ℚ) ^ n ≤ D := by
  have hlt : n < q + 24 := by
    refine two_zpow_lt.mp (lt_of_le_of_lt hn (lt_of_lt_of_le (h.cell hT).2 ?_))
    rw [add_comm q, two_zpow_add]
    refine mul_le_mul_of_nonneg_right ?_ (two_zpow_pos q).le
    exact_mod_cast h.small
  rw [h.eq]
  calc (2 : ℚ) ^ n ≤ 2 ^ (23 + q) := two_zpow_le.mpr (by omega)
    _ = 2 ^ (23 : Int) * 2 ^ q := two_zpow_add ..
    _ ≤ d * 2 ^ q := mul_le_mul_of_nonneg_right (by exact_mod_cast h.full.trans hzd) (two_zpow_pos q).le

theorem Delivery.exponent_lt_of_holds (h : Delivery b 1 D z d q) (hT : b.Holds T) {n : Int} (hn : T < 2 ^ n) : q + 23 < n :=
  h.exponent_lt (lt_of_le_of_lt hT.1 hn)

theorem Delivery.below (h : Delivery b 1 D z d q) (hT : b.Holds T) {n : Int} (hn : T < 2 ^ n) : D ≤ 2 ^ n := by
  have hlt := h.exponent_lt_of_holds hT hn
  rw [h.eq]
  calc (d : ℚ) * 2 ^ q ≤ 2 ^ (24 : Int) * 2 ^ q :=
        mul_le_mul_of_nonneg_right (by exact_mod_cast h.high.trans h.small) (two_zpow_pos q).le
    _ = 2 ^ (24 + q) := (two_zpow_add ..).symm
    _ ≤ 2 ^ n := two_zpow_le.mpr (by omega)

theorem Delivery.error (h : Delivery b 1 D z d q) (hzd : z ≤ d) (hT : b.Holds T) : |D - T| ≤ 2 ^ q := by
  obtain ⟨h1, h2⟩ := h.cell hT
  have h3 : (z : ℚ) * 2 ^ q ≤ D := by rw [h.eq]; exact mul_le_mul_of_nonneg_right (by exact_mod_cast hzd) (two_zpow_pos q).le
  have h4 : D ≤ ((z + 1 : Nat) : ℚ) * 2 ^ q := by rw [h.eq]; exact mul_le_mul_of_nonneg_right (by exact_mod_cast h.high) (two_zpow_pos q).le
  have h5 : ((z + 1 : Nat) : ℚ) * 2 ^ q = z * 2 ^ q + 2 ^ q := by push_cast; ring
  rw [abs_le]
  constructor <;> linarith

theorem Delivery.fits (h : Delivery b 1 D z d q) (hq : -149 ≤ q) : Fits 24 (-149) D :=
  h.eq ▸ fits_natCast (by decide) (h.high.trans h.small) hq

end

section
variable {f : FFmt} {m : Nat} {e : Int} {D T : ℚ}

/-- What RCP delivers stays in the binade of the reciprocal. -/
theorem rcp_above (h0 : m ≠ 0) (hm : m < 2 ^ 24) (he : e ≤ 2000 ∧ -2000 ≤ e) (h : Delivers 0 (rcpBracket m e) D) {n : Int}
    (hn : (2 : ℚ) ^ n ≤ ((m : ℚ) * 2 ^ e)⁻¹) : (2 : ℚ) ^ n ≤ D := by
  rcases rcp_delivers h0 hm he h with ⟨-, j, -, hT, rfl⟩ | ⟨-, z, d, q, hd, hzd⟩
  · rwa [← hT]
  · exact hd.above hzd (rcpBracket_holds h0 e) hn

theorem rcp_below (h0 : m ≠ 0) (hm : m < 2 ^ 24) (he : e ≤ 2000 ∧ -2000 ≤ e) (h : Delivers 0 (rcpBracket m e) D) {n : Int}
    (hn : ((m : ℚ) * 2 ^ e)⁻¹ < 2 ^ n) : D ≤ 2 ^ n := by
  rcases rcp_delivers h0 hm he h with ⟨-, j, -, hT, rfl⟩ | ⟨-, z, d, q, hd, hzd⟩
  · rw [← hT]; exact hn.le
  · exact hd.below (rcpBracket_holds h0 e) hn

/-- The exponents of an operand are far from the unit's least quantum. -/
theorem SfuFormat.exponent_bounds (hf : SfuFormat f) (h0 : m ≠ 0) (he : f.qmin ≤ e) (hlt : (m : ℚ) * 2 ^ e < 2 ^ ((f.bias : Int) + 1)) :
    e ≤ 2000 ∧ -149 ≤ e := by
  obtain ⟨-, hq, -, -, hb, -⟩ := hf.bounds
  have h1 : (2 : ℚ) ^ e < 2 ^ ((f.bias : Int) + 1) := by
    refine lt_of_le_of_lt (le_mul_of_one_le_left (two_zpow_pos e).le ?_) hlt
    exact_mod_cast Nat.pos_of_ne_zero h0
  have := two_zpow_lt.mp h1
  omega

variable (hf : SfuFormat f) (h0 : m ≠ 0) (hm : m < 2 ^ (f.m + 1)) (he : f.qmin ≤ e) (hlt : (m : ℚ) * 2 ^ e < 2 ^ ((f.bias : Int) + 1)) (fso n : Bool)
include hf h0 hm he hlt

theorem rcp_operand : m < 2 ^ 24 ∧ (e ≤ 2000 ∧ -2000 ≤ e) ∧ (rcpBracket m e).e < -800 ∧ (rcpBracket m e).m ≠ 0 := by
  have hb := hf.exponent_bounds h0 he hlt
  have hm24 : m < 2 ^ 24 := lt_of_lt_of_le hm (Nat.pow_le_pow_right (by decide) (by have := hf.bounds.1; omega))
  refine ⟨hm24, ⟨hb.1, by omega⟩, by unfold rcpBracket; dsimp only; omega, ?_⟩
  exact Nat.ne_of_gt (Nat.lt_of_lt_of_le (by decide) (rcpBracket_big h0 hm24 e))

/-- RCP of a number whose reciprocal is beyond the range. -/
theorem rcp_overflow (hT : (2 : ℚ) ^ ((f.bias : Int) + 1) ≤ ((m : ℚ) * 2 ^ e)⁻¹) : sfuFinite f 0 fso n m e = ⟨f.sign n (f.inf.getD 0), fOF, 0⟩ := by
  obtain ⟨hm24, he', -, -⟩ := rcp_operand hf h0 hm he hlt
  obtain ⟨D, k, hdel, hranged, hcase⟩ := sfuFinite_eq hf 0 fso n m e (sfuExact_rcp n m e)
  rcases hcase with ⟨heq, -⟩ | ⟨-, hk⟩
  · exact heq
  · have hD := rcp_above h0 hm24 he' hdel hT
    obtain ⟨-, hq, hqm, -⟩ := hf.bounds
    have hM := hranged.above hf (fits_two_zpow (Nat.succ_pos _) (by omega)) hD
    linarith [f.magnitude_strictMono.monotone hk, hf.max_lt]

/-- RCP of a number whose reciprocal is normal. -/
theorem rcp_normal {p : Int} (hnormal : (2 : ℚ) ^ (f.qmin + f.m) ≤ ((m : ℚ) * 2 ^ e)⁻¹) (hbias : ((m : ℚ) * 2 ^ e)⁻¹ < 2 ^ (f.bias : Int))
    (hlow : (2 : ℚ) ^ p ≤ ((m : ℚ) * 2 ^ e)⁻¹) (hhigh : ((m : ℚ) * 2 ^ e)⁻¹ < 2 ^ (p + 1)) : ∃ k ≤ f.max, sfuFinite f 0 fso n m e = ⟨f.sign n k, 0, 0⟩ ∧
      |f.magnitude k - ((m : ℚ) * 2 ^ e)⁻¹| ≤ 2 ^ (p - f.m) ∧ ((∃ i, m = 2 ^ i) → f.magnitude k = ((m : ℚ) * 2 ^ e)⁻¹) := by
  obtain ⟨hm24, he', hbe, hbm⟩ := rcp_operand hf h0 hm he hlt
  have hholds := rcpBracket_holds h0 e
  obtain ⟨D, k, hdel, hranged, hcase⟩ := sfuFinite_eq hf 0 fso n m e (sfuExact_rcp n m e)
  obtain ⟨hm23, hq, hqm, -, hb, hm7⟩ := hf.bounds
  have hp : f.qmin + f.m < p + 1 := two_zpow_lt.mp (lt_of_le_of_lt hnormal hhigh)
  have hDn := rcp_above h0 hm24 he' hdel hnormal
  have hDp := rcp_below h0 hm24 he' hdel hhigh
  rcases hcase with ⟨-, hbig⟩ | ⟨heq, hk⟩
  · exact absurd (rcp_below h0 hm24 he' hdel hbias) (not_le.mpr hbig)
  have hMn := hranged.above hf (fits_two_zpow (Nat.succ_pos _) (by omega)) hDn
  have hsmall : sfuSmall f 0 (rcpBracket m e) (f.magnitude k) = false := by
    rw [sfuSmall, tiny_of_normal f hbm _ _ (hholds.two_zpow_le_value (by omega) hnormal), Bool.and_false]
  refine ⟨k, hk, ?_, ?_⟩
  · rw [heq, sfuResult, FFmt.not_subnormal hf.wf hk hMn, hsmall]
    simp
  · rcases rcp_delivers h0 hm24 he' hdel with ⟨-, j, -, hT, rfl⟩ | ⟨hpow, z, d, q, hd, hzd⟩
    · have hj : f.qmin + f.m ≤ j := two_zpow_le.mp hDn
      have hM := hranged.eq_of_fits hf (fits_two_zpow (Nat.succ_pos _) (by omega))
      rw [hM, hT, sub_self, abs_zero]
      exact ⟨(two_zpow_pos _).le, fun _ => rfl⟩
    · refine ⟨?_, fun h => absurd h hpow⟩
      have hqp := hd.exponent_lt_of_holds hholds hhigh
      have hpq := hd.lt_exponent (hholds.two_zpow_le_value (by omega) hlow)
      have h1 := hranged.binade hf (hd.fits (by omega)) (p := p) (by omega) hDp
      have h2 : |D - ((m : ℚ) * 2 ^ e)⁻¹| ≤ 2 ^ (p - 23) := (hd.error hzd hholds).trans (two_zpow_le.mpr (by omega))
      linarith [abs_sub_le (f.magnitude k) D ((m : ℚ) * 2 ^ e)⁻¹]

omit hf h0 hm he hlt in
/-- A number of a format above a power of two is above its next neighbour. -/
theorem Fits.next {prec : Nat} {qmin n : Int} {y : ℚ} (hy : Fits (prec + 1) qmin y) (hq : qmin ≤ n - prec) (hlt : (2 : ℚ) ^ n < y) :
    (2 ^ prec + 1) * 2 ^ (n - prec) ≤ y := by
  have heq : ((2 ^ prec : Nat) : ℚ) * 2 ^ (n - prec) = 2 ^ n := by rw [natCast_two_pow, ← two_zpow_add, add_sub_cancel]
  have hcell : Cell (prec + 1) qmin (2 ^ n) (2 ^ prec) (n - prec) := by
    refine ⟨heq.le, ?_, Nat.pow_lt_pow_right (by decide) (Nat.lt_succ_self _), hq, .inr (by rw [Nat.pow_succ, Nat.mul_comm])⟩
    rw [Nat.cast_add, add_mul, heq, Nat.cast_one, one_mul]
    linarith [two_zpow_pos (n - prec)]
  have habs : |y| = y := abs_of_pos (lt_trans (two_zpow_pos n) hlt)
  have hgap := hcell.gap hy (by rw [heq, habs]; exact hlt)
  rw [habs] at hgap
  exact_mod_cast hgap

omit hf he hlt in
/-- The reciprocal of a number that is above a power of two keeps its distance from that power's reciprocal. -/
theorem rcp_gap {n : Int} (hT : ((m : ℚ) * 2 ^ e)⁻¹ < 2 ^ n) :
    ((m : ℚ) * 2 ^ e)⁻¹ ≤ ((2 ^ (f.m + 1) - 1 : Nat) : ℚ) * 2 ^ (n - f.m - 1) ∧ ((2 ^ (f.m + 1) - 1 : Nat) : ℚ) * 2 ^ (n - f.m - 1) < 2 ^ n := by
  have hx : (0 : ℚ) < m * 2 ^ e := mul_pos (by exact_mod_cast Nat.pos_of_ne_zero h0) (two_zpow_pos e)
  have hxn : (2 : ℚ) ^ (-n) < m * 2 ^ e := by
    rw [zpow_neg]
    exact (inv_lt_comm₀ hx (two_zpow_pos n)).mp hT
  have hfit : Fits (f.m + 1) (min e (-n - f.m)) ((m : ℚ) * 2 ^ e) := ⟨m, e, hm, min_le_left _ _, abs_of_pos hx⟩
  have hnext := hfit.next (min_le_right _ _) hxn
  have hcast : ((2 ^ (f.m + 1) - 1 : Nat) : ℚ) = 2 * 2 ^ f.m - 1 := by
    rw [Nat.cast_sub Nat.one_le_two_pow, Nat.pow_succ]
    push_cast
    ring
  have hA : (1 : ℚ) ≤ 2 ^ f.m := one_le_pow₀ (by norm_num)
  have hw : (2 : ℚ) ^ n = 2 * 2 ^ f.m * 2 ^ (n - f.m - 1) := by
    rw [mul_assoc, ← zpow_natCast, ← two_zpow_add, ← two_zpow_succ]
    congr 1
    ring
  have hinv : (2 : ℚ) ^ (-n - f.m) * 2 ^ (n - f.m - 1) * (2 * 2 ^ f.m * 2 ^ f.m) = 1 := by
    rw [mul_assoc, ← zpow_natCast, mul_assoc 2, ← two_zpow_add, ← two_zpow_succ, ← two_zpow_add, ← two_zpow_add]
    rw [show -n - (f.m : Int) + (n - f.m - 1 + (f.m + f.m + 1)) = 0 by ring, zpow_zero]
  rw [hcast, hw]
  generalize (2 : ℚ) ^ f.m = A at *
  have hw0 := two_zpow_pos (n - f.m - 1)
  have hv0 := two_zpow_pos (-n - f.m)
  generalize (2 : ℚ) ^ (n - f.m - 1) = w at *
  generalize (2 : ℚ) ^ (-n - f.m) = v at *
  refine ⟨?_, by nlinarith⟩
  refine inv_le_of_inv_le₀ (mul_pos (by linarith) hw0) (le_trans ?_ hnext)
  rw [inv_le_iff_one_le_mul₀ (mul_pos (by linarith) hw0)]
  calc (1 : ℚ) = v * w * (2 * A * A) := hinv.symm
    _ ≤ v * w * ((A + 1) * (2 * A - 1)) := mul_le_mul_of_nonneg_left (by nlinarith) (mul_pos hv0 hw0).le
    _ = (A + 1) * v * ((2 * A - 1) * w) := by ring

/-- The reciprocal of a number that is below the least normal number keeps its distance from it (R61). -/
theorem rcp_tiny (hT : ((m : ℚ) * 2 ^ e)⁻¹ < 2 ^ (f.qmin + f.m)) (up : Bool) :
    tiny f (rcpBracket m e).m (rcpBracket m e).e up = true := by
  obtain ⟨hm24, -, -, hbm⟩ := rcp_operand hf h0 hm he hlt
  have hle := (rcpBracket_holds h0 e).1
  unfold Bracket.value at hle
  rw [tiny_iff f hbm]
  cases up
  · exact lt_of_le_of_lt hle hT
  · have hgap := rcp_gap h0 hm hT
    rw [add_sub_cancel_right] at hgap
    exact ⟨2 ^ (f.m + 1) - 1, f.qmin - 1, Nat.sub_lt (Nat.two_pow_pos _) Nat.one_pos, hle.trans hgap.1, hgap.2⟩

/-- RCP of a number whose reciprocal is below the normal ones. -/
theorem rcp_subnormal (hpow : ¬ ∃ i, m = 2 ^ i) (hT : ((m : ℚ) * 2 ^ e)⁻¹ < 2 ^ (f.qmin + f.m)) : (sfuFinite f 0 fso n m e).fl = fUF ∧
    (fso = false → ∃ k ≤ f.max, (sfuFinite f 0 fso n m e).v = f.sign n k ∧ |f.magnitude k - ((m : ℚ) * 2 ^ e)⁻¹| ≤ 2 ^ f.qmin) := by
  obtain ⟨hm24, he', hbe, hbm⟩ := rcp_operand hf h0 hm he hlt
  have hholds := rcpBracket_holds h0 e
  obtain ⟨D, k, hdel, hranged, hcase⟩ := sfuFinite_eq hf 0 fso n m e (sfuExact_rcp n m e)
  obtain ⟨hm23, hq, hqm, hb15, hb, hm7⟩ := hf.bounds
  have hDn := rcp_below h0 hm24 he' hdel hT
  rcases hcase with ⟨-, hbig⟩ | ⟨heq, hk⟩
  · have hle : (2 : ℚ) ^ (f.qmin + f.m) ≤ 2 ^ (f.bias : Int) := two_zpow_le.mpr (by omega)
    linarith
  have hine : (rcpBracket m e).ine = true := by simpa using mt (rcpBracket_ine hm24 e).mp hpow
  have hsmall : sfuSmall f 0 (rcpBracket m e) (f.magnitude k) = true := by
    have hbm' : ((rcpBracket m e).m != 0) = true := by simpa using hbm
    rw [sfuSmall, rcp_tiny hf h0 hm he hlt hT, hbm', sfuExactCase, hine]
    rfl
  rw [heq, hsmall, sfuResult]
  refine ⟨by split <;> rfl, fun hfso => ⟨k, hk, by rw [hfso, Bool.false_and]; rfl, ?_⟩⟩
  obtain ⟨z, d, q, hd, hzd⟩ := ((rcp_delivers h0 hm24 he' hdel).resolve_left fun h => hpow h.1).2
  have hqn := hd.exponent_lt_of_holds hholds hT
  have herr := hd.error hzd hholds
  have htri := abs_sub_le (f.magnitude k) D ((m : ℚ) * 2 ^ e)⁻¹
  by_cases hq149 : -149 ≤ q
  · have h1 := hranged.half (hd.fits hq149) (p := f.qmin) le_rfl (lt_of_le_of_lt hDn (two_zpow_lt.mpr (by omega)))
    have h2 : (2 : ℚ) ^ q ≤ 2 ^ (f.qmin - 1) := two_zpow_le.mpr (by omega)
    have h3 : (2 : ℚ) ^ f.qmin = 2 * 2 ^ (f.qmin - 1) := by rw [← two_zpow_succ, sub_add_cancel]
    linarith
  · have h1 := hranged.tiny hf hDn
    have h2 : (2 : ℚ) ^ q ≤ 2 ^ (-150 : Int) := two_zpow_le.mpr (by omega)
    linarith

end

end Sys2Proof.Machine
end

section
/-!
SUPPORT. SQRT and RSQ of F32: the square roots that bracket the exact result, and what the unit makes of them (R70).
-/

namespace Sys2Proof.Machine

open Sys2Proof

/-! ## Integer square roots -/

/-- The bits found so far are the root's, down to bit b. -/
theorem isqrtFrom_spec (n : Nat) : ∀ b r, r * r ≤ n → n < (r + 2 ^ b) * (r + 2 ^ b) →
    isqrtFrom n b r * isqrtFrom n b r ≤ n ∧ n < (isqrtFrom n b r + 1) * (isqrtFrom n b r + 1)
  | 0, r, hle, hlt => ⟨hle, hlt⟩
  | b + 1, r, hle, hlt => by
    have htop : r + 2 ^ (b + 1) = r + 2 ^ b + 2 ^ b := by rw [Nat.pow_succ]; omega
    rw [isqrtFrom]
    by_cases h : (r + 2 ^ b) * (r + 2 ^ b) ≤ n
    · rw [if_pos h]
      exact isqrtFrom_spec n b _ h (by rwa [← htop])
    · rw [if_neg h]
      exact isqrtFrom_spec n b r hle (Nat.lt_of_not_le h)

/-! ## Brackets of roots -/

/-- A bracket stands for the square root of X. -/
structure Bracket.HoldsRoot (b : Bracket) (X : ℚ) : Prop where
  big : 2 ^ 24 ≤ b.m
  lower : b.value ^ 2 ≤ X
  upper : X < (((b.m + 1 : Nat) : ℚ) * 2 ^ b.e) ^ 2
  exact : b.ine = false → X = b.value ^ 2

theorem Bracket.value_nonneg (b : Bracket) : 0 ≤ b.value := mul_nonneg (Nat.cast_nonneg _) (two_zpow_pos _).le

theorem two_zpow_sq (n : Int) : ((2 : ℚ) ^ n) ^ 2 = 2 ^ (2 * n) := by rw [pow_two, ← two_zpow_add, two_mul]

section
variable {b : Bracket} {X : ℚ} {E : Int}

theorem Bracket.HoldsRoot.ne_zero (h : b.HoldsRoot X) : b.m ≠ 0 := Nat.ne_of_gt (Nat.lt_of_lt_of_le (by decide) h.big)

theorem Bracket.HoldsRoot.value_lt (h : b.HoldsRoot X) (hX : X < 2 ^ (2 * E + 2)) : b.value < 2 ^ (E + 1) := by
  refine lt_of_pow_lt_pow_left₀ 2 (two_zpow_pos _).le (lt_of_le_of_lt h.lower (lt_of_lt_of_eq hX ?_))
  rw [two_zpow_sq, mul_add, mul_one]

/-- The bracket is finer than the root's last place of F32. -/
theorem Bracket.HoldsRoot.exponent_le (h : b.HoldsRoot X) (hX : X < 2 ^ (2 * E + 2)) : b.e ≤ E - 24 := by
  have hlt := lt_of_le_of_lt (mul_le_mul_of_nonneg_right (show (2 : ℚ) ^ (24 : Int) ≤ b.m by exact_mod_cast h.big) (two_zpow_pos b.e).le) (h.value_lt hX)
  rw [← two_zpow_add] at hlt
  have := two_zpow_lt.mp hlt
  omega

theorem Bracket.HoldsRoot.le_value (h : b.HoldsRoot X) (hX : X < 2 ^ (2 * E + 2)) (hlow : (2 : ℚ) ^ (2 * E) ≤ X) : (2 : ℚ) ^ E ≤ b.value := by
  have he := h.exponent_le hX
  have hpow : (2 : ℚ) ^ E = ((2 ^ (E - b.e).toNat : Nat) : ℚ) * 2 ^ b.e := by rw [two_zpow_toNat (by omega), two_zpow_sub_mul]
  have hlt : (2 : ℚ) ^ E < ((b.m + 1 : Nat) : ℚ) * 2 ^ b.e := by
    refine lt_of_pow_lt_pow_left₀ 2 (mul_nonneg (Nat.cast_nonneg _) (two_zpow_pos _).le) (lt_of_le_of_lt ?_ h.upper)
    rwa [two_zpow_sq]
  rw [hpow, mul_lt_mul_iff_left₀ (two_zpow_pos _)] at hlt
  rw [hpow]
  refine mul_le_mul_of_nonneg_right ?_ (two_zpow_pos _).le
  exact_mod_cast Nat.lt_succ_iff.mp (by exact_mod_cast hlt)

/-- What lies below the bracket is below the root. -/
theorem Bracket.HoldsRoot.sq_le (h : b.HoldsRoot X) {y : ℚ} (h0 : 0 ≤ y) (hy : y ≤ b.value) : y ^ 2 ≤ X :=
  (pow_le_pow_left₀ h0 hy 2).trans h.lower

/-- What lies above the bracket is above the root. -/
theorem Bracket.HoldsRoot.le_sq (h : b.HoldsRoot X) {y : ℚ} (hin : b.ine = true → ((b.m + 1 : Nat) : ℚ) * 2 ^ b.e ≤ y)
    (hex : b.ine = false → b.value ≤ y) : X ≤ y ^ 2 := by
  cases hi : b.ine
  · rw [h.exact hi]
    exact pow_le_pow_left₀ b.value_nonneg (hex hi) 2
  · exact h.upper.le.trans (pow_le_pow_left₀ (mul_nonneg (Nat.cast_nonneg _) (two_zpow_pos _).le) (hin hi) 2)

/-- A number of 24 bits in a binade is a multiple of the binade's last place. -/
theorem Fits.multiple {prec : Nat} {qmin : Int} {y : ℚ} (h : Fits prec qmin y) (hy : (2 : ℚ) ^ E ≤ y) :
    ∃ N : Nat, N ≠ 0 ∧ y = N * 2 ^ (E + 1 - prec) := by
  obtain ⟨z, q, hz, -, habs⟩ := h
  rw [abs_of_pos (lt_of_lt_of_le (two_zpow_pos E) hy)] at habs
  have hlt : (2 : ℚ) ^ E < 2 ^ (prec + q) := by
    refine lt_of_le_of_lt (habs ▸ hy) ?_
    rw [two_zpow_add, mul_lt_mul_iff_left₀ (two_zpow_pos q)]
    exact_mod_cast hz
  have hq : E + 1 - prec ≤ q := by
    have := two_zpow_lt.mp hlt
    omega
  have heq := habs.trans (mul_zpow_common z hq).symm
  refine ⟨_, fun h0 => ?_, heq⟩
  rw [h0, Nat.cast_zero, zero_mul] at heq
  exact absurd (heq ▸ hy) (not_le.mpr (two_zpow_pos E))

/-- The root rounded to nearest is within half a last place. -/
theorem Bracket.HoldsRoot.nearest (h : b.HoldsRoot X) {D : ℚ} (hD : RoundsNear 24 sfuQuantum b.middle D) (hE : -4000 ≤ E)
    (hlow : (2 : ℚ) ^ (2 * E) ≤ X) (hX : X < 2 ^ (2 * E + 2)) :
    (2 : ℚ) ^ E ≤ D ∧ D ≤ 2 ^ (E + 1) ∧ (D - 2 ^ (E - 23) / 2) ^ 2 ≤ X ∧ X ≤ (D + 2 ^ (E - 23) / 2) ^ 2 := by
  have he := h.exponent_le hX
  have hmid : b.middle ≤ 2 ^ (E + 1) := by
    cases hi : b.ine
    · rw [Bracket.middle_of_exact hi]; exact (h.value_lt hX).le
    · by_contra hgt
      have hone := (Bracket.grid hi (show b.e ≤ E + 1 by omega) 1).1
      rw [Nat.cast_one, one_mul] at hone
      exact absurd (hone (not_le.mp hgt).le) (not_le.mpr (h.value_lt hX))
  have hmid' : b.middle < 2 ^ (E - 23 + (24 : Nat)) := by
    refine lt_of_le_of_ne (hmid.trans (two_zpow_le.mpr (by omega))) fun heq => ?_
    rw [show E - 23 + ((24 : Nat) : Int) = E + 1 by push_cast; ring] at heq
    cases hi : b.ine
    · rw [Bracket.middle_of_exact hi] at heq
      exact absurd heq (h.value_lt hX).ne
    · have hne := (Bracket.grid hi (show b.e ≤ E + 1 by omega) 1).2.2
      rw [Nat.cast_one, one_mul] at hne
      exact hne heq
  have hlowD := hD.above _ (fits_two_zpow (by decide) (by unfold sfuQuantum; omega)) ((h.le_value hX hlow).trans b.value_le_middle)
  have hhalf := abs_le.mp (hD.half (E - 23) (by unfold sfuQuantum; omega) hmid')
  obtain ⟨N, hN, hDN⟩ := hD.fits.multiple hlowD
  have hu : (2 : ℚ) ^ (E - 23) = 2 * 2 ^ (E - 24) := by rw [← two_zpow_succ]; congr 1; ring
  have hDN' : D = N * (2 * 2 ^ (E - 24)) := by rw [hDN, ← hu]; congr 2; push_cast; ring
  have hminus : D - 2 ^ (E - 23) / 2 = ((2 * N - 1 : Nat) : ℚ) * 2 ^ (E - 24) := by
    rw [Nat.cast_sub (by omega), hu, hDN']
    push_cast
    ring
  have hplus : D + 2 ^ (E - 23) / 2 = ((2 * N + 1 : Nat) : ℚ) * 2 ^ (E - 24) := by
    rw [hu, hDN']
    push_cast
    ring
  have hhalf' : (2 : ℚ) ^ (E - 23 - 1) = 2 ^ (E - 23) / 2 := by rw [hu, show E - 23 - 1 = E - 24 by ring]; ring
  rw [hhalf'] at hhalf
  refine ⟨hlowD, hD.below _ (fits_two_zpow (by decide) (by unfold sfuQuantum; omega)) hmid, h.sq_le ?_ ?_, h.le_sq (fun hi => ?_) fun hi => ?_⟩
  · rw [hminus]
    exact mul_nonneg (Nat.cast_nonneg _) (two_zpow_pos _).le
  · have hle : D - 2 ^ (E - 23) / 2 ≤ b.middle := by linarith
    cases hi : b.ine
    · rwa [← Bracket.middle_of_exact hi]
    · rw [hminus] at hle ⊢
      exact (Bracket.grid hi he _).1 hle
  · have hle : b.middle ≤ D + 2 ^ (E - 23) / 2 := by linarith
    rw [hplus] at hle ⊢
    exact (Bracket.grid hi he _).2.1 hle
  · rw [← Bracket.middle_of_exact hi]
    linarith

/-- A delivered root is within one last place. -/
theorem Bracket.HoldsRoot.delivery (h : b.HoldsRoot X) {D : ℚ} {z d : Nat} {q : Int} (hd : Delivery b 1 D z d q)
    (hlow : (2 : ℚ) ^ (2 * E) ≤ X) (hX : X < 2 ^ (2 * E + 2)) :
    q = E - 23 ∧ (2 : ℚ) ^ (E - 1) ≤ D ∧ D ≤ 2 ^ (E + 1) ∧ (D - 2 ^ (E - 23)) ^ 2 ≤ X ∧ X ≤ (D + 2 ^ (E - 23)) ^ 2 := by
  have h1 := hd.exponent_lt (h.value_lt hX)
  have h2 := hd.lt_exponent (h.le_value hX hlow)
  obtain rfl : q = E - 23 := by omega
  have hu := two_zpow_pos (E - 23)
  have hfull := hd.full
  have hD := hd.eq
  have hminus : D - 2 ^ (E - 23) = ((d - 1 : Nat) : ℚ) * 2 ^ (E - 23) := by
    have := hd.low
    rw [Nat.cast_sub (by omega), hD, Nat.cast_one]
    ring
  have hplus : D + 2 ^ (E - 23) = ((d + 1 : Nat) : ℚ) * 2 ^ (E - 23) := by
    rw [hD]
    push_cast
    ring
  have hmul : ∀ {i j : Nat}, i ≤ j → (i : ℚ) * 2 ^ (E - 23) ≤ j * 2 ^ (E - 23) := fun hij => mul_le_mul_of_nonneg_right (by exact_mod_cast hij) hu.le
  have hpow : ∀ n : Nat, ((2 ^ n : Nat) : ℚ) * 2 ^ (E - 23) = 2 ^ (n + (E - 23)) := fun n => by rw [natCast_two_pow, ← two_zpow_add]
  have hlowd := hd.low
  have hhighd := hd.high
  have hz24 := hd.small
  refine ⟨rfl, ?_, ?_, h.sq_le ?_ ?_, h.le_sq (fun hi => ?_) fun hi => ?_⟩
  · have h22 := (hpow 22).ge.trans (hmul (show 2 ^ 22 ≤ d by omega))
    rwa [← hD, show ((22 : Nat) : Int) + (E - 23) = E - 1 by push_cast; ring] at h22
  · have h24 := (hmul (show d ≤ 2 ^ 24 by omega)).trans (hpow 24).le
    rwa [← hD, show ((24 : Nat) : Int) + (E - 23) = E + 1 by push_cast; ring] at h24
  · rw [hminus]
    exact mul_nonneg (Nat.cast_nonneg _) hu.le
  · rw [hminus]
    exact (hmul (by omega)).trans hd.lower
  · rw [hplus]
    have hzd : z + 1 ≤ d + 1 := by
      rcases hd.inexact with ⟨hf, -⟩ | hle
      · rw [hi] at hf; exact absurd hf (by decide)
      · exact hle
    exact (hd.upper_inexact hi).trans (hmul hzd)
  · rw [hplus]
    rcases hd.inexact with ⟨-, heq⟩ | hle
    · rw [heq]; exact hmul hlowd
    · exact hd.upper.le.trans (hmul hle)

end

/-! ## The brackets of the model -/

/-- A mantissa whose exponent is even, and half that exponent. -/
def rootMant (m : Nat) (e : Int) : Nat := if decide (e % 2 ≠ 0) then 2 * m else m
def rootHalf (e : Int) : Int := (if decide (e % 2 ≠ 0) then e - 1 else e) / 2

def sqrtBracket (m : Nat) (h : Int) : Bracket :=
  ⟨isqrtFrom (m * 2 ^ 200) 120 0, h - 100, decide (isqrtFrom (m * 2 ^ 200) 120 0 * isqrtFrom (m * 2 ^ 200) 120 0 ≠ m * 2 ^ 200)⟩
def rsqBracket (m : Nat) (h : Int) : Bracket :=
  ⟨isqrtFrom (2 ^ 1024 / m) 513 0, -h - 512, decide (isqrtFrom (2 ^ 1024 / m) 513 0 * isqrtFrom (2 ^ 1024 / m) 513 0 * m ≠ 2 ^ 1024)⟩

theorem sfuExact_sqrt (neg : Bool) (m : Nat) (e : Int) : sfuExact 2 neg m e = (false, sqrtBracket (rootMant m e) (rootHalf e)) := rfl

theorem sfuExact_rsq (neg : Bool) (m : Nat) (e : Int) : sfuExact 1 neg m e = (false, rsqBracket (rootMant m e) (rootHalf e)) := rfl

theorem root_operand (m : Nat) (e : Int) : (m : ℚ) * 2 ^ e = rootMant m e * (2 ^ rootHalf e) ^ 2 := by
  unfold rootMant rootHalf
  rw [two_zpow_sq]
  by_cases h : e % 2 ≠ 0
  · rw [decide_eq_true h, if_pos rfl, if_pos rfl, show 2 * ((e - 1) / 2) = e - 1 by omega, Nat.cast_mul]
    have := two_zpow_succ (e - 1)
    rw [sub_add_cancel] at this
    rw [this]
    push_cast
    ring
  · rw [decide_eq_false h, if_neg Bool.false_ne_true, if_neg Bool.false_ne_true, show 2 * (e / 2) = e by omega]

theorem rootMant_bounds {m : Nat} (h0 : m ≠ 0) (hm : m < 2 ^ 24) (e : Int) : rootMant m e ≠ 0 ∧ rootMant m e < 2 ^ 25 := by
  unfold rootMant
  split <;> omega

theorem rootHalf_bounds {e : Int} (h : -149 ≤ e ∧ e ≤ 2000) : -75 ≤ rootHalf e ∧ rootHalf e ≤ 1000 := by
  unfold rootHalf
  split <;> omega

/-- The integer square root of n brackets the square root of n in units of 2^e. -/
theorem isqrt_holds {n q : Nat} (hbig : 2 ^ 48 ≤ n) (hle : q * q ≤ n) (hlt : n < (q + 1) * (q + 1)) (e : Int) :
    (⟨q, e, decide (q * q ≠ n)⟩ : Bracket).HoldsRoot (n * (2 ^ e) ^ 2) := by
  have hw := two_zpow_pos e
  refine ⟨?_, ?_, ?_, fun hi => ?_⟩
  · show 2 ^ 24 ≤ q
    by_contra hsmall
    have : (q + 1) * (q + 1) ≤ 2 ^ 24 * 2 ^ 24 := Nat.mul_le_mul (by omega) (by omega)
    omega
  · unfold Bracket.value
    dsimp only
    rw [mul_pow]
    exact mul_le_mul_of_nonneg_right (by rw [pow_two]; exact_mod_cast hle) (by positivity)
  · dsimp only
    rw [mul_pow]
    exact mul_lt_mul_of_pos_right (by rw [pow_two]; exact_mod_cast hlt) (by positivity)
  · have heq : q * q = n := not_not.mp (of_decide_eq_false hi)
    unfold Bracket.value
    dsimp only
    rw [mul_pow, pow_two (q : ℚ), ← Nat.cast_mul, heq]

theorem sqrtBracket_holds {m : Nat} (h0 : m ≠ 0) (hm : m < 2 ^ 25) (h : Int) : (sqrtBracket m h).HoldsRoot (m * (2 ^ h) ^ 2) := by
  have hn : m * 2 ^ 200 < 2 ^ 120 * 2 ^ 120 :=
    (Nat.mul_lt_mul_of_pos_right hm (Nat.two_pow_pos _)).trans_le ((two_pow_mul_le (Nat.le_refl _)).trans (two_pow_lt_mul (by decide)).le)
  have hone : 2 ^ 48 ≤ m * 2 ^ 200 := (Nat.pow_le_pow_right (by decide) (by decide)).trans (Nat.le_mul_of_pos_left _ (Nat.pos_of_ne_zero h0))
  obtain ⟨hle, hlt⟩ := isqrtFrom_spec (m * 2 ^ 200) 120 0 (Nat.zero_le _) (by rwa [Nat.zero_add])
  have hX : (m : ℚ) * (2 ^ h) ^ 2 = ((m * 2 ^ 200 : Nat) : ℚ) * (2 ^ (h - 100)) ^ 2 := by
    rw [two_zpow_sq, two_zpow_sq, Nat.cast_mul, natCast_two_pow, mul_assoc, ← two_zpow_add]
    congr 2
    push_cast
    ring
  rw [hX]
  exact isqrt_holds hone hle hlt _

theorem rsqBracket_holds {m : Nat} (h0 : m ≠ 0) (hm : m < 2 ^ 25) (h : Int) : (rsqBracket m h).HoldsRoot (m * (2 ^ h) ^ 2)⁻¹ := by
  have hmpos : (0 : ℚ) < m := by exact_mod_cast Nat.pos_of_ne_zero h0
  have htop : 2 ^ 1024 / m < 2 ^ 513 * 2 ^ 513 := by
    exact Nat.lt_of_le_of_lt (Nat.div_le_self _ _) (two_pow_lt_mul (by decide))
  have hbot : 2 ^ 24 * 2 ^ 24 ≤ 2 ^ 1024 / m := by
    rw [Nat.le_div_iff_mul_le (Nat.pos_of_ne_zero h0)]
    refine (Nat.mul_le_mul_left _ hm.le).trans ?_
    rw [← Nat.pow_add]
    exact two_pow_mul_le (by decide)
  obtain ⟨hle, hlt⟩ := isqrtFrom_spec (2 ^ 1024 / m) 513 0 (Nat.zero_le _) (by rwa [Nat.zero_add])
  have hX : ((m : ℚ) * (2 ^ h) ^ 2)⁻¹ = ((2 ^ 1024 : Nat) : ℚ) / m * (2 ^ (-h - 512)) ^ 2 := by
    rw [two_zpow_sq, two_zpow_sq, natCast_two_pow, mul_inv, ← zpow_neg, div_mul_eq_mul_div, ← two_zpow_add, div_eq_inv_mul]
    congr 2
    push_cast
    ring
  have hdiv := natCast_div_eq (2 ^ 1024) h0
  have hrem := natCast_mod_div_lt (2 ^ 1024) h0
  have hrem0 : (0 : ℚ) ≤ ((2 ^ 1024 % m : Nat) : ℚ) / m := div_nonneg (Nat.cast_nonneg _) hmpos.le
  unfold rsqBracket
  rw [hX]
  generalize isqrtFrom (2 ^ 1024 / m) 513 0 = q at *
  generalize 2 ^ 1024 % m = r at *
  have hw := two_zpow_pos (-h - 512)
  refine ⟨?_, ?_, ?_, fun hi => ?_⟩
  · show 2 ^ 24 ≤ q
    by_contra hsmall
    have h1 : (q + 1) * (q + 1) ≤ 2 ^ 24 * 2 ^ 24 := Nat.mul_le_mul (by omega) (by omega)
    exact absurd (Nat.lt_of_lt_of_le hlt h1) (Nat.not_lt.mpr hbot)
  · unfold Bracket.value
    dsimp only
    rw [mul_pow, hdiv]
    refine mul_le_mul_of_nonneg_right ((?_ : (q : ℚ) ^ 2 ≤ ((2 ^ 1024 / m : Nat) : ℚ)).trans (le_add_of_nonneg_right hrem0)) (by positivity)
    rw [pow_two, ← Nat.cast_mul, Nat.cast_le]
    exact hle
  · dsimp only
    rw [mul_pow, hdiv]
    refine mul_lt_mul_of_pos_right (lt_of_lt_of_le (add_lt_add_right hrem _) ?_) (by positivity)
    rw [pow_two, ← Nat.cast_mul, ← Nat.cast_one, ← Nat.cast_add, Nat.cast_le]
    exact hlt
  · have heq : q * q * m = 2 ^ 1024 := not_not.mp (of_decide_eq_false hi)
    unfold Bracket.value
    dsimp only
    rw [mul_pow, ← heq, Nat.cast_mul, mul_div_cancel_right₀ _ hmpos.ne', Nat.cast_mul, pow_two (q : ℚ)]

/-! ## The results -/

/-- Where everything that may be delivered is a normal number of the format, the result is that number, with no flag. -/
theorem sfuFinite_normal {f : FFmt} (hf : SfuFormat f) {fn : Nat} (fso neg : Bool) {m : Nat} {e : Int} {sg : Bool} {b : Bracket}
    (hex : sfuExact fn neg m e = (sg, b)) (hm : b.m ≠ 0) (hb : (2 : ℚ) ^ (f.qmin + f.m) ≤ b.value)
    (hD : ∀ D, Delivers fn b D → Fits (f.m + 1) f.qmin D ∧ (2 : ℚ) ^ (f.qmin + f.m) ≤ D ∧ D ≤ 2 ^ (f.bias : Int)) :
    ∃ k ≤ f.max, sfuFinite f fn fso neg m e = ⟨f.sign sg k, 0, 0⟩ ∧ Delivers fn b (f.magnitude k) := by
  obtain ⟨D, k, hdel, hranged, hcase⟩ := sfuFinite_eq hf fn fso neg m e hex
  obtain ⟨hfit, hnormal, hle⟩ := hD D hdel
  obtain rfl := hranged.eq_of_fits hf hfit
  rcases hcase with ⟨-, hbig⟩ | ⟨heq, hk⟩
  · exact absurd hle (not_le.mpr hbig)
  · refine ⟨k, hk, ?_, hdel⟩
    rw [heq, sfuResult, FFmt.not_subnormal hf.wf hk hnormal, sfuSmall, tiny_of_normal f hm _ _ hb]
    simp

section
variable {m : Nat} {e E : Int} (h0 : m ≠ 0) (hm : m < 2 ^ 24) (he : -149 ≤ e ∧ e ≤ 2000) (fso : Bool)
include h0 hm he

/-- SQRT of F32 (R70): correctly rounded, with no flag. -/
theorem sqrt_result (hX0 : (m : ℚ) * 2 ^ e < 2 ^ (128 : Int)) (hlow : (2 : ℚ) ^ (2 * E) ≤ m * 2 ^ e) (hX : (m : ℚ) * 2 ^ e < 2 ^ (2 * E + 2)) :
    ∃ k ≤ ffF32.max, sfuFinite ffF32 2 fso false m e = ⟨ffF32.sign false k, 0, 0⟩ ∧
      (ffF32.magnitude k - 2 ^ (E - 23) / 2) ^ 2 ≤ (m : ℚ) * 2 ^ e ∧ (m : ℚ) * 2 ^ e ≤ (ffF32.magnitude k + 2 ^ (E - 23) / 2) ^ 2 := by
  obtain ⟨hr0, hr⟩ := rootMant_bounds h0 hm e
  have hroot := sqrtBracket_holds hr0 hr (rootHalf e)
  rw [← root_operand] at hroot
  have hE : E < 64 := by have := two_zpow_lt.mp (lt_of_le_of_lt hlow hX0); omega
  have hE' : -76 < E := by
    have h1 : (2 : ℚ) ^ (-149 : Int) ≤ m * 2 ^ e :=
      (two_zpow_le.mpr he.1).trans (le_mul_of_one_le_left (two_zpow_pos e).le (by exact_mod_cast Nat.pos_of_ne_zero h0))
    have := two_zpow_lt.mp (lt_of_le_of_lt h1 hX)
    omega
  have hnear := fun D (hdel : Delivers 2 (sqrtBracket (rootMant m e) (rootHalf e)) D) =>
    hroot.nearest (delivers_sqrt hdel hroot.ne_zero) (E := E) (by omega) hlow hX
  obtain ⟨k, hk, heq, hdel⟩ := sfuFinite_normal (f := ffF32) (.inr (.inr rfl)) fso false (sfuExact_sqrt false m e) hroot.ne_zero
    ((two_zpow_le.mpr (by show (-126 : Int) ≤ E; omega)).trans (hroot.le_value hX hlow)) fun D hdel => by
      obtain ⟨h1, h2, -, -⟩ := hnear D hdel
      refine ⟨?_, (two_zpow_le.mpr (by show (-126 : Int) ≤ E; omega)).trans h1, h2.trans (two_zpow_le.mpr (by show E + 1 ≤ 127; omega))⟩
      obtain ⟨N, -, hN⟩ := (delivers_sqrt hdel hroot.ne_zero).fits.multiple h1
      have hN24 : N ≤ 2 ^ 24 := by
        have h3 : (N : ℚ) * 2 ^ (E + 1 - (24 : Nat)) ≤ ((2 ^ 24 : Nat) : ℚ) * 2 ^ (E + 1 - (24 : Nat)) := by
          rw [← hN, natCast_two_pow, ← two_zpow_add, add_sub_cancel]
          exact h2
        exact_mod_cast (mul_le_mul_iff_left₀ (two_zpow_pos _)).mp h3
      rw [hN]
      exact fits_natCast (by decide) hN24 (by show (-149 : Int) ≤ E + 1 - (24 : Nat); push_cast; omega)
  obtain ⟨-, -, h3, h4⟩ := hnear _ hdel
  exact ⟨k, hk, heq, h3, h4⟩

/-- RSQ of F32 (R70): within one last place, with no flag. -/
theorem rsq_result (hX0 : (m : ℚ) * 2 ^ e < 2 ^ (128 : Int)) (hlow : (2 : ℚ) ^ (2 * E) ≤ ((m : ℚ) * 2 ^ e)⁻¹)
    (hX : ((m : ℚ) * 2 ^ e)⁻¹ < 2 ^ (2 * E + 2)) : ∃ k ≤ ffF32.max, sfuFinite ffF32 1 fso false m e = ⟨ffF32.sign false k, 0, 0⟩ ∧
      (ffF32.magnitude k - 2 ^ (E - 23)) ^ 2 ≤ ((m : ℚ) * 2 ^ e)⁻¹ ∧ ((m : ℚ) * 2 ^ e)⁻¹ ≤ (ffF32.magnitude k + 2 ^ (E - 23)) ^ 2 := by
  obtain ⟨hr0, hr⟩ := rootMant_bounds h0 hm e
  have hroot := rsqBracket_holds hr0 hr (rootHalf e)
  rw [← root_operand] at hroot
  have hx : (0 : ℚ) < m * 2 ^ e := mul_pos (by exact_mod_cast Nat.pos_of_ne_zero h0) (two_zpow_pos e)
  have hE : E < 75 := by
    have h1 : ((m : ℚ) * 2 ^ e)⁻¹ ≤ 2 ^ (149 : Int) := by
      refine inv_le_of_inv_le₀ (two_zpow_pos _) ?_
      rw [← zpow_neg]
      exact (two_zpow_le.mpr he.1).trans (le_mul_of_one_le_left (two_zpow_pos e).le (by exact_mod_cast Nat.pos_of_ne_zero h0))
    have := two_zpow_le.mp (hlow.trans h1)
    omega
  have hE' : -66 < E := by
    have h1 : (2 : ℚ) ^ (-128 : Int) < ((m : ℚ) * 2 ^ e)⁻¹ := by
      rw [zpow_neg, inv_lt_inv₀ (two_zpow_pos _) hx]
      exact hX0
    have := two_zpow_lt.mp (h1.trans hX)
    omega
  have hh := rootHalf_bounds he
  have hnear : ∀ D, Delivers 1 (rsqBracket (rootMant m e) (rootHalf e)) D → ∃ z d, Delivery (rsqBracket (rootMant m e) (rootHalf e)) 1 D z d (E - 23) ∧
      (2 : ℚ) ^ (E - 1) ≤ D ∧ D ≤ 2 ^ (E + 1) ∧ (D - 2 ^ (E - 23)) ^ 2 ≤ ((m : ℚ) * 2 ^ e)⁻¹ ∧ ((m : ℚ) * 2 ^ e)⁻¹ ≤ (D + 2 ^ (E - 23)) ^ 2 := fun D hdel => by
    obtain ⟨z, d, q, hd⟩ := delivers_near (by decide) hdel (by decide) hroot.ne_zero (fun _ => hroot.big)
      (Bracket.big hroot.ne_zero (by unfold rsqBracket; dsimp only; omega))
    obtain ⟨rfl, h1⟩ := hroot.delivery hd hlow hX
    exact ⟨z, d, hd, h1⟩
  obtain ⟨k, hk, heq, hdel⟩ := sfuFinite_normal (f := ffF32) (.inr (.inr rfl)) fso false (sfuExact_rsq false m e) hroot.ne_zero
    ((two_zpow_le.mpr (by show (-126 : Int) ≤ E; omega)).trans (hroot.le_value hX hlow)) fun D hdel => by
      obtain ⟨z, d, hd, h1, h2, -, -⟩ := hnear D hdel
      exact ⟨hd.fits (by omega), (two_zpow_le.mpr (by show (-126 : Int) ≤ E - 1; omega)).trans h1, h2.trans (two_zpow_le.mpr (by show E + 1 ≤ 127; omega))⟩
  obtain ⟨-, -, -, -, -, h3, h4⟩ := hnear _ hdel
  exact ⟨k, hk, heq, h3, h4⟩

end

end Sys2Proof.Machine
end

section
/-!
SUPPORT. EXP2 of integers, of what overflows and of what vanishes, and LOG2 of powers of two (R70, R71).
-/

namespace Sys2Proof.Machine

open Sys2Proof

/-! ## Fixed point -/

/-- One in fixed point, as a number that no proof evaluates. -/
@[irreducible] def fixedOne : Nat := fx1

theorem fixedOne_eq : fixedOne = fx1 := by unfold fixedOne; rfl

theorem fixedOne_pow : fixedOne = 2 ^ 512 := by rw [fixedOne_eq, fx1]

theorem fixedOne_cast : (fixedOne : ℚ) = 2 ^ (512 : Int) := by rw [fixedOne_pow, natCast_two_pow, Nat.cast_ofNat]

theorem fixedOne_large : 2 ^ 24 ≤ fixedOne := by
  rw [fixedOne_pow, Nat.pow_le_pow_iff_right (by decide)]
  decide

theorem fixedOne_pos : 0 < fixedOne := Nat.lt_of_lt_of_le (by decide) fixedOne_large

theorem fixedOne_value (n : Int) : (fixedOne : ℚ) * 2 ^ (n - 512) = 2 ^ n := by rw [fixedOne_cast, ← two_zpow_add, add_sub_cancel]

/-- ln 2 is below 0.7. -/
theorem fxLn2_le : 10 * fxLn2 ≤ 7 * fixedOne := by
  have hsplit : fixedOne = 2 ^ 256 * 2 ^ 256 := by rw [fixedOne_pow, ← Nat.pow_add]
  rw [hsplit, fxLn2]
  norm_num

/-- Every term of the series of e^r − 1 is at most half the one before. -/
theorem expTail_le {r : Nat} (hr : r ≤ fixedOne) : ∀ n k t, 1 ≤ k → expTail r n k t ≤ 2 * t
  | 0, _, _, _ => Nat.zero_le _
  | n + 1, k, t, hk => by
    have hterm : t * r / fixedOne / (k + 1) ≤ t / 2 := by
      have h1 : t * r / fixedOne ≤ t := Nat.div_le_of_le_mul (by rw [Nat.mul_comm]; exact Nat.mul_le_mul_right t hr)
      exact (Nat.div_le_div_left (by omega) (by decide)).trans (Nat.div_le_div_right h1)
    have := expTail_le hr n (k + 1) (t * r / fixedOne / (k + 1)) (by omega)
    rw [expTail, ← fixedOne_eq]
    omega

theorem fxExpm1_le {r : Nat} (hr : r ≤ fixedOne) : fxExpm1 r ≤ 2 * r := expTail_le hr 110 1 r (Nat.le_refl 1)

theorem fxExpm1_zero : fxExpm1 0 = 0 := Nat.le_zero.mp (fxExpm1_le (Nat.zero_le _))

theorem atanhTail_zero (z2 : Nat) : ∀ n j, atanhTail z2 n j 0 = 0
  | 0, _ => rfl
  | n + 1, j => by rw [atanhTail, Nat.zero_div, Nat.zero_mul, Nat.zero_div, atanhTail_zero z2 n]

/-- An operand in fixed point. -/
theorem fixed_cast (m : Nat) {e : Int} (he : -512 ≤ e) : ((m * 2 ^ (e + 512).toNat : Nat) : ℚ) = m * 2 ^ e * fixedOne := by
  rw [Nat.cast_mul, two_zpow_toNat (by omega), two_zpow_add, fixedOne_cast, mul_assoc]

theorem le_fixed_iff (m : Nat) {e : Int} (he : -512 ≤ e) (N : Nat) : N * fixedOne ≤ m * 2 ^ (e + 512).toNat ↔ (N : ℚ) ≤ m * 2 ^ e := by
  have hpos : (0 : ℚ) < fixedOne := by exact_mod_cast fixedOne_pos
  rw [← Nat.cast_le (α := ℚ), fixed_cast m he, Nat.cast_mul, mul_le_mul_iff_left₀ hpos]

theorem fxOf_integer {m : Nat} {e : Int} (he : -512 ≤ e) {N : Nat} (hX : (m : ℚ) * 2 ^ e = N) (hN : N ≤ 1024) : fxOf m e 1024 = N * fixedOne := by
  have heq : m * 2 ^ (e + 512).toNat = N * fixedOne := by
    rw [← Nat.cast_inj (R := ℚ), fixed_cast m he, hX, Nat.cast_mul]
  rw [fxOf, ← fixedOne_eq, heq]
  exact Nat.min_eq_left (Nat.mul_le_mul_right _ hN)

theorem le_fxOf {m : Nat} {e : Int} (he : -512 ≤ e) {N : Nat} (hX : (N : ℚ) ≤ m * 2 ^ e) (hN : N ≤ 1024) : N * fixedOne ≤ fxOf m e 1024 := by
  rw [fxOf, ← fixedOne_eq]
  exact Nat.le_min.mpr ⟨(le_fixed_iff m he N).mpr hX, Nat.mul_le_mul_right _ hN⟩

/-! ## EXP2 -/

/-- The bracket of EXP2 at a fixed-point operand, for any unit F, any logarithm L of two and any function g for e^r − 1. -/
def exp2BracketOf (F L : Nat) (g : Nat → Nat) (neg : Bool) (x : Nat) : Bracket :=
  let n : Int := if neg then -((x + F - 1) / F : Nat) else (x / F : Nat)
  let f := if neg then (F - x % F) % F else x % F
  ⟨F + g (f * L / F), n - 512, decide (f ≠ 0)⟩

/-- The bracket of EXP2. -/
def exp2Bracket (neg : Bool) (x : Nat) : Bracket := exp2BracketOf fixedOne fxLn2 fxExpm1 neg x

theorem sfuExact_exp2 (neg : Bool) (m : Nat) (e : Int) : sfuExact 3 neg m e = (false, exp2Bracket neg (fxOf m e 1024)) := by
  unfold exp2Bracket
  rw [fixedOne_eq]
  rfl

theorem exp2Bracket_m (neg : Bool) (x : Nat) : fixedOne ≤ (exp2Bracket neg x).m := Nat.le_add_right _ _

theorem exp2Bracket_m_ne_zero (neg : Bool) (x : Nat) : (exp2Bracket neg x).m ≠ 0 := (Nat.lt_of_lt_of_le fixedOne_pos (exp2Bracket_m neg x)).ne'

/-- The exponent of an integer's power. -/
def signedInt (neg : Bool) (N : Nat) : Int := if neg then -(N : Int) else N

theorem signedInt_natAbs (neg : Bool) (N : Nat) : (signedInt neg N).natAbs = N := by cases neg <;> simp [signedInt]

theorem signedInt_cast (neg : Bool) (N : Nat) : ((signedInt neg N : Int) : ℚ) = signOf neg * N := by cases neg <;> simp [signedInt]

theorem exp2Bracket_integer (neg : Bool) (N : Nat) : exp2Bracket neg (N * fixedOne) = ⟨fixedOne, signedInt neg N - 512, false⟩ := by
  have hpos := fixedOne_pos
  have hceil : (N * fixedOne + fixedOne - 1) / fixedOne = N := by
    rw [Nat.add_sub_assoc hpos, Nat.mul_comm, Nat.mul_add_div hpos, Nat.div_eq_of_lt (Nat.sub_lt hpos Nat.one_pos), Nat.add_zero]
  have hf : (if neg = true then (fixedOne - N * fixedOne % fixedOne) % fixedOne else N * fixedOne % fixedOne) = 0 := by
    rw [Nat.mul_mod_left, Nat.sub_zero, Nat.mod_self, ite_self]
  unfold exp2Bracket exp2BracketOf
  dsimp only
  rw [hf, Nat.zero_mul, Nat.zero_div, fxExpm1_zero, hceil, Nat.mul_div_cancel _ hpos]
  rfl

/-- The bracket of EXP2 at a negative operand: its lower end, and how far above a power of two it is. -/
theorem exp2BracketOf_negative {F L x N : Nat} {g : Nat → Nat} (hpos : 0 < F) (hln : 10 * L ≤ 7 * F) (hg : ∀ r, r ≤ F → g r ≤ 2 * r) 
    (hx : N * F ≤ x) (hx' : x ≤ 1024 * F) : (∃ c, x = c * F ∧ N ≤ c ∧ c ≤ 1024) ∨
    ((exp2BracketOf F L g true x).ine = true ∧ (exp2BracketOf F L g true x).e ≤ -(N : Int) - 513 ∧ -2000 ≤ (exp2BracketOf F L g true x).e ∧
      10 * (exp2BracketOf F L g true x).m ≤ 24 * F) := by
  have hmod := Nat.mod_lt x hpos
  have hdiv := Nat.div_add_mod' x F
  by_cases h0 : x % F = 0
  · rw [h0, Nat.add_zero] at hdiv
    rw [← hdiv] at hx hx'
    exact .inl ⟨x / F, hdiv.symm, Nat.le_of_mul_le_mul_right hx hpos, Nat.le_of_mul_le_mul_right hx' hpos⟩
  · have hceil : (x + F - 1) / F = x / F + 1 := by
      have hsum : x + F - 1 = F * (x / F + 1) + (x % F - 1) := by
        rw [Nat.mul_add, Nat.mul_one, Nat.mul_comm F]
        omega
      rw [hsum, Nat.mul_add_div hpos, Nat.div_eq_of_lt (a := x % F - 1) (by omega), Nat.add_zero]
    have hN : N ≤ x / F := (Nat.le_div_iff_mul_le hpos).mpr hx
    have hc : x / F ≤ 1024 := Nat.div_le_of_le_mul (by rw [Nat.mul_comm]; exact hx')
    have hf : (F - x % F) % F = F - x % F := Nat.mod_eq_of_lt (by omega)
    have hr : (F - x % F) * L / F ≤ L := Nat.div_le_of_le_mul (Nat.mul_le_mul_right _ (Nat.sub_le _ _))
    have hexp := hg _ (hr.trans (by omega))
    refine .inr ⟨?_, ?_, ?_, ?_⟩
    · show decide ((F - x % F) % F ≠ 0) = true
      rw [hf, decide_eq_true_eq]
      omega
    · show -(((x + F - 1) / F : Nat) : Int) - 512 ≤ _
      rw [hceil]
      omega
    · show -2000 ≤ -(((x + F - 1) / F : Nat) : Int) - 512
      rw [hceil]
      omega
    · show 10 * (F + g ((F - x % F) % F * L / F)) ≤ _
      rw [hf]
      omega

theorem exp2Bracket_negative {x N : Nat} (hx : N * fixedOne ≤ x) (hx' : x ≤ 1024 * fixedOne) : (∃ c, x = c * fixedOne ∧ N ≤ c ∧ c ≤ 1024) ∨
    ((exp2Bracket true x).ine = true ∧ (exp2Bracket true x).e ≤ -(N : Int) - 513 ∧ -2000 ≤ (exp2Bracket true x).e ∧
      10 * (exp2Bracket true x).m ≤ 24 * fixedOne) :=
  exp2BracketOf_negative fixedOne_pos fxLn2_le (fun _ => fxExpm1_le) hx hx'

/-- EXP2 of an integer is delivered exactly. -/
theorem exp2_delivers_integer {neg : Bool} {N : Nat} {D : ℚ} (hN : N ≤ 1024) (h : Delivers 3 (exp2Bracket neg (N * fixedOne)) D) :
    D = 2 ^ signedInt neg N := by
  rw [exp2Bracket_integer] at h
  have hval : (⟨fixedOne, signedInt neg N - 512, false⟩ : Bracket).value = 2 ^ signedInt neg N := fixedOne_value _
  rw [← hval]
  refine delivers_exact (by decide) h rfl ?_
  rw [hval]
  refine fits_two_zpow (by decide) ?_
  unfold sfuQuantum signedInt
  split <;> omega

section
variable {f : FFmt} (hf : SfuFormat f) {m : Nat} {e : Int} (he : -149 ≤ e) (fso : Bool)
include hf he

/-- EXP2 of an integer whose power is a normal number. -/
theorem exp2_integer (neg : Bool) {N : Nat} (hX : (m : ℚ) * 2 ^ e = N) (hlow : f.qmin + f.m ≤ signedInt neg N) (hhigh : signedInt neg N ≤ f.bias) :
    ∃ k ≤ f.max, sfuFinite f 3 fso neg m e = ⟨f.sign false k, 0, 0⟩ ∧ f.magnitude k = 2 ^ signedInt neg N := by
  obtain ⟨hm23, hq, hqm, -, hb, -⟩ := hf.bounds
  have hN : N ≤ 1024 := by
    have := signedInt_natAbs neg N
    omega
  have hex := sfuExact_exp2 neg m e
  rw [fxOf_integer (by omega) hX hN] at hex
  have hval : (exp2Bracket neg (N * fixedOne)).value = 2 ^ signedInt neg N := by rw [exp2Bracket_integer]; exact fixedOne_value _
  obtain ⟨k, hk, heq, hdel⟩ := sfuFinite_normal hf fso neg hex (exp2Bracket_m_ne_zero _ _) (by rw [hval]; exact two_zpow_le.mpr hlow) fun D hdel => by
    rw [exp2_delivers_integer hN hdel]
    exact ⟨fits_two_zpow (Nat.succ_pos _) (by omega), two_zpow_le.mpr hlow, two_zpow_le.mpr hhigh⟩
  exact ⟨k, hk, heq, exp2_delivers_integer hN hdel⟩

/-- EXP2 of an operand whose power is beyond the range. -/
theorem exp2_overflow (hX : (f.bias : ℚ) + 2 ≤ m * 2 ^ e ∨ (m : ℚ) * 2 ^ e = f.bias + 1) :
    sfuFinite f 3 fso false m e = ⟨f.inf.getD 0, fOF, 0⟩ := by
  obtain ⟨hm23, hq, hqm, hb15, hb, -⟩ := hf.bounds
  have hD : ∀ D, Delivers 3 (exp2Bracket false (fxOf m e 1024)) D → (2 : ℚ) ^ ((f.bias : Int) + 1) ≤ D := fun D hdel => by
    rcases hX with hge | heq
    · have hx := le_fxOf (m := m) (e := e) (by omega) (N := f.bias + 2) (by push_cast; exact hge) (by omega)
      generalize fxOf m e 1024 = x at hdel hx
      have hn : f.bias + 2 ≤ x / fixedOne := (Nat.le_div_iff_mul_le fixedOne_pos).mpr hx
      have hexp : (f.bias : Int) + 2 - 512 ≤ (exp2Bracket false x).e := by
        show (f.bias : Int) + 2 - 512 ≤ ((x / fixedOne : Nat) : Int) - 512
        omega
      have hval : (2 : ℚ) ^ ((f.bias : Int) + 2) ≤ (exp2Bracket false x).value := by
        rw [← fixedOne_value]
        exact mul_le_mul (by exact_mod_cast exp2Bracket_m false x) (two_zpow_le.mpr hexp) (two_zpow_pos _).le (Nat.cast_nonneg _)
      obtain ⟨z, d, q, hd⟩ := delivers_near (by decide) hdel (by decide) (exp2Bracket_m_ne_zero _ _) (fun _ => fixedOne_large.trans (exp2Bracket_m _ _))
        (Bracket.big (exp2Bracket_m_ne_zero _ _) (by omega))
      have hq := hd.lt_exponent hval
      have hd22 : 2 ^ 22 ≤ d := by
        have h1 := hd.full
        have h2 : z ≤ d + 2 := hd.low
        omega
      rw [hd.eq]
      calc (2 : ℚ) ^ ((f.bias : Int) + 1) ≤ 2 ^ (22 + q) := two_zpow_le.mpr (by omega)
        _ = 2 ^ (22 : Int) * 2 ^ q := two_zpow_add ..
        _ ≤ d * 2 ^ q := mul_le_mul_of_nonneg_right (by exact_mod_cast hd22) (two_zpow_pos q).le
    · rw [fxOf_integer (N := f.bias + 1) (by omega) (by push_cast; exact heq) (by omega)] at hdel
      rw [exp2_delivers_integer (by omega) hdel]
      exact (congrArg _ (by unfold signedInt; push_cast; rfl)).le
  obtain ⟨D, k, hdel, hranged, hcase⟩ := sfuFinite_eq hf 3 fso false m e (sfuExact_exp2 false m e)
  rcases hcase with ⟨heq, -⟩ | ⟨-, hk⟩
  · exact heq
  · have hM := hranged.above hf (fits_two_zpow (Nat.succ_pos _) (by omega)) (hD D hdel)
    linarith [f.magnitude_strictMono.monotone hk, hf.max_lt]

/-- EXP2 of an operand whose power vanishes. -/
theorem exp2_vanishes (hX : (2 : ℚ) - f.qmin ≤ m * 2 ^ e) : sfuFinite f 3 fso true m e = ⟨0, fUF, 0⟩ := by
  obtain ⟨hm23, hq, hqm, hb15, hb, hm7⟩ := hf.bounds
  obtain ⟨N, hN⟩ := Int.eq_ofNat_of_zero_le (show 0 ≤ 2 - f.qmin by omega)
  have hx := le_fxOf (m := m) (e := e) (by omega) (N := N) (by rw [← Int.cast_natCast, ← hN]; push_cast; exact hX) (by omega)
  have hx' : fxOf m e 1024 ≤ 1024 * fixedOne := by
    rw [fxOf, ← fixedOne_eq]
    exact Nat.min_le_right _ _
  obtain ⟨D, k, hdel, hranged, hcase⟩ := sfuFinite_eq hf 3 fso true m e (sfuExact_exp2 true m e)
  generalize fxOf m e 1024 = x at *
  have hpow : ∀ n : Nat, (2 : ℚ) ^ (f.qmin - 4 + n) = 2 ^ n * 2 ^ (f.qmin - 4) := fun n => by rw [two_zpow_add, zpow_natCast, mul_comm]
  have hw := two_zpow_pos (f.qmin - 4)
  have hbounds : 0 ≤ D ∧ D ≤ 5 * 2 ^ (f.qmin - 4) ∧ (exp2Bracket true x).value ≤ 5 * 2 ^ (f.qmin - 4) := by
    rcases exp2Bracket_negative hx hx' with ⟨c, rfl, hNc, hc⟩ | ⟨hine, he1, he2, hm⟩
    · have hval : (exp2Bracket true (c * fixedOne)).value = 2 ^ signedInt true c := by rw [exp2Bracket_integer]; exact fixedOne_value _
      have hle : (2 : ℚ) ^ signedInt true c ≤ 2 ^ (f.qmin - 4 + (2 : Nat)) := two_zpow_le.mpr (by unfold signedInt; push_cast; rw [if_pos rfl]; omega)
      rw [hpow] at hle
      rw [hval, exp2_delivers_integer hc hdel]
      refine ⟨(two_zpow_pos _).le, ?_, ?_⟩ <;> linarith
    · have hval : (exp2Bracket true x).value ≤ 24 / 5 * 2 ^ (f.qmin - 4) := by
        have hmq : ((exp2Bracket true x).m : ℚ) ≤ 24 / 10 * fixedOne := by
          have : (10 : ℚ) * (exp2Bracket true x).m ≤ 24 * fixedOne := by exact_mod_cast hm
          linarith
        calc (exp2Bracket true x).value ≤ 24 / 10 * fixedOne * 2 ^ (f.qmin - 3 - 512) :=
              mul_le_mul hmq (two_zpow_le.mpr (by omega)) (two_zpow_pos _).le (by positivity)
          _ = 24 / 10 * 2 ^ (f.qmin - 4 + (1 : Nat)) := by rw [mul_assoc, fixedOne_value]; congr 2; push_cast; ring
          _ = 24 / 5 * 2 ^ (f.qmin - 4) := by rw [hpow]; ring
      obtain ⟨z, d, q, hd⟩ := delivers_near (by decide) hdel (by decide) (exp2Bracket_m_ne_zero _ _) (fun _ => fixedOne_large.trans (exp2Bracket_m _ _))
        (Bracket.big (exp2Bracket_m_ne_zero _ _) (by omega))
      have hq0 := two_zpow_pos q
      have hz : (2 : ℚ) ^ 23 * 2 ^ q ≤ z * 2 ^ q := mul_le_mul_of_nonneg_right (by exact_mod_cast hd.full) hq0.le
      have hdz : (d : ℚ) * 2 ^ q ≤ (z + 2) * 2 ^ q := mul_le_mul_of_nonneg_right (by exact_mod_cast hd.high) hq0.le
      have hlow := hd.lower
      rw [hd.eq]
      refine ⟨mul_nonneg (Nat.cast_nonneg _) hq0.le, ?_, by linarith⟩
      rw [add_mul] at hdz
      linarith
  obtain ⟨h0, hD, hval⟩ := hbounds
  have hM := hranged.vanishes hf h0 hD
  have hsmall5 : (5 : ℚ) * 2 ^ (f.qmin - 4) < 2 ^ (f.qmin + f.m) := by
    have h8 : (2 : ℚ) ^ (f.qmin - 4 + (3 : Nat)) ≤ 2 ^ (f.qmin + f.m) := two_zpow_le.mpr (by push_cast; omega)
    rw [hpow] at h8
    linarith
  rcases hcase with ⟨-, hbig⟩ | ⟨heq, hk⟩
  · have : (2 : ℚ) ^ (f.qmin + f.m) ≤ 2 ^ (f.bias : Int) := two_zpow_le.mpr (by omega)
    linarith
  · have hk0 : k = 0 := f.magnitude_strictMono.injective (hM.trans f.magnitude_zero.symm)
    subst hk0
    have hm0 := exp2Bracket_m_ne_zero true x
    have hpos : 0 < (exp2Bracket true x).value := mul_pos (by exact_mod_cast Nat.pos_of_ne_zero hm0) (two_zpow_pos _)
    have htiny := (tiny_iff f hm0 (exp2Bracket true x).e false).mpr (lt_of_le_of_lt hval hsmall5)
    unfold Bracket.value at hpos
    have hsmall : sfuSmall f 3 (exp2Bracket true x) (f.magnitude 0) = true := by
      rw [sfuSmall, f.magnitude_zero, decide_eq_false hpos.ne, decide_eq_false (not_lt.mpr hpos.le), htiny, Bool.and_false, Bool.not_false]
      simpa using hm0
    have hsub : f.subnormal 0 = false := by simp [FFmt.subnormal]
    rw [heq, hsmall, sfuResult, hsub, Bool.and_false]
    rfl

end

/-! ## LOG2 -/

/-- The exact logarithm: its exponent and the series of its fraction. -/
theorem sfuExact_log2 (neg : Bool) (m : Nat) (e : Int) : sfuExact 4 neg m e =
    let top := bitLen m - 1
    let frac := m * fx1 / 2 ^ top
    let z := (frac - fx1) * fx1 / (frac + fx1)
    let v : Int := (e + (top : Int)) * (fx1 : Nat) + ((2 * atanhTail (z * z / fx1) 170 0 z * fx1 / fxLn2 : Nat) : Int)
    (decide (v < 0), ⟨v.natAbs, -512, decide (frac ≠ fx1)⟩) := rfl

/-- The exact logarithm of a power of two. -/
theorem sfuExact_log2_power (i : Nat) (e : Int) :
    sfuExact 4 false (2 ^ i) e = (decide ((e + i) * (fixedOne : Int) < 0), ⟨((e + i) * (fixedOne : Int)).natAbs, -512, false⟩) := by
  have hlen : bitLen (2 ^ i) - 1 = i := by
    unfold bitLen
    rw [if_neg (Nat.two_pow_pos i).ne', Nat.add_sub_cancel, Nat.log2_two_pow]
  have hfrac : ∀ F : Nat, 2 ^ i * F / 2 ^ i = F := fun F => Nat.mul_div_cancel_left _ (Nat.two_pow_pos i)
  rw [sfuExact_log2]
  dsimp only
  rw [hlen, hfrac, ← fixedOne_eq, Nat.sub_self, Nat.zero_mul, Nat.zero_div, atanhTail_zero, Nat.mul_zero, Nat.zero_mul, Nat.zero_div, Nat.cast_zero,
    add_zero, decide_eq_false (not_not.mpr rfl)]

/-- What bounds a logarithm. -/
theorem SfuFormat.log_bounds {f : FFmt} (hf : SfuFormat f) : f.qmin.natAbs ≤ 2 ^ (f.m + 1) ∧ f.bias ≤ 2 ^ (f.m + 1) ∧ f.qmin ≤ 0 := by
  rcases hf with rfl | rfl | rfl <;> decide

/-- LOG2 of a power of two is exact, with no flag. -/
theorem log2_power {f : FFmt} (hf : SfuFormat f) (fso : Bool) {i : Nat} {e : Int} (hlow : f.qmin ≤ e + i) (hhigh : e + i ≤ f.bias) :
    ∃ k ≤ f.max, sfuFinite f 4 fso false (2 ^ i) e = ⟨f.sign (decide (e + i < 0)) k, 0, 0⟩ ∧ f.magnitude k = |((e + i : Int) : ℚ)| := by
  obtain ⟨hm23, hq, hqm, hb15, hb, hm7⟩ := hf.bounds
  obtain ⟨hl1, hl2, hq0⟩ := hf.log_bounds
  obtain ⟨D, k, hdel, hranged, hcase⟩ := sfuFinite_eq hf 4 fso false (2 ^ i) e (sfuExact_log2_power i e)
  have hpos : (0 : Int) < fixedOne := by exact_mod_cast fixedOne_pos
  have hsign : decide ((e + i) * (fixedOne : Int) < 0) = decide (e + i < 0) := decide_eq_decide.mpr
    ⟨fun h => not_le.mp fun hE => absurd h (not_lt.mpr (mul_nonneg hE hpos.le)), fun h => mul_neg_of_neg_of_pos h hpos⟩
  rw [hsign] at hcase
  generalize e + (i : Int) = E at *
  have habs : (E * (fixedOne : Int)).natAbs = E.natAbs * fixedOne := by rw [Int.natAbs_mul, Int.natAbs_natCast]
  have hE : ((E.natAbs : Nat) : ℚ) = |(E : ℚ)| := by rw [Nat.cast_natAbs, Int.cast_abs]
  have hval : (⟨(E * (fixedOne : Int)).natAbs, -512, false⟩ : Bracket).value = |(E : ℚ)| := by
    rw [← hE, habs]
    unfold Bracket.value
    dsimp only
    rw [Nat.cast_mul, mul_assoc, show (-512 : Int) = 0 - 512 from rfl, fixedOne_value, zpow_zero, mul_one]
  have hfits : ∀ {prec : Nat} {qmin : Int}, 0 < prec → qmin ≤ 0 → E.natAbs ≤ 2 ^ prec → Fits prec qmin |(E : ℚ)| := fun hp hq' hle => by
    have h := fits_natCast hp hle hq'
    rwa [zpow_zero, mul_one, hE] at h
  have hEm : E.natAbs ≤ 2 ^ (f.m + 1) := by omega
  have hE149 : E.natAbs ≤ 149 := by omega
  have hDE : D = |(E : ℚ)| := by
    rw [← hval]
    refine delivers_exact (by decide) hdel rfl ?_
    rw [hval]
    exact hfits (by decide) (by decide) (hE149.trans (by decide))
  have hM := hranged.eq_of_fits hf (hDE ▸ hfits (Nat.succ_pos _) hq0 hEm)
  rw [hDE] at hM
  rcases hcase with ⟨-, hbig⟩ | ⟨heq, hk⟩
  · have h1 : |(E : ℚ)| ≤ 149 := by rw [← hE]; exact_mod_cast hE149
    have h2 : (149 : ℚ) ≤ 2 ^ (f.bias : Int) := le_trans (b := 2 ^ (15 : Int)) (by norm_num) (two_zpow_le.mpr (by omega))
    rw [hDE] at hbig
    linarith
  · refine ⟨k, hk, ?_, hM⟩
    have hsub : f.subnormal k = false := by
      by_cases h0 : E = 0
      · rw [h0, Int.cast_zero, abs_zero] at hM
        have hk0 : k = 0 := f.magnitude_strictMono.injective (hM.trans f.magnitude_zero.symm)
        simp [hk0, FFmt.subnormal]
      · refine FFmt.not_subnormal hf.wf hk ?_
        have h1 : (1 : ℚ) ≤ |(E : ℚ)| := by rw [← hE]; exact_mod_cast Nat.one_le_iff_ne_zero.mpr (Int.natAbs_ne_zero.mpr h0)
        have h2 : (2 : ℚ) ^ (f.qmin + f.m) ≤ 2 ^ (0 : Int) := two_zpow_le.mpr (by omega)
        rw [zpow_zero] at h2
        rw [hM]
        exact h2.trans h1
    have hsame : f.magnitude k = (⟨(E * (fixedOne : Int)).natAbs, -512, false⟩ : Bracket).value := hM.trans hval.symm
    unfold Bracket.value at hsame
    have hsmall : sfuSmall f 4 ⟨(E * (fixedOne : Int)).natAbs, -512, false⟩ (f.magnitude k) = false := by
      rw [sfuSmall, decide_eq_true hsame]
      simp [sfuExactCase]
    rw [heq, hsmall, sfuResult, hsub, Bool.and_false]
    rfl

end Sys2Proof.Machine
end

section
/-!
SUPPORT. The special functions within their bounds, and the settling of the floating corners (R60 to R71, R137, R237 to R240).
-/

namespace Sys2Proof.Machine

open Sys2Proof

/-! ## Lanes of numbers -/

/-- A special function of a number other than zero, where R71 does not fix the result. -/
theorem sfuLane_finite {f : FFmt} {fn : Nat} {k : Keys} {a : Nat} {n : Bool} {m : Nat} {e : Int} (hv : f.val (f.flushIn k.fsi a) = .fin n m e)
    (hm : m ≠ 0) (hn : n = false ∨ fn = 0 ∨ fn = 3) : sfuLane f fn k a = sfuFinite f fn k.fso n m e := by
  have hbad : (n && (fn == 1 || fn == 2 || fn == 4)) = false := by
    rcases hn with rfl | rfl | rfl
    · rfl
    · exact Bool.and_false n
    · exact Bool.and_false n
  simp only [sfuLane, hv, if_neg hm, hbad, Bool.false_eq_true, if_false]

/-- A magnitude under a sign as a number. -/
theorem SfuFormat.value {f : FFmt} (hf : SfuFormat f) {k : Nat} (hk : k ≤ f.max) (sg : Bool) :
    FVal.number (f.val (f.sign sg k)) = signOf sg * f.magnitude k ∧ FVal.finite (f.val (f.sign sg k)) = true :=
  ⟨hf.wf.number_sign hk sg, by rw [hf.wf.val_sign hk]; rfl⟩

theorem signOf_inv (n : Bool) : (signOf n)⁻¹ = signOf n := by cases n <;> norm_num

theorem number_inv (n : Bool) (m : Nat) (e : Int) : (FVal.number (.fin n m e))⁻¹ = signOf n * ((m : ℚ) * 2 ^ e)⁻¹ := by
  rw [number_fin, mul_inv, signOf_inv]

theorem abs_number_inv (n : Bool) (m : Nat) (e : Int) : |(FVal.number (.fin n m e))⁻¹| = ((m : ℚ) * 2 ^ e)⁻¹ := by
  rw [abs_inv, abs_number_fin]

theorem abs_signOf_sub (n : Bool) (x y : ℚ) : |signOf n * x - signOf n * y| = |x - y| := by rw [← mul_sub, abs_signOf_mul]

/-- A number is a power of two where its mantissa is one. -/
theorem eq_two_zpow_iff {m : Nat} (hm : m ≠ 0) (e n : Int) : (m : ℚ) * 2 ^ e = 2 ^ n ↔ ∃ i : Nat, m = 2 ^ i ∧ n = e + i := by
  constructor
  · intro h
    have hle : e ≤ n := two_zpow_le.mp (h ▸ le_mul_of_one_le_left (two_zpow_pos e).le (by exact_mod_cast Nat.pos_of_ne_zero hm))
    refine ⟨(n - e).toNat, ?_, by omega⟩
    rw [← Nat.cast_inj (R := ℚ), two_zpow_toNat (by omega)]
    refine mul_right_cancel₀ (two_zpow_pos e).ne' ?_
    rw [h, two_zpow_sub_mul]
  · rintro ⟨i, rfl, rfl⟩
    rw [natCast_two_pow, ← two_zpow_add, add_comm]

section
variable {f : FFmt} {m : Nat} {e : Int}

theorem power_iff (hf : SfuFormat f) (h0 : m ≠ 0) (he : f.qmin ≤ e) (hlt : (m : ℚ) * 2 ^ e < 2 ^ ((f.bias : Int) + 1)) :
    (∃ N : Nat, N < 300 ∧ (m : ℚ) * 2 ^ e = 2 ^ ((N : Int) - 150)) ↔ ∃ i, m = 2 ^ i := by
  obtain ⟨-, hq, -, -, hb, -⟩ := hf.bounds
  constructor
  · rintro ⟨N, -, h⟩
    obtain ⟨i, hi, -⟩ := (eq_two_zpow_iff h0 e _).mp h
    exact ⟨i, hi⟩
  · rintro ⟨i, hi⟩
    have h := (eq_two_zpow_iff h0 e (e + i)).mpr ⟨i, hi, rfl⟩
    rw [h] at hlt
    have := two_zpow_lt.mp hlt
    exact ⟨(e + i + 150).toNat, by omega, h.trans (congrArg _ (by omega))⟩

end

/-- An operand of a special function that is an integer. -/
theorem integer_operand {n : Bool} {m : Nat} {e E : Int} (h : FVal.number (.fin n m e) = E) :
    (m : ℚ) * 2 ^ e = E.natAbs ∧ signedInt n E.natAbs = E := by
  have habs : (m : ℚ) * 2 ^ e = E.natAbs := by rw [← abs_number_fin n m e, h, Nat.cast_natAbs, Int.cast_abs]
  refine ⟨habs, ?_⟩
  rw [number_fin, habs, ← signedInt_cast] at h
  exact_mod_cast h

section
variable {f : FFmt} {m : Nat} {e : Int} {n : Bool} {a : Nat} {k : Keys} {res : FRes}
  (hf : SfuFormat f) (hv : f.val (f.flushIn k.fsi a) = .fin n m e)
include hf hv

/-- RCP (R70, R71). -/
theorem sfuLane_rcp (h0 : m ≠ 0) (hres : sfuLane f 0 k a = res) (E : Int) :
    let x := FVal.number (.fin n m e)
    let value := FVal.number (f.val res.v)
    let normal : ℚ := 2 ^ (f.qmin + f.m)
    let power := ∃ N : Nat, N < 300 ∧ |x| = (2 : ℚ) ^ ((N : Int) - 150)
    ((2 : ℚ) ^ (f.bias + 1) ≤ |x⁻¹| → res = ⟨f.sign (decide (x < 0)) (f.inf.getD 0), fOF, 0⟩) ∧
    (normal ≤ |x⁻¹| → |x⁻¹| < (2 : ℚ) ^ f.bias → (2 : ℚ) ^ E ≤ |x⁻¹| → |x⁻¹| < (2 : ℚ) ^ (E + 1) →
      FVal.finite (f.val res.v) = true ∧ res.fl = 0 ∧ |value - x⁻¹| ≤ (2 : ℚ) ^ (E - f.m) ∧ (power → value = x⁻¹)) ∧
    (|x⁻¹| < normal → ¬power → res.fl = fUF ∧ (k.fso = false → |value - x⁻¹| ≤ (2 : ℚ) ^ f.qmin ∧ bit res.v (f.w - 1) = decide (x < 0))) ∧
    (|x⁻¹| < normal → k.fso = true → f.subnormal res.v = false) := by
  intro x value normal power
  obtain ⟨hm, he, hlt⟩ := hf.operand hv
  have hsign : decide (x < 0) = n := by rw [Bool.eq_iff_iff, decide_eq_true_eq]; exact number_neg_iff h0
  have hpower : power ↔ ∃ i, m = 2 ^ i := by
    rw [← power_iff hf h0 he hlt]
    simp only [power, x, abs_number_fin]
  rw [sfuLane_finite hv h0 (.inr (.inl rfl))] at hres
  rw [hsign, hpower, abs_number_inv]
  refine ⟨fun hover => ?_, fun hnormal hbias hlow hhigh => ?_, fun hsmall hpow => ?_, fun _ hfso => ?_⟩
  · rw [← hres]
    exact rcp_overflow hf h0 hm he hlt k.fso n (by exact_mod_cast hover)
  · obtain ⟨K, hK, heq, herr, hexact⟩ := rcp_normal hf h0 hm he hlt k.fso n hnormal (by exact_mod_cast hbias) hlow hhigh
    rw [heq] at hres
    obtain ⟨hnum, hfin⟩ := hf.value hK n
    subst hres
    refine ⟨hfin, rfl, ?_, fun h => ?_⟩
    · show |FVal.number (f.val (f.sign n K)) - _| ≤ _
      rwa [hnum, number_inv, abs_signOf_sub]
    · show FVal.number (f.val (f.sign n K)) = _
      rw [hnum, number_inv, hexact h]
  · obtain ⟨hfl, hkeep⟩ := rcp_subnormal hf h0 hm he hlt k.fso n hpow hsmall
    rw [hres] at hfl hkeep
    refine ⟨hfl, fun hfso => ?_⟩
    obtain ⟨K, hK, heq, herr⟩ := hkeep hfso
    obtain ⟨hnum, -⟩ := hf.value hK n
    refine ⟨?_, ?_⟩
    · show |FVal.number (f.val res.v) - _| ≤ _
      rwa [heq, hnum, number_inv, abs_signOf_sub]
    · rw [heq]
      exact FFmt.Wf.bit_sign (Nat.lt_of_le_of_lt hK hf.wf.max_lt) n
  · rw [← hres, hfso]
    exact sfuFinite_flushed hf ..

/-- EXP2 of an integer whose power is a normal number, zero among them (R70). -/
theorem sfuLane_exp2_integer (hone : f.one ≤ f.max ∧ f.magnitude f.one = 1) {E : Int} (hx : FVal.number (.fin n m e) = E)
    (hlow : f.qmin + f.m ≤ E) (hhigh : E ≤ f.bias) : ∃ K ≤ f.max, sfuLane f 3 k a = ⟨f.sign false K, 0, 0⟩ ∧ f.magnitude K = 2 ^ E := by
  obtain ⟨hm, he, -⟩ := hf.operand hv
  have hq := hf.bounds.2.1
  by_cases h0 : m = 0
  · subst h0
    have hE : E = 0 := by
      rw [(number_eq_zero_iff n 0 e).mpr rfl] at hx
      exact_mod_cast hx.symm
    refine ⟨f.one, hone.1, by simp only [sfuLane, hv, if_true]; rfl, by rw [hE, hone.2, zpow_zero]⟩
  · obtain ⟨habs, hsigned⟩ := integer_operand hx
    obtain ⟨K, hK, heq, hmag⟩ := exp2_integer hf (by omega) k.fso n habs (by rwa [hsigned]) (by rwa [hsigned])
    rw [hsigned] at hmag
    exact ⟨K, hK, (sfuLane_finite hv h0 (.inr (.inr rfl))).trans heq, hmag⟩

/-- LOG2 of a power of two (R70). -/
theorem sfuLane_log2 {E : Int} (hn : n = false) (h0 : m ≠ 0) (hx : (m : ℚ) * 2 ^ e = 2 ^ E) :
    ∃ K ≤ f.max, sfuLane f 4 k a = ⟨f.sign (decide (E < 0)) K, 0, 0⟩ ∧ signOf (decide (E < 0)) * f.magnitude K = E := by
  obtain ⟨hm, he, hlt⟩ := hf.operand hv
  rw [hx] at hlt
  have hE := two_zpow_lt.mp hlt
  obtain ⟨i, rfl, rfl⟩ := (eq_two_zpow_iff h0 e E).mp hx
  obtain ⟨K, hK, heq, hmag⟩ := log2_power hf k.fso (i := i) (e := e) (by omega) (by omega)
  refine ⟨K, hK, ?_, ?_⟩
  · rw [sfuLane_finite hv h0 (.inl hn), hn]
    exact heq
  · rw [hmag]
    generalize e + (i : Int) = E
    by_cases hneg : E < 0
    · rw [decide_eq_true hneg, signOf_true, abs_of_neg (by exact_mod_cast hneg), neg_one_mul, neg_neg]
    · rw [decide_eq_false hneg, signOf_false, abs_of_nonneg (by exact_mod_cast not_lt.mp hneg), one_mul]

end

theorem specialFunctionBounds : Says.SpecialFunctionBounds := by
  intro g a k E hg f v x res value gives normal power hfin
  have hf := sfuFormat_ffOf hg
  obtain ⟨n, m, e, hv⟩ := FVal.finite_iff.mp hfin
  obtain ⟨hm, he, hlt⟩ := hf.operand hv
  obtain ⟨hm23, hq, hqm, hb15, hb, hm7⟩ := hf.bounds
  have hx : x = FVal.number (.fin n m e) := congrArg FVal.number hv
  have hpositive : 0 < x → m ≠ 0 ∧ n = false ∧ x = m * 2 ^ e := fun hpos => by
    rw [hx] at hpos ⊢
    have h0 := mt (number_eq_zero_iff n m e).mpr hpos.ne'
    have hn : n = false := by simpa using mt (number_neg_iff h0).mpr (not_lt.mpr hpos.le)
    exact ⟨h0, hn, by rw [number_fin, hn, signOf_false, one_mul]⟩
  have hroot : ∀ fn K, K ≤ f.max → res fn = ⟨f.sign false K, 0, 0⟩ →
      FVal.finite (f.val (res fn).v) = true ∧ (res fn).fl = 0 ∧ value fn = f.magnitude K := fun fn K hK heq => by
    obtain ⟨hnum, hfin'⟩ := hf.value hK false
    rw [signOf_false, one_mul] at hnum
    simp only [value, heq]
    exact ⟨hfin', trivial, hnum⟩
  refine ⟨fun hne => ?_, fun hpos h10 hlow hhigh => ?_, fun hpos h10 hlow hhigh => ?_, fun hxE hlow hhigh => ?_, fun hover => ?_, fun hvan => ?_,
    fun hpow => ?_⟩
  · have h0 : m ≠ 0 := fun h => hne (hx.trans ((number_eq_zero_iff n m e).mpr h))
    simp only [power, hx]
    exact sfuLane_rcp hf hv h0 rfl E
  · obtain ⟨h0, rfl, hxm⟩ := hpositive hpos
    subst h10
    rw [hxm] at hlow hhigh ⊢
    have hexp := hf.exponent_bounds h0 he hlt
    obtain ⟨K, hK, heq, h1, h2⟩ := sqrt_result h0 hm ⟨hexp.2, hexp.1⟩ k.fso hlt hlow hhigh
    obtain ⟨h3, h4, h5⟩ := hroot 2 K hK ((sfuLane_finite hv h0 (.inl rfl)).trans heq)
    rw [h5]
    exact ⟨h3, h4, h1, h2⟩
  · obtain ⟨h0, rfl, hxm⟩ := hpositive hpos
    subst h10
    rw [hxm] at hlow hhigh ⊢
    have hexp := hf.exponent_bounds h0 he hlt
    obtain ⟨K, hK, heq, h1, h2⟩ := rsq_result h0 hm ⟨hexp.2, hexp.1⟩ k.fso hlt hlow hhigh
    obtain ⟨h3, h4, h5⟩ := hroot 1 K hK ((sfuLane_finite hv h0 (.inl rfl)).trans heq)
    rw [h5]
    exact ⟨h3, h4, h1, h2⟩
  · have hg8 : 8 ≤ g ∧ g ≤ 13 := by
      simp only [List.mem_cons, List.not_mem_nil, or_false] at hg
      omega
    obtain ⟨hone, hmag, -⟩ := ffOf_one hg8.1 hg8.2
    obtain ⟨K, hK, heq, hval⟩ := sfuLane_exp2_integer hf hv ⟨hone, hmag⟩ (hx.symm.trans hxE) (two_zpow_le.mp hlow) hhigh
    obtain ⟨h3, h4, h5⟩ := hroot 3 K hK heq
    exact ⟨h5.trans hval, h3, h4⟩
  · have hb0 : (0 : ℚ) ≤ f.bias := Nat.cast_nonneg _
    have hpos : 0 < x := by rcases hover with h | h <;> linarith
    obtain ⟨h0, rfl, hxm⟩ := hpositive hpos
    rw [hxm] at hover
    exact (sfuLane_finite hv h0 (.inl rfl)).trans (exp2_overflow hf (by omega) k.fso hover)
  · have hq0 : (f.qmin : ℚ) ≤ 0 := by exact_mod_cast hf.log_bounds.2.2
    have hneg : x < 0 := by linarith
    rw [hx] at hneg hvan
    have h0 := mt (number_eq_zero_iff n m e).mpr hneg.ne
    obtain rfl := (number_neg_iff h0).mp hneg
    rw [number_fin, signOf_true, neg_one_mul] at hvan
    exact (sfuLane_finite hv h0 (.inr (.inr rfl))).trans (exp2_vanishes hf (by omega) k.fso (by linarith))
  · obtain ⟨h0, hn, hxm⟩ := hpositive (hpow ▸ two_zpow_pos E)
    obtain ⟨K, hK, heq, hval⟩ := sfuLane_log2 hf hv hn h0 (hxm.symm.trans hpow)
    obtain ⟨hnum, hfin'⟩ := hf.value hK (decide (E < 0))
    rw [hval] at hnum
    simp only [gives, value]
    rw [show res 4 = _ from heq]
    exact ⟨hnum, hfin', rfl⟩

end Sys2Proof.Machine

open Sys2Proof Sys2Proof.Machine

/-- Settles O32: each lane is one rounding of the exact result to the cell between two neighbours of the format, and the special functions are bracketed. -/
theorem floatCorners : Obligations.FloatCorners :=
  ⟨nansAreCanonical, arithmeticRoundsOnce, comparisonsOrderNumbers, conversionsRoundOnce, memorySumsRoundOnce, minimumAndMaximum, specialFunctionValues,
    specialFunctionBounds⟩

end

section
/-!
SUPPORT. The tile instructions of the elements and the checks of their registers (R82 to R90).
-/

namespace Sys2Proof.Machine

open Sys2Proof

section
variable {s : State} {inst : Inst} {v : Elem} {f : Nat → Elem → Inst → TileRes}

/-- No operand is a tile handle that is not valid. -/
def HandlesValid (e : Nat) (v : Elem) (inst : Inst) : Prop := ∀ t ∈ inst.toks, t.kind = kTile → (validHandle e v t).isSome = true

theorem handlesValid_of_data (hh : handleOperand inst = none) (e : Nat) (v : Elem) : HandlesValid e v inst := by
  intro t ht hk
  simp only [Inst.toks, List.mem_cons, Option.mem_toList] at ht
  rcases ht with rfl | hb
  · simp [handleOperand, hk] at hh
  · by_cases ha : inst.a.kind = kTile <;> simp [handleOperand, ha, hb, hk] at hh

theorem handlesValid_of_valid {e j : Nat} (hb : inst.b = none) (h : validHandle e v inst.a = some j) : HandlesValid e v inst := by
  intro t ht _
  simp only [Inst.toks, hb, Option.toList_none, List.mem_singleton] at ht
  rw [ht, h, Option.isSome_some]

theorem tileIssue_done {v' : Elem} {toks : List Token} (hs : s.issue.insts = [inst]) (hv : s.elem? s.issue.x s.issue.e = some v)
    (hf : f s.issue.e v inst = .done v' toks) : tileIssue f s = .next (flushOut s.issue.x s.issue.e (s.setElem s.issue.x s.issue.e
      { v' with status := v'.status.count 1, out := v'.out ++ toks })) := by
  simp only [tileIssue, hv, theInst, hs, List.headD_cons, hf]

/-- What trapped stays ready (R326). -/
theorem tileIssue_trap {cause : Nat} {toks : List Token} (hs : s.issue.insts = [inst]) (hv : s.elem? s.issue.x s.issue.e = some v)
    (hf : f s.issue.e v inst = .trap cause toks) : tileIssue f s = .next (fabricTrap s.issue.x s.issue.e s.issue.slot inst.a.tag cause 0 toks
      (s.setElem s.issue.x s.issue.e { v with ready := inst :: v.ready })) := by
  simp only [tileIssue, hv, theInst, hs, List.headD_cons, hf, List.singleton_append]

/-- An instruction of R85 to R89 whose operands are data or valid handles does what its function says. -/
theorem tileOp_eq (hs : s.issue.insts = [inst]) (hv : s.elem? s.issue.x s.issue.e = some v) (hh : HandlesValid s.issue.e v inst) :
    tileOp f s = tileIssue f s := by
  have hnone : inst.toks.find? (fun t => t.kind == kTile && (validHandle s.issue.e v t).isNone) = none := by
    refine List.find?_eq_none.mpr fun t ht hbad => ?_
    obtain ⟨hk, hn⟩ := Bool.and_eq_true _ _ ▸ hbad
    have := hh t ht (beq_iff_eq.mp hk)
    simp [Option.isNone_iff_eq_none.mp hn] at this
  simp only [tileOp, tileIssue, hv, theInst, hs, List.headD_cons, hnone]

theorem needTile_of_lt {k : Nat} (h : k < v.allot) (i : Inst) (g : TileRes) : needTile v k i g = g := if_pos h

theorem needTile_of_le {k : Nat} (h : v.allot ≤ k) (i : Inst) (g : TileRes) : needTile v k i g = .trap cILLTILE [i.a] := if_neg (Nat.not_lt.mpr h)

end

theorem tileInstructionsLeaveElem : Says.TileInstructions := by
  intro s w inst v j hs hv e m k src n grown shrunk data handle
  have leaves : HandlesValid e v inst → ∀ (o : Out) (f : Nat → Elem → Inst → TileRes) (v' : Elem) (toks : List Token), o = tileOp f s →
      f e v inst = .done v' toks → o = .next (flushOut s.issue.x e (s.setElem s.issue.x e
        { v' with status := v'.status.count 1, out := v'.out ++ toks })) := fun hh o f v' toks ho hf =>
    ho.trans ((tileOp_eq hs hv hh).trans (tileIssue_done hs hv hf))
  refine ⟨fun hh => ?_, fun hb hj => ?_⟩
  · have leaves := leaves (handlesValid_of_data hh e v)
    refine ⟨fun hn => leaves (execTalloc w s) _ _ _ rfl (if_neg (Nat.not_lt.mpr hn)),
      fun hn => leaves (execTshrink w s) _ _ _ rfl (if_neg (Nat.not_lt.mpr hn)), fun hk => ⟨leaves (execTcfg w s) _ _ _ rfl (needTile_of_lt hk ..),
        leaves (execTzero w s) _ _ _ rfl (needTile_of_lt hk ..), fun hsrc => leaves (execTmov w s) _ _ _ rfl ?_,
        fun hn => leaves (execText w s) _ _ _ rfl ?_, fun hn => leaves (execTins w s) _ _ _ rfl ?_⟩, leaves (execAfmt w s) _ _ _ rfl rfl⟩
    · exact (needTile_of_lt hk ..).trans (needTile_of_lt hsrc ..)
    · exact (needTile_of_lt hk ..).trans (if_neg (Nat.not_lt.mpr hn))
    · exact (needTile_of_lt hk ..).trans (if_neg (Nat.not_lt.mpr hn))
  · have hx : BitVec.ofNat 16 (bits m 31 16) = BitVec.ofNat 16 (m / 2 ^ 16) := by
      refine BitVec.eq_of_toNat_eq ?_
      simp only [BitVec.toNat_ofNat, bits, Nat.reduceAdd, Nat.reduceSub, Nat.mod_mod]
    rw [← hx]
    refine leaves (handlesValid_of_valid hb hj) (execWlatch w s) _ _ _ rfl ?_
    simp only [hj]
    rfl

theorem tileRegistersAreChecked : Says.TileRegistersAreChecked := by
  intro s w inst v hs hv hh traps
  have trap : ∀ (o : Out) (f : Nat → Elem → Inst → TileRes), o = tileOp f s → f s.issue.e v inst = .trap cILLTILE [inst.a] →
      o = .next (fabricTrap s.issue.x s.issue.e s.issue.slot inst.a.tag cILLTILE 0 [inst.a]
        (s.setElem s.issue.x s.issue.e { v with ready := inst :: v.ready })) :=
    fun o f ho hf => ho.trans ((tileOp_eq hs hv (handlesValid_of_data hh _ v)).trans (tileIssue_trap hs hv hf))
  exact ⟨fun hk => ⟨trap (execTcfg w s) _ rfl (needTile_of_le hk ..), trap (execTzero w s) _ rfl (needTile_of_le hk ..),
      trap (execTmov w s) _ rfl (needTile_of_le hk ..), trap (execText w s) _ rfl (needTile_of_le hk ..),
      trap (execTins w s) _ rfl (needTile_of_le hk ..)⟩,
    fun hn => trap (execTalloc w s) _ rfl (if_pos hn), fun hn => trap (execTshrink w s) _ rfl (if_pos hn)⟩

end Sys2Proof.Machine

open Sys2Proof Sys2Proof.Machine

/-- Settles O34: a tile instruction whose operands are data or valid handles does what its rule says, once its register is below the allotment. -/
theorem tileInstructions : Obligations.TileInstructions := ⟨tileInstructionsLeaveElem, tileRegistersAreChecked⟩
end

section
/-!
SUPPORT. The operators that join, accumulate, loop and merge tokens (R109 to R112).
-/

namespace Sys2Proof.Machine

open Sys2Proof

/-! ## Operators that act -/

theorem operOn_oper {x o kind : Nat} {s : State} {im : OpImage} {v : Oper} (h : operOn x o kind s = some (im, v)) : s.oper? x o = some v := by
  simp only [operOn] at h
  split at h
  next im' v' him hv =>
    split at h
    · cases h; exact hv
    · cases h
  · cases h

theorem State.oper_congr {s t : State} (h : t.stripes = s.stripes) (x o : Nat) : t.oper? x o = s.oper? x o := by
  simp only [State.oper?, State.stripe, h]

theorem Oper.inputs_takeAt (v : Oper) (i j k : Nat) :
    Table.getD (v.takeAt i k).inputs j [] = if j = i then dropAt (Table.getD v.inputs i []) k else Table.getD v.inputs j [] := Table.getD_set ..

section
variable {s : State} {x o k : Nat} {im : OpImage} {v : Oper} {t : Token}

/-! ## JOIN (R109) -/

theorem joinFire_eq (h : operOn x o 7 s = some (im, v)) (hall : ∀ i ∈ joinInputs im, (v.head i).isSome = true)
    (ht : ((joinInputs im).filterMap v.head).head? = some t) : exec (.joinFire x o) s =
      let ts := operOut im.out0 { t with after := ((joinInputs im).filterMap v.head).foldl (fun m h => m.join h.after) View.zero }
      if !roomForAll x ts s then .next s else .next (operSend x o ts (s.setOper x o ((joinInputs im).foldl (fun w i => w.take i) v))) := by
  have hlen := List.filterMap_length_eq_length.mpr hall
  show execJoinFire x o s = _
  simp only [execJoinFire, h]
  cases hheads : (joinInputs im).filterMap v.head with
  | nil => simp [hheads] at ht
  | cons t' rest =>
    obtain rfl : t' = t := by simpa [hheads] using ht
    rw [hheads] at hlen
    simp only [hlen, ne_eq, not_true_eq_false, false_or]

/-! ## ACCUM (R110) -/

theorem firstOfRoute_lt {i : Nat} (h : firstOfRoute v i k = some t) : k < (Table.getD v.inputs i []).length := by
  simp only [firstOfRoute] at h
  split at h
  next hk => exact (List.getElem?_eq_some_iff.mp hk).1
  · cases h

/-- A value that is its route's first is combined under the COUNT of the parameters. -/
theorem accumCombine_count (h : operOn x o 8 s = some (im, v)) (ht : firstOfRoute v 0 0 = some t) (hc : im.field 0 31 16 ≠ 0) :
    exec (.accumCombine x o 0) s = accumTake x o 0 im v t (im.field 0 31 16) none s := by
  show execAccumCombine x o 0 s = _
  simp only [execAccumCombine, h, if_neg (Nat.not_le.mpr (firstOfRoute_lt ht)), ht, ne_eq, hc, not_false_eq_true, if_true]

/-- With COUNT = 0, under the first release count of its route that waits (log 29). -/
theorem accumCombine_release (h : operOn x o 8 s = some (im, v)) (ht : firstOfRoute v 0 k = some t) (hc : im.field 0 31 16 = 0) {j : Nat} {c : Token}
    (hj : releaseCount v t.route = some (j, c)) (hv : c.value ≠ 0) :
    exec (.accumCombine x o k) s = accumTake x o k im v t c.value.toNat (some (j, c)) s := by
  show execAccumCombine x o k s = _
  simp only [execAccumCombine, h, if_neg (Nat.not_le.mpr (firstOfRoute_lt ht)), ht, hc, ne_eq, not_true_eq_false, if_false, hj, if_neg hv]

theorem accumCombine_empty (h : operOn x o 8 s = some (im, v)) (ht : firstOfRoute v 1 k = some t) (hc : im.field 0 31 16 = 0) (hv : t.value = 0)
    (hp : (accumPartial im v t.route.toNat).2.1 = 0) (hroom : roomForAll x (operOut im.out0 t) s = true) :
    exec (.accumCombine x o ((Table.getD v.inputs 0 []).length + k)) s =
      .next (accumRelease x o im (v.takeAt 1 k) t (accumIdentity (im.field 0 5 4) (im.field 0 3 0)) s) := by
  show execAccumCombine x o _ s = _
  simp only [execAccumCombine, h, if_pos (Nat.le_add_right _ k), Nat.add_sub_cancel_left, emptyRelease, ht, hv, hc, hp, hroom, ne_eq,
    not_true_eq_false, Bool.not_true, Bool.false_eq_true, or_self, if_false]

theorem accumWord_lane (a b : Word) {code j : Nat} (hc : code < 8) (hj : j < 64 / laneWidth code) :
    laneOf (laneWidth code) j (accumWord 0 code false a b).1 = wrapInt (laneWidth code) (laneVal code j a + laneVal code j b) := by
  have hval : ∀ v : Word, laneVal code 0 (w64 (laneOf (laneWidth code) j v)) = laneVal code j v := fun v => laneVal_zero (laneOf_lt ..)
  have hlane : (accumLane 0 code false (laneOf (laneWidth code) j a) (laneOf (laneWidth code) j b)).1 =
      wrapInt (laneWidth code) (laneVal code j a + laneVal code j b) := by
    simp only [accumLane, Bool.false_eq_true, and_false, if_false]
    rw [combineLane_int noKeys (by decide) hc (laneOf_lt ..) (laneOf_lt ..), hval, hval]
    rfl
  simp only [accumWord]
  rw [laneOf_joinLanes (by simp [laneWidth_mul]) (by simpa using hj)]
  simp only [List.getElem_map, List.getElem_range, hlane]
  exact Nat.mod_eq_of_lt (wrapInt_lt ..)

/-! ## LOOP (R111) -/

theorem loopEntry_eq (h : operOn x o 9 s = some (im, v)) (ht : v.head 0 = some t) {n : Nat} (hn : freeValue im v = some n) :
    exec (.loopEntry x o) s =
      let u := if im.field 0 0 0 = 0 then { t with frame := BitVec.ofNat 11 n } else { t with iter := BitVec.ofNat 10 n }
      if !roomForAll x (operOut im.out0 u) s then .next s
      else .next (operSend x o (operOut im.out0 u) (s.setOper x o { v.take 0 with pool := Table.set n t v.pool })) := by
  show execLoopEntry x o s = _
  simp only [execLoopEntry, h, ht, hn]

theorem loopExit_eq (h : operOn x o 9 s = some (im, v)) (ht : v.head 1 = some t) {old : Token}
    (hold : Table.find (loopField im t) v.pool = some old) : exec (.loopExit x o) s =
      let u := { old.result t.value with after := old.after.join t.after }
      if !roomForAll x (operOut im.out1 u) s then .next s
      else .next (operSend x o (operOut im.out1 u) (s.setOper x o { v.take 1 with pool := Table.erase (loopField im t) v.pool })) := by
  show execLoopExit x o s = _
  simp only [execLoopExit, h, ht, hold]

/-! ## MERGE (R112) -/

/-- In ascending key the head that is no greater goes first, input 0 on equal keys; alone it goes once the other input has ended. -/
theorem mergeNext_ascending {img : SegImage} {vs i : Nat} (hm : im.field 0 0 0 ≠ 0) (hi : i < 2) (ht : v.head i = some t)
    (hle : ∀ u, v.head (1 - i) = some u → mergeKey t < mergeKey u ∨ (mergeKey t = mergeKey u ∧ i = 0))
    (hover : v.head (1 - i) = none → inputOver img vs o (1 - i) v = true) : mergeNext img vs o im v = some i := by
  simp only [mergeNext, if_neg hm]
  interval_cases i
  · cases hu : v.head 1 with
    | none => simp only [ht, hover hu, if_true]
    | some u =>
      have hkey := hle u hu
      have : ¬ mergeKey u < mergeKey t := by omega
      simp only [ht, if_neg this]
  · cases hu : v.head 0 with
    | none => simp only [ht, hover hu, if_true]
    | some u =>
      have hkey := hle u hu
      have : mergeKey t < mergeKey u := by omega
      simp only [ht, if_pos this]

theorem mergeForward_eq (h : operOn x o 10 s = some (im, v)) {rid i : Nat} {r : Run} (hr : s.runOf x = some (rid, r))
    (hi : mergeNext r.image ((s.stripe x).vs.getD 0) o im v = some i) (ht : v.head i = some t) : exec (.mergeForward x o) s =
      if !roomForAll x (operOut im.out0 t) s then .next s
      else .next (operSend x o (operOut im.out0 t) (s.setOper x o { v.take i with accesses := v.accesses.erase (t, i == 1) })) := by
  show execMergeForward x o s = _
  simp only [execMergeForward, h, hr, hi, ht]

end

/-- What answers once its tokens find room, where they do. -/
theorem Gives.of_room {i : Instr} {s s1 s2 t : State} {x : Nat} {ts : List Token}
    (h : exec i s = if !roomForAll x ts s1 then .next s2 else .next t) (hroom : roomForAll x ts s1 = true) : Gives i s (fun u => u = t) :=
  ⟨t, by rw [h, hroom]; rfl, rfl⟩

theorem streamOperators_says : Says.StreamOperators := by
  intro s x o k im v t
  refine ⟨fun h hall ht hroom => Gives.of_room (joinFire_eq h hall ht) hroom, fun h ht hc => ?_, fun h ht hc j c hj hv => ?_,
    fun h ht hc hv hp hroom => ⟨_, accumCombine_empty h ht hc hv hp hroom, rfl⟩, fun a b code j hc hj => accumWord_lane a b hc hj,
    fun h ht n hn hroom => Gives.of_room (loopEntry_eq h ht hn) hroom, fun h ht old hold hroom => Gives.of_room (loopExit_eq h ht hold) hroom,
    fun rid r i h hr ht hnext hroom => Gives.of_room (mergeForward_eq h hr ?_ ht) hroom⟩
  · intro p r s1 v1
    have hexec := accumCombine_count h ht hc
    refine ⟨fun hn => ⟨_, hexec.trans (if_neg hn), rfl⟩, fun hn hroom => ⟨_, hexec.trans ((if_pos hn).trans (if_neg ?_)), rfl⟩⟩
    rw [hroom]; decide
  · intro p sum
    have hexec := accumCombine_release h ht hc hj hv
    refine ⟨fun hn => ⟨_, hexec.trans (if_neg hn), _, State.oper_setOper_self .., Table.find_set_self .., Table.getD_set_self ..⟩,
      fun hn hroom => ⟨_, hexec.trans ((if_pos hn).trans (if_neg ?_)), _, rfl, _, State.oper_setOper_self .., rfl, ?_, ?_⟩⟩
    · rw [hroom]; decide
    · simp only [Oper.inputs_takeAt]; rfl
    · simp only [Oper.inputs_takeAt]; rfl
  · by_cases hm : im.field 0 0 0 = 0
    · rw [if_pos hm] at hnext
      rw [mergeNext, if_pos hm]
      exact hnext
    · rw [if_neg hm] at hnext
      obtain ⟨hi, hle, hover⟩ := hnext
      exact mergeNext_ascending hm hi ht hle hover

end Sys2Proof.Machine

open Sys2Proof Sys2Proof.Machine

/-- Settles O42: each stream operator answers one state once its tokens find room, and a lane of ACCUM wraps the sum of the operands' lanes. -/
theorem streamOperators : Obligations.StreamOperators := streamOperators_says
end

section
/-!
SUPPORT. The version operators (R108, R278, R295).
-/

namespace Sys2Proof.Machine

open Sys2Proof

section
variable {s s1 s2 : State} {x o part l n g : Nat} {r : Region} {im : OpImage} {v : Oper} {a w : Token}

/-- A VLOAD in latest mode takes no version token. -/
theorem vloadAccess_eq (hp : stripePart s x = some (part, l)) (hparked : v.parked = false) (ha : v.head 0 = some a)
    (h : operOn x o 5 s = some (im, v)) {lat : Bool} (hlat : (im.field 0 0 0 == 1) = lat) (hw : lat = false → v.head 1 = some w) :
    exec (.vloadAccess x o) s =
      let tok := { a with after := a.after.join (if lat then Token.blank else w).after }
      if !v.vdata.isEmpty then vloadSend x o im tok none v.vdata v.vview (!lat) s
      else vloadHome x o im tok (if lat then none else some w.value.toNat) (im.p1 + a.value) part s := by
  have hsecond : (if lat then some Token.blank else v.head 1) = some (if lat then Token.blank else w) := by
    cases lat with
    | true => rfl
    | false => exact hw rfl
  show execVloadAccess x o s = _
  simp only [execVloadAccess, h, hp, hparked, Bool.false_eq_true, if_false, ha, hlat, hsecond]
  cases lat <;> rfl

/-- A VLOAD whose home answers sends what it was given. -/
theorem vloadHome_ok {t : Token} {va : Word} {want : Option Nat} {bs : List Byte} {rel : View} (hg : operGranule x o t va part s = .ok (n, r, g) s1)
    (hl : homeLoad part n g (want.getD (r.gran g).latest) s1 = some (.ok (bs, rel), s2)) : vloadHome x o im t want va part s =
      vloadSend x o im t (if want.isNone then some (want.getD (r.gran g).latest) else none) (bytesWords 8 bs) rel want.isSome s2 := by
  simp only [vloadHome, hg, Got.andThen_ok, hl]

theorem vstoreAccess_eq (hp : stripePart s x = some (part, l)) (hparked : v.parked = false) (ha : v.head 0 = some a)
    (h : operOn x o 6 s = some (im, v)) (hw : v.head 1 = some w) (hlen : 8 ≤ (Table.getD v.inputs 2 []).length) : exec (.vstoreAccess x o) s =
      let data := (Table.getD v.inputs 2 []).take 8
      let tok := { a with after := data.foldl (fun m d => m.join d.after) (a.after.join w.after) }
      if v.version.isSome then vstoreDone x o im tok s
      else vstoreHome x o tok w.value.toNat (wordBytes (data.map (·.value))) (im.p1 + a.value) part s := by
  have hfull : ¬ ((Table.getD v.inputs 2 []).take 8).length < 8 := by rw [List.length_take]; omega
  show execVstoreAccess x o s = _
  simp only [execVstoreAccess, h, hp, hparked, Bool.false_eq_true, if_false, ha, hw, if_neg hfull]

theorem vstoreHome_ok {t : Token} {va : Word} {ver : Nat} {data : List Byte} (hg : operGranule x o t va part s = .ok (n, r, g) s1)
    (hs : let view := (s1.stripe x).drained.join t.after
      let u := s1.mapOper x o (fun q => { q with vview := view })
      homeStore part n g ver (u.ownerOf x o) view data u = some (.ok s2)) :
    vstoreHome x o t ver data va part s = .next (s2.mapOper x o (fun q => { q with version := some ver })) := by
  simp only [vstoreHome, hg, Got.andThen_ok]
  simp only [hs]

end

theorem versionOperators_says : Says.VersionOperators := by
  intro s s1 s2 x o part l n g r im v a w hp hparked ha
  refine ⟨fun h => ?_, fun h hw hlen => ?_⟩
  · intro lat second tok words number ends hw
    have hexec := vloadAccess_eq hp hparked ha h (lat := lat) rfl hw
    clear_value lat
    refine ⟨fun bs rel hnone hg hl hroom => ?_, fun hsome hroom => ?_⟩
    · rw [hnone] at hexec
      cases lat with
      | true => exact .of_room ((hexec.trans (if_neg Bool.false_ne_true)).trans (vloadHome_ok (want := none) hg hl)) hroom
      | false => exact .of_room ((hexec.trans (if_neg Bool.false_ne_true)).trans (vloadHome_ok (want := some w.value.toNat) hg hl)) hroom
    · have hne : v.vdata.isEmpty = false := by simpa using hsome
      rw [hne] at hexec
      cases lat <;> exact .of_room hexec hroom
  · intro data tok
    have hexec := vstoreAccess_eq hp hparked ha h hw hlen
    refine ⟨fun hnone hg => ?_, fun hsome hroom => ?_⟩
    · intro view u hs
      rw [hnone] at hexec
      exact ⟨_, hexec.trans (vstoreHome_ok hg hs), rfl⟩
    · exact .of_room (hexec.trans (if_pos hsome)) hroom

end Sys2Proof.Machine

open Sys2Proof Sys2Proof.Machine

/-- Settles O41: the home's answer decides what a version operator sends or creates, and its tokens are taken once that is done. -/
theorem versionOperators : Obligations.VersionOperators := versionOperators_says
end

section
/-!
SUPPORT. ROUTE: the selection of a location, requests, acknowledgements and the read of the table (R113, R349, R357).
-/

namespace Sys2Proof.Machine

open Sys2Proof

/-! ## The selection of a location (R349) -/

/-- The valid place of the greatest score among the first n, the lowest of equal ones. -/
def bestOf (valid : Nat → Bool) (score : Nat → Int) (n : Nat) : Option Nat :=
  (List.range n).foldl (fun m k => if !valid k then m else match m with | none => some k | some j => if score j < score k then some k else some j) none

theorem bestOf_succ (valid : Nat → Bool) (score : Nat → Int) (n : Nat) : bestOf valid score (n + 1) =
    if !valid n then bestOf valid score n else match bestOf valid score n with
      | none => some n
      | some j => if score j < score n then some n else some j := by
  rw [bestOf, List.range_succ, List.foldl_append]
  rfl

theorem bestOf_none {valid : Nat → Bool} {score : Nat → Int} {n : Nat} (h : bestOf valid score n = none) : ∀ k < n, valid k = false := by
  induction n with
  | zero => exact fun k hk => absurd hk (Nat.not_lt_zero k)
  | succ n ih =>
    rw [bestOf_succ] at h
    cases hv : valid n with
    | true =>
      rw [hv] at h
      cases hb : bestOf valid score n with
      | none => simp [hb] at h
      | some j => by_cases hlt : score j < score n <;> simp [hb, hlt] at h
    | false =>
      rw [hv] at h
      intro k hk
      rcases Nat.lt_succ_iff_lt_or_eq.mp hk with hlt | rfl
      · exact ih h k hlt
      · exact hv

theorem bestOf_some {valid : Nat → Bool} {score : Nat → Int} {n j : Nat} (h : bestOf valid score n = some j) :
    j < n ∧ valid j = true ∧ ∀ k < n, valid k = true → score k ≤ score j ∧ (k < j → score k < score j) := by
  induction n generalizing j with
  | zero => simp [bestOf] at h
  | succ n ih =>
    rw [bestOf_succ] at h
    cases hv : valid n with
    | false =>
      rw [hv] at h
      obtain ⟨hj, hvalid, hmax⟩ := ih h
      refine ⟨by omega, hvalid, fun k hk hkv => hmax k (lt_of_le_of_ne (Nat.le_of_lt_succ hk) ?_) hkv⟩
      rintro rfl
      simp [hv] at hkv
    | true =>
      rw [hv] at h
      cases hb : bestOf valid score n with
      | none =>
        obtain rfl : n = j := by simpa [hb] using h
        refine ⟨by omega, hv, fun k hk hkv => ?_⟩
        rcases Nat.lt_succ_iff_lt_or_eq.mp hk with hlt | rfl
        · exact absurd (bestOf_none hb k hlt) (by simp [hkv])
        · exact ⟨le_refl _, fun hlt => absurd hlt (Nat.lt_irrefl _)⟩
      | some i =>
        obtain ⟨hi, hvalid, hmax⟩ := ih hb
        simp only [hb, Bool.not_true, Bool.false_eq_true, if_false] at h
        by_cases hlt : score i < score n
        · obtain rfl : n = j := by simpa [hlt] using h
          refine ⟨by omega, hv, fun k hk hkv => ?_⟩
          rcases Nat.lt_succ_iff_lt_or_eq.mp hk with hkn | rfl
          · have := (hmax k hkn hkv).1
            exact ⟨by omega, fun _ => by omega⟩
          · exact ⟨le_refl _, fun hlt => absurd hlt (Nat.lt_irrefl _)⟩
        · obtain rfl : i = j := by simpa [hlt] using h
          refine ⟨by omega, hvalid, fun k hk hkv => ?_⟩
          rcases Nat.lt_succ_iff_lt_or_eq.mp hk with hkn | rfl
          · exact hmax k hkn hkv
          · exact ⟨by omega, fun _ => by omega⟩

/-- The selector of a location after the raise. -/
def raisedSelectors (ws : List Nat) (cur : List Int) : List Int :=
  (List.range 8).map (fun k => if locValid (nth ws k 0) then nth cur k 0 + (locWeight (nth ws k 0) : Int) else nth cur k 0)

def validWeight (ws : List Nat) (k : Nat) : Nat := if locValid (nth ws k 0) then locWeight (nth ws k 0) else 0

theorem nth_raisedSelectors (ws : List Nat) (cur : List Int) {k : Nat} (hk : k < 8) :
    nth (raisedSelectors ws cur) k 0 = nth cur k 0 + (validWeight ws k : Int) := by
  have hget : nth (raisedSelectors ws cur) k 0 = if locValid (nth ws k 0) then nth cur k 0 + (locWeight (nth ws k 0) : Int) else nth cur k 0 := by
    simp [raisedSelectors, nth, List.getD_eq_getElem?_getD, hk]
  rw [hget, validWeight]
  split <;> simp

theorem selectLocation_eq (ws : List Nat) (cur : List Int) : selectLocation ws cur =
    let k := (bestOf (fun k => locValid (nth ws k 0)) (fun k => nth (raisedSelectors ws cur) k 0) 8).getD 0
    ((raisedSelectors ws cur).set k (nth (raisedSelectors ws cur) k 0 - (((List.range 8).map (validWeight ws)).sum : Int)), k) := rfl

theorem locValid_eq_testBit (w : Nat) : locValid w = w.testBit 5 := by
  rw [locValid, bit, Nat.testBit_eq_decide_div_mod_eq]
  exact Bool.beq_eq_decide_eq _ _

theorem nth_set (l : List Int) {k j : Nat} (hk : k < l.length) (a : Int) : nth (l.set k a) j 0 = if j = k then a else nth l j 0 := by
  by_cases h : j = k
  · subst h; simp [nth, List.getD_eq_getElem?_getD, hk]
  · simp [nth, List.getD_eq_getElem?_getD, Ne.symm h, h]

theorem locationsAreSelected : Says.LocationsAreSelected := by
  intro ws cur after loc hsel hvalid valid weight raised total
  have hv : ∀ k, locValid (nth ws k 0) = valid k := fun k => locValid_eq_testBit _
  have hw : ∀ k, validWeight ws k = weight k := fun k => by
    simp only [validWeight, hv, weight]
    rfl
  have hraised : ∀ k, k < 8 → nth (raisedSelectors ws cur) k 0 = raised k := fun k hk => by rw [nth_raisedSelectors ws cur hk, hw]
  rw [selectLocation_eq] at hsel
  simp only [hv, funext hw] at hsel
  cases hb : bestOf valid (fun k => nth (raisedSelectors ws cur) k 0) 8 with
  | none =>
    obtain ⟨k, hk, hkv⟩ := hvalid
    exact absurd (bestOf_none hb k hk) (by rw [show valid k = true from hkv]; decide)
  | some j =>
    obtain ⟨hj, hjv, hmax⟩ := bestOf_some hb
    rw [hb] at hsel
    obtain ⟨rfl, rfl⟩ := Prod.mk.inj hsel
    refine ⟨hj, hjv, fun k hk hkv => ?_, by simp [raisedSelectors], fun k hk => ?_⟩
    · have := hmax k hk hkv
      rwa [hraised k hk, hraised _ hj] at this
    · rw [nth_set _ (by simpa [raisedSelectors] using hj)]
      simp only [Option.getD_some]
      by_cases hkj : k = j
      · subst hkj; rw [if_pos rfl, if_pos rfl, hraised k hk]
      · rw [if_neg hkj, if_neg hkj, hraised k hk, Int.sub_zero]

section
variable {s s1 : State} {x o part l : Nat} {im : OpImage} {v : Oper} {t : Token} {r : Region}

/-! ## Requests and acknowledgements (R113) -/

/-- The table version under which an expert's entry was last written. -/
def versionUnder (r : Region) (expert held : Nat) : Nat := match entryUnder r expert held with | some e => e.1 | none => 0

/-- The selectors that a ROUTE holds for an expert's entry. -/
def selectorsOf (v : Oper) (expert under : Nat) : List Int :=
  match Table.find expert v.select with
  | some c => if c.1 = under then c.2 else List.replicate 8 0
  | none => List.replicate 8 0

/-- What a ROUTE sends for a token, and the state after it. -/
theorem routeRequest_eq (h : operOn x o 11 s = some (im, v)) (hp : stripePart s x = some (part, l)) (hr : routeTable s part im = some r)
    (ht : v.head 0 = some t) (howes : routeOwes v = false) (hwin : v.window.length < im.field 1 15 0) {held : Nat} (hheld : v.version = some held)
    {ws : List Nat} {cur : List Int} {loc expert : Nat} (hexpert : bits t.value.toNat 11 0 = expert) (hws : entryWords r expert held s = (ws, s1))
    (hheap : heapFails s r (expert + 1) (versionUnder r expert held) = false) (hvalid : locValid (nth ws 0 0) = true)
    (hsel : selectLocation ws (selectorsOf v expert (versionUnder r expert held)) = (cur, loc)) : exec (.routeRequest x o) s =
      let die := locDie (nth ws loc 0)
      let tok := { t with after := t.after.join (r.released 0 held) }
      let ts := operOut im.out0 (tok.result (routedValue t held die loc expert))
      if !roomForAll x ts s then .next s else
      .next (operSend x o ts (countLoad part expert die (s1.setOper x o { v.take 0 with
        select := Table.set expert (versionUnder r expert held, cur) v.select
        window := v.window ++ [⟨tok, expert, die, loc, held % 2 ^ 14⟩] }))) := by
  have hfull : (routeOwes v || decide (im.field 1 15 0 ≤ v.window.length)) = false := by simpa [howes] using hwin
  show execRouteRequest x o s = _
  cases hu : entryUnder r expert held <;> cases hc : Table.find expert v.select <;>
    simp only [selectorsOf, versionUnder, hu, hc] at hsel hheap ⊢ <;>
    simp only [execRouteRequest, h, hp, ht, hfull, hr, hheld, hexpert, hws, hheap, hvalid, hsel, hu, hc, Bool.false_eq_true, if_false, Bool.not_true]

theorem routeAcknowledgement_eq (h : operOn x o 11 s = some (im, v)) (ht : v.head 1 = some t) : exec (.routeAcknowledgement x o) s =
    .next (s.setOper x o { v.take 1 with
      window := match v.window.findIdx? (fun w => w.tok.tag == t.tag) with | some i => dropAt v.window i | none => v.window }) := by
  show execRouteAcknowledgement x o s = _
  simp only [execRouteAcknowledgement, h, ht] <;> rfl

/-! ## The read of the table (R349, R357) -/

theorem setRegions_oper (s : State) (p : Nat) (rs : Table Region) (x o : Nat) : (s.setRegions p rs).oper? x o = s.oper? x o := by
  unfold State.setRegions; split <;> rfl

theorem retestStores_id {s : State} (h : s.parked = []) (part n k : Nat) : retestStores part n k s = s := by
  cases k with
  | zero => rfl
  | succ k =>
    unfold retestStores
    cases s.region? part n with
    | none => rfl
    | some r => simp [h]

/-- With nothing parked a change of readers changes the regions alone. -/
theorem applyFloor_regions {s : State} (h : s.parked = []) (part n : Nat) (readers : Table Reader) :
    applyFloor part n readers s = s ∨ ∃ rs, applyFloor part n readers s = s.setRegions part rs := by
  unfold applyFloor
  cases hr : s.region? part n with
  | none => exact .inl rfl
  | some r =>
    refine .inr ⟨_, (retestStores_id (h := ?_) ..)⟩
    unfold State.putRegion State.setRegions
    split <;> exact h

theorem applyFloor_keeps {s : State} (h : s.parked = []) (part n : Nat) (readers : Table Reader) (x o : Nat) :
    (applyFloor part n readers s).oper? x o = s.oper? x o ∧ (applyFloor part n readers s).launches = s.launches := by
  obtain he | ⟨rs, he⟩ := applyFloor_regions h part n readers
  · rw [he]; exact ⟨rfl, rfl⟩
  · rw [he]; exact ⟨setRegions_oper .., by unfold State.setRegions; split <;> rfl⟩

theorem routeTableRead_eq (h : operOn x o 11 s = some (im, v)) (hp : stripePart s x = some (part, l)) (hr : routeTable s part im = some r)
    (hlost : homeLost s r = false) (hheap : heapFails s r 0 (r.gran 0).latest = false) (hdue : v.due = true)
    (hkept : ∃ u, (readTable x o part l im s).oper? x o = some u ∧ u.redirect = []) :
    exec (.routeTableRead x o) s = .next (readTable x o part l im s) := by
  obtain ⟨u, hu, hredirect⟩ := hkept
  show execRouteTableRead x o s = _
  simp only [execRouteTableRead, h, hp, hr, hlost, hheap, hdue, Bool.and_false, Bool.or_self, Bool.false_eq_true, if_false, if_true, hu]
  cases routeTable (readTable x o part l im s) part im with
  | none => rfl
  | some r' => simp only [hredirect, List.find?_nil, ite_self]

/-- A ROUTE holds the version it has read, its launch has frozen it where TRAIN says so, and the table counts as read. -/
def heldTable (x o part l read : Nat) (train : Bool) (rel : View) (v : Oper) (s : State) : State :=
  let s1 := s.setOper x o { v with due := false, version := some read, view := v.view.join rel }
  (if train then s1.mapLaunch l (fun w => { w with frozenT := some read }) else s1).mapPlace part (fun p => { p with wasRead := true })

theorem heldTable_launches (train : Bool) (read : Nat) (rel : View) {w : Launch} (hw : Table.find l s.launches = some w) :
    ∃ q, Table.find l (heldTable x o part l read train rel v s).launches = some q ∧ q.frozenT = if train then some read else w.frozenT := by
  cases train with
  | true =>
    have hmap : ∀ u : State, u.launches = s.launches → (u.mapLaunch l (fun w => { w with frozenT := some read })).launches =
        Table.set l { w with frozenT := some read } s.launches := fun u hu => by rw [State.mapLaunch, hu, hw, ← hu]; rfl
    exact ⟨_, (congrArg (Table.find l) (hmap (s.setOper x o _) rfl)).trans (Table.find_set_self ..), rfl⟩
  | false => exact ⟨w, hw, rfl⟩

theorem mapLaunch_stripes (s : State) (l : Nat) (f : Launch → Launch) : (s.mapLaunch l f).stripes = s.stripes := by
  unfold State.mapLaunch; split <;> rfl

theorem mapLaunch_parked (s : State) (l : Nat) (f : Launch → Launch) : (s.mapLaunch l f).parked = s.parked := by
  unfold State.mapLaunch; split <;> rfl

theorem heldTable_oper (train : Bool) (read : Nat) (rel : View) : (heldTable x o part l read train rel v s).oper? x o =
    some { v with due := false, version := some read, view := v.view.join rel } := by
  rw [← State.oper_setOper_self s x o { v with due := false, version := some read, view := v.view.join rel }]
  cases train with
  | true => exact State.oper_congr (mapLaunch_stripes ..) x o
  | false => rfl

theorem heldTable_parked (train : Bool) (read : Nat) (rel : View) : (heldTable x o part l read train rel v s).parked = s.parked := by
  cases train with
  | true => exact mapLaunch_parked ..
  | false => rfl

theorem readTable_eq (hv : s.oper? x o = some v) (hr : routeTable s part im = some r) {w : Launch} (hw : Table.find l s.launches = some w) {read : Nat}
    (hread : read = if im.field 1 16 16 = 1 then w.frozenT.getD (r.gran 0).latest else (r.gran 0).latest) :
    let u := heldTable x o part l read (im.field 1 16 16 == 1) (r.released 0 read) v s
    readTable x o part l im s = applyFloor part (u.part part).place.region r.readers u := by
  have hfrozen : (Table.find l s.launches).bind (·.frozenT) = w.frozenT := by rw [hw]; rfl
  simp only [readTable, hr, hfrozen, beq_iff_eq, ← hread, State.mapOper_of_some hv, heldTable]

/-- What a ROUTE that reads the table holds, and what its launch has frozen. -/
theorem readTable_keeps (hv : s.oper? x o = some v) (hr : routeTable s part im = some r) {w : Launch} (hw : Table.find l s.launches = some w)
    (hparked : s.parked = []) {read : Nat}
    (hread : read = if im.field 1 16 16 = 1 then w.frozenT.getD (r.gran 0).latest else (r.gran 0).latest) :
    (readTable x o part l im s).oper? x o = some { v with due := false, version := some read, view := v.view.join (r.released 0 read) } ∧
      ∃ q, Table.find l (readTable x o part l im s).launches = some q ∧ q.frozenT = if im.field 1 16 16 = 1 then some read else w.frozenT := by
  rw [readTable_eq hv hr hw hread]
  obtain ⟨hoper, hlaunches⟩ := applyFloor_keeps (heldTable_parked (x := x) (o := o) (part := part) (l := l) (v := v) (im.field 1 16 16 == 1) read
    (r.released 0 read) ▸ hparked) part _ r.readers x o
  rw [hoper, hlaunches]
  refine ⟨heldTable_oper .., ?_⟩
  simpa only [beq_iff_eq] using heldTable_launches (x := x) (o := o) (part := part) (v := v) (im.field 1 16 16 == 1) read (r.released 0 read) hw

theorem routeOperators_says : Says.RouteOperators := by
  intro s s1 x o part l im v t r held ws cur loc h hp hr
  refine ⟨fun ht howes hwin hheld => ?_, fun i ht hi => ?_, fun ht hi => ?_, fun w hw hlost hheap hdue hredirect hparked => ?_⟩
  · intro expert under before hws hheap hvalid hsel die tok value ts hroom
    have hexpert : bits t.value.toNat 11 0 = expert := by simp only [bits, Nat.pow_zero, Nat.div_one]; rfl
    exact .of_room (routeRequest_eq h hp hr ht howes hwin hheld hexpert hws hheap hvalid hsel) hroom
  · exact ⟨_, routeAcknowledgement_eq h ht, by rw [hi]⟩
  · exact ⟨_, routeAcknowledgement_eq h ht, by rw [hi]; rfl⟩
  · intro train read
    obtain ⟨hoper, hfrozen⟩ := readTable_keeps (operOn_oper h) hr hw hparked (read := read) rfl
    exact ⟨_, routeTableRead_eq h hp hr hlost hheap hdue ⟨_, hoper, hredirect⟩, hoper, hfrozen⟩

end

end Sys2Proof.Machine

open Sys2Proof Sys2Proof.Machine

/-- Settles O43: the fold over the locations keeps the lowest of the greatest, and ROUTE answers one state under the version that it holds. -/
theorem routeOperators : Obligations.RouteOperators := ⟨locationsAreSelected, routeOperators_says⟩
end

section
/-!
SUPPORT. What the work at a home leaves as it was: write queues and the ends of runs (R138, R258, R326, R327).
-/

namespace Sys2Proof.Machine

open Sys2Proof

/-! ## Ends of runs -/

/-- Every run keeps its halt cause and its status. -/
structure RunsKept (s t : State) : Prop where
  ends : ∀ rid, (Table.find rid t.runs).map (fun r => (r.haltCause, r.status)) = (Table.find rid s.runs).map (fun r => (r.haltCause, r.status))

theorem RunsKept.of_eq {s t : State} (h : t.runs = s.runs) : RunsKept s t := ⟨fun rid => by rw [h]⟩

theorem RunsKept.trans {s t u : State} (h : RunsKept s t) (h' : RunsKept t u) : RunsKept s u := ⟨fun rid => (h'.ends rid).trans (h.ends rid)⟩

/-- Only the table of runs matters of the state before. -/
theorem RunsKept.after {s s' t : State} (h : RunsKept s' t) (hs : s'.runs = s.runs) : RunsKept s t := ⟨fun rid => by rw [← hs, h.ends]⟩

/-- What each step of a fold keeps, the fold keeps. -/
theorem RunsKept.foldl {α : Type} {f : State → α → State} (h : ∀ u a, RunsKept u (f u a)) (l : List α) (s : State) : RunsKept s (l.foldl f s) :=
  List.foldlRecOn l f (motive := RunsKept s) (.of_eq rfl) fun u hu a _ => hu.trans (h u a)

/-- Nothing of the write queues changes, and no run ends or is asked to. -/
structure HomeKept (s t : State) : Prop where
  wqueue : t.wqueue = s.wqueue
  runs : RunsKept s t

theorem HomeKept.of_eq {s t : State} (hq : t.wqueue = s.wqueue) (hr : t.runs = s.runs) : HomeKept s t := ⟨hq, .of_eq hr⟩

theorem HomeKept.refl (s : State) : HomeKept s s := .of_eq rfl rfl

theorem HomeKept.trans {s t u : State} (h : HomeKept s t) (h' : HomeKept t u) : HomeKept s u := ⟨h'.wqueue.trans h.wqueue, h.runs.trans h'.runs⟩

theorem HomeKept.foldl {α : Type} {f : State → α → State} (h : ∀ u a, HomeKept u (f u a)) (l : List α) (s : State) : HomeKept s (l.foldl f s) :=
  List.foldlRecOn l f (motive := HomeKept s) (.refl s) fun u hu a _ => hu.trans (h u a)

section
variable (s : State)

/-! ## Replica locations that fail (R336, R355, R356) -/

theorem oweRedirect_kept (part table : Nat) (item : Nat × Nat × Nat) : HomeKept s (oweRedirect part table item s) := by
  refine ⟨rfl, ⟨fun rid => ?_⟩⟩
  simp only [oweRedirect, Table.find_mapVals, Option.map_map]
  refine congrArg (Option.map · _) (funext fun r => ?_)
  simp only [Function.comp_apply]
  split <;> rfl

theorem hastenDrain_kept (part expert die : Nat) : HomeKept s (hastenDrain part expert die s) := by
  unfold hastenDrain
  dsimp only
  split
  · exact HomeKept.trans (t := s.mapPlace part _) (.of_eq rfl rfl) (oweRedirect_kept ..)
  · exact .refl s

theorem queueFailure_kept (part expert die : Nat) : HomeKept s (queueFailure part expert die s) := by
  unfold queueFailure
  dsimp only
  split
  · exact .refl s
  · exact .of_eq rfl rfl

theorem failReplicas_kept (part : Nat) (bad : Nat × Nat × Nat × Nat → Bool) : HomeKept s (failReplicas part bad s) := by
  have h := HomeKept.foldl (f := fun t (z : Nat × Nat × Nat × Nat) => queueFailure part z.2.2.2 z.1 (hastenDrain part z.2.2.2 z.1 t))
    (fun u z => (hastenDrain_kept u ..).trans (queueFailure_kept ..))
  exact HomeKept.trans (h _ s) (.of_eq rfl rfl)

theorem noteMemerr_kept (part : Nat) (va : Word) : HomeKept s (noteMemerr part va s) := by
  unfold noteMemerr
  split
  · exact .refl s
  · exact failReplicas_kept s ..

theorem putThread_kept (t : Thread) : HomeKept s (s.putThread t) := by
  unfold State.putThread
  split <;> exact .of_eq rfl rfl

/-! ## Reductions (R138, R258) -/

theorem deferError_kept (q : PostedRed) : HomeKept s (deferError q s) := by
  unfold deferError
  dsimp only
  refine (noteMemerr_kept s (partOfMark s q.mark) q.va).trans ?_
  split
  · split
    · exact putThread_kept ..
    · exact .refl _
  · split
    · exact .refl _
    · exact .of_eq rfl rfl

theorem finishPosted_kept (owner job : Nat) (seqs : List Nat) : HomeKept s (finishPosted owner job seqs s) := by
  unfold finishPosted
  split
  · exact .refl s
  · split
    · exact .of_eq rfl rfl
    · exact .refl s

theorem pokeWith_kept (l p : Nat) (v : View) (pa : Nat) (bs : List Byte) : HomeKept s (pokeWith l p v pa bs s) := by
  rw [pokeWith_frame]; exact .of_eq rfl rfl

theorem pokeOk_kept {l p pa : Nat} {bs : List Byte} {s t : State} (h : pokeOk l p pa bs s = some t) : HomeKept s t := by
  unfold pokeOk at h
  split at h
  · cases h
  · cases h; exact pokeWith_kept ..

theorem devWrite_kept (pa : Nat) (bs : List Byte) : HomeKept s (devWrite pa bs s) := by
  unfold devWrite
  split
  · exact pokeOk_kept ‹_›
  · exact .refl s

theorem touchHeap_kept (pa : Nat) : HomeKept s (touchHeap pa s) := by
  rw [touchHeap_frame]; exact .of_eq rfl rfl

theorem applyRed_kept (r : PostedRed) : HomeKept s (applyRed r s) := by
  unfold applyRed
  split
  · exact deferError_kept s r
  · exact ((touchHeap_kept s r.pa).trans (pokeWith_kept ..)).trans (finishPosted_kept ..)

theorem seesWrite_kept (first owner : Nat) : HomeKept s (seesWrite first owner s) := by
  unfold seesWrite
  split
  · exact .refl s
  · split
    · split
      · exact putThread_kept ..
      · exact .refl s
    · split
      · exact .of_eq rfl rfl
      · exact .refl s

theorem applyFloats_kept (n : Nat) (rs : List PostedRed) : HomeKept s (applyFloats n rs s) := by
  induction n generalizing rs s with
  | zero => exact .refl s
  | succ n ih =>
    cases rs with
    | nil => exact .refl s
    | cons r rest =>
      refine HomeKept.trans ?_ (ih ..)
      split
      · exact HomeKept.foldl (fun u q => deferError_kept u q) _ s
      · exact (applyRed_kept ..).trans (HomeKept.foldl (fun u q => (finishPosted_kept u ..).trans (seesWrite_kept ..)) _ _)

theorem applyEntry_kept (e : QueueEntry) : HomeKept s (applyEntry e s) := by
  unfold applyEntry
  split
  · exact HomeKept.foldl (fun u r => applyRed_kept u r) _ s
  · exact applyFloats_kept ..

/-! ## Write queues (R258) -/

theorem Table.set_ne_nil {α : Type} (k : Nat) (v : α) (t : Table α) : Table.set k v t ≠ [] := by
  intro h
  have := Table.find_set_self k v t
  rw [h] at this
  cases this

theorem settleLines_runs (pa n : Nat) : RunsKept s (settleLines pa n s) := by
  unfold settleLines
  split
  · dsimp only
    split
    · exact RunsKept.after (HomeKept.foldl (fun u e => applyEntry_kept u e) _ _).runs rfl
    · exact .of_eq rfl
  · exact .of_eq rfl

/-- Only empty write queues are left empty by the settling of lines: a table that held a queue holds its remainder. -/
theorem settleLines_wqueue_nil {pa n : Nat} {s : State} (h : (settleLines pa n s).wqueue = []) : s.wqueue = [] := by
  unfold settleLines at h
  split at h
  · dsimp only at h
    split at h
    · rw [(HomeKept.foldl (fun u e => applyEntry_kept u e) _ _).wqueue] at h
      exact absurd h (Table.set_ne_nil _ _ s.wqueue)
    · exact h
  · exact h

theorem settleWalk_wqueue_nil {va k t : Nat} {s : State} (h : (settleWalk va k t s).wqueue = []) : s.wqueue = [] := by
  induction k generalizing t s with
  | zero => exact h
  | succ k ih =>
    unfold settleWalk at h
    dsimp only at h
    split at h
    · exact settleLines_wqueue_nil h
    · split at h
      · split at h
        · exact settleLines_wqueue_nil (settleLines_wqueue_nil h)
        · exact settleLines_wqueue_nil h
      · exact settleLines_wqueue_nil (ih h)

theorem translateRaw_wqueue_nil {p : Nat} {va : Word} {c : Cls} {s : State} (h : (translateRaw s p va c).2.wqueue = []) : s.wqueue = [] := by
  unfold translateRaw at h
  split at h
  · exact h
  · simp only at h
    generalize hch : choose _ s = r at h
    have hkeep : r.2.wqueue = s.wqueue := (congrArg State.wqueue (choose_frame hch)).trans rfl
    have hwalk : ∀ {va t}, (settleWalk va 5 t r.2).wqueue = [] → s.wqueue = [] := fun h => hkeep.symm.trans (settleWalk_wqueue_nil h)
    split at h
    · split at h
      · rw [(touchHeap_kept ..).wqueue] at h; exact hkeep.symm.trans h
      · exact hkeep.symm.trans h
    · split at h
      · split at h
        · rw [(touchHeap_kept ..).wqueue] at h
          split at h <;> exact hwalk h
        · exact hwalk h
      all_goals exact hwalk h

end

/-- A fabric unit's translation after which no reduction waits changes the TLB, the choices still open, and versions whose heap it reaches. -/
theorem fabricTranslate_ok {x agent slot n pa : Nat} {t : Token} {va : Word} {c : Cls} {s s1 : State}
    (h : fabricTranslate x agent slot t va n c s = .ok pa s1) (hq : s1.wqueue = []) :
    (∃ part l, stripePart s x = some (part, l)) ∧ s1 = { s with tlb := s1.tlb, choices := s1.choices, parts := s1.parts } := by
  unfold fabricTranslate at h
  split at h
  · cases h
  next part l hpart =>
    refine ⟨⟨part, l, hpart⟩, ?_⟩
    split at h
    next pa' s' he =>
      cases h
      unfold translateSpan at he
      split at he
      · cases he
      · have hframe := translateRaw_frame (translateRaw_wqueue_nil (s := s) (by rw [he]; exact hq)) part va c
        rw [he] at hframe
        exact hframe
    · cases h
    · cases h
    · dsimp only at h
      rcases ite_eq_iff.mp h with ⟨-, h⟩ | ⟨-, h⟩ <;> cases h

end Sys2Proof.Machine
end

section
/-!
SUPPORT. A run that a trap has asked to halt stays so while its launch is held (R323, R326, R327).
-/

namespace Sys2Proof.Machine

open Sys2Proof

/-- A run is asked to halt, for a cause. -/
def HaltAsked (rid : Nat) (cause : Option Nat) (s : State) : Prop :=
  ∃ p, Table.find rid s.runs = some p ∧ p.haltCause = cause ∧ p.status = .stopping

theorem HaltAsked.kept {rid : Nat} {cause : Option Nat} {s t : State} (h : HaltAsked rid cause s) (hk : RunsKept s t) : HaltAsked rid cause t := by
  obtain ⟨p, hp, hcause, hstatus⟩ := h
  have hpair := hk.ends rid
  rw [hp, Option.map_some, hcause, hstatus] at hpair
  obtain ⟨q, hq, hqp⟩ := Option.map_eq_some_iff.mp hpair
  obtain ⟨hc, hs⟩ := Prod.mk.inj hqp
  exact ⟨q, hq, hc, hs⟩

section
variable (s : State)

/-! ## Posted traffic of a launch (R131, R138, R293) -/

theorem enterQueue_runs (r : PostedRed) : RunsKept s (enterQueue r s) := by
  unfold enterQueue
  dsimp only
  split
  · exact .of_eq rfl
  · split
    next e rest _ =>
      split
      · exact ⟨(applyEntry_kept { s with wqueue := Table.set (stackOf r.pa) rest s.wqueue } e).runs.ends⟩
      · exact .of_eq rfl
    · exact .of_eq rfl

theorem performRed_runs (r : PostedRed) : RunsKept s (performRed r s) := by
  unfold performRed
  split
  · exact enterQueue_runs s r
  · exact (applyRed_kept s r).runs

theorem addRelease_runs (pa : Nat) (data : List Byte) (mark rel : Nat) (v : View) : RunsKept s (addRelease pa data mark rel v s) := by
  unfold addRelease
  split <;> exact .of_eq rfl

theorem deferStoreError_runs (owner : Nat) (va : Word) (job : Nat) : RunsKept s (deferStoreError owner va job s) := by
  unfold deferStoreError
  split
  · exact ((putThread_kept ..).trans (noteMemerr_kept ..)).runs
  · exact .of_eq rfl

theorem performStore_runs (p : PostedStore) : RunsKept s (performStore p s) := by
  unfold performStore
  split
  · exact RunsKept.after (addRelease_runs ..) rfl
  · dsimp only
    split
    next hok => exact (settleLines_runs ..).trans (((touchHeap_kept ..).trans (pokeOk_kept hok)).runs.trans (addRelease_runs ..))
    · exact (settleLines_runs ..).trans (deferStoreError_runs ..)

theorem settleAll_runs (tid : Nat) : RunsKept s (settleAll tid s) := by
  unfold settleAll
  dsimp only
  refine RunsKept.trans ?_ (RunsKept.foldl (fun u (e : QueueEntry) => settleLines_runs u e.line 64) _ _)
  refine RunsKept.trans ?_ (RunsKept.foldl (fun u r => performRed_runs u r) _ _)
  exact RunsKept.after (RunsKept.foldl (fun u p => performStore_runs u p) _ _) rfl

theorem settleLaunch_runs (l : Nat) : RunsKept s (settleLaunch l s) := RunsKept.foldl (fun u (t : Thread) => settleAll_runs u t.id) _ s

/-! ## The halt of a launch (R326, R327) -/

theorem mapLaunch_runs (l : Nat) (f : Launch → Launch) : (s.mapLaunch l f).runs = s.runs := by
  unfold State.mapLaunch
  split <;> rfl

theorem cancelFaults_runs (l : Nat) : RunsKept s (cancelFaults l s) := by
  unfold cancelFaults
  dsimp only
  refine RunsKept.trans (RunsKept.foldl (fun u (f : PendingFault) => ?_) s.faults s) (.of_eq (mapLaunch_runs ..))
  split
  · split
    · exact (devWrite_kept ..).runs
    · exact .of_eq rfl
  · exact .of_eq rfl

end

section
variable {s : State} {rid l : Nat} {cause : Option Nat}

theorem Table.find_filter {α : Type} {f : Nat × α → Bool} {k : Nat} {v : α} {t : Table α} (h : Table.find k t = some v) (hv : f (k, v) = true) :
    Table.find k (t.filter f) = some v := by
  induction t with
  | nil => cases h
  | cons p t ih =>
    obtain ⟨j, w⟩ := p
    simp only [Table.find] at h
    by_cases hj : j = k
    · subst hj
      rw [if_pos rfl] at h
      cases h
      simp [hv, Table.find]
    · rw [if_neg hj] at h
      rw [List.filter_cons]
      split
      · simpa [Table.find, hj] using ih h
      · exact ih h

/-- An abandoned SEGRUN takes a waiting run with it, and no other. -/
theorem undoWait_haltAsked (h : HaltAsked rid cause s) (t : Thread) : HaltAsked rid cause (undoWait t s) := by
  unfold undoWait
  split
  · exact h
  · split
    · exact h.kept (putThread_kept ..).runs
    · dsimp only
      split
      · exact h.kept (pokeWith_kept ..).runs
      · exact h
    · obtain ⟨p, hp, hcause, hstatus⟩ := h
      exact ⟨p, Table.find_filter hp (by simp [hstatus]), hcause, hstatus⟩
    · exact h
    · exact h

theorem stopRuns_haltAsked (h : HaltAsked rid cause s) (l : Nat) : HaltAsked rid cause (stopRuns l s) := by
  obtain ⟨p, hp, hcause, hstatus⟩ := h
  refine ⟨p, ?_, hcause, hstatus⟩
  simp [stopRuns, hp, hstatus]

theorem freedCores_runs (s : State) (l : Nat) : (freeCores l (unparkThreads l (dropProbes l s))).runs = s.runs := rfl

theorem preemptHalt_runs (s : State) (l : Nat) :
    (preemptHalt l s).runs = (stopRuns l (freeCores l (unparkThreads l (dropProbes l (cancelFaults l (undoWaits l (settleLaunch l s))))))).runs := by
  unfold preemptHalt
  generalize freeCores l _ = u
  rfl

theorem preemptHalt_haltAsked (h : HaltAsked rid cause s) (l : Nat) : HaltAsked rid cause (preemptHalt l s) := by
  have hsettled : HaltAsked rid cause (settleLaunch l s) := h.kept (settleLaunch_runs s l)
  have hundone : HaltAsked rid cause (undoWaits l (settleLaunch l s)) :=
    List.foldlRecOn _ _ (motive := HaltAsked rid cause) hsettled fun u hu t _ => undoWait_haltAsked hu t
  have hfreed : HaltAsked rid cause (freeCores l (unparkThreads l (dropProbes l (cancelFaults l (undoWaits l (settleLaunch l s)))))) :=
    (hundone.kept (cancelFaults_runs _ l)).kept (.of_eq (freedCores_runs _ l))
  exact (stopRuns_haltAsked hfreed l).kept (.of_eq (preemptHalt_runs s l))

theorem haltLaunchHeld_haltAsked (h : HaltAsked rid cause s) (l c : Nat) : HaltAsked rid cause (haltLaunchAs l c true s) := by
  unfold haltLaunchAs
  split
  · exact h
  · dsimp only
    split
    · exact h
    · split
      · exact h
      · exact (preemptHalt_haltAsked h l).kept (.of_eq (mapLaunch_runs ..))

/-- A trap asks its run to halt (R323). -/
theorem runTrap_haltAsked {r : Run} (hr : Table.find rid s.runs = some r) (hstatus : r.status = .running ∨ r.status = .stopping)
    (x agent slot tag c : Nat) (addr : Word) (toks : List Token) :
    HaltAsked rid (r.trapped c).haltCause (runTrap rid r x agent slot tag c addr toks s) := by
  have hrecord : ∀ ws, (writeTrapRecord r.launch r.die ws s).runs = s.runs := fun ws => by
    have hwrite : ∀ pa bs (u : State), (devWrite pa bs u).runs = u.runs := fun pa bs u => by
      unfold devWrite pokeOk
      split
      next hok => split at hok <;> cases hok; exact (congrArg State.runs (poke_frame ..)).trans rfl
      · rfl
    unfold writeTrapRecord
    split
    · rfl
    · exact (mapLaunch_runs ..).trans ((hwrite ..).trans (hwrite ..))
  have htrapped : ∀ ws, HaltAsked rid (r.trapped c).haltCause ((writeTrapRecord r.launch r.die ws s).mapRun rid (fun v => v.trapped c)) := fun ws => by
    refine ⟨r.trapped c, ?_, rfl, by obtain h | h := hstatus <;> simp [Run.trapped, h]⟩
    simp [State.mapRun, hrecord, hr, State.setRun]
  have hmarked : ∀ {cause} (u : State), HaltAsked rid cause u → HaltAsked rid cause (if agent < 16
      then u.mapElem x agent (fun e => { e with faulted := some c }) else u.mapOper x (agent - 16) (fun o => { o with faulted := some c })) := by
    intro cause u hu
    refine hu.kept (.of_eq ?_)
    split
    · unfold State.mapElem; split <;> rfl
    · unfold State.mapOper; split <;> rfl
  unfold runTrap
  dsimp only
  split
  · split
    · exact haltLaunchHeld_haltAsked (hmarked _ (htrapped _)) ..
    · exact hmarked _ (htrapped _)
  · exact hmarked _ (htrapped _)

end

end Sys2Proof.Machine
end

section
/-!
SUPPORT. Writes of operators to memory, bulk transfers and completion tokens (R101, R102, R106, R107, R204).
-/

namespace Sys2Proof.Machine

open Sys2Proof

/-! ## An operator's write of translated memory (R101) -/

/-- What the reads of an operator had fixed of some bytes ends with its own write of them (R286). -/
def Oper.overwritten (v : Oper) (pa n : Nat) : Oper :=
  { v with fixed := v.fixed.filter (fun f => !(decide (pa ≤ f.1) && decide (f.1 < pa + n))) }

section
variable {s s1 : State} {x o slot part l pa : Nat} {t : Token} {va : Word} {data : List Byte}

theorem operWrite_onDevice (hp : stripePart s x = some (part, l)) (hpa : onDevice pa = true) (hq : s.wqueue = [])
    (hw : writeFails s pa data.length = false) : operWrite x o slot t pa data va s =
      .ok () ((poke (l + 1) (s.ownerOf x o + 1) pa data s).mapOper x o (fun v => v.overwritten pa data.length)) := by
  obtain ⟨j, off, hl⟩ | ⟨j, off, hl⟩ := locOf_of_onDevice hpa <;>
    simp only [operWrite, hl, hp, settleLines_id hq, pokeOk, hw, Bool.false_eq_true, if_false] <;> rfl

/-- An operator's translation after which no reduction waits leaves stripes, runs and launches as they were. -/
theorem fabricTranslate_stripes {agent n : Nat} {c : Cls} (h : fabricTranslate x agent slot t va n c s = .ok pa s1) (hq : s1.wqueue = []) :
    s1.stripes = s.stripes := by
  rw [(fabricTranslate_ok h hq).2]

theorem fabricTranslate_part {agent n : Nat} {c : Cls} (h : fabricTranslate x agent slot t va n c s = .ok pa s1) (hq : s1.wqueue = []) :
    ∃ part l, stripePart s1 x = some (part, l) := by
  obtain ⟨hpart, hframe⟩ := fabricTranslate_ok h hq
  rw [hframe]
  exact hpart

end

@[simp] theorem State.runOf_setOper (s : State) (x o z : Nat) (v : Oper) : (s.setOper x o v).runOf z = s.runOf z :=
  State.runOf_mapStripe s (f := fun st => { st with ops := Table.set o v st.ops }) (fun _ => rfl) x z

@[simp] theorem State.mem_setOper (s : State) (x o : Nat) (v : Oper) : (s.setOper x o v).mem = s.mem := rfl

/-- Of what a write leaves, storing tells the contents of memory. -/
theorem Stores.of_mem {pa : Nat} {bs : List Byte} {s t u : State} (h : Stores pa bs s t) (hm : u.mem = t.mem) : Stores pa bs s u := by
  intro b
  rw [hm]
  exact h b

/-! ## Runs of operators that act -/

theorem operOn_live {x o kind : Nat} {s : State} {im : OpImage} {v : Oper} (h : operOn x o kind s = some (im, v)) : stripeLive s x = true := by
  simp only [operOn] at h
  split at h
  next =>
    split at h
    next hcond =>
      simp only [Bool.and_eq_true] at hcond
      obtain ⟨⟨-, hlive⟩, -⟩ := hcond
      exact hlive
    · cases h
  · cases h

theorem stripeLive_run {s : State} {x rid : Nat} {r : Run} (h : stripeLive s x = true) (hr : s.runOf x = some (rid, r)) :
    Table.find rid s.runs = some r ∧ (r.status = .running ∨ r.status = .stopping) := by
  refine ⟨?_, ?_⟩
  · simp only [State.runOf, Option.bind_eq_some_iff, Option.map_eq_some_iff] at hr
    obtain ⟨i, -, q, hq, heq⟩ := hr
    cases heq
    exact hq
  · simp only [stripeLive, hr, Bool.and_eq_true, Bool.or_eq_true, beq_iff_eq] at h
    obtain ⟨⟨hstatus, -⟩, -⟩ := h
    exact hstatus

/-! ## Bulk transfers (R107) -/

section
variable {s : State} {x o : Nat} {im : OpImage} {v : Oper} {a : Token} {j : SendJob}

theorem sendTransfer_start (h : operOn x o 4 s = some (im, v)) (hnone : v.sends.find? (fun j => !j.data.isEmpty) = none) (ha : v.head 0 = some a) :
    exec (.sendTransfer x o) s = sendStart x o im v a s := by
  show execSendTransfer x o s = _
  simp only [execSendTransfer, h, hnone, ha]

theorem sendTransfer_move (h : operOn x o 4 s = some (im, v)) (hj : v.sends.find? (fun j => !j.data.isEmpty) = some j) :
    exec (.sendTransfer x o) s = sendMove x o im j s := by
  show execSendTransfer x o s = _
  simp only [execSendTransfer, h, hj]

/-- A transfer within the launch's rectangle stays within its destination's part of the stripe buffer, or goes to memory. -/
theorem sendStart_ok {r : Run} {l b at_ : Nat} {w : Launch} (hl : stripeLaunch s x = some (r, l, w)) (hoff : a.value.toNat % 8 = 0)
    (hdest : (sendDest im a).toNat % 8 = 0)
    (hfits : im.field 0 16 16 = 1 ∨ ∃ y, sendStripe im w x = some y ∧ (sendDest im a).toNat + (im.field 0 15 0 + 1) ≤ sendLimit s y)
    (hb : bufferAt s x 0 a.value.toNat (im.field 0 15 0 + 1) = some (b, at_)) (hf : bufferFails s b at_ (im.field 0 15 0 + 1) false = false)
    (hroom : roomForAll x (operOut im.out0 a) s = true) : sendStart x o im v a s =
      .next (operSend x o (operOut im.out0 (a.result a.value))
        (s.setOper x o { v.take 0 with sends := v.sends ++ [⟨a, (sendDest im a).toNat, bufferRead s b at_ (im.field 0 15 0 + 1)⟩] })) := by
  simp only [sendStart, hl, hoff, hdest, ne_eq, not_true_eq_false, if_false, hb]
  rw [if_neg]
  · simp only [hf, hroom, Bool.not_true, Bool.false_eq_true, if_false]
  · obtain hkind | ⟨y, hy, hle⟩ := hfits
    · simp [hkind]
    · have hnot : ¬ sendLimit s y < (sendDest im a).toNat + (im.field 0 15 0 + 1) := by omega
      by_cases hkind : im.field 0 16 16 = 1 <;> simp [hkind, hy, hnot]

/-- What a transfer has left once k bytes of it have reached their destination. -/
def SendJob.moved (j : SendJob) (tok : Token) (k : Nat) (q : SendJob) : SendJob := if q = j then { j with tok := tok, data := j.data.drop k } else q

theorem SendJob.moved_left (j : SendJob) (tok : Token) (k : Nat) (l : List SendJob) :
    (l.map (j.moved tok k)).map (fun q => (q.dest, q.data)) = l.map (fun q => (q.dest, if q = j then j.data.drop k else q.data)) := by
  rw [List.map_map]
  refine List.map_congr_left fun q _ => ?_
  by_cases hq : q = j <;> simp [SendJob.moved, hq]

/-- Bytes for a stripe buffer reach it at once. -/
theorem sendMove_buffer {r : Run} {l y n : Nat} {w : Launch} (hn : im.field 0 15 0 + 1 = n) (hlen : j.data.length = n)
    (hkind : im.field 0 16 16 = 0) (hl : stripeLaunch s x = some (r, l, w)) (hy : sendStripe im w x = some y)
    (hf : bufferFails s 1 (y * 262144 + j.dest) n true = false) : sendMove x o im j s =
      let s1 := bufferWrite 1 (y * 262144 + j.dest) j.data s
      .next (s1.mapOper x o (fun u => { u with sends := u.sends.map (j.moved (afterOwn x o j.tok s s1) n) })) := by
  simp only [sendMove, hkind, if_true, hl, hy, hlen, hn, Nat.sub_self, Nat.add_zero, hf, Bool.false_eq_true, if_false]
  rfl

/-- Bytes for memory go piece by piece, none crossing a page. -/
theorem sendMove_memory {pa at_ k : Nat} {s1 : State} (hkind : im.field 0 16 16 = 1) (hat : j.dest + (im.field 0 15 0 + 1 - j.data.length) = at_)
    (hk : min j.data.length (4096 - at_ % 4096) = k) (htr : fabricTranslate x (16 + o) 0 j.tok (BitVec.ofNat 64 at_) k .write s = .ok pa s1)
    (hpa : onDevice pa = true) : sendMove x o im j s =
      (operWrite x o 0 j.tok pa (j.data.take k) (BitVec.ofNat 64 at_) s1).andThen (fun _ s2 => .next (s2.mapOper x o (fun u =>
        { u with sends := u.sends.map (j.moved (afterOwn x o j.tok s s2) k) }))) := by
  have hpage : (w64 at_).toNat % 4096 = at_ % 4096 := by simp only [w64, BitVec.toNat_ofNat]; omega
  have hnot : ¬ im.field 0 16 16 = 0 := by omega
  simp only [sendMove, if_neg hnot, hat, hpage, hk]
  rw [show fabricTranslate x (16 + o) 0 j.tok (w64 at_) k .write s = .ok pa s1 from htr, Got.andThen_ok]
  obtain ⟨i, off, hloc⟩ | ⟨i, off, hloc⟩ := locOf_of_onDevice hpa <;> simp only [hloc] <;> rfl

theorem sendCompletion_eq {rest : List SendJob} (h : operOn x o 4 s = some (im, v)) (herr : operError s x o v = none) (hs : v.sends = j :: rest)
    (hdata : j.data = []) (hposted : operPosted s x o = false) : exec (.sendCompletion x o) s =
      let y := sendEnd s im x
      let ts := operOut im.out1 (j.tok.result (w64 j.dest))
      let s1 := s.setOper x o { v with sends := rest }
      match s.runOf y with
      | none => .next (ts.foldl (strayToken x y) s1)
      | some _ => if !roomForAll y ts s then .next s else .next (ts.foldl (fun u t => emit y (fabricUnit x (16 + o)) t u) s1) := by
  show execSendCompletion x o s = _
  simp only [execSendCompletion, h, herr, hs, hdata, hposted, List.isEmpty_nil, Bool.not_true, Bool.or_self, Bool.false_eq_true, if_false] <;>
    rfl

end

theorem sendOperators_says : Says.SendOperators := by
  intro s x o im v h
  have hv := operOn_oper h
  refine ⟨fun a r l w b at_ hnone ha hl hoff hdest hfits hb hf hroom => ?_, fun j r l w y hj hlen hkind hl hy hf => ?_,
    fun j pa s1 hj hkind => ?_, fun j rest r l w herr hs hdata hposted hl => ?_⟩
  · exact ⟨_, (sendTransfer_start h hnone ha).trans (sendStart_ok hl hoff hdest hfits hb hf hroom), rfl⟩
  · refine ⟨_, (sendTransfer_move h hj).trans (sendMove_buffer rfl hlen hkind hl hy hf), ?_⟩
    have hw := (State.oper_congr (bufferWrite_stripes 1 (y * 262144 + j.dest) j.data s) x o).trans hv
    rw [State.mapOper_of_some hw]
    refine ⟨rfl, rfl, ?_⟩
    simp only [State.oper_setOper_self, Option.map_some, SendJob.moved_left]
  · intro at_ k htr hpa hinv hq hwf
    obtain ⟨part, l, hp⟩ := fabricTranslate_part htr hq
    have hlen : (j.data.take k).length = k := by simp [k]
    have hv1 := (State.oper_congr (fabricTranslate_stripes htr hq) x o).trans hv
    have hv2 := (State.oper_congr (poke_stripes (l + 1) (s1.ownerOf x o + 1) pa (j.data.take k) s1) x o).trans hv1
    have hmove := (sendTransfer_move h hj).trans (sendMove_memory hkind rfl rfl htr hpa)
    rw [operWrite_onDevice hp hpa hq (by rw [hlen]; exact hwf), Got.andThen_ok] at hmove
    refine ⟨_, hmove, ?_⟩
    · rw [State.mapOper_of_some hv2, State.mapOper_of_some (State.oper_setOper_self ..)]
      refine ⟨Stores.of_mem (stores_poke hinv l _ pa _) (by rw [State.mem_setOper, State.mem_setOper]), ?_⟩
      simp only [State.oper_setOper_self, Option.map_some, SendJob.moved_left]
      rfl
  · intro ts ends
    have hexec := sendCompletion_eq h herr hs hdata hposted
    have hend : ∀ y, sendEnd s im x = y → (s.runOf y).isSome = true → ends y := fun y hy hrun hroom => by
      obtain ⟨q, hq⟩ := Option.isSome_iff_exists.mp hrun
      refine ⟨_, hexec.trans ?_, rfl⟩
      simp only [hy, hq]
      rw [if_neg]
      · rfl
      · rw [Bool.not_eq_true', Bool.not_eq_false]; exact hroom
    have hstripe : ∀ y, im.field 0 16 16 = 0 → sendStripe im w x = some y → sendEnd s im x = y := fun y hkind hy => by
      simp [sendEnd, hkind, hl, hy]
    refine ⟨fun hkind => hend x (by simp [sendEnd, hkind]) ?_, fun y hkind hy => hend y (hstripe y hkind hy), fun y rid q hkind hy hnone hq hdst => ?_⟩
    · simp only [stripeLaunch] at hl
      split at hl
      next hrun => simp [hrun]
      · cases hl
    · obtain ⟨hfind, hstatus⟩ := stripeLive_run (operOn_live h) hq
      obtain ⟨p, hp, hcause, hstop⟩ := runTrap_haltAsked (s := s.setOper x o { v with sends := rest }) hfind hstatus y
        ((j.tok.result (w64 j.dest)).toward im.out1).target.toNat ((j.tok.result (w64 j.dest)).toward im.out1).slot.toNat
        ((j.tok.result (w64 j.dest)).toward im.out1).tag cILLOP 0 [(j.tok.result (w64 j.dest)).toward im.out1]
      refine ⟨_, hexec.trans ?_, p, hp, fun hnone _ => ⟨?_, hstop⟩⟩
      · simp only [hstripe y hkind hy, hnone, operOut, hdst, if_true, List.foldl_cons, List.foldl_nil, strayToken]
        rw [show (s.setOper x o { v with sends := rest }).runOf x = some (rid, q) by rw [State.runOf_setOper, hq]]
      · rw [hcause, Run.trapped, hnone]

/-! ## Completion tokens (R102) -/

section
variable {s : State} {x o k : Nat} {im : OpImage} {v : Oper} {first rest : List (Token × Bool)} {a : Token}

/-- The accesses up to the first that closes a group are that group. -/
theorem closedGroup_append {cdim : Nat} (hfirst : ∀ p ∈ first, p.1.eod.toNat < cdim) (ha : cdim ≤ a.eod.toNat) (b : Bool) :
    closedGroup cdim ((first ++ [(a, b)]) ++ rest) = some (first ++ [(a, b)], a) := by
  have hidx : ((first ++ [(a, b)]) ++ rest).findIdx? (fun p => decide (cdim ≤ p.1.eod.toNat)) = some first.length := by
    rw [List.append_assoc, List.findIdx?_append, List.findIdx?_eq_none_iff.mpr fun p hp => by simpa using hfirst p hp]
    simp [List.findIdx?_cons, ha]
  rw [closedGroup, hidx]
  simp [List.take_append]

theorem completeGroup_append (hv : v.accesses = (first ++ [(a, true)]) ++ rest) (hfirst : ∀ p ∈ first, p.1.eod.toNat < im.cdim ∧ p.2 = true)
    (ha : im.cdim ≤ a.eod.toNat) : completeGroup im v = some (first ++ [(a, true)], a) := by
  rw [completeGroup, hv, closedGroup_append (fun p hp => (hfirst p hp).1) ha]
  have hall : (first ++ [(a, true)]).all (·.2) = true := by simpa using fun t b hp => (hfirst (t, b) hp).2
  simp only [hall, if_true]

theorem operatorCompletion_eq (h : operOn x o k s = some (im, v)) (hk : 1 ≤ k ∧ k ≤ 3) (hkind : im.kind = k) (herr : operError s x o v = none)
    {g : List (Token × Bool)} (hg : completeGroup im v = some (g, a)) : exec (.operatorCompletion x o) s =
      let ts := operOut im.out1 { a.result (w64 g.length) with after := groupView g }
      if !roomForAll x ts s then .next s else .next (operSend x o ts (s.setOper x o { v with accesses := v.accesses.drop g.length })) := by
  have hno : ¬ (k = 0 ∨ 3 < k) := by omega
  show execOperatorCompletion x o s = _
  simp only [execOperatorCompletion, operOn_image h, hkind, if_neg hno, h, herr, hg]

end

theorem completionTokens_says : Says.CompletionTokens := by
  intro s x o k im v first rest a hk1 hk3 hkind h herr cdim g hv hfirst ha ts hroom
  have hcdim : im.cdim = cdim := by simp only [OpImage.cdim, hkind, cdim]
  rw [← hcdim] at hfirst ha
  exact .of_room (operatorCompletion_eq h ⟨hk1, hk3⟩ hkind herr (completeGroup_append hv hfirst ha)) hroom

end Sys2Proof.Machine

open Sys2Proof Sys2Proof.Machine

/-- Settles O40: a transfer starts, moves piece by piece and ends as its destination sees it, and a group completes as one. -/
theorem sendOperators : Obligations.SendOperators := ⟨sendOperators_says, completionTokens_says⟩
end

section
/-!
SUPPORT. The pieces of a FIFO's accesses, and ring buffers written piece by piece (R255, R256).
-/

namespace Sys2Proof.Machine

open Sys2Proof

/-! ## Pieces (R256) -/

/-- The addresses of a piece. -/
def pieceAddrs (q : Nat × Nat) : List Nat := (List.range q.2).map (q.1 + ·)

theorem pieceAddrs_add (c : Nat) (q : Nat × Nat) : pieceAddrs (c + q.1, q.2) = (pieceAddrs q).map (c + ·) := by
  simp only [pieceAddrs, List.map_map]
  exact List.map_congr_left fun i _ => Nat.add_assoc ..

/-- A piece that does not reach the end of an access ends where a 256-byte block does. -/
theorem fifoPiece_boundary {size base p n m c : Nat} (hc : size = 256 * c) (hpos : 0 < size) (hbase : base % 256 = 0)
    (hm : m = min n (min (size - p % size) (4096 - (base + p % size) % 4096))) (hlt : m < n) : (p + m) % 256 = 0 := by
  have hdiv : p = 256 * (c * (p / size)) + p % size := by
    rw [← Nat.mul_assoc, ← hc]; exact (Nat.div_add_mod p size).symm
  have hat := Nat.mod_lt p hpos
  generalize p % size = at_ at *
  generalize c * (p / size) = q at hdiv
  omega

/-- The pieces of an access are its addresses in order, which go round the FIFO. -/
theorem fifoPieces_cover {f : Fifo} {c : Nat} (hc : f.size = 256 * c) (hpos : 0 < f.size) (hbase : f.base % 256 = 0) (k p n : Nat)
    (hk : n ≠ 0 → p % 256 + n ≤ 256 * k) :
    (fifoPieces f k p n).flatMap pieceAddrs = (List.range n).map (fun i => f.base + (p + i) % f.size) := by
  induction k generalizing p n with
  | zero =>
    obtain rfl : n = 0 := by omega
    rfl
  | succ k ih =>
    simp only [fifoPieces]
    split
    next h => simp [h]
    next hn =>
      have hat := Nat.mod_lt p hpos
      have hboundary := fifoPiece_boundary (n := n) (m := min n (min (f.size - p % f.size) (4096 - (f.base + p % f.size) % 4096))) hc hpos hbase rfl
      generalize hm : min n (min (f.size - p % f.size) (4096 - (f.base + p % f.size) % 4096)) = m at *
      have hmpos : 0 < m := by omega
      have hrest : n - m ≠ 0 → (p + m) % 256 + (n - m) ≤ 256 * k := by
        intro hne
        have := hboundary (by omega)
        have := hk hn
        omega
      have hin : ∀ i < m, (p + i) % f.size = p % f.size + i := fun i hi => by
        rw [← Nat.mod_add_mod]; exact Nat.mod_eq_of_lt (by omega)
      rw [List.flatMap_cons, ih (p + m) (n - m) hrest]
      conv => rhs; rw [show n = m + (n - m) by omega, List.range_add, List.map_append, List.map_map]
      refine congrArg₂ (· ++ ·) ?_ ?_
      · simp only [pieceAddrs]
        refine List.map_congr_left fun i hi => ?_
        rw [hin i (List.mem_range.mp hi), Nat.add_assoc]
      · refine List.map_congr_left fun i _ => ?_
        simp only [Function.comp_apply, Nat.add_assoc]

section
variable {s : State} {v : Launch} {f : Fifo}

/-- The address of a FIFO's byte in the ring buffers. -/
def fifoAddr (v : Launch) (f : Fifo) (p : Nat) : Nat := f.ring * 4194304 + (ringWindow v f.ring).1 + f.base + p % f.size

/-- A FIFO on a ring has a power of two of bytes, at least 256, and stands at a multiple of its size (R255). -/
structure OnRing (f : Fifo) : Prop where
  notVirt : f.virt = false
  aligned : f.base % f.size = 0
  pow : ∃ j, j < 25 ∧ f.size = 2 ^ (j + 8)

theorem OnRing.blocks (h : OnRing f) : ∃ c, f.size = 256 * c ∧ 0 < f.size ∧ f.base % 256 = 0 := by
  obtain ⟨-, hbase, j, -, hsize⟩ := h
  have hc : f.size = 256 * 2 ^ j := by rw [hsize, Nat.pow_add, Nat.mul_comm]
  have hdvd : 256 ∣ f.base := Nat.dvd_trans ⟨_, hc⟩ (Nat.dvd_of_mod_eq_zero hbase)
  exact ⟨_, hc, by rw [hsize]; exact Nat.two_pow_pos _, Nat.mod_eq_zero_of_dvd hdvd⟩

theorem ringPieces_addrs (h : OnRing f) (p n : Nat) :
    (ringPieces v f p n).flatMap pieceAddrs = (List.range n).map (fun i => fifoAddr v f (p + i)) := by
  obtain ⟨c, hc, hpos, hbase⟩ := h.blocks
  have hcover := fifoPieces_cover hc hpos hbase (n / 256 + 2) p n (by omega)
  simp only [ringPieces, List.flatMap_map, pieceAddrs_add]
  rw [← List.map_flatMap, hcover, List.map_map]
  exact List.map_congr_left fun i _ => (Nat.add_assoc ..).symm

/-- No two of as many bytes as a FIFO holds stand at one address. -/
theorem fifoAddr_inj {p i j n : Nat} (hn : n ≤ f.size) (hi : i < n) (hj : j < n)
    (h : fifoAddr v f (p + i) = fifoAddr v f (p + j)) : i = j := by
  have hmod : (p + i) % f.size = (p + j) % f.size := Nat.add_left_cancel h
  have hcancel : i ≡ j [MOD f.size] := Nat.ModEq.add_left_cancel' p hmod
  exact Nat.ModEq.eq_of_lt_of_lt hcancel (by omega) (by omega)

theorem bufferFails_noErrors {space : Nat} (h : ∀ e ∈ s.errors, e.1 ≠ space) (a n : Nat) (whole : Bool) : bufferFails s space a n whole = false := by
  simp only [bufferFails, List.any_eq_false, Bool.and_eq_true, not_and]
  intro u _ hu
  exact absurd rfl (h _ (List.contains_iff_mem.mp hu))

theorem noPieceFails (h : ∀ e ∈ s.errors, e.1 ≠ 2) (ps : List (Nat × Nat)) (whole : Bool) : ps.find? (fun q => bufferFails s 2 q.1 q.2 whole) = none := by
  simp [bufferFails_noErrors h]

/-- A reader of a FIFO on a ring receives what stands at its addresses. -/
theorem fifoBytes_onRing (h : OnRing f) (herr : ∀ e ∈ s.errors, e.1 ≠ 2) (x o slot p n : Nat) (t : Token) :
    fifoBytes x o slot t v f p n s = .ok ((List.range n).map (fun i => cellGet 0 (fifoAddr v f (p + i)) s.ringBuf)) s := by
  have hread : ∀ q : Nat × Nat, bufferRead s 2 q.1 q.2 = (pieceAddrs q).map (fun a => cellGet 0 a s.ringBuf) := fun q => by
    simp only [bufferRead, pieceAddrs, List.map_map]; rfl
  simp only [fifoBytes, h.notVirt, Bool.false_eq_true, if_false, noPieceFails herr, hread]
  rw [← List.map_flatMap, ringPieces_addrs h, List.map_map]
  rfl

/-! ## Bytes put at several addresses -/

/-- The cells after bytes were put, one after another. -/
def putCells (zs : List (Nat × Byte)) (m : List Host.Cell) : List Host.Cell := zs.foldl (fun c z => cellPut 0 z.1 z.2 c) m

theorem putCells_rising {m : List Host.Cell} (hm : Rising m) (zs : List (Nat × Byte)) : Rising (putCells zs m) :=
  List.foldlRecOn zs _ (motive := Rising) hm fun _ hu _ _ => hu.put

theorem putCells_other {b : Nat} {zs : List (Nat × Byte)} (h : ∀ z ∈ zs, b ≠ z.1) (m : List Host.Cell) :
    cellGet 0 b (putCells zs m) = cellGet 0 b m :=
  List.foldlRecOn zs _ (motive := fun c => cellGet 0 b c = cellGet 0 b m) rfl fun _ hu z hz => (cellGet_put_ne 0 0 (h z hz) ..).trans hu

theorem putCells_get {m : List Host.Cell} (hm : Rising m) {zs : List (Nat × Byte)} (hnd : (zs.map Prod.fst).Nodup) {z : Nat × Byte} (hz : z ∈ zs) :
    cellGet 0 z.1 (putCells zs m) = z.2 := by
  induction zs generalizing m with
  | nil => cases hz
  | cons y zs ih =>
    obtain ⟨hy, hnd⟩ := List.nodup_cons.mp hnd
    obtain rfl | hz := List.mem_cons.mp hz
    · refine (putCells_other (zs := zs) (fun w hw heq => hy ?_) (cellPut 0 z.1 z.2 m)).trans (cellGet_put 0 _ _ hm)
      exact heq ▸ List.mem_map_of_mem hw
    · exact ih hm.put hnd hz

theorem bufferWrite_ring (a : Nat) (data : List Byte) (s : State) :
    (bufferWrite 2 a data s).ringBuf = putCells ((pieceAddrs (a, data.length)).zip data) s.ringBuf := by
  have hzip : (pieceAddrs (a, data.length)).zip data = (List.range data.length).map (fun i => (a + i, nth data i 0)) := by
    refine List.ext_getElem (by simp [pieceAddrs]) fun i h1 h2 => ?_
    have hi : i < data.length := by simpa using h2
    simp [pieceAddrs, nth, hi]
  rw [hzip, putCells, List.foldl_map]
  rfl

theorem writeRing_ring (ps : List (Nat × Nat)) (data : List Byte) (s : State) (hlen : data.length = (ps.flatMap pieceAddrs).length) :
    (writeRing ps data s).ringBuf = putCells ((ps.flatMap pieceAddrs).zip data) s.ringBuf := by
  induction ps generalizing data s with
  | nil => rfl
  | cons q ps ih =>
    obtain ⟨a, n⟩ := q
    have hn : (pieceAddrs (a, n)).length = n := by simp [pieceAddrs]
    rw [List.flatMap_cons, List.length_append, hn] at hlen
    have htake : (data.take n).length = n := by rw [List.length_take]; omega
    have hzip : (((a, n) :: ps).flatMap pieceAddrs).zip data =
        (pieceAddrs (a, n)).zip (data.take n) ++ (ps.flatMap pieceAddrs).zip (data.drop n) := by
      rw [List.flatMap_cons]
      conv => lhs; rw [← List.take_append_drop n data]
      exact List.zip_append (hn.trans htake.symm)
    rw [writeRing, ih _ _ (by rw [List.length_drop]; omega), bufferWrite_ring, htake, hzip, putCells, putCells, putCells, List.foldl_append]

theorem writeRing_frame (ps : List (Nat × Nat)) (data : List Byte) (s : State) :
    writeRing ps data s = { s with ringBuf := (writeRing ps data s).ringBuf, errors := (writeRing ps data s).errors } := by
  induction ps generalizing data s with
  | nil => rfl
  | cons q ps ih =>
    rw [writeRing, ih]
    rfl

end

end Sys2Proof.Machine
end

section
/-!
SUPPORT. Addresses, loads from buffers, FIFOs and memory, and tile fills (R86, R101 to R104, R254, R256).
-/

namespace Sys2Proof.Machine

open Sys2Proof

/-! ## Elements and operators apart -/

theorem State.elem_setOper (s : State) (x o z e : Nat) (v : Oper) : (s.setOper x o v).elem? z e = s.elem? z e :=
  State.elem_mapStripe s (f := fun st => { st with ops := Table.set o v st.ops }) (fun _ => rfl) x z e

theorem State.oper_setElem (s : State) (x e z o : Nat) (v : Elem) : (s.setElem x e v).oper? z o = s.oper? z o := by
  simp only [State.oper?, State.stripe_setElem_field s (·.ops) fun _ _ => rfl]

/-! ## AGEN (R103) -/

theorem agenEmit_eq {s : State} {x o : Nat} {im : OpImage} {v : Oper} {b : Token} (h : operOn x o 0 s = some (im, v))
    (hb : (if v.base.isSome then v.base else v.head 0) = some b) : exec (.agenEmit x o) s =
      let w := if v.base.isSome then v else v.take 0
      let last := v.pos + 1 == im.field 2 31 0
      let t := { b with
        kind := kData
        value := b.value + im.p0 + w64 v.pos * im.p1
        iter := if im.field 2 32 32 = 1 then BitVec.ofNat 10 v.pos else b.iter
        eod := if last then b.eod + 1 else 0 }
      if !roomForAll x (operOut im.out0 t) s then .next s else
      .next (operSend x o (operOut im.out0 t) (s.setOper x o
        (if last then { w with base := none, pos := 0 } else { w with base := some b, pos := v.pos + 1 }))) := by
  show execAgenEmit x o s = _
  simp only [execAgenEmit, h]
  cases hbase : v.base with
  | none =>
    rw [hbase] at hb
    simp only [Option.isSome_none, Bool.false_eq_true, if_false] at hb ⊢
    simp only [hb]
  | some b' =>
    rw [hbase] at hb
    obtain rfl : b' = b := by simpa using hb
    rfl

/-- The count and the selection of the iteration field are bits of P2. -/
theorem agen_fields (im : OpImage) : im.field 2 31 0 = im.p2.toNat % 2 ^ 32 ∧ (im.field 2 32 32 = 1 ↔ bit im.p2.toNat 32 = true) := by
  simp [OpImage.field, OpImage.params, nth, bits, bit]

theorem agenEmitsAddresses_says : Says.AgenEmitsAddresses := by
  intro s x o im v b h hb w last tok hroom
  obtain ⟨hcount, hiter⟩ := agen_fields im
  have hexec := agenEmit_eq h hb
  simp only [hcount, hiter] at hexec
  exact .of_room hexec hroom

/-! ## Reads of memory that no write races with (R287) -/

section
variable {s : State}

theorem peek_nth (s : State) (pa : Nat) {i n : Nat} (hi : i < n) (d : Byte) : nth (peek s pa n) i d = s.mem.read (pa + i) := by
  simp [nth, peek, hi]

theorem withOwn_nil (own : PhaseWrite → Bool) (s : State) (u : Nat) : withOwn own u [] (peek s (8 * u) 8) = peek s (8 * u) 8 := by
  refine List.map_congr_left fun j hj => ?_
  exact peek_nth s (8 * u) (List.mem_range.mp hj) 0

theorem instants_quiet (hw : s.writes = []) (u : Nat) (last own : PhaseWrite → Bool) : instants s u last own = [(peek s (8 * u) 8, View.zero)] := by
  have hsince : unitSince s u last = ([], peek s (8 * u) 8, View.zero) := by simp [unitSince, unitLog, hw]
  simp [instants, hsince, withOwn_nil]

theorem unitChoices_quiet (hw : s.writes = []) (v : View) (me u : Nat) : unitChoices s v me [] u = [(peek s (8 * u) 8, View.zero)] := by
  simp [unitChoices, instants_quiet hw, agrees]

theorem operUnits_quiet (hw : s.writes = []) (owner : Nat) (v : View) (us : List Nat) :
    operUnits owner (v, []) us s = (us.map (fun u => (u, peek s (8 * u) 8, View.zero)), s) := by
  induction us with
  | nil => rfl
  | cons u us ih => simp [operUnits, unitChoices_quiet hw, choose, ih, nth]

theorem Table.getD_map {α : Type} (f : Nat → α) {k : Nat} {ks : List Nat} (h : k ∈ ks) (d : α) : Table.getD (ks.map fun u => (u, f u)) k d = f k := by
  refine Table.getD_of_find ?_ d
  induction ks with
  | nil => cases h
  | cons j ks ih =>
    simp only [List.map_cons, Table.find]
    split
    next hj => rw [hj]
    next hj => exact ih ((List.mem_cons.mp h).resolve_left fun hk => hj hk.symm)

theorem mem_words8 {pa n i : Nat} (hi : i < n) : (pa + i) / 8 ∈ words8 pa n := by
  rw [words8, if_neg (by omega)]
  exact List.mem_map.mpr ⟨(pa + i) / 8 - pa / 8, List.mem_range.mpr (by omega), by omega⟩

/-- An operator that has fixed nothing reads what memory holds. -/
theorem operOrdinary_quiet {x o : Nat} (hw : s.writes = []) (hfix : ∀ u, s.oper? x o = some u → u.fixed = []) (t : Token) (pa n : Nat) :
    (operOrdinary x o t pa n s).1 = peek s pa n ∧ (operOrdinary x o t pa n s).2.mem = s.mem := by
  obtain ⟨v, hsight⟩ : ∃ v, operSight s x o t = (v, []) := by
    unfold operSight
    split
    next u hu => exact ⟨_, by rw [hfix u hu]; rfl⟩
    · exact ⟨_, rfl⟩
  simp only [operOrdinary, hsight, operUnits_quiet hw]
  refine ⟨List.map_congr_left fun i hi => ?_, ?_⟩
  · have hmem := mem_words8 (pa := pa) (List.mem_range.mp hi)
    rw [Table.find_nil, Option.getD_none, Table.getD_map _ hmem, peek_nth s _ (Nat.mod_lt _ (by decide)), Nat.div_add_mod]
  · unfold State.mapOper
    split <;> rfl

theorem operRead_quiet {x o slot pa n : Nat} {t : Token} {va : Word} (hpa : onDevice pa = true) (hq : s.wqueue = []) (hw : s.writes = [])
    (hfix : ∀ u, s.oper? x o = some u → u.fixed = []) (hf : readFails s pa n = false) :
    ∃ u, operRead x o slot t pa n va s = .ok (peek s pa n) u ∧ u.mem = s.mem := by
  obtain ⟨hread, hmem⟩ := operOrdinary_quiet hw hfix t pa n
  refine ⟨_, ?_, hmem⟩
  rw [← hread]
  obtain ⟨j, off, hl⟩ | ⟨j, off, hl⟩ := locOf_of_onDevice hpa <;>
    simp only [operRead, hl, settleLines_id hq, hf, Bool.false_eq_true, if_false]

/-- An access within a page is one piece. -/
theorem pagePieces_one {va : Word} {k n : Nat} (hn : 0 < n) (h : va.toNat % 4096 + n ≤ 4096) : pagePieces (k + 2) va n = [(va, n)] := by
  have hmin : min n (4096 - va.toNat % 4096) = n := by omega
  simp only [pagePieces, if_neg (Nat.ne_of_gt hn), hmin, Nat.sub_self, if_true]

theorem virtRead_one {s1 s2 : State} {x o slot n pa : Nat} {t : Token} {va : Word} {bs : List Byte}
    (htr : fabricTranslate x (16 + o) slot t va n .read s = .ok pa s1) (hread : operRead x o slot t pa n va s1 = .ok bs s2) :
    virtRead x o slot t [(va, n)] s = .ok bs s2 := by
  simp only [virtRead, translatePieces, htr, Got.bind_ok_eq, readPieces, hread, List.append_nil]

/-! ## LOAD by space (R104) -/

section
variable {x o : Nat} {im : OpImage} {a : Token}

theorem loadFetch_memory (h : im.field 0 2 0 = 2) : loadFetch x o im a s =
    .got (if (im.p2 + a.value).toNat % im.alignment ≠ 0 then .stop (memTrap x (16 + o) 0 a cALIGN (im.p2 + a.value) s)
      else virtRead x o 0 a (pagePieces 3 (im.p2 + a.value) im.accessBytes) s) := by
  simp only [loadFetch, h]

theorem loadFetch_fifo {r : Run} {l : Nat} {v : Launch} {f : Fifo} (h : im.field 0 2 0 = 3) (hl : stripeLaunch s x = some (r, l, v))
    (hf : fifoOfRun s r (fifoNumber s x r im) = some f) : loadFetch x o im a s =
      if im.accessBytes ≤ f.wpos - f.rpos then .got ((fifoBytes x o 0 a v f f.rpos im.accessBytes s).bind (fun bs s1 =>
        .ok bs (setFifo r (fifoNumber s x r im) { f with rpos := f.rpos + im.accessBytes } s1)))
      else if f.eos && !isBurstSource s x im then .ended else .wait := by
  simp only [loadFetch, h, hl, hf]

theorem fifoNumber_plain {r : Run} (h : isBurstSource s x im = false) (h' : isBurstSink s x r im = false) : fifoNumber s x r im = im.field 0 23 16 := by
  simp only [fifoNumber, h, h', Bool.false_eq_true, if_false]

end

end

theorem bufferLoads_says : Says.BufferLoads := by
  intro s x o im a b at_ addr hspace halign hb hf
  refine ⟨_, ?_, rfl⟩
  obtain h | h : im.field 0 2 0 = 0 ∨ im.field 0 2 0 = 1 := by omega
  all_goals
    rw [h] at hb
    simp only [loadFetch, h, bufferLoad, addr] at halign hb hf ⊢
    simp only [halign, hb, hf, ne_eq, not_true_eq_false, Bool.false_eq_true, if_false]

theorem memoryAndFifoLoads_says : Says.MemoryAndFifoLoads := by
  intro s s1 x o l pa im a r v f addr n
  refine ⟨fun h halign => ?_, fun h halign hn hpage htr hpa hq hw hfix hf => ?_, fun h hl hsrc hsink => ?_⟩
  · rw [loadFetch_memory h, if_pos halign]
  · obtain ⟨t, hread, hmem⟩ := operRead_quiet (slot := 0) (t := a) (va := addr) hpa hq hw hfix hf
    refine ⟨t, ?_, hmem⟩
    rw [loadFetch_memory h, if_neg (not_not_intro halign), pagePieces_one hn hpage, virtRead_one htr hread]
  · intro k hfifo
    have hnum : fifoNumber s x r im = k := fifoNumber_plain hsrc hsink
    have hfetch := loadFetch_fifo (o := o) (a := a) h hl (hnum.symm ▸ hfifo)
    rw [hnum, hsrc] at hfetch
    refine ⟨fun hlt heos => ?_, fun hlt heos => ?_, fun hle hvirt hbase hpow herr => ?_⟩
    · rw [hfetch, if_neg (Nat.not_le.mpr hlt), heos]; rfl
    · rw [hfetch, if_neg (Nat.not_le.mpr hlt), heos]; rfl
    · rw [hfetch, if_pos hle, fifoBytes_onRing ⟨hvirt, hbase, hpow⟩ herr]; rfl

/-! ## LOAD (R86, R104) -/

section
variable {s s1 : State} {x o : Nat} {im : OpImage} {v : Oper} {a : Token} {bs : List Byte}

theorem loadAccess_eq (h : operOn x o 1 s = some (im, v)) (ha : (v.head 0).map (fedBy s x im) = some a)
    (hf : loadFetch x o im a s = .got (.ok bs s1)) (hmode : im.field 0 6 6 = 0) (hroom : roomForAll x (operOut im.out0 a) s = true) :
    exec (.loadAccess x o) s = .next (operSend x o
      (operOut im.out0 { a with kind := kData, value := if im.field 0 7 7 = 1 then sext (8 * im.accessBytes) (leNat bs) else w64 (leNat bs) })
      (s1.mapOper x o (fun u => (u.take 0).record im a none))) := by
  show execLoadAccess x o s = _
  simp only [execLoadAccess, h, ha, hmode, hroom, Bool.not_true, Bool.false_eq_true, or_false, Nat.zero_ne_one, if_false, hf, Got.andThen_ok]

variable {c : Token} {e k : Nat} {tile : Tile}

/-- A row of a tile fill reaches the tile, and with the last row its handle follows. -/
theorem loadTileFill_eq (h : operOn x o 1 s = some (im, v)) (ha : (v.head 0).map (fedBy s x im) = some a)
    (hf : loadFetch x o im a s = .got (.ok bs s1)) (hmode : im.field 0 6 6 = 1) (hc : v.head 1 = some c)
    (htile : creditTile s x im c = some (e, k, tile)) {last : Bool} (hlast : (v.fillRow + 1 == tile.rows) = last) {view : View}
    (hview : (v.fillView.join a.after).join c.after = view)
    (hroom : last = true → roomForAll x (operOut im.out0 { a with kind := kTile, value := c.value, eod := 0, after := view }) s = true) :
    exec (.loadTileFill x o) s =
      let r := fillTile v (im.field 1 12 0) bs last tile
      let u := (s1.mapElem x e (fun el => el.setTile k r.1)).mapOper x o (fun u =>
        if last then { ((u.take 0).take 1).record im a none with fillRow := 0, fillTail := [], fillView := View.zero }
        else { (u.take 0).record im a none with fillRow := v.fillRow + 1, fillTail := r.2, fillView := view })
      .next (if last then operSend x o (operOut im.out0 { a with kind := kTile, value := c.value, eod := 0, after := view }) u else u) := by
  have hwait : (last && !roomForAll x (operOut im.out0 { a with kind := kTile, value := c.value, eod := 0, after := view }) s) = false := by
    cases last with
    | false => rfl
    | true => rw [hroom rfl]; rfl
  show execLoadTileFill x o s = _
  simp only [execLoadTileFill, h, ha, hc, hmode, Nat.one_ne_zero, if_false, htile, hlast, hview, hwait, Bool.false_eq_true, hf, Got.andThen_ok]

/-- What a tile fill leaves in the element of its credit and in the operator. -/
theorem tileFilled {el : Elem} {w : Oper} (hel : s.elem? x e = some el) (hw : s.oper? x o = some w) (p : Tile) (f : Oper → Oper) :
    let u := (s.mapElem x e (fun m => m.setTile k p)).mapOper x o f
    u.elem? x e = some (el.setTile k p) ∧ u.oper? x o = some (f w) := by
  intro u
  have hu : u = (s.setElem x e (el.setTile k p)).setOper x o (f w) := by
    simp only [u]
    rw [State.mapElem_of_some hel, State.mapOper_of_some ((State.oper_setElem ..).trans hw)]
  rw [hu]
  exact ⟨(State.elem_setOper ..).trans (State.elem_setElem_self ..), State.oper_setOper_self ..⟩

end

theorem loadOperators_says : Says.LoadOperators := by
  intro s s1 x o im v a bs h ha hf
  refine ⟨fun hmode hroom => ?_, fun c e k tile hmode hc htile => ?_⟩
  · have hbytes : im.accessBytes = 2 ^ im.field 0 5 4 := by simp [OpImage.accessBytes, hmode]
    rw [← hbytes]
    exact ⟨_, loadAccess_eq h ha hf hmode hroom, rfl⟩
  · intro data at_ view handle
    refine ⟨fun hmore => ?_, fun hlast hroom => ?_⟩
    · have hexec := loadTileFill_eq h ha hf hmode hc htile (last := false) (by simpa using hmore) rfl (fun h => absurd h (by decide))
      exact ⟨_, hexec, fun el w hel hw => tileFilled hel hw _ _⟩
    · have hexec := loadTileFill_eq h ha hf hmode hc htile (last := true) (by simpa using hlast) rfl (fun _ => hroom)
      refine ⟨_, hexec, _, rfl, fun el w hel hw => ?_⟩
      have hfill : fillTile v (im.field 1 12 0) bs true tile = (tile.put at_ data, []) := by
        simp only [fillTile, if_true, List.take_length, List.drop_length, at_, data]
      simp only [hfill]
      exact tileFilled hel hw _ _

end Sys2Proof.Machine

open Sys2Proof Sys2Proof.Machine

/-- Settles O38: each access takes its token and sends what its space holds, and a tile fill what its rows bring. -/
theorem loadOperators : Obligations.LoadOperators :=
  ⟨agenEmitsAddresses_says, loadOperators_says, bufferLoads_says, memoryAndFifoLoads_says⟩
end

section
/-!
SUPPORT. Stores, appends to a FIFO and atomic operations of operators (R105, R106, R201, R256 to R258).
-/

namespace Sys2Proof.Machine

open Sys2Proof

/-! ## FIFOs appended to (R256) -/

section
variable {s t : State} {x o l : Nat} {im : OpImage} {a d : Token} {data : List Byte} {r : Run} {v : Launch} {f : Fifo}

/-- A FIFO on a ring that takes bytes holds them at its addresses, and the rest of the ring buffers stays. -/
theorem fifoPut_onRing (h : OnRing f) (herr : ∀ e ∈ s.errors, e.1 ≠ 2) (hcells : Rising s.ringBuf) (hn : data.length ≤ f.size) (slot p : Nat) :
    ∃ u, fifoPut x o slot a v f p data s = .ok () u ∧ u.mem = s.mem ∧ u.launches = s.launches ∧
      (∀ i, i < data.length → cellGet 0 (fifoAddr v f (p + i)) u.ringBuf = nth data i 0) ∧
      ∀ b, (∀ i, i < data.length → b ≠ fifoAddr v f (p + i)) → cellGet 0 b u.ringBuf = cellGet 0 b s.ringBuf := by
  have haddrs := ringPieces_addrs (v := v) h p data.length
  have hring := writeRing_ring (ringPieces v f p data.length) data s (by rw [haddrs]; simp)
  rw [haddrs] at hring
  have hframe := writeRing_frame (ringPieces v f p data.length) data s
  have hlen : ((List.range data.length).map (fun i => fifoAddr v f (p + i))).length = data.length := by simp
  refine ⟨writeRing (ringPieces v f p data.length) data s, ?_, (congrArg State.mem hframe).trans rfl,
    (congrArg State.launches hframe).trans rfl, fun i hi => ?_, fun b hb => ?_⟩
  · simp only [fifoPut, h.notVirt, Bool.false_eq_true, if_false, noPieceFails herr]
  · rw [hring]
    refine putCells_get hcells ?_ (z := (fifoAddr v f (p + i), nth data i 0)) ?_
    · rw [List.map_fst_zip (Nat.le_of_eq hlen)]
      exact List.nodup_range.map_on fun i hi j hj heq => fifoAddr_inj hn (List.mem_range.mp hi) (List.mem_range.mp hj) heq
    · refine List.mem_iff_getElem.mpr ⟨i, by simpa using hi, ?_⟩
      simp [nth, hi]
  · rw [hring]
    refine putCells_other (fun z hz => ?_) _
    obtain ⟨i, hi, heq⟩ := List.mem_map.mp (List.of_mem_zip hz).1
    exact fun hbz => hb i (List.mem_range.mp hi) (hbz.trans heq.symm)

theorem fifoOfRun_setFifo {k : Nat} {g : Fifo} (hv : Table.find r.launch s.launches = some v) : fifoOfRun (setFifo r k g s) r k = some g := by
  simp [fifoOfRun, setFifo, State.mapDie, State.mapLaunch, hv, State.setLaunch, Launch.die, Launch.setDie]

theorem setFifo_mem (k : Nat) (g : Fifo) : (setFifo r k g s).mem = s.mem := by
  unfold setFifo State.mapDie State.mapLaunch
  split <;> rfl

theorem setFifo_ringBuf (k : Nat) (g : Fifo) : (setFifo r k g s).ringBuf = s.ringBuf := by
  unfold setFifo State.mapDie State.mapLaunch
  split <;> rfl

theorem appendFifo_eq (hl : stripeLaunch s x = some (r, l, v)) (hf : fifoOfRun s r (fifoNumber s x r im) = some f) : appendFifo x o im a d data s =
    if f.eos then some (.stop (tokenTrap x (16 + o) 1 cILLOP d s))
    else if f.size < f.wpos - f.rpos + data.length then none
    else some ((fifoPut x o 0 a v f f.wpos data s).bind (fun _ s1 => .ok () (setFifo r (fifoNumber s x r im) { f with
      wpos := f.wpos + data.length
      appended := f.appended.join (afterOwn x o a s s1).after } s1))) := by
  simp only [appendFifo, hl, hf]

end

theorem fifoAppends_says : Says.FifoAppends := by
  intro s x o l im a d data r v f hl hsrc hsink k hfifo used
  have hnum : fifoNumber s x r im = k := fifoNumber_plain hsrc hsink
  have happend := appendFifo_eq (o := o) (a := a) (d := d) (data := data) hl (hnum.symm ▸ hfifo)
  rw [hnum] at happend
  refine ⟨fun heos => ?_, fun heos hlt => ?_, fun heos hle hvirt hbase hpow herr hcells hrl hv => ?_⟩
  · rw [happend, if_pos heos]; rfl
  · rw [happend, heos]
    exact if_pos hlt
  · obtain ⟨u, hput, hmem, hlaunches, hget, hother⟩ := fifoPut_onRing (x := x) (o := o) (a := a) (v := v) (data := data) ⟨hvirt, hbase, hpow⟩ herr
      ((cellsWf_iff _ _).mp hcells).1 (by omega) 0 f.wpos
    rw [if_neg (by simp [heos]), if_neg (Nat.not_lt.mpr hle), hput, Got.bind_ok_eq] at happend
    refine ⟨_, _, happend, fifoOfRun_setFifo (v := v) (by rw [hlaunches, hrl]; exact hv), (setFifo_mem ..).trans hmem, ?_⟩
    rw [setFifo_ringBuf]
    exact ⟨hget, hother⟩

/-! ## STORE (R105, R201) -/

section
variable {s s1 : State} {x o : Nat} {im : OpImage} {v : Oper} {a d : Token}

theorem storeAccess_buffer {b at_ : Nat} (h : operOn x o 2 s = some (im, v)) (ha : v.head 0 = some a) (hd : v.head 1 = some d)
    (hspace : im.field 0 2 0 < 2) (halign : (im.p2 + a.value).toNat % im.accessBytes = 0)
    (hb : bufferAt s x (im.field 0 2 0) (im.p2 + a.value).toNat im.accessBytes = some (b, at_))
    (hf : bufferFails s b at_ im.accessBytes true = false) : exec (.storeAccess x o) s =
      .next (accessMade x o im { a with after := a.after.join d.after } false s (bufferWrite b at_ (leBytes im.accessBytes d.value.toNat) s)) := by
  show execStoreAccess x o s = _
  obtain hk | hk : im.field 0 2 0 = 0 ∨ im.field 0 2 0 = 1 := by omega
  all_goals
    rw [hk] at hb
    simp only [execStoreAccess, h, ha, hd, hk, bufferStore, halign, leBytes_length, hb, hf, ne_eq, not_true_eq_false, Bool.false_eq_true, if_false,
      Got.andThen_ok]

theorem storeAccess_memory (h : operOn x o 2 s = some (im, v)) (ha : v.head 0 = some a) (hd : v.head 1 = some d) (hspace : im.field 0 2 0 = 2)
    (halign : (im.p2 + a.value).toNat % im.accessBytes = 0)
    (hw : virtWrite x o 0 { a with after := a.after.join d.after } [(im.p2 + a.value, im.accessBytes)] (leBytes im.accessBytes d.value.toNat) s = .ok () s1) :
    exec (.storeAccess x o) s =
      .next (accessMade x o im { a with after := a.after.join d.after } (s1.outbound.length != s.outbound.length) s s1) := by
  show execStoreAccess x o s = _
  simp only [execStoreAccess, h, ha, hd, hspace, halign, ne_eq, not_true_eq_false, if_false, hw, Got.andThen_ok]

theorem storeAccess_fifo (h : operOn x o 2 s = some (im, v)) (ha : v.head 0 = some a) (hd : v.head 1 = some d) (hspace : im.field 0 2 0 = 3)
    (hap : appendFifo x o im { a with after := a.after.join d.after } d (leBytes im.accessBytes d.value.toNat) s = some (.ok () s1)) :
    exec (.storeAccess x o) s = .next (accessMade x o im { a with after := a.after.join d.after } false s s1) := by
  show execStoreAccess x o s = _
  simp only [execStoreAccess, h, ha, hd, hspace, hap, Got.andThen_ok]

theorem storeEos_eq {r : Run} {l : Nat} {w : Launch} {f : Fifo} (h : operOn x o 2 s = some (im, v)) (hl : stripeLaunch s x = some (r, l, w))
    (hspace : im.field 0 2 0 = 3) (hdone : appendsDone r.image ((s.stripe x).vs.getD 0) o v = true)
    (hf : fifoOfRun s r (fifoNumber s x r im) = some f) :
    exec (.storeEos x o) s = .next (setFifo r (fifoNumber s x r im) { f with eos := true } s) := by
  show execStoreEos x o s = _
  simp only [execStoreEos, h, hl, hspace, hdone, true_and, if_true, hf]

/-- What a write at one translated piece leaves in memory on the device. -/
theorem virtWrite_stores {s0 : State} {slot n pa : Nat} {t : Token} {va : Word} {data : List Byte} (hlen : data.length = n)
    (hw : virtWrite x o slot t [(va, n)] data s = .ok () s1) (htr : fabricTranslate x (16 + o) slot t va n .write s = .ok pa s0)
    (hpa : onDevice pa = true) (hinv : s0.Inv) (hq : s0.wqueue = []) : Stores pa data s0 s1 := by
  obtain ⟨part, l, hp⟩ := fabricTranslate_part htr hq
  have hfail : writeFails s0 pa n = false := by
    by_contra hne
    rw [Bool.not_eq_false] at hne
    simp [virtWrite, translatePieces, htr, pieceError, hpa, hne] at hw
  have hwrite := operWrite_onDevice (o := o) (slot := slot) (t := t) (va := va) (data := data) hp hpa hq (by rw [hlen]; exact hfail)
  simp only [virtWrite, translatePieces, htr, Got.bind_ok_eq, pieceError, List.find?_cons, hfail, hpa, Bool.and_false, List.find?_nil, Option.map_none,
    writePieces, List.take_of_length_le (Nat.le_of_eq hlen), hwrite] at hw
  cases hw
  refine Stores.of_mem (stores_poke hinv l (s0.ownerOf x o + 1) pa data) ?_
  unfold State.mapOper
  split <;> rfl

end

theorem storeOperators_says : Says.StoreOperators := by
  intro s s1 x o im v a d h n addr tok done
  refine ⟨fun ha hd => ⟨fun b at_ hspace halign hb hf => ⟨_, storeAccess_buffer h ha hd hspace halign hb hf, rfl⟩,
    fun hspace halign hw => ⟨⟨_, storeAccess_memory h ha hd hspace halign hw, rfl⟩, fun pa s0 htr hpa hinv hq =>
      virtWrite_stores (leBytes_length ..) hw htr hpa hinv hq⟩,
    fun hspace hap => ⟨_, storeAccess_fifo h ha hd hspace hap, rfl⟩⟩, fun r l w f hl hspace hdone hf => ⟨_, storeEos_eq h hl hspace hdone hf, rfl⟩⟩

/-! ## ATOMIC (R106, R257, R258) -/

section
variable {s s1 s2 : State} {x o n pa old : Nat} {posted : Bool} {im : OpImage} {v : Oper} {a b t : Token}

/-- An operation that is made sends its old value where it returns one. -/
theorem atomicAccess_eq (h : operOn x o 3 s = some (im, v)) (ha : v.head 0 = some a) (hb : v.head 1 = some b)
    {out : Word → List Token} (hout : (fun w => if im.field 0 14 14 = 1 then
      operOut im.out0 { b.result w with after := a.after.join b.after } else []) = out)
    (hroom : roomForAll x (out 0) s = true)
    (htr : operTranslate x o 0 { a with after := a.after.join b.after } (im.p1 + a.value) (2 ^ im.field 0 10 9) .rw s = .ok pa s1)
    (hat : atomicAt x o im { a with after := a.after.join b.after } b.value (2 ^ im.field 0 10 9) pa (im.p1 + a.value) s1 = .ok (old, posted) s2) :
    exec (.atomicAccess x o) s = .next (operSend x o (out (if im.field 0 8 5 < 11 then sext (8 * 2 ^ im.field 0 10 9) old else w64 old))
      (accessMade x o im { a with after := a.after.join b.after } posted s s2)) := by
  have hout' : ∀ w, (if im.field 0 14 14 = 1 then operOut im.out0 { b.result w with after := a.after.join b.after } else []) = out w := congrFun hout
  show execAtomicAccess x o s = _
  simp only [execAtomicAccess, h, ha, hb, beq_iff_eq, hout', hroom, Bool.not_true, Bool.false_eq_true, if_false, htr, Got.bind_ok_eq, hat,
    Got.andThen_ok]

/-- Of the state before a write, storing tells memory and the fault slots. -/
theorem Stores.of_before {pa : Nat} {bs : List Byte} {u s t : State} (h : Stores pa bs u t) (hm : u.mem = s.mem) (hl : u.launches = s.launches) :
    Stores pa bs s t := by
  have hguard : ∀ c w, guardByte u c w = guardByte s c w := fun c w => by simp only [guardByte, hm, hl]
  intro c
  rw [← hm, ← hguard]
  exact h c

/-- An operation that is done at once stores its result over the old value. -/
theorem atomicAt_atOnce {va w : Word} (hat : atomicAt x o im t w n pa va s = .ok (old, posted) s2) (hpa : onDevice pa = true) (hinv : s.Inv)
    (hq : s.wqueue = []) (honce : im.field 0 14 14 = 1 ∨ 16 ≤ stackOf pa) :
    posted = false ∧ old = leNat (peek s pa n) ∧ Stores pa (leBytes n (aopApply (im.field 0 8 5) n old (lowBytes n w) 0)) s s2 := by
  have hcond : (!(im.field 0 14 14 == 1) && decide (stackOf pa < 16)) = false := by
    obtain h | h := honce
    · simp [h]
    · simp [Nat.not_lt.mpr h]
  have hseen : ∀ ret : Bool, (if ret then operObserve x o pa n s else s).mem = s.mem ∧ (if ret then operObserve x o pa n s else s).launches = s.launches := by
    intro ret
    cases ret with
    | false => exact ⟨rfl, rfl⟩
    | true =>
      simp only [if_true, operObserve, State.mapOper]
      split <;> exact ⟨rfl, rfl⟩
  obtain ⟨hmem, hlaunches⟩ := hseen (im.field 0 14 14 == 1)
  cases hp : stripePart s x with
  | none => simp [atomicAt, hp] at hat
  | some q =>
    obtain ⟨part, l⟩ := q
    have hdone : readFails s pa n = false ∧ atomicAt x o im t w n pa va s = .ok (leNat (peek s pa n), false)
        (poke (l + 1) (s.ownerOf x o + 1) pa (leBytes n (aopApply (im.field 0 8 5) n (leNat (peek s pa n)) (lowBytes n w) 0))
          (if im.field 0 14 14 == 1 then operObserve x o pa n s else s)) := by
      obtain ⟨j, off, hl⟩ | ⟨j, off, hl⟩ := locOf_of_onDevice hpa <;>
      · simp only [atomicAt, hp, hl, hcond, settleLines_id hq, Bool.false_eq_true, if_false] at hat ⊢
        split at hat
        · cases hat
        next hf => exact ⟨by simpa using hf, by simp only [hf, Bool.false_eq_true, if_false]⟩
    rw [hdone.2] at hat
    cases hat
    refine ⟨rfl, rfl, Stores.of_before (stores_poke ?_ l _ pa _) hmem hlaunches⟩
    show Memory.wf _ = true
    rw [hmem]
    exact hinv

/-- One to HBM that does not return is the one reduction of its stack's queue. -/
theorem atomicAt_queued {va w : Word} (hat : atomicAt x o im t w n pa va s = .ok (old, posted) s2) (hpa : onDevice pa = true)
    (hq : s.wqueue = []) (hret : im.field 0 14 14 = 0) (hstack : stackOf pa < 16) : posted = true ∧ s2.mem = s.mem ∧ ∃ r : PostedRed, r.pa = pa ∧
      r.aop = im.field 0 8 5 ∧ r.bytes = n ∧ r.value = w ∧ s2.wqueue = [(stackOf pa, [⟨pa / 64 * 64, im.field 0 8 5, n, [r]⟩])] := by
  have hcond : (!(im.field 0 14 14 == 1) && decide (stackOf pa < 16)) = true := by simp [hret, hstack]
  have hqueue : queueOf s pa = [] := by rw [queueOf, hq]; rfl
  cases hp : stripePart s x with
  | none => simp [atomicAt, hp] at hat
  | some q =>
    obtain ⟨part, l⟩ := q
    have hentered : ∃ r : PostedRed, r = ⟨s.ownerOf x o, l + 1, im.field 0 8 5, n, pa, va, w, s.nextJob⟩ ∧ posted = true ∧ s2 = enterQueue r s := by
      obtain ⟨j, off, hl⟩ | ⟨j, off, hl⟩ := locOf_of_onDevice hpa <;>
      · simp only [atomicAt, hp, hl, hcond, if_true, queueStalls, hqueue] at hat
        split at hat
        · cases hat
        · cases hat
          exact ⟨_, rfl, rfl, rfl⟩
    obtain ⟨r, hr, rfl, rfl⟩ := hentered
    have henter : enterQueue r s = { s with wqueue := [(stackOf pa, [⟨pa / 64 * 64, im.field 0 8 5, n, [r]⟩])] } := by
      rw [hr]
      simp only [enterQueue, hqueue, hq]
      rfl
    rw [henter]
    exact ⟨rfl, rfl, r, by rw [hr], by rw [hr], by rw [hr], by rw [hr], rfl⟩

end

theorem atomicOperators_says : Says.AtomicOperators := by
  intro s s1 s2 x o pa old posted im v a b h ha hb n tok out aop done hroom htr hat
  refine ⟨⟨_, atomicAccess_eq h ha hb (out := out) rfl hroom htr hat, rfl⟩, fun hpa hinv hq =>
    ⟨fun honce => atomicAt_atOnce hat hpa hinv hq honce, fun hret hstack => atomicAt_queued hat hpa hq hret hstack⟩⟩

end Sys2Proof.Machine

open Sys2Proof Sys2Proof.Machine

/-- Settles O39: a store writes its space or appends to its FIFO, and an atomic operation is done at once or waits in its stack's queue. -/
theorem storeOperators : Obligations.StoreOperators := ⟨storeOperators_says, fifoAppends_says, atomicOperators_says⟩
end

section
/-!
SUPPORT. The matrix instructions: configuration of a node, contributions and releases (R90 to R98).
-/

namespace Sys2Proof.Machine

open Sys2Proof

/-! ## Rows and columns one after another -/

/-- A table walked row by row is walked in order. -/
theorem flatMap_range {α : Type} (g : Nat → Nat → α) (rows : Nat) {cols : Nat} (hc : 0 < cols) :
    (List.range rows).flatMap (fun r => (List.range cols).map (g r)) = (List.range (cols * rows)).map (fun i => g (i / cols) (i % cols)) := by
  induction rows with
  | zero => rfl
  | succ n ih =>
    rw [List.range_succ, List.flatMap_append, ih, Nat.mul_succ, List.range_add, List.map_append, List.map_map]
    refine congrArg _ ?_
    simp only [List.flatMap_cons, List.flatMap_nil, List.append_nil]
    refine List.map_congr_left fun i hi => ?_
    have hi := List.mem_range.mp hi
    simp [Nat.mul_add_div hc, Nat.div_eq_of_lt hi, Nat.mod_eq_of_lt hi]

/-! ## Releases (R93) -/

theorem tagOp_eq (topc : BitVec 4) (targ : BitVec 11) (t : Token) : tagOp topc targ t = match topc.toNat with
    | 1 => { t with iter := t.iter + BitVec.ofNat 10 targ.toNat }
    | 2 => { t with iter := BitVec.ofNat 10 targ.toNat }
    | 3 => { t with frame := targ }
    | 4 => { t with frame := t.frame + targ }
    | _ => t := by
  rw [BitVec.ofNat_toNat]
  rfl

/-- The tokens of a release, the rows' values in order. -/
theorem releaseToks_eq (nd : Node) (base : Token) : releaseToks nd base =
    (List.range (10 * nd.rows)).map (fun i =>
      let t := { base with iter := BitVec.ofNat 10 (i / 10), value := w64 (nd.at (i / 10) (2 * (i % 10)) + 2 ^ 32 * nd.at (i / 10) (2 * (i % 10) + 1)) }
      (if nd.tsel then t else tagOp nd.topc nd.targ t).toward nd.releaseDst)
    ++ (if dstValid nd.doneDst then
      [(tagOp nd.topc nd.targ { base with iter := BitVec.ofNat 10 nd.rows, value := w64 (10 * nd.rows) }).toward nd.doneDst] else []) := by
  rw [releaseToks, flatMap_range _ _ (by decide)]

/-! ## Contributions (R90, R92, R94) -/

section
variable {s : State} {w : EWord} {inst : Inst} {v : Elem} {nd : Node} {ka : Nat} {kb : Option Nat}

theorem contribute_total (kind rm : Nat) (k : Keys) (v : Elem) (nd : Node) (a : Tile) (b : Option Tile) (ci : Nat) :
    (contribute kind rm k v nd a b ci).1.count = nd.count + 1 ∧ (contribute kind rm k v nd a b ci).1.total = nd.total := ⟨rfl, rfl⟩

/-- A legal contribution leaves its node, cleared where that is full, and sends the handles and the release. -/
theorem mmaRun_eq (kind : Nat) (k : Keys) (v : Elem) (a : Tile) (b : Option Tile) :
    let c := contribute kind w.rt.toNat k v nd a b inst.a.iter.toNat
    let full := nd.count + 1 == nd.total
    mmaRun kind w k v nd a b inst = ({ v with
        nodes := Table.set (w.imm.toNat % 4) (if full then c.1.clear else c.1) v.nodes
        status := v.status.raise c.2.1, lfsr := BitVec.ofNat 32 c.2.2 },
      (wordOut1 w (handleTok inst inst.a.value) ++ (match inst.b with | some t => wordOut2 w (handleTok inst t.value) | none => []))
        ++ (if full then releaseToks c.1 inst.base else [])) := by
  intro c full
  obtain ⟨hcount, htotal⟩ := contribute_total kind w.rt.toNat k v nd a b inst.a.iter.toNat
  have hj : bits w.imm.toNat 1 0 = w.imm.toNat % 4 := by simp [bits]
  simp only [mmaRun, hcount, htotal, hj] <;> rfl

theorem leaves_of_tileIssue {i : Instr} {o : Out} {f : Nat → Elem → Inst → TileRes} {v' : Elem} {toks : List Token} (hi : exec i s = o)
    (ho : o = tileIssue f s) (hs : s.issue.insts = [inst]) (hv : s.elem? s.issue.x s.issue.e = some v) (hf : f s.issue.e v inst = .done v' toks) :
    LeavesElem i s v' toks := (hi.trans ho).trans (tileIssue_done hs hv hf)

theorem mmaIssue_leaves {i : Instr} {kind : Nat} (hi : exec i s = mmaIssue kind w s) (hs : s.issue.insts = [inst])
    (hv : s.elem? s.issue.x s.issue.e = some v) (hc : mmaCheck kind w s.issue.e v inst = .ok (nd, ka, kb)) :
    let r := mmaRun kind w (elemKeys s s.issue.x s.issue.e) v nd (v.tile ka) (kb.map v.tile) inst
    LeavesElem i s r.1 r.2 := by
  intro r
  refine leaves_of_tileIssue hi (by rw [mmaIssue]) hs hv ?_
  simp only [hc] <;> rfl

/-- A member, or an origin without participants, executes an MMG as an MMA. -/
theorem mmg_alone {v' : Elem} (hs : s.issue.insts = [inst]) (hv : s.elem? s.issue.x s.issue.e = some v)
    (hv' : (if (mmgOf w).member then { v with mmgSent := Table.erase inst.slot v.mmgSent } else v) = v')
    (halone : (mmgOf w).member = true ∨ mmgOthers s.issue.e (mmgOf w) = [])
    (hc : mmaCheck (mmgOf w).wkind w s.issue.e v' inst = .ok (nd, ka, kb)) :
    let r := mmaRun (mmgOf w).wkind w (elemKeys s s.issue.x s.issue.e) v' nd (v'.tile ka) (kb.map v'.tile) inst
    LeavesElem (.mmg w) s r.1 r.2 := by
  intro r
  have hnone : (if (mmgOf w).member then [] else mmgOthers s.issue.e (mmgOf w)).isEmpty = true := by
    obtain h | h := halone <;> simp [h]
  refine leaves_of_tileIssue (o := execMmg w s) rfl (by unfold execMmg; rfl) hs hv ?_
  simp only [hv', hc, hnone, if_true] <;> rfl

/-- An origin whose results find room takes up its operand tiles and owes them to its participants. -/
theorem mmg_owes (hs : s.issue.insts = [inst]) (hv : s.elem? s.issue.x s.issue.e = some v) (hm : (mmgOf w).member = false)
    (hothers : mmgOthers s.issue.e (mmgOf w) ≠ []) (hc : mmaCheck (mmgOf w).wkind w s.issue.e v inst = .ok (nd, ka, kb))
    (hroom : crowdedOut s.issue.x (fabricUnit s.issue.x s.issue.e)
      (mmaRun (mmgOf w).wkind w (elemKeys s s.issue.x s.issue.e) v nd (v.tile ka) (kb.map v.tile) inst).2 s = []) :
    let u := v.setTile 16 (v.tile ka)
    LeavesElem (.mmg w) s { (match kb with | some b => u.setTile 17 (v.tile b) | none => u) with
      mmgOwed := (mmgOthers s.issue.e (mmgOf w)).map (fun o => (o.1, o.2, inst.a, inst.b)) } [] := by
  intro u
  have hsome : (mmgOthers s.issue.e (mmgOf w)).isEmpty = false := by simpa using hothers
  refine leaves_of_tileIssue (o := execMmg w s) rfl (by unfold execMmg; rfl) hs hv ?_
  simp only [hm, Bool.false_eq_true, if_false, hc, hsome, hroom, List.isEmpty_nil, Bool.not_true] <;> rfl

theorem acfg_done (hs : s.issue.insts = [inst]) (hv : s.elem? s.issue.x s.issue.e = some v) (hh : handleOperand inst = none)
    (hempty : ∀ n, Table.find (w.imm.toNat % 4) v.nodes = some n → n.count = 0) :
    let m := w.imm.toNat
    LeavesElem (.acfg w) s { v with nodes := Table.set (m % 4) {
      int := bit m 2, rows := m / 2 ^ 8 % 2 ^ 9, brows := m / 2 ^ 17 % 2 ^ 9, kblk := m / 2 ^ 32 % 2 ^ 11, acc := [], next := [], count := 0,
      releaseDst := w.dst1, doneDst := w.dst2, topc := w.topc, targ := w.targ, tsel := w.tsel } v.nodes } [] := by
  intro m
  have hj : bits m 1 0 = m % 4 := by simp [bits]
  have hvalid : HandlesValid s.issue.e v inst := handlesValid_of_data hh s.issue.e v
  refine leaves_of_tileIssue (o := execAcfg w s) rfl (tileOp_eq hs hv hvalid) hs hv ?_
  simp only [m] at hj
  cases hfind : Table.find (w.imm.toNat % 4) v.nodes with
  | none => simp only [hj, hfind, ne_eq, not_true_eq_false, if_false] <;> rfl
  | some n => simp only [hj, hfind, hempty n hfind, ne_eq, not_true_eq_false, if_false] <;> rfl

end

theorem matrixInstructions_says : Says.MatrixInstructions := by
  intro s w inst v nd ka kb hs hv m j keys release
  have hrelease : ∀ n base, release n base = releaseToks n base := fun n base => by
    rw [releaseToks_eq]
    simp only [tagOp_eq] <;> rfl
  refine ⟨fun hh hempty => acfg_done hs hv hh hempty, ?_⟩
  intro mma
  have hmma : ∀ (i : Instr) kind v', (mmaCheck kind w s.issue.e v' inst = .ok (nd, ka, kb) →
      let r := mmaRun kind w keys v' nd (v'.tile ka) (kb.map v'.tile) inst
      LeavesElem i s r.1 r.2) → mma i kind v' := by
    intro i kind v' hleaves hc
    have hleaves := hleaves hc
    simp only [mmaRun_eq] at hleaves
    refine ⟨(contribute_total ..).1, ?_⟩
    simp only [hrelease]
    exact hleaves
  refine ⟨hmma _ _ _ (mmaIssue_leaves (kind := 0) rfl hs hv), hmma _ _ _ (mmaIssue_leaves (kind := 1) rfl hs hv),
    hmma _ _ _ (mmaIssue_leaves (kind := 2) rfl hs hv), hmma _ _ _ (mmaIssue_leaves (kind := 3) rfl hs hv), ?_⟩
  intro p others
  exact ⟨fun hm => hmma _ _ _ fun hc => mmg_alone hs hv (if_pos hm) (.inl hm) hc,
    fun hm hnone => hmma _ _ _ fun hc => mmg_alone hs hv (by rw [hm]; rfl) (.inr hnone) hc,
    fun hm hsome hc hroom => mmg_owes hs hv hm hsome hc hroom⟩

end Sys2Proof.Machine

open Sys2Proof Sys2Proof.Machine

/-- Settles O35: a contribution that passes its checks leaves its node and sends what `mmaRun` gives, and an origin owes its copies. -/
theorem matrixInstructions : Obligations.MatrixInstructions := matrixInstructions_says
end

section
/-!
SUPPORT. Contributions to a node: its positions, its flags and the sums of 64 products (R94 to R96).
-/

namespace Sys2Proof.Machine

open Sys2Proof

/-! ## Flags -/

theorem bit_eq_testBit (v i : Nat) : bit v i = v.testBit i := by
  rw [bit, Nat.testBit_eq_decide_div_mod_eq]
  rfl

theorem bit_orf (a b i : Nat) : bit (orf a b) i = true ↔ bit a i = true ∨ bit b i = true := by
  rw [bit_eq_testBit, bit_eq_testBit, bit_eq_testBit, ← Bool.or_eq_true, ← Nat.testBit_or]
  rfl

theorem not_bit_zero (i : Nat) : ¬ bit 0 i = true := by simp [bit]

/-! ## Positions (R94) -/

section
variable {α : Type} (sum : α → FVal × Nat) (add : Nat → FVal → Nat → FRes) (key : α → Nat)

/-- One position of a contribution: the table of positions, the flags and the generator's state after it. -/
def addCell (st : Table (BitVec 32) × Nat × Nat) (p : α) : Table (BitVec 32) × Nat × Nat :=
  let f := add (Table.getD st.1 (key p) 0).toNat (sum p).1 st.2.2
  (Table.set (key p) (BitVec.ofNat 32 f.v) st.1, orf st.2.1 (orf (sum p).2 f.fl), f.lf)

theorem addCells_other {k : Nat} {ps : List α} (hk : ∀ p ∈ ps, k ≠ key p) (st : Table (BitVec 32) × Nat × Nat) :
    Table.getD (ps.foldl (addCell sum add key) st).1 k 0 = Table.getD st.1 k 0 :=
  List.foldlRecOn ps _ (motive := fun (u : Table (BitVec 32) × Nat × Nat) => Table.getD u.1 k 0 = Table.getD st.1 k 0) rfl fun _ hu p hp =>
    (Table.getD_set_ne (hk p hp) ..).trans hu

/-- Where no addition draws, the generator stays. -/
theorem addCells_lf (hadd : ∀ a x lf, (add a x lf).lf = lf) (ps : List α) (st : Table (BitVec 32) × Nat × Nat) :
    (ps.foldl (addCell sum add key) st).2.2 = st.2.2 :=
  List.foldlRecOn ps _ (motive := fun (u : Table (BitVec 32) × Nat × Nat) => u.2.2 = st.2.2) rfl fun _ hu _ _ => (hadd ..).trans hu

/-- What a position takes, from a table of positions, by a state of the generator. -/
def cellRes (st : Table (BitVec 32) × Nat × Nat) (lf : α → Nat) (p : α) : FRes := add (Table.getD st.1 (key p) 0).toNat (sum p).1 (lf p)

/-- Each position takes its sum once, by some state of the generator, and the flags are those of the sums and the additions. -/
theorem addCells_each [DecidableEq α] {ps : List α} (hkeys : (ps.map key).Nodup) (st : Table (BitVec 32) × Nat × Nat) :
    ∃ lf : α → Nat,
      (∀ p ∈ ps, Table.getD (ps.foldl (addCell sum add key) st).1 (key p) 0 = BitVec.ofNat 32 (cellRes sum add key st lf p).v) ∧
      ∀ i, bit (ps.foldl (addCell sum add key) st).2.1 i = true ↔
        bit st.2.1 i = true ∨ ∃ p ∈ ps, bit (sum p).2 i = true ∨ bit (cellRes sum add key st lf p).fl i = true := by
  induction ps generalizing st with
  | nil => exact ⟨fun _ => 0, by simp⟩
  | cons q ps ih =>
    rw [List.map_cons, List.nodup_cons] at hkeys
    obtain ⟨hq, hkeys⟩ := hkeys
    have hne : ∀ p ∈ ps, key p ≠ key q := fun p hp h => hq (h ▸ List.mem_map_of_mem hp)
    obtain ⟨lf, hval, hflags⟩ := ih hkeys (addCell sum add key st q)
    have hfirst : cellRes sum add key st (Function.update lf q st.2.2) q = add (Table.getD st.1 (key q) 0).toNat (sum q).1 st.2.2 := by
      rw [cellRes, Function.update_self]
    have hrest : ∀ p ∈ ps, cellRes sum add key (addCell sum add key st q) lf p = cellRes sum add key st (Function.update lf q st.2.2) p := fun p hp => by
      have hold : Table.getD (addCell sum add key st q).1 (key p) 0 = Table.getD st.1 (key p) 0 := Table.getD_set_ne (hne p hp) ..
      have hlf : Function.update lf q st.2.2 p = lf p := Function.update_of_ne (fun h => hne p hp (congrArg key h)) ..
      rw [cellRes, cellRes, hold, hlf]
    refine ⟨Function.update lf q st.2.2, fun p hp => ?_, fun i => ?_⟩
    · rcases List.mem_cons.mp hp with rfl | hp
      · rw [List.foldl_cons, addCells_other _ _ _ (fun p hp h => hne p hp h.symm), hfirst]
        exact Table.getD_set_self ..
      · rw [List.foldl_cons, hval p hp, hrest p hp]
    · have hexists : (∃ p ∈ ps, bit (sum p).2 i = true ∨ bit (cellRes sum add key (addCell sum add key st q) lf p).fl i = true) ↔
          ∃ p ∈ ps, bit (sum p).2 i = true ∨ bit (cellRes sum add key st (Function.update lf q st.2.2) p).fl i = true :=
        exists_congr fun p => and_congr_right fun hp => by rw [hrest p hp]
      rw [List.foldl_cons, hflags, hexists, List.exists_mem_cons_iff, hfirst, ← or_assoc]
      refine or_congr_left ?_
      simp only [addCell, bit_orf]

end

/-! ## The positions of a band -/

/-- The rows and columns of a contribution. -/
def bandCells (m : Nat) : List (Nat × Nat) := (List.range m).flatMap (fun r => (List.range 20).map (fun n => (r, n)))

/-- The position of a row and column of a contribution in its node. -/
def cellKey (row0 : Nat) (p : Nat × Nat) : Nat := 20 * (row0 + p.1) + p.2

theorem mem_bandCells {m : Nat} {p : Nat × Nat} : p ∈ bandCells m ↔ p.1 < m ∧ p.2 < 20 := by
  obtain ⟨r, n⟩ := p
  simp [bandCells]

theorem cellKey_inj {row0 : Nat} {p q : Nat × Nat} (hp : p.2 < 20) (hq : q.2 < 20) (h : cellKey row0 p = cellKey row0 q) : p = q := by
  simp only [cellKey] at h
  exact Prod.ext (by omega) (by omega)

theorem nodup_bandKeys (row0 m : Nat) : ((bandCells m).map (cellKey row0)).Nodup := by
  refine List.Nodup.map_on (fun p hp q hq h => cellKey_inj (mem_bandCells.mp hp).2 (mem_bandCells.mp hq).2 h) ?_
  rw [bandCells, flatMap_range _ _ (by decide)]
  refine List.nodup_range.map_on fun i _ j _ h => ?_
  obtain ⟨hdiv, hmod⟩ := Prod.mk.inj h
  rw [← Nat.div_add_mod i 20, ← Nat.div_add_mod j 20, hdiv, hmod]

/-- The addition of a matrix form. -/
def addOf (kind rm : Nat) (k : Keys) (a : Nat) (x : FVal) (lf : Nat) : FRes :=
  if kind = 0 then { addBlockInt a x with lf := lf } else addBlock rm (!k.sovf) a x lf

section
variable (kind rm : Nat) (k : Keys) (v : Elem) (nd : Node) (a : Tile) (b : Option Tile) (ci : Nat)

theorem contribute_eq :
    let row0 := ci / nd.kblk * nd.brows
    let cells := (bandCells (min nd.brows (nd.rows - row0))).foldl
      (addCell (fun p => blockSum v a b k.fsi p.1 p.2) (addOf kind rm k) (cellKey row0)) (nd.acc, 0, v.lfsr.toNat)
    contribute kind rm k v nd a b ci =
      ({ nd with acc := cells.1, next := Table.set (ci / nd.kblk) (ci % nd.kblk + 1) nd.next, count := nd.count + 1 }, cells.2.1, cells.2.2) := rfl

/-- Other positions of the node stay. -/
theorem contribute_other {r n : Nat} (hn : n < 20)
    (hr : ∀ i, i < min nd.brows (nd.rows - ci / nd.kblk * nd.brows) → r ≠ ci / nd.kblk * nd.brows + i) :
    (contribute kind rm k v nd a b ci).1.at r n = nd.at r n := by
  rw [contribute_eq]
  refine congrArg BitVec.toNat (addCells_other _ _ _ (fun p hp h => ?_) _)
  obtain ⟨hp1, hp2⟩ := mem_bandCells.mp hp
  simp only [cellKey] at h
  exact hr p.1 hp1 (by omega)

theorem contribute_lf (hadd : ∀ c x lf, (addOf kind rm k c x lf).lf = lf) : (contribute kind rm k v nd a b ci).2.2 = v.lfsr.toNat := by
  rw [contribute_eq]
  exact addCells_lf _ _ _ hadd ..

/-- Each position of the band takes its sum once, by some state of the generator, with the flags of the sums and the additions. -/
theorem contribute_each {row0 m : Nat} (hrow : ci / nd.kblk * nd.brows = row0) (hm : min nd.brows (nd.rows - row0) = m) : ∃ lf : Nat × Nat → Nat,
    (∀ r n, r < m → n < 20 → (contribute kind rm k v nd a b ci).1.at (row0 + r) n =
      (addOf kind rm k (nd.at (row0 + r) n) (blockSum v a b k.fsi r n).1 (lf (r, n))).v % 2 ^ 32) ∧
    ∀ i, bit (contribute kind rm k v nd a b ci).2.1 i = true ↔ ∃ r n, r < m ∧ n < 20 ∧ (bit (blockSum v a b k.fsi r n).2 i = true ∨
      bit (addOf kind rm k (nd.at (row0 + r) n) (blockSum v a b k.fsi r n).1 (lf (r, n))).fl i = true) := by
  subst hrow hm
  obtain ⟨lf, hval, hflags⟩ := addCells_each (fun p => blockSum v a b k.fsi p.1 p.2) (addOf kind rm k) (cellKey (ci / nd.kblk * nd.brows))
    (nodup_bandKeys (ci / nd.kblk * nd.brows) (min nd.brows (nd.rows - ci / nd.kblk * nd.brows))) (nd.acc, 0, v.lfsr.toNat)
  refine ⟨lf, fun r n hr hn => ?_, fun i => ?_⟩
  · rw [contribute_eq]
    exact (congrArg BitVec.toNat (hval (r, n) (mem_bandCells.mpr ⟨hr, hn⟩))).trans (BitVec.toNat_ofNat ..)
  · rw [contribute_eq]
    refine (hflags i).trans ((or_iff_right (not_bit_zero i)).trans ⟨?_, ?_⟩)
    · rintro ⟨p, hp, h⟩
      obtain ⟨hr, hn⟩ := mem_bandCells.mp hp
      exact ⟨p.1, p.2, hr, hn, h⟩
    · rintro ⟨r, n, hr, hn, h⟩
      exact ⟨(r, n), mem_bandCells.mpr ⟨hr, hn⟩, h⟩

end

end Sys2Proof.Machine
end

section
/-!
SUPPORT. The sums of 64 products, and their addition to a position with one rounding (R95, R96).
-/

namespace Sys2Proof.Machine

open Sys2Proof

/-! ## Exact sums -/

section
variable {term : Nat → FVal} {flag : Nat → Nat} {ks : List Nat} {acc : FVal × Nat}

/-- One term of a sum, with its flags. -/
def addTerm (term : Nat → FVal) (flag : Nat → Nat) (acc : FVal × Nat) (k : Nat) : FVal × Nat := (FVal.add false acc.1 (term k), orf acc.2 (flag k))

theorem addTerms_number (hacc : FVal.finite acc.1 = true) (h : ∀ k ∈ ks, FVal.finite (term k) = true) :
    FVal.finite (ks.foldl (addTerm term flag) acc).1 = true ∧
    FVal.number (ks.foldl (addTerm term flag) acc).1 = FVal.number acc.1 + (ks.map fun k => FVal.number (term k)).sum := by
  induction ks generalizing acc with
  | nil => exact ⟨hacc, by simp⟩
  | cons k ks ih =>
    obtain ⟨hfin, hnum, -⟩ := number_sum false hacc (h k (by simp))
    obtain ⟨hfin', hnum'⟩ := ih (acc := addTerm term flag acc k) hfin fun j hj => h j (by simp [hj])
    refine ⟨hfin', hnum'.trans ?_⟩
    rw [List.map_cons, List.sum_cons, ← add_assoc]
    exact congrArg (· + _) hnum

theorem FVal.add_isNan (rd : Bool) {u w : FVal} (h : u.isNan = true ∨ w.isNan = true) : (FVal.add rd u w).isNan = true := by
  rcases h with h | h
  · obtain ⟨sig, rfl⟩ := FVal.isNan_iff.mp h
    rfl
  · obtain ⟨sig, rfl⟩ := FVal.isNan_iff.mp h
    cases u <;> rfl

theorem addTerms_nan (h : acc.1.isNan = true ∨ ∃ k ∈ ks, (term k).isNan = true) : (ks.foldl (addTerm term flag) acc).1.isNan = true := by
  induction ks generalizing acc with
  | nil => simpa using h
  | cons k ks ih =>
    refine ih (acc := addTerm term flag acc k) ?_
    rw [List.exists_mem_cons_iff, ← or_assoc] at h
    exact h.imp_left fun h => FVal.add_isNan false h

theorem addTerms_flag (i : Nat) : bit (ks.foldl (addTerm term flag) acc).2 i = true ↔ bit acc.2 i = true ∨ ∃ k ∈ ks, bit (flag k) i = true := by
  induction ks generalizing acc with
  | nil => simp
  | cons k ks ih =>
    rw [List.foldl_cons, ih, List.exists_mem_cons_iff, ← or_assoc]
    refine or_congr_left ?_
    rw [addTerm, bit_orf]

/-- A sum of integers is an integer as it stands. -/
theorem addTerms_integer (hacc : ∃ n m, acc.1 = .fin n m 0) (h : ∀ k ∈ ks, ∃ n m, term k = .fin n m 0) :
    ∃ n m, (ks.foldl (addTerm term flag) acc).1 = .fin n m 0 := by
  induction ks generalizing acc with
  | nil => exact hacc
  | cons k ks ih =>
    refine ih (acc := addTerm term flag acc k) ?_ fun j hj => h j (by simp [hj])
    obtain ⟨n1, m1, h1⟩ := hacc
    obtain ⟨n2, m2, h2⟩ := h k (by simp)
    simp only [addTerm, h1, h2, FVal.add, finAdd, le_refl, if_true]
    split_ifs <;> exact ⟨_, _, rfl⟩

end

/-! ## The sum of a position (R95) -/

section
variable (v : Elem) (a : Tile) (b : Option Tile) (fsi : Bool) (r n : Nat)

/-- The scales of a product: of its half row, and of its half column. -/
def scaleA (b : Option Tile) (r h : Nat) : Nat := match b with | some t => (t.byte (2 * r + h)).toNat | none => 127
def scaleW (v : Elem) (b : Option Tile) (h n : Nat) : Nat := match b with | some _ => (nth v.slice (2560 + 20 * h + n) 0).toNat | none => 127

/-- A product, scaled where the contribution has scales. -/
def blockTerm (k : Nat) : FVal :=
  let p := FVal.mul (actVal v a fsi r k) (weightVal v fsi (20 * k + n)).1
  match b with
  | some t => scaleBy (t.byte (2 * r + k / 32)).toNat (nth v.slice (2560 + 20 * (k / 32) + n) 0).toNat p
  | none => p

theorem blockSum_eq : blockSum v a b fsi r n =
    (List.range 64).foldl (addTerm (blockTerm v a b fsi r n) (fun k => (weightVal v fsi (20 * k + n)).2)) (.fin false 0 0, 0) := rfl

theorem blockSum_flag (i : Nat) : bit (blockSum v a b fsi r n).2 i = true ↔ ∃ k, k < 64 ∧ bit (weightVal v fsi (20 * k + n)).2 i = true := by
  rw [blockSum_eq, addTerms_flag, or_iff_right (not_bit_zero i)]
  simp only [List.mem_range]

variable {v a b fsi r n}

theorem blockSum_number (h : ∀ k, k < 64 → FVal.finite (blockTerm v a b fsi r n k) = true) : FVal.finite (blockSum v a b fsi r n).1 = true ∧
    FVal.number (blockSum v a b fsi r n).1 = ((List.range 64).map fun k => FVal.number (blockTerm v a b fsi r n k)).sum := by
  rw [blockSum_eq]
  obtain ⟨hfin, hnum⟩ := addTerms_number (acc := (.fin false 0 0, 0)) (term := blockTerm v a b fsi r n)
    (flag := fun k => (weightVal v fsi (20 * k + n)).2) rfl fun k hk => h k (List.mem_range.mp hk)
  refine ⟨hfin, hnum.trans ?_⟩
  simp [FVal.number]

theorem blockSum_nan {k : Nat} (hk : k < 64) (h : (blockTerm v a b fsi r n k).isNan = true) : (blockSum v a b fsi r n).1.isNan = true := by
  rw [blockSum_eq]
  exact addTerms_nan (.inr ⟨k, List.mem_range.mpr hk, h⟩)

variable {k : Nat}

/-- A product of numbers under valid scales is exact. -/
theorem blockTerm_number (ha : FVal.finite (actVal v a fsi r k) = true) (hw : FVal.finite (weightVal v fsi (20 * k + n)).1 = true)
    (hsa : scaleA b r (k / 32) ≠ 255) (hsw : scaleW v b (k / 32) n ≠ 255) : FVal.finite (blockTerm v a b fsi r n k) = true ∧
      FVal.number (blockTerm v a b fsi r n k) = FVal.number (actVal v a fsi r k) * FVal.number (weightVal v fsi (20 * k + n)).1 *
        (2 : ℚ) ^ ((scaleA b r (k / 32) + scaleW v b (k / 32) n : Nat) - 254 : Int) := by
  obtain ⟨hfin, hnum, -⟩ := number_product ha hw
  rw [← hnum]
  cases b with
  | none => exact ⟨hfin, by simp [blockTerm, scaleA, scaleW]⟩
  | some t =>
    simp only [scaleA, scaleW] at hsa hsw ⊢
    obtain ⟨s, m, e, hp⟩ := FVal.finite_iff.mp hfin
    have hnot : ¬ ((t.byte (2 * r + k / 32)).toNat = 255 ∨ (nth v.slice (2560 + 20 * (k / 32) + n) 0).toNat = 255) := by
      rintro (h | h)
      · exact hsa h
      · exact hsw h
    simp only [blockTerm, hp, scaleBy, if_neg hnot]
    refine ⟨rfl, ?_⟩
    rw [number_fin, number_fin, mul_assoc, mul_assoc, ← two_zpow_add]
    congr 3
    push_cast
    ring

theorem blockTerm_nan (h : (actVal v a fsi r k).isNan = true ∨ (weightVal v fsi (20 * k + n)).1.isNan = true ∨ scaleA b r (k / 32) = 255 ∨
    scaleW v b (k / 32) n = 255) : (blockTerm v a b fsi r n k).isNan = true := by
  rw [← or_assoc] at h
  have hprod := fun h => FVal.mul_isNan (a := actVal v a fsi r k) (b := (weightVal v fsi (20 * k + n)).1) h
  cases b with
  | none =>
    obtain h | h | h := h
    · exact hprod h
    · simp [scaleA] at h
    · simp [scaleW] at h
  | some t =>
    simp only [scaleA, scaleW] at h
    simp only [blockTerm]
    cases hp : FVal.mul (actVal v a fsi r k) (weightVal v fsi (20 * k + n)).1 with
    | nan _ => simp only [scaleBy]; split <;> rfl
    | fin _ _ _ =>
      have h := h.resolve_left fun h => by simpa [hp, FVal.isNan] using hprod h
      simp only [scaleBy, if_pos h]
      rfl
    | inf _ =>
      have h := h.resolve_left fun h => by simpa [hp, FVal.isNan] using hprod h
      simp only [scaleBy, if_pos h]
      rfl

end

/-! ## One addition with one rounding (R96) -/

section
variable {rm a lf fl : Nat} {sat : Bool} {s : FVal}

/-- The exact sum of a position, rounded once. -/
def roundBlock (rm : Nat) (sat : Bool) (fl lf : Nat) : FVal → FRes
  | .nan _ => ⟨0x7FC00000, orf fl fNV, lf⟩
  | .inf n => ⟨ffF32.sign n 0x7F800000, fl, lf⟩
  | .fin n m e =>
    if m = 0 then ⟨ffF32.sign (rm == 3) 0, fl, lf⟩ else
    let (r, q) := roundAt rm n m e 24 ffF32.qmin lf
    let enc := (q - ffF32.qmin).toNat * 2 ^ 23 + r.z
    if ffF32.max < enc then ⟨ffF32.sign n (if sat then ffF32.max else 0x7F800000), orf fl fSCOVF, r.lf⟩
    else ⟨ffF32.sign n enc, fl, r.lf⟩

theorem addBlock_nan (h : s.isNan = true) : addBlock rm sat a s lf = ⟨0x7FC00000, fNV, lf⟩ := by
  simp [addBlock, h]

/-- A sum below 2^-126 counts as zero. -/
theorem addBlock_eq (ha : FVal.finite (ffF32.val a) = true) (hs : FVal.finite s = true) : ∃ s', FVal.finite s' = true ∧
    FVal.number s' = (if |FVal.number s| < (2 : ℚ) ^ (-126 : Int) then 0 else FVal.number s) ∧
    addBlock rm sat a s lf = roundBlock rm sat (if FVal.number s ≠ 0 ∧ |FVal.number s| < (2 : ℚ) ^ (-126 : Int) then fSCUNF else 0) lf
      (FVal.add (rm == 3) (ffF32.val a) s') := by
  obtain ⟨n, m, e, rfl⟩ := FVal.finite_iff.mp hs
  have hzero := number_eq_zero_iff n m e
  have hsmall : (m ≠ 0 ∧ e + (bitLen m : Int) ≤ -126) ↔ FVal.number (.fin n m e) ≠ 0 ∧ |FVal.number (.fin n m e)| < (2 : ℚ) ^ (-126 : Int) := by
    rw [abs_number_fin, ne_eq, ne_eq, hzero]
    exact and_congr_right fun hm => (mul_zpow_lt_iff hm e (-126)).symm
  have hnan : ((ffF32.val a).isNan || (FVal.fin n m e).isNan) = false := by rw [(finite_kinds ha).1]; rfl
  simp only [addBlock, hnan, Bool.false_eq_true, if_false, hsmall]
  by_cases h : FVal.number (.fin n m e) ≠ 0 ∧ |FVal.number (.fin n m e)| < (2 : ℚ) ^ (-126 : Int)
  · refine ⟨.fin n 0 0, rfl, ?_, ?_⟩
    · rw [if_pos h.2, number_eq_zero_iff]
    · simp only [if_pos h]
      rfl
  · refine ⟨.fin n m e, rfl, ?_, ?_⟩
    · by_cases hlt : |FVal.number (.fin n m e)| < (2 : ℚ) ^ (-126 : Int)
      · rw [if_pos hlt]
        exact not_not.mp fun hne => h ⟨hne, hlt⟩
      · rw [if_neg hlt]
    · simp only [if_neg h]
      rfl

theorem roundBlock_zero {u : FVal} (hu : FVal.finite u = true) (h : FVal.number u = 0) : roundBlock rm sat fl lf u = ⟨ffF32.sign (rm == 3) 0, fl, lf⟩ := by
  obtain ⟨n, m, e, rfl⟩ := FVal.finite_iff.mp hu
  have hm := (number_eq_zero_iff n m e).mp h
  simp only [roundBlock, if_pos hm]

theorem roundBlock_fl {u : FVal} (hu : FVal.finite u = true) : (roundBlock rm sat fl lf u).fl = fl ∨ (roundBlock rm sat fl lf u).fl = orf fl fSCOVF := by
  obtain ⟨n, m, e, rfl⟩ := FVal.finite_iff.mp hu
  simp only [roundBlock]
  split
  · exact .inl rfl
  · split
    · exact .inr rfl
    · exact .inl rfl

theorem quant_lf (hrm : rm ≠ 4) (neg : Bool) (m k lf : Nat) : (quant rm neg m k lf).lf = lf := by
  simp only [quant, if_neg hrm]
  split <;> rfl

theorem roundAt_lf (hrm : rm ≠ 4) (neg : Bool) (m : Nat) (e : Int) (prec : Nat) (qmin : Int) (lf : Nat) :
    (roundAt rm neg m e prec qmin lf).1.lf = lf := by
  unfold roundAt
  dsimp only
  generalize (if e + (bitLen m : Int) - prec ≤ qmin then qmin else e + (bitLen m : Int) - prec) = q
  split
  · rfl
  · exact quant_lf hrm ..

/-- Only the stochastic mode draws. -/
theorem addBlock_lf (hrm : rm ≠ 4) : (addBlock rm sat a s lf).lf = lf := by
  unfold addBlock
  dsimp only
  split
  · rfl
  · split
    · rfl
    · rfl
    · split
      · rfl
      · split <;> exact roundAt_lf hrm ..

/-- A number other than zero is rounded once to binary32; above the largest finite value it is what the policy says. -/
theorem roundBlock_rounded (hrm : rm ≤ 4) {u : FVal} (hu : FVal.finite u = true) {x : ℚ} (hx : FVal.number u = x) (h0 : x ≠ 0) :
    let res := roundBlock rm sat fl lf u
    ∃ q, Rounded 24 (-149) rm lf x q res.lf ∧
      if FVal.number (ffF32.val 0x7F7FFFFF) < |q| then
        res.v = ffF32.sign (decide (x < 0)) (if sat then 0x7F7FFFFF else 0x7F800000) ∧ res.fl = orf fl fSCOVF
      else FVal.number (ffF32.val res.v) = q ∧ FVal.finite (ffF32.val res.v) = true ∧ bit res.v 31 = decide (x < 0) ∧ res.v < 2 ^ 32 ∧ res.fl = fl := by
  obtain ⟨n, m, e, rfl⟩ := FVal.finite_iff.mp hu
  subst hx
  have hf : ffF32.Wf := ffOf_wf 10
  have hm := mt (number_eq_zero_iff n m e).mpr h0
  have hneg : decide (FVal.number (.fin n m e) < 0) = n := by rw [Bool.eq_iff_iff, decide_eq_true_eq]; exact number_neg_iff hm
  obtain ⟨z, q, hcell, hround⟩ := roundAt_eq hrm n hm e (prec := 24) (by decide) ffF32.qmin lf
  obtain ⟨j, hj⟩ := Int.eq_ofNat_of_zero_le (sub_nonneg.mpr hcell.least)
  obtain rfl : q = ffF32.qmin + j := by omega
  have ht : (0 : ℚ) < m * 2 ^ e := mul_pos (by exact_mod_cast Nat.pos_of_ne_zero hm) (two_zpow_pos e)
  have hrounded := rounded_cell hrm (by decide) ht hcell n lf
  have hmag := magnitude_encoded (f := ffF32) rfl hcell (cellQuant_z_le (rm := rm) (lf := lf) (frac := fracAt (m * 2 ^ e) z (ffF32.qmin + j)) (z := z) n)
  simp only [roundBlock, if_neg hm, hround, add_sub_cancel_left, Int.toNat_natCast]
  generalize cellQuant rm n z (fracAt (m * 2 ^ e) z (ffF32.qmin + j)) lf = c at hrounded hmag
  rw [← hmag] at hrounded
  change Rounded 24 _ rm lf _ (signOf n * ffF32.magnitude (j * 2 ^ 23 + c.z)) c.lf at hrounded
  generalize j * 2 ^ 23 + c.z = enc at hrounded
  have hr : |signOf n * ffF32.magnitude enc| = ffF32.magnitude enc := by rw [abs_signOf_mul, abs_of_nonneg (ffF32.magnitude_nonneg enc)]
  have hmax : FVal.number (ffF32.val 0x7F7FFFFF) = ffF32.magnitude ffF32.max := hf.number_max
  refine ⟨signOf n * ffF32.magnitude enc, ?_, ?_⟩
  · split <;> exact hrounded
  · rw [hr, hmax, hneg]
    by_cases hover : ffF32.max < enc
    · rw [if_pos (ffF32.magnitude_strictMono.lt_iff_lt.mpr hover), if_pos hover]
      exact ⟨rfl, rfl⟩
    · have hle := Nat.not_lt.mp hover
      have hlt := Nat.lt_of_le_of_lt hle hf.max_lt
      rw [if_neg (mt ffF32.magnitude_strictMono.lt_iff_lt.mp hover), if_neg hover]
      exact ⟨hf.number_sign hle n, by rw [hf.val_sign hle]; rfl, FFmt.Wf.bit_sign hlt n, hf.sign_lt hlt n, rfl⟩

end

end Sys2Proof.Machine
end

section
/-!
SUPPORT. The ternary and the scaled path of the matrix instructions (R94 to R96, R235, R236, R240).
-/

namespace Sys2Proof.Machine

open Sys2Proof

/-! ## The ternary path -/

section
variable {v : Elem} {a : Tile} {fsi : Bool}

/-- The number of a ternary weight (R95). -/
def ternaryWeight (v : Elem) (p : Nat) : Int := match sliceCode v.slice 2 p with | 1 => 1 | 3 => -1 | _ => 0

theorem weightVal_ternary (hw : v.wfmt = 14) (p : Nat) : ∃ n m, (weightVal v fsi p).1 = .fin n m 0 ∧ FVal.number (.fin n m 0) = ternaryWeight v p := by
  simp only [weightVal, hw, if_true, ternaryWeight]
  by_cases h1 : sliceCode v.slice 2 p = 1
  · exact ⟨false, 1, by simp [h1], by simp [h1, number_fin]⟩
  · by_cases h3 : sliceCode v.slice 2 p = 3
    · exact ⟨true, 1, by simp [h3], by simp [h3, number_fin]⟩
    · exact ⟨false, 0, by simp [h1, h3], by simp [number_fin]⟩

theorem weightVal_ternary_flag (hw : v.wfmt = 14) (p i : Nat) :
    bit (weightVal v fsi p).2 i = true ↔ bit fTERNBAD i = true ∧ sliceCode v.slice 2 p = 2 := by
  simp only [weightVal, hw, if_true]
  by_cases h2 : sliceCode v.slice 2 p = 2
  · simp [h2]
  · have hflag : (if sliceCode v.slice 2 p = 1 then ((FVal.fin false 1 0, 0) : FVal × Nat) else if sliceCode v.slice 2 p = 3 then (.fin true 1 0, 0)
        else (.fin false 0 0, if sliceCode v.slice 2 p = 2 then fTERNBAD else 0)).2 = 0 := by
      rw [if_neg h2]
      split
      · rfl
      · split <;> rfl
    rw [hflag]
    simp [h2, bit]

theorem actVal_integer (ha : v.afmt = 0) (r k : Nat) : ∃ n m, actVal v a fsi r k = .fin n m 0 ∧ FVal.number (.fin n m 0) = signed 8 (a.elem r k) := by
  simp only [actVal, ha, if_true]
  exact ⟨_, _, rfl, number_int _⟩

theorem toInt_integer (n : Bool) (m : Nat) : ((FVal.toInt (.fin n m 0) : Int) : ℚ) = FVal.number (.fin n m 0) := by
  cases n <;> simp [FVal.toInt, number_fin]

theorem blockTerm_ternary (hw : v.wfmt = 14) (ha : v.afmt = 0) (r n k : Nat) : ∃ s m, blockTerm v a none fsi r n k = .fin s m 0 ∧
    FVal.number (.fin s m 0) = ((signed 8 (a.elem r k) * ternaryWeight v (20 * k + n) : Int) : ℚ) := by
  obtain ⟨n1, m1, h1, hnum1⟩ := actVal_integer (a := a) (fsi := fsi) ha r k
  obtain ⟨n2, m2, h2, hnum2⟩ := weightVal_ternary (fsi := fsi) hw (20 * k + n)
  refine ⟨n1 != n2, m1 * m2, ?_, ?_⟩
  · simp only [blockTerm, h1, h2]
    rfl
  · rw [Int.cast_mul, ← hnum1, ← hnum2, ← number_mul]
    rfl

/-- The sum of a position is an integer, exactly. -/
theorem blockSum_ternary (hw : v.wfmt = 14) (ha : v.afmt = 0) (r n : Nat) : (blockSum v a none fsi r n).1.toInt =
    ((List.range 64).map (fun k => signed 8 (a.elem r k) * ternaryWeight v (20 * k + n))).sum := by
  have hterm := blockTerm_ternary (a := a) (fsi := fsi) hw ha r n
  obtain ⟨-, hnum⟩ := blockSum_number (v := v) (a := a) (b := none) (fsi := fsi) (r := r) (n := n) fun k _ => by
    obtain ⟨s, m, h, -⟩ := hterm k
    rw [h]
    rfl
  obtain ⟨s, m, hsum⟩ : ∃ s m, (blockSum v a none fsi r n).1 = .fin s m 0 := by
    rw [blockSum_eq]
    refine addTerms_integer ⟨false, 0, rfl⟩ fun k _ => ?_
    obtain ⟨s, m, h, -⟩ := hterm k
    exact ⟨s, m, h⟩
  have hcast : (((blockSum v a none fsi r n).1.toInt : Int) : ℚ) =
      (((List.range 64).map (fun k => signed 8 (a.elem r k) * ternaryWeight v (20 * k + n))).sum : Int) := by
    rw [hsum, toInt_integer, ← hsum, hnum, Int.cast_list_sum, List.map_map]
    refine congrArg List.sum (List.map_congr_left fun k _ => ?_)
    obtain ⟨s, m, h, hk⟩ := hterm k
    rw [h, hk]
    rfl
  exact_mod_cast hcast

end

theorem signed_wrapInt {y : Int} (hlow : -2 ^ 31 ≤ y) (hhigh : y ≤ 2 ^ 31 - 1) : signed 32 (wrapInt 32 y % 2 ^ 32) = y := by
  rw [wrapInt_mod]
  unfold signed wrapInt
  omega

/-- An addition to an INT32 position is clipped, and SAT tells that (R96). -/
theorem addBlockInt_clip (old : Nat) (s : FVal) (lf : Nat) :
    let wide := signed 32 old + s.toInt
    let clip := max (-2 ^ 31) (min (2 ^ 31 - 1) wide)
    let res := { addBlockInt old s with lf := lf }
    signed 32 (res.v % 2 ^ 32) = clip ∧ ∀ i, bit res.fl i = true ↔ bit fSAT i = true ∧ clip ≠ wide := by
  intro wide clip res
  have hsat : satInt 2 wide = (clip, if decide (clip ≠ wide) then fSAT else 0) := satInt_eq 2 wide
  have hres : res = ⟨wrapInt 32 clip, if decide (clip ≠ wide) then fSAT else 0, lf⟩ := by
    simp only [res, addBlockInt]
    rw [show satInt 2 (signed 32 old + s.toInt) = _ from hsat]
  rw [hres]
  refine ⟨signed_wrapInt (by omega) (by omega), fun i => ?_⟩
  by_cases h : clip = wide <;> simp [h, bit]

/-- The weights that the positions of a band use are those of the whole slice. -/
theorem exists_weight {m : Nat} {P : Nat → Prop} : (∃ r n, r < m ∧ n < 20 ∧ ∃ k, k < 64 ∧ P (20 * k + n)) ↔ 0 < m ∧ ∃ p, p < 1280 ∧ P p := by
  constructor
  · rintro ⟨r, n, hr, hn, k, hk, hp⟩
    exact ⟨by omega, 20 * k + n, by omega, hp⟩
  · rintro ⟨hm, p, hp, h⟩
    exact ⟨0, p % 20, hm, Nat.mod_lt _ (by decide), p / 20, by omega, by rw [Nat.div_add_mod]; exact h⟩

theorem ternarySumsAreExact_says : Says.TernarySumsAreExact := by
  intro keys v nd a b rm ci hw ha hb hk band row0 m weight sum clip wide c
  subst hb
  obtain ⟨lf, hval, hflags⟩ := contribute_each 0 rm keys v nd a none ci (row0 := row0) (m := m) rfl rfl
  have hsum : ∀ r n, (blockSum v a none keys.fsi r n).1.toInt = sum r n := fun r n => blockSum_ternary hw ha r n
  have hclip := fun r n => addBlockInt_clip (nd.at (row0 + r) n) (blockSum v a none keys.fsi r n).1 (lf (r, n))
  simp only [hsum] at hclip
  have hwflag : ∀ r n i, bit (blockSum v a none keys.fsi r n).2 i = true ↔ bit fTERNBAD i = true ∧ ∃ k, k < 64 ∧ sliceCode v.slice 2 (20 * k + n) = 2 := by
    intro r n i
    simp only [blockSum_flag, weightVal_ternary_flag hw]
    exact ⟨fun ⟨k, hk, hi, h⟩ => ⟨hi, k, hk, h⟩, fun ⟨hi, k, hk, h⟩ => ⟨k, hk, hi, h⟩⟩
  have hflags' : ∀ i, bit c.2.1 i = true ↔ ∃ r n, r < m ∧ n < 20 ∧
      ((bit fTERNBAD i = true ∧ ∃ k, k < 64 ∧ sliceCode v.slice 2 (20 * k + n) = 2) ∨ (bit fSAT i = true ∧ clip (wide r n) ≠ wide r n)) := by
    intro i
    refine (hflags i).trans (exists_congr fun r => exists_congr fun n => and_congr_right fun _ => and_congr_right fun _ => ?_)
    exact or_congr (hwflag r n i) ((hclip r n).2 i)
  refine ⟨fun r n hr hn => ?_, fun r n hn hr => contribute_other 0 rm keys v nd a none ci hn hr, ?_, ?_, contribute_lf 0 rm keys v nd a none ci fun _ _ _ => rfl,
    Table.find_set_self .., fun i hi => Table.find_set_ne hi .., rfl⟩
  · rw [hval r n hr hn]
    exact (hclip r n).1
  · rw [hflags']
    have h1 : bit fTERNBAD 5 = false := by decide
    have h2 : bit fSAT 5 = true := by decide
    simp only [h1, h2, Bool.false_eq_true, false_and, false_or, true_and]
  · rw [hflags', ← exists_weight]
    have h1 : bit fTERNBAD 6 = true := by decide
    have h2 : bit fSAT 6 = false := by decide
    simp only [h1, h2, Bool.false_eq_true, false_and, or_false, true_and]

/-! ## The scaled path -/

/-- Of a sum of numbers: it is added once, a sum below 2^-126 as zero (R96, R242). -/
theorem addBlock_sum {rm a lf : Nat} {sat : Bool} {s : FVal} (ha : FVal.finite (ffF32.val a) = true) (hs : FVal.finite s = true) :
    let x := FVal.number (ffF32.val a) + if |FVal.number s| < (2 : ℚ) ^ (-126 : Int) then 0 else FVal.number s
    let fl := if FVal.number s ≠ 0 ∧ |FVal.number s| < (2 : ℚ) ^ (-126 : Int) then fSCUNF else 0
    let res := addBlock rm sat a s lf
    (x = 0 → res = ⟨ffF32.sign (rm == 3) 0, fl, lf⟩) ∧
    (rm ≤ 4 → x ≠ 0 → ∃ q, Rounded 24 (-149) rm lf x q res.lf ∧
      if FVal.number (ffF32.val 0x7F7FFFFF) < |q| then
        res.v = ffF32.sign (decide (x < 0)) (if sat then 0x7F7FFFFF else 0x7F800000) ∧ res.fl = orf fl fSCOVF
      else FVal.number (ffF32.val res.v) = q ∧ FVal.finite (ffF32.val res.v) = true ∧ bit res.v 31 = decide (x < 0) ∧ res.v < 2 ^ 32 ∧ res.fl = fl) ∧
    (res.fl = fl ∨ res.fl = orf fl fSCOVF) := by
  intro x fl res
  obtain ⟨s', hfin, hnum, hres⟩ := addBlock_eq (rm := rm) (lf := lf) (sat := sat) ha hs
  obtain ⟨hsum, hx, -⟩ := number_sum (rm == 3) ha hfin
  rw [hnum] at hx
  have hres : res = roundBlock rm sat fl lf (FVal.add (rm == 3) (ffF32.val a) s') := hres
  rw [hres]
  exact ⟨fun h0 => roundBlock_zero hsum (hx.trans h0), fun hrm h0 => roundBlock_rounded hrm hsum hx h0, roundBlock_fl hsum⟩

/-- The deterministic modes do not look at the generator. -/
theorem Rounded.drop_lf {prec : Nat} {qmin : Int} {rm lf lf' : Nat} {x q : ℚ} (h : Rounded prec qmin rm lf x q lf') (hrm : rm ≤ 3) :
    Rounded prec qmin rm 0 x q 0 := by
  obtain ⟨hfit, hnot⟩ := h
  refine ⟨fun hx => ⟨(hfit hx).1, rfl⟩, fun hx => ?_⟩
  obtain ⟨-, hrest⟩ := hnot hx
  interval_cases rm
  · exact ⟨rfl, hrest⟩
  · exact ⟨rfl, hrest⟩
  · exact ⟨rfl, hrest⟩
  · exact ⟨rfl, hrest⟩

/-- A position under a deterministic mode: its sum rounded once, with the overflow of the policy (R96). -/
theorem position_rounded {rm a lf y : Nat} {sovf : Bool} {s : FVal} (hrm : rm ≤ 3) (ha : FVal.finite (ffF32.val a) = true) (hs : FVal.finite s = true)
    (hy : y = (addBlock rm (!sovf) a s lf).v % 2 ^ 32) :
    let x := FVal.number (ffF32.val a) + if |FVal.number s| < (2 : ℚ) ^ (-126 : Int) then 0 else FVal.number s
    (x = 0 → y = if rm = 3 then 2 ^ 31 else 0) ∧
    (x ≠ 0 → ∃ q, Rounded 24 (-149) rm 0 x q 0 ∧
      if FVal.number (ffF32.val 0x7F7FFFFF) < |q| then
        y = ffF32.sign (decide (x < 0)) (if sovf then 0x7F800000 else 0x7F7FFFFF) ∧ bit (addBlock rm (!sovf) a s lf).fl 8 = true
      else FVal.number (ffF32.val y) = q ∧ FVal.finite (ffF32.val y) = true ∧ bit y 31 = decide (x < 0)) := by
  intro x
  obtain ⟨hzero, hround, -⟩ := addBlock_sum (rm := rm) (lf := lf) (sat := !sovf) ha hs
  refine ⟨fun hx => ?_, fun hx => ?_⟩
  · rw [hy, hzero hx]
    by_cases h3 : rm = 3 <;> simp [h3, FFmt.sign, ffF32]
  · obtain ⟨q, hq, hcase⟩ := hround (by omega) hx
    refine ⟨q, hq.drop_lf hrm, ?_⟩
    by_cases hover : FVal.number (ffF32.val 0x7F7FFFFF) < |q|
    · rw [if_pos hover] at hcase ⊢
      obtain ⟨hv, hfl⟩ := hcase
      refine ⟨?_, ?_⟩
      · rw [hy, hv]
        cases sovf <;> cases decide (_ < (0 : ℚ)) <;> rfl
      · rw [hfl, bit_orf]
        exact .inr (by decide)
    · rw [if_neg hover] at hcase ⊢
      obtain ⟨hv, hfinite, hsign, hlt, -⟩ := hcase
      rw [hy, Nat.mod_eq_of_lt hlt]
      exact ⟨hv, hfinite, hsign⟩

section
variable {v : Elem} {a : Tile} {fsi : Bool}

/-- The outlier entry of a position (R235, R236). -/
def outlierEntry (v : Elem) (p : Nat) : Option Nat := (List.range 32).find? (fun j => leNat ((v.slice.drop (2624 + 4 * j)).take 2) % 2048 == p)

/-- A weight of a floating format, an escaped one from its latch or its outlier entry (R95, R235). -/
theorem weightVal_scaled (hw : v.wfmt ≠ 14) (p : Nat) : (weightVal v fsi p).1 =
    if v.wfmt = 13 ∧ sliceCode v.slice (ffOf v.wfmt).w p = 8 then
      (if v.esc then matrixVal ffBF16 fsi v.xval.toNat else match outlierEntry v p with
        | some j => matrixVal ffBF16 fsi (leNat ((v.slice.drop (2626 + 4 * j)).take 2))
        | none => .fin false 0 0)
    else matrixVal (ffOf v.wfmt) fsi (sliceCode v.slice (ffOf v.wfmt).w p) := by
  simp only [weightVal, if_neg hw, outlier]
  by_cases hesc : v.wfmt = 13 ∧ sliceCode v.slice (ffOf v.wfmt).w p = 8
  · rw [if_pos hesc, if_pos hesc]
    cases v.esc with
    | true => rfl
    | false =>
      simp only [outlierEntry, Bool.false_eq_true, if_false]
      generalize List.find? _ _ = entry
      cases entry <;> rfl
  · rw [if_neg hesc, if_neg hesc]

theorem weightVal_scaled_flag (hw : v.wfmt ≠ 14) (p i : Nat) : bit (weightVal v fsi p).2 i = true ↔
    bit fOUTMISS i = true ∧ v.wfmt = 13 ∧ v.esc = false ∧ sliceCode v.slice (ffOf v.wfmt).w p = 8 ∧ outlierEntry v p = none := by
  have hzero := not_bit_zero i
  simp only [weightVal, if_neg hw, outlier]
  by_cases hesc : v.wfmt = 13 ∧ sliceCode v.slice (ffOf v.wfmt).w p = 8
  · rw [if_pos hesc]
    cases he : v.esc with
    | true => simp [hzero]
    | false =>
      simp only [outlierEntry, Bool.false_eq_true, if_false]
      generalize List.find? _ _ = entry
      cases entry with
      | some j => simp [hzero]
      | none =>
        obtain ⟨h13, h8⟩ := hesc
        exact ⟨fun h => ⟨h, h13, trivial, h8, rfl⟩, fun h => h.1⟩
  · rw [if_neg hesc]
    refine iff_of_false hzero ?_
    rintro ⟨-, h13, -, h8, -⟩
    exact hesc ⟨h13, h8⟩

theorem actVal_scaled (ha : v.afmt ≠ 0) (r k : Nat) : actVal v a fsi r k = matrixVal (ffOf v.afmt) fsi (a.elem r k) := by
  simp only [actVal, if_neg ha]

end

theorem bit_of_fl {fl res i : Nat} (h : res = fl ∨ res = orf fl fSCOVF) (hi : bit fSCOVF i = false) : bit res i = true ↔ bit fl i = true := by
  rcases h with rfl | rfl
  · exact Iff.rfl
  · rw [bit_orf, hi]
    simp

theorem bit_small {P : Prop} [Decidable P] (i : Nat) : bit (if P then fSCUNF else 0) i = true ↔ bit fSCUNF i = true ∧ P := by
  by_cases h : P <;> simp [h, bit]

theorem matrixSumsRoundOnce_says : Says.MatrixSumsRoundOnce := by
  intro k v nd a b kind rm ci hkind hwf haf hk row0 m num act entry code weight sa sw bad good sum small c
  obtain ⟨lf, hval, hflags⟩ := contribute_each kind rm k v nd a b ci (row0 := row0) (m := m) rfl rfl
  have hadd : addOf kind rm k = addBlock rm (!k.sovf) := by
    funext x y z
    exact if_neg hkind
  rw [hadd] at hval hflags
  have hact : ∀ r i, act r i = actVal v a k.fsi r i := fun r i => (actVal_scaled haf r i).symm
  have hweight : ∀ p, weight p = (weightVal v k.fsi p).1 := fun p => (weightVal_scaled hwf p).symm
  have hsum : ∀ r n, good r n → FVal.finite (blockSum v a b k.fsi r n).1 = true ∧ FVal.number (blockSum v a b k.fsi r n).1 = sum r n := by
    intro r n hgood
    have hterm : ∀ i, i < 64 → _ := fun i hi => by
      obtain ⟨ha, hw, hsa, hsw⟩ := hgood.1 i hi
      rw [hact] at ha
      rw [hweight] at hw
      exact blockTerm_number ha hw hsa hsw
    obtain ⟨hfin, hnum⟩ := blockSum_number fun i hi => (hterm i hi).1
    refine ⟨hfin, hnum.trans (congrArg List.sum (List.map_congr_left fun i hi => ?_))⟩
    rw [(hterm i (List.mem_range.mp hi)).2, hact, hweight]
    rfl
  have hflag : ∀ r n i, good r n → bit fSCOVF i = false →
      (bit (addBlock rm (!k.sovf) (nd.at (row0 + r) n) (blockSum v a b k.fsi r n).1 (lf (r, n))).fl i = true ↔ bit fSCUNF i = true ∧ small r n) := by
    intro r n i hgood hi
    obtain ⟨hfin, hnum⟩ := hsum r n hgood
    obtain ⟨-, -, hfl⟩ := addBlock_sum (rm := rm) (lf := lf (r, n)) (sat := !k.sovf) hgood.2 hfin
    rw [hnum] at hfl
    rw [bit_of_fl hfl hi, bit_small]
  have hblock : ∀ r n i, bit (blockSum v a b k.fsi r n).2 i = true ↔ ∃ j, j < 64 ∧ (bit fOUTMISS i = true ∧ v.wfmt = 13 ∧ v.esc = false ∧
      code (20 * j + n) = 8 ∧ entry (20 * j + n) = none) := by
    intro r n i
    simp only [blockSum_flag, weightVal_scaled_flag hwf]
    exact Iff.rfl
  refine ⟨fun r n hrm hr hn hgood => ?_, fun r n i hr hn hi hbad => ?_, fun hall => ⟨?_, ?_, ?_⟩,
    fun r n hn hr => contribute_other kind rm k v nd a b ci hn hr,
    fun hrm => contribute_lf kind rm k v nd a b ci fun _ _ _ => by rw [hadd]; exact addBlock_lf hrm, rfl⟩
  · obtain ⟨hfin, hnum⟩ := hsum r n hgood
    have hposition := position_rounded hrm hgood.2 hfin (hval r n hr hn)
    rw [hnum] at hposition
    refine ⟨hposition.1, fun hx => ?_⟩
    obtain ⟨q, hq, hcase⟩ := hposition.2 hx
    refine ⟨q, hq, ?_⟩
    by_cases hover : FVal.number (ffF32.val 0x7F7FFFFF) < |q|
    · rw [if_pos hover] at hcase ⊢
      exact ⟨hcase.1, (hflags 8).mpr ⟨r, n, hr, hn, .inr hcase.2⟩⟩
    · rw [if_neg hover] at hcase ⊢
      exact hcase
  · have hnan : (blockSum v a b k.fsi r n).1.isNan = true := by
      simp only [bad, hact, hweight] at hbad
      exact blockSum_nan hi (blockTerm_nan hbad)
    have hres := addBlock_nan (rm := rm) (a := nd.at (row0 + r) n) (lf := lf (r, n)) (sat := !k.sovf) hnan
    refine ⟨(hval r n hr hn).trans ?_, (hflags 0).mpr ⟨r, n, hr, hn, .inr ?_⟩⟩
    · rw [hres]
      rfl
    · rw [hres]
      exact bit_zero_invalid
  · refine (hflags 9).trans (exists_congr fun r => exists_congr fun n => and_congr_right fun hr => and_congr_right fun hn => ?_)
    rw [hblock, hflag r n 9 (hall r n hr hn) (by decide)]
    have h1 : bit fOUTMISS 9 = false := by decide
    have h2 : bit fSCUNF 9 = true := by decide
    simp [h1, h2]
  · rw [← Bool.not_eq_true, hflags]
    rintro ⟨r, n, hr, hn, h⟩
    rw [hblock, hflag r n 0 (hall r n hr hn) (by decide)] at h
    have h1 : bit fOUTMISS 0 = false := by decide
    have h2 : bit fSCUNF 0 = false := by decide
    simp [h1, h2] at h
  · have h1 : bit fOUTMISS 7 = true := by decide
    have h2 : bit fSCUNF 7 = false := by decide
    have hmiss : bit c.2.1 7 = true ↔ ∃ r n, r < m ∧ n < 20 ∧ ∃ j, j < 64 ∧
        (v.wfmt = 13 ∧ v.esc = false ∧ code (20 * j + n) = 8 ∧ entry (20 * j + n) = none) := by
      refine (hflags 7).trans (exists_congr fun r => exists_congr fun n => and_congr_right fun hr => and_congr_right fun hn => ?_)
      rw [hblock, hflag r n 7 (hall r n hr hn) (by decide)]
      simp only [h1, h2, Bool.false_eq_true, false_and, or_false, true_and]
    rw [hmiss, exists_weight (P := fun p => v.wfmt = 13 ∧ v.esc = false ∧ code p = 8 ∧ entry p = none)]
    exact ⟨fun ⟨hm, p, hp, h13, he, h8, hno⟩ => ⟨hm, h13, he, p, hp, h8, hno⟩, fun ⟨hm, h13, he, p, hp, h8, hno⟩ => ⟨hm, p, hp, h13, he, h8, hno⟩⟩

theorem stochasticSumsDrawOnce_says : Says.StochasticSumsDrawOnce := by
  intro a lf s sat ha hs hbig x res hx
  have hnot : ¬ |FVal.number s| < (2 : ℚ) ^ (-126 : Int) := not_lt.mpr hbig
  obtain ⟨-, hround, -⟩ := addBlock_sum (rm := 4) (lf := lf) (sat := sat) ha hs
  have hsmall : ¬ (FVal.number s ≠ 0 ∧ |FVal.number s| < (2 : ℚ) ^ (-126 : Int)) := fun h => hnot h.2
  rw [if_neg hnot, if_neg hsmall] at hround
  obtain ⟨q, hq, hcase⟩ := hround le_rfl hx
  refine ⟨q, hq, ?_⟩
  by_cases hover : FVal.number (ffF32.val 0x7F7FFFFF) < |q|
  · rw [if_pos hover] at hcase ⊢
    exact hcase
  · rw [if_neg hover] at hcase ⊢
    obtain ⟨hv, -, hsign, -, hfl⟩ := hcase
    exact ⟨hv, hsign, hfl⟩

end Sys2Proof.Machine

open Sys2Proof Sys2Proof.Machine

/-- Settles O36: each position of a band takes its exact sum once, and an addition of the scaled path rounds once. -/
theorem ternarySumsAreExact : Obligations.TernarySumsAreExact :=
  ⟨ternarySumsAreExact_says, matrixSumsRoundOnce_says, stochasticSumsDrawOnce_says⟩
end

section
/-!
SUPPORT. What the ALU forms compute, word by word (R120 to R123).
-/

namespace Sys2Proof.Machine

open Sys2Proof

/-! ## Instructions that write one register -/

/-- A 4-byte instruction that writes g[d] gives the value under any of its names. -/
theorem Gives.write4 {i : Instr} {s : State} {d : Reg} {v w : Word} (he : exec i s = .next (s.write4 d v)) (hv : v = w) :
    Gives i s (SetsReg d w 4 s) := .of_eq he (hv ▸ setsReg_write4 s d v)

/-- A long form that writes g[d] gives the value under any of its names. -/
theorem Gives.write8 {i : Instr} {s : State} {d : Reg} {v w : Word} (he : exec i s = .next (s.write8 d v)) (hv : v = w) :
    Gives i s (SetsReg d w 8 s) := .of_eq he (hv ▸ setsReg_advance8 s d v)

section
variable (x y : Word)

/-! ## Sums, differences and products -/

theorem add_eq_ofNat : x + y = BitVec.ofNat 64 (x.toNat + y.toNat) := by simp [BitVec.ofNat_add]

theorem sub_eq_ofInt : x - y = BitVec.ofInt 64 (x.toNat - y.toNat) := by
  refine BitVec.eq_of_toNat_eq ?_
  have hx := x.isLt
  have hy := y.isLt
  rw [BitVec.toNat_sub, BitVec.toNat_ofInt]
  omega

theorem mul_eq_ofNat : x * y = BitVec.ofNat 64 (x.toNat * y.toNat) := by simp [BitVec.ofNat_mul]

theorem mulhS_eq : mulhS x y = BitVec.ofInt 64 (x.toInt * y.toInt / 2 ^ 64) := by
  refine BitVec.eq_of_toNat_eq ?_
  have hprod : x.signExtend 128 * y.signExtend 128 = BitVec.ofInt 128 (x.toInt * y.toInt) := by
    rw [BitVec.ofInt_mul]; rfl
  rw [mulhS, hprod, BitVec.extractLsb'_toNat, BitVec.toNat_ofInt, BitVec.toNat_ofInt, Nat.shiftRight_eq_div_pow]
  generalize x.toInt * y.toInt = p
  omega

theorem mulhU_eq : mulhU x y = BitVec.ofNat 64 (x.toNat * y.toNat / 2 ^ 64) := by
  refine BitVec.eq_of_toNat_eq ?_
  have hlt : x.toNat * y.toNat < 2 ^ 64 * 2 ^ 64 := Nat.mul_lt_mul'' x.isLt y.isLt
  have hx : x.toNat % 2 ^ 128 = x.toNat := Nat.mod_eq_of_lt (Nat.lt_trans x.isLt (by decide))
  have hy : y.toNat % 2 ^ 128 = y.toNat := Nat.mod_eq_of_lt (Nat.lt_trans y.isLt (by decide))
  rw [mulhU, BitVec.extractLsb'_toNat, BitVec.toNat_mul, BitVec.toNat_setWidth, BitVec.toNat_setWidth, hx, hy,
    Nat.mod_eq_of_lt (b := 2 ^ 128) hlt, Nat.shiftRight_eq_div_pow, BitVec.toNat_ofNat]

/-! ## Bits and shifts -/

theorem and_eq_ofNat : x &&& y = BitVec.ofNat 64 (Nat.land x.toNat y.toNat) :=
  ((BitVec.ofNat_toNat 64 (x &&& y)).trans (BitVec.setWidth_eq _)).symm

theorem or_eq_ofNat : x ||| y = BitVec.ofNat 64 (Nat.lor x.toNat y.toNat) :=
  ((BitVec.ofNat_toNat 64 (x ||| y)).trans (BitVec.setWidth_eq _)).symm

theorem xor_eq_ofNat : x ^^^ y = BitVec.ofNat 64 (Nat.xor x.toNat y.toNat) :=
  ((BitVec.ofNat_toNat 64 (x ^^^ y)).trans (BitVec.setWidth_eq _)).symm

theorem shiftLeft_eq_ofNat (k : Nat) : x <<< k = BitVec.ofNat 64 (x.toNat * 2 ^ k) := by
  refine BitVec.eq_of_toNat_eq ?_
  rw [BitVec.toNat_shiftLeft, Nat.shiftLeft_eq, BitVec.toNat_ofNat]

theorem shiftRight_eq_ofNat (k : Nat) : x >>> k = BitVec.ofNat 64 (x.toNat / 2 ^ k) := by
  refine BitVec.eq_of_toNat_eq ?_
  rw [BitVec.toNat_ushiftRight, Nat.shiftRight_eq_div_pow, BitVec.toNat_ofNat, Nat.mod_eq_of_lt (Nat.lt_of_le_of_lt (Nat.div_le_self ..) x.isLt)]

theorem sshiftRight_eq_ofInt (k : Nat) : x.sshiftRight k = BitVec.ofInt 64 (x.toInt / 2 ^ k) := by
  rw [BitVec.sshiftRight, Int.shiftRight_eq_div_pow, Nat.cast_pow, Nat.cast_ofNat]

theorem clz64_eq : clz64 x = if x = 0 then 64 else BitVec.ofNat 64 (63 - Nat.log2 x.toNat) := by
  have hzero : x.toNat = 0 ↔ x = 0 := by rw [← BitVec.toNat_inj]; rfl
  unfold clz64 bitLen w64
  by_cases h : x = 0
  · rw [if_pos h, if_pos (hzero.mpr h)]; rfl
  · rw [if_neg h, if_neg (mt hzero.mp h)]
    congr 1
    omega

theorem popc64_eq : popc64 x = BitVec.ofNat 64 ((List.range 64).filter (fun i => x.toNat.testBit i)).length := by
  rw [popc64, List.countP_eq_length_filter]; rfl

/-! ## Extensions -/

/-- The model's signed reading of low bits is that of the narrower word. -/
theorem signed_eq_toInt {w : Nat} (hw : w ≠ 0) : signed w x.toNat = (x.setWidth w).toInt := by
  obtain ⟨k, rfl⟩ := Nat.exists_eq_succ_of_ne_zero hw
  have hpow : (2 : Nat) ^ (k + 1) = 2 * 2 ^ k := Nat.pow_succ'
  simp only [signed, BitVec.toInt, BitVec.toNat_setWidth, Nat.succ_eq_add_one, Nat.add_sub_cancel]
  by_cases h : x.toNat % 2 ^ (k + 1) < 2 ^ k
  · rw [if_pos h, if_pos (by omega)]
  · rw [if_neg h, if_neg (by omega)]

theorem sx_setWidth {w : Nat} (hw : w ≠ 0) : sx (x.setWidth w) = BitVec.ofInt 64 (signed w x.toNat) := by
  rw [signed_eq_toInt x hw]; rfl

theorem zx_setWidth (w : Nat) : zx (x.setWidth w) = BitVec.ofNat 64 (x.toNat % 2 ^ w) := by
  rw [← BitVec.toNat_setWidth, BitVec.ofNat_toNat]; rfl

theorem sx_toInt {n : Nat} (h : n ≤ 64) (v : BitVec n) : (sx v).toInt = v.toInt := BitVec.toInt_signExtend_of_le h

theorem zx_toNat {n : Nat} (h : n ≤ 64) (v : BitVec n) : (zx v).toNat = v.toNat := by
  rw [zx, BitVec.toNat_setWidth, Nat.mod_eq_of_lt (Nat.lt_of_lt_of_le v.isLt (Nat.pow_le_pow_right (by decide) h))]

theorem add_sx_eq {n : Nat} (v : BitVec n) : x + sx v = BitVec.ofInt 64 (x.toInt + v.toInt) := by
  rw [BitVec.ofInt_add, BitVec.ofInt_toInt]; rfl

/-! ## Comparisons -/

theorem truth_slt : truth (x.slt y) = if x.toInt < y.toInt then 1 else 0 := by simp [truth, BitVec.slt_eq_decide]

theorem truth_ult : truth (x.ult y) = if x.toNat < y.toNat then 1 else 0 := by simp [truth, BitVec.ult_eq_decide]

theorem ite_slt (p q : Word) : (if x.slt y then p else q) = if x.toInt < y.toInt then p else q := by simp [BitVec.slt_eq_decide]

theorem ite_ult (p q : Word) : (if x.ult y then p else q) = if x.toNat < y.toNat then p else q := by simp [BitVec.ult_eq_decide]

/-! ## Division (R121) -/

theorem toInt_ne_zero (h : x ≠ 0) : x.toInt ≠ 0 := fun h0 => h (BitVec.eq_of_toInt_eq h0)

theorem divS_eq : divS x y =
    if y = 0 then (if x = 0 then 0 else if 0 < x.toInt then 0x7FFFFFFFFFFFFFFF else 0x8000000000000000)
    else if x = 0x8000000000000000 ∧ y = 0xFFFFFFFFFFFFFFFF then 0x7FFFFFFFFFFFFFFF
    else BitVec.ofInt 64 (x.toInt.tdiv y.toInt) := by
  unfold divS
  by_cases hy : y = 0
  · rw [if_pos hy, if_pos hy]
    by_cases hx : x = 0
    · rw [if_pos hx, if_pos hx]
    · have := toInt_ne_zero x hx
      rw [if_neg hx, if_neg hx]
      by_cases hneg : x.toInt < 0
      · rw [if_pos hneg, if_neg (by omega)]; decide
      · rw [if_neg hneg, if_pos (by omega)]; decide
  · rw [if_neg hy, if_neg hy]
    refine if_congr Iff.rfl rfl (BitVec.eq_of_toInt_eq ?_)
    rw [BitVec.toInt_sdiv, BitVec.toInt_ofInt]

theorem divU_eq : divU x y =
    if y = 0 then (if x = 0 then 0 else 0xFFFFFFFFFFFFFFFF) else BitVec.ofNat 64 (x.toNat / y.toNat) := by
  refine if_congr Iff.rfl (if_congr Iff.rfl rfl rfl) (BitVec.eq_of_toNat_eq ?_)
  rw [BitVec.udiv_eq, BitVec.toNat_udiv, BitVec.toNat_ofNat, Nat.mod_eq_of_lt (Nat.lt_of_le_of_lt (Nat.div_le_self ..) x.isLt)]

theorem remS_eq : remS x y =
    if y = 0 ∨ (x = 0x8000000000000000 ∧ y = 0xFFFFFFFFFFFFFFFF) then 0 else BitVec.ofInt 64 (x.toInt.tmod y.toInt) := by
  have hrem : x.srem y = BitVec.ofInt 64 (x.toInt.tmod y.toInt) := by rw [← BitVec.toInt_srem, BitVec.ofInt_toInt]
  unfold remS
  rw [hrem]
  by_cases hy : y = 0
  · rw [if_pos hy, if_pos (.inl hy)]
  · rw [if_neg hy]
    exact if_congr (or_iff_right hy).symm rfl rfl

theorem remU_eq : remU x y = if y = 0 then 0 else BitVec.ofNat 64 (x.toNat % y.toNat) := by
  refine if_congr Iff.rfl rfl (BitVec.eq_of_toNat_eq ?_)
  rw [BitVec.umod_eq, BitVec.toNat_umod, BitVec.toNat_ofNat, Nat.mod_eq_of_lt (Nat.lt_of_le_of_lt (Nat.mod_le ..) x.isLt)]

end

/-! ## The instructions -/

theorem aluRegisterForms_says : Says.AluRegisterForms := by
  intro s d a b x y k
  exact ⟨.write4 rfl (add_eq_ofNat x y), .write4 rfl (sub_eq_ofInt x y), .write4 rfl (mul_eq_ofNat x y), .write4 rfl (mulhS_eq x y),
    .write4 rfl (mulhU_eq x y), .write4 rfl (and_eq_ofNat x y), .write4 rfl (or_eq_ofNat x y), .write4 rfl (xor_eq_ofNat x y),
    .write4 rfl (shiftLeft_eq_ofNat x k), .write4 rfl (shiftRight_eq_ofNat x k), .write4 rfl (sshiftRight_eq_ofInt x k),
    .write4 rfl (truth_slt x y), .write4 rfl (truth_ult x y), .write4 rfl (ite_slt x y x y), .write4 rfl (ite_slt x y y x),
    .write4 rfl (ite_ult x y x y), .write4 rfl (ite_ult x y y x)⟩

theorem aluUnaryForms_says : Says.AluUnaryForms := by
  intro s d a x
  exact ⟨.write4 rfl (clz64_eq x), .write4 rfl (popc64_eq x), .write4 rfl (sx_setWidth x (by decide)), .write4 rfl (sx_setWidth x (by decide)),
    .write4 rfl (sx_setWidth x (by decide)), .write4 rfl (zx_setWidth x 8), .write4 rfl (zx_setWidth x 16), .write4 rfl (zx_setWidth x 32)⟩

/-- The two halves of LI.H stand side by side. -/
theorem lih_eq (w : BitVec 32) (v : Word) : zx w <<< 32 ||| zx (v.setWidth 32) = BitVec.ofNat 64 (w.toNat * 2 ^ 32 + v.toNat % 2 ^ 32) := by
  refine BitVec.eq_of_toNat_eq ?_
  have hw := w.isLt
  have hlow : v.toNat % 2 ^ 32 < 2 ^ 32 := Nat.mod_lt _ (by decide)
  have hhigh : w.toNat <<< 32 % 2 ^ 64 = w.toNat <<< 32 := by rw [Nat.shiftLeft_eq]; omega
  rw [BitVec.toNat_or, BitVec.toNat_shiftLeft, zx_toNat (by decide), zx_toNat (by decide), BitVec.toNat_setWidth, hhigh,
    ← Nat.shiftLeft_add_eq_or_of_lt hlow, Nat.shiftLeft_eq, BitVec.toNat_ofNat]
  omega

theorem immediateForms_says : Says.ImmediateForms := by
  intro s d a imm sh w x
  have hslt : truth (x.slt (sx imm)) = if x.toInt < imm.toInt then 1 else 0 := by rw [truth_slt, sx_toInt (by decide)]
  exact ⟨.write4 rfl (add_sx_eq x imm), .write4 rfl (by rw [and_eq_ofNat, zx_toNat (by decide)]), .write4 rfl (by rw [or_eq_ofNat, zx_toNat (by decide)]),
    .write4 rfl (by rw [xor_eq_ofNat, zx_toNat (by decide)]), .write4 rfl hslt, .write4 rfl (shiftLeft_eq_ofNat x _),
    .write4 rfl (shiftRight_eq_ofNat x _), .write4 rfl (sshiftRight_eq_ofInt x _), .write8 rfl rfl, .write8 rfl (lih_eq w (s.g d)),
    .write8 rfl (add_sx_eq x w), .write8 rfl (by rw [and_eq_ofNat, zx_toNat (by decide)]), .write8 rfl (by rw [or_eq_ofNat, zx_toNat (by decide)]),
    .write8 rfl (by rw [xor_eq_ofNat, zx_toNat (by decide)])⟩

end Sys2Proof.Machine

open Sys2Proof Sys2Proof.Machine

/-- Settles O1: each form writes one register, and the word that it writes is the exact result's low bits. -/
theorem aluRegisterForms : Obligations.AluRegisterForms := ⟨aluRegisterForms_says, aluUnaryForms_says⟩

/-- Settles O2: the quotient that would not fit is one of the two cases that the forms test for. -/
theorem divisionSaturates : Obligations.DivisionSaturates := by
  intro s d a b x y
  exact ⟨.write4 rfl (divS_eq x y), .write4 rfl (divU_eq x y), .write4 rfl (remS_eq x y), .write4 rfl (remU_eq x y)⟩

/-- Settles O3: an immediate stands for the word that it extends to. -/
theorem immediateForms : Obligations.ImmediateForms := immediateForms_says
end

section
/-!
SUPPORT. Branches, jumps, REP and the end of a pass (R124 to R128, R145, R146).
-/

namespace Sys2Proof.Machine

open Sys2Proof

/-! ## Branches and jumps (R124, R125) -/

theorem add_sx4_eq {n : Nat} (pc : Word) (off : BitVec n) : pc + sx4 off = BitVec.ofInt 64 (pc.toInt + 4 * off.toInt) := by
  rw [BitVec.ofInt_add, BitVec.ofInt_toInt, Int.mul_comm, BitVec.ofInt_mul]; rfl

/-- A branch goes where its comparison says, under any name of the comparison. -/
theorem branch_jumps {i : Instr} {s : State} {off : BitVec 16} {c c' : Bool} (he : exec i s = branch c off s) (hc : c = c') :
    Gives i s (JumpsTo (if c' then BitVec.ofInt 64 (s.th.pc.toInt + 4 * off.toInt) else s.th.pc + 4) s) := by
  subst hc
  refine .of_eq he ?_
  cases c with
  | true => rw [if_pos rfl, if_pos rfl, add_sx4_eq]; exact jumpsTo_setPc ..
  | false => exact jumpsTo_setPc ..

theorem conditionalBranches_says : Says.ConditionalBranches := by
  intro s a b off x y target
  have heq : (x == y) = decide (x.toNat = y.toNat) := by
    rw [Bool.eq_iff_iff, beq_iff_eq, decide_eq_true_iff, BitVec.toNat_inj]
  refine ⟨branch_jumps rfl heq, branch_jumps rfl ?_, branch_jumps rfl BitVec.slt_eq_decide, branch_jumps rfl ?_,
    branch_jumps rfl BitVec.ult_eq_decide, branch_jumps rfl ?_⟩
  · rw [bne, heq, decide_not]
  · rw [BitVec.slt_eq_decide, ← decide_not, decide_eq_decide, Int.not_lt]
  · rw [BitVec.ult_eq_decide, ← decide_not, decide_eq_decide, Nat.not_lt]

/-- Writing a register and jumping does just that. -/
theorem linked_jump (s : State) (d : Reg) (v pc : Word) : RegsSet d v s ((s.setG d v).setPc pc) ∧ ((s.setG d v).setPc pc).th.pc = pc ∧
    MachineKept s ((s.setG d v).setPc pc) ∧ ThreadKept s ((s.setG d v).setPc pc) := by
  refine ⟨fun r => s.g_setG d r v, rfl, ?_, ?_⟩
  · unfold MachineKept State.setPc State.setG
    split <;> rfl
  · unfold ThreadKept State.setPc State.setG
    split <;> rfl

theorem jumpsAndLinks_says : Says.JumpsAndLinks := by
  intro s d a off imm w
  refine ⟨.of_eq rfl ?_, .of_eq rfl ?_, fun ht => ?_, fun ht => ?_⟩
  · rw [← add_sx4_eq]; exact linked_jump ..
  · rw [← add_sx4_eq]; exact linked_jump ..
  · rw [← add_sx_eq] at ht ⊢
    exact .of_eq (t := (s.setG d (s.th.pc + 4)).setPc (s.g a + sx imm)) (if_neg (not_not.mpr ht)) (linked_jump ..)
  · rw [← add_sx_eq] at ht ⊢
    exact .of_eq (if_pos ht) rfl

/-! ## REP (R126, R128) -/

theorem rep_stop (pc : Word) (len : BitVec 16) : pc + 4 + zx len * 4 = BitVec.ofNat 64 (pc.toNat + 4 + 4 * len.toNat) := by
  refine BitVec.eq_of_toNat_eq ?_
  rw [BitVec.toNat_add, BitVec.toNat_add, BitVec.toNat_mul, zx_toNat (by decide), BitVec.toNat_ofNat]
  show ((pc.toNat + 4) % 2 ^ 64 + len.toNat * 4 % 2 ^ 64) % 2 ^ 64 = _
  omega

theorem repStartsALoop_says : Says.RepStartsALoop := by
  intro s a len illegal start stop
  refine ⟨fun h => .of_eq (if_pos h) (illop_eq s), fun h h0 => ?_, fun h h0 => ?_⟩
  · refine .of_eq (t := s.setPc stop) ?_ (jumpsTo_setPc ..)
    show execRep a len s = _
    simp only [execRep, illegal, stop] at h ⊢
    rw [if_neg h, if_pos h0, rep_stop]
  · refine .of_eq ?_ rfl
    show execRep a len s = _
    simp only [execRep, illegal, stop, start] at h ⊢
    rw [if_neg h, if_neg h0, rep_stop]

/-! ## The end of a pass (R127) -/

/-- The registers of a continuation after a write. -/
theorem State.setG_thread (s : State) (r : Reg) (v : Word) : (s.setG r v).th = s.th.setG r v := by
  unfold State.setG Thread.setG
  split <;> rfl

theorem Thread.g_setG_self (t : Thread) (r : Reg) (v : Word) : (t.setG r v).g r = if r = 0 then 0 else v := by
  unfold Thread.g Thread.setG
  by_cases hr : r = 0
  · simp [hr]
  · simp [hr]

section
variable {t : Thread}

theorem Thread.loopEnd_inactive (h : t.loop.active = false) : t.loopEnd = t := by simp [Thread.loopEnd, h]

/-- At END the loop ends where its register has come to 0. -/
theorem Thread.loopEnd_last (h : t.loop.active = true) (hpc : t.pc = t.loop.stop) (h0 : t.g t.loop.reg - 1 = 0 ∨ t.loop.reg = 0) :
    t.loopEnd = { t with regs := (t.setG t.loop.reg (t.g t.loop.reg - 1)).regs, loop := { t.loop with active := false } } := by
  have hz : (t.setG t.loop.reg (t.g t.loop.reg - 1)).g t.loop.reg = 0 := by
    rw [Thread.g_setG_self]
    by_cases hr : t.loop.reg = 0
    · rw [if_pos hr]
    · rw [if_neg hr]; exact h0.resolve_right hr
  simp only [Thread.loopEnd, h, Bool.not_true, Bool.false_eq_true, if_false, if_pos hpc, if_pos hz]
  unfold Thread.setG
  split <;> rfl

/-- At END the loop goes on at START while its register has not come to 0. -/
theorem Thread.loopEnd_again (h : t.loop.active = true) (hpc : t.pc = t.loop.stop) (h0 : t.g t.loop.reg - 1 ≠ 0) (hr : t.loop.reg ≠ 0) :
    t.loopEnd = { t with regs := (t.setG t.loop.reg (t.g t.loop.reg - 1)).regs, pc := t.loop.start, noBreak := false } := by
  have hz : (t.setG t.loop.reg (t.g t.loop.reg - 1)).g t.loop.reg ≠ 0 := by rw [Thread.g_setG_self, if_neg hr]; exact h0
  simp only [Thread.loopEnd, h, Bool.not_true, Bool.false_eq_true, if_false, if_pos hpc, if_neg hz]
  unfold Thread.setG
  split <;> rfl

theorem Thread.loopEnd_outside (h : t.loop.active = true) (hpc : t.pc ≠ t.loop.stop)
    (hout : t.pc.toNat < t.loop.start.toNat ∨ t.loop.stop.toNat < t.pc.toNat) : t.loopEnd = { t with loop := { t.loop with active := false } } := by
  simp only [Thread.loopEnd, h, Bool.not_true, Bool.false_eq_true, if_false, if_neg hpc, if_pos hout]

theorem Thread.loopEnd_inside (h : t.loop.active = true) (hpc : t.pc ≠ t.loop.stop) (hlo : t.loop.start.toNat ≤ t.pc.toNat)
    (hhi : t.pc.toNat ≤ t.loop.stop.toNat) : t.loopEnd = t := by
  have hin : ¬(t.pc.toNat < t.loop.start.toNat ∨ t.loop.stop.toNat < t.pc.toNat) := by omega
  simp only [Thread.loopEnd, h, Bool.not_true, Bool.false_eq_true, if_false, if_neg hpc, if_neg hin]

end

/-- The end of a pass empties the buffers only where a CINVAL waits for it, and changes nothing but buffers. -/
theorem endPass_spec (before : Thread) (s : State) : endPass before s = { s with cores := (endPass before s).cores } ∧
    ((s.coreAt s.core).stale = false → (endPass before s).cores = s.cores) := by
  unfold endPass
  split
  next h => exact ⟨rfl, fun hs => by simp [hs] at h⟩
  · exact ⟨rfl, fun _ => rfl⟩

/-- Registers are read off the executing continuation. -/
theorem RegsSet.of_thread {s t : State} {d : Reg} {v : Word} (h : t.th.regs = (s.th.setG d v).regs) : RegsSet d v s t := by
  intro r
  rw [← s.g_setG d r v]
  unfold State.g
  rw [State.setG_thread, h]

theorem loopEndOfPass_says : Says.LoopEndOfPass := by
  intro s lp n v
  obtain ⟨hframe, hcores⟩ := endPass_spec s.th (loopEnd s)
  have hth : (endPass s.th (loopEnd s)).th = s.th.loopEnd := (congrArg State.th hframe).trans rfl
  refine ⟨_, rfl, ?_, hcores, ?_⟩
  · conv_lhs => rw [hframe]
    rw [hth]; rfl
  rw [hth]
  refine ⟨Thread.loopEnd_inactive, fun ha hn => ?_, fun ha hn hout => Thread.loopEnd_outside ha hn hout,
    fun ha hn hlo hhi => Thread.loopEnd_inside ha hn hlo hhi⟩
  by_cases h0 : v = 0 ∨ lp.reg = 0
  · have hend := Thread.loopEnd_last ha hn h0
    rw [hend]
    exact ⟨.of_thread (by rw [hth, hend]; rfl), rfl, fun _ => ⟨rfl, rfl, rfl⟩, fun hv hr => absurd h0 (not_or.mpr ⟨hv, hr⟩)⟩
  · obtain ⟨hv, hr⟩ := not_or.mp h0
    have hend := Thread.loopEnd_again ha hn hv hr
    rw [hend]
    exact ⟨.of_thread (by rw [hth, hend]; rfl), rfl, fun h => absurd h h0, fun _ _ => ⟨rfl, rfl, rfl⟩⟩

end Sys2Proof.Machine

open Sys2Proof Sys2Proof.Machine

/-- Settles O4: offsets count words from the branch, and a jump links before it leaves. -/
theorem branchesAndJumps : Obligations.BranchesAndJumps := ⟨conditionalBranches_says, jumpsAndLinks_says⟩

/-- Settles O5: the three outcomes of REP are the branches of its definition. -/
theorem repStartsALoop : Obligations.RepStartsALoop := repStartsALoop_says

/-- Settles O6: the check is that of the continuation, with the buffers that a waiting CINVAL empties. -/
theorem loopEndOfPass : Obligations.LoopEndOfPass := loopEndOfPass_says
end

section
/-!
SUPPORT. Traps, the return from them and their records (R118, R142, R143, R323 to R326), and the system reads (R146, R147, R184).
-/

namespace Sys2Proof.Machine

open Sys2Proof

/-! ## Trap entry (R118) -/

section
variable {s : State} {cause : Nat}

/-- Only MEMERR makes a replica location fail before the entry. -/
theorem trapAt_eq_entry (h : cause ≠ cMEMERR) (val resume : Word) (ex : Nat) : trapAt cause val resume ex s = trapEntry cause val resume ex s := by
  rw [trapAt, if_neg h]

theorem trapEntry_handled (hin : s.th.inTrap = false) (hvec : s.th.trapVec ≠ 0) (cause : Nat) (val resume : Word) (ex : Nat) :
    trapEntry cause val resume ex s = { s with th := { s.th with
      trapPc := resume, trapCause := BitVec.ofNat 64 cause, trapVal := val, expStep := BitVec.ofNat 64 ex, inTrap := true,
      heldLoop := s.th.loop, loop := { s.th.loop with active := false }, noBreak := false, pc := s.th.trapVec } } := by
  rw [trapEntry, if_neg (not_or.mpr ⟨by simp [hin], hvec⟩)]; rfl

theorem trapEntry_halts (h : s.th.inTrap = true ∨ s.th.trapVec = 0) {l : Nat} (hl : s.th.launch = some l) (cause : Nat) (val resume : Word)
    (ex : Nat) : trapEntry cause val resume ex s = haltByTrap l cause val s := by
  simp only [trapEntry, if_pos h, hl]

theorem trapEntry_stops (h : s.th.inTrap = true ∨ s.th.trapVec = 0) (hl : s.th.launch = none) (cause : Nat) (val resume : Word) (ex : Nat) :
    trapEntry cause val resume ex s = stopManagement s := by
  simp only [trapEntry, if_pos h, hl]

end

theorem trapEntry_says : Says.TrapEntry := by
  intro s cause exp val resume hc
  simp only [trapAt_eq_entry hc]
  refine ⟨fun hin hvec => trapEntry_handled hin hvec .., fun h l hl => trapEntry_halts h hl .., fun h hl => ?_⟩
  rw [trapEntry_stops h hl]
  exact ⟨rfl, congrArg Core.running (State.coreAt_setRunning_self ..)⟩

/-! ## Device writes (R277, R324) -/

theorem wordBytes_length (ws : List Word) : (wordBytes ws).length = 8 * ws.length := by
  induction ws with
  | nil => rfl
  | cons w ws ih =>
    rw [wordBytes, List.flatMap_cons, List.length_append, ← wordBytes, ih, leBytes_length, List.length_cons]
    omega

/-- A write fails only where an error stands or a die is lost. -/
theorem writeFails_mono {s t : State} {pa n : Nat} (herr : ∀ e ∈ t.errors, e ∈ s.errors) (hio : t.io = s.io) (h : writeFails s pa n = false) :
    writeFails t pa n = false := by
  unfold writeFails dieLost at *
  rw [hio]
  by_cases hn : n = 0
  · simp [hn]
  · simp only [if_neg hn, Bool.or_eq_false_iff, List.any_eq_false, Bool.and_eq_true, List.contains_iff_mem] at h ⊢
    exact ⟨h.1, fun u hu hbad => h.2 u hu ⟨herr _ hbad.1, hbad.2⟩⟩

/-- A write leaves no error that did not stand before. -/
theorem pokeWith_errors {l p pa : Nat} {v : View} {bs : List Byte} {s : State} {e : Nat × Nat} (h : e ∈ (pokeWith l p v pa bs s).errors) :
    e ∈ s.errors := by
  unfold pokeWith at h
  dsimp only at h
  split at h
  · exact h
  · exact (List.mem_filter.mp h).1

section
variable {s : State} {pa : Nat} {bs : List Byte}

theorem pokeOk_eq (h : writeFails s pa bs.length = false) (l p : Nat) : pokeOk l p pa bs s = some (poke l p pa bs s) := by
  rw [pokeOk, h]; rfl

theorem devWrite_eq (h : writeFails s pa bs.length = false) : devWrite pa bs s = poke 0 0 pa bs s := by
  rw [devWrite, pokeOk_eq h]

/-- What the device writes stands as given: no fault slot guards against it. -/
theorem devWrite_read (hinv : s.Inv) (h : writeFails s pa bs.length = false) (a : Nat) :
    (devWrite pa bs s).mem.read a = if pa ≤ a ∧ a < pa + bs.length then nth bs (a - pa) 0 else s.mem.read a := by
  rw [devWrite_eq h, poke_read hinv, guardBytes_length]
  refine if_congr ⟨fun h => ⟨h.1, h.2.1⟩, fun h => ⟨h.1, h.2, ?_⟩⟩ rfl rfl
  rintro rfl
  simp at h
  omega

theorem devWrite_frame (pa : Nat) (bs : List Byte) (s : State) : devWrite pa bs s = { s with
    mem := (devWrite pa bs s).mem
    writes := (devWrite pa bs s).writes
    writeSeq := (devWrite pa bs s).writeSeq
    errors := (devWrite pa bs s).errors
    releases := (devWrite pa bs s).releases } := by
  unfold devWrite pokeOk
  split
  next hok =>
    split at hok <;> cases hok
    exact poke_frame ..
  · rfl

theorem devWrite_launches : (devWrite pa bs s).launches = s.launches := (congrArg State.launches (devWrite_frame ..)).trans rfl

theorem devWrite_io : (devWrite pa bs s).io = s.io := (congrArg State.io (devWrite_frame ..)).trans rfl

theorem devWrite_runs : (devWrite pa bs s).runs = s.runs := (congrArg State.runs (devWrite_frame ..)).trans rfl

end

/-! ## Trap records (R323 to R325) -/

theorem State.mapLaunch_of_find {s : State} {l : Nat} {v : Launch} (h : Table.find l s.launches = some v) (f : Launch → Launch) :
    s.mapLaunch l f = s.setLaunch l (f v) := by
  simp only [State.mapLaunch, h]

theorem Launch.die_setDie (v : Launch) (d : Nat) (x : LaunchDie) : (v.setDie d x).die d = x := Table.getD_set_self ..

/-- A trap record of 64 bytes stands in the service area of a die of a launch, in the place that the count of records gives, and the count stands there
risen by one (R324). -/
def RecordStands (l die : Nat) (v : Launch) (ws : List Word) (s t : State) : Prop :=
  let ld := v.die die
  let at_ := svcPa ld (0xC00 + 64 * (ld.trcount % 64))
  let cnt := svcPa ld 0xA00
  ws.length = 8 → writeFails s at_ 64 = false → writeFails s cnt 8 = false → at_ + 64 ≤ cnt ∨ cnt + 8 ≤ at_ →
    (∀ a, t.mem.read a = if at_ ≤ a ∧ a < at_ + 64 then nth (wordBytes ws) (a - at_) 0
      else if cnt ≤ a ∧ a < cnt + 8 then nth (leBytes 8 (ld.trcount + 1)) (a - cnt) 0 else s.mem.read a) ∧
    ∃ w, Table.find l t.launches = some w ∧ (w.die die).trcount = ld.trcount + 1

/-- Nothing but memory and launches matters of the state after. -/
theorem RecordStands.congr {l die : Nat} {v : Launch} {ws : List Word} {s t u : State} (h : RecordStands l die v ws s t) (hm : u.mem = t.mem)
    (hl : u.launches = t.launches) : RecordStands l die v ws s u := by
  unfold RecordStands at *
  rw [hm, hl]
  exact h

section
variable {s : State} {l : Nat} {v : Launch}

theorem writeTrapRecord_eq (hl : Table.find l s.launches = some v) (die : Nat) (ws : List Word) : writeTrapRecord l die ws s =
    (devWrite (svcPa (v.die die) 0xA00) (leBytes 8 ((v.die die).trcount + 1))
      (devWrite (svcPa (v.die die) (0xC00 + 64 * ((v.die die).trcount % 64))) (wordBytes ws) s)).setLaunch l
      (v.setDie die { v.die die with trcount := (v.die die).trcount + 1 }) := by
  simp only [writeTrapRecord, hl]
  rw [State.mapDie, State.mapLaunch_of_find]
  rw [devWrite_launches, devWrite_launches, hl]

/-- The record is written first and the count after it, in another place. -/
theorem writeTrapRecord_stands (hinv : s.Inv) (hl : Table.find l s.launches = some v) (die : Nat) (ws : List Word) :
    RecordStands l die v ws s (writeTrapRecord l die ws s) := by
  unfold RecordStands
  intro ld at_ cnt hlen hat hcnt hapart
  have hbytes : (wordBytes ws).length = 64 := by rw [wordBytes_length, hlen]
  have hat' : writeFails s at_ (wordBytes ws).length = false := by rw [hbytes]; exact hat
  have hcnt' : writeFails (devWrite at_ (wordBytes ws) s) cnt (leBytes 8 (ld.trcount + 1)).length = false := by
    rw [leBytes_length]
    refine writeFails_mono (fun e he => ?_) devWrite_io hcnt
    rw [devWrite_eq hat'] at he
    exact pokeWith_errors he
  rw [writeTrapRecord_eq hl]
  refine ⟨fun a => ?_, _, Table.find_set_self .., congrArg LaunchDie.trcount (Launch.die_setDie ..)⟩
  rw [State.setLaunch_mem, devWrite_read (devWrite_wf hinv ..) hcnt', devWrite_read hinv hat', hbytes, leBytes_length]
  by_cases hin : at_ ≤ a ∧ a < at_ + 64
  · rw [if_pos hin, if_pos hin, if_neg (by omega)]
  · rw [if_neg hin, if_neg hin]

theorem writeTrapRecord_launch (hl : Table.find l s.launches = some v) (die : Nat) (ws : List Word) :
    Table.find l (writeTrapRecord l die ws s).launches = some (v.setDie die { v.die die with trcount := (v.die die).trcount + 1 }) := by
  rw [writeTrapRecord_eq hl]
  exact Table.find_set_self ..

theorem writeTrapRecord_runs (hl : Table.find l s.launches = some v) (die : Nat) (ws : List Word) : (writeTrapRecord l die ws s).runs = s.runs := by
  rw [writeTrapRecord_eq hl, State.setLaunch_runs, devWrite_runs, devWrite_runs]

end

theorem State.mapElem_frame (s : State) (x e : Nat) (f : Elem → Elem) : s.mapElem x e f = { s with stripes := (s.mapElem x e f).stripes } := by
  unfold State.mapElem
  split <;> rfl

theorem State.mapOper_frame (s : State) (x o : Nat) (f : Oper → Oper) : s.mapOper x o f = { s with stripes := (s.mapOper x o f).stripes } := by
  unfold State.mapOper
  split <;> rfl

/-- Where a launch is not held for its traps, a fabric trap leaves the record, the run that is asked to halt, and a mark in a stripe. -/
theorem runTrap_leaves {s : State} {rid : Nat} {r : Run} {v : Launch} (hl : Table.find r.launch s.launches = some v) (hrun : Table.find rid s.runs = some r)
    (hold : v.trapHold = false) (x agent slot tag cause : Nat) (addr : Word) (toks : List Token) :
    let u := writeTrapRecord r.launch r.die (fabricRecord s r x agent slot tag cause addr toks) s
    let t := runTrap rid r x agent slot tag cause addr toks s
    t.mem = u.mem ∧ t.launches = u.launches ∧ Table.find rid t.runs = some (r.trapped cause) := by
  intro u t
  have hmarked : ∃ w, t = { u.mapRun rid (fun q => q.trapped cause) with stripes := w } := by
    have hfind := writeTrapRecord_launch hl r.die (fabricRecord s r x agent slot tag cause addr toks)
    have hkeep : ∀ q : State, Table.find r.launch q.launches = Table.find r.launch u.launches →
        (match Table.find r.launch q.launches with
        | some w => if w.trapHold then haltLaunchAs r.launch cause true q else q
        | none => q) = q := fun q hq => by
      rw [hq, hfind]
      exact if_neg (by rw [show (v.setDie r.die _).trapHold = v.trapHold from rfl, hold]; decide)
    have hlaunches : (u.mapRun rid (fun q => q.trapped cause)).launches = u.launches := by
      unfold State.mapRun
      split <;> rfl
    by_cases ha : agent < 16
    · refine ⟨((u.mapRun rid (fun q => q.trapped cause)).mapElem x agent (fun e => { e with faulted := some cause })).stripes, ?_⟩
      rw [← State.mapElem_frame]
      show runTrap rid r x agent slot tag cause addr toks s = _
      simp only [runTrap, if_pos ha]
      exact hkeep _ (by rw [State.mapElem_frame]; exact congrArg _ hlaunches)
    · refine ⟨((u.mapRun rid (fun q => q.trapped cause)).mapOper x (agent - 16) (fun e => { e with faulted := some cause })).stripes, ?_⟩
      rw [← State.mapOper_frame]
      show runTrap rid r x agent slot tag cause addr toks s = _
      simp only [runTrap, if_neg ha]
      exact hkeep _ (by rw [State.mapOper_frame]; exact congrArg _ hlaunches)
  have hmap : u.mapRun rid (fun q => q.trapped cause) = u.setRun rid (r.trapped cause) := by
    simp only [State.mapRun, u, writeTrapRecord_runs hl, hrun]
  obtain ⟨w, hw⟩ := hmarked
  rw [hw, hmap]
  exact ⟨rfl, rfl, Table.find_set_self ..⟩

theorem trapsAreRecorded_says : Says.TrapsAreRecorded := by
  intro s l v hinv hl word recorded
  constructor
  · intro x agent slot tag cause addr toks rid r hrun hfind hlaunch hold t
    subst hlaunch
    have ht : t = runTrap rid r x agent slot tag cause addr toks s := by simp only [t, fabricTrap, hrun]
    obtain ⟨hmem, hlaunches, hrid⟩ := runTrap_leaves hl hfind hold x agent slot tag cause addr toks
    rw [ht]
    have hstands := (writeTrapRecord_stands hinv hl r.die (fabricRecord s r x agent slot tag cause addr toks)).congr hmem hlaunches
    have hwords : ∀ i, tokenWords toks i = [(toks[i]?.map (·.value)).getD 0, (toks[i]?.map (·.high)).getD 0] := fun i => by
      unfold tokenWords
      cases toks[i]? <;> rfl
    simp only [fabricRecord, hwords] at hstands
    refine ⟨hstands, _, hrid, fun hnone => ?_, rfl⟩
    simp only [Run.trapped, hnone]
  · intro cause val
    refine ⟨_, ?_, writeTrapRecord_stands hinv hl s.th.die _⟩
    simp only [haltByTrap, hl]
    rfl

/-! ## TRAP, BRK and RFT (R142, R143) -/

theorem trapAndReturn_says : Says.TrapAndReturn := by
  intro s code
  refine ⟨.of_eq rfl ?_, .of_eq rfl rfl, fun h => .of_eq rfl ?_, fun h hpc => .of_eq rfl ?_, fun h hpc l hl => .of_eq rfl ?_⟩
  · rw [BitVec.ofNat_toNat]; rfl
  · rw [returnFromTrap, if_pos h, illop_eq]; rfl
  · rw [returnFromTrap, if_neg (by simp [h]), if_neg (not_not.mpr hpc)]
  · simp only [returnFromTrap, h, Bool.true_eq_false, if_false, if_pos hpc, hl]

/-! ## System reads (R142, R146, R147, R184) -/

/-- CINVAL waits for a pass to end inside a body, and empties the buffers outside one. -/
theorem cinval_buffers {s : State} (hst : storesPending s s.th.id none = false) (hsig : signalsPending s s.th.id = false) :
    Gives .cinval s (fun t => t.th = { s.th with pc := s.th.pc + 4 } ∧ t.coreAt s.core = (if s.th.loop.active then { s.coreAt s.core with stale := true }
      else { s.coreAt s.core with fetched := [], body := [], stale := false }) ∧ t = { s with th := t.th, cores := t.cores }) := by
  have hexec : exec .cinval s = if s.th.loop.active then
      .next ({ s with cores := Table.set s.core { s.coreAt s.core with stale := true } s.cores }.advance 4)
      else .next ((emptyBuffers s.core s).advance 4) := by
    show execCinval s = _
    simp only [execCinval, hst, hsig, Bool.or_self, Bool.false_eq_true, if_false]
  cases hloop : s.th.loop.active with
  | true => exact .of_eq (hexec.trans (if_pos hloop)) ⟨rfl, Table.getD_set_self .., rfl⟩
  | false => exact .of_eq (hexec.trans (if_neg (by simp [hloop]))) ⟨rfl, Table.getD_set_self .., rfl⟩

/-- ENRD reads an available ring as R184 numbers its quantities. -/
theorem energyOf_reads {s : State} {r sel : Nat} (d : Reg) (hr : r ≤ 31) (hs : sel ≠ 3) : energyOf d r sel s = .next (s.write4 d (energyRead s r sel)) :=
  if_neg (by omega)

theorem enrd_reads {s : State} (hc : s.core < 64) (d : Reg) {sel : BitVec 2} (hs : sel ≠ 3) :
    exec (.enrd d sel) s = .next (s.write4 d (energyRead s (s.core / 2) sel.toNat)) := by
  have hm : s.mgmt = false := decide_eq_false (by omega)
  show energyOf d (if s.mgmt then 0 else coreRing s.core) sel.toNat s = _
  rw [hm]
  exact energyOf_reads d (show s.core / 2 ≤ 31 by omega) fun h => hs (BitVec.eq_of_toNat_eq h)

theorem featWord_reads {s : State} {a : Reg} (hc : s.core < 64) (ha : (s.g a).toNat ≤ 3) (d : Reg) (set : List Word) :
    featWord d a set s = .next (s.write4 d (nth set (s.g a).toNat 0)) := by
  have hm : s.mgmt = false := decide_eq_false (by omega)
  rw [featWord, launchOnly, hm, if_neg (by decide), if_neg (by omega)]

/-- Only word 0 of the offer has bits. -/
theorem featOffer_word {v : Word} (h : v.toNat ≤ 3) : nth Config.featOffer v.toNat 0 = if v = 0 then 0x3F else 0 := by
  have hz : v = 0 ↔ v.toNat = 0 := by rw [← BitVec.toNat_inj]; rfl
  simp only [hz]
  interval_cases v.toNat <;> rfl

theorem systemReads_says : Says.SystemReads := by
  intro s d a sel
  refine ⟨.of_eq rfl (jumpsTo_setPc ..), cinval_buffers, .write4 rfl rfl, .write4 rfl rfl, fun hc hav => ?_, fun hc ha hs => ?_,
    fun hc => ?_, fun hc ha => ⟨.write4 (featWord_reads hc ha d _) rfl, .write4 (featWord_reads hc ha d _) (featOffer_word ha)⟩⟩
  · have hread : ∀ n, energyRead s (s.core / 2) n =
        if n = 0 then w64 (ringEnergy s (s.core / 2)) else if n = 1 then w64 (ringBudget s (s.core / 2)) else w64 (1000000 - s.time % 1000000) := by
      intro n
      rw [energyRead, Nat.div_div_eq_div_mul, hav]; rfl
    exact ⟨.write4 (enrd_reads hc d (by decide)) (hread 0), .write4 (enrd_reads hc d (by decide)) (hread 1),
      .write4 (enrd_reads hc d (by decide)) (hread 2)⟩
  · refine .write4 (?_ : exec (.enrdRing d a sel) s = _) rfl
    show execEnrdRing d a sel s = _
    rw [execEnrdRing, State.mgmt, decide_eq_true hc, if_pos rfl]
    exact energyOf_reads d ha fun h => hs (BitVec.eq_of_toNat_eq h)
  · refine .of_eq ?_ (illop_eq s)
    show execEnrdRing d a sel s = _
    rw [execEnrdRing, State.mgmt, decide_eq_false (by omega)]; rfl

end Sys2Proof.Machine

open Sys2Proof Sys2Proof.Machine

/-- Settles O7: the branches of trap entry, and the two device writes of a record. -/
theorem trapEntry : Obligations.TrapEntry := ⟨trapEntry_says, trapsAreRecorded_says⟩

/-- Settles O8: TRAP and BRK are traps of a fixed cause, and RFT has one branch for each condition. -/
theorem trapAndReturn : Obligations.TrapAndReturn := trapAndReturn_says

/-- Settles O11: each read is a register write, and CINVAL touches the buffers of its own core. -/
theorem systemReads : Obligations.SystemReads := systemReads_says
end

section
/-!
SUPPORT. Accesses of a core that reach HBM or die shared memory, and its reads that no write races with (R117, R130 to R134, R286, R287, R401).
-/

namespace Sys2Proof.Machine

open Sys2Proof

/-! ## Accesses -/

theorem Got.bind_of_ok {α β : Type} {x : Got α} {v : α} {s : State} (h : x = .ok v s) (f : α → State → Got β) : x.bind f = f v s := by rw [h]; rfl

theorem Got.andThen_of_ok {α : Type} {x : Got α} {v : α} {s : State} (h : x = .ok v s) (f : α → State → Out) : x.andThen f = f v s := by rw [h]; rfl

/-- Only partitions matter to what a heap access spoils. -/
theorem touchHeap_parts_congr {s t : State} (h : t.parts = s.parts) (pa : Nat) : (touchHeap pa t).parts = (touchHeap pa s).parts := by
  unfold touchHeap spoilHeaps
  rw [h]
  split
  · rfl
  · exact h

theorem touchHeap_id_of_parts {s t : State} {pa : Nat} (h : t.parts = s.parts) (hs : touchHeap pa s = s) : touchHeap pa t = t := by
  rw [touchHeap_frame, touchHeap_parts_congr h, hs, ← h]

/-- A translation spoils the versions of the heap page that it reaches, and no others. -/
theorem translateRaw_parts {s t : State} {p pa : Nat} {va : Word} {c : Cls} (hq : s.wqueue = []) (h : translateRaw s p va c = (.ok pa, t)) :
    t.parts = (touchHeap pa s).parts := by
  unfold translateRaw at h
  split at h
  · cases h
  · dsimp only at h
    generalize hch : choose _ s = r at h
    have hc := choose_frame hch
    have hparts : r.2.parts = s.parts := (congrArg State.parts hc).trans rfl
    have hqueue : r.2.wqueue = [] := ((congrArg State.wqueue hc).trans rfl).trans hq
    rw [settleWalk_id hqueue] at h
    split at h
    · split at h
      next pa' hu =>
        obtain ⟨hpa, rfl⟩ := Prod.mk.inj h
        cases hpa
        exact touchHeap_parts_congr hparts _
      next hne => exact absurd (Prod.mk.inj h).1 (hne _)
    · split at h
      · split at h
        next pa' hu =>
          obtain ⟨hpa, rfl⟩ := Prod.mk.inj h
          cases hpa
          refine touchHeap_parts_congr ?_ _
          split <;> exact hparts
        next hne => exact absurd (Prod.mk.inj h).1 (hne _)
      all_goals cases h

/-- The state once accesses have looked translations up and reads have fixed what they saw. -/
def State.onRead (s : State) (tlb : List TlbEntry) (choices : List Nat) (fixed : Table Byte) (view : View) : State :=
  { s with th := { s.th with fixed := fixed, view := view }, tlb := tlb, choices := choices }

/-- The state once accesses have looked translations up. -/
def State.looked (s : State) (tlb : List TlbEntry) (choices : List Nat) : State := s.onRead tlb choices s.th.fixed s.th.view

/-- An access that passes on a page of no version heap changes the TLB and the choices still open only. -/
theorem accessAt_looked {va : Word} {n ex pa : Nat} {c : Cls} {s t : State} (hq : s.wqueue = []) (h : accessAt va n c ex s = .ok pa t)
    (hheap : touchHeap pa s = s) : ∃ tlb choices, t = s.looked tlb choices := by
  unfold accessAt translateAt translateSpanAt at h
  split at h
  · cases h
  · split at h <;> simp only [Got.bind, behindSignal] at h
    next pa' t' e =>
      split at h <;> cases h
      unfold translateSpan at e
      split at e
      · cases e
      · have hframe := translateRaw_frame hq s.partNow va c
        rw [e] at hframe
        have hparts := translateRaw_parts hq e
        rw [hheap] at hparts
        rw [hparts] at hframe
        exact ⟨t.tlb, t.choices, hframe⟩
    all_goals cases h

/-- An access that lands passes, and looks its translation up. -/
theorem Lands.access_eq {va : Word} {n pa : Nat} {c : Cls} {s s1 : State} (h : Lands va n c s pa s1) (hq : s.wqueue = []) :
    ∃ tlb choices, access va n c s = .ok pa (s.looked tlb choices) := by
  obtain ⟨hok, -, hheap⟩ := h
  obtain ⟨tlb, choices, rfl⟩ := accessAt_looked hq hok hheap
  exact ⟨tlb, choices, hok⟩

/-! ## Reads that no write races with -/

/-- What has been fixed is what memory holds. -/
def FixedAgrees (mem : Memory) (fixed : Table Byte) : Prop := ∀ f ∈ fixed, f.2 = mem.read f.1

theorem Table.mem_set {α : Type} {k : Nat} {v : α} {t : Table α} {p : Nat × α} (h : p ∈ Table.set k v t) : p = (k, v) ∨ p ∈ t := by
  induction t with
  | nil => exact .inl (List.mem_singleton.mp h)
  | cons q t ih =>
    obtain ⟨j, w⟩ := q
    simp only [Table.set] at h
    split at h
    · exact (List.mem_cons.mp h).imp_right (List.mem_cons_of_mem _)
    · split at h
      · exact (List.mem_cons.mp h).imp_right id
      · rcases List.mem_cons.mp h with h | h
        · exact .inr (h ▸ List.mem_cons_self)
        · exact (ih h).imp_right (List.mem_cons_of_mem _)

theorem Table.mem_of_find {α : Type} {k : Nat} {v : α} {t : Table α} (h : Table.find k t = some v) : (k, v) ∈ t := by
  induction t with
  | nil => cases h
  | cons q t ih =>
    obtain ⟨j, w⟩ := q
    simp only [Table.find] at h
    split at h
    next hj => cases h; subst hj; exact List.mem_cons_self
    · exact List.mem_cons_of_mem _ (ih h)

section
variable {mem : Memory} {fixed : Table Byte}

theorem FixedAgrees.find (h : FixedAgrees mem fixed) {a : Nat} {b : Byte} (hf : Table.find a fixed = some b) : b = mem.read a :=
  h _ (Table.mem_of_find hf)

theorem FixedAgrees.set (h : FixedAgrees mem fixed) {a : Nat} {b : Byte} (hb : b = mem.read a) : FixedAgrees mem (Table.set a b fixed) := by
  intro f hf
  rcases Table.mem_set hf with rfl | hf
  · exact hb
  · exact h f hf

theorem FixedAgrees.foldl (h : FixedAgrees mem fixed) {α : Type} (f : Table Byte → α → Table Byte) (l : List α)
    (hstep : ∀ t a, a ∈ l → FixedAgrees mem t → FixedAgrees mem (f t a)) : FixedAgrees mem (l.foldl f fixed) :=
  List.foldlRecOn l f (motive := FixedAgrees mem) h fun t ht a ha => hstep t a ha ht

end

section
variable {s : State}

/-- Where nothing was written in the phase, a read of a unit has one outcome. -/
theorem unitChoices_settled (hw : s.writes = []) {fixed : Table Byte} (hf : FixedAgrees s.mem fixed) (v : View) (me u : Nat) :
    unitChoices s v me fixed u = [(peek s (8 * u) 8, View.zero)] := by
  have hagrees : agrees fixed u (peek s (8 * u) 8) = true := by
    refine List.all_eq_true.mpr fun i hi => ?_
    split
    next b hb => rw [peek_nth s _ (List.mem_range.mp hi), ← hf.find hb, beq_self_eq_true]
    · rfl
  simp [unitChoices, instants_quiet hw, hagrees]

theorem readUnits_settled (hw : s.writes = []) (hf : FixedAgrees s.mem s.th.fixed) (us : List Nat) :
    readUnits us s = (us.map (fun u => (u, peek s (8 * u) 8, View.zero)), s) := by
  induction us with
  | nil => rfl
  | cons u us ih => simp [readUnits, readUnit, unitChoices_settled hw hf, choose, ih, nth]

theorem foldl_join_zero {α : Type} (l : List α) {f : α → View} (h : ∀ a ∈ l, f a = View.zero) :
    l.foldl (fun v a => v.join (f a)) View.zero = View.zero :=
  List.foldlRecOn l _ (motive := fun v => v = View.zero) rfl fun v hv a ha => by rw [hv, h a ha]; rfl

@[simp] theorem orderAfter_zero (s : State) : orderAfter View.zero s = s := if_pos rfl

theorem ownPosted_none (hp : s.posted = []) (a : Nat) : ownPosted s a = none := by simp [ownPosted, hp]

/-- A read that no write races with takes what memory holds, and fixes that. -/
theorem readOrdinary_settled (hw : s.writes = []) (hp : s.posted = []) (hf : FixedAgrees s.mem s.th.fixed) (pa n : Nat) :
    ∃ fixed, FixedAgrees s.mem fixed ∧ readOrdinary pa n s = (peek s pa n, { s with th := { s.th with fixed := fixed } }) := by
  unfold readOrdinary
  split
  · refine ⟨s.th.fixed, hf, Prod.ext (List.map_congr_left fun i _ => ?_) rfl⟩
    rw [ownPosted_none hp, Option.getD_none]
  · simp only [readUnits_settled hw hf, ownPosted_none hp, List.foldl_map, foldl_join_zero _ fun _ _ => rfl, orderAfter_zero]
    have hunit : ∀ i, i ∈ List.range n →
        nth (Table.getD ((words8 pa n).map fun u => (u, peek s (8 * u) 8, View.zero)) ((pa + i) / 8) ([], View.zero)).1 ((pa + i) % 8) 0
          = s.mem.read (pa + i) := fun i hi => by
      rw [Table.getD_map (fun u => (peek s (8 * u) 8, View.zero)) (mem_words8 (List.mem_range.mp hi)),
        peek_nth s _ (Nat.mod_lt _ (by decide)), Nat.div_add_mod]
    refine ⟨_, hf.foldl _ _ fun t i hi ht => ?_, Prod.ext ?_ rfl⟩
    · split
      next b hb =>
        refine ht.set ?_
        have hi' : i < n := List.mem_range.mp hi
        simp only [List.getElem?_map, List.getElem?_range hi', Option.map_some, Option.some.injEq] at hb
        split at hb
        next b' hb' => cases hb; exact hf.find hb'
        · cases hb; exact hunit i hi
      · exact ht
    · rw [List.map_map]
      refine List.map_congr_left fun i hi => ?_
      simp only [Function.comp_apply]
      split
      next b hb => exact hf.find hb
      · exact hunit i hi

/-- A load at a translated address of the device, where no write races with it, gives what memory holds. -/
theorem loadPaAt_settled {pa n : Nat} (hpa : onDevice pa = true) (hq : s.wqueue = []) (hw : s.writes = []) (hp : s.posted = [])
    (hf : FixedAgrees s.mem s.th.fixed) (hr : readFails s pa n = false) (va : Word) (ex : Nat) : ∃ fixed, FixedAgrees s.mem fixed ∧
    loadPaAt pa n va ex s = .ok (peek s pa n) (s.onRead s.tlb s.choices fixed s.th.view) := by
  obtain ⟨fixed, hfixed, hread⟩ := readOrdinary_settled hw hp hf pa n
  refine ⟨fixed, hfixed, ?_⟩
  obtain ⟨j, o, hl⟩ | ⟨j, o, hl⟩ := locOf_of_onDevice hpa <;>
  · simp only [loadPaAt, hl, settleLines_id hq, hr, Bool.false_eq_true, if_false, hread]
    rfl

/-- A load that succeeds met no error. -/
theorem loadPaAt_readable {pa n ex : Nat} {va : Word} {bs : List Byte} {t : State} (hpa : onDevice pa = true) (hq : s.wqueue = [])
    (h : loadPaAt pa n va ex s = .ok bs t) : readFails s pa n = false := by
  obtain ⟨j, o, hl⟩ | ⟨j, o, hl⟩ := locOf_of_onDevice hpa <;>
  · simp only [loadPaAt, hl, settleLines_id hq] at h
    by_contra hr
    rw [if_pos (by simpa using hr)] at h
    cases h

/-- An instruction that reads and writes one register changes nothing else but what its reads looked up and fixed. -/
theorem onRead_write4 (s : State) (tlb : List TlbEntry) (choices : List Nat) (fixed : Table Byte) (view : View) (d : Reg) (v : Word) :
    let t := (s.onRead tlb choices fixed view).write4 d v
    RegsSet d v s t ∧ t.th.pc = s.th.pc + 4 ∧ MachineKept s t ∧ ThreadKept s t := by
  refine ⟨fun r => (s.onRead tlb choices fixed view).g_write4 d r v, State.write4_pc .., ?_, ?_⟩
  · unfold MachineKept
    rw [State.write4_frame]; rfl
  · unfold ThreadKept
    rw [State.write4_frame]; rfl

/-! ## LD, LDN and LDA (R130, R132, R133) -/

theorem Quiet.posted {s : State} (h : Quiet s) : s.posted = [] := h.1
theorem Quiet.reds {s : State} (h : Quiet s) : s.reds = [] := h.2.1
theorem Quiet.wqueue {s : State} (h : Quiet s) : s.wqueue = [] := h.2.2.1
theorem Quiet.outbound {s : State} (h : Quiet s) : s.outbound = [] := h.2.2.2.1
theorem Quiet.flushes {s : State} (h : Quiet s) : s.flushes.all (fun j => j.owner != s.th.id || j.done) = true := h.2.2.2.2

theorem Raceless.agrees {s : State} (h : Raceless s) : FixedAgrees s.mem s.th.fixed := by
  rw [h.2]
  exact fun _ hf => absurd hf List.not_mem_nil

/-- An ordinary load of a word that no write races with. -/
theorem load_settled {va : Word} {n pa : Nat} {s1 : State} (hquiet : Quiet s) (hrace : Raceless s) (hl : Lands va n .read s pa s1)
    (hr : readFails s pa n = false) : ∃ tlb choices fixed, load va n s = .ok (peek s pa n) (s.onRead tlb choices fixed s.th.view) := by
  obtain ⟨tlb, choices, hok⟩ := hl.access_eq hquiet.wqueue
  obtain ⟨fixed, -, hread⟩ := loadPaAt_settled (s := s.looked tlb choices) hl.2.1 hquiet.wqueue hrace.1 hquiet.posted hrace.agrees hr va 0
  refine ⟨tlb, choices, fixed, ?_⟩
  exact (Got.bind_of_ok hok _).trans hread

/-- LDA reads the current value, which is then fixed. -/
theorem loadCurrent_settled {pa n scope : Nat} {va : Word} (hquiet : Quiet s) (hrace : Raceless s) (hrel : s.releases = []) (hpa : onDevice pa = true)
    (hr : readFails s pa n = false) : ∃ fixed, loadCurrent pa n va scope s = .ok (peek s pa n) (s.onRead s.tlb s.choices fixed s.th.view) := by
  have hbrings : ∀ u, lastBrings s u = View.zero := fun u => by simp [lastBrings, hrace.1]
  have hobserve : observe pa n s = s := by
    rw [observe, foldl_join_zero _ fun u _ => hbrings u, orderAfter_zero]
  have hacquire : acquire pa scope (peek s pa n) s = s := by simp [acquire, hrel]
  have hload : loadCurrent pa n va scope s = .ok (peek s pa n) (fixValue pa (peek s pa n) s) := by
    simp only [loadCurrent, hpa, if_true, hquiet.settleOwn, hr, Bool.false_eq_true, if_false, hobserve, hacquire]
  rw [hload, fixValue]
  split
  · exact ⟨_, rfl⟩
  · exact ⟨s.th.fixed, rfl⟩

theorem acqRelOk_of {scope : BitVec 3} {size : BitVec 2} (hs : 2 ≤ size.toNat) (h2 : 2 ≤ scope.toNat) (h5 : scope.toNat ≤ 5) :
    acqRelOk scope size = true := by simp [acqRelOk, hs, h2, h5]

theorem loadsReadMemory_says : Says.LoadsReadMemory := by
  intro s s1 d a size scope off pa hquiet hrace hrel hl hr v reads
  obtain ⟨tlb, choices, fixed, hload⟩ := load_settled hquiet hrace hl hr
  refine ⟨.of_eq ?_ (onRead_write4 s tlb choices fixed s.th.view d _), fun h3 => .of_eq ?_ (onRead_write4 s tlb choices fixed s.th.view d _),
    fun hsize h2 h5 => ?_⟩
  · show execLd d a size off s = _
    rw [execLd]
    exact Got.andThen_of_ok hload _
  · show execLdn d a size off s = _
    rw [execLdn, if_neg h3]
    exact Got.andThen_of_ok hload _
  · obtain ⟨tlb, choices, hok⟩ := hl.access_eq hquiet.wqueue
    obtain ⟨fixed, hread⟩ := loadCurrent_settled (s := s.looked tlb choices) (scope := scope.toNat) (va := s.g a + off.signExtend 64)
      hquiet hrace hrel hl.2.1 hr
    refine .of_eq ?_ (onRead_write4 s tlb choices fixed s.th.view d _)
    show execLda d a scope size off s = _
    rw [execLda, acqRelOk_of hsize h2 h5, if_neg (by decide)]
    exact Got.andThen_of_ok ((Got.bind_of_ok hok _).trans hread) _

/-! ## LDM (R134) -/

theorem ldmPlaces_length {is : List Nat} {a : Word} {pas : List Nat} {s t : State} (h : Says.ldmPlaces is a s = .ok pas t) : pas.length = is.length := by
  induction is generalizing pas s t with
  | nil => cases h; rfl
  | cons i is ih =>
    obtain ⟨pa, s1, -, h⟩ := Got.bind_ok h
    obtain ⟨bs, s2, -, h⟩ := Got.bind_ok h
    obtain ⟨rest, s3, hrest, h⟩ := Got.bind_ok h
    cases h
    rw [List.length_cons, List.length_cons, ih hrest]

/-- The reads of LDM give what memory holds where they land: what an earlier one has fixed agrees with that. -/
theorem ldmFrom_settled (hq : s.wqueue = []) (hw : s.writes = []) (hp : s.posted = []) {is : List Nat} {a : Word} {view : View} {pas : List Nat}
    {tlb : List TlbEntry} {choices : List Nat} {fixed : Table Byte} {t : State} (hf : FixedAgrees s.mem fixed)
    (h : Says.ldmPlaces is a (s.onRead tlb choices fixed view) = .ok pas t) (hpas : ∀ pa ∈ pas, onDevice pa = true ∧ touchHeap pa s = s) :
    ∃ tlb' choices' fixed', ldmFrom is a (s.onRead tlb choices fixed view) =
      .ok (pas.map fun pa => BitVec.ofNat 64 (leNat (peek s pa 8))) (s.onRead tlb' choices' fixed' view) := by
  induction is generalizing pas tlb choices fixed with
  | nil => cases h; exact ⟨tlb, choices, fixed, rfl⟩
  | cons i is ih =>
    obtain ⟨pa, s1, hacc, h⟩ := Got.bind_ok h
    obtain ⟨bs, s2, hload, h⟩ := Got.bind_ok h
    obtain ⟨rest, s3, hrest, h⟩ := Got.bind_ok h
    cases h
    obtain ⟨hpa, hheap⟩ := hpas pa List.mem_cons_self
    obtain ⟨tlb1, choices1, rfl⟩ := accessAt_looked (s := s.onRead tlb choices fixed view) hq hacc (touchHeap_id_of_parts (s := s) rfl hheap)
    have hr := loadPaAt_readable (s := (s.onRead tlb choices fixed view).looked tlb1 choices1) hpa hq hload
    obtain ⟨fixed1, hfixed1, hread⟩ := loadPaAt_settled (s := (s.onRead tlb choices fixed view).looked tlb1 choices1) hpa hq hw hp hf hr
      (a + w64 (8 * i)) i
    obtain ⟨rfl, rfl⟩ : bs = peek s pa 8 ∧ s2 = s.onRead tlb1 choices1 fixed1 view := by
      have := hload.symm.trans hread
      cases this
      exact ⟨rfl, rfl⟩
    obtain ⟨tlb2, choices2, fixed2, htail⟩ := ih hfixed1 hrest fun p hp => hpas p (List.mem_cons_of_mem _ hp)
    refine ⟨tlb2, choices2, fixed2, ?_⟩
    exact (Got.bind_of_ok hacc _).trans ((Got.bind_of_ok hread _).trans (Got.bind_of_ok htail _))

/-- Consecutive registers after they are written. -/
theorem setRegs_g (ws : List Word) {k : Nat} (s : State) (h : k + ws.length ≤ 32) (q : Reg) :
    (setRegs ws k s).g q = if q ≠ 0 ∧ k ≤ q.val ∧ q.val < k + ws.length then nth ws (q.val - k) 0 else s.g q := by
  induction ws generalizing k s with
  | nil => exact (if_neg (by simp)).symm
  | cons w ws ih =>
    rw [List.length_cons] at h ⊢
    have hk : (regOf k).val = k := Nat.mod_eq_of_lt (by omega)
    rw [setRegs, ih _ (by omega), State.g_setG]
    by_cases h0 : q = 0
    · rw [if_neg (fun h => h.1 h0), if_neg (fun h => h.2 (h.1 ▸ h0)), if_neg (fun h => h.1 h0)]
    by_cases hq : q.val = k
    · have hreg : q = regOf k := Fin.ext (hq.trans hk.symm)
      rw [if_neg (by omega), if_pos ⟨hreg, hreg ▸ h0⟩, if_pos ⟨h0, by omega⟩, hq, Nat.sub_self]
      rfl
    · rw [if_neg (fun h : q = regOf k ∧ _ => hq (h.1 ▸ hk))]
      by_cases hin : k + 1 ≤ q.val ∧ q.val < k + 1 + ws.length
      · rw [if_pos ⟨h0, hin⟩, if_pos ⟨h0, by omega⟩, show q.val - k = q.val - (k + 1) + 1 by omega]
        rfl
      · rw [if_neg (fun h => hin h.2), if_neg (fun h => hin (by omega))]

theorem setRegs_frame (ws : List Word) (k : Nat) (s : State) : setRegs ws k s = { s with th := { s.th with regs := (setRegs ws k s).th.regs } } := by
  induction ws generalizing k s with
  | nil => rfl
  | cons w ws ih =>
    rw [setRegs, ih]
    unfold State.setG
    split <;> rfl

theorem gated_on {b : Nat} (h : featureOn s b = true) (k : Out) : gated b s k = k := if_pos h

/-- LDM writes what its reads gave, and nothing else but what they looked up and fixed. -/
theorem ldm_reads {s1 : State} {d a : Reg} {n : BitVec 5} {off : BitVec 11} {pas : List Nat} (hfeat : featureOn s 5 = true)
    (hd : d.val + n.toNat ≤ 31) (hquiet : Quiet s) (hrace : Raceless s)
    (hpl : Says.ldmPlaces (List.range (n.toNat + 1)) (s.g a + off.signExtend 64) s = .ok pas s1)
    (hpas : ∀ pa ∈ pas, onDevice pa = true ∧ touchHeap pa s = s) :
    Gives (.ldm d a n off) s (fun t => t.th.pc = s.th.pc + 4 ∧ MachineKept s t ∧ ThreadKept s t ∧
      ∀ r, t.g r = if r ≠ 0 ∧ d.val ≤ r.val ∧ r.val ≤ d.val + n.toNat
        then BitVec.ofNat 64 (leNat (peek s (nth pas (r.val - d.val) 0) 8)) else s.g r) := by
  obtain ⟨tlb, choices, fixed, hread⟩ := ldmFrom_settled hquiet.wqueue hrace.1 hquiet.posted hrace.agrees (view := s.th.view) hpl hpas
  have hlen := ldmPlaces_length hpl
  rw [List.length_range] at hlen
  let ws := pas.map fun pa => BitVec.ofNat 64 (leNat (peek s pa 8))
  have hws : ws.length = n.toNat + 1 := (List.length_map ..).trans hlen
  have hexec : exec (.ldm d a n off) s = .next ((setRegs ws d.val (s.onRead tlb choices fixed s.th.view)).advance 4) := by
    show execLdm d a n off s = _
    rw [execLdm, if_neg (by omega), gated_on hfeat]
    exact Got.andThen_of_ok hread _
  refine .of_eq hexec ?_
  rw [setRegs_frame]
  refine ⟨rfl, rfl, rfl, fun r => ?_⟩
  rw [← setRegs_frame, State.g_advance, setRegs_g _ _ (by omega), hws]
  by_cases hin : r ≠ 0 ∧ d.val ≤ r.val ∧ r.val ≤ d.val + n.toNat
  · rw [if_pos hin, if_pos ⟨hin.1, by omega⟩]
    simp [nth, ws, List.getElem?_eq_getElem (show r.val - d.val < pas.length by omega)]
  · rw [if_neg hin, if_neg (fun h => hin ⟨h.1, by omega⟩)]
    rfl

end

end Sys2Proof.Machine

open Sys2Proof Sys2Proof.Machine

/-- Settles O12: an access that lands looks a translation up, and a read without races takes what memory holds. -/
theorem loadsReadMemory : Obligations.LoadsReadMemory := loadsReadMemory_says
end

section
/-!
SUPPORT. Stores of a core to HBM and die shared memory: performed at home, posted elsewhere (R130 to R134, R138, R293).
-/

namespace Sys2Proof.Machine

open Sys2Proof

/-! ## What a quiet continuation waits for (R132, R138 to R140) -/

section
variable {s : State}

theorem Quiet.storesPending (h : Quiet s) (tid : Nat) (die : Option Nat) : storesPending s tid die = false := by simp [Machine.storesPending, h.posted]

theorem Quiet.redsPending (h : Quiet s) (tid : Nat) (die : Option Nat) : redsPending s tid die = false := by
  simp [Machine.redsPending, h.reds, h.wqueue]

theorem Quiet.windowPending (h : Quiet s) (tid : Nat) : windowPending s tid = false := by simp [Machine.windowPending, h.outbound]

theorem Quiet.signalsPending (h : Quiet s) : signalsPending s s.th.id = false := by
  refine List.any_eq_false.mpr fun j hj hbad => ?_
  have := List.all_eq_true.mp h.flushes j hj
  simp only [Bool.and_eq_true, beq_iff_eq, Bool.not_eq_true', Bool.or_eq_true, bne_iff_ne] at hbad this
  exact this.elim (fun hne => hne hbad.1) (fun hd => by rw [hd] at hbad; exact absurd hbad.2 (by decide))

theorem Quiet.releasePending (h : Quiet s) (scope : Nat) : releasePending scope s = false := by
  simp [Machine.releasePending, h.storesPending, h.redsPending, h.windowPending, h.signalsPending]

/-- With no error kept, nothing is reported. -/
theorem NoReport.takeDeferred (h : NoReport s) (hout : s.outbound = []) (st red win : Bool) : takeDeferred st red win s = none := by
  cases st <;> cases red <;> cases win <;> simp [Machine.takeDeferred, h.1, h.2, hout]

end

/-! ## Stores performed at home -/

/-- A write of a party stores its bytes as far as fault slots let them (R274). -/
theorem stores_poke_party {s : State} (h : s.Inv) {p : Nat} (hp : p ≠ 0) (l pa : Nat) (bs : List Byte) : Stores pa bs s (poke l p pa bs s) := by
  intro a
  rw [poke_read h, guardBytes_length]
  by_cases ha : pa ≤ a ∧ a < pa + bs.length
  · have hne : bs ≠ [] := by rintro rfl; simp at ha; omega
    have hlen : a - pa < bs.length := by omega
    rw [if_pos ⟨ha.1, ha.2, hne⟩, if_pos ha, guardBytes, if_neg (fun h => hp h.2)]
    simp [nth, List.getD_eq_getElem?_getD, hlen, show pa + (a - pa) = a by omega]
  · rw [if_neg ha, if_neg fun hp => ha ⟨hp.1, hp.2.1⟩]

/-- A store leaves its continuation all but what its reads have fixed. -/
def StoreThreadKept (s t : State) : Prop := t.th = { s.th with fixed := t.th.fixed }

theorem addRelease_frame (pa : Nat) (bs : List Byte) (mark rel : Nat) (v : View) (s : State) :
    addRelease pa bs mark rel v s = { s with releases := (addRelease pa bs mark rel v s).releases } := by
  unfold addRelease
  split <;> rfl

/-- What a store performed at home leaves of a state. -/
structure StoredAt (pa : Nat) (bs : List Byte) (s t : State) : Prop where
  stores : Stores pa bs s t
  frame : StoreFrame s t
  thread : StoreThreadKept s t
  errors : ∀ e ∈ t.errors, e ∈ s.errors
  inv : t.Inv

/-- Writing bytes, noting a release and unfixing them is a store. -/
theorem storedAt_poke {s : State} (hinv : s.Inv) {p : Nat} (hp : p ≠ 0) (l pa : Nat) (bs : List Byte) (mark rel : Nat) (v : View) :
    StoredAt pa bs s (unfix pa bs.length (addRelease pa bs mark rel v (poke l p pa bs s))) := by
  rw [addRelease_frame]
  refine ⟨stores_poke_party hinv hp l pa bs, ?_, ?_, fun e he => pokeWith_errors he, poke_wf hinv ..⟩
  · unfold StoreFrame
    rw [poke_frame]; rfl
  · unfold StoreThreadKept
    rw [poke_frame]; rfl

/-- A store to the issuing die, with none of the continuation's own accesses to the bytes under way, is performed. -/
theorem storePaAt_home {s : State} {pa : Nat} {bs : List Byte} (hinv : s.Inv) (hpa : onDevice pa = true) (hhome : homeDie pa = coreDie s.core)
    (hown : settleOwn s.th.id pa bs.length s = s) (hw : writeFails s pa bs.length = false) (rel : Nat) (va : Word) (ex : Nat) :
    ∃ t, storePaAt pa bs rel va ex s = .ok () t ∧ StoredAt pa bs s t := by
  refine ⟨_, ?_, storedAt_poke hinv (Nat.succ_ne_zero s.th.id) s.launchMark pa bs s.launchMark rel (viewOf s s.th.id)⟩
  obtain ⟨j, o, hl⟩ | ⟨j, o, hl⟩ := locOf_of_onDevice hpa <;>
    simp only [storePaAt, hl, hhome, ne_eq, not_true, if_false, hown, pokeOk_eq hw]

/-- A store to another die, with no reduction of the continuation to the bytes under way, is posted (R131). -/
theorem storePaAt_away {s : State} {pa : Nat} {bs : List Byte} (hpa : onDevice pa = true) (hhome : homeDie pa ≠ coreDie s.core)
    (hown : settleReds s.th.id pa bs.length s = s) (rel : Nat) (va : Word) (ex : Nat) :
    storePaAt pa bs rel va ex s = .ok () { unfix pa bs.length s with posted := s.posted ++ [⟨s.th.id, pa, va, bs, rel, s.nextJob⟩] } := by
  obtain ⟨j, o, hl⟩ | ⟨j, o, hl⟩ := locOf_of_onDevice hpa <;>
    simp only [storePaAt, hl, if_pos hhome, hown]

/-! ## ST and STL -/

/-- Going on after a store changes the program counter only. -/
theorem StoredAt.advance {pa : Nat} {bs : List Byte} {s t : State} (h : StoredAt pa bs s t) :
    Stores pa bs s (t.advance 4) ∧ RegsKept s (t.advance 4) ∧ (t.advance 4).th.pc = s.th.pc + 4 ∧ ThreadKept s (t.advance 4) ∧ StoreFrame s (t.advance 4) := by
  obtain ⟨hstores, hframe, hth, -, -⟩ := h
  refine ⟨hstores, fun r => ?_, ?_, ?_, ?_⟩
  · show (if r = 0 then 0 else t.th.regs[r]) = _
    rw [hth]; rfl
  · show t.th.pc + 4 = _
    rw [hth]
  · unfold ThreadKept
    rw [State.advance_th, hth]
  · unfold StoreFrame State.advance State.setPc at *
    rw [hframe]

theorem execSt_eq {s : State} {d a : Reg} {size : BitVec 2} {off : BitVec 11} {pa : Nat} {t u : State}
    (hok : access (s.g a + off.signExtend 64) (2 ^ size.toNat) .write s = .ok pa t)
    (hstore : storePaAt pa (leBytes (2 ^ size.toNat) (s.g d).toNat) 0 (s.g a + off.signExtend 64) 0 t = .ok () u) :
    exec (.st d a size off) s = .next (u.advance 4) :=
  Got.andThen_of_ok ((Got.bind_of_ok hok _).trans hstore) _

/-- STL stores once what it waits for is complete and no error is to be reported. -/
theorem execStl_eq {s : State} {d a : Reg} {scope : BitVec 3} {size : BitVec 2} {off : BitVec 11} {pa : Nat} {t u : State}
    (hs : 2 ≤ size.toNat) (h2 : 2 ≤ scope.toNat) (h5 : scope.toNat ≤ 5)
    (hok : access (s.g a + off.signExtend 64) (2 ^ size.toNat) .write s = .ok pa t) (hquiet : Quiet t) (hreport : NoReport t)
    (hstore : storePaAt pa (leBytes (2 ^ size.toNat) (t.g d).toNat) (16 * scope.toNat + coreDie t.core) (s.g a + off.signExtend 64) 0 t = .ok () u) :
    exec (.stl d a scope size off) s = .next (u.advance 4) := by
  show execStl d a scope size off s = _
  rw [execStl, acqRelOk_of hs h2 h5, if_neg (by decide)]
  refine (Got.andThen_of_ok hok _).trans ?_
  rw [hquiet.releasePending, if_neg (by decide)]
  simp only [hreport.takeDeferred hquiet.outbound]
  exact Got.andThen_of_ok hstore _

theorem storesWriteMemory_says : Says.StoresWriteMemory := by
  intro s s1 d a size scope off pa hinv hquiet hreport hl hw hhome writes
  obtain ⟨tlb, choices, hok⟩ := hl.access_eq hquiet.wqueue
  have hlen : (leBytes (2 ^ size.toNat) (s.g d).toNat).length = 2 ^ size.toNat := leBytes_length ..
  have hstore := fun rel va => storePaAt_home (s := s.looked tlb choices) (bs := leBytes (2 ^ size.toNat) (s.g d).toNat) hinv hl.2.1 hhome
    (Quiet.settleOwn (s := s.looked tlb choices) hquiet ..) (by rw [hlen]; exact hw) rel va 0
  refine ⟨?_, fun hs h2 h5 => ?_⟩
  · obtain ⟨u, hu, hstored⟩ := hstore 0 (s.g a + off.signExtend 64)
    exact .of_eq (execSt_eq hok hu) hstored.advance
  · obtain ⟨u, hu, hstored⟩ := hstore (16 * scope.toNat + coreDie s.core) (s.g a + off.signExtend 64)
    exact .of_eq (execStl_eq hs h2 h5 hok hquiet hreport hu) hstored.advance

theorem storesElsewhereArePosted_says : Says.StoresElsewhereArePosted := by
  intro s s1 d a size scope off pa hquiet hl hhome posts
  obtain ⟨tlb, choices, hok⟩ := hl.access_eq hquiet.wqueue
  have hstore := fun rel => storePaAt_away (s := s.looked tlb choices) (bs := leBytes (2 ^ size.toNat) (s.g d).toNat) hl.2.1 hhome
    (Quiet.settleReds (s := s.looked tlb choices) hquiet ..) rel (s.g a + off.signExtend 64) 0
  have hposted : (s.looked tlb choices).posted = [] := hquiet.posted
  simp only [hposted, List.nil_append] at hstore
  exact ⟨.of_eq (execSt_eq hok (hstore 0)) ⟨fun _ => rfl, rfl, rfl, rfl⟩,
    fun hreport hs h2 h5 => .of_eq (execStl_eq hs h2 h5 hok hquiet hreport (hstore _)) ⟨fun _ => rfl, rfl, rfl, rfl⟩⟩

end Sys2Proof.Machine

open Sys2Proof Sys2Proof.Machine

/-- Settles O13: with nothing of the continuation under way a store at home is a write, and one elsewhere is one posted store. -/
theorem storesWriteMemory : Obligations.StoresWriteMemory := ⟨storesWriteMemory_says, storesElsewhereArePosted_says⟩
end

section
/-!
SUPPORT. STM (R134): translations first, then one store after another.
-/

namespace Sys2Proof.Machine

open Sys2Proof

/-! ## The translations of STM -/

theorem stmFrom_looked {s : State} (hq : s.wqueue = []) {is : List Nat} {a : Word} {pas : List Nat} {tlb : List TlbEntry} {choices : List Nat} {t : State}
    (h : stmFrom is a (s.looked tlb choices) = .ok pas t) (hpas : ∀ pa ∈ pas, touchHeap pa s = s) :
    pas.length = is.length ∧ ∃ tlb' choices', t = s.looked tlb' choices' := by
  induction is generalizing pas tlb choices with
  | nil => cases h; exact ⟨rfl, tlb, choices, rfl⟩
  | cons i is ih =>
    obtain ⟨pa, s1, hacc, h⟩ := Got.bind_ok h
    split at h
    · cases h
    obtain ⟨rest, s2, hrest, h⟩ := Got.bind_ok h
    cases h
    obtain ⟨tlb1, choices1, rfl⟩ := accessAt_looked (s := s.looked tlb choices) hq hacc (touchHeap_id_of_parts (s := s) rfl (hpas pa List.mem_cons_self))
    obtain ⟨hlen, hkept⟩ := ih hrest fun p hp => hpas p (List.mem_cons_of_mem _ hp)
    exact ⟨by rw [List.length_cons, List.length_cons, hlen], hkept⟩

/-! ## The stores of STM -/

theorem overlap_comm (a n b m : Nat) : overlap a n b m = overlap b m a n := Bool.and_comm ..

theorem splitPosted_none {α : Type} {rng : α → Option (Nat × Nat)} {pa n : Nat} {l : List α}
    (h : ∀ x ∈ l, ∀ a m, rng x = some (a, m) → overlap pa n a m = false) : splitPosted rng [(pa, n)] l = ([(pa, n)], [], l) := by
  induction l with
  | nil => rfl
  | cons x l ih =>
    have hrest := ih fun y hy => h y (List.mem_cons_of_mem _ hy)
    simp only [splitPosted, hrest]
    split
    next a m hx => simp [h x List.mem_cons_self a m hx]
    · rfl

/-- Posted stores elsewhere do not wait for one another. -/
theorem settleStores_apart {s : State} {tid pa n : Nat} (h : ∀ p ∈ s.posted, overlap pa n p.pa p.data.length = false) : settleStores tid pa n s = s := by
  unfold settleStores
  rw [splitPosted_none]
  · rfl
  · intro x hx a m hrng
    split at hrng <;> cases hrng
    exact h x hx

theorem settleReds_none {s : State} (h : s.reds = []) (tid pa n : Nat) : settleReds tid pa n s = s := by
  unfold settleReds; simp [h, splitPosted]

/-- The posted stores that an STM leaves, from its k-th on: those of doublewords homed elsewhere. -/
def stmPosts (s : State) (near : Nat → Bool) (va : Word) (data : Nat → List Byte) : List Nat → Nat → List PostedStore
  | [], _ => []
  | pa :: pas, k =>
    if near pa then stmPosts s near va data pas (k + 1)
    else ⟨s.th.id, pa, va + BitVec.ofNat 64 (8 * k), data k, 0, s.nextJob⟩ :: stmPosts s near va data pas (k + 1)

theorem stmPosts_eq (s : State) (near : Nat → Bool) (va : Word) (data : Nat → List Byte) (pas : List Nat) (k : Nat) :
    stmPosts s near va data pas k = ((List.range pas.length).filter (fun i => !near (nth pas i 0))).map
      (fun i => ⟨s.th.id, nth pas i 0, va + BitVec.ofNat 64 (8 * (k + i)), data (k + i), 0, s.nextJob⟩) := by
  induction pas generalizing k with
  | nil => rfl
  | cons pa pas ih =>
    have hshift : ∀ i, k + 1 + i = k + (i + 1) := fun i => by omega
    simp only [stmPosts, ih, hshift, List.length_cons, List.range_succ_eq_map, List.filter_cons, List.filter_map]
    cases hn : near pa
    · rw [if_neg (by decide), if_pos (by rw [show nth (pa :: pas) 0 0 = pa from rfl, hn]; rfl), List.map_cons, List.map_map]; rfl
    · rw [if_pos rfl, if_neg (by rw [show nth (pa :: pas) 0 0 = pa from rfl, hn]; decide), List.map_map]; rfl

theorem stmPosts_cons (s : State) (near : Nat → Bool) (va : Word) (data : Nat → List Byte) (pa : Nat) (pas : List Nat) (k : Nat) :
    stmPosts s near va data (pa :: pas) k = stmPosts s near va data [pa] k ++ stmPosts s near va data pas (k + 1) := by
  rw [stmPosts, stmPosts]
  split <;> rfl

theorem stmPosts_congr {s t : State} (hid : t.th.id = s.th.id) (hjob : t.nextJob = s.nextJob) (near : Nat → Bool) (va : Word)
    (data : Nat → List Byte) (pas : List Nat) (k : Nat) : stmPosts t near va data pas k = stmPosts s near va data pas k := by
  rw [stmPosts_eq, stmPosts_eq, hid, hjob]

/-- The byte that the near doublewords of an STM, from its k-th on, leave at an address. -/
def stmByte (near : Nat → Bool) (data : Nat → List Byte) (s : State) (x : Nat) : List Nat → Nat → Byte
  | [], _ => s.mem.read x
  | pa :: pas, k => if near pa && decide (pa ≤ x) && decide (x < pa + 8) then guardByte s x (nth (data k) (x - pa) 0) else stmByte near data s x pas (k + 1)

section
variable {near : Nat → Bool} {data : Nat → List Byte} {s t : State} {x : Nat}

theorem stmByte_some {pas : List Nat} {k i : Nat} (h : pas.findIdx? (fun pa => near pa && decide (pa ≤ x) && decide (x < pa + 8)) = some i) :
    stmByte near data s x pas k = guardByte s x (nth (data (k + i)) (x - nth pas i 0) 0) := by
  induction pas generalizing k i with
  | nil => cases h
  | cons pa pas ih =>
    rw [List.findIdx?_cons] at h
    rw [stmByte]
    split at h
    next hin => cases h; rw [if_pos hin]; rfl
    next hin =>
      obtain ⟨j, hj, rfl⟩ := Option.map_eq_some_iff.mp h
      rw [if_neg hin, ih hj, Nat.add_right_comm, Nat.add_assoc]; rfl

theorem stmByte_none {pas : List Nat} {k : Nat} (h : pas.findIdx? (fun pa => near pa && decide (pa ≤ x) && decide (x < pa + 8)) = none) :
    stmByte near data s x pas k = s.mem.read x := by
  induction pas generalizing k with
  | nil => rfl
  | cons pa pas ih =>
    rw [List.findIdx?_cons] at h
    split at h
    · cases h
    next hin => rw [stmByte, if_neg hin, ih (Option.map_eq_none_iff.mp h)]

/-- Doublewords that do not overlap that of pa leave its bytes. -/
theorem stmByte_apart {pa : Nat} {pas : List Nat} (h : ∀ q ∈ pas, overlap pa 8 q 8 = false) (hx : pa ≤ x ∧ x < pa + 8) (k : Nat) :
    stmByte near data s x pas k = s.mem.read x := by
  refine stmByte_none (List.findIdx?_eq_none_iff.mpr fun q hq => ?_)
  have := h q hq
  simp only [overlap, Bool.and_eq_false_iff, decide_eq_false_iff_not] at this ⊢
  omega

theorem guardByte_congr {a : Nat} (hm : t.mem.read a = s.mem.read a) (hl : t.launches = s.launches) (b : Byte) :
    guardByte t a b = guardByte s a b := by
  unfold guardByte
  rw [hm, hl]

theorem stmByte_congr (hm : t.mem.read x = s.mem.read x) (hl : t.launches = s.launches) (pas : List Nat) (k : Nat) :
    stmByte near data t x pas k = stmByte near data s x pas k := by
  induction pas generalizing k with
  | nil => exact hm
  | cons pa pas ih => rw [stmByte, stmByte, ih, guardByte_congr hm hl]

end

/-- What the stores of an STM, from its k-th on, leave of a state. -/
structure StmStored (near : Nat → Bool) (va : Word) (data : Nat → List Byte) (pas : List Nat) (k : Nat) (s t : State) : Prop where
  bytes : ∀ x, t.mem.read x = stmByte near data s x pas k
  thread : StoreThreadKept s t
  frame : t = { s with
    th := t.th
    tlb := t.tlb
    choices := t.choices
    mem := t.mem
    writes := t.writes
    writeSeq := t.writeSeq
    errors := t.errors
    releases := t.releases
    posted := s.posted ++ stmPosts s near va data pas k }

/-- What lets the stores of an STM go through at places that do not overlap. -/
structure StmReady (near : Nat → Bool) (pas : List Nat) (s : State) : Prop where
  inv : s.Inv
  wqueue : s.wqueue = []
  reds : s.reds = []
  near_eq : near = fun pa => homeDie pa == coreDie s.core
  apart : ∀ p ∈ s.posted, ∀ pa ∈ pas, overlap pa 8 p.pa p.data.length = false
  pairwise : pas.Pairwise (fun p q => overlap p 8 q 8 = false)
  device : ∀ pa ∈ pas, onDevice pa = true
  healthy : ∀ pa ∈ pas, near pa = true → writeFails s pa 8 = false

section
variable {near : Nat → Bool} {data : Nat → List Byte} {va : Word} {pas : List Nat} {pa k d ex : Nat} {s : State}

/-- What one store of an STM does. -/
theorem stm_store (hready : StmReady near (pa :: pas) s) (hlen : (data k).length = 8) :
    ∃ u, storePaAt pa (data k) 0 (va + BitVec.ofNat 64 (8 * k)) ex s = .ok () u ∧ StmStored near va data [pa] k s u ∧
      u.Inv ∧ ∀ e ∈ u.errors, e ∈ s.errors := by
  obtain ⟨hinv, hq, hreds, hnear, hapart, -, hdev, hok⟩ := hready
  have hreds' : settleReds s.th.id pa (data k).length s = s := settleReds_none hreds ..
  have hhome : near pa = true ↔ homeDie pa = coreDie s.core := by rw [hnear]; exact beq_iff_eq
  by_cases hn : near pa = true
  · have hstores : settleStores s.th.id pa (data k).length s = s :=
      settleStores_apart fun p hp => by rw [hlen]; exact hapart p hp pa List.mem_cons_self
    have hown : settleOwn s.th.id pa (data k).length s = s := by rw [settleOwn, hstores, hreds', settleLines_id hq]
    obtain ⟨u, hu, hstored⟩ := storePaAt_home hinv (hdev pa List.mem_cons_self) (hhome.mp hn) hown
      (by rw [hlen]; exact hok pa List.mem_cons_self hn) 0 (va + BitVec.ofNat 64 (8 * k)) ex
    refine ⟨u, hu, ⟨fun x => ?_, hstored.thread, ?_⟩, hstored.inv, hstored.errors⟩
    · rw [hstored.stores x, hlen, stmByte, hn]
      simp [stmByte]
    · rw [stmPosts, if_pos hn, stmPosts, List.append_nil]
      exact hstored.frame
  · refine ⟨_, storePaAt_away (hdev pa List.mem_cons_self) (mt hhome.mpr hn) hreds' 0 _ ex, ⟨fun x => ?_, rfl, ?_⟩, hinv, fun e he => he⟩
    · simp [stmByte, hn]; rfl
    · rw [stmPosts, if_neg hn]; rfl

/-- One store of an STM leaves the rest as ready as it was. -/
theorem StmReady.tail {u : State} (hready : StmReady near (pa :: pas) s) (hlen : (data k).length = 8) (hu : StmStored near va data [pa] k s u)
    (hinv : u.Inv) (herr : ∀ e ∈ u.errors, e ∈ s.errors) : StmReady near pas u := by
  obtain ⟨-, hq, hreds, hnear, hapart, hpair, hdev, hok⟩ := hready
  obtain ⟨hfirst, hpair⟩ := List.pairwise_cons.mp hpair
  have hframe := hu.frame
  refine ⟨hinv, by rw [hframe]; exact hq, by rw [hframe]; exact hreds, by rw [hframe]; exact hnear, fun p hp q hqm => ?_, hpair,
    fun q hqm => hdev q (List.mem_cons_of_mem _ hqm),
    fun q hqm hn => writeFails_mono herr (by rw [hframe]) (hok q (List.mem_cons_of_mem _ hqm) hn)⟩
  rw [hframe] at hp
  obtain hp | hp := List.mem_append.mp hp
  · exact hapart p hp q (List.mem_cons_of_mem _ hqm)
  · rw [stmPosts, stmPosts] at hp
    split at hp
    · cases hp
    · cases List.mem_singleton.mp hp
      rw [hlen, overlap_comm]
      exact hfirst q hqm

theorem StmStored.cons {u t : State} (hfirst : ∀ q ∈ pas, overlap pa 8 q 8 = false) (hu : StmStored near va data [pa] k s u)
    (ht : StmStored near va data pas (k + 1) u t) : StmStored near va data (pa :: pas) k s t := by
  have huf := hu.frame
  refine ⟨fun x => ?_, ?_, ?_⟩
  · rw [ht.bytes x, stmByte]
    have hb := hu.bytes x
    rw [stmByte, stmByte] at hb
    split
    next hin =>
      rw [if_pos hin] at hb
      simp only [Bool.and_eq_true, decide_eq_true_eq] at hin
      rw [stmByte_apart hfirst ⟨hin.1.2, hin.2⟩, hb]
    next hin =>
      rw [if_neg hin] at hb
      exact stmByte_congr hb (by rw [huf]) ..
  · have h1 := hu.thread
    have h2 := ht.thread
    unfold StoreThreadKept at *
    rw [h2, h1]
  · have hthread := hu.thread
    have hframe := ht.frame
    unfold StoreThreadKept at hthread
    rw [stmPosts_congr (s := s) (by rw [hthread]) (by rw [huf])] at hframe
    rw [huf] at hframe
    rw [List.append_assoc, ← stmPosts_cons] at hframe
    exact hframe

/-- The stores of an STM at places that do not overlap. -/
theorem stmWrite_stored (hdata : ∀ i, data i = leBytes 8 (s.g (regOf (d + i))).toNat) (hready : StmReady near pas s) :
    ∃ t, stmWrite pas k d va ex s = .ok () t ∧ StmStored near va data pas k s t := by
  induction pas generalizing k s with
  | nil => exact ⟨s, rfl, fun x => rfl, rfl, by rw [stmPosts, List.append_nil]⟩
  | cons pa pas ih =>
    have hlen : (data k).length = 8 := by rw [hdata, leBytes_length]
    obtain ⟨u, hu, hus, hinv, herr⟩ := stm_store (k := k) (va := va) (ex := ex) hready hlen
    have hg : ∀ r, u.g r = s.g r := fun r => by
      have := hus.thread
      unfold StoreThreadKept at this
      show (if r = 0 then 0 else u.th.regs[r]) = _
      rw [this]; rfl
    obtain ⟨t, ht, hts⟩ := ih (k := k + 1) (fun i => by rw [hdata, hg]) (hready.tail hlen hus hinv herr)
    refine ⟨t, ?_, hus.cons (List.pairwise_cons.mp hready.pairwise).1 hts⟩
    rw [stmWrite, ← hdata]
    exact (Got.bind_of_ok hu _).trans ht

end

/-- STM to addresses that do not overlap: the near doublewords stand in memory, the others are posted. -/
theorem loadAndStoreMultiple_says : Says.LoadAndStoreMultiple := by
  intro s s1 d a n off pas hfeat hd hquiet va data near
  refine ⟨fun hrace hpl hpas => ldm_reads hfeat hd hquiet hrace hpl hpas, fun hinv hstm hpair hpas => ?_⟩
  obtain ⟨hlen, tlb, choices, rfl⟩ := stmFrom_looked (s := s) (tlb := s.tlb) (choices := s.choices) hquiet.wqueue hstm fun pa h => (hpas pa h).2.1
  rw [List.length_range] at hlen
  have hready : StmReady near pas (s.looked tlb choices) := by
    refine ⟨hinv, hquiet.wqueue, hquiet.reds, rfl, fun p hp => ?_, hpair, fun pa h => (hpas pa h).1, fun pa h => (hpas pa h).2.2⟩
    rw [show (s.looked tlb choices).posted = [] from hquiet.posted] at hp
    cases hp
  obtain ⟨u, hu, hstored⟩ := stmWrite_stored (s := s.looked tlb choices) (data := data) (va := va) (k := 0) (d := d.val) (ex := n.toNat + 1) (fun i => rfl) hready
  have hexec : exec (.stm d a n off) s = .next (u.advance 4) := by
    show execStm d a n off s = _
    rw [execStm, if_neg (by omega), gated_on hfeat]
    exact Got.andThen_of_ok ((Got.bind_of_ok hstm _).trans hu) _
  refine .of_eq hexec ?_
  obtain ⟨hbytes, hthread, hframe⟩ := hstored
  unfold StoreThreadKept at hthread
  refine ⟨fun r => ?_, ?_, ?_, fun x => ?_, ?_⟩
  · rw [State.g_advance]
    show (if r = 0 then 0 else u.th.regs[r]) = _
    rw [hthread]; rfl
  · rw [State.advance_th, hthread]; rfl
  · unfold ThreadKept
    rw [State.advance_th, hthread]; rfl
  · show u.mem.read x = _
    rw [hbytes x]
    split
    next i hi => rw [stmByte_some hi, Nat.zero_add]; rfl
    next hi => rw [stmByte_none hi]; rfl
  · simp only [stmPosts_eq, hlen, Nat.zero_add, show (s.looked tlb choices).posted = [] from hquiet.posted, List.nil_append] at hframe
    rw [hframe]; rfl

end Sys2Proof.Machine

open Sys2Proof Sys2Proof.Machine

/-- Settles O14: every place is translated first; then STM is one store after another, to places that do not overlap. -/
theorem loadAndStoreMultiple : Obligations.LoadAndStoreMultiple := loadAndStoreMultiple_says
end

section
/-!
SUPPORT. The atomics, the posted reductions, and FENCE, PHASE and BAR (R135 to R141).
-/

namespace Sys2Proof.Machine

open Sys2Proof

/-! ## What an atomic combines (R34) -/

/-- The signed readings of two words of w bits are equal only where the words are. -/
theorem signed_inj {w x y : Nat} (hx : x < 2 ^ w) (hy : y < 2 ^ w) (h : signed w x = signed w y) : x = y := by
  rw [← wrapInt_signed hx, h, wrapInt_signed hy]

theorem aopApply_min {n x y : Nat} (hx : x < 2 ^ (8 * n)) (hy : y < 2 ^ (8 * n)) (c : Nat) :
    aopApply 2 n x y c = if signed (8 * n) y < signed (8 * n) x then y else x := by
  simp only [aopApply, decide_eq_true_eq]
  split <;> split
  · omega
  · rfl
  · rfl
  · exact signed_inj hy hx (by omega)

theorem aopApply_minn (n x y c : Nat) : aopApply 3 n x y c = min x y := by
  simp only [aopApply]; split <;> omega

theorem aopApply_max (n x y c : Nat) : aopApply 4 n x y c = if signed (8 * n) x < signed (8 * n) y then y else x := by
  simp only [aopApply, decide_eq_true_eq]

theorem aopApply_maxn (n x y c : Nat) : aopApply 5 n x y c = max x y := by
  simp only [aopApply]; split <;> omega

/-! ## Operations at their home -/

section
variable {s : State}

theorem orderAfter_frame (v : View) (s : State) :
    orderAfter v s = { s with th := { s.th with view := (orderAfter v s).th.view, fixed := (orderAfter v s).th.fixed } } := by
  unfold orderAfter
  split <;> rfl

/-- What an operation at its home leaves of a state: the bytes that it writes, and what its continuation has fixed and seen. -/
structure PerformedAt (pa : Nat) (bs : List Byte) (s t : State) : Prop where
  stores : Stores pa bs s t
  frame : StoreFrame s t
  thread : t.th = { s.th with fixed := t.th.fixed, view := t.th.view }

/-- Observing bytes, writing them and unfixing them is an operation at their home. -/
theorem performedAt_poke (hinv : s.Inv) {v : View} {p : Nat} (hp : p ≠ 0) (l pa n : Nat) (bs : List Byte) :
    PerformedAt pa bs s (unfix pa n (poke l p pa bs (orderAfter v s))) := by
  rw [orderAfter_frame, poke_frame]
  refine ⟨?_, rfl, rfl⟩
  exact stores_poke_party (s := { s with th := { s.th with view := (orderAfter v s).th.view, fixed := (orderAfter v s).th.fixed } }) hinv hp l pa bs

/-- An operation at its home leaves the general registers. -/
theorem PerformedAt.g {pa : Nat} {bs : List Byte} {t : State} (h : PerformedAt pa bs s t) (r : Reg) : t.g r = s.g r := by
  show (if r = 0 then 0 else t.th.regs[r]) = _
  rw [h.thread]; rfl

/-- The read-modify-write of an AMO at HBM or die shared memory, with nothing of the continuation under way. -/
theorem amoAt_performed {pa n : Nat} (hinv : s.Inv) (hquiet : Quiet s) (hpa : onDevice pa = true) (hr : readFails s pa n = false)
    (aop b cmp scope : Nat) (va : Word) :
    ∃ t, amoAt aop n pa b cmp scope va s = .ok (leNat (peek s pa n)) t ∧
      PerformedAt pa (leBytes n (aopApply aop n (leNat (peek s pa n)) b cmp)) s t := by
  have hdev : amoAt aop n pa b cmp scope va s = .ok (leNat (peek s pa n))
      (unfix pa n (poke s.launchMark (s.th.id + 1) pa (leBytes n (aopApply aop n (leNat (peek s pa n)) b cmp)) (observe pa n s))) := by
    obtain ⟨j, o, hl⟩ | ⟨j, o, hl⟩ := locOf_of_onDevice hpa <;>
      simp only [amoAt, hl, hquiet.settleOwn, hr, Bool.false_eq_true, if_false]
  exact ⟨_, hdev, performedAt_poke hinv (Nat.succ_ne_zero _) ..⟩

/-- An AMO of n bytes that lands (R135). -/
theorem amo_works {s1 : State} {aop n pa : Nat} {d a b : Reg} {scope : BitVec 3} {i : Instr} {ext : Nat → Word} {f : Nat → Nat → Nat → Nat}
    (hinv : s.Inv) (hquiet : Quiet s) (hi : exec i s = amo aop n d a b scope s)
    (hext : ∀ old, (if aop < 11 then sext (8 * n) old else w64 old) = ext old)
    (hf : ∀ old x c, old < 2 ^ (8 * n) → x < 2 ^ (8 * n) → aopApply aop n old x c = f old x c) : Says.AmoWorks i n d a b ext f s s1 pa := by
  intro hl hr old
  obtain ⟨tlb, choices, hok⟩ := hl.access_eq hquiet.wqueue
  obtain ⟨t, ht, hperf⟩ := amoAt_performed (s := s.looked tlb choices) hinv hquiet hl.2.1 hr aop (lowBytes n (s.g b)) (lowBytes n (s.g d)) scope.toNat (s.g a)
  have hexec : exec i s = .next (t.write4 d (ext old)) := by
    rw [hi, ← hext old]
    exact Got.andThen_of_ok ((Got.bind_of_ok hok _).trans ht) _
  have hold : old < 2 ^ (8 * n) := by
    have := leNat_lt (peek s pa n)
    rwa [peek, List.length_map, List.length_range, show 256 = 2 ^ 8 from rfl, ← pow_mul] at this
  have hval : aopApply aop n (leNat (peek (s.looked tlb choices) pa n)) (lowBytes n (s.g b)) (lowBytes n (s.g d)) = _ :=
    hf old _ _ hold (Nat.mod_lt _ (Nat.two_pow_pos _))
  rw [hval] at hperf
  obtain ⟨hg, hpc, hkept⟩ := setsReg_write4 t d (ext old)
  have hthread := hperf.thread
  refine .of_eq hexec ⟨fun r => ?_, ?_, ?_, ?_, ?_⟩
  · rw [hg r, hperf.g r]; rfl
  · rw [hpc, hthread]; rfl
  · unfold ThreadKept
    rw [hkept, hthread]; rfl
  · have hframe := hperf.frame
    unfold StoreFrame at *
    rw [hkept, hframe]; rfl
  · rw [hkept]; exact hperf.stores

theorem atomicScope_of {scope : BitVec 3} (h3 : 3 ≤ scope.toNat) (h5 : scope.toNat ≤ 5) : atomicScope scope = true := by
  simp [atomicScope, h3, h5]

theorem amoInt_eq {size : BitVec 2} {scope : BitVec 3} (hs : 2 ≤ size.toNat) (h3 : 3 ≤ scope.toNat) (h5 : scope.toNat ≤ 5) (aop : Nat)
    (d a b : Reg) (s : State) : amoInt aop d a b size scope s = amo aop (2 ^ size.toNat) d a b scope s := by
  rw [amoInt, atomicScope_of h3 h5, atomicSize, decide_eq_true hs, if_neg (by decide)]; rfl

theorem amoFloat_eq {scope : BitVec 3} (h3 : 3 ≤ scope.toNat) (h5 : scope.toNat ≤ 5) (aop n : Nat) (d a b : Reg) (s : State) :
    amoFloat aop n d a b scope s = amo aop n d a b scope s := by
  rw [amoFloat, atomicScope_of h3 h5, if_neg (by decide)]

theorem atomicsReadModifyWrite_says : Says.AtomicsReadModifyWrite := by
  intro s s1 d a b size scope pa hinv hquiet hs h3 h5 n w amos
  have hint : ∀ {i aop f}, exec i s = amoInt aop d a b size scope s → aop < 11 →
      (∀ old x c, old < 2 ^ w → x < 2 ^ w → aopApply aop n old x c = f old x c) → amos i f := fun hi haop hf =>
    amo_works hinv hquiet (hi.trans (amoInt_eq hs h3 h5 ..)) (fun old => if_pos haop) hf
  have hfloat : ∀ {i aop n}, exec i s = amoFloat aop n d a b scope s → 11 ≤ aop →
      (∀ old x c, aopApply aop n old x c = aopApply aop n old x 0) →
      Says.AmoWorks i n d a b (fun old => BitVec.ofNat 64 old) (fun old x _ => aopApply aop n old x 0) s s1 pa := fun hi haop hf =>
    amo_works hinv hquiet (hi.trans (amoFloat_eq h3 h5 ..)) (fun old => if_neg (by omega)) fun old x c _ _ => hf old x c
  exact ⟨hint rfl (by decide) fun _ _ _ _ _ => rfl, hint rfl (by decide) fun _ _ c hx hy => aopApply_min hx hy c,
    hint rfl (by decide) fun _ _ c _ _ => aopApply_minn _ _ _ c, hint rfl (by decide) fun _ _ c _ _ => aopApply_max _ _ _ c,
    hint rfl (by decide) fun _ _ c _ _ => aopApply_maxn _ _ _ c, hint rfl (by decide) fun _ _ _ _ _ => rfl,
    hint rfl (by decide) fun _ _ _ _ _ => rfl, hint rfl (by decide) fun _ _ _ _ _ => rfl, hint rfl (by decide) fun _ _ _ _ _ => rfl,
    hint rfl (by decide) fun _ _ _ _ _ => rfl, hfloat rfl (by decide) fun _ _ _ => rfl, hfloat rfl (by decide) fun _ _ _ => rfl⟩

/-! ## Posted reductions (R138) -/

/-- A RED of n bytes that lands is posted. -/
theorem red_posts {s1 : State} {aop n pa : Nat} {a b : Reg} {i : Instr} (hquiet : Quiet s) (hi : exec i s = red aop n a b s)
    (hl : Lands (s.g a) n .rw s pa s1) :
    Gives i s (fun t => RegsKept s t ∧ t.th.pc = s.th.pc + 4 ∧ ThreadKept s t ∧
      t = { s with th := t.th, tlb := t.tlb, choices := t.choices, reds := [⟨s.th.id, s.launchMark, aop, n, pa, s.g a, s.g b, s.nextJob⟩] }) := by
  obtain ⟨tlb, choices, hok⟩ := hl.access_eq hquiet.wqueue
  have hred : redAt aop n pa (s.g b) (s.g a) (s.looked tlb choices) = .ok () { unfix pa n (s.looked tlb choices) with
      reds := [⟨s.th.id, s.launchMark, aop, n, pa, s.g a, s.g b, s.nextJob⟩] } := by
    have hnone : (s.looked tlb choices).reds = [] := hquiet.reds
    obtain ⟨j, o, hl⟩ | ⟨j, o, hl⟩ := locOf_of_onDevice hl.2.1 <;>
      simp only [redAt, hl, Quiet.settleStores (s := s.looked tlb choices) hquiet, hnone, List.nil_append] <;> rfl
  have hexec := hi.trans (Got.andThen_of_ok ((Got.bind_of_ok hok _).trans hred) _)
  exact .of_eq hexec ⟨fun _ => rfl, rfl, rfl, rfl⟩

theorem redInt_eq {size : BitVec 2} {scope : BitVec 3} (hs : 2 ≤ size.toNat) (h3 : 3 ≤ scope.toNat) (h5 : scope.toNat ≤ 5) (aop : Nat)
    (a b : Reg) (s : State) : redInt aop a b size scope s = red aop (2 ^ size.toNat) a b s := by
  rw [redInt, atomicScope_of h3 h5, atomicSize, decide_eq_true hs, if_neg (by decide)]; rfl

theorem redFloat_eq {scope : BitVec 3} (h3 : 3 ≤ scope.toNat) (h5 : scope.toNat ≤ 5) (aop n : Nat) (a b : Reg) (s : State) :
    redFloat aop n a b scope s = red aop n a b s := by
  rw [redFloat, atomicScope_of h3 h5, if_neg (by decide)]

theorem reductionsArePosted_says : Says.ReductionsArePosted := by
  intro s s1 a b size scope pa hquiet hs h3 h5 reds n
  have hint : ∀ {i aop}, exec i s = redInt aop a b size scope s → reds i aop n := fun hi =>
    red_posts hquiet (hi.trans (redInt_eq hs h3 h5 ..))
  have hfloat : ∀ {i aop n}, exec i s = redFloat aop n a b scope s → reds i aop n := fun hi =>
    red_posts hquiet (hi.trans (redFloat_eq h3 h5 ..))
  exact ⟨hint rfl, hint rfl, hint rfl, hint rfl, hint rfl, hint rfl, hint rfl, hint rfl, hfloat rfl, hfloat rfl⟩

/-! ## FENCE, PHASE and BAR (R139 to R141) -/

theorem copiesPending_none (h : s.copies = []) (tid : Nat) : copiesPending s tid = false := by simp [copiesPending, h]

theorem Quiet.underWay (h : Quiet s) (hc : s.copies = []) (stores reds copies window : Bool) : underWay stores reds copies window s = false := by
  simp [Machine.underWay, h.storesPending, h.signalsPending, h.redsPending, h.windowPending, copiesPending_none hc]

theorem seeCopies_frame (on : Bool) (s : State) :
    seeCopies on s = { s with th := { s.th with view := (seeCopies on s).th.view, fixed := (seeCopies on s).th.fixed } } := by
  cases on
  · rfl
  · exact orderAfter_frame ..

theorem mgmt_of_core (h : s.core < 64) : s.mgmt = false := by simp [State.mgmt, h]

theorem launchOnly_core (h : s.core < 64) (k : Out) : launchOnly s k = k := by rw [launchOnly, mgmt_of_core h, if_neg (by decide)]

theorem fence_completes {scope classes : BitVec 3} (hquiet : Quiet s) (hreport : NoReport s) (hcopies : s.copies = []) (h2 : 2 ≤ scope.toNat)
    (h5 : scope.toNat ≤ 5) (hcl : classes ≠ 0) :
    Gives (.fence scope classes) s (fun t => t = { s with th := t.th } ∧ RegsKept s t ∧ t.th.pc = s.th.pc + 4 ∧ ThreadKept s t) := by
  have hexec : exec (.fence scope classes) s = .next ((seeCopies (bit classes.toNat 2) s).advance 4) := by
    show execFence scope classes s = _
    rw [execFence, if_neg (fun h => h.elim (by omega) fun h => h.elim (by omega) hcl), fencePending, hquiet.underWay hcopies, if_neg (by decide), fenceDone,
      hreport.takeDeferred hquiet.outbound]
  rw [seeCopies_frame] at hexec
  exact .of_eq hexec ⟨rfl, fun _ => rfl, rfl, rfl⟩

theorem phase_arrives {d : Reg} (hquiet : Quiet s) (hreport : NoReport s) (hcopies : s.copies = []) (hcore : s.core < 64) :
    Gives (.phase d) s (fun t =>
      t.th = { s.th with
        arrived := true
        status := .blocked (.phase d s.th.phase)
        home := some s.core
        inst := s.ir
        fixed := t.th.fixed
        view := t.th.view } ∧
      (t.coreAt s.core).running = none ∧ t = { s with th := t.th, cores := t.cores }) := by
  have hexec : exec (.phase d) s = .next (blockOn (.phase d s.th.phase)
      { seeCopies true s with th := { (seeCopies true s).th with arrived := true } }) := by
    show execPhase d s = _
    rw [execPhase, launchOnly_core hcore, hquiet.underWay hcopies, if_neg (by decide), hreport.takeDeferred hquiet.outbound]
  rw [seeCopies_frame] at hexec
  refine .of_eq hexec ⟨rfl, ?_, rfl⟩
  exact congrArg Core.running (Table.getD_set_self ..)

theorem bar_counts {a b : Reg} {pa off : Nat} {s1 : State} (hinv : s.Inv) (hquiet : Quiet s) (hcore : s.core < 64) (h1 : 1 ≤ (s.g b).toNat)
    (h2 : (s.g b).toNat ≤ 4096) (hl : Lands (s.g a) 8 .rw s pa s1) (hloc : locOf pa = .dsm (s.core / 8) off) (hr : readFails s pa 8 = false) :
    let bs := leBytes 8 (barStep (leNat (peek s pa 8)) (s.g b).toNat).1
    ∃ t, PerformedAt pa bs s t ∧ exec (.bar a b) s = match (barStep (leNat (peek s pa 8)) (s.g b).toNat).2 with
      | none => .next (t.advance 4)
      | some gen => .next (blockOn (.bar (s.g a) pa (BitVec.ofNat 32 gen)) t) := by
  intro bs
  obtain ⟨tlb, choices, hok⟩ := hl.access_eq hquiet.wqueue
  refine ⟨unfix pa 8 (poke s.launchMark (s.th.id + 1) pa bs (s.looked tlb choices)), ?_, ?_⟩
  · have hperf := performedAt_poke (s := s.looked tlb choices) (v := View.zero) (p := s.th.id + 1) hinv (Nat.succ_ne_zero _) s.launchMark pa 8 bs
    rw [orderAfter_zero] at hperf
    exact ⟨hperf.stores, hperf.frame, hperf.thread⟩
  · show execBar a b s = _
    have hdie : s.core / 8 = coreDie (s.looked tlb choices).core := (if_pos hcore).symm
    have hr' : readFails (s.looked tlb choices) pa 8 = false := hr
    rw [execBar, launchOnly_core hcore]
    dsimp only
    rw [if_neg (by omega)]
    refine (Got.andThen_of_ok hok _).trans ?_
    simp only [hloc, ne_eq, not_true, if_false, ← hdie, Quiet.settleOwn (s := s.looked tlb choices) hquiet, hr', Bool.false_eq_true]
    rfl

theorem fencePhaseBar_says : Says.FencePhaseBar := by
  intro s s1 d a b scope classes pa die off hquiet hreport hcopies
  refine ⟨fence_completes hquiet hreport hcopies, phase_arrives hquiet hreport hcopies, ?_⟩
  intro hinv hcore h1 h2 hl hloc hdie hr word arrived gen
  subst hdie
  obtain ⟨t, hperf, hexec⟩ := bar_counts hinv hquiet hcore h1 h2 hl hloc hr
  refine ⟨fun hlast => ?_, fun hmore => ?_⟩
  · have hstep : barStep word (s.g b).toNat = ((gen + 1) % 2 ^ 32 * 2 ^ 32, none) := if_pos hlast
    rw [hstep] at hperf hexec
    refine .of_eq hexec ⟨hperf.g, ?_, ?_, hperf.stores⟩
    · rw [State.advance_th, hperf.thread]; rfl
    · have hframe := hperf.frame
      unfold StoreFrame State.advance State.setPc at *
      rw [hframe]
  · have hstep : barStep word (s.g b).toNat = (gen * 2 ^ 32 + arrived, some gen) := if_neg (by omega)
    rw [hstep] at hperf hexec
    refine .of_eq hexec ⟨hperf.g, ?_, rfl, hperf.stores⟩
    show t.th.pc = _
    rw [hperf.thread]

end

end Sys2Proof.Machine

open Sys2Proof Sys2Proof.Machine

/-- Settles O15: one operation at the home, and the combination of each AtomicOp. -/
theorem atomicsReadModifyWrite : Obligations.AtomicsReadModifyWrite := atomicsReadModifyWrite_says

/-- Settles O16: with nothing of the continuation under way, a RED is the one posted reduction. -/
theorem reductionsArePosted : Obligations.ReductionsArePosted := reductionsArePosted_says

/-- Settles O17: a quiet continuation waits for nothing, and BAR is one operation at the bank. -/
theorem fencePhaseBar : Obligations.FencePhaseBar := fencePhaseBar_says
end

section
/-!
SUPPORT. A reduction performed at die shared memory on a page of a version heap (R401).
-/

namespace Sys2Proof.Machine

open Sys2Proof

theorem finishPosted_parts (owner job : Nat) (seqs : List Nat) (s : State) : (finishPosted owner job seqs s).parts = s.parts := by
  unfold finishPosted
  split
  · rfl
  · split <;> rfl

/-- A reduction that is applied undoes the versions of a heap whose page it reaches. -/
theorem applyRed_parts {r : PostedRed} {s : State} (h : readFails s r.pa r.bytes = false) : (applyRed r s).parts = (touchHeap r.pa s).parts := by
  rw [applyRed, h, if_neg (by decide), finishPosted_parts, poke_frame]

/-- A posted addition of 1 to the first doubleword of the shared memory of die 0. -/
def heapRed : PostedRed := { owner := 0, mark := 0, aop := 1, bytes := 8, pa := 2 ^ 40, va := 0, value := 1, job := 0 }

/-- A state in which that doubleword stands on a page of the heap of a region, and the addition is under way. -/
def heapState : State :=
  { State.reset with
    reds := [heapRed]
    parts := [(1, { Partition.blank with regions := [(0, { (default : Region) with pages := [2 ^ 40] })] })] }

/-- Whether the versions of the regions are undefined, partition by partition. -/
def State.spoils (s : State) : List (List Bool) := s.parts.map (fun p => p.2.regions.map (fun r => r.2.spoiled))

theorem heapState_answer {t : State} (h : exec (.postedReductionPerform 0) heapState = .next t) : t.spoils = [[true]] := by
  cases h
  show ((applyRed heapRed _).parts.map _) = _
  rw [applyRed_parts rfl]
  rfl

theorem not_postedAccessesArePerformed_says : ¬ Says.PostedAccessesArePerformed := by
  intro h
  have hdsm := ((h heapState 0 0 ⟨0, 0, 0, [], 0, 0⟩ heapRed rfl).2.1 rfl (fun q hq => absurd hq List.not_mem_nil)).1 0 0 (by decide) (by decide)
  obtain ⟨t, hexec, -, -, hframe⟩ := hdsm
  have hspoiled := heapState_answer hexec
  rw [hframe] at hspoiled
  exact absurd (show heapState.spoils = [[true]] from hspoiled) (by decide)

end Sys2Proof.Machine

open Sys2Proof Sys2Proof.Machine

/-- Refutes O45: a reduction performed on a page of a version heap makes the versions of its region undefined (R401), and the clause on die shared
memory has the partitions as they were. -/
theorem not_postedAccesses : ¬ Obligations.PostedAccesses := not_postedAccessesArePerformed_says
end

section
/-!
SUPPORT. The ends of waits, the dispatch of continuations and the phase boundary (R140, R149, R153, R219 to R221, R285, R320).
-/

namespace Sys2Proof.Machine

open Sys2Proof

/-! ## A continuation joins its queue -/

/-- The end-of-pass check touches the registers, the program counter and the loop. -/
theorem Thread.loopEnd_frame (t : Thread) :
    t.loopEnd = { t with regs := t.loopEnd.regs, pc := t.loopEnd.pc, loop := t.loopEnd.loop, noBreak := t.loopEnd.noBreak } := by
  have hset : ∀ (r : Reg) (v : Word), t.setG r v = { t with regs := (t.setG r v).regs } := fun r v => by
    unfold Thread.setG; split <;> rfl
  unfold Thread.loopEnd
  dsimp only
  rw [hset]
  split
  · rfl
  split
  · split <;> rfl
  split <;> rfl

/-- What its launch holds on a die once a continuation has joined its queue there (R221). -/
def Thread.joins (t : Thread) (d : LaunchDie) : LaunchDie :=
  if t.prio then { d with high := d.high ++ [t.id] } else { d with low := d.low ++ [t.id] }

/-- Two continuations that join the same queue under the same number. -/
structure Thread.SameQueue (t u : Thread) : Prop where
  launch : u.launch = t.launch
  die : u.die = t.die
  prio : u.prio = t.prio
  id : u.id = t.id

theorem Thread.SameQueue.joins {t u : Thread} (h : t.SameQueue u) (d : LaunchDie) : u.joins d = t.joins d := by
  unfold Thread.joins
  rw [h.prio, h.id]

/-- The continuation with a number stands last in the queue of its priority. -/
def QueuedAgain (l : Nat) (v : Launch) (s t : State) : Prop :=
  ∃ x, Table.find l t.launches = some x ∧ (if s.th.prio then (x.die s.th.die).high else (x.die s.th.die).low)
    = (if s.th.prio then (v.die s.th.die).high else (v.die s.th.die).low) ++ [s.th.id]

/-- A launch after one of its continuations has joined its queue. -/
def Launch.joined (v : Launch) (t : Thread) : Launch := v.setDie t.die (t.joins (v.die t.die))

section
variable {s : State} {l : Nat} {v : Launch}

theorem QueuedAgain.of_joined {t : State} (h : t.launches = Table.set l (v.joined s.th) s.launches) : QueuedAgain l v s t := by
  refine ⟨v.joined s.th, by rw [h, Table.find_set_self], ?_⟩
  rw [Launch.joined, Launch.die_setDie, Thread.joins]
  cases s.th.prio <;> rfl

/-- The executing continuation joins its queue. -/
theorem enqueue_own {t : Thread} (hl : t.launch = some l) (hid : s.th.id = t.id) (hv : Table.find l s.launches = some v) :
    enqueue t s = { s with th := { t with status := .queued }, launches := Table.set l (v.joined t) s.launches } := by
  have hjoin : enqueue t s = (s.putThread { t with status := .queued }).mapDie l t.die t.joins := by
    unfold enqueue
    split
    next h => cases hl.symm.trans h
    next h => cases hl.symm.trans h; rfl
  rw [hjoin, State.putThread, if_pos hid]
  exact State.mapLaunch_of_find (s := { s with th := { t with status := .queued } }) hv _

theorem keepRunning_frame (core : Nat) (was : Option Nat) (s : State) : keepRunning core was s = { s with cores := (keepRunning core was s).cores } := by
  unfold keepRunning
  split
  · split
    · split <;> rfl
    · rfl
  · rfl

/-- A wait whose instruction completes: the end-of-pass check is taken and the continuation joins its queue again. -/
theorem wakeWith_next {k : State → Out} {u : State} (hl : s.th.launch = some l) (hk : k { s with th := { s.th with status := .queued } } = .next u)
    (hst : u.th.status = .queued) (hsame : s.th.SameQueue u.th) (hv : Table.find l u.launches = some v) :
    ∃ cores, wakeWith k s = .next { u with th := u.th.loopEnd, cores := cores, launches := Table.set l (v.joined s.th) u.launches } := by
  have hend := Thread.loopEnd_frame u.th
  have hq : u.th.loopEnd.status = .queued := by rw [hend]; exact hst
  have hsame' : s.th.SameQueue u.th.loopEnd := by rw [hend]; exact ⟨hsame.launch, hsame.die, hsame.prio, hsame.id⟩
  refine ⟨(keepRunning s.core (s.coreAt s.core).running (loopEnd u)).cores, ?_⟩
  have hjoined : v.joined u.th.loopEnd = v.joined s.th := by
    unfold Launch.joined
    rw [hsame'.joins, hsame'.die]
  have hstay : { u.th.loopEnd with status := .queued } = u.th.loopEnd := by rw [← hq]
  have hkeep := keepRunning_frame s.core (s.coreAt s.core).running (loopEnd u)
  have hwake : wakeWith k s = .next (enqueue u.th.loopEnd (keepRunning s.core (s.coreAt s.core).running (loopEnd u))) := by
    rw [wakeWith, hk]
    dsimp only [requeue]
    rw [hkeep, if_pos (by exact hq)]
    rfl
  rw [hwake, enqueue_own (hsame'.launch.trans hl) (by rw [hkeep]; rfl) (by rw [hkeep]; exact hv), hjoined, hstay, hkeep]
  rfl

/-! ## The ends of waits -/

theorem focusBlocked_own {w : Wait} (hhome : s.th.home = some s.core) (hst : s.th.status = .blocked w) : focusBlocked s.th.id s = some (w, s) := by
  have hlive : s.th.status ≠ .exited := by rw [hst]; exact ThreadStatus.noConfusion
  have hthread : s.thread? s.th.id = some s.th := by rw [State.thread?, if_pos rfl, if_neg hlive]
  unfold focusBlocked
  simp only [hthread, hst, State.focus, if_true, hhome, Option.getD_some]

theorem complete_eq {w : Wait} (hhome : s.th.home = some s.core) (hst : s.th.status = .blocked w) (hover : waitOver w s = true) :
    exec (.blockedInstructionComplete s.th.id) s = finishWait w s := by
  show execBlockedInstructionComplete s.th.id s = _
  unfold execBlockedInstructionComplete
  simp only [focusBlocked_own hhome hst, hover, if_true]

/-- The continuation whose wait is over. -/
def State.woken (s : State) : State := { s with th := { s.th with status := .queued } }

/-- What the end of a wait leaves where its instruction completes as u: the end-of-pass check is taken and the continuation joins its queue. -/
structure WakesAs (l : Nat) (v : Launch) (s u t : State) : Prop where
  th : t.th = u.th.loopEnd
  launches : t.launches = Table.set l (v.joined s.th) u.launches
  core : t.core = u.core
  ctxs : t.ctxs = u.ctxs
  runs : t.runs = u.runs

theorem WakesAs.queued {u t : State} (h : WakesAs l v s u t) (hu : u.launches = s.launches) : QueuedAgain l v s t :=
  .of_joined (by rw [h.launches, hu])

/-- The end of a wait whose instruction completes as u. -/
theorem wait_ends {i : Instr} {w : Wait} {u : State} (hl : s.th.launch = some l) (hi : exec i s = wakeWith (endWait w) s) (hk : endWait w s.woken = .next u)
    (hst : u.th.status = .queued) (hsame : s.th.SameQueue u.th) (hv : Table.find l u.launches = some v) : Gives i s (WakesAs l v s u) := by
  obtain ⟨cores, hwake⟩ := wakeWith_next hl hk hst hsame hv
  exact .of_eq (hi.trans hwake) ⟨rfl, rfl, rfl, rfl, rfl⟩

theorem woken_advance (s : State) : (s.woken.advance 4).th = { s.th with pc := s.th.pc + 4, status := .queued } := rfl

theorem woken_write4 {u : State} (hu : u.th = s.woken.th) (d : Reg) (x : Word) :
    (u.write4 d x).th = { s.th.setG d x with pc := s.th.pc + 4, status := .queued } := by
  rw [State.write4, State.advance_th, State.setG_thread, hu]
  unfold Thread.setG
  split <;> rfl

theorem Thread.SameQueue.setG (t : Thread) (d : Reg) (x : Word) : t.SameQueue (t.setG d x) := by
  unfold Thread.setG
  split <;> exact ⟨rfl, rfl, rfl, rfl⟩

theorem Thread.SameQueue.refl (t : Thread) : t.SameQueue t := ⟨rfl, rfl, rfl, rfl⟩

theorem Thread.SameQueue.next {t u : Thread} (h : t.SameQueue u) (pc : Word) : t.SameQueue { u with pc := pc, status := .queued } :=
  ⟨h.launch, h.die, h.prio, h.id⟩

/-- The end of a wait after which the continuation p goes on at the next instruction. -/
theorem wait_done {i : Instr} {w : Wait} {u : State} {p : Thread} (hl : s.th.launch = some l) (hv : Table.find l s.launches = some v)
    (hi : exec i s = wakeWith (endWait w) s) (hk : endWait w s.woken = .next u) (hth : u.th = { p with pc := s.th.pc + 4, status := .queued })
    (hsame : s.th.SameQueue p) (hlaunches : u.launches = s.launches) :
    Gives i s (fun t => t.th = Thread.loopEnd { p with pc := s.th.pc + 4, status := .queued } ∧ QueuedAgain l v s t ∧ WakesAs l v s u t) := by
  obtain ⟨t, ht, hwakes⟩ := wait_ends hl hi hk (by rw [hth]) (by rw [hth]; exact hsame.next _) (by rw [hlaunches]; exact hv)
  exact ⟨t, ht, by rw [hwakes.th, hth], hwakes.queued hlaunches, hwakes⟩

theorem again_ends {why arg : Nat} (hl : s.th.launch = some l) (hv : Table.find l s.launches = some v) (hhome : s.th.home = some s.core)
    (hst : s.th.status = .blocked (.again why arg)) (hover : waitOver (.again why arg) s = true) :
    Gives (.blockedInstructionComplete s.th.id) s (fun t => t.th = { s.th with status := .queued, noBreak := why != 0 } ∧ QueuedAgain l v s t) := by
  have hexec := complete_eq hhome hst hover
  refine .of_eq (hexec.trans (congrArg Host.Outcome.next (enqueue_own hl rfl hv))) ⟨rfl, ?_⟩
  exact QueuedAgain.of_joined rfl

/-- STRFREE of a FIFO that no segment names any longer. -/
theorem strfree_ends {d : Reg} {f : Nat} {x : Fifo} (hl : s.th.launch = some l) (hv : Table.find l s.launches = some v)
    (hhome : s.th.home = some s.core) (hst : s.th.status = .blocked (.strfree d f)) (hf : Table.find f (v.die s.th.die).fifos = some x)
    (hbound : x.bound = true) (hfree : fifoNamed s l s.th.die f = false) :
    Gives (.blockedInstructionComplete s.th.id) s (fun t =>
      t.th = Thread.loopEnd { s.th.setG d (BitVec.ofNat 64 (x.wpos - x.start)) with pc := s.th.pc + 4, status := .queued } ∧
        ∃ y, Table.find l t.launches = some y ∧ Table.find f (y.die s.th.die).fifos = some { x with bound := false }) := by
  have hexec := complete_eq hhome hst (by simp [waitOver, hl, hfree])
  have hk : endWait (.strfree d f) s.woken = .next (strfreeDone d l s.th.die f x s.woken) := by
    have hl' : s.woken.th.launch = some l := hl
    have hlaunch : s.woken.launch? = some v := by
      unfold State.launch?
      simp only [hl']
      exact hv
    have hf' : Table.find f (v.die s.woken.th.die).fifos = some x := hf
    show strfreeEnd d f s.woken = _
    unfold strfreeEnd
    simp only [hl', hlaunch, hf', hbound, if_true]
    rfl
  have hlaunches : (strfreeDone d l s.th.die f x s.woken).launches =
      Table.set l (v.setDie s.th.die { v.die s.th.die with fifos := Table.set f { x with bound := false } (v.die s.th.die).fifos }) s.launches := by
    rw [strfreeDone, State.write4_launches, State.mapDie, State.mapLaunch_of_find (s := s.woken) hv]
    rfl
  have hth : (strfreeDone d l s.th.die f x s.woken).th =
      { s.th.setG d (BitVec.ofNat 64 (x.wpos - x.start)) with pc := s.th.pc + 4, status := .queued } := by
    refine woken_write4 ?_ ..
    rw [State.mapDie, State.mapLaunch_of_find (s := s.woken) hv]
    rfl
  obtain ⟨t, ht, hwakes⟩ := wait_ends hl hexec hk (by rw [hth]) (by rw [hth]; exact (Thread.SameQueue.setG ..).next _)
    (by rw [hlaunches, Table.find_set_self])
  refine ⟨t, ht, by rw [hwakes.th, hth], _, by rw [hwakes.launches, Table.find_set_self], ?_⟩
  rw [Launch.joined, Launch.die_setDie, Launch.die_setDie, Thread.joins]
  split <;> exact Table.find_set_self ..

theorem vertrap_ends {w : Wait} {c : Nat} {x : Word} (hl : s.th.launch = some l) (hv : Table.find l s.launches = some v)
    (hi : exec (.blockedInstructionComplete s.th.id) s = wakeWith (endWait w) s) (hk : endWait w s.woken = .next (trap c x s.woken))
    (hc : c ≠ cMEMERR) (hin : s.th.inTrap = false) (hvec : s.th.trapVec ≠ 0) :
    Gives (.blockedInstructionComplete s.th.id) s (fun t => t.th.pc = s.th.trapVec ∧ t.th.trapCause = BitVec.ofNat 64 c ∧ t.th.trapVal = x ∧
      t.th.trapPc = s.th.pc ∧ t.th.inTrap = true ∧ t.th.status = .queued ∧ QueuedAgain l v s t) := by
  rw [trap, trapAt_eq_entry hc, trapEntry_handled (s := s.woken) hin hvec] at hk
  obtain ⟨t, ht, hwakes⟩ := wait_ends hl hi hk rfl ⟨rfl, rfl, rfl, rfl⟩ hv
  have hth := hwakes.th
  rw [Thread.loopEnd_inactive rfl] at hth
  refine ⟨t, ht, ?_⟩
  dsimp only
  rw [hth]
  exact ⟨rfl, rfl, rfl, rfl, rfl, rfl, hwakes.queued rfl⟩

/-- The end of a wait that writes g[d] and goes on. -/
theorem wait_gives {i : Instr} {w : Wait} {u : State} {d : Reg} {x : Word} (hl : s.th.launch = some l) (hv : Table.find l s.launches = some v)
    (hi : exec i s = wakeWith (endWait w) s) (hk : endWait w s.woken = .next (u.write4 d x)) (hth : u.th = s.woken.th)
    (hlaunches : u.launches = s.launches) :
    Gives i s (fun t => (t.th = Thread.loopEnd { s.th.setG d x with pc := s.th.pc + 4, status := .queued } ∧ QueuedAgain l v s t) ∧
      WakesAs l v s (u.write4 d x) t) := by
  obtain ⟨t, ht, hend, hq, hwakes⟩ := wait_done hl hv hi hk (woken_write4 hth ..) (.setG ..) ((State.write4_launches ..).trans hlaunches)
  exact ⟨t, ht, ⟨hend, hq⟩, hwakes⟩

/-- The end of a wait that goes on. -/
theorem wait_advances {i : Instr} {w : Wait} (hl : s.th.launch = some l) (hv : Table.find l s.launches = some v)
    (hi : exec i s = wakeWith (endWait w) s) (hk : endWait w s.woken = .next (s.woken.advance 4)) :
    Gives i s (fun t => t.th = Thread.loopEnd { s.th with pc := s.th.pc + 4, status := .queued } ∧ QueuedAgain l v s t) := by
  obtain ⟨t, ht, hend, hq, -⟩ := wait_done hl hv hi hk (woken_advance s) (.refl _) rfl
  exact ⟨t, ht, hend, hq⟩

/-- FENCE goes on once nothing that it names is under way. -/
theorem fenceDone_quiet {scope classes : Nat} (hquiet : Quiet s) (hreport : NoReport s) (hcopied : s.th.copied = View.zero) :
    fenceDone scope classes s = s.advance 4 := by
  have hsee : seeCopies (bit classes 2) s = s := by
    rw [seeCopies, hcopied, orderAfter_zero, ite_self]
  rw [fenceDone, hreport.takeDeferred hquiet.outbound, hsee]

/-- A record with nothing to be seen, not stored, leaves the queue and gives its header. -/
theorem takeRecord_plain {d : Reg} {r : EvRecord} (hview : r.view = View.zero) :
    takeRecord d 0 true r s = .next ((s.putCtx { s.ctx with events := s.ctx.events.erase r }).write4 d r.header) := by
  show Host.Outcome.next ((orderAfter r.view _).write4 d r.header) = _
  rw [hview, orderAfter_zero]
  rfl

/-- An EVWAIT that ends with a record takes it from the core. -/
theorem evwait_ends {d : Reg} {deadline : Option Nat} {r : EvRecord} (hl : s.th.launch = some l) (hv : Table.find l s.launches = some v)
    (hhome : s.th.home = some s.core) (hst : s.th.status = .blocked (.evwait d 0 deadline)) (hr : oldestRecord s = some r) (hview : r.view = View.zero) :
    Gives (.blockedInstructionComplete s.th.id) s (fun t =>
      (t.th = Thread.loopEnd { s.th.setG d r.header with pc := s.th.pc + 4, status := .queued } ∧ QueuedAgain l v s t) ∧
      t.ctx.events = s.ctx.events.erase r) := by
  have hk : endWait (.evwait d 0 deadline) s.woken = .next ((s.woken.putCtx { s.ctx with events := s.ctx.events.erase r }).write4 d r.header) := by
    have hr' : oldestRecord s.woken = some r := hr
    unfold endWait
    simp only [hr']
    exact takeRecord_plain hview
  obtain ⟨t, ht, hends, hwakes⟩ := wait_gives hl hv (complete_eq hhome hst (by simp [waitOver, hr])) hk rfl rfl
  have hlaunch : t.th.launch = s.th.launch := by
    rw [hends.1, Thread.loopEnd_frame]
    exact (Thread.SameQueue.setG s.th d r.header).launch
  have hcore : t.core = s.core := hwakes.core.trans (State.write4_core ..)
  have hctxs : t.ctxs = Table.set (ctxKey s.th.launch s.core) { s.ctx with events := s.ctx.events.erase r } s.ctxs :=
    hwakes.ctxs.trans (State.write4_ctxs ..)
  refine ⟨t, ht, hends, ?_⟩
  rw [State.ctx, State.ctxAt, hlaunch, hcore, hctxs, Table.getD_set_self]

theorem waitsEnd_says : Says.WaitsEnd := by
  intro s l v w d hl hv hhome hst queue queued ends done gives
  have hover : finishWait w s = wakeWith (endWait w) s → waitOver w s = true →
      exec (.blockedInstructionComplete s.th.id) s = wakeWith (endWait w) s := fun hf ho => (complete_eq hhome hst ho).trans hf
  refine ⟨?_, ?_, ?_, ?_, ?_, ?_, ?_, ?_, ?_, ?_, ?_, ?_⟩
  · rintro why arg rfl hover
    exact again_ends hl hv hhome hst hover
  · rintro scope classes rfl hquiet hreport hcopies hcopied
    exact wait_advances hl hv (hover rfl (by simp [waitOver, fencePending, hquiet.underWay hcopies]))
      (congrArg Host.Outcome.next (fenceDone_quiet (s := s.woken) hquiet hreport hcopied))
  · rintro va pa gen rfl hne
    exact wait_advances hl hv (hover rfl (by simpa [waitOver] using hne)) rfl
  · rintro deadline r rfl hr hview
    obtain ⟨t, ht, hends, hevents⟩ := evwait_ends hl hv hhome hst hr hview
    exact ⟨⟨t, ht, hends⟩, t, ht, hevents⟩
  · rintro id r rfl hr hticket
    have hk : endWait (.segrun d id) s.woken = .next (s.woken.write4 d (w64 r.ticket)) := by
      have hr' : Table.find id s.woken.runs = some r := hr
      simp only [endWait, segrunEnd, hr']
    obtain ⟨t, ht, hends, -⟩ := wait_gives hl hv (hover rfl (by simpa [waitOver, hr] using hticket)) hk rfl rfl
    exact ⟨t, ht, hends⟩
  · rintro id r rfl hr hended
    have hk : endWait (.segwait d id none) s.woken = .next ({ s.woken with runs := Table.erase id s.runs }.write4 d (w64 r.result)) := by
      have hr' : Table.find id s.woken.runs = some r := hr
      simp only [endWait, segwaitEnd, hr']
      rfl
    obtain ⟨t, ht, hends, hwakes⟩ := wait_gives hl hv (hover rfl (by simp [waitOver, hr, hended])) hk rfl rfl
    exact ⟨⟨t, ht, hends⟩, t, ht, hwakes.runs.trans (State.write4_runs ..)⟩
  · rintro f x rfl hf hbound hfree
    exact strfree_ends hl hv hhome hst hf hbound hfree
  · rintro job rfl hstored
    have hk : endWait (.flsig d job) s.woken = .next ({ s.woken with flushes := s.flushes.filter (fun j => j.id != job) }.write4 d
        (BitVec.ofNat 64 (if s.flushes.any (fun j => j.id == job && j.failed) then cMEMERR else 0))) := by
      rw [apply_ite (BitVec.ofNat 64)]
      rfl
    obtain ⟨t, ht, hends, -⟩ := wait_gives hl hv (hover rfl (by simp [waitOver, hstored])) hk rfl rfl
    exact ⟨t, ht, hends⟩
  · rintro rfl
    exact wait_advances hl hv (hover rfl rfl) rfl
  · rintro part n rfl hfree
    obtain ⟨t, ht, hends, -⟩ := wait_gives (u := s.woken) hl hv (hover rfl (by simp [waitOver, hfree])) rfl rfl rfl
    exact ⟨t, ht, hends⟩
  · intro hin hvec x c hw
    rcases hw with ⟨rfl, rfl⟩ | ⟨rfl, rfl⟩
    · exact vertrap_ends hl hv (hover rfl rfl) rfl (by decide) hin hvec
    · exact vertrap_ends hl hv (hover rfl rfl) rfl (by decide) hin hvec
  · rintro a deadline rfl hnone hpassed
    have hexec : exec (.evwaitTimeout s.th.id) s = wakeWith (endWait (.evwait d a (some deadline))) s := by
      show execEvwaitTimeout s.th.id s = _
      unfold execEvwaitTimeout
      simp only [focusBlocked_own hhome hst, if_pos (And.intro hpassed hnone)]
      rfl
    have hk : endWait (.evwait d a (some deadline)) s.woken = .next (s.woken.write4 d 0) := by
      have hnone' : oldestRecord s.woken = none := hnone
      simp only [endWait, hnone']
    obtain ⟨t, ht, hends, -⟩ := wait_gives hl hv hexec hk rfl rfl
    exact ⟨t, ht, hends⟩

/-! ## Dispatch -/

theorem mapDie_frame (l d : Nat) (f : LaunchDie → LaunchDie) (s : State) : s.mapDie l d f = { s with launches := (s.mapDie l d f).launches } := by
  unfold State.mapDie State.mapLaunch
  split <;> rfl

/-- The continuation with a number comes to execute. -/
theorem focus_th {tid : Nat} {th : Thread} (hth : s.thread? tid = some th) : (s.focus tid).th = th := by
  unfold State.thread? at hth
  unfold State.focus
  by_cases hid : s.th.id = tid
  · rw [if_pos hid] at hth ⊢
    split at hth
    · cases hth
    · cases hth; rfl
  · rw [if_neg hid] at hth ⊢
    simp only [hth]

theorem focus_frame (tid : Nat) (s : State) : s.focus tid = { s with th := (s.focus tid).th, threads := (s.focus tid).threads } := by
  unfold State.focus
  split
  · rfl
  · split <;> rfl

/-- A core takes up a continuation; a root gets its stack pointer on its first dispatch. -/
theorem dispatch_takes {core tid : Nat} {th : Thread} (hth : s.thread? tid = some th) :
    ((dispatch core l tid s).coreAt core).running = some tid ∧ (dispatch core l tid s).th = { th with
      status := .running core
      fresh := false
      regs := if th.root && th.fresh then th.regs.set 30 ((s.ctxAt (some l) core).stkBase + (s.ctxAt (some l) core).stkSize) else th.regs } := by
  have hfocus : ∀ f, ((s.mapDie l (coreDie core) f).focus tid).th = th ∧ ((s.mapDie l (coreDie core) f).focus tid).ctxs = s.ctxs := fun f => by
    rw [mapDie_frame]
    exact ⟨focus_th (s := { s with launches := (s.mapDie l (coreDie core) f).launches }) hth, by rw [focus_frame]⟩
  refine ⟨congrArg Core.running (Table.getD_set_self ..), ?_⟩
  unfold dispatch rootStack State.ctxAt
  simp only [hfocus]

theorem coresTakeContinuations_says : Says.CoresTakeContinuations := by
  intro s core l tid v th hcore hidle hv hoffers hprio others hturn hnext hth hid c
  have hexec : exec (.continuationDispatch core l) s = .next (takeTurn core l (dispatch core l tid s)) := by
    show execContinuationDispatch core l s = _
    have hbusy : ¬(64 ≤ core ∨ (s.coreAt core).running.isSome = true) := by simp [hidle]; omega
    have hhigher : others.any (fun w => decide (launchPrio s v < launchPrio s w.2)) = false := by
      refine List.any_eq_false.mpr fun w hw => ?_
      obtain ⟨hmem, hoff⟩ := List.mem_filter.mp hw
      have := hprio w hmem hoff
      simp only [decide_eq_true_eq]
      omega
    have hfirst : (!offers s core v || others.any (fun w => decide (launchPrio s v < launchPrio s w.2))
        || !inTurn s core ((others.filter (fun w => launchPrio s w.2 == launchPrio s v)).map (·.1)) l) = false := by
      rw [hoffers, hhigher, hturn]; rfl
    unfold execContinuationDispatch
    rw [if_neg hbusy]
    simp only [hv, hnext]
    exact if_neg (by rw [hfirst]; decide)
  exact .of_eq hexec (dispatch_takes hth)

/-! ## The phase boundary -/

/-- The phase of a launch, and whether it has a frozen placement table, stay as they are. -/
def PhaseKept (l : Nat) (s t : State) : Prop :=
  ∀ v, Table.find l s.launches = some v → ∃ w, Table.find l t.launches = some w ∧ w.phase = v.phase ∧ w.frozenT = v.frozenT

theorem PhaseKept.of_launches {t : State} (h : t.launches = s.launches) : PhaseKept l s t := fun v hv => ⟨v, by rw [h]; exact hv, rfl, rfl⟩

theorem PhaseKept.trans {t u : State} (h : PhaseKept l s t) (h' : PhaseKept l t u) : PhaseKept l s u := fun v hv => by
  obtain ⟨w, hw, hphase, hfrozen⟩ := h v hv
  obtain ⟨x, hx, hphase', hfrozen'⟩ := h' w hw
  exact ⟨x, hx, hphase'.trans hphase, hfrozen'.trans hfrozen⟩

theorem mapDie_phaseKept (k d : Nat) (f : LaunchDie → LaunchDie) : PhaseKept l s (s.mapDie k d f) := fun v hv => by
  unfold State.mapDie State.mapLaunch
  split
  next w hw =>
    by_cases hk : l = k
    · subst hk
      cases hv.symm.trans hw
      exact ⟨_, Table.find_set_self .., rfl, rfl⟩
    · exact ⟨v, (Table.find_set_ne hk ..).trans hv, rfl, rfl⟩
  next => exact ⟨v, hv, rfl, rfl⟩

theorem enqueue_phaseKept (t : Thread) : PhaseKept l s (enqueue t s) := by
  have hput : (s.putThread { t with status := .queued }).launches = s.launches := by unfold State.putThread; split <;> rfl
  unfold enqueue
  split
  · refine .of_launches ?_
    unfold State.putThread
    split <;> rfl
  · exact (PhaseKept.of_launches hput).trans (mapDie_phaseKept _ _ _)

/-- Requeuing a continuation keeps the phases. -/
theorem wakeWith_phaseKept {k : State → Out} {t u : State} (hk : k { s with th := { s.th with status := .queued } } = .next u)
    (hu : u.launches = s.launches) (ht : wakeWith k s = .next t) : PhaseKept l s t := by
  have hkeep := keepRunning_frame s.core (s.coreAt s.core).running (loopEnd u)
  have hkept : PhaseKept l s (keepRunning s.core (s.coreAt s.core).running (loopEnd u)) := .of_launches (by rw [hkeep]; exact hu)
  rw [wakeWith, hk] at ht
  dsimp only [requeue] at ht
  cases ht
  split
  · exact hkept.trans (enqueue_phaseKept _)
  · exact hkept

theorem focusBlocked_launches {tid : Nat} {w : Wait} {t : State} (h : focusBlocked tid s = some (w, t)) : t.launches = s.launches := by
  unfold focusBlocked at h
  split at h
  · cases h
  · split at h
    · cases h
      show (s.focus tid).launches = _
      rw [focus_frame]
    · cases h

theorem passBoundary_phaseKept (tid : Nat) : PhaseKept l s (passBoundary tid s) := by
  unfold passBoundary
  split
  next d p s1 hfocus =>
    split
    next s2 hfinish =>
      have hwake := wakeWith_phaseKept (l := l) (k := endWait (.phase d p)) rfl (State.write4_launches ..) hfinish
      exact (PhaseKept.of_launches (focusBlocked_launches hfocus)).trans hwake
    · exact .of_launches rfl
  · exact .of_launches rfl

theorem passBoundaries_phaseKept (ts : List Thread) : PhaseKept l s (ts.foldl (fun u t => passBoundary t.id u) s) := by
  induction ts generalizing s with
  | nil => exact .of_launches rfl
  | cons t ts ih => exact (passBoundary_phaseKept t.id).trans ih

/-- The launch in its next phase. -/
def Launch.nextPhase (v : Launch) : Launch := { v with phase := v.phase + 1, frozenT := none }

theorem execPhaseBoundary_eq (hv : Table.find l s.launches = some v) (hplaced : v.status = .placed) (hreached : phaseReached s l = true) :
    exec (.phaseBoundary l) s = .next ((s.threadsOf l).foldl (fun u t => passBoundary t.id u) (s.setLaunch l v.nextPhase)) := by
  show execPhaseBoundary l s = _
  unfold execPhaseBoundary
  simp only [hv]
  rw [if_neg (by simp [hplaced, hreached]), State.mapLaunch_of_find hv]
  rfl

/-- What a launch's phase is ordered after does not hang on what stands at the launches' numbers. -/
theorem presentView_setLaunch {w : Launch} (hv : Table.find l s.launches = some v) (k : Nat) : presentView (s.setLaunch l w) k = presentView s k := by
  have hforeign : foreignWrite (s.setLaunch l w) k = foreignWrite s k := by
    funext x
    unfold foreignWrite State.setLaunch
    dsimp only
    rw [Table.find_set]
    split
    next h => rw [h, hv]; rfl
    · rfl
  unfold presentView
  rw [hforeign]
  rfl

/-- A continuation waiting in PHASE passes the boundary. -/
theorem passBoundary_own {d : Reg} {p : Nat} (hl : s.th.launch = some l) (hv : Table.find l s.launches = some v)
    (hhome : s.th.home = some s.core) (hst : s.th.status = .blocked (.phase d p)) :
    (passBoundary s.th.id s).th = Thread.loopEnd { s.th.setG d (BitVec.ofNat 64 (p + 1)) with
      pc := s.th.pc + 4
      status := .queued
      phase := s.th.phase + 1
      arrived := false
      fixed := []
      floor := s.th.floor.join (presentView s l) } := by
  let s1 : State := { s with th := s.th.nextPhase (presentView s (s.th.launch.getD 0)) }
  obtain ⟨cores, hwake⟩ := wakeWith_next (s := s1) (k := endWait (.phase d p)) (u := s1.woken.write4 d (w64 (p + 1))) hl rfl
    (by rw [woken_write4 rfl]) (by rw [woken_write4 rfl]; exact (Thread.SameQueue.setG ..).next _) ((congrArg _ (State.write4_launches ..)).trans hv)
  have hpass : passBoundary s.th.id s = { s1.woken.write4 d (w64 (p + 1)) with
      th := (s1.woken.write4 d (w64 (p + 1))).th.loopEnd, cores := cores, launches := Table.set l (v.joined s1.th) (s1.woken.write4 d (w64 (p + 1))).launches } := by
    unfold passBoundary
    rw [focusBlocked_own hhome hst]
    dsimp only
    rw [show finishWait (.phase d p) s1 = _ from hwake]
  have hview : s.th.launch.getD 0 = l := by rw [hl]; rfl
  rw [hpass]
  refine congrArg Thread.loopEnd ((woken_write4 rfl ..).trans ?_)
  rw [← hview]
  unfold Thread.setG
  split <;> rfl

theorem phaseBoundaryAdvances_says : Says.PhaseBoundaryAdvances := by
  intro s l v hv hplaced hreached
  have hexec := execPhaseBoundary_eq hv hplaced hreached
  refine ⟨?_, fun p d halone hl hst hhome => ?_⟩
  · obtain ⟨w, hw, hphase, hfrozen⟩ := passBoundaries_phaseKept (l := l) (s := s.setLaunch l v.nextPhase) (s.threadsOf l) v.nextPhase (Table.find_set_self ..)
    exact .of_eq hexec ⟨w, hw, hphase, hfrozen⟩
  · have hmine : s.threadsOf l = [s.th] := by
      simp [State.threadsOf, State.allThreads, halone, hl, hst]
    rw [hmine] at hexec
    refine .of_eq hexec ?_
    rw [List.foldl_cons, List.foldl_nil, show s.th.id = (s.setLaunch l v.nextPhase).th.id from rfl,
      passBoundary_own (s := s.setLaunch l v.nextPhase) (v := v.nextPhase) hl (Table.find_set_self ..) hhome hst, presentView_setLaunch hv]
    rfl

end

end Sys2Proof.Machine

open Sys2Proof Sys2Proof.Machine

/-- Settles O28: a wait that is over ends as its instruction does, and every step but the boundary itself leaves the phases of launches as they are. -/
theorem waitsAndDispatch : Obligations.WaitsAndDispatch := ⟨waitsEnd_says, coresTakeContinuations_says, phaseBoundaryAdvances_says⟩
end
